-- ==== Sys2Proof/Word.lean ====
section
/-! DEFINITION. The words of the Umric U7 model: the byte, the register word and the 64-bit quantity. -/

namespace Sys2Proof

/-- One byte of memory, of a descriptor or of a record. -/
abbrev Byte := BitVec 8

/-- One BAR0 register: 32 bits (R391). -/
abbrev Word := BitVec 32

/-- A bell counter, an event counter or a timestamp: 64 bits (R282, R331, R332). -/
abbrev Word64 := BitVec 64

/-- A table with few entries that differ from a default: (key, value) pairs, keys strictly rising, no entry equal to
the default. Its operations are in Machine/Ops.lean. -/
abbrev Sparse (α : Type) := List (Nat × α)

end Sys2Proof
end

