-- ==== Sys2Proof/Syntax.lean ====
section
/-! DEFINITION. The commands of the Umric U7: one constructor per row of spec/opcode_table.json, with the row's operands.
An engine e is region*8+block (0-31); c is a cell of it (0-3); slot is a queue slot (0-7); fn is the requesting
function (0 the physical function, 1-64 a virtual function); data is the 32-bit word a register write carries;
n is how many of the running command's tiles are carried out. -/

namespace Sys2Proof

/-- A packet of the links (09_bells_links.md R292): its header's fields and its data. `len` is the header's field; the
offset of a BELL is the low 17 bits of the bell's name. -/
structure Packet where
  type : Nat
  mark : Bool := false
  len : Nat := 0
  dst : Nat := 0
  src : Nat := 0
  window : Nat := 0
  seq : Nat := 0
  offset : Nat := 0
  data : List Byte := []
deriving DecidableEq, Repr

/-- What every flit carries beside its packet area (09_bells_links.md R291): seq, ack, the credits returned to one virtual
channel, the key phase; `good` says that its codewords are correctable and its CRC matches. -/
structure FlitHead where
  seq : Nat := 0
  ack : Nat := 0
  vc : Nat := 0
  credit : Nat := 0
  phase : Bool := false
  good : Bool := true
deriving DecidableEq, Repr

/-- A field of a function's configuration space that host software writes by its name: where it lies is the PCI Express specification's
(R389). The data of the write is the field's value; the size of a BAR is its base-two logarithm, a power state 0 for D0 and 3 for
D3hot, a RID association limit * 2^16 + base, an address association in units of 1 MiB, a bit of aerStatus written 1 clears, and errorReporting has bit 0 for correctable errors, bit 1 for uncorrectable non-fatal ones. -/
inductive ConfigField where
  | powerState | msixEnable | msixMask | ats | bar2Size | vfBar2Size | aerStatus | errorReporting
  | ridAssociation (stream : Nat)
  | addressBase (stream block : Nat)
  | addressLimit (stream block : Nat)
deriving DecidableEq, Repr

/-- What a request of the host for one word is for (R389, R390, R393). -/
inductive Space where
  | bar0 | bar4
  | config (field : ConfigField)
deriving DecidableEq, Repr

/-- What a received TLP carries beside its address and data: the poisoned bit (R387), the size of a request for one word (R391), the
space it is for, the IDE stream it arrives on, none for the one that carries the function's TLPs, and whether its integrity check
passes (R399). -/
structure Tlp where
  poisoned : Bool := false
  len : Nat := 4
  space : Space := .bar0
  stream : Option Nat := none
  intact : Bool := true
deriving DecidableEq, Repr

/-- The commands. Each constructor's docstring gives its row and what its operands say beside the common ones. -/
inductive Instr where
  /-- NOP -/
  | nop (e n : Nat)
  /-- MATMUL. rows is how many rows of a segment enter before its 512 core cycles end it, of the 512 that it has (R79) -/
  | matmul (e n : Nat) (rows : Nat := 512)
  /-- FUSED -/
  | fused (e n : Nat)
  /-- ATTN_PREFILL -/
  | attnPrefill (e n : Nat)
  /-- ATTN_DECODE -/
  | attnDecode (e n : Nat)
  /-- KV_APPEND -/
  | kvAppend (e n : Nat)
  /-- KV_FORK -/
  | kvFork (e n : Nat)
  /-- KV_FREE -/
  | kvFree (e n : Nat)
  /-- NORM -/
  | norm (e n : Nat)
  /-- SOFTMAX -/
  | softmax (e n : Nat)
  /-- SAMPLE -/
  | sample (e n : Nat)
  /-- COPY -/
  | copy (e n : Nat)
  /-- TRANSPOSE -/
  | transpose (e n : Nat)
  /-- ROPE -/
  | rope (e n : Nat)
  /-- MICROPROG -/
  | microprog (e n : Nat)
  /-- WEIGHT_LOAD -/
  | weightLoad (e n : Nat)
  /-- ADOPT -/
  | adopt (e n : Nat)
  /-- FREE_EPOCH -/
  | freeEpoch (e n : Nat)
  /-- FREE_SET -/
  | freeSet (e n : Nat)
  /-- ADAPTER_LOAD -/
  | adapterLoad (e n : Nat)
  /-- ADAPTER_FREE -/
  | adapterFree (e n : Nat)
  /-- ADAPTER_BIND -/
  | adapterBind (e n : Nat)
  /-- BELL_SIGNAL -/
  | bellSignal (e n : Nat)
  /-- BELL_WAIT -/
  | bellWait (e n : Nat)
  /-- LOAD_SEL -/
  | loadSel (e n : Nat)
  /-- CLEAR -/
  | clearCounters (e n : Nat)
  /-- MARKER -/
  | marker (e n : Nat)
  /-- MATCH -/
  | matchCounter (e n : Nat)
  /-- OPEN -/
  | openSession (e n : Nat)
  /-- ADD_RANGE -/
  | addRange (e n : Nat)
  /-- ADD_SET -/
  | addSet (e n : Nat)
  /-- SEAL -/
  | seal (e n : Nat)
  /-- U4_GEMM. rows as for MATMUL -/
  | u4Gemm (e n : Nat) (rows : Nat := 512)
  /-- U4_COPY -/
  | u4Copy (e n : Nat)
  /-- U4_BELL_ADD -/
  | u4BellAdd (e n : Nat)
  /-- U4_BELL_WAIT -/
  | u4BellWait (e n : Nat)
  /-- DOORBELL. entry is the map entry through which a virtual function rings (R394) -/
  | doorbell (fn e : Nat) (data : Word) (entry : Nat := 0)
  /-- DESCRIPTOR_FETCH -/
  | descriptorFetch (e slot : Nat)
  /-- DESCRIPTOR_ARRIVE. data is none for a completion with an error status; tlp is the completion -/
  | descriptorArrive (e slot : Nat) (data : Option (List Byte)) (tlp : Tlp := {})
  /-- TABOR_PREFETCH -/
  | taborPrefetch (e slot : Nat)
  /-- COMMAND_ISSUE -/
  | commandIssue (e : Nat)
  /-- TILE_ISSUE -/
  | tileIssue (e : Nat)
  /-- TILE_BOUNDARY -/
  | tileBoundary (e : Nat)
  /-- COMMAND_END -/
  | commandEnd (e slot : Nat)
  /-- RECORD_CHECK -/
  | recordCheck (e entry : Nat) (ok : Bool) (tlp : Tlp := {})
  /-- BIND -/
  | bind (fn e slot : Nat) (data : Word)
  /-- START -/
  | start (fn e slot : Nat)
  /-- STOP -/
  | stop (fn e slot : Nat)
  /-- RESUME -/
  | resume (fn e slot : Nat)
  /-- FLUSH -/
  | flush (fn e slot : Nat)
  /-- FLUSH_DONE -/
  | flushDone (e slot : Nat)
  /-- UNBIND -/
  | unbind (fn e slot : Nat)
  /-- SHADOW_ACK -/
  | shadowAck (fn e : Nat) (data : Word)
  /-- CTX_KILL -/
  | ctxKill (fn : Nat) (data : Word)
  /-- CTX_ENABLE -/
  | ctxEnable (fn : Nat) (data : Word)
  /-- RELAY_CREDIT -/
  | relayCredit (e relay n : Nat)
  /-- BELL_WAIT_TIMEOUT -/
  | bellWaitTimeout (e slot : Nat)
  /-- PASS_ISSUE. final says that it is the last pass for its output elements (R78) -/
  | passIssue (e c rate tileK tileN rows : Nat) (accIn : Bool) (groupBase : Nat) (final : Bool := false)
  /-- RAMP_STEP -/
  | rampStep (e c : Nat)
  /-- IDLE_HOLD_EXPIRY -/
  | idleHoldExpiry (e c : Nat)
  /-- ARRAY_ROW_ENTER -/
  | arrayRowEnter (e c : Nat)
  /-- ARRAY_FREEZE -/
  | arrayFreeze (e c : Nat) (act shd drn : Bool)
  /-- SHADOW_LOAD -/
  | shadowLoad (e c : Nat) (ok : Bool)
  /-- REDECODE -/
  | redecode (e c : Nat) (ok : Bool)
  /-- ROW_COMMIT. freed is how many staging buffers the vector unit has finished with since (R123) -/
  | rowCommit (e c : Nat) (freed : Nat := 0)
  /-- ARR_CLR_COUNTERS -/
  | arrClrCounters (fn e c : Nat) (data : Word)
  /-- VEC_CLR_COUNTERS -/
  | vecClrCounters (fn e c : Nat) (data : Word)
  /-- SFU_CLR_COUNTERS -/
  | sfuClrCounters (fn e c : Nat) (data : Word)
  /-- EXP_CLR_COUNTERS -/
  | expClrCounters (fn e c : Nat) (data : Word)
  /-- ENG_CLR_COUNTERS -/
  | engClrCounters (fn e : Nat) (data : Word)
  /-- BEL_CLR_COUNTERS -/
  | belClrCounters (fn region : Nat) (data : Word)
  /-- DGS_CLR_COUNTERS -/
  | dgsClrCounters (fn : Nat) (data : Word)
  /-- NOC_CLR_COUNTERS -/
  | nocClrCounters (fn die : Nat) (data : Word)
  /-- MICROPROG_REGISTER -/
  | microprogRegister
  /-- MICROPROG_UNREGISTER -/
  | microprogUnregister
  /-- MICROPROG_LOADED -/
  | microprogLoaded (index : Nat)
  /-- USTORE_REWRITE_DONE -/
  | ustoreRewriteDone (region index : Nat)
  /-- ALLOC -/
  | alloc (e slot : Nat)
  /-- COMMIT -/
  | commit (e slot : Nat)
  /-- LEASE -/
  | lease (e slot : Nat)
  /-- UNLEASE -/
  | unlease (e slot : Nat)
  /-- SHARE -/
  | share (e slot : Nat)
  /-- DROP -/
  | drop (e slot : Nat)
  /-- LOOKUP -/
  | lookup (e slot : Nat)
  /-- KVP_ENABLE -/
  | kvpEnable (fn region : Nat) (data : Word)
  /-- DECAY_ADVANCE -/
  | decayAdvance (region : Nat)
  /-- DEMOTION_SCAN -/
  | demotionScan (region : Nat)
  /-- MIGRATION_START -/
  | migrationStart (region page : Nat)
  /-- MIGRATION_EXCHANGE -/
  | migrationExchange (region page : Nat)
  /-- COMMAND_BOUNDARY -/
  | commandBoundary (e : Nat)
  /-- EPOCH_REF_INCREMENT -/
  | epochRefIncrement (set slot : Nat)
  /-- EPOCH_REF_DECREMENT -/
  | epochRefDecrement (set slot : Nat)
  /-- FETCH_TIMEOUT -/
  | fetchTimeout (e slot : Nat)
  /-- WGT_ENABLE -/
  | wgtEnable (fn : Nat) (data : Word)
  /-- MEMORY_READ -/
  | memoryRead (pa len key : Nat)
  /-- MEMORY_WRITE -/
  | memoryWrite (pa : Nat) (data : List Byte) (key : Nat)
  /-- PATROL_SCRUB -/
  | patrolScrub (ctl : Nat)
  /-- SPARE_REQ -/
  | spareReq (fn ctl : Nat) (data : Word)
  /-- SPARE_DONE -/
  | spareDone (ctl : Nat)
  /-- PAGE_WALK. stream is the requester, as in R224 -/
  | pageWalk (e ctx va : Nat) (stream : Nat := 0)
  /-- WALK_COMPLETE -/
  | walkComplete (region walker : Nat)
  /-- INVALIDATION. entry is the map entry of the context through which a virtual function writes (R394) -/
  | invalidation (fn : Nat) (data : Word) (entry : Nat := 0)
  /-- INVALIDATION_DONE -/
  | invalidationDone
  /-- XLT_FLUSH -/
  | xltFlush (fn e : Nat) (data : Word)
  /-- ATS_TRANSLATION_COMPLETION -/
  | atsTranslationCompletion (fn addr : Nat) (ok : Bool) (target log2 : Nat) (rd wr : Bool) (tlp : Tlp := {})
  /-- ATS_INVALIDATION_REQUEST -/
  | atsInvalidationRequest (fn tag addr log2 : Nat)
  /-- ATS_INVALIDATION_COMPLETION -/
  | atsInvalidationCompletion (fn tag : Nat)
  /-- PCIE_COMPLETION. tlp is the completion as it arrives -/
  | pcieCompletion (id : Nat) (ok : Bool) (data : List Byte) (tlp : Tlp := {})
  /-- COMPLETION_TIMEOUT -/
  | completionTimeout (id : Nat)
  /-- IN_CFG -/
  | inCfg (fn : Nat) (data : Word)
  /-- FAULT_RECORD -/
  | faultRecord (region : Nat)
  /-- FLT_TAIL_WRITE -/
  | fltTailWrite (fn region : Nat) (data : Word)
  /-- FLT_ENABLE -/
  | fltEnable (fn region : Nat) (data : Word)
  /-- DEVICE_LOG_ENTRY -/
  | deviceLogEntry
  /-- NOC_RETRANSMIT -/
  | nocRetransmit (die link fails : Nat)
  /-- SIGNAL. src and dst are regions; fails is how often the message failed its CRC before it arrived -/
  | signal (src dst fails : Nat)
  /-- ADD. src and dst are regions; fails is how often the message failed its CRC before it arrived -/
  | add (src dst fails : Nat)
  /-- WATCH. src and dst are regions; fails is how often the message failed its CRC before it arrived -/
  | watch (src dst fails : Nat)
  /-- UNWATCH. src and dst are regions; fails is how often the message failed its CRC before it arrived -/
  | unwatch (src dst fails : Nat)
  /-- WAKE. src and dst are regions; fails is how often the message failed its CRC before it arrived -/
  | wake (src dst fails : Nat)
  /-- CARILLON_CREDIT_RETURN -/
  | carillonCreditReturn (e dst : Nat)
  /-- WAKE_CREDIT_RETURN -/
  | wakeCreditReturn (src dst : Nat)
  /-- BELL_RESET -/
  | bellReset (fn region : Nat) (data : Word)
  /-- BEL_OP_SIGNAL -/
  | belOpSignal (fn region : Nat) (data : Word)
  /-- BELL_RESTORE -/
  | bellRestore (fn region : Nat) (data : Word)
  /-- DATA_FLIT. packets are those whose last byte lies in the flit -/
  | dataFlit (port : Nat) (head : FlitHead) (packets : List Packet)
  /-- NAK. seq is the flit that the NAK names -/
  | nak (port seq : Nat) (head : FlitHead := {})
  /-- RETRAIN_DONE -/
  | retrainDone (port : Nat)
  /-- REPLAY_EXPIRY -/
  | replayExpiry (port : Nat)
  /-- MAC_FLIT. ok says that the tag verifies; counter is the group counter that the flit carries, none for the one expected -/
  | macFlit (port : Nat) (head : FlitHead) (ok : Bool := true) (counter : Option Nat := none)
  /-- KEY_CHANGE -/
  | keyChange (port : Nat) (head : FlitHead := {})
  /-- WRITE -/
  | writeReq (port src seq window offset : Nat) (data : List Byte)
  /-- READ -/
  | readReq (port src seq window offset len : Nat)
  /-- BELL -/
  | bellReq (port src seq index : Nat) (value : Word64)
  /-- READ_DATA -/
  | readData (port src seq : Nat) (data : List Byte)
  /-- ACK -/
  | ack (port src seq : Nat)
  /-- HOLD -/
  | hold (port src seq : Nat)
  /-- REJECT -/
  | reject (port src seq reason : Nat)
  /-- E2E_TIMEOUT -/
  | e2eTimeout (id : Nat)
  /-- WRITE_RETIRE -/
  | writeRetire (id : Nat)
  /-- HOLD_ON -/
  | holdOn (port src : Nat) (head : FlitHead := {})
  /-- HOLD_OFF -/
  | holdOff (port src : Nat) (head : FlitHead := {})
  /-- PEER_SILENT -/
  | peerSilent (peer : Nat)
  /-- PEER_LOST -/
  | peerLost (peer : Nat)
  /-- PEER_CLEAR -/
  | peerClear (fn : Nat) (data : Word)
  /-- RELEASE -/
  | release (fn : Nat) (data : Word)
  /-- PORT_ENABLE -/
  | portEnable (fn port : Nat) (data : Word)
  /-- PORT_RETRAIN -/
  | portRetrain (fn port : Nat) (data : Word)
  /-- PORT_TRAINED. healthy is false when an entropy health test has failed -/
  | portTrained (port : Nat) (ok sw : Bool) (lanes partner : Nat) (healthy : Bool := true)
  /-- COUNTER_MATCH -/
  | counterMatch (e counter : Nat)
  /-- MATCH_ARM -/
  | matchArm (fn e : Nat) (data : Word)
  /-- CNT_CLEAR -/
  | cntClear (fn e : Nat) (data : Word)
  /-- SELECTION_APPLY -/
  | selectionApply (e : Nat)
  /-- TRACE_RECORD -/
  | traceRecord (region : Nat)
  /-- TRACE_ENABLE -/
  | traceEnable (fn region : Nat) (data : Word)
  /-- TRIGGER -/
  | trigger (fn region : Nat) (data : Word)
  /-- TRACE_DUMP -/
  | traceDump (fn region : Nat) (data : Word)
  /-- DUMP_DONE -/
  | dumpDone (region : Nat)
  /-- GONG_RAISE -/
  | gongRaise (fn : Nat) (data : Word)
  /-- GONG_CUT -/
  | gongCut
  /-- GONG_RESUME -/
  | gongResume (fn : Nat) (data : Word)
  /-- MANAGEMENT_TICK -/
  | managementTick
  /-- AVS_ACK -/
  | avsAck (region : Nat)
  /-- AVS_TIMEOUT -/
  | avsTimeout (region : Nat)
  /-- POWER_WINDOW -/
  | powerWindow (e power : Nat)
  /-- TEMPERATURE_SAMPLE -/
  | temperatureSample (die : Nat) (temps : List Int)
  /-- WATCHDOG -/
  | watchdog (e : Nat)
  /-- ENGINE_RESET. failure true: the self-check finds a mismatch; false: an uncorrectable error in step 5 -/
  | engineReset (e : Nat) (failure : Option Bool := none)
  /-- QUIESCE_TIMEOUT -/
  | quiesceTimeout (e : Nat)
  /-- RESET_REQ -/
  | resetReq (fn e : Nat) (data : Word)
  /-- REPLAY_START -/
  | replayStart (e : Nat)
  /-- REPLAY_LIMIT -/
  | replayLimit (e : Nat)
  /-- DEV_RESET -/
  | devReset (fn : Nat) (data : Word)
  /-- DEVICE_RESET -/
  | deviceReset
  /-- DEVICE_RESET_DONE -/
  | deviceResetDone
  /-- FLR -/
  | flr (fn : Nat)
  /-- VF_ENABLE_CLEAR -/
  | vfEnableClear
  /-- HOT_RESET -/
  | hotReset
  /-- CLOCK_LOSS -/
  | clockLoss (clock : Nat)
  /-- CLOCK_RETURN -/
  | clockReturn (clock : Nat)
  /-- PERST_ASSERT -/
  | perstAssert (nanos : Nat)
  /-- PERST_RELEASE -/
  | perstRelease
  /-- BAR2_READ -/
  | bar2Read (fn addr len : Nat) (tlp : Tlp := {})
  /-- BAR2_WRITE. tlp is the request as it arrives -/
  | bar2Write (fn addr : Nat) (data : List Byte) (tlp : Tlp := {})
  /-- REGISTER_WRITE. tlp is the request as it arrives -/
  | registerWrite (fn addr : Nat) (data : Word) (tlp : Tlp := {})
  /-- ERR_STATUS_CLEAR -/
  | errStatusClear (fn page : Nat) (data : Word)
  /-- ERR_INJECT -/
  | errInject (fn page : Nat) (data : Word)
  /-- VF_MAP -/
  | vfMap (fn : Nat) (data : Word)
  /-- MSIX_UNMASK -/
  | msixUnmask (fn vector : Nat)
  /-- KEY_PROG. part is the sub-stream (0 posted, 1 non-posted, 2 completions) and direction (true: transmit) whose key is programmed, none for all six -/
  | keyProg (stream keySet : Nat) (part : Option (Nat × Bool) := none)
  /-- K_SET_GO -/
  | kSetGo (stream keySet : Nat)
  /-- K_SET_STOP -/
  | kSetStop (stream keySet : Nat)
  /-- LOCK_INTERFACE. healthy is false when an entropy health test has failed -/
  | lockInterface (vf stream : Nat) (healthy : Bool := true)
  /-- START_INTERFACE -/
  | startInterface (vf : Nat) (nonceOk : Bool)
  /-- STOP_INTERFACE -/
  | stopInterface (vf : Nat)
  /-- GET_VERSION -/
  | getVersion (session : Option Nat)
  /-- GET_CAPABILITIES. version is the version of the request, 0x13 or 0x12 -/
  | getCapabilities (session : Option Nat) (version : Nat := 0x13)
  /-- NEGOTIATE_ALGORITHMS -/
  | negotiateAlgorithms (session : Option Nat) (supported : Bool)
  /-- GET_DIGESTS -/
  | getDigests (session : Option Nat)
  /-- GET_CERTIFICATE -/
  | getCertificate (session : Option Nat) (chain : Nat)
  /-- CHALLENGE. slot is the certificate slot that the request names -/
  | challenge (session : Option Nat) (nonce : List Byte) (slot : Nat := 0)
  /-- GET_MEASUREMENTS. slot is the certificate slot that the request names -/
  | getMeasurements (session : Option Nat) (index : Nat) (signed : Bool) (nonce : List Byte) (slot : Nat := 0)
  /-- KEY_EXCHANGE. slot is the certificate slot that the request names; healthy is false when an entropy health test has failed -/
  | keyExchange (id : Nat) (slot : Nat := 0) (healthy : Bool := true)
  /-- FINISH -/
  | finish (id : Nat) (ok : Bool)
  /-- KEY_UPDATE. healthy is false when an entropy health test has failed -/
  | keyUpdate (id : Nat) (healthy : Bool := true)
  /-- HEARTBEAT -/
  | heartbeat (id : Nat)
  /-- END_SESSION -/
  | endSession (id : Nat)
  /-- SET_ENDPOINT_ID -/
  | setEndpointId (eid : Nat)
  /-- QUERY_DEVICE_IDENTIFIERS -/
  | queryDeviceIdentifiers
  /-- GET_FIRMWARE_PARAMETERS -/
  | getFirmwareParameters
  /-- REQUEST_UPDATE -/
  | requestUpdate
  /-- PASS_COMPONENT_TABLE. cls and identifier are those of the component that it names -/
  | passComponentTable (gen : Nat) (cls : Nat := 0x000A) (identifier : Nat := 0x0001)
  /-- UPDATE_COMPONENT. cls and identifier are those of the component that it names -/
  | updateComponent (len : Nat) (cls : Nat := 0x000A) (identifier : Nat := 0x0001)
  /-- REQUEST_FIRMWARE_DATA -/
  | requestFirmwareData (offset : Nat) (data : List Byte)
  /-- TRANSFER_COMPLETE -/
  | transferComplete (ok : Bool)
  /-- VERIFY_COMPLETE -/
  | verifyComplete
  /-- APPLY_COMPLETE -/
  | applyComplete
  /-- ACTIVATE_FIRMWARE. selfContained is SelfContainedActivationRequest -/
  | activateFirmware (selfContained : Bool := false)
  /-- GET_STATUS -/
  | getStatus
  /-- CANCEL_UPDATE_COMPONENT -/
  | cancelUpdateComponent
  /-- CANCEL_UPDATE -/
  | cancelUpdate
  /-- SET_EVENT_RECEIVER -/
  | setEventReceiver (on : Bool)
  /-- SET_NUMERIC_SENSOR_ENABLE -/
  | setNumericSensorEnable (sensor : Nat) (on : Bool)
  /-- PLDM_TYPE_DISCOVERY -/
  | pldmTypeDiscovery (cmd : Nat)
  /-- SVN_COMMIT -/
  | svnCommit (fn : Nat) (data : Word)
  /-- GENERATE -/
  | generate (ok : Bool)
  /-- ERASE -/
  | erase
  /-- DBG_CHALLENGE -/
  | dbgChallenge
  /-- DBG_UNLOCK. healthy is false when an entropy health test has failed -/
  | dbgUnlock (healthy : Bool := true)
  /-- POWER_ON -/
  | powerOn
  /-- POWER_OFF -/
  | powerOff
  /-- LANE_DOWN -/
  | laneDown (port : Nat)
  /-- IDLE_FLIT. ackSeq, vc, credit and good are as in FlitHead; an idle flit has no sequence number of its own -/
  | idleFlit (port ackSeq vc credit : Nat) (good : Bool)
  /-- HOLD_BEACON -/
  | holdBeacon
  /-- DGS_ANSWER -/
  | dgsAnswer
  /-- PCIE_LINK_TRAINED. ats says that host software enables ATS for the physical function -/
  | pcieLinkTrained (rate width : Nat) (flit : Bool) (ats : Bool := false)
  /-- VF_ENABLE. ats says that host software enables ATS for these functions -/
  | vfEnable (count bar2Log2 : Nat) (ats : Bool := false)
  /-- REGISTER_READ -/
  | registerRead (fn addr : Nat) (tlp : Tlp := {})
deriving DecidableEq, Repr

end Sys2Proof
end

