-- ==== Sys2Proof/Config.lean ====
section
/-! DEFINITION. What the spec leaves open, as constants without a body: nothing can be proved of their values, so a
statement holds whatever they are. Each is named in a row of notes/assumptions. -/

namespace Sys2Proof.Config

/-- R219: a byte of a line read under a key that did not write it ("bytes that no key wrote"): a function of the line's
address, its stored bytes, the generation of the key that wrote it, the generation of the reading key, and the byte's
place, so that every read returns the same until the line is written (log 20). -/
opaque foreignByte (line : Nat) (stored : List Byte) (wrote reads place : Nat) : Byte

/-- A fresh value the spec does not give: an argument that differs at every draw (log 2). -/
opaque freshWord (draw : Nat) : Word64

/-- The bytes of a value of many bytes that the spec does not give, by the draw that names it and the byte's place (log 2). -/
opaque freshByte (draw place : Nat) : Byte

/-- R359 leaves flags bit 0 of a device log entry open (the phase bit is defined for a region's ring): the bit of entry n
(log 21). -/
opaque logPhase (entry : Nat) : Bool

/-- R209: the row of a part that holds a device address, and its bank; the mapping is internal to the controller
(log 22). -/
opaque rowOf (ctl addr : Nat) : Nat
opaque bankOf (ctl addr : Nat) : Nat

/-- Free value: a port's receive buffer for a virtual channel, in the 64-byte units of its credits (R291, R293; log 135). -/
opaque linkBuffer (vc : Nat) : Nat

/-- R295: AES-256-GCM as NIST SP 800-38D defines it, which is no part of the spec: byte of the key stream, and byte of the tag over the
additional data and the sealed text, under a key, a salt and a group counter (log 160). -/
opaque gcmByte (key salt counter place : Nat) : Byte
opaque gcmTag (key salt counter : Nat) (aad text : List Byte) (place : Nat) : Byte

/-- R422: the key and the salt that a link session exports for a direction, 0 transmit and 1 receive, by the draw that names the
session's secrets (log 160). -/
opaque linkKey (draw direction : Nat) : Nat
opaque linkSalt (draw direction : Nat) : Nat

/-- R291: a byte of the area of a control flit, whose contents the spec does not lay out: by what the flit says and the byte's place
(log 137). -/
opaque controlByte (what arg place : Nat) : Byte

/-- The spare rows of a bank as the part reports them at training (HBC.SPARES.remaining: "set by the part's own vendor
data"; log 22). -/
opaque spareRows (ctl bank : Nat) : Nat

/-- HBC.SPARES.remaining after n repairs: the smallest number of spare rows left in any bank of the part (log 22). -/
opaque sparesLeft (ctl : Nat) (repairs : List (Nat × Nat)) : Nat

/-- R119: the FP32 pattern that output o of the built-in function at an index from 2 to 12 has for an input pattern, as its listing in
the firmware image defines it; what the rule states of it is imposed where it is used (log 31). -/
opaque builtinResult (index o input : Nat) : Nat

/-- R119: how many of the EXP2 and LOG2 results that the table gives a built-in function are EXP2 results, which stands in its
listing (log 31). -/
opaque builtinExp2 (index : Nat) : Nat

/-- CLK.GATE_PCT: the percent of core cycles of a tick in which an engine's clock was gated, which depends on timing
(log 60); used modulo 101. -/
opaque gatedPct (tick engine : Nat) : Nat

/-- R406: a byte of the fused SHA-384 of the RSA (0) or SLH-DSA (1) public key of firmware key set 0, 1 or the debug key set (2): the
keys are no part of the spec (log 49). -/
opaque fusedHash (set algorithm place : Nat) : Byte

/-- R388: the metal revision, and the subsystem identifiers that the board table of the image with a gen gives (log 141). -/
opaque metalRevision : BitVec 4
opaque subsystem (gen : Nat) : Word

/-- R410: RSASSA-PSS and SLH-DSA-SHA2-192s verification of a signature over bytes under a public key, which other documents define
(log 49). -/
opaque rsaVerifies (key signed signature : List Byte) : Bool
opaque slhVerifies (key signed signature : List Byte) : Bool

/-- R406 R410: a byte of the RSA (0) or SLH-DSA (1) public key of a firmware key set, which the image that the part was shipped with
holds (log 49). -/
opaque publicKey (set algorithm place : Nat) : Byte

/-- R406 R419: the attestation private key of an algorithm, as the Sladex root unwraps it from the fuses (log 74). -/
opaque unwrapped (algorithm : Nat) (wrapped : List Byte) : List Byte

/-- R421: the bytes of measurement 1, 2 or 3 of the firmware image with a gen, eight at a time: the spec does not give the
boot ROM nor an image (log 61). -/
opaque measured (index gen part : Nat) : Word64

/-- R419: the certificates of chain 0 or 1: Ployn's root, the product certificate of the Umric U7, and the device certificate, which carries
the serial number and the part number; certificates are no part of the spec (log 74). -/
opaque rootCertificate (chain : Nat) : List Byte
opaque productCertificate (chain : Nat) : List Byte
opaque deviceCertificate (chain serial part : Nat) : List Byte

/-- R416: the slot that an update writes while no image runs, which the spec does not say: true for slot B (log 75). -/
opaque rescueSlotB : Bool

end Sys2Proof.Config
end

