-- ==== Sys2Proof/Machine/State.lean ====
section
/-! DEFINITION. The state of the Umric U7 as plain data, the reasons a command can stop, and the state after power-on.
Tables are sparse: a key that is not listed holds the default that its accessor in Machine/Ops.lean names.
Keys: an engine is region*8+block (0-31); a cell is engine*4+cell (0-127); a queue slot is engine*8+slot (0-255);
a bell is region*32768+index; a bell group is region*512+group; a controller is tier*16+region*4+controller
(tier 0 HBM3E, 1 LPDDR5X); a port is 0-17. -/

namespace Sys2Proof.Machine

/-- Why a command stops the machine. -/
inductive Fault where
  /-- Raised by PERST_ASSERT for an assertion between 10 us and 100 us, which R439 calls undefined. Safe: the model stops
  where the hardware does something that the spec does not give. -/
  | undefinedPerst
deriving DecidableEq, Repr

/-- Why the model gives a command no meaning. -/
inductive Refusal where
  /-- Raised only by an arm of exec that has no meaning yet. Safe: nothing can be proved of a state that is not reached. -/
  | notModelled (mnemonic : String)
deriving DecidableEq, Repr

/-! ### Power, clocks and time -/

/-- The power and reset state of the device (R376, R382, R383, R413, R414). -/
inductive Power where
  | off | perst | ready | resetting | held | fwFail | tripped
deriving DecidableEq, Repr

structure Clocks where
  /-- 3 bits; 12_faults.md R376 R382 R383, 14_security_mgmt.md R413 R414; reset: perst (power applied, PERST# asserted, R434) -/
  power : Power := .perst
  /-- 64 bits; 11_observability.md R331 the timestamp master; reset 0 at power-on (R331) -/
  time : Word64 := 0
  /-- 6 signed offsets; R331 each die's counter minus the master (0-3 regions, 4 IO die A, 5 IO die B); reset 0 -/
  dieSkew : Sparse Int := []
  /-- 6 x 64 bits; R331 the count at which a die that was ahead has stopped until the master passes it; reset 0 -/
  dieStop : Sparse Word64 := []
  /-- 64 bits; 14 MGT.TICK, R425; reset 0 -/
  ticks : Word64 := 0
  /-- 1 bit; R383 REFCLK is lost; reset 0 -/
  lostRef : Bool := false
  /-- 1 bit; R383 LINK_REFCLK is lost; reset 0 -/
  lostLink : Bool := false
  /-- 1 bit; R383 MGT_CLK is lost; reset 0 -/
  lostMgt : Bool := false
  /-- 3 bits; 16_registers.md R459 CLK.REF as sampled at the last tick (R38); reset 0 -/
  refs : Nat := 0
  /-- 3 bits; 15_electrical.md R440 straps SMB_ADDR as latched; reset DESIGN CHOICE 0 (log 3) -/
  smbAddr : Nat := 0
  /-- 1 bit; R441 THERMTRIP_N is driven low; reset 0 -/
  thermTrip : Bool := false
deriving DecidableEq, Repr

/-- What the fuses hold (R406). Key hashes are held as what they are compared with: opaque values of Config. -/
structure Fuses where
  /-- 1 bit; 00_scope.md R1 grade: true UMR7-P112-A; reset DESIGN CHOICE false (log 3) -/
  harvested : Bool := false
  /-- 128 x 1 bit; R2 R406 cells disabled by the harvest map; reset none (log 3) -/
  disabled : List Nat := []
  /-- 128 x 1 bit; R2 R355 cells whose fuse map fails its check at boot; reset none (log 3) -/
  badMap : List Nat := []
  /-- 128 x 128 bits; 03_matrix_array.md R94 bypassed data columns of each cell; reset none (log 3) -/
  colMap : Sparse (BitVec 128) := []
  /-- 7 bits; R406 R415 the anti-rollback counter c; reset DESIGN CHOICE 0 (log 3) -/
  svn : Nat := 0
  /-- 3 bits; R406 revoke bits of firmware key set 0, set 1 and the debug key set; reset 0 (log 3) -/
  revoked : BitVec 3 := 0
  /-- 64 bits; R406 device serial number; reset DESIGN CHOICE 0 (log 3) -/
  serial : Word64 := 0
  /-- R406 the wrapped attestation private keys of the two algorithms; reset DESIGN CHOICE empty (log 3) -/
  wrapped : List (List Byte) := [[], []]
  /-- rows; R214 repairs recorded for the next power-up, as (controller, row); reset none -/
  repairs : List (Nat × Nat) := []
deriving DecidableEq, Repr

/-! ### Registers -/

structure RegFile where
  /-- n x 32 bits; 16_registers.md R461 every register that holds a value of its own, keyed by BAR0 offset; reset: the table of R461 -/
  regs : Sparse Word := []
  /-- n x 64 bits; R461 the 64-bit counters, keyed by the BAR0 offset of LO; reset 0 -/
  ctrs : Sparse Word64 := []
  /-- n x 32 bits; R456 the LO/HI holding registers, keyed function * 2^28 + BAR0 offset of HI; reset 0 -/
  hold : Sparse Word := []
  /-- n x 32 bits; 01_architecture.md R38 the values of management-page registers in force, where they differ from regs; reset: equal -/
  inForce : Sparse Word := []
  /-- n x 32 bits; 12_faults.md R361 armed injections, keyed by the page's BAR0 offset; reset 0 -/
  armed : Sparse Word := []
  /-- n x 32 bits; R38 injections written on management pages that the next tick arms, by page; reset none -/
  injNext : Sparse Word := []
  /-- n x 32 bits; R38 writes that clear flags or counts of management pages (RW1C, RWS) and that the next tick carries out, keyed by
  the register's BAR0 offset; reset none -/
  clrNext : Sparse Word := []
deriving DecidableEq, Repr

/-! ### Memory -/

/-- The key under which a line was written: key slot and the generation of that slot's key (R218). -/
structure KeyTag where
  slot : Nat := 0
  gen : Nat := 0
deriving DecidableEq, Repr

/-- How a stored line is damaged (R211). -/
inductive LineErr where
  | corrected | uncorrectable
deriving DecidableEq, Repr

/-- One memory controller (R213, R214). -/
structure Ctl where
  /-- R214 the row being repaired, as a device address -/
  sparing : Option Nat := none
  /-- R214 R348 the rows whose repairs wait, one at a time and none begun in a gong, as physical addresses -/
  spareDue : List Nat := []
  /-- R214 corrected errors of each row in the scrub period -/
  rowErrs : Sparse Nat := []
  /-- R214 repairs since power-up -/
  used : Nat := 0
  /-- R213 next device address of the patrol -/
  patrol : Nat := 0
deriving DecidableEq, Repr

structure Memory where
  /-- 2^44 bytes; 07_memory.md R208 device physical memory, each byte as written under its line's key; reset 0 (R462) -/
  cells : List Host.Cell := []
  /-- per 64-byte line; R217 R219 the key that last wrote the line; reset: the key of the power-up fill (R462) -/
  lineKey : Sparse KeyTag := []
  /-- per line; R211 R361 damage stored with the line; reset none -/
  lineErr : Sparse LineErr := []
  /-- per controller; R213 R214; reset idle -/
  ctls : Sparse Ctl := []
  /-- 256 x; R218 the key slots: generation of the key loaded, 0 when EMPTY; reset all EMPTY before power-up step 2 -/
  keys : Sparse Nat := []
  /-- counter; R407 keys generated so far (the model's own: a generation names one key); reset 0 -/
  nextGen : Nat := 0
  /-- counter; R462 generation of the key of slot 0 under which the power-up fill was written; reset 0 -/
  fillGen : Nat := 0
deriving DecidableEq, Repr

/-! ### Translation -/

/-- A context's root (R220): XLT.ROOT_LO/HI and ROOT_CFG. -/
structure Root where
  lo : Word := 0
  hi : Word := 0
  cfg : Word := 0x34
deriving DecidableEq, Repr

/-- A translation found by a walk (R221): base of the page, its size as a power of two, the leaf entry. -/
structure TlbEntry where
  ctx : Nat := 0
  base : Nat := 0
  log2 : Nat := 0
  pte : Word64 := 0
  pinned : Bool := false
  /-- R227 its parity is wrong: the lookup that meets it drops it -/
  bad : Bool := false
deriving DecidableEq, Repr

/-- A miss that is walked, or waits for a walker (R224, R225): its engine and stream, the priority of its command. -/
structure Walk where
  region : Nat := 0
  walker : Nat := 0
  engine : Nat := 0
  stream : Nat := 0
  prio : Nat := 0
  ctx : Nat := 0
  va : Nat := 0
deriving DecidableEq, Repr

/-- A table pointer of level 1 or 2 in a walk cache (R225): the addresses that it covers; bad when its parity is wrong. -/
structure WalkEntry where
  ctx : Nat := 0
  base : Nat := 0
  log2 : Nat := 0
  bad : Bool := false
deriving DecidableEq, Repr

/-- An invalidation in progress (R223). -/
structure Inval where
  fn : Nat := 0
  seq : Nat := 0
  ctx : Option Nat := none
  base : Nat := 0
  log2 : Nat := 0
  /-- what began before it and has not finished: walks (region, walker), host reads, requests over links -/
  walks : List (Nat × Nat) := []
  reads : List Nat := []
  reqs : List Nat := []
deriving DecidableEq, Repr

/-- An entry of the address translation cache (R228). -/
structure AtcEntry where
  fn : Nat := 0
  base : Nat := 0
  log2 : Nat := 0
  target : Nat := 0
  read : Bool := false
  write : Bool := false
  /-- R227 its parity is wrong: the lookup that meets it drops it -/
  bad : Bool := false
deriving DecidableEq, Repr

structure Translation where
  /-- 256 x 96 bits; 07_memory.md R220 XLT roots as written; reset 0, va_bits 0x34 -/
  roots : Sparse Root := []
  /-- 32 x 256 entries; R224 engine translation buffers, keyed by engine; reset empty -/
  tlb : Sparse (List TlbEntry) := []
  /-- 4 x 2,048 sets x 8 entries; R225 region second levels, keyed by region * 2,048 + set; reset empty -/
  l2 : Sparse (List TlbEntry) := []
  /-- 4 x 512 entries; R225 walk caches, keyed by region; reset empty -/
  walkCache : Sparse (List WalkEntry) := []
  /-- R224 R225 misses that wait for a walker, in order of arrival; reset none -/
  misses : List Walk := []
  /-- 4 x 8 walkers; R225 walks in progress; reset none -/
  walks : List Walk := []
  /-- R223 invalidations in progress, oldest first; reset none -/
  invals : List Inval := []
  /-- 16 bits per function; R394 last completed sequence number of a virtual function; reset 0 -/
  invalDone : Sparse Nat := []
  /-- 4,096 entries; R228 address translation cache; reset empty -/
  atc : List AtcEntry := []
  /-- R228 1 bit per function: ATS enabled by host software; reset 0 (the PCI Express default) -/
  atsOn : List Nat := []
  /-- R230 Invalidation Requests not yet completed: function, tag, and the host reads that were on their way; reset none -/
  atsInvals : List (Nat × Nat × List Nat) := []
  /-- 1,024 x 32 bits; R233 outbound window entries; reset 0 -/
  winOut : Sparse Word := []
  /-- 1,024 x 128 bits; R234 R235 inbound window entries in force: base, size in 2 MiB units, configuration word; reset 0 -/
  winIn : Sparse (Nat × Nat × Word) := []
  /-- WIN page: window entries that fail parity until they are rewritten: outbound w, inbound 1,024 + w; reset none -/
  winBad : List Nat := []
deriving DecidableEq, Repr

/-! ### Contexts, queues, engines, cells -/

inductive CtxState where
  | free | active | killed
deriving DecidableEq, Repr

/-- One context (R270, 08_commands.md CTX page). -/
structure Ctx where
  /-- 2 bits; CTX.STATE.state; reset FREE -/
  state : CtxState := .free
  /-- 7 bits; CTX.CFG.owner; reset 0 -/
  owner : Nat := 0
  /-- 1 bit; R252 CTX.STATE.replayable; reset 0 -/
  replayable : Bool := false
  /-- R202 adapter bindings (weight set, adapter slot), at most 16; reset none -/
  adapters : List (Nat × Nat) := []
  /-- R223 the root in use since the last binding; reset none -/
  root : Option Root := none
deriving DecidableEq, Repr

/-- The states of a queue slot (R257). -/
inductive SlotState where
  | unbound | stopped | active | pausedErr | pausedCmpl | flushing | suspect | dead
deriving DecidableEq, Repr

/-- The status codes of R253. -/
inductive Status where
  | ok | opcodeInvalid | operandFormat | shapeInvalid | microprogInvalid
  | translationFault | memUe | descFault
  | kvPoolOff | kvPageSize | kvPageNone | kvPageFree | kvPageRange | kvNospace | kvListConflict | kvRefcount
  | weightNospace | shardDigest | shardTimeout | weightBusy | weightAccess | weightNotReady | expandLen | adapterInvalid
  | bellTimeout | peerLost | cancelled | convicted | killed | relayAbort
deriving DecidableEq, Repr

/-- One fault record (R236, R359) before it is laid out in 64 bytes. -/
structure FaultRec where
  code : Nat := 0
  level : Nat := 0
  region : Nat := 0
  time : Word64 := 0
  addr : Option (Nat × Nat) := none
  cause : Nat := 0
  source : Nat := 0
  stream : Nat := 0
  ctx : Option Nat := none
  slot : Nat := 0
  tag : Nat := 0
  layer : Nat := 0
  op : Nat := 0
  detail : List Byte := []
  enabled : Bool := false
  injected : Bool := false
  /-- the sequence number the region ring gave the record, 0 when it was not written there (R359) -/
  regionSeq : Nat := 0
deriving DecidableEq, Repr

/-- One descriptor held by the tabor (R265): ring index, its 128 bytes, or none when it could not be read (R256). -/
structure Fetched where
  index : Nat := 0
  desc : Option (List Byte) := none
  prefetched : Bool := false
  /-- R243: what its decode found -/
  status : Status := .ok
  /-- R361: an injection acted on it: its read failed, or one of its bits was flipped (PREFETCH_PARITY) -/
  bad : Bool := false
  /-- R280: the device's own identifier when it was decoded, by which its bell names are read; none when not valid -/
  own : Option Nat := none
deriving DecidableEq, Repr

/-- A condition of a waiting BELL_WAIT (R251): bell, value, already satisfied. -/
structure WaitCond where
  bell : Nat := 0
  value : Word64 := 0
  /-- its WATCH has been sent -/
  sent : Bool := false
  met : Bool := false
deriving DecidableEq, Repr

/-- Where a translated access goes (R221): device memory under a key slot, host memory, or a remote window. -/
inductive Target where
  | mem (pa slot : Nat)
  | host (addr : Nat)
  | remote (window offset : Nat)
deriving DecidableEq, Repr

/-- A census operation (R138): what a command asks of the census unit of a region. -/
structure CensusOp where
  /-- 1 ALLOC, 2 COMMIT, 3 LEASE, 4 UNLEASE, 5 SHARE, 6 DROP, 7 LOOKUP -/
  kind : Nat := 0
  region : Nat := 0
  /-- where the page-list entry lies (COMMIT, DROP; the destination of SHARE) -/
  entry : Target := .mem 0 0
  /-- R223 the entry's virtual address and the size of the page that translated it -/
  va : Nat := 0
  log2 : Nat := 0
  /-- the entry's value as the command read it: what stands for its value where the census unit can no longer read it (log 46) -/
  seen : Nat := 0
  /-- the page; COMMIT: the old page -/
  page : Nat := 0
  /-- COMMIT: the new page -/
  page2 : Nat := 0
  /-- ALLOC: the key slot of the command -/
  keySlot : Nat := 0
  /-- ALLOC: LPDDR5X is preferred -/
  prefer : Bool := false
  /-- ALLOC, LEASE: the bytes of the page that the command uses (R134) -/
  len : Nat := 0
  /-- the entry's index in its list and the sequence, for the fault registers of R149 -/
  index : Nat := 0
  seq : Nat := 0
deriving DecidableEq, Repr

/-- The answer to a census operation: the status, a page, the physical address of its frame, its refcnt. -/
structure CensusAns where
  status : Status := .ok
  page : Nat := 0
  frame : Nat := 0
  refcnt : Nat := 0
deriving DecidableEq, Repr

/-- A command that was issued and has not ended (R259, R267). -/
structure Cmd where
  index : Nat := 0
  desc : List Byte := []
  tStart : Word64 := 0
  tIssue : Word64 := 0
  /-- ticks of this execution in which the command did not run; while it is suspended, less the time of the suspension
  (R333, R335) -/
  paused : Word64 := 0
  preempts : Nat := 0
  /-- tiles retired (R231) -/
  done : Nat := 0
  /-- R79 R247: passes of a MATMUL done, and rows of the pass under way that its ended segments took -/
  pass : Nat × Nat := (0, 0)
  /-- R80 R195: the stationary tile of the pass under way is loaded -/
  loaded : Bool := false
  /-- pieces between preemption points done of the tile under way (R261) -/
  piece : Nat := 0
  /-- R280: the own identifier by which its bell names were read at decode -/
  own : Option Nat := none
  /-- R255: its first tile was issued -/
  tileIssued : Bool := false
  /-- the status with which it will end, once decided -/
  status : Option Status := none
  narrowNan : Bool := false
  replayed : Bool := false
  preempted : Bool := false
  /-- R255: row-status bytes of the rows produced, by row -/
  rowStatus : Sparse Nat := []
  /-- R318: canonical stream so far, in pieces by their place in it -/
  stream : Sparse (List Byte) := []
  /-- R172: bound epochs (set, epoch slot); R202: bound adapters (set, adapter slot); R118: bound function indices -/
  epochs : List (Nat × Nat) := []
  adapters : List (Nat × Nat) := []
  fns : List Nat := []
  waits : List WaitCond := []
  /-- R284: the wait's own number, by which a WAKE that crossed an UNWATCH is told apart (the model's own) -/
  waitTag : Nat := 0
  /-- R371: code of the first strike -/
  strike : Option Nat := none
  /-- R356: the record its status calls for, made when the status was decided -/
  fault : Option FaultRec := none
  /-- R333 R334: while it runs, each event counter less what was counted for it; while it does not, what was counted for it -/
  cntBase : Sparse Word64 := []
  /-- R369: the replay of the command was cut by the limit or a wait -/
  cleared : Bool := false
  /-- R138: the census operations asked for and not yet answered, and the answers of the tile under way, oldest first -/
  asked : List CensusOp := []
  answers : List (CensusOp × CensusAns) := []
  /-- R361: a bit of its saved state was flipped by an injection (STATE_PARITY) -/
  badSave : Bool := false
  /-- R75 R317: accumulators of the output tile under way, as FP32 patterns of a row's columns: keyed part * 2048 + row of
  the row block; under part 64 the final values of columns whose output group is not complete yet -/
  accs : Sparse (List Nat) := []
  /-- R273: the stage descriptors of a FUSED command, once read; R148: the entries of the length table, once read -/
  stages : List (List Byte) := []
  /-- R261: the pieces read so far of a row that spans preemption points, kept in block store -/
  rowHeld : List Byte := []
  /-- R332: EXP2 and LOG2 results of this execution, whose events count units of 128 -/
  rom : Nat × Nat := (0, 0)
  /-- R231: the batch of rows of a FUSED stage under way: stage, rows, segments of it done -/
  batch : Option (Nat × Nat × Nat) := none
  /-- R219: the key slot of the leaf that maps the length table -/
  keySlot : Nat := 0
  /-- R142 R149: pages looked up so far: physical address of the frame + 1, by page number -/
  looked : Sparse Nat := []
  /-- R142: pages to whose heat the command has added -/
  heated : List Nat := []
  /-- 1 bit; R300 R363 its next request waits for space in the retry store; reset 0 -/
  stalled : Bool := false
  /-- R275: rows done by each stage -/
  stageRows : Sparse Nat := []
  /-- R275: rows in each relay, oldest first, and rows taken from each relay so far -/
  relays : Sparse (List (List Byte)) := []
  taken : Sparse Nat := []
deriving DecidableEq, Repr

/-- One queue slot (R256-R258, R262-R263). Its RW registers are in the register file. -/
structure Slot where
  /-- 3 bits; R257 SLOT_STATUS.state; reset UNBOUND -/
  state : SlotState := .unbound
  /-- 8 bits; R257 the context bound; reset 0 -/
  ctx : Nat := 0
  /-- 16 bits; R256 SQ_HEAD; reset 0 -/
  sqHead : BitVec 16 := 0
  /-- 16 bits; R256 SQ_TAIL; reset 0 -/
  sqTail : BitVec 16 := 0
  /-- 16 bits; R268 CQ_HEAD; reset 0 -/
  cqHead : BitVec 16 := 0
  /-- 16 bits; R268 CQ_TAIL; reset 0 -/
  cqTail : BitVec 16 := 0
  /-- 1 bit; R262 the doorbell pending bit; reset 0 -/
  pending : Bool := false
  /-- 16 bits; R263 the tail the tabor last read, none when the slot is idle; reset none -/
  tailRead : Option (BitVec 16) := none
  /-- R263 descriptor reads outstanding, by ring index, oldest first; reset none -/
  reads : List Nat := []
  /-- R265 commands fetched and not yet issued, oldest first; reset none -/
  fetched : List Fetched := []
  /-- R257 R259 the slot's current command; reset none -/
  cur : Option Cmd := none
  /-- 8 bits; R257 SLOT_STATUS.reason; reset 0 -/
  reason : Nat := 0
  /-- 16 bits; LAST_STATUS; reset 0 -/
  lastStatus : Status := .ok
  /-- 32 bits; LAST_TAG; reset 0 -/
  lastTag : Nat := 0
  /-- R257 STOP waits for the preemption point; reset 0 -/
  stopReq : Bool := false
  /-- R269 R270 status with which the flushed command ends, none when no flush is under way; reset none -/
  flushReq : Option Status := none
  /-- R257 the slot becomes UNBOUND when its current command has ended; reset 0 -/
  unbindReq : Bool := false
  /-- R272 the state that a RESUME of a lost record leads to; reset UNBOUND (not used until a record is lost) -/
  after : SlotState := .unbound
  /-- R272 a record of the slot was lost while it could not yet pause; reset 0 -/
  lost : Bool := false
  /-- R238 the slot is frozen by its engine's held record; reset 0 -/
  frozen : Bool := false
deriving DecidableEq, Repr

/-- An entry of the completion shadow ring (R272). -/
structure Shadow where
  valid : Bool := false
  lost : Bool := false
  rewrite : Bool := false
  slot : Nat := 0
  index : BitVec 16 := 0
  bytes : List Byte := []
  /-- order of writing, to find the oldest -/
  age : Nat := 0
  /-- the record waits for its RECORD_CHECK (R271) -/
  checking : Bool := false
  /-- the slot was flushed since the record was lost: the entry may be overwritten (R272) -/
  freed : Bool := false
deriving DecidableEq, Repr

/-- A weight block staged in a block store or a cell store (R194): its address in memory, and its bytes there, as many as its
stored length rounded up to 64. -/
structure Staged where
  addr : Nat := 0
  bytes : List Byte := []
deriving DecidableEq, Repr

inductive EngState where
  | running | resetting | replaying | failed
deriving DecidableEq, Repr

/-- The engine's own state (08_commands.md, 12_faults.md R364-R373). -/
structure Engine where
  /-- 4 bits; ENG.STATUS.run_valid, run_slot; reset none -/
  run : Option Nat := none
  /-- 4 bits; ENG.STATUS.pre_valid, pre_slot, R260; reset none -/
  pre : Option Nat := none
  /-- 3 bits; R259 the slot last issued from; reset DESIGN CHOICE 7, so that rotation starts at slot 0 (log 4) -/
  last : Nat := 7
  /-- 2 bits; RST.STATUS.state; reset RUNNING -/
  rst : EngState := .running
  /-- 8 bits; RST.STATUS.suspects: slots that await replay; reset 0 -/
  suspects : List Nat := []
  /-- 4 bits; RST.STATUS.replay_valid, replay_slot; reset none -/
  replay : Option Nat := none
  /-- R365 the code that began the reset in progress; reset 0 -/
  rstCode : Nat := 0
  /-- R365 timestamp at which the last reset began; reset 0 -/
  resetAt : Word64 := 0
  /-- R374 timestamp at which the pause began; reset 0 -/
  pauseAt : Word64 := 0
  /-- 64 bits; R362 timestamp of the last forward progress; reset 0 -/
  progress : Word64 := 0
  /-- counter; R145 the boundary count the engine has published; reset 0 -/
  boundary : Nat := 0
  /-- 64 x 36 bytes; R272 the completion shadow ring; reset empty -/
  shadow : Sparse Shadow := []
  /-- R271 records without a place in the shadow ring whose zero-length read is outstanding, oldest first; reset none -/
  checks : List Shadow := []
  /-- counter; R272 records written so far; reset 0 -/
  age : Nat := 0
  /-- 1 record; R238 the hold register; reset none -/
  held : Option FaultRec := none
  /-- R275 credits of relays 0-5; reset 0 -/
  credits : Sparse Nat := []
  /-- R275 credits that a reading engine has sent and that have not arrived, keyed chain_id*8 + relay; reset 0 -/
  creditsDue : Sparse Nat := []
  /-- R257 R373 SLOT_CTRL operations written while the engine resets or replays: (function, slot, op); reset none -/
  deferred : List (Nat × Nat × Nat) := []
  /-- R428 issue is withheld; reset 0 -/
  withheld : Bool := false
  /-- R197 the block that awaits its second decode: cell, whether of an adapter, set or adapter slot, epoch slot, tensor (in
  an adapter with 2^32 x its role), block; reset none -/
  redecode : Option (Nat × Bool × Nat × Nat × Nat × Nat) := none
  /-- R194 the weight blocks staged in the block store for the pass under way; reset none -/
  staged : List Staged := []
deriving DecidableEq, Repr

inductive ArrState where
  | stopped | rampUp | running | idleHold | rampDown
deriving DecidableEq, Repr

/-- The parameters of a pass (03_matrix_array.md, Passes). -/
structure Pass where
  id : Nat := 0
  rate : Nat := 0
  tileK : Nat := 0
  tileN : Nat := 0
  rows : Nat := 0
  accIn : Bool := false
  groupBase : Nat := 0
  /-- the draw that names the pass's operands, which no parameter gives (the model's own, log 43) -/
  data : Nat := 0
  /-- R80: a preemption, stop or cancellation lets no row of it enter after the end of its segment -/
  cut : Bool := false
  /-- R78: it is the last pass for its output elements, whose rows go to the epilogue -/
  final : Bool := false
deriving DecidableEq, Repr

/-- A row in flight in the array (R76): pass, row index, physical column it last entered; once it has entered the guard
column, G and the drain's sum (R100), and what its columns' own checks found: stage, logical column, expected, observed
(R101). -/
structure RowFlight where
  pass : Nat := 0
  row : Nat := 0
  col : Nat := 0
  want : Nat := 0
  sum : Nat := 0
  fault : Option (Nat × Nat × Nat × Nat) := none
  /-- R75: its initial accumulators, as read on the accumulator-in port: FP32 patterns; none at +0 -/
  acc : List Nat := []
deriving DecidableEq, Repr

/-- An epilogue staging buffer in use (R123): the pass whose output tile it takes, and the rows drained into it, FP32 patterns by
row. -/
structure StageBuf where
  pass : Nat := 0
  rows : Sparse (List Nat) := []
deriving DecidableEq, Repr

/-- A row accumulator (R64): a 304-bit two's complement register with LSB weight 2^-149, and three flags. -/
structure RowAcc where
  sum : BitVec 304 := 0
  posInf : Bool := false
  negInf : Bool := false
  nan : Bool := false
deriving DecidableEq, Repr

/-- A cell's array (R76-R93), its store and its vector unit. -/
structure Cell where
  /-- 3 bits; R91 ARR.STATUS.state; reset STOPPED -/
  arr : ArrState := .stopped
  /-- 8 bits; R91 enabled column groups, bit j group j; reset 0 -/
  groups : BitVec 8 := 0
  /-- 3 bits; R90 ramp_len as latched at the start of the ramp; reset 0 -/
  rampLen : Nat := 0
  /-- R91 passes issued and not completed, oldest first; reset none -/
  passes : List Pass := []
  /-- R76 rows of the oldest pass that have entered column 0; reset 0 -/
  entered : Nat := 0
  /-- R79 rows that entered since the segment began; reset 0 -/
  segRows : Nat := 0
  /-- R79 core cycles since the segment's first row entered; reset 0 -/
  segCycles : Nat := 0
  /-- R76 rows inside the array; reset none -/
  flight : List RowFlight := []
  /-- R78 R87 output rows in the drain buffer, at most 16; reset none -/
  drain : List RowFlight := []
  /-- R81 the pass whose tile is active in each column (index = physical column), 0 for none; reset 0 -/
  active : Sparse Nat := []
  /-- R82 the pass whose tile each column's shadow register holds, 0 for none; reset 0 -/
  shadow : Sparse Nat := []
  /-- R84 pass being loaded and logical columns already written; reset (0, 0) -/
  loading : Nat × Nat := (0, 0)
  /-- 2 entries; R85 staged guard residues g[k] by pass, as far as its columns are loaded; reset none -/
  staging : List (Nat × List Nat) := []
  /-- R81 R99 the guard column's registers: the pass, 0 for none, and the residues g[k]; reset empty -/
  guardActive : Nat × List Nat := (0, [])
  guardShadow : Nat × List Nat := (0, [])
  /-- 524,288 x 64 bits; R8 R104 the words of the 4 MiB cell store, by word index; reset DESIGN CHOICE 0 (log 120) -/
  words : Sparse Nat := []
  /-- R104 words whose check bits no longer fit them, one bit wrong or two, by word index; reset none -/
  damage : List (Nat × LineErr) := []
  /-- R194 weight blocks staged in the cell store; reset none -/
  blocks : List Staged := []
  /-- 2 entries; R123 the epilogue staging buffers in use, oldest first; reset none -/
  buffers : List StageBuf := []
  /-- 512 x 16 x 32 bits; R105 vector register file, keyed lane*16+register; reset DESIGN CHOICE 0 (log 120) -/
  vregs : Sparse Nat := []
  /-- 8 x (304 + 3 bits); R64 R105 row accumulators; reset DESIGN CHOICE 0 (log 120) -/
  rowAccs : Sparse RowAcc := []
  /-- 16 x 32 bits; R105 R107 scalar unit's registers: 0 the mean, 1 the inverse deviation, 2 the maximum, 3 the reciprocal of the sum
  of the last row (numbers DESIGN CHOICE, log 120); reset DESIGN CHOICE 0 (log 120) -/
  scalars : Sparse Word := []
  /-- counter; the model's own numbering of passes; reset 0 -/
  nextPass : Nat := 0
  /-- 4 bits; ARR.STATUS frozen and causes (act, shd, drn) as last sampled; reset 0 -/
  frozen : Bool × Bool × Bool × Bool := (false, false, false, false)
deriving DecidableEq, Repr

structure Queues where
  /-- 256 x; 08_commands.md CTX page; reset FREE -/
  ctxs : Sparse Ctx := []
  /-- 256 x; 08_commands.md R257 queue slots, keyed engine * 8 + slot; reset UNBOUND. Under engine + 64, the census operations that a
  slot sent before an engine reset and that are not delivered yet (R138) -/
  slots : Sparse Slot := []
  /-- 32 x; 08_commands.md engines; reset idle -/
  engines : Sparse Engine := []
  /-- 128 x; 03_matrix_array.md arrays; reset STOPPED -/
  cells : Sparse Cell := []
  /-- R276 chains that replay as a unit: chain_id + 1 of the command to restart, by engine; reset none -/
  restart : Sparse Nat := []
deriving DecidableEq, Repr

/-! ### Microprograms -/

inductive FnState where
  | free | loading | active | retiring
deriving DecidableEq, Repr

/-- One index of the function table (R116). -/
structure Fn where
  state : FnState := .free
  inputs : Nat := 0
  outputs : Nat := 0
  regs : Nat := 0
  steps : List Word64 := []
  refs : Nat := 0
  digest : List Byte := []
deriving DecidableEq, Repr

structure Sfu where
  /-- 256 x; 04_vector_units.md R116 the function table and the stored steps; reset: indices 0-63 hold the built-in functions (R114), the others FREE -/
  fns : Sparse Fn := []
  /-- R132 regions whose store awaits a rewrite, as (region, index); reset none -/
  rewrite : List (Nat × Nat) := []
  /-- R116 images whose registration is under way, as (index, address, length) taken at the tick; reset none -/
  loads : List (Nat × Nat × Nat) := []
  /-- R116, R117, R38 commands of UP_CMD taken at ticks and not carried out yet, as (op, index, address, length); reset none -/
  commands : List (Nat × Nat × Nat × Nat) := []
deriving DecidableEq, Repr

/-! ### Key-value pools -/

/-- A migration in progress (R144): page, the page number popped for the target, target tier. -/
structure Mig where
  page : Nat := 0
  other : Nat := 0
  toHbm : Bool := false
deriving DecidableEq, Repr

/-- A page number in the quarantine (R145) and the engines that have not yet passed a boundary, with their boundary
counts at the exchange. -/
structure Quar where
  page : Nat := 0
  wait : List (Nat × Nat) := []
deriving DecidableEq, Repr

/-- One region's pool (R136-R145). Census and free rings are in memory; their registers in the register file. -/
structure Pool where
  /-- counter; R142 the region's decay count; reset 0 -/
  decay : Nat := 0
  /-- 16 bits; R142 the decay_period in force for the interval; reset 0 -/
  period : Nat := 0
  /-- 64 entries; R143 promotion queue; reset none -/
  promo : List Nat := []
  /-- R144 copies in progress; reset none -/
  migs : List Mig := []
  /-- R145 the quarantine; reset none -/
  quar : List Quar := []
  /-- 32 bits each; R134 R144 the length L of each page in use, by its index; reset none (log 127) -/
  lens : Sparse Nat := []
deriving DecidableEq, Repr

/-! ### Weights -/

/-- States of an epoch or adapter slot (R170). -/
inductive EpochState where
  | free | loading | ready | degraded | failed | retiring | suspended
deriving DecidableEq, Repr

/-- A tensor of a loaded shard: its manifest entry (R176) and where it was placed (R181). -/
structure Tensor where
  id : Nat := 0
  k : Nat := 0
  n : Nat := 0
  srcFmt : Nat := 0
  srcOrder : Nat := 0
  qmode : Nat := 0
  tgtFmt : Nat := 0
  codeBits : Nat := 0
  compress : Bool := false
  pin : Bool := false
  home : Nat := 0
  role : Nat := 0
  srcOff : Nat := 0
  srcBytes : Nat := 0
  auxOff : Nat := 0
  auxBytes : Nat := 0
  /-- physical addresses of the 2 MiB extents that hold it, in order -/
  extents : List Nat := []
  /-- index within the epoch of its first coding table (R192) -/
  table : Nat := 0
  /-- tables in the palette of a CB tensor, which lies in the epoch's table area (R187) -/
  palettes : Nat := 0
deriving DecidableEq, Repr

/-- The device's own record of one epoch slot or adapter slot (R171, R172, R201). -/
structure Loaded where
  state : EpochState := .free
  epoch : Nat := 0
  tensors : List Tensor := []
  shard : List Byte := []
  prep : List Byte := []
  /-- address of the tensor directory, which is internal to the device (R171): a free value (log 2) -/
  dir : Word64 := 0
  /-- reference count as the weight-set unit holds it (R172) -/
  refs : Nat := 0
  /-- engine that loads it -/
  loader : Option Nat := none
  /-- R173: engines that have not passed a command boundary since the slot retired, with their boundary counts then -/
  wait : List (Nat × Nat) := []
  owner : Nat := 0
  keySlot : Nat := 0
  /-- adapters: base set, rank, alpha -/
  base : Nat := 0
  rank : Nat := 0
  alpha : Nat := 0
deriving DecidableEq, Repr

/-- One weight set (R169): current slot, owner, key slot, last epoch number. -/
structure WSet where
  current : Option Nat := none
  owner : Nat := 0
  keySlot : Nat := 0
  lastEpoch : Nat := 0
deriving DecidableEq, Repr

/-- A WEIGHT_LOAD between its claim and its end (R177, R179): attempts that failed, bytes fetched in this attempt, tensors that
pass 1 has written, whether the hash was as expected, blocks that pass 2 has encoded. -/
structure LoadJob where
  target : Nat := 0
  epochSlot : Nat := 0
  adapter : Bool := false
  attempt : Nat := 0
  fetched : List Byte := []
  laid : Nat := 0
  checked : Bool := false
  coded : Nat := 0
  timedOut : Bool := false
deriving DecidableEq, Repr

structure Weights where
  /-- 256 x; 06_weights.md R169 R171 weight sets; reset owner 0, no current slot -/
  sets : Sparse WSet := []
  /-- 512 x; R170 R171 epoch slots, keyed set*2+slot; reset FREE -/
  epochs : Sparse Loaded := []
  /-- 4,096 x; R201 adapter slots; reset FREE -/
  adapters : Sparse Loaded := []
  /-- 4 x 256; R172 regional mirrors of the current slot, keyed region*256+set: slot+1, 0 for none; reset none -/
  mirror : Sparse Nat := []
  /-- R206: the device has read the tables since its last reset; reset 0 -/
  known : Bool := false
  /-- 8 x; heap base and extents, keyed tier*4+region (WGT.HEAP_BASE, HEAP_EXTENTS); reset 0 -/
  heaps : Sparse (Word × Word × Word) := []
  /-- R177 loads in progress, keyed by queue slot; reset none -/
  jobs : Sparse LoadJob := []
  /-- R172 reference messages in flight in class 0: (engine, set, epoch slot, increment), oldest first; reset none -/
  refMsgs : List (Nat × Nat × Nat × Bool) := []
deriving DecidableEq, Repr

/-! ### Bells -/

/-- The bell operations of a carillon message (R288). -/
inductive CarOp where
  | signal | add | watch | unwatch | wake
deriving DecidableEq, Repr

/-- A carillon message (R288). -/
structure CarMsg where
  op : CarOp
  engine : Nat := 0
  slot : Nat := 0
  index : Nat := 0
  cond : Nat := 0
  value : Word64 := 0
  tag : Nat := 0
deriving DecidableEq, Repr

/-- A watch entry (R283): bell, waiting slot, condition, value; `woken` when its WAKE waits for a credit (R28). -/
structure Watch where
  bell : Nat := 0
  slot : Nat := 0
  cond : Nat := 0
  value : Word64 := 0
  tag : Nat := 0
  woken : Bool := false
deriving DecidableEq, Repr

structure Bells where
  /-- 131,072 x 64 bits; 09_bells_links.md R282 bell counters; reset DESIGN CHOICE 0 (log 5; R310 zero without an image) -/
  bells : Sparse Word64 := []
  /-- 2,048 x 32 bits; R281 group configurations GRP_CFG; reset 0 -/
  groups : Sparse Word := []
  /-- 4 x 1,024; R283 watch entries in use; reset none -/
  watches : List Watch := []
  /-- bells whose counter is uncorrectable (R287) or corrected at its next read; reset none -/
  damaged : Sparse LineErr := []
  /-- counter; the model's own numbering of waits (R284); reset 0 -/
  nextWait : Nat := 0
  /-- 4 x; R286 the source that the second update port of a region's store served last: block 0-7, or 8 for its network interface; reset DESIGN CHOICE 0 (log 139) -/
  served : Sparse Nat := []
  /-- R348 R350 host operations of BEL.OP that wait for the gong's end: bell, operation, operand; reset none -/
  hostOps : List (Nat × Nat × Word64) := []
  /-- R28 messages that wait in their engine for a credit, oldest first, with their destination region; reset none -/
  backlog : List (Nat × CarMsg) := []
  /-- 12 x 32 and 4; R34 carillon message egress queues, keyed source*4+destination; equal source and destination: the operations of a region's own engines on their way to its store (R286); reset empty -/
  egress : Sparse (List CarMsg) := []
  /-- 12 x 16; R34 carillon wake queues, keyed source*4+destination; reset empty -/
  wakes : Sparse (List CarMsg) := []
  /-- 32 x 4; R28 message credits in use, keyed engine*4+destination; reset 0 -/
  credits : Sparse Nat := []
  /-- 12 x; R28 wake credits in use, keyed bell region*4+waiter region; reset 0 -/
  wakeUsed : Sparse Nat := []
deriving DecidableEq, Repr

/-! ### Links -/

inductive PeerState where
  | normal | hold | lost
deriving DecidableEq, Repr

/-- The packet types of R292 that carry a request. -/
inductive ReqKind where
  | write | read | bell
deriving DecidableEq, Repr

/-- A request in the retry store (R297, R300). -/
structure Req where
  id : Nat := 0
  kind : ReqKind
  dst : Nat := 0
  /-- destination's inbound window, or the bell name's low 17 bits -/
  window : Nat := 0
  offset : Nat := 0
  len : Nat := 0
  data : List Byte := []
  seq : Nat := 0
  /-- queue slot whose command sent it -/
  slot : Nat := 0
  /-- the outbound window of the access that it carries (R233) -/
  via : Nat := 0
  /-- R223 the virtual address of the access and the size of the page that translated it; 0 for none -/
  va : Nat := 0
  log2 : Nat := 0
  /-- where it lies in the retry store (R300): offset from RETRY_BASE and length of each of its parts -/
  place : List (Nat × Nat) := []
  /-- times sent; 0 while an earlier write of the slot holds it back (R299) -/
  sends : Nat := 0
  lastSent : Word64 := 0
  answered : Bool := false
  answer : List Byte := []
  /-- REJECT reason, 0 for none -/
  reason : Nat := 0
  /-- R269 R309 the command that sent it has ended -/
  orphan : Bool := false
deriving DecidableEq, Repr

inductive PortState where
  | down | training | up | holdRx | holdTx | failed
deriving DecidableEq, Repr

/-- What a flit that the device sends carries (R291): one packet in a data flit, nothing in an idle flit, the group counter and the tag
in a MAC flit, else what a control flit says. -/
inductive FlitBody where
  | data (p : Packet)
  | idle
  | mac (group : Nat) (tag : List Byte)
  | nak (seq : Nat)
  | keyChange
  /-- the request for the next key (R422) -/
  | keyUpdate
  | holdOn
  | holdOff
deriving DecidableEq, Repr

/-- The key of one direction of a hop: 256 bits, and its salt of 32 (R295, R422). -/
structure LinkKey where
  key : Nat := 0
  salt : Nat := 0
deriving DecidableEq, Repr

/-- A flit that the device sends (R291), with the offset of the first packet header and the packet area as transmitted: that of a data
flit encrypted. -/
structure Flit where
  seq : Nat := 0
  ack : Nat := 0
  vc : Nat := 0
  credit : Nat := 0
  phase : Bool := false
  body : FlitBody
  first : Nat := 0x3F
  area : List Byte := []
deriving DecidableEq, Repr

/-- A data flit received that waits for its group's MAC flit (R295). -/
structure GroupFlit where
  head : FlitHead := {}
  packets : List Packet := []
deriving DecidableEq, Repr

/-- A Zwirid port (R289-R296). -/
structure Port where
  /-- 3 bits; ZWL.STATUS.state; reset DOWN -/
  state : PortState := .down
  /-- ZWL.STATUS partner_switch, lanes_up, ZWL.PARTNER; reset 0 -/
  partnerSwitch : Bool := false
  lanes : BitVec 8 := 0
  partner : Nat × Nat := (0, 0)
  /-- 16 bits; R291 next flit sequence number to send; reset DESIGN CHOICE 0 (log 6) -/
  txSeq : Nat := 0
  /-- 16 bits; R294 next sequence number expected; reset DESIGN CHOICE 0 (log 6) -/
  rxSeq : Nat := 0
  /-- 512 flits; R294 replay buffer: the flits as sent, with the timestamp of the first sending; reset empty -/
  replay : List (Flit × Word64) := []
  /-- R294 times in a row the first flit of the buffer was resent; reset 0 -/
  resends : Nat := 0
  /-- R294 a NAK was sent and its flit has not come; reset 0 -/
  nakSent : Bool := false
  /-- R294 flit named by the last NAK received; reset 0 -/
  nakSeq : Nat := 0
  /-- R349 a NAK received while the gong is active, whose flits are sent again at resume; reset none -/
  nakDue : Option Nat := none
  /-- R295 data flits received since the last MAC flit; reset none -/
  group : List GroupFlit := []
  /-- R293 R295 packets of verified groups that the port's buffers hold, oldest first; reset none -/
  rx : List Packet := []
  /-- R291 R293 credits to return to the partner, by virtual channel 0-2, in 64-byte units; reset 0 -/
  owed : Nat × Nat × Nat := (0, 0, 0)
  /-- R295 failed tags in a row; reset 0 -/
  macRun : Nat := 0
  /-- R295 R296 group counters sent and expected; reset 0 -/
  txGroup : Nat := 0
  rxGroup : Nat := 0
  /-- R296 key phases, transmit and receive, reset 0; the next key of the transmit direction, reset none -/
  txPhase : Bool := false
  rxPhase : Bool := false
  nextKey : Option LinkKey := none
  /-- R296 the next key of the receive direction; reset none -/
  rxNext : Option LinkKey := none
  /-- R295 R422 the current keys of the two directions; reset none, here 0 -/
  txKey : LinkKey := {}
  rxKey : LinkKey := {}
  /-- R422 this end is the requester of the hop's session; reset 0 -/
  requester : Bool := false
  /-- R293 credits held of the receiver, by virtual channel 0-2; reset 0 -/
  credit : Sparse Nat := []
  /-- R295 flits awaiting a MAC flit on the sending side; reset 0 -/
  txOpen : Nat := 0
  /-- R293 packets that wait for credit, oldest first; reset none -/
  waiting : List Packet := []
  /-- R291 highest flit sequence number that the partner has received; reset 0 -/
  acked : Nat := 0
  /-- R304 requests sent since the last marked one; reset 0 -/
  markCount : Nat := 0
  /-- occurrences of link errors since device reset (format L of R354); reset 0 -/
  faults : Nat := 0
deriving DecidableEq, Repr

structure Links where
  /-- 18 x; 09_bells_links.md R289-R296 ports; reset DOWN -/
  ports : Sparse Port := []
  /-- 8,192 x 2 bits; R305 peer states, with the time HOLD was entered; reset NORMAL -/
  peers : Sparse (PeerState × Word64) := []
  /-- 8,192 x 18 bits; R301 route masks; reset 0 -/
  routes : Sparse Word := []
  /-- R300 requests awaiting an answer or retirement, oldest first; reset none -/
  reqs : List Req := []
  /-- counter; the model's own numbering of requests; reset 0 -/
  nextReq : Nat := 0
  /-- 8,192 x 22 bits; R292 next end-to-end sequence number to a destination; reset DESIGN CHOICE 0 (log 6) -/
  seqs : Sparse Nat := []
  /-- R301 port last used toward a destination; reset 0 -/
  turn : Sparse Nat := []
  /-- 1 bit; R306 ZWL.HOLD.holding; reset 0 -/
  holdTx : Bool := false
deriving DecidableEq, Repr

/-! ### Observation -/

/-- An armed counter (R338): threshold and actions. -/
structure Armed where
  threshold : Word64 := 0
  actions : Nat := 0
deriving DecidableEq, Repr

inductive TrcState where
  | off | capturing | done | stopped
deriving DecidableEq, Repr

/-- One region's trace store control (R340-R342). -/
structure Trc where
  state : TrcState := .off
  wrapped : Bool := false
  triggered : Bool := false
  cfgErr : Bool := false
  dumpDone : Bool := false
  dumping : Bool := false
  wrPtr : Nat := 0
  trigIdx : Nat := 0
  /-- R341 records written since enable, in CENTRE mode since the trigger -/
  count : Nat := 0
  /-- records queued in the sources' buffers, in order of arrival: (source, 32 bytes) -/
  queue : List (Nat × List Byte) := []
  /-- pending drop counts by source -/
  drops : Sparse Nat := []
  /-- R341 records in the pre-trigger ring -/
  pre : Nat := 0
  /-- TRC page: entries that fail parity when read (store_parity) -/
  bad : List Nat := []
deriving DecidableEq, Repr

inductive GongState where
  | running | stopping | stopped | resuming
deriving DecidableEq, Repr

/-- The gong unit (R345-R351). -/
structure Gong where
  state : GongState := .running
  cause : Word := 0
  raisedAt : Word64 := 0
  extra : Nat := 0
  skew : Sparse Nat := []
  cuts : Sparse Word64 := []
  flitsRx : Nat := 0
  flitsTx : Nat := 0
  stoppedAt : Word64 := 0
  /-- R350 contexts killed while the gong is active, whose slots see it at resume -/
  kills : List Nat := []
deriving DecidableEq, Repr

/-- An operation queued at the DGS unit (R329). -/
structure DgsOp where
  slot : Nat := 0
  /-- the answer: the status with which the DIGEST_CTL ends, and its record -/
  answer : Option (Status × Option FaultRec) := none
  /-- R348 it had begun when the gong stopped the device -/
  begun : Bool := false
deriving DecidableEq, Repr

structure Observe where
  /-- 32 x 64 x 64 bits; 11_observability.md R332 event counters, keyed engine*64+counter; reset 0 -/
  cnt : Sparse Word64 := []
  /-- 32 x 64 x 16 bits; R336 selections in force; reset 0 -/
  sel : Sparse Word := []
  /-- R336 engines with a staged selection, and R336 engines with a staged clear; reset none -/
  selStaged : List Nat := []
  clrStaged : List Nat := []
  /-- 32 x 64; R338 armed counters; reset none -/
  armed : Sparse (Option Armed) := []
  /-- 32 x 64 x 64 bits; CNT.MATCH_THR and MATCH_ACT as written, keyed engine*64+counter: lo, hi, act; reset 0 -/
  thr : Sparse (Word × Word × Word) := []
  /-- 4 x; R339-R342 trace control; reset OFF -/
  trc : Sparse Trc := []
  /-- 4 x 262,144 x 32 bytes; R339 trace store, keyed region*262144+entry; reset: undefined (free value, log 7) -/
  trace : Sparse (List Byte) := []
  /-- R345-R351 the gong; reset RUNNING -/
  gong : Gong := {}
  /-- 64 entries; 10_determinism.md R329 operations at the DGS unit, oldest first; reset none -/
  dgs : List DgsOp := []
deriving DecidableEq, Repr

/-! ### Errors -/

structure Faults where
  /-- R357 records detected and not yet taken by a region fault queue, oldest first; reset none -/
  detected : List FaultRec := []
  /-- R357 R359 records on their way to the device fault log, oldest first; reset none -/
  toLog : List FaultRec := []
  /-- 32 bits x 4; R236 last region record number; reset 0 -/
  seq : Sparse Nat := []
  /-- 256 x 64 bytes; R358 the device fault log; reset empty at power-on -/
  log : Sparse (List Byte) := []
  /-- 64 bytes; R360 the overflow entry; reset empty -/
  ovf : List Byte := []
  /-- 32 bits; R359 last log entry number; reset 0 at power-on -/
  logSeq : Nat := 0
  /-- engines with a RESET or RESET-NS action due, as (engine, code, strike); R352; reset none -/
  resets : List (Nat × Nat × Bool) := []
  /-- device reset due, with its cause word (R375); reset none -/
  devReset : Option Word := none
deriving DecidableEq, Repr

/-! ### Host interface -/

/-- TDISP interface states (R400). -/
inductive Tdi where
  | unlocked | locked | run | error
deriving DecidableEq, Repr

/-- A virtual function (R393-R401). -/
structure Vf where
  /-- 3 bits; PCX.VF_CFG.tdi; reset CONFIG_UNLOCKED -/
  tdi : Tdi := .unlocked
  /-- 8 bits; PCX.VF_CFG.key_slot, none when not assigned; reset none -/
  keySlot : Option Nat := none
  /-- 44 bits; PCX.VF_APT_BASE lo and hi; reset 0 -/
  aptLo : Word := 0
  aptHi : Word := 0
  /-- R400 stream bound at LOCK_INTERFACE; reset none -/
  stream : Option Nat := none
  /-- R379 not yet quiescent; reset 0 -/
  flrBusy : Bool := false
deriving DecidableEq, Repr

/-- An access of the engine's own that waits for the Translation Completion of its page (R228): a descriptor read of a slot, or a record
of a slot, a completion record with its place in the shadow ring and its entry. -/
inductive AskUse where
  | descriptor
  | record (bytes : List Byte) (completion : Option (Option Nat × Shadow))
deriving DecidableEq, Repr

structure Ask where
  fn : Nat := 0
  addr : Nat := 0
  engine : Nat := 0
  slot : Nat := 0
  use : AskUse := .descriptor
  /-- R348 the translation came while the gong was active; the access goes at resume -/
  granted : Bool := false
deriving DecidableEq, Repr

/-- A read the device sent to the host (R229, R384). -/
structure HostRead where
  id : Nat := 0
  slot : Nat := 0
  addr : Nat := 0
  len : Nat := 0
  answered : Bool := false
  failed : Bool := false
  data : List Byte := []
  /-- a read that no longer has a reader; its data is dropped on arrival (R269, R365) -/
  dropped : Bool := false
  /-- R228: the access waits for the Translation Completion of its page; a write's access waits here too -/
  ats : Bool := false
  /-- R348: translated while the gong was active; its request is sent at resume -/
  queued : Bool := false
  /-- R223 the virtual address of the access and the size of the page that translated it; 0 for none -/
  va : Nat := 0
  log2 : Nat := 0
  write : Bool := false
deriving DecidableEq, Repr

/-- An IDE stream (R399): whether it is Secure, the keys programmed (key set, sub-stream, direction), the key set in use, whether it
has become Insecure and awaits new keys, its RID association block and its two address association blocks. -/
structure Ide where
  secure : Bool := false
  programmed : List (Nat × Nat × Bool) := []
  keySet : Nat := 0
  failed : Bool := false
  rid : Option (Nat × Nat) := none
  regions : Sparse (Nat × Nat) := []
deriving DecidableEq, Repr

/-- The errors that Advanced Error Reporting reports (R405). -/
inductive AerError where
  | receiverError | badTlp | badDllp | replayTimeout | replayRollover | malformedTlp | unexpectedCompletion | completerAbort
deriving DecidableEq, Repr

/-- What the device has sent to the outside: the host, the links, the board, the management controller. An access of host memory is
marked Translated when its address comes from the address translation cache (R228). -/
inductive Msg where
  /-- posted write to host memory (R386) -/
  | hostWrite (fn addr : Nat) (data : List Byte) (translated : Bool := false)
  /-- read request to the host -/
  | hostReadReq (fn id addr len : Nat) (translated : Bool := false)
  /-- zero-length read of R271 -/
  | zeroRead (fn addr : Nat) (translated : Bool := false)
  /-- MSI-X message of a vector (R402, R404), with the address and the data of its table entry -/
  | msix (fn vector : Nat) (addr : Nat := 0) (data : Word := 0)
  /-- error message of Advanced Error Reporting (R405) -/
  | errorMsg (correctable : Bool)
  /-- completion of a host read of BAR0 or BAR2: data, or the failure -/
  | readCpl (fn : Nat) (data : List Byte)
  | unsupported (fn : Nat)
  | aborted (fn : Nat)
  /-- ATS (R228, R230) -/
  | translationReq (fn addr : Nat)
  | invalCpl (fn tag : Nat)
  /-- a flit of a port (R291); good is false where an injection corrupts its codeword or its tag -/
  | flit (port : Nat) (f : Flit) (good : Bool)
  /-- AVSBus write of Vout in mV (R430) -/
  | avs (region mv : Nat)
  /-- PLDM PlatformEventMessage: sensor, level (R427) -/
  | platformEvent (sensor level : Nat)
  /-- answer of the SPDM or PLDM responder: request code, response bytes -/
  | answer (proto code : Nat) (data : List Byte)
deriving DecidableEq, Repr

structure HostIf where
  /-- 64 x; 13_host_pcie.md R393-R401 virtual functions; reset unlocked -/
  vfs : Sparse Vf := []
  /-- 64 x 255 x 32 bits; R394 map entries, keyed vf*256+entry; reset 0 -/
  vfMap : Sparse Word := []
  /-- 1 bit; R398 VF Enable; reset 0 -/
  vfEnable : Bool := false
  /-- 7 bits; R398 NumVFs of the SR-IOV capability; reset 0 -/
  vfCount : Nat := 0
  /-- 65 x 2,048 x 2 bits; R404 MSI-X vectors: unmasked, pending, keyed fn*2048+vector; reset masked (the PCI Express default), not pending -/
  vectors : Sparse (Bool × Bool) := []
  /-- 65 x 1 bit; R404 functions whose MSI-X is enabled; reset none (the PCI Express default) -/
  msixOn : List Nat := []
  /-- 65 x 1 bit; R404 functions whose MSI-X is masked as a whole; reset none (the PCI Express default) -/
  msixMasked : List Nat := []
  /-- 65 x 2,048 x 96 bits; R390 R393 the MSI-X tables: message address low and high, message data, keyed fn*2048+vector; reset DESIGN CHOICE 0 (log 145) -/
  msixTable : Sparse (Word × Word × Word) := []
  /-- 1 bit; R384 R389 the physical function, and its virtual functions with it, is in D3hot; reset 0: D0 (the PCI Express default) -/
  d3 : Bool := false
  /-- R405 errors in the status registers of Advanced Error Reporting; reset none -/
  aer : List AerError := []
  /-- 2 bits; R405 the host has enabled the reporting of correctable and of non-fatal errors; reset 0 (the PCI Express default) -/
  aerReport : Bool × Bool := (false, false)
  /-- 768; R229 R384 reads outstanding to the host; reset none -/
  reads : List HostRead := []
  /-- R228 the engines' own accesses that wait for a translation, oldest first; reset none -/
  asks : List Ask := []
  /-- R267 R404 MSI-X messages behind a record that waits for its translation: function and vector, oldest first; reset none -/
  behind : List (Nat × Nat) := []
  /-- R348 completions of descriptor reads that arrived while the gong was active: engine, slot, data, the TLP, oldest first; reset none -/
  arrived : List (Nat × Nat × Option (List Byte) × Tlp) := []
  /-- counter; the model's own numbering of host reads; reset 0 -/
  nextRead : Nat := 0
  /-- 9 x; R399 IDE streams (0 the link stream); reset insecure -/
  ide : Sparse Ide := []
  /-- PCX.STATUS rate, width, Flit mode; reset 0 -/
  rate : Nat := 0
  width : Nat := 0
  flit : Bool := false
  /-- 6 bits; R390 log2 of the BAR2 size; reset 42 (4 TiB) -/
  bar2Log2 : Nat := 42
  /-- 6 bits; R393 log2 of the VF BAR2 size, 0 for none; reset 0 -/
  vfBar2Log2 : Nat := 0
  /-- R399 what waits until its Insecure stream is keyed again, with the stream, oldest first; reset none -/
  blocked : List (Nat × Msg) := []
  /-- everything the device has sent to the outside so far, newest first (the model's own record); reset none -/
  sent : List Msg := []
deriving DecidableEq, Repr

/-! ### Security and management -/

/-- The firmware that runs (R412). -/
structure Running where
  slot : Nat := 0
  keySet : Nat := 0
  svn : Nat := 0
  gen : Nat := 0
  header : List Byte := []
  sections : List Byte := []
deriving DecidableEq, Repr

/-- The states of a PLDM firmware update (R416). -/
inductive UpdState where
  | idle | learn | readyXfer | download | verify | apply | activate
deriving DecidableEq, Repr

/-- The states of an SPDM connection (R418). -/
inductive SpdmState where
  | start | version | capabilities | negotiated
deriving DecidableEq, Repr

/-- An SPDM session (R418). -/
structure Session where
  id : Nat := 0
  finished : Bool := false
  keyGen : Nat := 0
deriving DecidableEq, Repr

/-- A firmware image as it stands in a slot of the flash (R408 to R411): what its header says, the digests of its header and of its
section digests, and its bytes, header, sections and signature block, from the slot's first offset on. The image that the part was
shipped with has no bytes here, for the spec gives none: genuine says whether its keys, signatures and digests hold. -/
structure FwImage where
  svn : Nat := 0
  keySet : Nat := 0
  gen : Nat := 0
  genuine : Bool := false
  header : List Byte := []
  sections : List Byte := []
  bytes : List Byte := []
deriving DecidableEq, Repr

structure Security where
  /-- 2 x 16 MiB; 14_security_mgmt.md R408 R409 the external flash, as the image in slot A (0, at offset 0) and B (1, at offset 2^24), an
  unlisted slot holding none with a valid header; reset DESIGN CHOICE: slot A holds a genuine image of svn 0, gen 1 (log 3) -/
  flash : Sparse (Option FwImage) := [(0, some { svn := 0, keySet := 0, gen := 1, genuine := true })]
  /-- R412 the running firmware; reset none -/
  running : Option Running := none
  /-- 1 bit; SEC.STATUS.attest, R419 R423 attestation keys present; reset 0 until power-up -/
  attest : Bool := false
  /-- R407 R419 the attestation private keys unwrapped at power-up; reset none -/
  attestKeys : List (List Byte) := []
  /-- 1 bit; SEC.STATUS.debug_open, R423; reset 0 at power-on -/
  debugOpen : Bool := false
  /-- 1 bit; R407 an entropy health test failed; reset 0 -/
  rngBad : Bool := false
  /-- 384 bits; R423 the current nonce, none when there is none; reset none -/
  nonce : Option (List Byte) := none
  /-- counter; R407 DRBG draws so far (the model's own: names a free value); reset 0 -/
  draws : Nat := 0
  /-- 48 bytes; R421 the log of index 5; reset zero -/
  upLog : List Byte := []
  /-- KEY_STATUS result, state per slot (R417), keyed by slot; reset 0 -/
  keyResult : Sparse (Nat × Nat) := []
  /-- key slot under a running command of R417: (op, slot); reset none -/
  keyBusy : Option (Nat × Nat) := none
  /-- 8 bits; R418 the SPDM version that the requester has chosen; reset 0, none -/
  spdmVersion : Nat := 0
  /-- R418 SPDM connection; reset start -/
  spdm : SpdmState := .start
  /-- 4 x; R418 sessions; reset none -/
  sessions : List Session := []
  /-- R416 firmware update; reset idle -/
  upd : UpdState := .idle
  /-- R416 bytes of the update by offset: in the target slot, but for the header, which is written last; reset none -/
  image : List Host.Cell := []
  /-- R416 length of the image announced by UpdateComponent; reset 0 -/
  imageLen : Nat := 0
  /-- 8 bits; R426 MGT.MCTP.eid; reset 0 -/
  eid : Nat := 0
  /-- 1 bit; R427 SetEventReceiver has enabled events; reset 0 -/
  events : Bool := false
  /-- R427 sensors whose events are disabled; reset none -/
  sensorOff : List Nat := []
  /-- 78 x; R427 sensor values latched at the last tick; reset 0 -/
  sensors : Sparse Int := []
  /-- 78 x; R427 last good reading of each sensor, before the latch; reset 0 -/
  raw : Sparse Int := []
  /-- 4 x; R430 voltage loop: request mV, awaiting acknowledgement, repeats, halved caps; reset 750 mV (R435) not awaiting -/
  volt : Sparse (Nat × Bool × Nat × Bool) := []
  /-- 4 x; R429 throttled dies; reset none -/
  throttled : List Nat := []
  /-- 32 x 16 bits; PWR.BLK_CAP, as written and as in force since the last tick, keyed by engine; reset the block maximum (R436) -/
  caps : Sparse (Option Nat × Option Nat) := []
  /-- 32 x 16 bits; PWR.BLK_POWER over the last tick; reset 0 -/
  power : Sparse Nat := []
  /-- 32 x; R428 sum and number of the 1 us estimates since the last tick, and those with issue withheld, keyed by engine; reset 0 -/
  windows : Sparse (Nat × Nat × Nat) := []
  /-- 2 bits; R423 SEC.DBG_CMD.op taken at a tick and not yet carried out; reset 0 -/
  dbgBusy : Nat := 0
  /-- 44 bits; R423 SEC.DBG_ADDR as it stood at that tick; reset 0 -/
  dbgAddr : Nat := 0
  /-- 1 bit; R415 SVN_COMMIT was written and acts at the next tick; reset 0 -/
  svnDue : Bool := false
deriving DecidableEq, Repr

/-- The whole device: everything the spec gives the block. -/
structure Device where
  /-- power, clocks and time -/
  clk : Clocks := {}
  /-- fuses -/
  fuses : Fuses := {}
  /-- registers -/
  rf : RegFile := {}
  /-- memory -/
  mm : Memory := {}
  /-- translation and windows -/
  xl : Translation := {}
  /-- contexts, slots, engines, cells -/
  q : Queues := {}
  /-- function table -/
  sfu : Sfu := {}
  /-- 4 x; 05_attention.md pools -/
  kv : Sparse Pool := []
  /-- weights -/
  wt : Weights := {}
  /-- bells -/
  bl : Bells := {}
  /-- links -/
  lk : Links := {}
  /-- counters, trace, gong -/
  ob : Observe := {}
  /-- errors -/
  fl : Faults := {}
  /-- host interface -/
  ho : HostIf := {}
  /-- security and management -/
  se : Security := {}
  /-- counter; the model's own field: free values drawn so far (log 2); reset DESIGN CHOICE 0 -/
  free : Nat := 0
deriving DecidableEq, Repr

/-- The block: the device and the commands that wait for it. -/
structure State where
  /-- the commands that wait, first in first out (the model's own, log 1); reset empty -/
  pending : List Instr := []
  /-- the device -/
  dev : Device := {}
deriving DecidableEq, Repr

/-- The device right after power is applied, PERST# still asserted (R376, R413, R434, log 8): no command waits. The
power-up sequence of PERST_RELEASE (R413) leads to the ready state. -/
def State.reset : State := {}

end Sys2Proof.Machine
end

