-- ==== Sys2Proof/Machine/Tables.lean ====
section
/-! DEFINITION. Sparse tables: reading one key, writing one key, the canonical form that writing keeps, and numbers cut
into bytes and bits. -/

namespace Sys2Proof.Machine

/-- The value at key k; d is what an unlisted key holds. -/
def look {α : Type} (m : Sparse α) (k : Nat) (d : α) : α :=
  match m with
  | [] => d
  | (j, v) :: r => if j = k then v else look r k d

/-- Key k takes the value v; d is what an unlisted key holds, and writing it removes the entry. -/
def put {α : Type} [DecidableEq α] (m : Sparse α) (k : Nat) (v d : α) : Sparse α :=
  match m with
  | [] => if v = d then [] else [(k, v)]
  | (j, w) :: r =>
    if j < k then (j, w) :: put r k v d
    else if j = k then (if v = d then r else (k, v) :: r)
    else if v = d then (j, w) :: r else (k, v) :: (j, w) :: r

/-- The canonical form: keys strictly rising, and no entry equal to what its unlisted key would hold. -/
abbrev Canon {α : Type} (d : Nat → α) (m : Sparse α) : Prop :=
  m.Pairwise (fun p q => p.1 < q.1) ∧ ∀ p ∈ m, p.2 ≠ d p.1

theorem mem_put {α : Type} [DecidableEq α] {m : Sparse α} {k : Nat} {v d : α} {p : Nat × α}
    (h : p ∈ put m k v d) : p ∈ m ∨ (p = (k, v) ∧ v ≠ d) := by
  induction m with
  | nil =>
    simp only [put] at h
    split at h <;> simp_all
  | cons q r ih =>
    obtain ⟨j, w⟩ := q
    simp only [put] at h
    split_ifs at h <;> simp only [List.mem_cons] at h ⊢ <;> tauto

/-- Writing keeps the keys strictly rising. -/
theorem put_sorted {α : Type} [DecidableEq α] {m : Sparse α} (h : m.Pairwise fun p q => p.1 < q.1) (k : Nat) (v d : α) :
    (put m k v d).Pairwise fun p q => p.1 < q.1 := by
  induction m with
  | nil => simp only [put]; split <;> simp
  | cons q r ih =>
    obtain ⟨j, w⟩ := q
    rw [List.pairwise_cons] at h
    simp only [put]
    split_ifs with h1 h2 h3 h4
    · rw [List.pairwise_cons]
      refine ⟨fun p hp => ?_, ih h.2⟩
      rcases mem_put hp with hp | ⟨rfl, -⟩
      · exact h.1 p hp
      · exact h1
    · exact h.2
    · subst h2; exact List.pairwise_cons.2 ⟨h.1, h.2⟩
    · exact List.pairwise_cons.2 h
    · refine List.pairwise_cons.2 ⟨fun p hp => ?_, List.pairwise_cons.2 h⟩
      rcases List.mem_cons.1 hp with rfl | hp
      · simp only; omega
      · have := h.1 p hp; simp only at this ⊢; omega

theorem put_canon {α : Type} [DecidableEq α] {d : Nat → α} {m : Sparse α} (h : Canon d m) (k : Nat) (v : α) :
    Canon d (put m k v (d k)) := by
  refine ⟨put_sorted h.1 k v (d k), fun p hp => ?_⟩
  rcases mem_put hp with hp | ⟨rfl, hv⟩
  · exact h.2 p hp
  · exact hv

/-- A key reads as it was last written, in a table with rising keys. -/
theorem look_put_sorted {α : Type} [DecidableEq α] {m : Sparse α} (h : m.Pairwise fun p q => p.1 < q.1) (k : Nat) (v d : α) :
    look (put m k v d) k d = v := by
  have miss : ∀ r : Sparse α, (∀ p ∈ r, k < p.1) → look r k d = d := by
    intro r
    induction r with
    | nil => intro _; rfl
    | cons q r ih =>
      intro hq
      have h1 : k < q.1 := hq q (List.mem_cons_self ..)
      simp only [look]
      rw [if_neg (by omega)]
      exact ih fun p hp => hq p (List.mem_cons_of_mem _ hp)
  induction m with
  | nil => simp only [put]; split <;> simp_all [look]
  | cons q r ih =>
    obtain ⟨j, w⟩ := q
    rw [List.pairwise_cons] at h
    simp only [put]
    split_ifs with h1 h2 h3 h4
    · simp only [look]; rw [if_neg (by omega)]; exact ih h.2
    · subst h2 h3; exact miss r h.1
    · simp [look]
    · subst h4
      exact miss _ fun p hp => by
        rcases List.mem_cons.1 hp with rfl | hp
        · simp only; omega
        · have := h.1 p hp; simp only at this; omega
    · simp [look]

theorem look_put_self {α : Type} [DecidableEq α] {d : Nat → α} {m : Sparse α} (h : Canon d m) (k : Nat) (v : α) :
    look (put m k v (d k)) k (d k) = v := look_put_sorted h.1 k v (d k)

theorem look_put_other {α : Type} [DecidableEq α] {m : Sparse α} {k j : Nat} (v d e : α) (hj : j ≠ k) :
    look (put m k v d) j e = look m j e := by
  induction m with
  | nil => simp only [put]; split <;> simp [look, hj.symm]
  | cons q r ih =>
    obtain ⟨i, w⟩ := q
    simp only [put]
    split_ifs with h1 h2 h3 h4 <;> simp only [look] <;> (try split_ifs) <;> (try omega) <;> simp_all

/-! ### Bytes and bits -/

/-- Bits lo to lo+len-1 of a number. -/
def bits (n lo len : Nat) : Nat := (n / 2 ^ lo) % 2 ^ len

/-- The n lowest bytes of a number, lowest first (little-endian, 00_scope.md). -/
def toBytes (n : Nat) (v : Nat) : List Byte :=
  match n with
  | 0 => []
  | n + 1 => BitVec.ofNat 8 v :: toBytes n (v / 256)

/-- The number whose bytes these are, lowest first. -/
def fromBytes (l : List Byte) : Nat :=
  match l with
  | [] => 0
  | b :: r => b.toNat + 256 * fromBytes r

/-- The number at offset off of size bytes in a table of bytes; absent bytes are zero. -/
def fieldAt (l : List Byte) (off size : Nat) : Nat := fromBytes ((l.drop off).take size)

/-- Bit i of a word. -/
def bitOf (w : Word) (i : Nat) : Bool := w.getLsbD i

/-- Bits hi to lo of a word as a number. -/
def fieldOf (w : Word) (hi lo : Nat) : Nat := bits w.toNat lo (hi + 1 - lo)

/-- Bits hi to lo of a word replaced by v. -/
def setField (w : Word) (hi lo v : Nat) : Word :=
  let n := w.toNat
  BitVec.ofNat 32 (n - bits n lo (hi + 1 - lo) * 2 ^ lo + (v % 2 ^ (hi + 1 - lo)) * 2 ^ lo)

/-- n rounded up to a multiple of a. -/
def roundUp (n a : Nat) : Nat := (n + a - 1) / a * a

/-- The quotient rounded up. -/
def ceilDiv (n a : Nat) : Nat := (n + a - 1) / a

/-- A 32-bit count that saturates. -/
def satInc (w : Word) : Word := if w = 0xFFFFFFFF then w else w + 1

/-- The numbers from a on, n of them. -/
def span (a n : Nat) : List Nat := (List.range n).map (a + ·)

end Sys2Proof.Machine
end

