-- ==== Sys2Proof/Machine/Registers.lean ====
section
/-! DEFINITION. The registers of BAR0: the page map, the stored bits and reset value of every register, and the address
of every page (16_registers.md). -/

namespace Sys2Proof.Machine

/-- The pages of R447; a code with several kinds of instance has one constructor for each. -/
inductive PageKind where
  | cel | arr | vec | sfuCell | sfuRegion | sfuDevice | exp | eng | tab | snr | dma | xltBlock | xltRegion | xltDevice
  | bel | cnt | trc | flt | hbc | lpc | noc | pwr | clk | zwlPort | zwlDevice | win | pcx | ctx | wgt | kvp | dgs
  | gngDevice | gngRegion | mgt | sec | rstBlock | rstDevice | tim
deriving DecidableEq, Repr

/-- One stored register of a page: offset, name, the bits a write stores, whether a write of any value clears it (the
saturating counts), its reset value. -/
structure RegRow where
  off : Nat
  name : String
  mask : Word
  clears : Bool
  reset : Word
deriving DecidableEq, Repr

/-! The stored registers of each page (R461 and the chapters of R447), generated from the field tables of spec/:
offset, name, bits that a write stores, whether any write clears it, reset value. The registers of a queue slot stand at
the offsets of slot 0, the selection registers of CNT at those of counter 0. -/
/-- Registers of the cel page (R461). -/
def rowsCel : List RegRow := [
  ⟨0x040, "CONFIG", 0x0, false, 0x1000001F⟩,
  ⟨0x044, "STORE_CE_COUNT", 0xFFFFFFFF, true, 0x0⟩,
  ⟨0x048, "STORE_UE_ADDR", 0x8007FFFF, false, 0x0⟩]
/-- Registers of the arr page (R461). -/
def rowsArr : List RegRow := [
  ⟨0x004, "CTRL", 0x0, false, 0x0⟩,
  ⟨0x008, "STATUS", 0x0, false, 0x0⟩,
  ⟨0x040, "GEOMETRY", 0x0, false, 0x1800000⟩,
  ⟨0x044, "COLMAP0", 0x0, false, 0x0⟩,
  ⟨0x048, "COLMAP1", 0x0, false, 0x0⟩,
  ⟨0x04C, "COLMAP2", 0x0, false, 0x0⟩,
  ⟨0x050, "COLMAP3", 0x0, false, 0x0⟩,
  ⟨0x054, "DRUMROLL", 0xFFFF0007, false, 0x4000002⟩,
  ⟨0x058, "GUARD_ROW", 0xFFFFFFFF, false, 0x0⟩,
  ⟨0x05C, "GUARD_RES", 0x7FFFFFF, false, 0x0⟩]
/-- Registers of the vec page (R461). -/
def rowsVec : List RegRow := [
  ⟨0x004, "CTRL", 0x0, false, 0x0⟩,
  ⟨0x008, "STATUS", 0x0, false, 0x0⟩,
  ⟨0x040, "CONFIG", 0x0, false, 0x2001008⟩]
/-- Registers of the sfuCell page (R461). -/
def rowsSfuCell : List RegRow := [
  ⟨0x004, "CTRL", 0x0, false, 0x0⟩]
/-- Registers of the sfuRegion page (R461). -/
def rowsSfuRegion : List RegRow := [
  ⟨0x040, "STORE", 0xFFFF0000, true, 0x0⟩]
/-- Registers of the sfuDevice page (R461). -/
def rowsSfuDevice : List RegRow := [
  ⟨0x040, "UP_ADDR_LO", 0xFFFFFFFF, false, 0x0⟩,
  ⟨0x044, "UP_ADDR_HI", 0xFFF, false, 0x0⟩,
  ⟨0x048, "UP_LEN", 0xFFFF, false, 0x0⟩,
  ⟨0x04C, "UP_CMD", 0x3FF, false, 0x0⟩,
  ⟨0x050, "UP_STATUS", 0x0, false, 0x0⟩,
  ⟨0x054, "FN_SEL", 0xFF, false, 0x0⟩,
  ⟨0x058, "FN_INFO", 0x0, false, 0x0⟩]
/-- Registers of the exp page (R461). -/
def rowsExp : List RegRow := [
  ⟨0x004, "CTRL", 0x0, false, 0x0⟩,
  ⟨0x008, "STATUS", 0x0, false, 0x0⟩,
  ⟨0x040, "CONFIG", 0x0, false, 0x20010010⟩,
  ⟨0x044, "FAULT_SET", 0xFFFE0FFF, false, 0x0⟩,
  ⟨0x048, "FAULT_BLOCK", 0xFFFFFFFF, false, 0x0⟩]
/-- Registers of the eng page (R461). -/
def rowsEng : List RegRow := [
  ⟨0x004, "CTRL", 0x0, false, 0x0⟩,
  ⟨0x008, "STATUS", 0x0, false, 0x0⟩,
  ⟨0x040, "CELLS", 0x0, false, 0x0⟩,
  ⟨0x044, "WDOG", 0x3FFF, false, 0x2⟩]
/-- Registers of the tab page (R461). -/
def rowsTab0 : List RegRow := [
  ⟨0x040, "DOORBELL", 0x0, false, 0x0⟩,
  ⟨0x044, "DB_REJECT", 0xFFFFFFFF, true, 0x0⟩,
  ⟨0x048, "FETCH_CFG", 0xF1F, false, 0x810⟩,
  ⟨0x04C, "SHADOW_SEL", 0x3F, false, 0x0⟩,
  ⟨0x050, "SHADOW_INFO", 0x0, false, 0x0⟩,
  ⟨0x054, "SHADOW_LOST", 0x0, false, 0x0⟩,
  ⟨0x060, "SHADOW_DATA0", 0x0, false, 0x0⟩,
  ⟨0x064, "SHADOW_DATA1", 0x0, false, 0x0⟩,
  ⟨0x068, "SHADOW_DATA2", 0x0, false, 0x0⟩,
  ⟨0x06C, "SHADOW_DATA3", 0x0, false, 0x0⟩,
  ⟨0x070, "SHADOW_DATA4", 0x0, false, 0x0⟩,
  ⟨0x074, "SHADOW_DATA5", 0x0, false, 0x0⟩,
  ⟨0x078, "SHADOW_DATA6", 0x0, false, 0x0⟩,
  ⟨0x07C, "SHADOW_DATA7", 0x0, false, 0x0⟩,
  ⟨0x100, "SQ_BASE_LO", 0xFFFFFFFF, false, 0x0⟩,
  ⟨0x104, "SQ_BASE_HI", 0xFFFFF, false, 0x0⟩,
  ⟨0x108, "SQ_CFG", 0x1FF030F, false, 0x1000004⟩,
  ⟨0x10C, "SQ_HEAD", 0x0, false, 0x0⟩,
  ⟨0x110, "SQ_TAIL", 0x0, false, 0x0⟩,
  ⟨0x114, "CQ_BASE_LO", 0xFFFFFFFF, false, 0x0⟩,
  ⟨0x118, "CQ_BASE_HI", 0xFFFFF, false, 0x0⟩,
  ⟨0x11C, "CQ_CFG", 0xF, false, 0x4⟩,
  ⟨0x120, "CQ_HEAD", 0xFFFF, false, 0x0⟩,
  ⟨0x124, "CQ_TAIL", 0x0, false, 0x0⟩]
/-- Registers of the tab page (R461). -/
def rowsTab1 : List RegRow := [
  ⟨0x128, "SLOT_CTRL", 0x0, false, 0x0⟩,
  ⟨0x12C, "SLOT_STATUS", 0x0, false, 0x0⟩,
  ⟨0x130, "SLOT_VECTOR", 0x7FF, false, 0x0⟩,
  ⟨0x134, "LAST_STATUS", 0x0, false, 0x0⟩,
  ⟨0x138, "LAST_TAG", 0x0, false, 0x0⟩]
/-- Registers of the snr page (R461). -/
def rowsSnr : List RegRow := [
  ⟨0x008, "STATUS", 0x0, false, 0x0⟩,
  ⟨0x040, "CONFIG", 0x0, false, 0x1000020⟩]
/-- Registers of the dma page (R461). -/
def rowsDma : List RegRow := [
  ⟨0x008, "STATUS", 0x0, false, 0x0⟩,
  ⟨0x040, "KV_FAULT", 0xFFFFFFFF, false, 0x0⟩,
  ⟨0x044, "KV_FAULT_IDX", 0xFFFFFFFF, false, 0x0⟩,
  ⟨0x048, "KV_FAULT_SEQ", 0xF000FFFF, false, 0x0⟩]
/-- Registers of the xltBlock page (R461). -/
def rowsXltBlock : List RegRow := [
  ⟨0x008, "STATUS", 0x0, false, 0x0⟩,
  ⟨0x040, "FAULT_VA_LO", 0xFFFFFFFF, false, 0x0⟩,
  ⟨0x044, "FAULT_VA_HI", 0xFFFFFFFF, false, 0x0⟩,
  ⟨0x048, "FAULT_INFO", 0xFF0000FF, false, 0x0⟩,
  ⟨0x04C, "FLUSH", 0x0, false, 0x0⟩]
/-- Registers of the xltRegion page (R461). -/
def rowsXltRegion : List RegRow := [
  ⟨0x008, "STATUS", 0x0, false, 0x0⟩,
  ⟨0x040, "CONFIG", 0x0, false, 0x40000800⟩]
/-- Registers of the xltDevice page (R461). -/
def rowsXltDevice : List RegRow := [
  ⟨0x040, "CTX_SEL", 0xFF, false, 0x0⟩,
  ⟨0x044, "ROOT_LO", 0xFFFFFFFF, false, 0x0⟩,
  ⟨0x048, "ROOT_HI", 0xFFF, false, 0x0⟩,
  ⟨0x04C, "ROOT_CFG", 0x8000003F, false, 0x34⟩,
  ⟨0x050, "INVAL_CTX", 0x800000FF, false, 0x0⟩,
  ⟨0x054, "INVAL_VA_LO", 0xFFFFFFFF, false, 0x0⟩,
  ⟨0x058, "INVAL_VA_HI", 0xFFFFF, false, 0x0⟩,
  ⟨0x05C, "INVAL_LEN", 0x3F, false, 0x34⟩,
  ⟨0x060, "INVAL_CMD", 0x0, false, 0x0⟩,
  ⟨0x064, "INVAL_DONE", 0x0, false, 0x0⟩]
/-- Registers of the bel page (R461). -/
def rowsBel : List RegRow := [
  ⟨0x004, "CTRL", 0x0, false, 0x0⟩,
  ⟨0x008, "STATUS", 0x0, false, 0x0⟩,
  ⟨0x040, "GRP_SEL", 0x1FF, false, 0x0⟩,
  ⟨0x044, "GRP_CFG", 0xE0FF1FFF, false, 0x0⟩,
  ⟨0x048, "BELL_SEL", 0x7FFF, false, 0x0⟩,
  ⟨0x04C, "VALUE_LO", 0x0, false, 0x0⟩,
  ⟨0x050, "VALUE_HI", 0x0, false, 0x0⟩,
  ⟨0x054, "SET_LO", 0xFFFFFFFF, false, 0x0⟩,
  ⟨0x058, "SET_HI", 0xFFFFFFFF, false, 0x0⟩,
  ⟨0x05C, "OP", 0x0, false, 0x0⟩,
  ⟨0x060, "SAVE_BASE_LO", 0xFFFFFFFF, false, 0x0⟩,
  ⟨0x064, "SAVE_BASE_HI", 0xFFF, false, 0x0⟩,
  ⟨0x068, "SAVE_CTL", 0x0, false, 0x0⟩,
  ⟨0x06C, "SAVE_STATUS", 0x0, false, 0x0⟩,
  ⟨0x070, "REJ_INFO", 0xFFFFFFFF, false, 0x0⟩]
/-- Registers of the cnt page (R461). -/
def rowsCnt : List RegRow := [
  ⟨0x004, "CTRL", 0x0, false, 0x0⟩,
  ⟨0x008, "STATUS", 0x0, false, 0x0⟩,
  ⟨0x040, "GEN", 0x0, false, 0x0⟩,
  ⟨0x044, "ARMED", 0x0, false, 0x0⟩,
  ⟨0x048, "ARMED_HI", 0x0, false, 0x0⟩,
  ⟨0x04C, "MATCH_SEL", 0x3F, false, 0x0⟩,
  ⟨0x050, "MATCH_THR_LO", 0xFFFFFFFF, false, 0x0⟩,
  ⟨0x054, "MATCH_THR_HI", 0xFFFFFFFF, false, 0x0⟩,
  ⟨0x058, "MATCH_ACT", 0x80000007, false, 0x0⟩,
  ⟨0x100, "SEL0", 0x81FF, false, 0x0⟩]
/-- Registers of the trc page (R461). -/
def rowsTrc : List RegRow := [
  ⟨0x004, "CTRL", 0x7, false, 0x0⟩,
  ⟨0x008, "STATUS", 0x0, false, 0x0⟩,
  ⟨0x040, "FILTER", 0xFF1F, false, 0xFF1F⟩,
  ⟨0x044, "TRIG_SRC", 0x1F, false, 0x0⟩,
  ⟨0x048, "TRIGGER", 0x0, false, 0x0⟩,
  ⟨0x04C, "PRE_COUNT", 0x7FFFF, false, 0x8000⟩,
  ⟨0x050, "POST_COUNT", 0x7FFFF, false, 0x18000⟩,
  ⟨0x054, "WR_PTR", 0x0, false, 0x0⟩,
  ⟨0x058, "TRIG_IDX", 0x0, false, 0x0⟩,
  ⟨0x05C, "TRIG_EXTRA", 0x0, false, 0x0⟩,
  ⟨0x060, "DROPPED", 0x0, false, 0x0⟩,
  ⟨0x064, "READ_SEL", 0x3FFFF, false, 0x0⟩,
  ⟨0x068, "READ_DATA0", 0x0, false, 0x0⟩,
  ⟨0x06C, "READ_DATA1", 0x0, false, 0x0⟩,
  ⟨0x070, "READ_DATA2", 0x0, false, 0x0⟩,
  ⟨0x074, "READ_DATA3", 0x0, false, 0x0⟩,
  ⟨0x078, "READ_DATA4", 0x0, false, 0x0⟩,
  ⟨0x07C, "READ_DATA5", 0x0, false, 0x0⟩,
  ⟨0x080, "READ_DATA6", 0x0, false, 0x0⟩,
  ⟨0x084, "READ_DATA7", 0x0, false, 0x0⟩,
  ⟨0x088, "DUMP_BASE_LO", 0xFFFFFFFF, false, 0x0⟩,
  ⟨0x08C, "DUMP_BASE_HI", 0xFFF, false, 0x0⟩,
  ⟨0x090, "DUMP_CTL", 0x0, false, 0x0⟩]
/-- Registers of the flt page (R461). -/
def rowsFlt : List RegRow := [
  ⟨0x004, "CTRL", 0x3, false, 0x0⟩,
  ⟨0x008, "STATUS", 0x0, false, 0x0⟩,
  ⟨0x040, "BASE_LO", 0xFFFFFFFF, false, 0x0⟩,
  ⟨0x044, "BASE_HI", 0xFFF, false, 0x0⟩,
  ⟨0x048, "HEAD", 0x0, false, 0x0⟩,
  ⟨0x04C, "TAIL", 0x7FF, false, 0x0⟩,
  ⟨0x050, "OVF_COUNT", 0xFFFFFFFF, true, 0x0⟩]
/-- Registers of the hbc page (R461). -/
def rowsHbc : List RegRow := [
  ⟨0x004, "CTRL", 0x0, false, 0x0⟩,
  ⟨0x008, "STATUS", 0x0, false, 0x0⟩,
  ⟨0x040, "CAPACITY", 0x0, false, 0x5968⟩,
  ⟨0x044, "SCRUB", 0xFFFF, false, 0x18⟩,
  ⟨0x048, "SCRUB_PASSES", 0x0, false, 0x0⟩,
  ⟨0x04C, "CE_COUNT", 0xFFFFFFFF, true, 0x0⟩,
  ⟨0x050, "UE_COUNT", 0xFFFFFFFF, true, 0x0⟩,
  ⟨0x054, "ERR_ADDR_LO", 0xFFFFFFFF, false, 0x0⟩,
  ⟨0x058, "ERR_ADDR_HI", 0xC0000FFF, false, 0x0⟩,
  ⟨0x05C, "SPARE_THRESH", 0xFF, false, 0x4⟩,
  ⟨0x060, "SPARE_ADDR_LO", 0xFFFFFFFF, false, 0x0⟩,
  ⟨0x064, "SPARE_ADDR_HI", 0xFFF, false, 0x0⟩,
  ⟨0x068, "SPARES", 0x0, false, 0x0⟩]
/-- Registers of the noc page (R461). -/
def rowsNoc : List RegRow := [
  ⟨0x004, "CTRL", 0x0, false, 0x0⟩,
  ⟨0x008, "STATUS", 0x0, false, 0x0⟩]
/-- Registers of the pwr page (R461). -/
def rowsPwr : List RegRow := [
  ⟨0x040, "VREQ", 0x0, false, 0x0⟩,
  ⟨0x044, "VLIMIT", 0x3FF03FF, false, 0x3520258⟩,
  ⟨0x048, "TJ", 0x0, false, 0x0⟩,
  ⟨0x04C, "THROTTLE", 0xFFFF, false, 0x3264⟩,
  ⟨0x050, "BLK_SEL", 0x7, false, 0x0⟩,
  ⟨0x054, "BLK_CAP", 0xFFFF, false, 0x0⟩,
  ⟨0x058, "BLK_POWER", 0x0, false, 0x0⟩,
  ⟨0x05C, "BLK_MAX", 0x0, false, 0x0⟩]
/-- Registers of the clk page (R461). -/
def rowsClk : List RegRow := [
  ⟨0x040, "FREQ_SEL", 0x7, false, 0x0⟩,
  ⟨0x044, "FREQ_KHZ", 0x0, false, 0x0⟩,
  ⟨0x048, "GATE_SEL", 0x7, false, 0x0⟩,
  ⟨0x04C, "GATE_PCT", 0x0, false, 0x0⟩,
  ⟨0x050, "REF", 0x0, false, 0x0⟩]
/-- Registers of the zwlPort page (R461). -/
def rowsZwlPort : List RegRow := [
  ⟨0x004, "CTRL", 0x1, false, 0x0⟩,
  ⟨0x008, "STATUS", 0x0, false, 0x0⟩,
  ⟨0x040, "PARTNER", 0x0, false, 0x0⟩,
  ⟨0x044, "FEC_CE", 0xFFFFFFFF, true, 0x0⟩,
  ⟨0x048, "FEC_UE", 0xFFFFFFFF, true, 0x0⟩,
  ⟨0x04C, "REPLAYS", 0xFFFFFFFF, true, 0x0⟩,
  ⟨0x050, "MAC_FAIL", 0xFFFFFFFF, true, 0x0⟩]
/-- Registers of the zwlDevice page (R461). -/
def rowsZwlDevice : List RegRow := [
  ⟨0x040, "DEV_ID", 0x80001FFF, false, 0x0⟩,
  ⟨0x044, "HOLD_TIME", 0xFFFF, false, 0xBB8⟩,
  ⟨0x048, "E2E_TMO", 0xFFF, false, 0x14⟩,
  ⟨0x04C, "RETRY_BASE_LO", 0xFFFFFFFF, false, 0x0⟩,
  ⟨0x050, "RETRY_BASE_HI", 0xFFF, false, 0x0⟩,
  ⟨0x054, "RETRY_SIZE", 0xFF, false, 0x4⟩,
  ⟨0x058, "PEER_SEL", 0x1FFF, false, 0x0⟩,
  ⟨0x05C, "PEER_STATE", 0x0, false, 0x0⟩,
  ⟨0x060, "ROUTE_SEL", 0x1FFF, false, 0x0⟩,
  ⟨0x064, "ROUTE_MASK", 0x3FFFF, false, 0x0⟩,
  ⟨0x068, "TS_CFG", 0x8000031F, false, 0xA⟩,
  ⟨0x06C, "RELEASE", 0x0, false, 0x0⟩,
  ⟨0x070, "HOLD", 0x0, false, 0x0⟩]
/-- Registers of the win page (R461). -/
def rowsWin : List RegRow := [
  ⟨0x040, "OUT_SEL", 0x3FF, false, 0x0⟩,
  ⟨0x044, "OUT_ENTRY", 0xBFF01FFF, false, 0x0⟩,
  ⟨0x048, "IN_SEL", 0x3FF, false, 0x0⟩,
  ⟨0x04C, "IN_BASE_LO", 0xFFFFFFFF, false, 0x0⟩,
  ⟨0x050, "IN_BASE_HI", 0xFFF, false, 0x0⟩,
  ⟨0x054, "IN_SIZE", 0x3FFFFF, false, 0x0⟩,
  ⟨0x058, "IN_CFG", 0xF0FF1FFF, false, 0x0⟩,
  ⟨0x05C, "REJ_INFO", 0xF3FF1FFF, false, 0x0⟩]
/-- Registers of the pcx page (R461). -/
def rowsPcx : List RegRow := [
  ⟨0x008, "STATUS", 0x0, false, 0x0⟩,
  ⟨0x040, "VF_SEL", 0x7F, false, 0x1⟩,
  ⟨0x044, "VF_CFG", 0x0, false, 0x0⟩,
  ⟨0x048, "VF_APT_BASE_LO", 0xFFFFFFFF, false, 0x0⟩,
  ⟨0x04C, "VF_APT_BASE_HI", 0xFFF, false, 0x0⟩,
  ⟨0x050, "VF_MAP_SEL", 0xFF, false, 0x1⟩,
  ⟨0x054, "VF_MAP", 0xB000FFFF, false, 0x0⟩]
/-- Registers of the ctx page (R461). -/
def rowsCtx : List RegRow := [
  ⟨0x040, "CTX_SEL", 0xFF, false, 0x0⟩,
  ⟨0x044, "CFG", 0x8000007F, false, 0x0⟩,
  ⟨0x048, "STATE", 0x0, false, 0x0⟩,
  ⟨0x04C, "KILL", 0x0, false, 0x0⟩]
/-- Registers of the wgt page (R461). -/
def rowsWgt : List RegRow := [
  ⟨0x004, "CTRL", 0x1, false, 0x0⟩,
  ⟨0x008, "STATUS", 0x0, false, 0x0⟩,
  ⟨0x040, "SET_BASE_LO", 0xFFFFFFFF, false, 0x0⟩,
  ⟨0x044, "SET_BASE_HI", 0xFFF, false, 0x0⟩,
  ⟨0x048, "ADAPTER_BASE_LO", 0xFFFFFFFF, false, 0x0⟩,
  ⟨0x04C, "ADAPTER_BASE_HI", 0xFFF, false, 0x0⟩,
  ⟨0x050, "RETRY", 0xF, false, 0x3⟩,
  ⟨0x054, "FETCH_TMO", 0x3FFF, false, 0x64⟩,
  ⟨0x058, "HEAP_SEL", 0x7, false, 0x0⟩,
  ⟨0x05C, "HEAP_BASE_LO", 0xFFFFFFFF, false, 0x0⟩,
  ⟨0x060, "HEAP_BASE_HI", 0xFFF, false, 0x0⟩,
  ⟨0x064, "HEAP_EXTENTS", 0xFFFFFF, false, 0x0⟩,
  ⟨0x068, "HEAP_FREE", 0x0, false, 0x0⟩,
  ⟨0x06C, "SET_SEL", 0x3FFF, false, 0x0⟩,
  ⟨0x070, "SET_INFO", 0x0, false, 0xC000000⟩,
  ⟨0x074, "SET_EPOCH", 0x0, false, 0x0⟩]
/-- Registers of the kvp page (R461). -/
def rowsKvp0 : List RegRow := [
  ⟨0x004, "CTRL", 0x1, false, 0x0⟩,
  ⟨0x008, "STATUS", 0x0, false, 0x0⟩,
  ⟨0x040, "CENSUS_BASE_LO", 0xFFFFFFFF, false, 0x0⟩,
  ⟨0x044, "CENSUS_BASE_HI", 0xFFF, false, 0x0⟩,
  ⟨0x048, "CENSUS_LEN", 0xFFFFFFFF, false, 0x0⟩,
  ⟨0x04C, "PAGE_BYTES", 0x1F, false, 0x10⟩,
  ⟨0x050, "HBM_FRAME_BASE_LO", 0xFFFFFFFF, false, 0x0⟩,
  ⟨0x054, "HBM_FRAME_BASE_HI", 0xFFF, false, 0x0⟩,
  ⟨0x058, "HBM_FRAMES", 0x7FFFFFFF, false, 0x0⟩,
  ⟨0x05C, "LP_FRAME_BASE_LO", 0xFFFFFFFF, false, 0x0⟩,
  ⟨0x060, "LP_FRAME_BASE_HI", 0xFFF, false, 0x0⟩,
  ⟨0x064, "LP_FRAMES", 0x7FFFFFFF, false, 0x0⟩,
  ⟨0x068, "HBM_FREE_BASE_LO", 0xFFFFFFFF, false, 0x0⟩,
  ⟨0x06C, "HBM_FREE_BASE_HI", 0xFFF, false, 0x0⟩,
  ⟨0x070, "HBM_FREE_HEAD", 0xFFFFFFFF, false, 0x0⟩,
  ⟨0x074, "HBM_FREE_TAIL", 0xFFFFFFFF, false, 0x0⟩,
  ⟨0x078, "HBM_FREE_COUNT", 0xFFFFFFFF, false, 0x0⟩,
  ⟨0x07C, "LP_FREE_BASE_LO", 0xFFFFFFFF, false, 0x0⟩,
  ⟨0x080, "LP_FREE_BASE_HI", 0xFFF, false, 0x0⟩,
  ⟨0x084, "LP_FREE_HEAD", 0xFFFFFFFF, false, 0x0⟩,
  ⟨0x088, "LP_FREE_TAIL", 0xFFFFFFFF, false, 0x0⟩,
  ⟨0x08C, "LP_FREE_COUNT", 0xFFFFFFFF, false, 0x0⟩,
  ⟨0x090, "ALLOC", 0x3, false, 0x0⟩,
  ⟨0x094, "MIG_CTRL", 0xFFFFF1, false, 0x40040⟩]
/-- Registers of the kvp page (R461). -/
def rowsKvp1 : List RegRow := [
  ⟨0x098, "MIG_THRESH", 0xFFFFFFFF, false, 0x80001⟩,
  ⟨0x09C, "HBM_LOW_WM", 0xFFFFFFFF, false, 0x0⟩,
  ⟨0x0A0, "HBM_HIGH_WM", 0xFFFFFFFF, false, 0x0⟩,
  ⟨0x0A4, "QUAR_COUNT", 0x0, false, 0x0⟩,
  ⟨0x0A8, "CLOCK_HAND", 0x0, false, 0x0⟩]
/-- Registers of the dgs page (R461). -/
def rowsDgs : List RegRow := [
  ⟨0x004, "CTRL", 0x1, false, 0x0⟩,
  ⟨0x008, "STATUS", 0x0, false, 0x0⟩,
  ⟨0x040, "SESSION_BASE_LO", 0xFFFFFFFF, false, 0x0⟩,
  ⟨0x044, "SESSION_BASE_HI", 0xFFF, false, 0x0⟩,
  ⟨0x048, "LKEY0", 0x0, false, 0x341E9B85⟩,
  ⟨0x04C, "LKEY1", 0x0, false, 0xC6DA2F7⟩,
  ⟨0x050, "LKEY2", 0x0, false, 0x7A36E559⟩,
  ⟨0x054, "LKEY3", 0x0, false, 0x8F1BC4D2⟩]
/-- Registers of the gngDevice page (R461). -/
def rowsGngDevice : List RegRow := [
  ⟨0x008, "STATUS", 0x0, false, 0x0⟩,
  ⟨0x040, "RAISE", 0x0, false, 0x0⟩,
  ⟨0x044, "RESUME", 0x0, false, 0x0⟩,
  ⟨0x048, "ERR_MASK", 0xFF, false, 0x0⟩,
  ⟨0x04C, "CAUSE", 0x0, false, 0x0⟩,
  ⟨0x050, "RAISE_TIME_LO", 0x0, false, 0x0⟩,
  ⟨0x054, "RAISE_TIME_HI", 0x0, false, 0x0⟩,
  ⟨0x058, "EXTRA_RAISES", 0x0, false, 0x0⟩,
  ⟨0x060, "SKEW0", 0x0, false, 0x0⟩,
  ⟨0x064, "SKEW1", 0x0, false, 0x0⟩,
  ⟨0x068, "SKEW2", 0x0, false, 0x0⟩,
  ⟨0x06C, "SKEW3", 0x0, false, 0x0⟩,
  ⟨0x070, "FLITS_RX", 0x0, false, 0x0⟩,
  ⟨0x074, "FLITS_TX", 0x0, false, 0x0⟩]
/-- Registers of the gngRegion page (R461). -/
def rowsGngRegion : List RegRow := [
  ⟨0x040, "CUT_LO", 0x0, false, 0x0⟩,
  ⟨0x044, "CUT_HI", 0x0, false, 0x0⟩]
/-- Registers of the mgt page (R461). -/
def rowsMgt : List RegRow := [
  ⟨0x008, "STATUS", 0x0, false, 0x0⟩,
  ⟨0x040, "TICK_LO", 0x0, false, 0x0⟩,
  ⟨0x044, "TICK_HI", 0x0, false, 0x0⟩,
  ⟨0x048, "SENSOR_SEL", 0x7F, false, 0x1⟩,
  ⟨0x04C, "SENSOR_VAL", 0x0, false, 0x0⟩,
  ⟨0x050, "SENSOR_STATE", 0x0, false, 0x0⟩,
  ⟨0x054, "MCTP", 0x0, false, 0x0⟩]
/-- Registers of the sec page (R461). -/
def rowsSec : List RegRow := [
  ⟨0x008, "STATUS", 0x0, false, 0x0⟩,
  ⟨0x040, "FW_INFO", 0x0, false, 0x0⟩,
  ⟨0x044, "FW_GEN", 0x0, false, 0x0⟩,
  ⟨0x048, "SVN_COMMIT", 0x0, false, 0x0⟩,
  ⟨0x04C, "KEY_SEL", 0xFF, false, 0x0⟩,
  ⟨0x050, "KEY_CMD", 0x3, false, 0x0⟩,
  ⟨0x054, "KEY_STATUS", 0x0, false, 0x0⟩,
  ⟨0x058, "DBG_CMD", 0x3, false, 0x0⟩,
  ⟨0x05C, "DBG_ADDR_LO", 0xFFFFFFFF, false, 0x0⟩,
  ⟨0x060, "DBG_ADDR_HI", 0xFFF, false, 0x0⟩,
  ⟨0x064, "DBG_STATUS", 0x0, false, 0x0⟩,
  ⟨0x080, "DBG_CHAL0", 0x0, false, 0x0⟩,
  ⟨0x084, "DBG_CHAL1", 0x0, false, 0x0⟩,
  ⟨0x088, "DBG_CHAL2", 0x0, false, 0x0⟩,
  ⟨0x08C, "DBG_CHAL3", 0x0, false, 0x0⟩,
  ⟨0x090, "DBG_CHAL4", 0x0, false, 0x0⟩,
  ⟨0x094, "DBG_CHAL5", 0x0, false, 0x0⟩,
  ⟨0x098, "DBG_CHAL6", 0x0, false, 0x0⟩,
  ⟨0x09C, "DBG_CHAL7", 0x0, false, 0x0⟩,
  ⟨0x0A0, "DBG_CHAL8", 0x0, false, 0x0⟩,
  ⟨0x0A4, "DBG_CHAL9", 0x0, false, 0x0⟩,
  ⟨0x0A8, "DBG_CHAL10", 0x0, false, 0x0⟩,
  ⟨0x0AC, "DBG_CHAL11", 0x0, false, 0x0⟩]
/-- Registers of the rstBlock page (R461). -/
def rowsRstBlock : List RegRow := [
  ⟨0x004, "CTRL", 0x0, false, 0x0⟩,
  ⟨0x008, "STATUS", 0x0, false, 0x0⟩,
  ⟨0x040, "REPLAY_LIMIT", 0x3FFFFFF, false, 0x4B0⟩,
  ⟨0x044, "STRIKES", 0x0, false, 0x0⟩,
  ⟨0x048, "LAST_CAUSE", 0xFFFF, false, 0x0⟩,
  ⟨0x04C, "LAST_RESET_LO", 0xFFFFFFFF, false, 0x0⟩,
  ⟨0x050, "LAST_RESET_HI", 0xFFFFFFFF, false, 0x0⟩,
  ⟨0x054, "RESET_NS", 0x3FFFF, false, 0x0⟩,
  ⟨0x058, "PAUSE_US", 0xFFFFFF, false, 0x0⟩]
/-- Registers of the rstDevice page (R461). -/
def rowsRstDevice0 : List RegRow := [
  ⟨0x004, "CTRL", 0x0, false, 0x0⟩,
  ⟨0x008, "STATUS", 0x0, false, 0x0⟩,
  ⟨0x040, "CAUSE", 0x0, false, 0x0⟩,
  ⟨0x044, "RESETS", 0x0, false, 0x0⟩,
  ⟨0x048, "LOG_HEAD", 0x0, false, 0x0⟩,
  ⟨0x04C, "LOG_TAIL", 0x1FF, false, 0x0⟩,
  ⟨0x050, "LOG_SEL", 0x1FF, false, 0x0⟩,
  ⟨0x054, "LOG_OVF", 0x0, false, 0x0⟩,
  ⟨0x058, "FLR_BUSY0", 0x0, false, 0x0⟩,
  ⟨0x05C, "FLR_BUSY1", 0x0, false, 0x0⟩,
  ⟨0x060, "INJ_COUNT", 0x0, false, 0x0⟩,
  ⟨0x080, "LOG_DATA0", 0x0, false, 0x0⟩,
  ⟨0x084, "LOG_DATA1", 0x0, false, 0x0⟩,
  ⟨0x088, "LOG_DATA2", 0x0, false, 0x0⟩,
  ⟨0x08C, "LOG_DATA3", 0x0, false, 0x0⟩,
  ⟨0x090, "LOG_DATA4", 0x0, false, 0x0⟩,
  ⟨0x094, "LOG_DATA5", 0x0, false, 0x0⟩,
  ⟨0x098, "LOG_DATA6", 0x0, false, 0x0⟩,
  ⟨0x09C, "LOG_DATA7", 0x0, false, 0x0⟩,
  ⟨0x0A0, "LOG_DATA8", 0x0, false, 0x0⟩,
  ⟨0x0A4, "LOG_DATA9", 0x0, false, 0x0⟩,
  ⟨0x0A8, "LOG_DATA10", 0x0, false, 0x0⟩,
  ⟨0x0AC, "LOG_DATA11", 0x0, false, 0x0⟩,
  ⟨0x0B0, "LOG_DATA12", 0x0, false, 0x0⟩]
/-- Registers of the rstDevice page (R461). -/
def rowsRstDevice1 : List RegRow := [
  ⟨0x0B4, "LOG_DATA13", 0x0, false, 0x0⟩,
  ⟨0x0B8, "LOG_DATA14", 0x0, false, 0x0⟩,
  ⟨0x0BC, "LOG_DATA15", 0x0, false, 0x0⟩]
/-- Registers of the tim page (R461). -/
def rowsTim : List RegRow := [
  ⟨0x040, "NOW_LO", 0x0, false, 0x0⟩,
  ⟨0x044, "NOW_HI", 0x0, false, 0x0⟩,
  ⟨0x048, "DIE_STATUS", 0x0, false, 0x0⟩,
  ⟨0x04C, "SYNC_CHECKS", 0x0, false, 0x0⟩,
  ⟨0x050, "CORRECTIONS", 0xFFFFFFFF, true, 0x0⟩]
/-- The registers of a page (R461). The LPC page is laid out as the HBC page. -/
def regTable : PageKind → List RegRow
  | .cel => rowsCel
  | .arr => rowsArr
  | .vec => rowsVec
  | .sfuCell => rowsSfuCell
  | .sfuRegion => rowsSfuRegion
  | .sfuDevice => rowsSfuDevice
  | .exp => rowsExp
  | .eng => rowsEng
  | .tab => rowsTab0 ++ rowsTab1
  | .snr => rowsSnr
  | .dma => rowsDma
  | .xltBlock => rowsXltBlock
  | .xltRegion => rowsXltRegion
  | .xltDevice => rowsXltDevice
  | .bel => rowsBel
  | .cnt => rowsCnt
  | .trc => rowsTrc
  | .flt => rowsFlt
  | .hbc => rowsHbc
  | .noc => rowsNoc
  | .pwr => rowsPwr
  | .clk => rowsClk
  | .zwlPort => rowsZwlPort
  | .zwlDevice => rowsZwlDevice
  | .win => rowsWin
  | .pcx => rowsPcx
  | .ctx => rowsCtx
  | .wgt => rowsWgt
  | .kvp => rowsKvp0 ++ rowsKvp1
  | .dgs => rowsDgs
  | .gngDevice => rowsGngDevice
  | .gngRegion => rowsGngRegion
  | .mgt => rowsMgt
  | .sec => rowsSec
  | .rstBlock => rowsRstBlock
  | .rstDevice => rowsRstDevice0 ++ rowsRstDevice1
  | .tim => rowsTim
  | .lpc => rowsHbc.map fun r => if r.off = 0x040 then { r with reset := 0xEE6B } else r
/-- The error bits of a page: those ERR_STATUS and ERR_ENABLE define, those ERR_INJECT can arm, and the reset value of
ERR_ENABLE (R447, R448, the chapters' ERR tables). -/
def errBits : PageKind → Word × Word × Word
  | .cel => (0x3, 0x3, 0x2)
  | .arr => (0x7, 0x3, 0x7)
  | .vec => (0x3, 0x3, 0x3)
  | .sfuCell => (0xF, 0xF, 0xB)
  | .sfuRegion => (0xF, 0xF, 0xB)
  | .sfuDevice => (0xF, 0xF, 0xB)
  | .exp => (0x7, 0x6, 0x7)
  | .eng => (0x1F, 0x1E, 0x1E)
  | .tab => (0x7, 0x5, 0x7)
  | .snr => (0x1, 0x1, 0x1)
  | .dma => (0x3, 0x2, 0x2)
  | .xltBlock => (0x3, 0x1, 0x0)
  | .xltRegion => (0x3, 0x1, 0x0)
  | .xltDevice => (0x3, 0x1, 0x0)
  | .bel => (0xF, 0x3, 0x6)
  | .cnt => (0x3, 0x2, 0x0)
  | .trc => (0x3, 0x2, 0x0)
  | .flt => (0x1, 0x0, 0x1)
  | .hbc => (0x3F, 0x23, 0x16)
  | .lpc => (0x3F, 0x23, 0x16)
  | .noc => (0x3, 0x3, 0x3)
  | .pwr => (0x7, 0x4, 0x6)
  | .clk => (0x0, 0x0, 0x0)
  | .zwlPort => (0xFF, 0x47, 0x5E)
  | .zwlDevice => (0xFF, 0x47, 0x5E)
  | .win => (0x3, 0x2, 0x2)
  | .pcx => (0x3F, 0x1A, 0x38)
  | .ctx => (0x1, 0x0, 0x1)
  | .wgt => (0xF, 0xC, 0xD)
  | .kvp => (0x1F, 0xC, 0xC)
  | .dgs => (0x7, 0x5, 0x7)
  | .gngDevice => (0x1, 0x1, 0x0)
  | .gngRegion => (0x0, 0x0, 0x0)
  | .mgt => (0x7, 0x3, 0x1)
  | .sec => (0xF, 0x0, 0xD)
  | .rstBlock => (0x3, 0x3, 0x3)
  | .rstDevice => (0xF, 0x0, 0xF)
  | .tim => (0x1, 0x1, 0x1)
/-- The page code of R447, the type field of ID (R449). -/
def PageKind.code : PageKind → Nat
  | .cel => 0x01
  | .arr => 0x02
  | .vec => 0x03
  | .sfuCell => 0x04
  | .sfuRegion => 0x04
  | .sfuDevice => 0x04
  | .exp => 0x05
  | .eng => 0x06
  | .tab => 0x07
  | .snr => 0x08
  | .dma => 0x09
  | .xltBlock => 0x0A
  | .xltRegion => 0x0A
  | .xltDevice => 0x0A
  | .bel => 0x0B
  | .cnt => 0x0C
  | .trc => 0x0D
  | .flt => 0x0E
  | .hbc => 0x0F
  | .lpc => 0x10
  | .noc => 0x11
  | .pwr => 0x12
  | .clk => 0x13
  | .zwlPort => 0x14
  | .zwlDevice => 0x14
  | .win => 0x15
  | .pcx => 0x16
  | .ctx => 0x17
  | .wgt => 0x18
  | .kvp => 0x19
  | .dgs => 0x1A
  | .gngDevice => 0x1B
  | .gngRegion => 0x1B
  | .mgt => 0x1C
  | .sec => 0x1D
  | .rstBlock => 0x1E
  | .rstDevice => 0x1E
  | .tim => 0x1F
/-- A page of BAR0: its kind and where it lies (R445, R447). -/
structure Page where
  kind : PageKind
  region : Nat
  block : Nat
  cell : Nat
deriving DecidableEq, Repr

/-- The error bits of one page: carillon_limit is reserved on the NOC pages of the IO dies (R458). -/
def Page.errBits (p : Page) : Word × Word × Word :=
  if p.kind = .noc && 4 ≤ p.region then (0x2, 0x2, 0x2) else Machine.errBits p.kind

/-- The page that a BAR0 offset's region, block, cell and page fields name (R447). -/
def pageAt (region block cell page : Nat) : Option Page :=
  let here (k : PageKind) : Option Page := some ⟨k, region, block, cell⟩
  if region < 4 ∧ block < 8 ∧ cell < 4 then
    match page with
    | 0 => here .cel | 1 => here .arr | 2 => here .vec | 3 => here .sfuCell | 4 => here .exp | _ => none
  else if region < 4 ∧ block < 8 ∧ cell = 15 then
    match page with
    | 0 => here .eng | 1 => here .tab | 2 => here .snr | 3 => here .dma | 4 => here .xltBlock | 5 => here .cnt
    | 6 => here .rstBlock | _ => none
  else if region < 4 ∧ block = 15 ∧ cell < 4 then
    match page with
    | 10 => here .hbc | 11 => here .lpc | _ => none
  else if region < 4 ∧ block = 15 ∧ cell = 15 then
    match page with
    | 3 => here .sfuRegion | 4 => here .xltRegion | 5 => here .flt | 6 => here .bel | 7 => here .trc | 8 => here .gngRegion
    | 9 => here .kvp | 10 => here .pwr | 13 => here .clk | 14 => here .noc | _ => none
  else if region = 6 ∧ block = 15 ∧ cell = 15 then
    match page with
    | 7 => here .dgs | 8 => here .gngDevice | 9 => here .rstDevice | 10 => here .pcx | 11 => here .sec | 12 => here .mgt
    | 13 => here .clk | 14 => here .noc | _ => none
  else if region = 7 ∧ block = 15 ∧ cell = 15 then
    match page with
    | 4 => here .zwlDevice | 5 => here .win | 6 => here .tim | 13 => here .clk | 14 => here .noc | _ => none
  else if (region = 6 ∨ region = 7) ∧ block = 15 ∧ cell < 9 ∧ page = 4 then here .zwlPort
  else if region = 15 ∧ block = 15 ∧ cell = 15 then
    match page with
    | 3 => here .sfuDevice | 4 => here .xltDevice | 6 => here .ctx | 8 => here .wgt | _ => none
  else none

/-- The BAR0 offset of a page's first register (R445). -/
def pageBase (region block cell page : Nat) : Nat := region * 2 ^ 24 + block * 2 ^ 20 + cell * 2 ^ 16 + page * 2 ^ 12

/-- The page that holds a BAR0 offset, and the offset within it (R445). -/
def decodeAddr (addr : Nat) : Option (Page × Nat) :=
  (pageAt (bits addr 24 4) (bits addr 20 4) (bits addr 16 4) (bits addr 12 4)).map (·, bits addr 0 12)

/-- The offset at which the table lists a register that a page holds many times: the slots of TAB, SEL of CNT. -/
def canonOff (k : PageKind) (off : Nat) : Nat :=
  match k with
  | .tab => if 0x100 ≤ off ∧ off < 0x300 then 0x100 + (off - 0x100) % 0x40 else off
  | .cnt => if 0x100 ≤ off ∧ off < 0x200 then 0x100 else off
  | _ => off

/-- The row of a register of a page, if the page has it (R446, R461). -/
def rowOf (k : PageKind) (off : Nat) : Option RegRow := (regTable k).find? fun r => r.off = canonOff k off

/-- What a BAR0 register holds at reset (R448, R461). -/
def resetWord (addr : Nat) : Word :=
  match decodeAddr addr with
  | none => 0
  | some (p, off) => if off = 0x010 then p.errBits.2.2 else
      match rowOf p.kind off with
      | some r => r.reset
      | none => 0

/-! ### Where pages lie -/

/-- Page p of cell c of engine e. -/
def cellPage (e c p : Nat) : Nat := pageBase (e / 8) (e % 8) c p
def celPage (e c : Nat) : Nat := cellPage e c 0
def arrPage (e c : Nat) : Nat := cellPage e c 1
def vecPage (e c : Nat) : Nat := cellPage e c 2
def sfuPage (e c : Nat) : Nat := cellPage e c 3
def expPage (e c : Nat) : Nat := cellPage e c 4
/-- Page p of engine e at block level. -/
def blockPage (e p : Nat) : Nat := pageBase (e / 8) (e % 8) 15 p
def engPage (e : Nat) : Nat := blockPage e 0
def tabPage (e : Nat) : Nat := blockPage e 1
def snrPage (e : Nat) : Nat := blockPage e 2
def dmaPage (e : Nat) : Nat := blockPage e 3
def xltPage (e : Nat) : Nat := blockPage e 4
def cntPage (e : Nat) : Nat := blockPage e 5
def rstPage (e : Nat) : Nat := blockPage e 6
/-- Page p of a region. -/
def regionPage (r p : Nat) : Nat := pageBase r 15 15 p
def sfuRegionPage (r : Nat) : Nat := regionPage r 3
def xltRegionPage (r : Nat) : Nat := regionPage r 4
def fltPage (r : Nat) : Nat := regionPage r 5
def belPage (r : Nat) : Nat := regionPage r 6
def trcPage (r : Nat) : Nat := regionPage r 7
def gngRegionPage (r : Nat) : Nat := regionPage r 8
def kvpPage (r : Nat) : Nat := regionPage r 9
def pwrPage (r : Nat) : Nat := regionPage r 10
/-- CLK and NOC pages of a die: 0-3 the regions, 6 and 7 the IO dies. -/
def clkPage (die : Nat) : Nat := regionPage die 13
def nocPage (die : Nat) : Nat := regionPage die 14
/-- The page of a memory controller, tier*16 + region*4 + controller. -/
def ctlPage (ctl : Nat) : Nat := pageBase (ctl % 16 / 4) 15 (ctl % 4) (if ctl < 16 then 10 else 11)
def portPage (port : Nat) : Nat := pageBase (if port < 9 then 6 else 7) 15 (port % 9) 4
def dgsPage : Nat := regionPage 6 7
def gngPage : Nat := regionPage 6 8
def rstDevPage : Nat := regionPage 6 9
def pcxPage : Nat := regionPage 6 10
def secPage : Nat := regionPage 6 11
def mgtPage : Nat := regionPage 6 12
def zwlPage : Nat := regionPage 7 4
def winPage : Nat := regionPage 7 5
def timPage : Nat := regionPage 7 6
def sfuDevPage : Nat := regionPage 15 3
def xltDevPage : Nat := regionPage 15 4
def ctxPage : Nat := regionPage 15 6
def wgtPage : Nat := regionPage 15 8

/-- The pages whose controls wait for a management tick (R38, R447). -/
def isManagement (k : PageKind) : Bool :=
  match k with
  | .sfuDevice | .pwr | .clk | .zwlPort | .mgt | .sec | .tim => true
  | _ => false

end Sys2Proof.Machine
end

