-- ==== Sys2Proof/Machine/Ops.lean ====
section
/-! DEFINITION. Updates of the device and the named operations that the meanings share: registers, counters, errors and
fault records, interrupts, trace, the gong, and memory bytes. -/

namespace Sys2Proof.Machine

/-! ### Populated memory -/

/-- A device physical address split into tier (0 HBM3E, 1 LPDDR5X), region, controller and address within the part
(R208, R209); none when the address is unpopulated. -/
def partOf (pa : Nat) : Option (Nat × Nat × Nat × Nat) :=
  let split (tier r o cap : Nat) : Option (Nat × Nat × Nat × Nat) :=
    let a := (o / 2 ^ 14) * 2 ^ 12 + o % 2 ^ 12
    if a < cap then some (tier, r, bits o 12 2, a) else none
  if pa < 2 ^ 40 then split 0 (pa / 2 ^ 38) (pa % 2 ^ 38) 47999614976
  else if 2 ^ 41 ≤ pa ∧ pa < 2 ^ 42 then split 1 ((pa - 2 ^ 41) / 2 ^ 39) (pa % 2 ^ 39) 127999672320
  else none

/-- The address holds a byte of memory (R208). -/
def populated (pa : Nat) : Bool := (partOf pa).isSome

/-- Every byte of a range is populated. -/
def populatedRange (pa len : Nat) : Bool :=
  -- a range within one 4 KiB unit is populated when its last byte is; the map changes only at 4 KiB boundaries (R209)
  ((List.range (ceilDiv (pa % 4096 + len) 4096)).all fun i => populated ((pa / 4096 + i) * 4096)) || len == 0

/-- The controller of an address: tier*16 + region*4 + controller (R209). -/
def ctlOf (pa : Nat) : Nat :=
  match partOf pa with
  | some (t, r, c, _) => t * 16 + r * 4 + c
  | none => 0

/-- The device address within the part (R209). -/
def devAddr (pa : Nat) : Nat :=
  match partOf pa with
  | some (_, _, _, a) => a
  | none => 0

/-- The pseudo-channel of an HBM3E part, and the channel of an LPDDR5X part, that hold a device address (R209). -/
def pseudoChannel (a : Nat) : Nat := bits a 8 5 ^^^ bits a 13 5
def lpChannel (a : Nat) : Nat := bits a 8 2 ^^^ bits a 10 2

/-! ### What every step keeps -/

/-- No key in use, and none that wrote a line, is newer than the last key generated (R218, R407); the table of the lines' keys
lists each line once, in order. -/
def Memory.KeysKnown (m : Memory) : Prop :=
  m.fillGen ≤ m.nextGen ∧ (∀ p ∈ m.lineKey, p.2.gen ≤ m.nextGen) ∧ (∀ p ∈ m.keys, p.2 ≤ m.nextGen) ∧
    m.lineKey.Pairwise fun p q => p.1 < q.1

/-- What every update keeps: memory lists each byte once, in order, never a zero (R462) and only at a populated address
(R208); the stored registers and the bell counters are in their canonical form; the keys are known. -/
structure Wf (d : Device) : Prop where
  mem : Canon (fun _ => 0) d.mm.cells
  pop : ∀ p ∈ d.mm.cells, populated p.1 = true
  regs : Canon resetWord d.rf.regs
  bells : Canon (fun _ => 0) d.bl.bells
  keys : d.mm.KeysKnown

/-- The fuses b come after the fuses a: a fuse once blown is never cleared, and only the anti-rollback counter, the repairs
and the revoke bits are blown in use (R214, R406, R415). -/
structure Fuses.Before (a b : Fuses) : Prop where
  part : (b.harvested, b.disabled, b.badMap, b.colMap, b.serial, b.wrapped) =
    (a.harvested, a.disabled, a.badMap, a.colMap, a.serial, a.wrapped)
  svn : a.svn ≤ b.svn
  revoked : a.revoked &&& b.revoked = a.revoked
  repairs : ∃ l, b.repairs = a.repairs ++ l

theorem Fuses.Before.refl (a : Fuses) : a.Before a := ⟨rfl, Nat.le_refl _, BitVec.and_self, [], (List.append_nil _).symm⟩

theorem Fuses.Before.trans {a b c : Fuses} (h : a.Before b) (k : b.Before c) : a.Before c := by
  refine ⟨k.part.trans h.part, Nat.le_trans h.svn k.svn, ?_, ?_⟩
  · have h1 := h.revoked
    rw [← h1, BitVec.and_assoc, k.revoked, h1]
  · obtain ⟨l, hl⟩ := h.repairs
    obtain ⟨m, hm⟩ := k.repairs
    exact ⟨l ++ m, by rw [hm, hl, List.append_assoc]⟩

/-- An update of the device, with the proofs that it keeps Wf and clears no fuse: a meaning is built of these, so that both hold
of every command by its construction. -/
structure Upd where
  run : Device → Device
  keeps : ∀ d, Wf d → Wf (run d)
  fuses : ∀ d : Device, d.fuses.Before (run d).fuses := by intro d; exact Fuses.Before.refl _

/-- An update that changes neither memory bytes nor stored registers nor bell counters nor keys nor fuses, or keeps them in
form. -/
def Upd.of (f : Device → Device)
    (h : ∀ d, Wf d → Wf (f d) := by intro d h; exact ⟨h.mem, h.pop, h.regs, h.bells, h.keys⟩)
    (k : ∀ d : Device, d.fuses.Before (f d).fuses := by intro d; exact Fuses.Before.refl _) : Upd := ⟨f, h, k⟩

/-- Nothing changes. -/
def Upd.skip : Upd := Upd.of fun d => d

/-- The updates in order. -/
def Upd.all : List Upd → Upd
  | [] => Upd.skip
  | u :: r => ⟨fun d => (Upd.all r).run (u.run d), fun d h => (Upd.all r).keeps _ (u.keeps d h),
      fun d => (u.fuses d).trans ((Upd.all r).fuses _)⟩

/-- An update chosen by looking at the device. -/
def Upd.read (k : Device → Upd) : Upd := ⟨fun d => (k d).run d, fun d h => (k d).keeps d h, fun d => (k d).fuses d⟩

/-- The update when the condition holds, else nothing. -/
def Upd.when (c : Bool) (u : Upd) : Upd := if c then u else Upd.skip

/-- One update for each element, in order. -/
def Upd.each {α : Type} (l : List α) (f : α → Upd) : Upd := Upd.all (l.map f)

/-- The update n times. -/
def Upd.times : Nat → Upd → Upd
  | 0, _ => Upd.skip
  | n + 1, u => Upd.all [u, Upd.times n u]

/-! ### Registers -/

/-- What a register stores (R461). -/
def Device.reg (d : Device) (addr : Nat) : Word := look d.rf.regs addr (resetWord addr)

/-- The stored register as a number. -/
def Device.regN (d : Device) (addr : Nat) : Nat := (d.reg addr).toNat

/-- The LO/HI pair whose LO register lies at addr, as a number (R457). -/
def Device.pair (d : Device) (addr : Nat) : Nat := d.regN addr + d.regN (addr + 4) * 2 ^ 32

/-- The value of a management-page control in force: the one present at the last tick (R38). -/
def Device.inForce (d : Device) (addr : Nat) : Word := look d.rf.inForce addr (resetWord addr)

/-- A register takes a value. -/
def Upd.setReg (addr : Nat) (v : Word) : Upd :=
  ⟨fun d => { d with rf := { d.rf with regs := put d.rf.regs addr v (resetWord addr) } },
   fun _ h => ⟨h.mem, h.pop, put_canon h.regs addr v, h.bells, h.keys⟩, fun _ => Fuses.Before.refl _⟩

/-- A register takes a function of its value. -/
def Upd.modReg (addr : Nat) (f : Word → Word) : Upd := .read fun d => .setReg addr (f (d.reg addr))

/-- The LO/HI pair at addr takes a 64-bit value. -/
def Upd.setPair (addr v : Nat) : Upd :=
  .all [.setReg addr (BitVec.ofNat 32 v), .setReg (addr + 4) (BitVec.ofNat 32 (v / 2 ^ 32))]

/-- A saturating count of a page goes up by one. -/
def Upd.sat (addr : Nat) : Upd := .modReg addr satInc

/-- A 64-bit counter, by the offset of its LO register (R456). -/
def Device.ctr (d : Device) (lo : Nat) : Word64 := look d.rf.ctrs lo 0

/-- A 64-bit counter takes a value. -/
def Upd.setCtr (lo : Nat) (v : Word64) : Upd :=
  .of fun d => { d with rf := { d.rf with ctrs := put d.rf.ctrs lo v 0 } }

/-- A 64-bit counter goes up by n. -/
def Upd.count (lo : Nat) (n : Nat := 1) : Upd := .read fun d => .setCtr lo (d.ctr lo + BitVec.ofNat 64 n)

/-- The 64-bit counters of a page from offset lo to offset hi return to zero. -/
def Upd.clearCtrs (base lo hi : Nat) : Upd :=
  .of fun d => { d with rf := { d.rf with ctrs := d.rf.ctrs.filter fun p => !(base + lo ≤ p.1 && p.1 ≤ base + hi) } }

/-! ### Groups of the state -/

def Device.slot (d : Device) (e s : Nat) : Slot := look d.q.slots (e * 8 + s) {}
def Device.eng (d : Device) (e : Nat) : Engine := look d.q.engines e {}
def Device.cell (d : Device) (e c : Nat) : Cell := look d.q.cells (e * 4 + c) {}
def Device.ctx (d : Device) (c : Nat) : Ctx := look d.q.ctxs c {}
/-- The timestamp master (R331). -/
def Device.now (d : Device) : Word64 := d.clk.time

/-- The number of a die among the six counters of R331: the IO dies 6 and 7 are 4 and 5. -/
def dieCounter (die : Nat) : Nat := if die < 4 then die else die - 2

/-- The counter of a die, which its records carry (R331): it differs from the master by its skew, and while it stands still it does not
step back. -/
def Device.dieTime (d : Device) (die : Nat) : Word64 :=
  let k := dieCounter die
  let t := d.clk.time + BitVec.ofInt 64 (look d.clk.dieSkew k 0)
  if t < look d.clk.dieStop k 0 then look d.clk.dieStop k 0 else t

/-- A queue slot takes a function of itself. -/
def Upd.slot (e s : Nat) (f : Slot → Slot) : Upd :=
  .of fun d => { d with q := { d.q with slots := put d.q.slots (e * 8 + s) (f (d.slot e s)) {} } }

/-- An engine takes a function of itself. -/
def Upd.eng (e : Nat) (f : Engine → Engine) : Upd :=
  .of fun d => { d with q := { d.q with engines := put d.q.engines e (f (d.eng e)) {} } }

/-- A cell's array takes a function of itself. -/
def Upd.cell (e c : Nat) (f : Cell → Cell) : Upd :=
  .of fun d => { d with q := { d.q with cells := put d.q.cells (e * 4 + c) (f (d.cell e c)) {} } }

/-- A context takes a function of itself. -/
def Upd.ctx (c : Nat) (f : Ctx → Ctx) : Upd :=
  .of fun d => { d with q := { d.q with ctxs := put d.q.ctxs c (f (d.ctx c)) {} } }

/-- The current command of a slot takes a function of itself. -/
def Upd.cur (e s : Nat) (f : Cmd → Cmd) : Upd := .slot e s fun sl => { sl with cur := sl.cur.map f }

/-- The slot and command that run on an engine. -/
def Device.running (d : Device) (e : Nat) : Option (Nat × Cmd) :=
  match (d.eng e).run with
  | none => none
  | some s => (d.slot e s).cur.map (s, ·)

/-- The function whose TLP a message is; none for what does not leave over PCI Express. -/
def Msg.fn : Msg → Option Nat
  | .hostWrite fn _ _ _ | .hostReadReq fn _ _ _ _ | .zeroRead fn _ _ | .msix fn _ _ _ | .readCpl fn _ | .unsupported fn | .aborted fn
  | .translationReq fn _ | .invalCpl fn _ => some fn
  | .errorMsg _ => some 0
  | .flit .. | .avs .. | .platformEvent .. | .answer .. => none

def Device.ide (d : Device) (stream : Nat) : Ide := look d.ho.ide stream {}

/-- The selective stream bound to a function's interface while it is locked (R400). -/
def Device.boundStream (d : Device) (fn : Nat) : Option Nat :=
  let v := look d.ho.vfs fn {}
  if v.tdi = .locked || v.tdi = .run then some (v.stream.getD 0) else none

/-- The IDE stream that carries a function's TLPs: the selective stream bound when its interface was locked (R400), else one in use whose
RID association block holds the function (R399), else the link stream (log 65). -/
def Device.streamOf (d : Device) (fn : Nat) : Nat :=
  let associated (p : Nat × Ide) : Bool :=
    (p.2.secure || p.2.failed) && match p.2.rid with | some (lo, hi) => lo ≤ fn && fn ≤ hi | none => false
  (d.boundStream fn).getD (((d.ho.ide.find? associated).map (·.1)).getD 0)

/-- The message is a request of the device on the PCI Express link. -/
def Msg.isRequest : Msg → Bool
  | .hostWrite .. | .hostReadReq .. | .zeroRead .. | .msix .. | .translationReq .. => true
  | .errorMsg _ | .readCpl .. | .unsupported _ | .aborted _ | .invalCpl .. | .flit .. | .avs .. | .platformEvent .. | .answer .. => false

/-- The function is in D0: in D3hot it answers configuration requests only (R384; log 145). -/
def Device.awake (d : Device) (_fn : Nat) : Bool := !d.ho.d3

/-- What a message waits for: its Insecure stream to be keyed again (R399), or the function's return to D0 (256; log 145). -/
def Device.sendWait (d : Device) (m : Msg) : Option Nat :=
  m.fn.bind fun fn =>
    if (d.ide (d.streamOf fn)).failed then some (d.streamOf fn) else if m.isRequest && !d.awake fn then some 256 else none

/-- The device sends something to the outside; a TLP on an Insecure stream waits until the stream is keyed again (R399), a request in
D3hot until the return to D0. -/
def Upd.send (m : Msg) : Upd :=
  .of fun d => { d with ho := { d.ho with
    blocked := d.ho.blocked ++ ((d.sendWait m).map (·, m)).toList, sent := if (d.sendWait m).isNone then m :: d.ho.sent else d.ho.sent } }

/-- A free value: the counter that names it advances (log 2). -/
def Upd.draw (k : Nat → Upd) : Upd :=
  .read fun d => .all [.of fun d => { d with free := d.free + 1 }, k d.free]

/-! ### Which cells and blocks there are -/

/-- The cell is enabled: not in the harvest map and its fuse map passed its check (R2, R355). -/
def Device.cellOn (d : Device) (e c : Nat) : Bool :=
  !(d.fuses.disabled.contains (e * 4 + c)) && !(d.fuses.badMap.contains (e * 4 + c))

/-- The enabled cells of an engine, ascending. -/
def Device.cellsOf (d : Device) (e : Nat) : List Nat := (List.range 4).filter (d.cellOn e)

/-- The engine has an enabled cell (R2). -/
def Device.blockOn (d : Device) (e : Nat) : Bool := e < 32 && !(d.cellsOf e).isEmpty

/-- The bypassed data columns of a cell (R94). -/
def Device.bypassed (d : Device) (e c : Nat) : BitVec 128 := look d.fuses.colMap (e * 4 + c) 0

/-- The number of bypassed columns. -/
def Device.bypassCount (d : Device) (e c : Nat) : Nat :=
  ((List.range 128).filter fun i => (d.bypassed e c).getLsbD i).length

/-- ARR.GEOMETRY.width of an enabled cell (R95). -/
def Device.width (d : Device) (e c : Nat) : Nat := 128 - d.bypassCount e c

/-- ENG.CELLS.min_width: the smallest width among the enabled cells. -/
def Device.minWidth (d : Device) (e : Nat) : Nat := ((d.cellsOf e).map (d.width e)).foldl min 128

/-- The PCI Express link carries requests: not before power-up, not under PERST#, not after a thermal trip (R376, R382,
R413, R414). -/
def Device.linkUp (d : Device) : Bool := d.clk.power ≠ .off && d.clk.power ≠ .perst && d.clk.power ≠ .tripped

/-- MSI-X messages of the function are sent: it is enabled, not masked, and in D0 (R384, R404). -/
def Device.msixSends (d : Device) (fn : Nat) : Bool := d.ho.msixOn.contains fn && !d.ho.msixMasked.contains fn && d.awake fn

/-- The device is out of reset and its clocks run. -/
def Device.up (d : Device) : Bool := d.clk.power = .ready

/-- The gong is not active, so that stopped parts act (R348). -/
def Device.unheld (d : Device) : Bool := d.ob.gong.state = .running

/-- The gong is active (R345): from its raise until every part has resumed. -/
def Device.gongOn (d : Device) : Bool := !d.unheld

/-! ### Interrupts (R402 to R404) -/

/-- A record of a function waits for the translation of its page (R228): no message overtakes it (R267, R404). -/
def Device.recordAsked (d : Device) (fn : Nat) : Bool := d.ho.asks.any fun a => a.fn = fn && a.use ≠ .descriptor

/-- The message of a vector: its table entry's address and data (R390, R393). -/
def Device.msixMsg (d : Device) (fn v : Nat) : Msg :=
  let e := look d.ho.msixTable (fn * 2048 + v) (0, 0, 0)
  .msix fn v (e.1.toNat + e.2.1.toNat * 2 ^ 32) e.2.2

/-- An event on a vector: a message when the vector and its function are unmasked, else the pending bit. While the gong
is active no message is sent (R348), and the event waits in the pending bit. -/
def Upd.msix (fn v : Nat) : Upd :=
  .read fun d =>
    let e := look d.ho.vectors (fn * 2048 + v) (false, false)
    if e.1 && d.msixSends fn && d.unheld then
      if d.recordAsked fn then .of fun d => { d with ho := { d.ho with behind := d.ho.behind ++ [(fn, v)] } } else .send (d.msixMsg fn v)
    else .of fun d => { d with ho := { d.ho with vectors := put d.ho.vectors (fn * 2048 + v) (e.1, true) (false, false) } }

/-- The device fault vector (R358, R402). -/
def Upd.faultVector : Upd := .msix 0 0

/-- The vector of a queue slot for flags bit 1: none for a physical-function slot below 48 (R402, R403). -/
def Device.slotVector (d : Device) (e s : Nat) : Option (Nat × Nat) :=
  let v := d.regN (tabPage e + 0x130 + 0x40 * s)
  let fn := (d.ctx (d.slot e s).ctx).owner
  if fn = 0 then (if v < 48 then none else some (0, v % 2048)) else some (fn, v % 32)

/-- The vector of a queue slot for CMPL_LOST: vector 0 for a physical-function slot below 48 (R402, R403). -/
def Device.lostVector (d : Device) (e s : Nat) : Nat × Nat := (d.slotVector e s).getD (0, 0)

/-! ### Trace (R339, R340) -/

def Device.trc (d : Device) (r : Nat) : Trc := look d.ob.trc r {}
def Upd.trc (r : Nat) (f : Trc → Trc) : Upd :=
  .of fun d => { d with ob := { d.ob with trc := put d.ob.trc r (f (d.trc r)) {} } }

/-- The filter bit of a kind (TRC.FILTER.kinds); none for the kinds always captured (R340). -/
def kindBit (kind : Nat) : Option Nat :=
  if kind ≤ 0x04 then some 0 else if kind = 0x10 then some 1 else if kind = 0x22 then some 2
  else if kind = 0x24 then some 3 else if kind = 0x31 ∨ kind = 0x32 then some 4 else none

/-- The filter of a region's trace passes a record of this kind from this source (R340); sources 0-7 are blocks. -/
def Device.tracePasses (d : Device) (r source kind : Nat) : Bool :=
  let f := d.reg (trcPage r + 0x40)
  match kindBit kind with
  | none => true
  | some b => bitOf f b && (8 ≤ source || bitOf f (8 + source))

/-- The 32 bytes of a trace record: timestamp, kind, bytes 9 to 31. -/
def traceBytes (time : Word64) (kind : Nat) (rest : List Byte) : List Byte :=
  (toBytes 8 time.toNat ++ [BitVec.ofNat 8 kind] ++ rest ++ List.replicate 23 0).take 32

/-! ### The gong's raise (R345) -/

/-- The gong is raised with a cause word; a raise while it is active only counts. -/
def Upd.gongRaise (cause : Nat) : Upd :=
  .read fun d =>
    if d.unheld then
      .all [.of fun d => { d with ob := { d.ob with gong := { d.ob.gong with state := .stopping, cause := BitVec.ofNat 32 cause, raisedAt := d.now } } },
        .count (gngPage + 0x80)]
    else .of fun d => { d with ob := { d.ob with gong := { d.ob.gong with extra := min (d.ob.gong.extra + 1) 0xFFFFFFFF } } }

/-- The classes of GNG.ERR_MASK that an error code belongs to (11_observability.md, GNG page). -/
def gongClass (code : Nat) : List Nat :=
  (if code = 0x0101 ∨ code = 0x0102 then [0] else []) ++ (if code = 0x020B then [1] else []) ++
  (if code = 0x020A then [2] else []) ++ (if code = 0x0201 then [3] else []) ++ (if code = 0x020C then [4] else []) ++
  (if code = 0x0406 ∨ code = 0x0407 then [5] else []) ++ (if code = 0x020E then [6] else []) ++ [7]

end Sys2Proof.Machine
end

