-- ==== Sys2Proof/Machine/ArrayState.lean ====
section
/-! DEFINITION. What a cell's array holds and how it changes by itself: the drumroll, the passes and rows that are due, and the
interruption of a pass (03_matrix_array.md R79, R80, R90 to R93). -/

namespace Sys2Proof.Machine

/-! ### The drumroll -/

/-- The ramp length (R90): 16 to 64 core cycles; 7 is treated as 6. -/
def Device.rampCycles (d : Device) (e c : Nat) : Nat := 16 + 8 * min (fieldOf (d.reg (arrPage e c + 0x54)) 2 0) 6

/-- The lowest column group in a state. -/
def lowestGroup (g : BitVec 8) (on : Bool) : Option Nat := (List.range 8).find? fun j => g.getLsbD j = on

/-! ### Passes and rows -/

/-- The pass has a row due: it has rows that have not entered, and an interrupted one stands before the end of its segment
(R79, R80). -/
def Cell.hasDue (a : Cell) (p : Pass) : Bool :=
  if look a.active 0 0 = p.id then a.entered < p.rows && (!p.cut || (a.segRows < 512 && a.segCycles + 1 < 512))
  else look a.active 0 0 < p.id && !p.cut

/-- The pass whose row is due at column 0: the one whose tile is active there while it has rows left, else the next one
(passes are numbered as issued). -/
def Cell.due (a : Cell) : Option Pass := a.passes.find? a.hasDue

/-- Rows of a pass that have entered column 0. -/
def Cell.rowsIn (a : Cell) (p : Pass) : Nat := if look a.active 0 0 = p.id then a.entered else 0

/-- The pass of a row in flight. -/
def Cell.passOf (a : Cell) (id : Nat) : Option Pass := a.passes.find? (·.id = id)

/-- A pass that comes before p and whose swap token has not entered a column where `now` is active. -/
def Cell.earlier (a : Cell) (now : Nat) (p : Nat) : Bool := a.passes.any fun q => now < q.id && q.id < p

/-- The drain cause of R87. -/
def Cell.drainFull (a : Cell) : Bool := a.drain.length ≥ 16

/-- A row is in the array or due (R88). -/
def Cell.working (a : Cell) : Bool := !a.flight.isEmpty || a.due.isSome

/-- Interrupted passes of which no row is due, in flight or in the drain buffer leave (R80); with no pass left a running array
enters IDLE_HOLD (R91). -/
def Cell.prune (a : Cell) : Cell :=
  let gone (p : Pass) : Bool := p.cut && !a.hasDue p && !(a.flight.any (·.pass = p.id)) && !(a.drain.any (·.pass = p.id))
  let left := a.passes.filter fun p => !gone p
  { a with passes := left, arr := if left.isEmpty ∧ a.arr = .running then .idleHold else a.arr }

/-- One step of a ramp (R91): going up, the next disabled group is enabled, and once all are, the next step lets the first
row enter; going down, groups 0 to 7 are disabled in turn, and the array stops with the last. An array whose passes were all cut short during the
ramp up has none left when it runs. -/
def Cell.ramp (a : Cell) : Cell :=
  match a.arr with
  | .rampUp =>
    match lowestGroup a.groups false with
    | some j => { a with groups := a.groups ||| BitVec.ofNat 8 (2 ^ j) }
    | none => Cell.prune { a with arr := .running }
  | .rampDown =>
    match lowestGroup a.groups true with
    | some j =>
      let g := a.groups &&& ~~~ BitVec.ofNat 8 (2 ^ j)
      { a with groups := g, arr := if g = 0 then .stopped else .rampDown }
    | none => { a with arr := .stopped }
  | _ => a

/-- The passes are interrupted at the end of the running segment (R80): passes that have not begun are dropped with what is loaded
of their tiles, and the pass under way ends with its segment; rows inside complete. -/
def Cell.cutPasses (a : Cell) : Cell :=
  let now := look a.active 0 0
  let gone (id : Nat) : Bool := now < id
  Cell.prune { a with
    passes := (a.passes.filter fun p => !gone p.id).map fun p => if p.id = now then { p with cut := true } else p,
    shadow := a.shadow.filter fun q => !gone q.2, staging := a.staging.filter fun q => !gone q.1,
    guardShadow := if gone a.guardShadow.1 then (0, []) else a.guardShadow }

/-- The arrays of an engine interrupt their passes (R80). -/
def Upd.cutArrays (e : Nat) : Upd := .each (List.range 4) fun c => .cell e c Cell.cutPasses

/-- The arrays of an engine ramp down at once (R93): the column groups of an array that is not STOPPED are disabled from its first
cycle on. -/
def Upd.rampDown (e : Nat) : Upd :=
  .each (List.range 4) fun c => .read fun d => .cell e c fun a =>
    if a.arr = .stopped then a else Cell.ramp { a with arr := .rampDown, rampLen := d.rampCycles e c }

end Sys2Proof.Machine
end

