-- ==== Sys2Proof/Machine/Flags.lean ====
section
/-! DEFINITION. The error flags of every page (ERR_STATUS, ERR_FIRST, ERR_COUNT), injections, fault records and the
actions that errors ask for (12_faults.md, 16_registers.md R451 to R455). -/

namespace Sys2Proof.Machine

/-- A control register as it acts: on a management page the value of the last tick (R38), elsewhere the value written. -/
def Device.control (d : Device) (addr : Nat) : Word :=
  match decodeAddr addr with
  | some (p, _) => if isManagement p.kind then d.inForce addr else d.reg addr
  | none => 0

/-- The lowest-numbered bit set in a word, of the bits below n. -/
def lowestBit (w : Word) : Nat := ((List.range 32).find? fun i => bitOf w i).getD 0

/-- The number of bits set. -/
def popCount (w : Word) : Nat := ((List.range 32).filter fun i => bitOf w i).length

/-- n detections added to a saturating count. -/
def satAdd (w : Word) (n : Nat) : Word := BitVec.ofNat 32 (min (w.toNat + n) 0xFFFFFFFF)

/-- ERR_FIRST after bits become set in ERR_STATUS (R451). -/
def firstAfter (status first set : Word) : Word :=
  if status = 0 ∧ set ≠ 0 then
    BitVec.ofNat 32 (2 ^ 31 + (if popCount set > 1 then 2 ^ 30 else 0) + lowestBit set)
  else first

/-- Errors of a page are detected in one cycle: ERR_STATUS, ERR_FIRST and ERR_COUNT (R448, R451, R452). -/
def Upd.raise (page : Nat) (set : Word) : Upd :=
  .read fun d =>
    .all [.setReg (page + 0x18) (firstAfter (d.reg (page + 0xC)) (d.reg (page + 0x18)) set),
      .setReg (page + 0xC) (d.reg (page + 0xC) ||| set),
      .modReg (page + 0x1C) fun w => satAdd w (popCount set)]

/-- The word with one bit set. -/
def oneBit (b : Nat) : Word := BitVec.ofNat 32 (2 ^ b)

/-! ### Trace (R339 to R341) -/

/-- A record finds no place: it is counted in DROPPED (R340, R341). -/
def Upd.traceDrop (r : Nat) : Upd := .all [.sat (trcPage r + 0x60), .raise (trcPage r) (oneBit 0)]

/-- The records of a source that wait in its buffer. -/
def Trc.waiting (t : Trc) (source : Nat) : Nat := (t.queue.filter (·.1 = source)).length

/-- A record goes into its source's buffer of 16, or is dropped and counted (R340). -/
def Upd.traceRaw (r source : Nat) (bytes : List Byte) : Upd :=
  .read fun d =>
    if (d.trc r).waiting source ≥ 16 then
      .all [.trc r fun t => { t with drops := put t.drops source (look t.drops source 0 + 1) 0 }, .traceDrop r]
    else .trc r fun t => { t with queue := t.queue ++ [(source, bytes)] }

/-- A source that has dropped records queues a LOST record with their count as soon as its buffer has room (R340). -/
def Upd.traceLost (r source : Nat) : Upd :=
  .read fun d =>
    let lost := look (d.trc r).drops source 0
    .when (0 < lost && (d.trc r).waiting source < 16) (.trc r fun t => { t with
      queue := t.queue ++ [(source, traceBytes (d.dieTime r) 0x23 ([BitVec.ofNat 8 source, 0, 0] ++ toBytes 4 lost))],
      drops := put t.drops source 0 0 })

/-- A trigger that reaches a store whose capture is done: after the first one it is only counted; before it, its record is one
more that the full store of STOP mode drops (R341). -/
def Upd.triggerLate (r : Nat) : Upd :=
  .read fun d => if (d.trc r).triggered then .sat (trcPage r + 0x5C)
    else .when (fieldOf (d.reg (trcPage r + 0x04)) 2 1 = 1) (.traceDrop r)

/-- A trace record of a kind from a source of region r, if captured (R340, R342); after the end of a STOP capture it is
counted in DROPPED (R341). -/
def Upd.trace (r source kind : Nat) (rest : List Byte) : Upd :=
  .read fun d =>
    if !d.tracePasses r source kind || !d.unheld then .skip
    else match (d.trc r).state with
    | .capturing => .traceRaw r source (traceBytes (d.dieTime r) kind rest)
    | .done => .when (fieldOf (d.reg (trcPage r + 0x04)) 2 1 = 1) (.traceDrop r)
    | _ => .skip

/-- A trace trigger of a source (1 host, 2 marker, 3 counter match, 4 gong, 5 fault record): its TRIGGER record enters
the stream when TRC.TRIG_SRC enables the source (R341). -/
def Upd.trigger (r source buffer : Nat) : Upd :=
  .read fun d => .when (bitOf (d.reg (trcPage r + 0x44)) (source - 1)) (
    if (d.trc r).state = .done then .triggerLate r else .trace r buffer 0x21 [BitVec.ofNat 8 source])

/-- An error's ERR_ENABLE bit (R353). -/
def Device.enabled (d : Device) (page bit : Nat) : Bool := bitOf (d.control (page + 0x10)) bit

/-! ### Injections (R361) -/

/-- An injection of the bit is armed. -/
def Device.isArmed (d : Device) (page bit : Nat) : Bool := bitOf (look d.rf.armed page 0) bit

/-- The armed injection takes effect: it is disarmed and counted. -/
def Upd.fire (page bit : Nat) : Upd :=
  .all [.of fun d => { d with rf := { d.rf with armed := put d.rf.armed page (look d.rf.armed page 0 &&& ~~~ oneBit bit) 0 } },
    .sat (rstDevPage + 0x60)]

/-- The event that a bit's description names takes place: with the injection armed it goes the injected way. -/
def Upd.inject (page bit : Nat) (k : Bool → Upd) : Upd :=
  .read fun d => if d.isArmed page bit then .all [.fire page bit, k true] else k false

/-! ### Fault records (R236, R357) -/

/-- A record of an engine: level 1, or level 0 of cell c. -/
def engRec (code e : Nat) (cell : Option Nat := none) : FaultRec :=
  { code := code, level := if cell.isSome then 0 else 1, region := e / 8,
    source := (e % 8) * 16 + cell.getD 15, stream := 0xFF, slot := 0xFF }

/-- A record of a region unit (level 2). -/
def regionRec (code r : Nat) : FaultRec :=
  { code := code, level := 2, region := r, source := 0xFF, stream := 0xFF, slot := 0xFF }

/-- A record of the device (level 3): origin 6 IO die A, 7 IO die B, held in region (R359). -/
def deviceRec (code origin : Nat) (detail : List Byte := []) : FaultRec :=
  { code := code, level := 3, region := origin, source := 0xFF, stream := 0xFF, slot := 0xFF, detail := detail }

/-- A record with the context, slot, tag, layer and operator of a command (R356). -/
def FaultRec.ofCmd (r : FaultRec) (ctx slot : Nat) (desc : List Byte) : FaultRec :=
  { r with ctx := some ctx, slot := slot, tag := fieldAt desc 4 4, layer := fieldAt desc 8 2, op := fieldAt desc 10 2 }

/-- Detail formats of R354. -/
def detailN (n : Nat) : List Byte := toBytes 4 n
def detailA (pa : Nat) : List Byte :=
  match partOf pa with
  | some (t, r, c, a) => toBytes 8 a ++ toBytes 1 (r * 4 + c) ++ toBytes 1 t
  | none => []
def detailG (row stage expected observed column : Nat) : List Byte :=
  toBytes 4 row ++ toBytes 1 stage ++ toBytes 1 expected ++ toBytes 1 observed ++ toBytes 1 column
def detailL (port peer count : Nat) : List Byte := toBytes 2 port ++ toBytes 2 peer ++ toBytes 4 count
def detailE (block target slot tensor : Nat) (adapter : Bool) : List Byte :=
  toBytes 4 block ++ toBytes 2 target ++ toBytes 2 (slot + (if adapter then 2 else 0)) ++ toBytes 4 tensor

/-- A record is on its way: levels 0 to 2 to the region's fault queue, level 3 to the device log (R355); the gong is
raised when GNG.ERR_MASK enables one of its classes (R345). -/
def Upd.record (r : FaultRec) : Upd :=
  .read fun d =>
    let r := { r with time := d.dieTime r.region }
    .all [
      if r.level = 3 then .of fun d => { d with fl := { d.fl with toLog := d.fl.toLog ++ [r] } }
      else .of fun d => { d with fl := { d.fl with detected := d.fl.detected ++ [r] } },
      .when ((gongClass r.code).any fun b => bitOf (d.reg (gngPage + 0x48)) b) (.gongRaise (3 * 2 ^ 24 + r.code))]

/-- The interrupts that a page's own ERR_STATUS bit raises when enabled: ZWL vector 5, PCX vector 7, GNG vector 6
(R402). -/
def Upd.pageVector (page bit : Nat) : Upd :=
  .read fun d =>
    match decodeAddr page with
    | some (p, _) =>
      if d.enabled page bit then
        match p.kind with
        | .zwlPort | .zwlDevice => .msix 0 5
        | .pcx => .msix 0 7
        | .gngDevice => .msix 0 6
        | _ => .skip
      else .skip
    | none => .skip

/-- An error bit of a page, with the interrupt it raises. -/
def Upd.flag (page bit : Nat) : Upd := .all [.raise page (oneBit bit), .pageVector page bit]

/-- An error with a record: its page's flags, and its record (always, but for a COUNT error only when its ERR_ENABLE bit
is 1; R353). -/
def Upd.error (page bit : Nat) (r : FaultRec) (count : Bool := false) (injected : Bool := false) : Upd :=
  .read fun d =>
    let en := d.enabled page bit
    .all [.flag page bit,
      .when (!count || en) (.record { r with enabled := en, injected := injected })]

/-- An error bit of the PCX page, with the PCIE record that each of its bits produces (R405). -/
def Upd.pcxError (bit : Nat) : Upd := .error pcxPage bit (deviceRec 0x0413 6 (detailN bit))

/-- The errors that are correctable (R405): Receiver Error, Bad TLP, Bad DLLP, Replay Timer Timeout and REPLAY_NUM
Rollover; the others are uncorrectable and non-fatal. -/
def AerError.correctable (x : AerError) : Bool :=
  match x with
  | .receiverError | .badTlp | .badDllp | .replayTimeout | .replayRollover => true
  | .malformedTlp | .unexpectedCompletion | .completerAbort => false

/-- An error of the PCI Express interface enters the status registers of Advanced Error Reporting; a message reports it when the host
has enabled that (R405). -/
def Upd.aer (x : AerError) : Upd :=
  .read fun d => .all [
    .of fun d => { d with ho := { d.ho with aer := if d.ho.aer.contains x then d.ho.aer else d.ho.aer ++ [x] } },
    .when (if x.correctable then d.ho.aerReport.1 else d.ho.aerReport.2) (.send (.errorMsg x.correctable))]

/-- A received TLP of a function passes the check of its stream (R399). One that fails, or that arrives on a stream that is not
Secure where a Secure stream is required, is discarded: its stream enters Insecure. A TLP of a locked interface on another stream
than the one bound is discarded (R400). -/
def Upd.received (fn : Nat) (u : Upd) (tlp : Tlp := {}) : Upd :=
  .read fun d =>
    let k := tlp.stream.getD (d.streamOf fn)
    let bad (injected : Bool) : Upd := .all [
      .of fun d => { d with ho := { d.ho with ide := put d.ho.ide k { d.ide k with secure := false, failed := true } {} } },
      .error pcxPage 3 (deviceRec 0x0413 6 (detailN 3)) false injected]
    if (d.boundStream fn).any (· ≠ k) then .skip
    else if (d.ide k).secure then
      if !tlp.intact then bad false else .inject pcxPage 3 fun injected => if injected then bad true else u
    else if k ≠ 0 || (d.ide k).failed then bad false
    else u

/-! ### Actions (R352) -/

/-- The cause word of RST.CAUSE. -/
def causeWord (kind code : Nat) : Word := BitVec.ofNat 32 (kind * 2 ^ 24 + code)

/-- A device reset is due, with its cause; one that is already due or in progress keeps its own, and the new cause is
entered in the log, unless it was an error, which has its own record (R375; log 64). -/
def Upd.askDevice (kind code : Nat) : Upd :=
  .read fun d =>
    if d.fl.devReset.isSome ∨ d.clk.power = .resetting then
      .when (kind = 1 || kind = 4 || kind = 5) (.record (deviceRec 0x0411 6 (detailN (causeWord kind code).toNat)))
    else .of fun d => { d with fl := { d.fl with devReset := some (causeWord kind code) } }

/-- An engine reset is due: detected and not yet carried out; the engine does nothing more (R365 step 1). -/
def Device.resetDue (d : Device) (e : Nat) : Bool := d.fl.resets.any (·.1 = e)

/-- An engine reset fails (R367): its bit, RESET_FAILED, and a device reset at once. -/
def Upd.resetFailed (e bit : Nat) (injected : Bool := false) : Upd :=
  .all [.error (rstPage e) bit (deviceRec 0x0402 (e / 8) (detailN e)) false injected, .eng e fun g => { g with rst := .failed },
    .askDevice 3 0x0402]

/-- An engine reset is due (RESET with a strike, RESET-NS without). An error in an engine whose reset is already due fails
that reset (R367). The pause begins at the detection, or for a hang at the last progress (R374). The arrays ramp down at once
(R93). -/
def Upd.askReset (e code : Nat) (strike : Bool) : Upd :=
  .read fun d =>
    if d.resetDue e then .resetFailed e 0
    else .all [
      .of fun d => { d with fl := { d.fl with resets := d.fl.resets ++ [(e, code, strike)] } },
      .eng e fun g => { g with
        resetAt := d.dieTime (e / 8), pauseAt := if g.rst = .running then (if code = 0x0201 then g.progress else d.dieTime (e / 8)) else g.pauseAt },
      .rampDown e]

/-- An error of action RESET in an engine. -/
def Upd.resetError (page bit : Nat) (r : FaultRec) (e : Nat) (strike : Bool := true) (injected : Bool := false) : Upd :=
  .all [.error page bit r false injected, .askReset e r.code strike]

/-- An error of action DEVICE. -/
def Upd.deviceError (page bit : Nat) (r : FaultRec) (injected : Bool := false) : Upd :=
  .all [.error page bit r false injected, .askDevice 2 r.code]

/-- The 64 bytes of a fault record in a region's ring (R236). -/
def recordBytes (r : FaultRec) (seq ovf : Nat) (phase held : Bool) : List Byte :=
  let flags := (if phase then 1 else 0) + (if r.ctx.isSome then 2 else 0) + (if held then 4 else 0) + (if r.addr.isSome then 8 else 0)
  toBytes 4 seq ++ toBytes 2 r.code ++ toBytes 1 r.level ++ toBytes 1 flags ++ toBytes 8 r.time.toNat ++
  toBytes 8 ((r.addr.map (·.2)).getD 0) ++ toBytes 1 ((r.addr.map (·.1)).getD 0) ++ toBytes 1 r.cause ++
  toBytes 1 r.source ++ toBytes 1 r.stream ++ toBytes 1 (r.ctx.getD 0) ++ toBytes 1 r.slot ++ toBytes 2 0 ++
  toBytes 4 r.tag ++ toBytes 2 r.layer ++ toBytes 2 r.op ++ (r.detail ++ List.replicate 16 0).take 16 ++
  toBytes 4 ovf ++ toBytes 4 0

/-- The 64 bytes of a device log entry (R359). -/
def logBytes (r : FaultRec) (seq ovf : Nat) : List Byte :=
  let b := recordBytes r seq ovf false false
  let flags := (if Config.logPhase seq then 1 else 0) + (if r.ctx.isSome then 2 else 0) + (if r.addr.isSome then 8 else 0)
  b.take 7 ++ toBytes 1 flags ++ (b.drop 8).take 18 ++ (b.drop 26).take 4 ++ toBytes 1 r.region ++
  toBytes 1 (if r.injected then 1 else 0) ++ (b.drop 32).take 24 ++ toBytes 4 ovf ++
  toBytes 4 (if r.level = 3 then 0 else r.regionSeq)

end Sys2Proof.Machine
end

