-- ==== Sys2Proof/Machine/Network.lean ====
section
/-! DEFINITION. The device network: the links between the dies and the fixed routes over them (01_architecture.md R23, R26, R458). -/

namespace Sys2Proof.Machine

/-- The dies that a link joins (R23, R458): dies 0 to 3 are the regions, 6 and 7 the IO dies A and B. -/
def linkDies : Nat → List Nat
  | 0 => [0, 1] | 1 => [2, 3] | 2 => [0, 2] | 3 => [1, 3] | 4 => [6, 0] | 5 => [6, 2] | 6 => [7, 1] | 7 => [7, 3] | _ => []

/-- The link ends at the die. -/
def linkEnds (die link : Nat) : Bool := (linkDies link).contains die

/-- The link between two dies, if they are neighbours. -/
def linkOf (a b : Nat) : Option Nat := (List.range 8).find? fun l => a ≠ b && linkEnds a l && linkEnds b l

/-- The lowest-numbered link that ends at a die (NOC page). -/
def lowestLink (die : Nat) : Nat := ((List.range 8).find? (linkEnds die)).getD 0

/-- The dies that a packet passes from one die to another, both ends included (R23). The table gives the routes from the IO dies, between
the regions and between the IO dies; a packet from a region to an IO die takes the reverse of the route from that IO die, which
the table does not list (DESIGN CHOICE, log 144). -/
def routeDies (src dst : Nat) : List Nat :=
  match src, dst with
  | 6, 1 => [6, 0, 1] | 6, 3 => [6, 2, 3] | 1, 6 => [1, 0, 6] | 3, 6 => [3, 2, 6]
  | 7, 0 => [7, 1, 0] | 7, 2 => [7, 3, 2] | 0, 7 => [0, 1, 7] | 2, 7 => [2, 3, 7]
  | 0, 3 => [0, 1, 3] | 3, 0 => [3, 2, 0] | 1, 2 => [1, 0, 2] | 2, 1 => [2, 3, 1]
  | 6, 7 => [6, 0, 1, 7] | 7, 6 => [7, 3, 2, 6]
  | a, b => if a = b then [a] else [a, b]

/-- The hops of a route: the die that each enters, and the link. -/
def routeHops (src dst : Nat) : List (Nat × Nat) :=
  let l := routeDies src dst
  (l.zip (l.drop 1)).filterMap fun p => (linkOf p.1 p.2).map fun k => (p.2, k)

/-- Flits over a link into a die fail their CRC n times and are sent again; the eighth failure of one is a device error (R26). -/
def Upd.flitFails (die link n : Nat) (inj : Bool) : Upd :=
  .all [.count (nocPage die + 0x60 + 8 * link) n,
    .when (n ≥ 8) (.deviceError (nocPage die) 1 (deviceRec 0x0401 die (detailN link)) inj)]

/-- A packet's route meets an armed injection of a NOC page: the die whose lowest-numbered link it enters by. -/
def Device.nocArmed (d : Device) (src dst : Nat) : Option Nat :=
  ((routeHops src dst).find? fun h => h.2 = lowestLink h.1 && d.isArmed (nocPage h.1) 1).map (·.1)

/-- No injection of a link between dies is armed. -/
def Device.routesClear (d : Device) : Bool := (List.range 8).all fun die => !d.isArmed (nocPage die) 1

/-- The die that holds the units of a page: its region, or its IO die; the device-wide pages are on IO die A (log 82). -/
def Page.die (p : Page) : Nat := if p.region < 4 || p.region = 7 then p.region else 6

/-- The die of a device physical address: the region whose controller holds it (R209). -/
def memDie (pa : Nat) : Nat := ctlOf pa / 4 % 4

/-- The IO die of a port: 0 to 8 on A, 9 to 17 on B. -/
def portDie (port : Nat) : Nat := if port < 9 then 6 else 7

/-- A packet crosses the device network (R23, R26): an injection on its route fails its flit 8 times, and it does not arrive. -/
def Upd.cross (src dst : Nat) (k : Upd) : Upd :=
  .read fun d => match d.nocArmed src dst with
    | some die => .all [.fire (nocPage die) 1, .flitFails die (lowestLink die) 8 true]
    | none => k

end Sys2Proof.Machine
end

