-- ==== Sys2Proof/Machine/Memory.lean ====
section
/-! DEFINITION. Device memory: reading and writing bytes under a key slot, lines and their errors (07_memory.md R208 to
R219), and the table walk and translation of R220 to R222. -/

namespace Sys2Proof.Machine

/-! ### Reading -/

/-- The generation of the key in a slot, 0 when the slot is EMPTY (R218). -/
def Device.keyGen (d : Device) (slot : Nat) : Nat := look d.mm.keys slot 0

/-- The key that last wrote a line (R217, R462). -/
def Device.lineTag (d : Device) (line : Nat) : KeyTag := look d.mm.lineKey line ⟨0, d.mm.fillGen⟩

/-- The byte as its writer wrote it; a byte never written since power-up is zero (R462). -/
def Device.plain (d : Device) (pa : Nat) : Byte := look d.mm.cells pa 0

/-- The byte an access under a key slot reads: what was written under the same key, else a byte that no key wrote
(R219). -/
def Device.byteAt (d : Device) (slot pa : Nat) : Byte :=
  let line := pa / 64
  let tag := d.lineTag line
  if tag.gen = d.keyGen slot then d.plain pa
  else Config.foreignByte line ((span (line * 64) 64).map d.plain) tag.gen (d.keyGen slot) (pa % 64)

/-- n bytes from pa under a key slot. -/
def Device.bytesAt (d : Device) (slot pa n : Nat) : List Byte := (span pa n).map (d.byteAt slot)

/-- A number of n bytes, little-endian. -/
def Device.numAt (d : Device) (slot pa n : Nat) : Nat := fromBytes (d.bytesAt slot pa n)

/-- The line's damage, if any (R211). -/
def Device.lineErrAt (d : Device) (line : Nat) : Option LineErr :=
  match d.mm.lineErr.find? (·.1 = line) with
  | some (_, e) => some e
  | none => none

/-- The lines that a range touches. -/
def linesOf (pa len : Nat) : List Nat := if len = 0 then [] else span (pa / 64) ((pa % 64 + len + 63) / 64)

/-- The first line of a range that cannot be read, as its address (R215). -/
def Device.ueIn (d : Device) (pa len : Nat) : Option Nat :=
  ((linesOf pa len).find? fun l => d.lineErrAt l = some .uncorrectable).map (· * 64)

/-! ### Controllers -/

def Device.ctl (d : Device) (c : Nat) : Ctl := look d.mm.ctls c {}
def Upd.ctl (c : Nat) (f : Ctl → Ctl) : Upd :=
  .of fun d => { d with mm := { d.mm with ctls := put d.mm.ctls c (f (d.ctl c)) {} } }

/-- A line's damage is set or cleared. -/
def Upd.lineErr (line : Nat) (e : Option LineErr) : Upd :=
  .of fun d => { d with mm := { d.mm with lineErr :=
    match e with
    | none => d.mm.lineErr.filter (·.1 ≠ line)
    | some e => (d.mm.lineErr.filter (·.1 ≠ line)) ++ [(line, e)] } }

/-- A record of a controller, with detail A of the address (R354). -/
def ctlRec (code pa : Nat) : FaultRec :=
  { regionRec code (ctlOf pa % 16 / 4) with addr := some (2, pa), detail := detailA pa }

/-- A repair of the row that holds an address begins, unless its bank has no spare row left (R214). A controller repairs one row at a
time, and none while the gong is active (R348): the others wait in order, each row once. -/
def Upd.startSpare (pa : Nat) : Upd :=
  .read fun d =>
    let c := ctlOf pa
    let row (a : Nat) : Nat := Config.rowOf c a
    let bank := Config.bankOf c (devAddr pa)
    let usedHere := (d.fuses.repairs.filter fun r => r.1 = c && Config.bankOf c r.2 = bank).length
    let same (a : Nat) : Bool := row a = row (devAddr pa)
    if (d.ctl c).sparing.any same || ((d.ctl c).spareDue.any fun q => same (devAddr q)) then .skip
    else if (d.ctl c).sparing.isSome || !d.unheld then .ctl c fun t => { t with spareDue := t.spareDue ++ [pa] }
    else if usedHere ≥ Config.spareRows c bank then .error (ctlPage c) 4 (ctlRec 0x0307 pa)
    else .ctl c fun t => { t with sparing := some (devAddr pa) }

/-- The next repair that a controller was asked for begins; one whose bank has no spare row left gives way to the one after it. -/
def Upd.nextSpare (c : Nat) : Upd :=
  .read fun d => .times (d.ctl c).spareDue.length (.read fun d =>
    match (d.ctl c).sparing, (d.ctl c).spareDue with
    | none, pa :: rest => .when d.unheld (.all [.ctl c fun t => { t with spareDue := rest }, .startSpare pa])
    | _, _ => .skip)

/-- A corrected read of a line (R212), whose damage an injection made (log 157): counted, recorded when enabled, written back; and the row spared when its
corrected errors in the scrub period reach SPARE_THRESH (R214). -/
def Upd.corrected (line : Nat) : Upd :=
  .read fun d =>
    let pa := line * 64
    let c := ctlOf pa
    let row := Config.rowOf c (devAddr pa)
    let n := look (d.ctl c).rowErrs row 0 + 1
    let thresh := fieldOf (d.reg (ctlPage c + 0x5C)) 7 0
    .all [.lineErr line none, .sat (ctlPage c + 0x4C), .error (ctlPage c) 0 (ctlRec 0x0305 pa) true true,
      .ctl c fun t => { t with rowErrs := put t.rowErrs row n 0 },
      .when (thresh ≠ 0 && n ≥ thresh) (.startSpare pa)]

/-- What a controller notes of an uncorrectable line: count, flag and the first address (R215, HBC page). The flag is ue,
or ue_scrub when patrol found it. -/
def Upd.uncorrectable (pa : Nat) (scrub : Bool) : Upd :=
  .read fun d =>
    let p := ctlPage (ctlOf pa)
    let a := devAddr pa
    .all [.when (!scrub) (.sat (p + 0x50)),
      .when (!bitOf (d.reg (p + 0x58)) 31) (.all [.setReg (p + 0x54) (BitVec.ofNat 32 a),
        .setReg (p + 0x58) (BitVec.ofNat 32 (2 ^ 31 + (if scrub then 2 ^ 30 else 0) + bits a 32 12))]),
      if scrub then .error p 2 (ctlRec 0x0306 pa) false true else .raise p (oneBit 1)]

/-- What reading a range does in the controllers: bytes counted, corrected lines corrected, an uncorrectable line noted
(R211, R212, R215). -/
def Upd.touch (pa len : Nat) : Upd :=
  .each (linesOf pa len) fun l =>
    .read fun d =>
      let lo := max pa (l * 64)
      let hi := min (pa + len) (l * 64 + 64)
      .all [.count (ctlPage (ctlOf (l * 64)) + 0x80) (hi - lo),
        match d.lineErrAt l with
        | none => .skip
        | some .corrected => .corrected l
        | some .uncorrectable => .uncorrectable (l * 64) false]

/-! ### Writing -/

/-- The cells with bytes stored from pa on; a byte at an unpopulated address is discarded. -/
def storeBytes (m : List Host.Cell) (pa : Nat) (bs : List Byte) : List Host.Cell :=
  match bs with
  | [] => m
  | b :: r => storeBytes (if populated pa then put m pa b 0 else m) (pa + 1) r

theorem storeBytes_canon (bs : List Byte) : ∀ (m : List Host.Cell) (pa : Nat),
    Canon (fun _ => (0 : Byte)) m → Canon (fun _ => (0 : Byte)) (storeBytes m pa bs) := by
  induction bs with
  | nil => intro m pa h; exact h
  | cons b r ih =>
    intro m pa h
    simp only [storeBytes]
    split
    · exact ih _ _ (put_canon (d := fun _ => (0 : Byte)) h pa b)
    · exact ih _ _ h

theorem storeBytes_pop (bs : List Byte) : ∀ (m : List Host.Cell) (pa : Nat),
    (∀ p ∈ m, populated p.1 = true) → ∀ p ∈ storeBytes m pa bs, populated p.1 = true := by
  induction bs with
  | nil => intro m pa h; exact h
  | cons b r ih =>
    intro m pa h
    simp only [storeBytes]
    split
    · rename_i hp
      refine ih _ _ fun p hm => ?_
      rcases mem_put hm with hm | ⟨rfl, -⟩
      · exact h p hm
      · exact hp
    · exact ih _ _ h

/-- Bytes are stored, under no regard of lines: the one update that changes memory bytes. -/
def Upd.store (pa : Nat) (bs : List Byte) : Upd :=
  ⟨fun d => { d with mm := { d.mm with cells := storeBytes d.mm.cells pa bs } },
   fun _ h => ⟨storeBytes_canon bs _ pa h.mem, storeBytes_pop bs _ pa h.pop, h.regs, h.bells, h.keys⟩,
   fun _ => Fuses.Before.refl _⟩

theorem look_known {m : Sparse Nat} {n : Nat} (h : ∀ p ∈ m, p.2 ≤ n) (k : Nat) : look m k 0 ≤ n := by
  induction m with
  | nil => exact Nat.zero_le _
  | cons q r ih =>
    simp only [look]
    split
    · exact h q (List.mem_cons_self ..)
    · exact ih fun p hp => h p (List.mem_cons_of_mem _ hp)

/-- A line belongs to the key in a slot from then on (R217). -/
def Upd.tagLine (line slot : Nat) : Upd :=
  .of (fun d => { d with mm := { d.mm with lineKey := put d.mm.lineKey line ⟨slot, d.keyGen slot⟩ ⟨0, d.mm.fillGen⟩ } })
    fun d h => ⟨h.mem, h.pop, h.regs, h.bells, h.keys.1, fun p hp => by
      rcases mem_put hp with hp | ⟨rfl, -⟩
      · exact h.keys.2.1 p hp
      · exact look_known h.keys.2.2.1 slot, h.keys.2.2.1, put_sorted h.keys.2.2.2 _ _ _⟩

/-- One line or part of a line is written under a key slot (R210, R217, R219): a part is a read-modify-write of the
whole line under the writing key; a part of an uncorrectable line is not written, and its read is noted (R215, R216); a whole
line is correct from then on. -/
def Upd.writeLine (slot pa : Nat) (bs : List Byte) : Upd :=
  .read fun d =>
    let line := pa / 64
    let p := ctlPage (ctlOf pa)
    let whole := pa % 64 = 0 && bs.length = 64
    if !whole && d.lineErrAt line = some .uncorrectable then .uncorrectable (line * 64) false
    else
      .all [
        .when (!whole && d.lineErrAt line = some .corrected) (.corrected line),
        .when ((d.lineTag line).gen ≠ d.keyGen slot && !whole) (.store (line * 64) (d.bytesAt slot (line * 64) 64)),
        .store pa bs,
        .tagLine line slot,
        .lineErr line none,
        .count (p + 0x88) bs.length,
        .when (!whole) (.count (p + 0x90)),
        .inject p 0 fun a => .when a (.lineErr line (some .corrected)),
        .inject p 1 fun a => .when a (.lineErr line (some .uncorrectable)),
        .inject p 5 fun a => .when a (.error p 5 (regionRec 0x0308 (ctlOf pa % 16 / 4) |> fun r => { r with detail := detailN (ctlOf pa % 4) }) true true)]

/-- A range of bytes cut at line boundaries: (address, bytes) of each piece. n is at least the number of pieces. -/
def cutLines (n pa : Nat) (bs : List Byte) : List (Nat × List Byte) :=
  match n with
  | 0 => []
  | n + 1 =>
    if bs.isEmpty then [] else
      let k := 64 - pa % 64
      (pa, bs.take k) :: cutLines n (pa + k) (bs.drop k)

/-- The pieces of a range. -/
def linePieces (pa : Nat) (bs : List Byte) : List (Nat × List Byte) := cutLines (bs.length / 64 + 2) pa bs

/-- Bytes are written to device memory under a key slot, line by line (R210); lines at unpopulated addresses are
discarded. -/
def Upd.write (slot pa : Nat) (bs : List Byte) : Upd :=
  .each (linePieces pa bs) fun c => .when (populated c.1) (.writeLine slot c.1 c.2)

/-- The first line that a write of the range cannot write because it would modify part of an uncorrectable line
(R215). -/
def Device.writeUe (d : Device) (pa len : Nat) : Option Nat :=
  ((linesOf pa len).find? fun l =>
    d.lineErrAt l = some .uncorrectable && !(pa ≤ l * 64 && l * 64 + 64 ≤ pa + len)).map (· * 64)

/-- A number of n bytes is written. -/
def Upd.writeNum (slot pa n v : Nat) : Upd := .write slot pa (toBytes n v)

/-! ### Translation (R220 to R222) -/

/-- The causes of R222. -/
abbrev causeUnmapped : Nat := 1
abbrev causeWrite : Nat := 2
abbrev causePteInvalid : Nat := 3
abbrev causePaRange : Nat := 4
abbrev causeKey : Nat := 5
abbrev causeHost : Nat := 6
abbrev causeRemote : Nat := 7
abbrev causeWinInvalid : Nat := 8
abbrev causePteUe : Nat := 9
abbrev causeRoot : Nat := 10

/-- The outcome of a walk: a leaf and the size of its page, or a cause, with the entry's address for PTE_UE. -/
inductive WalkResult where
  | leaf (pte log2 : Nat)
  | fail (cause entry : Nat)
deriving DecidableEq, Repr

/-- The virtual address width of a root (R220; ROOT_CFG: other values act as 52). -/
def Root.vaBits (r : Root) : Nat :=
  let v := fieldOf r.cfg 5 0
  if 34 ≤ v ∧ v ≤ 52 then v else 52

/-- The address of a root's level-1 table. -/
def Root.base (r : Root) : Nat := r.lo.toNat + fieldOf r.hi 11 0 * 2 ^ 32

/-- The root is valid, aligned to its table's size and populated (R220, R222 cause ROOT). -/
def Root.usable (r : Root) : Bool :=
  bitOf r.cfg 31 && r.base % max 256 (8 * 2 ^ (r.vaBits - 30)) = 0 && populated r.base

/-- What an entry says at a level whose leaf page has 2^log2 bytes (R221): a leaf, a table pointer, or a cause. -/
def checkEntry (pte log2 : Nat) (last : Bool) : Nat ⊕ Option Nat :=
  let kind := bits pte 1 2
  let addr := bits pte 8 44 * 2 ^ 8
  if bits pte 0 1 = 0 then .inl causeUnmapped
  else if bits pte 52 4 ≠ 0 ∨ bits pte 4 4 ≠ 0 then .inl causePteInvalid
  else if kind ≠ 1 ∧ bits pte 56 8 ≠ 0 then .inl causePteInvalid
  else if kind = 0 then
    if last then .inl causePteInvalid
    else if bits pte 44 8 ≠ 0 then .inl causePteInvalid
    else if addr % (if log2 = 30 then 4096 else 256) ≠ 0 then .inl causePteInvalid
    else if !populated addr then .inl causePaRange
    else .inr (some addr)
  else if kind = 1 ∧ addr % 2 ^ log2 ≠ 0 then .inl causePteInvalid
  else if kind = 2 ∧ addr % 2 ^ log2 ≠ 0 then .inl causePteInvalid
  else if kind = 3 ∧ (addr % 2 ^ 42) % 2 ^ log2 ≠ 0 then .inl causePteInvalid
  else .inr none

/-- The walk from a table at a level down (R220): log2 is 30, 21 or 16. -/
def Device.walkFrom (d : Device) (levels : List Nat) (table va : Nat) : WalkResult :=
  match levels with
  | [] => .fail causePteInvalid 0
  | log2 :: rest =>
    let index := if log2 = 30 then va / 2 ^ 30 else if log2 = 21 then bits va 21 9 else bits va 16 5
    let entry := table + index * 8
    if (d.ueIn entry 8).isSome then .fail causePteUe entry
    else
      let pte := d.numAt 0 entry 8
      match checkEntry pte log2 rest.isEmpty with
      | .inl cause => .fail cause entry
      | .inr none => .leaf pte log2
      | .inr (some next) => d.walkFrom rest next va

/-- The walk of a root (R220, R222). -/
def Device.walk (d : Device) (r : Root) (va : Nat) : WalkResult :=
  if !r.usable then .fail causeRoot 0
  else if va ≥ 2 ^ r.vaBits then .fail causeUnmapped 0
  else d.walkFrom [30, 21, 16] r.base va

/-- The root a context uses: the one written at its last binding (R223). -/
def Device.rootOf (d : Device) (ctx : Nat) : Root := ((d.ctx ctx).root).getD (look d.xl.roots ctx {})

/-- Where a leaf takes an address, by its kind (R221). -/
def leafTarget (pte log2 va : Nat) : Target :=
  let off := va % 2 ^ log2
  let addr := bits pte 8 44 * 2 ^ 8
  match bits pte 1 2 with
  | 1 => .mem (addr % 2 ^ 44 + off) (bits pte 56 8)
  | 2 => .host (addr + off)
  | _ => .remote (addr / 2 ^ 42) (addr % 2 ^ 42 + off)

/-- The translation of one byte's address for a read or a write: its target and the size of its page, or a cause and
the entry's address for PTE_UE (R222). DESIGN CHOICE (log 154): where several causes apply, the one that the walk meets first is
reported, ROOT before the address, and WRITE before PA_RANGE before KEY. -/
def Device.translate (d : Device) (ctx va : Nat) (write : Bool) : (Nat × Nat) ⊕ (Target × Nat) :=
  match d.walk (d.rootOf ctx) va with
  | .fail c a => .inl (c, a)
  | .leaf pte log2 =>
    if write && bits pte 3 1 = 0 then .inl (causeWrite, 0)
    else
      match leafTarget pte log2 va with
      | .mem pa slot =>
        if bits pte 44 8 ≠ 0 ∨ !populated pa then .inl (causePaRange, 0)
        else if d.keyGen slot = 0 then .inl (causeKey, 0)
        else .inr (.mem pa slot, log2)
      | .host a => .inr (.host a, log2)
      | .remote w o => if bitOf (look d.xl.winOut w 0) 31 then .inr (.remote w o, log2) else .inl (causeWinInvalid, 0)

/-- A piece of a translated range: virtual address, target, length, and the size of the page as a power of two (0: not
translated by a page). -/
structure Seg where
  va : Nat
  target : Target
  len : Nat
  log2 : Nat
deriving DecidableEq, Repr

/-- A failed translation: cause, faulting virtual address, the entry's physical address for PTE_UE. -/
structure XFault where
  cause : Nat
  va : Nat
  entry : Nat := 0
deriving DecidableEq, Repr

/-- The address at which a local segment stops being populated, looking 4 KiB at a time (R232). -/
def firstHole (n pa len : Nat) : Option Nat :=
  match n with
  | 0 => none
  | n + 1 =>
    if len = 0 then none
    else if !populated pa then some pa
    else
      let k := 4096 - pa % 4096
      if len ≤ k then none else firstHole n (pa + k) (len - k)

/-- The pages of a range in order (R232): its segments, or the first address whose access lacks a permitting
translation. n is at least the number of pages. -/
def Device.rangeFrom (d : Device) (n ctx va len : Nat) (write : Bool) : XFault ⊕ List Seg :=
  match n with
  | 0 => .inr []
  | n + 1 =>
    if len = 0 then .inr [] else
      match d.translate ctx va write with
      | .inl (c, a) => .inl ⟨c, va, a⟩
      | .inr (t, log2) =>
        let k := min len (2 ^ log2 - va % 2 ^ log2)
        let hole := match t with
          | .mem pa _ => firstHole (k / 4096 + 2) pa k
          | _ => none
        match hole, t with
        | some h, .mem pa _ => .inl ⟨causePaRange, va + (h - pa), 0⟩
        | _, _ =>
          match d.rangeFrom n ctx (va + k) (len - k) write with
          | .inl f => .inl f
          | .inr r => .inr (⟨va, t, k, log2⟩ :: r)

/-- The translation of a whole range (R232). -/
def Device.range (d : Device) (ctx va len : Nat) (write : Bool) : XFault ⊕ List Seg :=
  d.rangeFrom (len / 65536 + 2) ctx va len write

end Sys2Proof.Machine
end

