-- ==== Sys2Proof/Machine/Access.lean ====
section
/-! DEFINITION. The accesses of commands: local bytes, reads of host memory and of remote windows that wait for their
answers, posted writes, and the retry store (07_memory.md R228 to R235, 09_bells_links.md R297 to R301). -/

namespace Sys2Proof

/-- The virtual channel of a packet (R293): bells, responses, requests. -/
def Packet.vc (p : Packet) : Nat := if p.type = 5 then 0 else if p.type = 1 ∨ p.type = 2 then 2 else 1

/-- Bytes of a packet: its header and data units (R292). -/
def Packet.size (p : Packet) : Nat := 16 + Machine.roundUp p.data.length 16

/-- The credits that a packet needs, in 64-byte units (R291, R293; log 53). -/
def Packet.units (p : Packet) : Nat := Machine.ceilDiv p.size 64

/-- The 16 bytes of a packet's header (R292). -/
def Packet.header (p : Packet) : List Byte :=
  Machine.toBytes 16 (p.type + p.mark.toNat * 2 ^ 8 + p.len * 2 ^ 12 + p.dst * 2 ^ 22 + p.src * 2 ^ 35 + p.window * 2 ^ 48 +
    p.seq * 2 ^ 64 + p.offset * 2 ^ 86)

/-- A packet as a byte stream: its header and its data in whole units (R292). -/
def Packet.bytes (p : Packet) : List Byte := p.header ++ p.data ++ List.replicate (Machine.roundUp p.data.length 16 - p.data.length) 0

end Sys2Proof

namespace Sys2Proof.Machine

/-- The key under which an engine's slot keeps its outstanding requests. -/
def slotKey (e s : Nat) : Nat := e * 8 + s

/-- A read whose answer an access needs. -/
inductive Need where
  | host (fn addr len : Nat) (va log2 : Nat)
  | remote (window offset len : Nat) (va log2 : Nat)
  /-- the host's translation for a write (R228) -/
  | ats (fn addr : Nat)
deriving DecidableEq, Repr

/-- The read is part of an access that a page translated. -/
def Need.through (va log2 : Nat) : Need → Need
  | .host fn addr len _ _ => .host fn addr len va log2
  | .remote w off len _ _ => .remote w off len va log2
  | n => n

/-- Why a read ends its command. -/
inductive Bad where
  | ue (pa : Nat)
  | host (addr : Nat)
  | remote (reason window offset : Nat)
  | lost (peer : Nat)
deriving DecidableEq, Repr

/-- What a read brings: its bytes, the reads it still waits for, or why it fails. -/
inductive Got where
  | bytes (l : List Byte)
  | wait (missing : List Need)
  | bad (b : Bad)
deriving DecidableEq, Repr

/-- A range cut at multiples of k: (address, length). -/
def cutAt (n k a len : Nat) : List (Nat × Nat) :=
  match n with
  | 0 => []
  | n + 1 =>
    if len = 0 then [] else
      let m := min len (k - a % k)
      (a, m) :: cutAt n k (a + m) (len - m)

/-- The pieces of a host write: at most 512 bytes each, the maximum payload (R384). -/
def writePieces (addr len : Nat) : List (Nat × Nat) := cutAt (len / 512 + 2) 512 addr len

/-- The pieces of a host read: at most 4,096 bytes each (R384). -/
def hostPieces (addr len : Nat) : List (Nat × Nat) := cutAt (len / 4096 + 2) 4096 addr len

/-- The pieces of a remote access: at most 512 bytes each (R292). -/
def remotePieces (off len : Nat) : List (Nat × Nat) := cutAt (len / 512 + 2) 512 off len

/-- An outbound window's destination device and its inbound window (R233). -/
def Device.winDest (d : Device) (w : Nat) : Nat × Nat :=
  let v := look d.xl.winOut w 0
  (fieldOf v 12 0, fieldOf v 29 20)

def Device.peer (d : Device) (p : Nat) : PeerState := (look d.lk.peers p (.normal, 0)).1

/-- The entry of the address translation cache that covers a host address of a function (R228, R397). -/
def Device.atcEntry (d : Device) (fn addr : Nat) : Option AtcEntry :=
  d.xl.atc.find? fun x => x.fn = fn && !x.bad && x.base ≤ addr && addr < x.base + 2 ^ x.log2

/-- The address that a request to the host carries: translated when ATS is on and the cache holds it (R228). -/
def Device.hostAddr (d : Device) (fn addr : Nat) : Nat :=
  match (if d.xl.atsOn.contains fn then d.atcEntry fn addr else none) with
  | some x => x.target + (addr - x.base)
  | none => addr

/-- The address is a translated one, and a request that carries it is marked so (R228). -/
def Device.hostMark (d : Device) (fn addr : Nat) : Bool := d.xl.atsOn.contains fn && (d.atcEntry fn addr).isSome

/-- A piece of a write to the host may go out: with ATS on its page needs a translation that permits it (R228, R229). -/
def Device.hostWritable (d : Device) (key fn addr : Nat) : Got :=
  if !d.xl.atsOn.contains fn then .bytes []
  else match d.atcEntry fn addr with
  | some x => if x.write then .bytes [] else .bad (.host addr)
  | none =>
    match d.ho.reads.find? fun r => r.slot = key && r.write && r.addr = addr && !r.dropped with
    | none => .wait [.ats fn addr]
    | some r => if r.answered then .bad (.host addr) else .wait []

/-- What one piece of a host read brings. -/
def Device.hostPiece (d : Device) (key fn addr len : Nat) : Got :=
  match d.ho.reads.find? fun r => r.slot = key && r.addr = addr && r.len = len && !r.dropped && !r.write with
  | none => .wait [.host fn addr len 0 0]
  | some r => if !r.answered then .wait [] else if r.failed then .bad (.host addr) else .bytes r.data

/-- What one piece of a remote read brings; a peer that is LOST ends it (R309). -/
def Device.remotePiece (d : Device) (key w off len : Nat) : Got :=
  let dst := d.winDest w
  match d.lk.reqs.find? fun r => r.slot = key && !r.orphan && r.kind = .read && r.dst = dst.1 && r.window = dst.2 && r.offset = off && r.len = len with
  | none => if d.peer dst.1 = .lost then .bad (.lost dst.1) else .wait [.remote w off len 0 0]
  | some r =>
    if !r.answered then (if d.peer dst.1 = .lost then .bad (.lost dst.1) else .wait [])
    else if r.reason ≠ 0 then .bad (.remote r.reason w off)
    else .bytes r.answer

/-- Two reads in order: the first failure decides, else what is missing, else the bytes. -/
def Got.append : Got → Got → Got
  | .bad b, _ => .bad b
  | .bytes _, .bad b => .bad b
  | .wait _, .bad b => .bad b
  | .bytes a, .bytes b => .bytes (a ++ b)
  | .bytes _, .wait m => .wait m
  | .wait m, .bytes _ => .wait m
  | .wait m, .wait n => .wait (m ++ n)

/-- All the reads in order. -/
def Got.concat (l : List Got) : Got := l.foldr Got.append (.bytes [])

/-- What a read lacks is part of an access that a page translated (R223). -/
def Got.through (va log2 : Nat) : Got → Got
  | .wait m => .wait (m.map (·.through va log2))
  | g => g

/-- What reading a segment brings. -/
def Device.readSeg (d : Device) (key fn : Nat) (s : Seg) : Got :=
  match s.target with
  | .mem pa slot =>
    match d.ueIn pa s.len with
    | some l => .bad (.ue l)
    | none => .bytes (d.bytesAt slot pa s.len)
  | .host addr => (Got.concat ((hostPieces addr s.len).map fun p => d.hostPiece key fn p.1 p.2)).through s.va s.log2
  | .remote w off => (Got.concat ((remotePieces off s.len).map fun p => d.remotePiece key w p.1 p.2)).through s.va s.log2

/-- What reading segments brings. -/
def Device.readSegs (d : Device) (key fn : Nat) (l : List Seg) : Got := .concat (l.map (d.readSeg key fn))

/-! ### The retry store (R300) -/

/-- What a request takes in the retry store: its header and data units (R292, log 23). -/
def Req.size (r : Req) : Nat := 16 + roundUp r.data.length 16

/-- The retry store can take size more bytes toward a destination: within the whole and within a quarter of it. -/
def Device.retryRoom (d : Device) (dst size : Nat) : Bool :=
  let cap := fieldOf (d.reg (zwlPage + 0x54)) 7 0 * 2 ^ 24
  let used (l : List Req) := (l.map Req.size).sum
  used d.lk.reqs + size ≤ cap && used (d.lk.reqs.filter (·.dst = dst)) + size ≤ cap / 4

/-- The retry store has room for requests given by destination and size: for each destination's, and for all of them. -/
def Device.requestsFit (d : Device) (n : List (Nat × Nat)) : Bool :=
  let cap := fieldOf (d.reg (zwlPage + 0x54)) 7 0 * 2 ^ 24
  n.isEmpty || (d.lk.reqs.map Req.size).sum + (n.map (·.2)).sum ≤ cap &&
    n.all fun p => d.retryRoom p.1 ((n.filter (·.1 = p.1)).map (·.2)).sum

def Device.port (d : Device) (p : Nat) : Port := look d.lk.ports p {}
def Upd.port (p : Nat) (f : Port → Port) : Upd :=
  .of fun d => { d with lk := { d.lk with ports := put d.lk.ports p (f (d.port p)) {} } }

/-- The ports that may carry packets toward a device: those UP, or with a holding partner, in its route mask (R301). While the
device holds, its own HOLD answers leave through the ports that hold (R306). -/
def Device.portsTo (d : Device) (dst : Nat) : List Nat :=
  let m := look d.lk.routes dst 0
  (List.range 18).filter fun p =>
    ((d.port p).state = .up || (d.port p).state = .holdRx || d.lk.holdTx && (d.port p).state = .holdTx) && (m = 0 || bitOf m p)

/-- The next port in rotation after the one last used (R301). -/
def Device.nextPort (d : Device) (dst : Nat) : Option Nat :=
  let l := d.portsTo dst
  let last := look d.lk.turn dst 17
  match l.find? (· > last) with
  | some p => some p
  | none => l.head?

/-- The device's own identifier (ZWL.DEV_ID.id). -/
def Device.devId (d : Device) : Nat := fieldOf (d.reg (zwlPage + 0x40)) 12 0

/-! ### Packets and flits (R291 to R296) -/

/-- The type code of a request's packet (R292). -/
def ReqKind.code : ReqKind → Nat
  | .write => 1 | .read => 2 | .bell => 5

/-- The packet of a request (R292). -/
def Device.packetOf (d : Device) (r : Req) (mark : Bool) : Packet :=
  { type := r.kind.code, mark := mark, len := if r.kind = .bell then 0 else r.len - 1, dst := r.dst, src := d.devId,
    window := if r.kind = .bell then 0 else r.window, seq := r.seq, offset := if r.kind = .bell then r.window else r.offset, data := r.data }

/-- A port may send data flits (R294, R296, R306, R349). -/
def Device.portSends (d : Device) (p : Nat) : Bool :=
  ((d.port p).state = .up || (d.port p).state = .holdRx || (d.port p).state = .holdTx) && d.unheld

/-- A link error of a port: its page's flag, a record that counts the port's errors, and its occurrence (R354 format L). -/
def Upd.linkError (port bit code : Nat) (count : Bool := false) (injected : Bool := false) : Upd :=
  .all [.port port fun q => { q with faults := q.faults + 1 },
    .read fun d => .error (portPage port) bit
      (deviceRec code (if port < 9 then 6 else 7) (detailL port (d.port port).partner.1 (d.port port).faults)) count injected]

/-- A port retrains and is excluded from routing meanwhile (R294). -/
def Upd.retrain (port : Nat) : Upd :=
  .port port fun q => { q with state := .training, resends := 0, group := [] }

/-- A marked packet is logged with the flit that carries it, as sent (0x31) or received (0x32) (R304). -/
def Upd.crossing (kind port flit : Nat) (p : Packet) : Upd :=
  .when p.mark (.read fun d => .trace (fieldOf (d.reg (zwlPage + 0x68)) 9 8) (if port < 9 then 10 else 11) kind
    (toBytes 1 port ++ toBytes 2 p.src ++ toBytes 2 p.dst ++ toBytes 2 flit ++ toBytes 4 p.seq ++ toBytes 1 p.type))

/-- A flit leaves a port: a data flit is counted, and its marked packet logged at each sending (R304). -/
def Upd.putFlit (port : Nat) (f : Flit) (good : Bool) : Upd :=
  .all [.send (.flit port f good),
    match f.body with
    | .data p => .all [.count (portPage port + 0x60), .crossing 0x31 port f.seq p]
    | _ => .skip]

/-- The credits that the next flit returns: those of the lowest channel that owes any, none while the gong is active (R291,
R349). -/
def Port.returns (q : Port) (unheld : Bool) : Nat × Nat :=
  if !unheld then (0, 0)
  else if q.owed.1 ≠ 0 then (0, min q.owed.1 16383)
  else if q.owed.2.1 ≠ 0 then (1, min q.owed.2.1 16383)
  else (2, min q.owed.2.2 16383)

/-- A port owes n more credits of a channel, or fewer. -/
def Port.owe (q : Port) (vc : Nat) (f : Nat → Nat) : Port :=
  let (a, b, c) := q.owed
  { q with owed := if vc = 0 then (f a, b, c) else if vc = 1 then (a, f b, c) else (a, b, f c) }

/-! The 640 bytes of a flit (R291, R295) -/

/-- CRC-32 of IEEE 802.3 (R291). -/
def crc32 (l : List Byte) : BitVec 32 :=
  let shift (c : BitVec 32) : BitVec 32 := if c.getLsbD 0 then (c >>> 1) ^^^ 0xEDB88320#32 else c >>> 1
  let byte (c : BitVec 32) (b : Byte) : BitVec 32 := (List.range 8).foldl (fun c _ => shift c) (c ^^^ b.setWidth 32)
  ~~~ (l.foldl byte (BitVec.allOnes 32))

/-- The kind of a flit, and whether a packet header starts in it: the model's data flits begin with one (log 137). -/
def FlitBody.kind : FlitBody → Nat
  | .data _ => 0 | .idle => 1 | .mac _ _ => 2 | _ => 3
def FlitBody.first : FlitBody → Nat
  | .data _ => 0 | _ => 0x3F

/-- The packet area in the clear: a packet and idle headers of zeros after it, idle headers alone, or the tag and the group counter;
that of a control flit is free (log 137). -/
def FlitBody.area (b : FlitBody) : List Byte :=
  let control (what arg : Nat) : List Byte := (List.range 624).map (Config.controlByte what arg)
  let pad (l : List Byte) : List Byte := l ++ List.replicate (624 - l.length) 0
  match b with
  | .data p => pad p.bytes
  | .idle => pad []
  | .mac group tag => pad (tag ++ toBytes 8 group)
  | .nak seq => control 0 seq
  | .keyChange => control 1 0
  | .keyUpdate => control 2 0
  | .holdOn => control 3 0
  | .holdOff => control 4 0

/-- The area of a data flit under its key, its group's counter and its place in the group (R295; log 160). -/
def sealArea (k : LinkKey) (group at' : Nat) (plain : List Byte) : List Byte :=
  (plain.zip (List.range plain.length)).map fun p => p.1 ^^^ Config.gcmByte k.key k.salt group (624 * at' + p.2)

/-- Bytes 0 to 7 of a flit. -/
def Flit.head (f : Flit) : List Byte :=
  toBytes 2 f.seq ++ toBytes 2 f.ack ++ [BitVec.ofNat 8 f.body.kind, BitVec.ofNat 8 f.first] ++ toBytes 2 (f.vc + 4 * f.credit)

/-- A flit as transmitted. -/
def Flit.bytes (f : Flit) : List Byte :=
  let b := f.head ++ f.area
  b ++ toBytes 4 (crc32 b).toNat ++ [BitVec.ofNat 8 f.phase.toNat, 0, 0, 0]

/-- The flits of the group that is open, oldest first, and its tag (R295). -/
def Port.openGroup (q : Port) : List Flit :=
  ((q.replay.map (·.1)).reverse.filter (·.body.kind = 0)).take q.txOpen |>.reverse
def Port.tag (q : Port) : List Byte :=
  let g := q.openGroup
  (List.range 16).map (Config.gcmTag q.txKey.key q.txKey.salt q.txGroup (g.flatMap Flit.head) (g.flatMap (·.area)))

/-- A flit is formed and sent (R291): it carries the highest number received and credits to return; all but idle flits advance
seq and are kept for replay (R294). The injections of the port's page act on it. -/
def Upd.sendFlit (port : Nat) (body : FlitBody) : Upd :=
  .read fun d =>
    let q := d.port port
    let page := portPage port
    let (vc, n) := q.returns d.unheld
    let f : Flit := { seq := q.txSeq, ack := (q.rxSeq + 65535) % 65536, vc := vc, credit := n, phase := q.txPhase, body := body,
                      first := body.first, area := if body.kind = 0 then sealArea q.txKey q.txGroup q.txOpen body.area else body.area }
    let kept : Upd := .port port fun q => { q.owe vc (· - n) with
      txSeq := (q.txSeq + 1) % 65536, replay := (q.replay ++ [(f, d.now)]).drop (q.replay.length - 511) }
    match body with
    | .idle => .all [.port port fun q => q.owe vc (· - n), .putFlit port f true]
    | .mac _ _ => .all [kept, .inject page 2 fun bad => .inject page 0 fun torn => .putFlit port f (!bad && !torn)]
    | .data _ => .all [kept, .inject page 0 fun torn => .putFlit port f (!torn),
        .inject page 1 fun a => .when a (.all [.linkError port 1 0x0406 false true, .retrain port])]
    | _ => .all [kept, .inject page 0 fun torn => .putFlit port f (!torn)]

/-- What the port still owes its partner goes back in idle flits, one for each channel (R291, R293). -/
def Upd.returnCredits (port : Nat) : Upd :=
  .times 3 (.read fun d =>
    let q := d.port port
    .when (d.portSends port && (q.owed.1 ≠ 0 || q.owed.2.1 ≠ 0 || q.owed.2.2 ≠ 0)) (.sendFlit port .idle))

/-- The open group is closed with its MAC flit (R295). A port whose counter reaches 2^62 asks for its next key (R422). -/
def Upd.closeGroup (port : Nat) : Upd :=
  .read fun d => .all [
    .sendFlit port (.mac (d.port port).txGroup (d.port port).tag),
    .port port fun q => { q with txOpen := 0, txGroup := q.txGroup + 1 },
    .when ((d.port port).txGroup + 1 = 2 ^ 62) (.sendFlit port .keyUpdate)]

/-- A packet leaves in a data flit of its own; every 32nd closes a group (R291, R295). -/
def Upd.sendPacket (port : Nat) (p : Packet) : Upd :=
  .all [.sendFlit port (.data p), .port port fun q => { q with txOpen := q.txOpen + 1 },
    .read fun d => .when ((d.port port).txOpen ≥ 32) (.closeGroup port)]

/-- A port whose group counter nears its end switches to its next key when it has one: a control flit announces it, and the
phase of every later flit selects it (R296, R422). -/
def Upd.keyCheck (port : Nat) : Upd :=
  .read fun d =>
    let q := d.port port
    match q.nextKey with
    | some k => .when (q.txGroup ≥ 2 ^ 62 && d.portSends port) (.all [
        .when (q.txOpen ≠ 0) (.closeGroup port), .sendFlit port .keyChange,
        .port port fun q => { q with txGroup := 0, txPhase := !q.txPhase, txKey := k, nextKey := none }])
    | none => .skip

/-- The flits of a replay buffer from a sequence number on. -/
def fromSeq (l : List (Flit × Word64)) (seq : Nat) : List (Flit × Word64) := l.dropWhile fun p => p.1.seq ≠ seq

/-- The flits from a number on are sent again, identical (R294). -/
def Upd.resend (port seq : Nat) : Upd :=
  .read fun d => .each (fromSeq (d.port port).replay seq) fun p => .putFlit port p.1 true

/-- The waiting packets of a port are sent while it holds credit for them, channel 0 first, then 1, then 2 (R293); the open
group is closed when no data flit is left (R295). n bounds the packets. -/
def Upd.pumpPort (n port : Nat) : Upd :=
  match n with
  | 0 => .skip
  | n + 1 => .all [.keyCheck port, .read fun d =>
    let q := d.port port
    let first := [0, 1, 2].findSome? fun vc => match q.waiting.find? fun p => p.vc = vc with
      | some p => if p.units ≤ look q.credit vc 0 then some p else none
      | none => none
    if !d.portSends port then .skip
    else if q.txGroup ≥ 2 ^ 63 - 1 then .when (!q.waiting.isEmpty) (.linkError port 4 0x0409)
    else match first with
    | none => .when (q.txOpen ≠ 0) (.closeGroup port)
    | some p => .all [
        .port port fun q => { q with waiting := q.waiting.erase p, credit := put q.credit p.vc (look q.credit p.vc 0 - p.units) 0 },
        .sendPacket port p, .pumpPort n port]]

/-- What the gong held back is sent again first, then all the waiting packets of a port that can leave. -/
def Upd.pump (port : Nat) : Upd :=
  .all [
    .read fun d => match (d.port port).nakDue with
      | some seq => .when (d.portSends port) (.all [.port port fun q => { q with nakDue := none }, .resend port seq])
      | none => .skip,
    .read fun d => .pumpPort ((d.port port).waiting.length + 1) port]

/-- A packet is given to a port, and leaves when the receiver has credit for all of it (R293). -/
def Upd.packet (port : Nat) (p : Packet) : Upd :=
  .all [.port port fun q => { q with waiting := q.waiting ++ [p] }, .pump port]

/-! ### Requests (R297 to R301) -/

/-- A request is put on a port toward its destination, if one is UP; without one it waits for its resending. It crosses from the
engine's region to the IO die of the port (R23). -/
def Upd.transmit (r : Req) : Upd :=
  .read fun d =>
    match d.nextPort r.dst with
    | none => .skip
    | some p =>
      let ts := d.reg (zwlPage + 0x68)
      let n := (d.port p).markCount + 1
      let mark := bitOf ts 31 && n ≥ 2 ^ min (fieldOf ts 4 0) 20
      .all [
        .of fun d => { d with lk := { d.lk with turn := put d.lk.turn r.dst p 17 } },
        .port p fun q => { q with markCount := if mark then 0 else n },
        .cross (r.slot / 64) (portDie p) (.packet p (d.packetOf r mark))]

/-- An earlier write of the slot to overlapping bytes of the same window is not retired yet (R299). -/
def Device.heldBack (d : Device) (r : Req) : Bool :=
  r.kind = .write && d.lk.reqs.any fun q => q.id < r.id && q.slot = r.slot && q.kind = .write && q.dst = r.dst &&
    q.window = r.window && q.offset < r.offset + r.len && r.offset < q.offset + q.len

/-- A request changes, or is retired. -/
def Upd.req (id : Nat) (f : Req → Option Req) : Upd :=
  .of fun d => { d with lk := { d.lk with reqs := d.lk.reqs.filterMap fun r => if r.id = id then f r else some r } }

/-- A request is sent for the first time. -/
def Upd.launch (r : Req) : Upd :=
  .read fun d => .all [
    .req r.id fun r => some { r with sends := 1, lastSent := d.now },
    .count (zwlPage + 0x80), .when (r.kind ≠ .bell) (.count (winPage + 0x70)), .transmit r]

/-- The requests that nothing holds back any more are sent (R299). -/
def Upd.launchHeld : Upd :=
  .read fun d => .each (d.lk.reqs.filter (·.sends = 0)) fun r => .read fun d => .when (!d.heldBack r) (.launch r)

/-- The parts of the retry store that no request occupies: each begins at its start or where a part that is taken ends. -/
def Device.retryFree (d : Device) : List (Nat × Nat) :=
  let cap := fieldOf (d.reg (zwlPage + 0x54)) 7 0 * 2 ^ 24
  let used := d.lk.reqs.flatMap (·.place)
  ((0 :: used.map fun u => u.1 + u.2).map fun a => (a, (used.map (·.1)).foldl (fun m b => if a ≤ b then min m b else m) cap - a)).filter
    fun p => p.2 ≠ 0

/-- Places for size bytes in free parts of the retry store: one part when one is large enough, else as many as it takes (R300;
log 136). -/
def takeParts : Nat → List (Nat × Nat) → List (Nat × Nat)
  | _, [] => []
  | size, p :: l => if size ≤ p.2 then [(p.1, size)] else p :: takeParts (size - p.2) l

def Device.retryPlace (d : Device) (size : Nat) : List (Nat × Nat) :=
  match d.retryFree.find? fun p => size ≤ p.2 with
  | some p => [(p.1, size)]
  | none => takeParts size d.retryFree

/-- A packet's bytes in its places. -/
def placed : List (Nat × Nat) → List Byte → List (Nat × List Byte)
  | [], _ => []
  | p :: l, bs => (p.1, bs.take p.2) :: placed l (bs.drop p.2)

/-- A new request is written into the retry store under key slot 0 and sent, unless an earlier write holds it back (R297, R299,
R300). -/
def Upd.request (key : Nat) (kind : ReqKind) (dst window offset len : Nat) (data : List Byte)
    (via va log2 : Nat := 0) : Upd :=
  .read fun d =>
    let r : Req := { id := d.lk.nextReq, kind := kind, dst := dst, window := window, offset := offset, len := len,
                     data := data, seq := look d.lk.seqs dst 0, slot := key, via := via, va := va, log2 := log2 }
    let place := d.retryPlace r.size
    let base := d.pair (zwlPage + 0x4C) % 2 ^ 44 / 2 ^ 24 * 2 ^ 24
    .all [
      .of fun d => { d with lk := { d.lk with
        reqs := d.lk.reqs ++ [{ r with place := place }], nextReq := d.lk.nextReq + 1,
        seqs := put d.lk.seqs dst ((r.seq + 1) % 2 ^ 22) 0 } },
      .each (placed place (d.packetOf r false).bytes) fun p => .write 0 (base + p.1) p.2,
      .read fun d => .when (!d.heldBack r) (.launch r)]

/-- Host software enables or disables ATS for functions (R228; log 134): a function without it keeps no translations. -/
def Upd.enableAts (fns : List Nat) (on : Bool) : Upd :=
  .of fun d => { d with xl := { d.xl with
    atsOn := d.xl.atsOn.filter (fun f => !fns.contains f) ++ (if on then fns else []),
    atc := if on then d.xl.atc else d.xl.atc.filter fun x => !fns.contains x.fn } }

/-- An access is noted with the host's own number for it. -/
def Upd.noteRead (r : HostRead) : Upd :=
  .of fun d => { d with ho := { d.ho with nextRead := d.ho.nextRead + 1, reads := d.ho.reads ++ [{ r with id := d.ho.nextRead }] } }

/-- A Translation Request for the page of an access that misses the address translation cache (R228). An entry whose parity is
wrong is dropped, and the access misses (R227). -/
def Upd.askPage (fn addr : Nat) : Upd :=
  .all [
    .read fun d => .when (d.xl.atc.any fun x => x.fn = fn && x.bad && x.base ≤ addr && addr < x.base + 2 ^ x.log2) (.all [
      .of fun d => { d with xl := { d.xl with
        atc := d.xl.atc.filter fun x => !(x.fn = fn && x.bad && x.base ≤ addr && addr < x.base + 2 ^ x.log2) } },
      .raise xltDevPage (oneBit 0)]),
    .send (.translationReq fn (addr / 4096 * 4096)), .count (xltDevPage + 0x88)]

/-- An access of a tile waits for the translation of its page. -/
def Upd.askAts (r : HostRead) (fn : Nat) : Upd := .all [.noteRead { r with ats := true }, .askPage fn r.addr]

/-- An access of the engine's own waits for the translation of its page. -/
def Upd.askHost (a : Ask) : Upd := .all [.of fun d => { d with ho := { d.ho with asks := d.ho.asks ++ [a] } }, .askPage a.fn a.addr]

/-- A read of host memory is sent; at most 768 are outstanding (R384). With ATS on, its page is translated first (R228). An
armed injection times it out (PCX bit 1). -/
def Upd.hostRead (key fn addr len : Nat) (va log2 : Nat := 0) : Upd :=
  .read fun d =>
    let r : HostRead := { slot := key, addr := addr, len := len, va := va, log2 := log2 }
    let ats := d.xl.atsOn.contains fn
    if (d.ho.reads.filter fun r => !r.answered).length ≥ 768 then .skip
    else match (if ats then d.atcEntry fn addr else none) with
    | none =>
      if ats then .askAts r fn
      else .inject pcxPage 1 fun bad =>
        if bad then .all [.noteRead { r with answered := true, failed := true }, .pcxError 1, .count (pcxPage + 0x98)]
        else .read fun d => .all [.noteRead r, .send (.hostReadReq fn d.ho.nextRead addr len)]
    | some x =>
      .all [.count (xltDevPage + 0x80),
        if x.read then .read fun d => .all [.noteRead r, .send (.hostReadReq fn d.ho.nextRead (d.hostAddr fn addr) len true)]
        else .noteRead { r with answered := true, failed := true }]

/-- The reads of an engine that have been sent and not answered (R265). -/
def Device.readsOut (d : Device) (e : Nat) : Nat :=
  (d.ho.reads.filter fun r => r.slot / 8 = e && !r.answered && !r.dropped).length +
    (d.lk.reqs.filter fun r => r.slot / 8 = e && r.kind = .read && !r.answered).length

/-- The reads that an access lacks are sent; a remote read that finds no retry-store space waits (R300). Bulk transfers wait
while the tabor has its limit of them outstanding (R265). -/
def Upd.issueReads (key : Nat) (l : List Need) (limit : Option Nat := none) : Upd :=
  .each l fun n => .read fun d =>
    if limit.any fun m => d.readsOut (key / 8) ≥ m then .skip
    else match n with
    | .host fn addr len va log2 => .hostRead key fn addr len va log2
    | .ats fn addr => .askAts { slot := key, addr := addr, write := true } fn
    | .remote w off len va log2 =>
      let dst := d.winDest w
      if d.retryRoom dst.1 16 then .request key .read dst.1 dst.2 off len [] w va log2
      else .all [.flag zwlPage 7, .cur (key / 8) (key % 8) fun c => { c with stalled := true }]

/-- The answers that a slot's accesses have used are released. -/
def Upd.consume (key : Nat) : Upd :=
  .of fun d => { d with
    ho := { d.ho with reads := d.ho.reads.filter fun r => !(r.slot = key && r.answered) },
    lk := { d.lk with reqs := d.lk.reqs.filter fun r => !(r.slot = key && r.kind = .read && r.answered) } }

/-- What reading segments does in the controllers. -/
def Upd.touchSegs (l : List Seg) : Upd :=
  .each l fun s => match s.target with
    | .mem pa _ => .touch pa s.len
    | _ => .skip

/-- Bytes are written to translated segments: device memory, posted host writes, remote writes (R232, R297, R386). A write crosses
from the engine's region to the die that holds the memory, or to IO die A (R23). -/
def Upd.writeSegs (key fn : Nat) (l : List Seg) (bs : List Byte) : Upd :=
  match l with
  | [] => .skip
  | s :: r =>
    let mine := bs.take s.len
    .all [
      match s.target with
      | .mem pa slot => .cross (key / 64) (memDie pa) (.write slot pa mine)
      | .host addr => .cross (key / 64) 6 <| .all [.each (writePieces addr mine.length) fun p => .read fun d =>
          .send (.hostWrite fn (d.hostAddr fn p.1) ((mine.drop (p.1 - addr)).take p.2) (d.hostMark fn p.1)), .count (pcxPage + 0x88) mine.length]
      | .remote w off => .each (remotePieces off s.len) fun p => .read fun d =>
          .request key .write (d.winDest w).1 (d.winDest w).2 p.1 p.2 ((mine.drop (p.1 - off)).take p.2) w s.va s.log2,
      .writeSegs key fn r (bs.drop s.len)]

/-- The bytes that writes to segments take in the retry store, by destination. -/
def Device.remoteNeeds (d : Device) (l : List Seg) : List (Nat × Nat) :=
  l.flatMap fun s => match s.target with
    | .remote w off => (remotePieces off s.len).map fun p => ((d.winDest w).1, 16 + roundUp p.2 16)
    | _ => []

/-- The retry store has room for all the remote writes of a tile. -/
def Device.writesFit (d : Device) (l : List Seg) : Bool :=
  d.requestsFit (d.remoteNeeds l)

/-- A write of the slot to bytes of the same window that is not retired yet overlaps a segment (R299). -/
def Device.overlapsUnretired (d : Device) (key : Nat) (l : List Seg) : Bool :=
  l.any fun s => match s.target with
    | .remote w off => d.lk.reqs.any fun r => r.slot = key && r.kind = .write && r.dst = (d.winDest w).1 &&
        r.window = (d.winDest w).2 && r.offset < off + s.len && off < r.offset + r.len
    | _ => false

/-- A destination of a segment that is LOST (R309). -/
def Device.lostPeer (d : Device) (l : List Seg) : Option Nat :=
  l.findSome? fun s => match s.target with
    | .remote w _ => if d.peer (d.winDest w).1 = .lost then some (d.winDest w).1 else none
    | _ => none

/-- The translations that writes to host memory need (R228). -/
def Device.hostWrites (d : Device) (key fn : Nat) (l : List Seg) : Got :=
  .concat (l.flatMap fun s => match s.target with
    | .host addr => (hostPieces addr s.len).map fun p => d.hostWritable key fn p.1
    | _ => [])

/-- The first line of a write to segments that is left unwritten (R215). -/
def Device.segsWriteUe (d : Device) (l : List Seg) : Option Nat :=
  l.findSome? fun s => match s.target with
    | .mem pa _ => d.writeUe pa s.len
    | _ => none

end Sys2Proof.Machine
end

