-- ==== Sys2Proof/WellFormed.lean ====
section
/-! DEFINITION. Which commands name something the part has: engines 0 to 31, slots 0 to 7, functions 0 to 64, and so
on (00_scope.md, 01_architecture.md, R445). A command outside these ranges names no step of the part. -/

namespace Sys2Proof

/-- The fields of a packet fit its header (R292): WRITE, READ_DATA and BELL carry data, the others none. -/
def Packet.wf (p : Packet) : Bool :=
  decide (1 ≤ p.type ∧ p.type < 8 ∧ p.len < 1024 ∧ p.dst < 8192 ∧ p.src < 8192 ∧ p.window < 1024 ∧ p.seq < 2 ^ 22 ∧ p.offset < 2 ^ 42 ∧
    p.data.length = if p.type = 1 ∨ p.type = 3 then p.len + 1 else if p.type = 5 then 8 else 0)

/-- The fields of a flit fit (R291). -/
def FlitHead.wf (h : FlitHead) : Bool := decide (h.seq < 2 ^ 16 ∧ h.ack < 2 ^ 16 ∧ h.vc < 3 ∧ h.credit < 2 ^ 14)

/-- The operands name something the part has. -/
def Instr.wf (i : Instr) : Bool :=
  match i with
  | .nop e _ => decide (e < 32)
  | .matmul e _ rows => decide (e < 32 ∧ 1 ≤ rows ∧ rows ≤ 512)
  | .fused e _ => decide (e < 32)
  | .attnPrefill e _ => decide (e < 32)
  | .attnDecode e _ => decide (e < 32)
  | .kvAppend e _ => decide (e < 32)
  | .kvFork e _ => decide (e < 32)
  | .kvFree e _ => decide (e < 32)
  | .norm e _ => decide (e < 32)
  | .softmax e _ => decide (e < 32)
  | .sample e _ => decide (e < 32)
  | .copy e _ => decide (e < 32)
  | .transpose e _ => decide (e < 32)
  | .rope e _ => decide (e < 32)
  | .microprog e _ => decide (e < 32)
  | .weightLoad e _ => decide (e < 32)
  | .adopt e _ => decide (e < 32)
  | .freeEpoch e _ => decide (e < 32)
  | .freeSet e _ => decide (e < 32)
  | .adapterLoad e _ => decide (e < 32)
  | .adapterFree e _ => decide (e < 32)
  | .adapterBind e _ => decide (e < 32)
  | .bellSignal e _ => decide (e < 32)
  | .bellWait e _ => decide (e < 32)
  | .loadSel e _ => decide (e < 32)
  | .clearCounters e _ => decide (e < 32)
  | .marker e _ => decide (e < 32)
  | .matchCounter e _ => decide (e < 32)
  | .openSession e _ => decide (e < 32)
  | .addRange e _ => decide (e < 32)
  | .addSet e _ => decide (e < 32)
  | .seal e _ => decide (e < 32)
  | .u4Gemm e _ rows => decide (e < 32 ∧ 1 ≤ rows ∧ rows ≤ 512)
  | .u4Copy e _ => decide (e < 32)
  | .u4BellAdd e _ => decide (e < 32)
  | .u4BellWait e _ => decide (e < 32)
  | .doorbell fn e _ entry => decide (fn < 65 ∧ e < 32 ∧ entry < 256)
  | .descriptorFetch e slot => decide (e < 32 ∧ slot < 8)
  | .descriptorArrive e slot _ _ => decide (e < 32 ∧ slot < 8)
  | .taborPrefetch e slot => decide (e < 32 ∧ slot < 8)
  | .commandIssue e => decide (e < 32)
  | .tileIssue e => decide (e < 32)
  | .tileBoundary e => decide (e < 32)
  | .commandEnd e slot => decide (e < 32 ∧ slot < 8)
  | .recordCheck e entry _ _ => decide (e < 32 ∧ entry ≤ 64)
  | .bind fn e slot _ => decide (fn < 65 ∧ e < 32 ∧ slot < 8)
  | .start fn e slot => decide (fn < 65 ∧ e < 32 ∧ slot < 8)
  | .stop fn e slot => decide (fn < 65 ∧ e < 32 ∧ slot < 8)
  | .resume fn e slot => decide (fn < 65 ∧ e < 32 ∧ slot < 8)
  | .flush fn e slot => decide (fn < 65 ∧ e < 32 ∧ slot < 8)
  | .flushDone e slot => decide (e < 32 ∧ slot < 8)
  | .unbind fn e slot => decide (fn < 65 ∧ e < 32 ∧ slot < 8)
  | .shadowAck fn e _ => decide (fn < 65 ∧ e < 32)
  | .ctxKill fn _ => decide (fn < 65)
  | .ctxEnable fn _ => decide (fn < 65)
  | .relayCredit e relay _ => decide (e < 32 ∧ relay < 6)
  | .bellWaitTimeout e slot => decide (e < 32 ∧ slot < 8)
  | .passIssue e c rate tileK tileN rows _ _ _ => decide (e < 32 ∧ c < 4 ∧ (rate = 1 ∨ rate = 2 ∨ rate = 4) ∧ (1 ≤ tileK ∧ tileK ≤ 512) ∧ (1 ≤ tileN ∧ tileN ≤ 128) ∧ (1 ≤ rows ∧ rows < 2 ^ 32))
  | .rampStep e c => decide (e < 32 ∧ c < 4)
  | .idleHoldExpiry e c => decide (e < 32 ∧ c < 4)
  | .arrayRowEnter e c => decide (e < 32 ∧ c < 4)
  | .arrayFreeze e c _ _ _ => decide (e < 32 ∧ c < 4)
  | .shadowLoad e c _ => decide (e < 32 ∧ c < 4)
  | .redecode e c _ => decide (e < 32 ∧ c < 4)
  | .rowCommit e c _ => decide (e < 32 ∧ c < 4)
  | .arrClrCounters fn e c _ => decide (fn < 65 ∧ e < 32 ∧ c < 4)
  | .vecClrCounters fn e c _ => decide (fn < 65 ∧ e < 32 ∧ c < 4)
  | .sfuClrCounters fn e c _ => decide (fn < 65 ∧ e < 32 ∧ c < 4)
  | .expClrCounters fn e c _ => decide (fn < 65 ∧ e < 32 ∧ c < 4)
  | .engClrCounters fn e _ => decide (fn < 65 ∧ e < 32)
  | .belClrCounters fn region _ => decide (fn < 65 ∧ region < 4)
  | .dgsClrCounters fn _ => decide (fn < 65)
  | .nocClrCounters fn die _ => decide (fn < 65 ∧ (die < 4 ∨ die = 6 ∨ die = 7))
  | .microprogRegister => true
  | .microprogUnregister => true
  | .microprogLoaded index => decide (index < 256)
  | .ustoreRewriteDone region index => decide (region < 4 ∧ index < 256)
  | .alloc e slot => decide (e < 32 ∧ slot < 8)
  | .commit e slot => decide (e < 32 ∧ slot < 8)
  | .lease e slot => decide (e < 32 ∧ slot < 8)
  | .unlease e slot => decide (e < 32 ∧ slot < 8)
  | .share e slot => decide (e < 32 ∧ slot < 8)
  | .drop e slot => decide (e < 32 ∧ slot < 8)
  | .lookup e slot => decide (e < 32 ∧ slot < 8)
  | .kvpEnable fn region _ => decide (fn < 65 ∧ region < 4)
  | .decayAdvance region => decide (region < 4)
  | .demotionScan region => decide (region < 4)
  | .migrationStart region page => decide (region < 4 ∧ page < 2 ^ 32)
  | .migrationExchange region page => decide (region < 4 ∧ page < 2 ^ 32)
  | .commandBoundary e => decide (e < 32)
  | .epochRefIncrement set slot => decide (set < 256 ∧ slot < 2)
  | .epochRefDecrement set slot => decide (set < 256 ∧ slot < 2)
  | .fetchTimeout e slot => decide (e < 32 ∧ slot < 8)
  | .wgtEnable fn _ => decide (fn < 65)
  | .memoryRead pa len key => decide (pa < 2 ^ 44 ∧ len ≤ 256 ∧ key < 256)
  | .memoryWrite pa _ key => decide (pa < 2 ^ 44 ∧ key < 256)
  | .patrolScrub ctl => decide (ctl < 32)
  | .spareReq fn ctl _ => decide (fn < 65 ∧ ctl < 32)
  | .spareDone ctl => decide (ctl < 32)
  | .pageWalk e ctx va stream => decide (e < 32 ∧ stream < 8 ∧ ctx < 256 ∧ va < 2 ^ 52)
  | .walkComplete region walker => decide (region < 4 ∧ walker < 8)
  | .invalidation fn _ entry => decide (fn < 65 ∧ entry < 256)
  | .invalidationDone => true
  | .xltFlush fn e _ => decide (fn < 65 ∧ e < 32)
  | .atsTranslationCompletion fn _ _ _ _ _ _ _ => decide (fn < 65)
  | .atsInvalidationRequest fn tag _ _ => decide (fn < 65 ∧ tag < 32)
  | .atsInvalidationCompletion fn tag => decide (fn < 65 ∧ tag < 32)
  | .pcieCompletion _ _ _ _ => true
  | .completionTimeout _ => true
  | .inCfg fn _ => decide (fn < 65)
  | .faultRecord region => decide (region < 4)
  | .fltTailWrite fn region _ => decide (fn < 65 ∧ region < 4)
  | .fltEnable fn region _ => decide (fn < 65 ∧ region < 4)
  | .deviceLogEntry => true
  | .nocRetransmit die link _ => decide (link < 16 ∧ (die < 4 ∨ die = 6 ∨ die = 7))
  | .signal src dst _ => decide (src < 4 ∧ dst < 4)
  | .add src dst _ => decide (src < 4 ∧ dst < 4)
  | .watch src dst _ => decide (src < 4 ∧ dst < 4)
  | .unwatch src dst _ => decide (src < 4 ∧ dst < 4)
  | .wake src dst _ => decide (src < 4 ∧ dst < 4)
  | .carillonCreditReturn e dst => decide (e < 32 ∧ dst < 4)
  | .wakeCreditReturn src dst => decide (src < 4 ∧ dst < 4)
  | .bellReset fn region _ => decide (fn < 65 ∧ region < 4)
  | .belOpSignal fn region _ => decide (fn < 65 ∧ region < 4)
  | .bellRestore fn region _ => decide (fn < 65 ∧ region < 4)
  | .dataFlit port head _ => decide (port < 18 ∧ head.wf)
  | .nak port seq head => decide (port < 18 ∧ head.wf ∧ seq < 2 ^ 16)
  | .retrainDone port => decide (port < 18)
  | .replayExpiry port => decide (port < 18)
  | .macFlit port head _ _ => decide (port < 18 ∧ head.wf)
  | .keyChange port head => decide (port < 18 ∧ head.wf)
  | .writeReq port src seq window offset _ => decide (port < 18 ∧ src < 8192 ∧ seq < 2 ^ 22 ∧ window < 1024 ∧ offset < 2 ^ 42)
  | .readReq port src seq window offset _ => decide (port < 18 ∧ src < 8192 ∧ seq < 2 ^ 22 ∧ window < 1024 ∧ offset < 2 ^ 42)
  | .bellReq port src seq index _ => decide (port < 18 ∧ src < 8192 ∧ seq < 2 ^ 22 ∧ index < 131072)
  | .readData port src seq _ => decide (port < 18 ∧ src < 8192 ∧ seq < 2 ^ 22)
  | .ack port src seq => decide (port < 18 ∧ src < 8192 ∧ seq < 2 ^ 22)
  | .hold port src seq => decide (port < 18 ∧ src < 8192 ∧ seq < 2 ^ 22)
  | .reject port src seq reason => decide (port < 18 ∧ src < 8192 ∧ seq < 2 ^ 22 ∧ reason < 8)
  | .e2eTimeout _ => true
  | .writeRetire _ => true
  | .holdOn port src head => decide (port < 18 ∧ head.wf ∧ src < 8192)
  | .holdOff port src head => decide (port < 18 ∧ head.wf ∧ src < 8192)
  | .peerSilent peer => decide (peer < 8192)
  | .peerLost peer => decide (peer < 8192)
  | .peerClear fn _ => decide (fn < 65)
  | .release fn _ => decide (fn < 65)
  | .portEnable fn port _ => decide (fn < 65 ∧ port < 18)
  | .portRetrain fn port _ => decide (fn < 65 ∧ port < 18)
  | .portTrained port _ _ lanes _ _ => decide (port < 18 ∧ lanes < 256)
  | .counterMatch e counter => decide (e < 32 ∧ counter < 64)
  | .matchArm fn e _ => decide (fn < 65 ∧ e < 32)
  | .cntClear fn e _ => decide (fn < 65 ∧ e < 32)
  | .selectionApply e => decide (e < 32)
  | .traceRecord region => decide (region < 4)
  | .traceEnable fn region _ => decide (fn < 65 ∧ region < 4)
  | .trigger fn region _ => decide (fn < 65 ∧ region < 4)
  | .traceDump fn region _ => decide (fn < 65 ∧ region < 4)
  | .dumpDone region => decide (region < 4)
  | .gongRaise fn _ => decide (fn < 65)
  | .gongCut => true
  | .gongResume fn _ => decide (fn < 65)
  | .managementTick => true
  | .avsAck region => decide (region < 4)
  | .avsTimeout region => decide (region < 4)
  | .powerWindow e power => decide (e < 32 ∧ power < 2 ^ 16)
  | .temperatureSample die _ => decide (die < 6)
  | .watchdog e => decide (e < 32)
  | .engineReset e _ => decide (e < 32)
  | .quiesceTimeout e => decide (e < 32)
  | .resetReq fn e _ => decide (fn < 65 ∧ e < 32)
  | .replayStart e => decide (e < 32)
  | .replayLimit e => decide (e < 32)
  | .devReset fn _ => decide (fn < 65)
  | .deviceReset => true
  | .deviceResetDone => true
  | .flr fn => decide (fn < 65)
  | .vfEnableClear => true
  | .hotReset => true
  | .clockLoss clock => decide (clock < 3)
  | .clockReturn clock => decide (clock < 3)
  | .perstAssert _ => true
  | .perstRelease => true
  | .bar2Read fn _ _ _ => decide (fn < 65)
  | .bar2Write fn _ _ _ => decide (fn < 65)
  | .registerWrite fn addr _ _ => decide (fn < 65 ∧ addr < 268435456)
  | .errStatusClear fn page _ => decide (fn < 65 ∧ page < 268435456)
  | .errInject fn page _ => decide (fn < 65 ∧ page < 268435456)
  | .vfMap fn _ => decide (fn < 65)
  | .msixUnmask fn vector => decide (fn < 65 ∧ vector < 2048)
  | .keyProg stream keySet part => decide (stream < 9 ∧ keySet < 2 ∧ (part.getD (0, false)).1 < 3)
  | .kSetGo stream keySet => decide (stream < 9 ∧ keySet < 2)
  | .kSetStop stream keySet => decide (stream < 9 ∧ keySet < 2)
  | .lockInterface vf stream _ => decide ((1 ≤ vf ∧ vf ≤ 64) ∧ stream < 9)
  | .startInterface vf _ => decide ((1 ≤ vf ∧ vf ≤ 64))
  | .stopInterface vf => decide ((1 ≤ vf ∧ vf ≤ 64))
  | .getVersion _ => true
  | .getCapabilities _ _ => true
  | .negotiateAlgorithms _ _ => true
  | .getDigests _ => true
  | .getCertificate _ chain => decide (chain < 8)
  | .challenge _ _ _ => true
  | .getMeasurements _ _ _ _ _ => true
  | .keyExchange _ _ _ => true
  | .finish _ _ => true
  | .keyUpdate _ _ => true
  | .heartbeat _ => true
  | .endSession _ => true
  | .setEndpointId eid => decide (eid < 256)
  | .queryDeviceIdentifiers => true
  | .getFirmwareParameters => true
  | .requestUpdate => true
  | .passComponentTable _ _ _ => true
  | .updateComponent _ _ _ => true
  | .requestFirmwareData offset _ => decide (offset < 2 ^ 42)
  | .transferComplete _ => true
  | .verifyComplete => true
  | .applyComplete => true
  | .activateFirmware _ => true
  | .getStatus => true
  | .cancelUpdateComponent => true
  | .cancelUpdate => true
  | .setEventReceiver _ => true
  | .setNumericSensorEnable sensor _ => decide ((1 ≤ sensor ∧ sensor ≤ 78))
  | .pldmTypeDiscovery _ => true
  | .svnCommit fn _ => decide (fn < 65)
  | .generate _ => true
  | .erase => true
  | .dbgChallenge => true
  | .dbgUnlock _ => true
  | .powerOn => true
  | .powerOff => true
  | .laneDown port => decide (port < 18)
  | .idleFlit port ackSeq vc credit _ => decide (port < 18 ∧ ackSeq < 2 ^ 16 ∧ vc < 3 ∧ credit < 2 ^ 14)
  | .holdBeacon => true
  | .dgsAnswer => true
  | .pcieLinkTrained rate _ _ _ => decide (rate < 7)
  | .vfEnable count bar2Log2 _ => decide (count < 65 ∧ bar2Log2 < 64)
  | .registerRead fn addr _ => decide (fn < 65 ∧ addr < 268435456)

end Sys2Proof
end

