-- ==== Sys2Proof/Machine/Commands.lean ====
section
/-! DEFINITION. How a command's tiles are carried out: the ranges of a tile, their translation at the moment of issue
(R231, R232), the reads they need, the writes they make, and the status with which a tile ends its command
(08_commands.md). -/

namespace Sys2Proof.Machine

/-! ### Events and counters of an engine (R332, R333) -/

/-- The event counters of an engine that are enabled and select an event go up by n (R332, R336). -/
def Upd.event (e ev n : Nat) : Upd :=
  .read fun d => .when (n ≠ 0 && d.unheld) (.of fun d =>
    let add (cnt : Sparse Word64) (i : Nat) : Sparse Word64 :=
      let sel := look d.ob.sel (e * 64 + i) 0
      if bitOf sel 15 && fieldOf sel 8 0 = ev then
        put cnt (e * 64 + i) (look cnt (e * 64 + i) 0 + BitVec.ofNat 64 n) 0
      else cnt
    { d with ob := { d.ob with cnt := (List.range 64).foldl add d.ob.cnt } })

/-! ### The running command -/

/-- A command on its engine. -/
structure Env where
  e : Nat
  s : Nat
  ctx : Nat
  cmd : Cmd
deriving DecidableEq, Repr

namespace Env

/-- The key under which the slot's requests are kept. -/
def key (v : Env) : Nat := slotKey v.e v.s

/-- The field of the descriptor at an offset. -/
def fld (v : Env) (off size : Nat) : Nat := fieldAt v.cmd.desc off size

/-- The opcode. -/
def op (v : Env) : Nat := v.fld 0 1

end Env

/-- The function that owns a context. -/
def Device.ownerOf (d : Device) (ctx : Nat) : Nat := (d.ctx ctx).owner

/-- The command that runs on an engine, with its place. -/
def Device.env (d : Device) (e : Nat) : Option Env :=
  match d.running e with
  | none => none
  | some (s, c) => some ⟨e, s, (d.slot e s).ctx, c⟩

/-- A command's record of an error (R356). -/
def Env.record (v : Env) (code : Nat) (detail : List Byte := []) : FaultRec :=
  { (engRec code v.e).ofCmd v.ctx v.s v.cmd.desc with detail := detail }

/-! ### Outcomes of a tile -/

/-- What a tile does: it waits (for reads, for space), it is carried out as far as the next preemption point inside it (R261), it
is carried out and others follow, it is carried out as the last, or it ends the command with a status and the record that R356
asks for. -/
inductive TileRes where
  | wait (u : Upd)
  | part (u : Upd)
  | next (u : Upd)
  | last (u : Upd)
  | stop (st : Status) (r : Option FaultRec) (u : Upd)

/-- One range of a tile: virtual address, length, stream of R224, and whether it is written. -/
structure Rng where
  va : Nat
  len : Nat
  stream : Nat
  write : Bool := false
deriving DecidableEq, Repr

/-- What a tile does once its reads are there: the bytes of each written range in order, what else it changes, whether more of
the tile follows a preemption point (R261), and whether it is the last. -/
structure Work where
  writes : List (List Byte) := []
  extra : Upd := .skip
  more : Bool := false
  last : Bool := true

/-- The end with a translation fault (R222, R232). -/
def Env.xfault (v : Env) (f : XFault) (stream : Nat) : TileRes :=
  let addr := if f.cause = causePteUe then some (2, f.entry) else some (1, f.va)
  .stop .translationFault (some { v.record 0x020A with addr := addr, cause := f.cause, stream := stream }) .skip

/-- The end for want of a read (R215, R229, R234, R309). -/
def Env.badRead (v : Env) (b : Bad) (stream : Nat) (u : Upd := .skip) : TileRes :=
  match b with
  | .ue pa => .stop .memUe (some { v.record 0x020B (detailA pa) with addr := some (2, pa), stream := stream, injected := true }) u
  | .host a => .stop .translationFault (some { v.record 0x020A with addr := some (4, a), cause := causeHost, stream := stream }) u
  | .remote r w o =>
    .stop (if r = 5 then .memUe else .translationFault)
      (some { v.record (if r = 5 then 0x020B else 0x020A) with
        addr := some (3, w * 2 ^ 54 + o), cause := causeRemote + r * 16, stream := stream }) u
  | .lost p => .stop .peerLost (some (v.record 0x020E (detailL 0xFF p 0))) u

/-- The end with MEM_UE at a line, whose damage an injection made (log 157). -/
def Env.memUe (v : Env) (pa stream : Nat) (u : Upd := .skip) : TileRes :=
  .stop .memUe (some { v.record 0x020B (detailA pa) with addr := some (2, pa), stream := stream, injected := true }) u

/-- The translation of all ranges of a tile, in order (R232). -/
def Device.rangesOf (d : Device) (ctx : Nat) : List Rng → (XFault × Nat) ⊕ List (Rng × List Seg)
  | [] => .inr []
  | r :: rest =>
    match d.range ctx r.va r.len r.write with
    | .inl f => .inl (f, r.stream)
    | .inr segs =>
      match d.rangesOf ctx rest with
      | .inl f => .inl f
      | .inr l => .inr ((r, segs) :: l)

/-- The reads of a tile, range by range: the first failure decides with its stream, else what is missing, else the bytes
of each range. -/
def Device.readRanges (d : Device) (key fn : Nat) : List (Rng × List Seg) → (Bad × Nat) ⊕ (List Need × Bool × List (List Byte))
  | [] => .inr ([], false, [])
  | (r, segs) :: rest =>
    match d.readSegs key fn segs with
    | .bad b => .inl (b, r.stream)
    | .wait m =>
      match d.readRanges key fn rest with
      | .inl f => .inl f
      | .inr (n, _, l) => .inr (m ++ n, true, [] :: l)
    | .bytes b =>
      match d.readRanges key fn rest with
      | .inl f => .inl f
      | .inr (n, w, l) => .inr (n, w, b :: l)

/-- A read of device memory by an engine, which counts in its region (R332), and whose data crosses to it (R23). -/
def Upd.memRead (e pa : Nat) : Upd :=
  .all [.cross (memDie pa) (e / 8) .skip, .event e (if ctlOf pa ≥ 16 then 0x0C2 else if ctlOf pa / 4 = e / 8 then 0x0C0 else 0x0C1) 1]

/-- The reads of an engine's memory counters (R332, 0x0C0 to 0x0C4): one read for each segment (log 31). Their data crosses from
the region that holds it (R23). -/
def Upd.readEvents (e : Nat) (l : List Seg) : Upd :=
  .each l fun s => match s.target with
    | .mem pa _ => .memRead e pa
    | .host _ => .event e 0x0C3 1
    | .remote _ _ => .event e 0x0C4 1

/-- The bulk transfers of the tabor that read a tile's operands (R332, 0x041 and 0x042): one for each segment (log 31). -/
def Upd.bulkEvents (e : Nat) (l : List (Rng × List Seg)) : Upd :=
  let segs := (l.filter fun p => p.1.stream = 1 || p.1.stream = 2).flatMap (·.2)
  .all [.event e 0x041 segs.length, .event e 0x042 (segs.map fun s => ceilDiv s.len 64).sum]

/-- The snare transfers that move a range: pieces of 1 to 256 bytes that cross no 256-byte boundary (R277). -/
def snarePieces (va len : Nat) : Nat := (cutAt (len / 256 + 2) 256 va len).length

/-- Snare transfers of an engine: reads, writes and the bytes they move (SNR page, R277, R332). -/
def Upd.snare (e rd wr bytes : Nat) : Upd :=
  .all [.count (snrPage e + 0x60) rd, .count (snrPage e + 0x68) wr, .count (snrPage e + 0x70) bytes, .event e 0x045 (rd + wr)]

/-- Bytes that the block DMA engine reads and writes (DMA page, R332). -/
def Upd.moved (e rd wr : Nat) : Upd :=
  .all [.count (dmaPage e + 0x60) rd, .count (dmaPage e + 0x68) wr, .event e 0x083 (ceilDiv rd 64), .event e 0x084 (ceilDiv wr 64)]

/-- The limit on a tile's outstanding reads: that of the tabor's bulk transfers, unless they go by the block DMA engine or the
snare path (R265, R277). -/
def Device.bulkLimit (d : Device) (e : Nat) (l : List (Rng × List Seg)) : Option Nat :=
  if l.any fun p => p.1.stream = 1 || p.1.stream = 2 then (let b := fieldOf (d.reg (tabPage e + 0x48)) 11 8; some (if b = 0 then 8 else min 8 b)) else none

/-- An entry covers an address of a context. -/
def TlbEntry.covers (t : TlbEntry) (ctx va : Nat) : Bool := t.ctx = ctx && t.base ≤ va && va < t.base + 2 ^ t.log2

/-- Two entries translate the same page. -/
def TlbEntry.same (t u : TlbEntry) : Bool := t.ctx = u.ctx && t.base = u.base && t.log2 = u.log2

/-- An engine's translation buffer takes an entry in front; it holds 256, and pinned entries stay (R224, R256). An injection
corrupts it (R227). -/
def Upd.buffer (e : Nat) (t : TlbEntry) : Upd :=
  .inject (xltPage e) 0 fun bad => .of fun d =>
    let old := look d.xl.tlb e []
    let t := { t with bad := bad, pinned := t.pinned || old.any fun u => u.pinned && u.same t }
    let all := t :: old.filter fun u => !u.same t
    let pins := all.filter (·.pinned)
    { d with xl := { d.xl with tlb := put d.xl.tlb e (pins ++ (all.filter (!·.pinned)).take (256 - pins.length)) [] } }

/-- The entry that a lookup of an engine's buffer meets is dropped when its parity is wrong, and the lookup becomes a miss: the
error is counted (R227). -/
def Upd.dropBad (e ctx va : Nat) : Upd :=
  .read fun d => .when ((look d.xl.tlb e []).any fun t => t.covers ctx va && t.bad) (.all [
    .of fun d => { d with xl := { d.xl with tlb := put d.xl.tlb e ((look d.xl.tlb e []).filter fun t => !(t.covers ctx va && t.bad)) [] } },
    .error (xltPage e) 0 (engRec 0x0209 e) true true])

/-- The hits and misses of a tile's pages in the engine's buffer (R224, XLT page): a page that the buffer does not list
is a miss and is listed from then on. The buffer changes no translation (log 24). -/
def Upd.lookups (e ctx : Nat) (l : List Seg) : Upd :=
  .each l fun s => .all [.dropBad e ctx s.va, .read fun d =>
    if (look d.xl.tlb e []).any (·.covers ctx s.va) then .all [.count (xltPage e + 0x60), .event e 0x080 1]
    else .all [.count (xltPage e + 0x68), .event e 0x081 1,
      match d.walk (d.rootOf ctx) s.va with
      | .leaf pte log2 => .buffer e ⟨ctx, s.va / 2 ^ log2 * 2 ^ log2, log2, BitVec.ofNat 64 pte, false, false⟩
      | _ => .skip]]

/-- What the writes of a tile do: each range's bytes to its segments. -/
def Upd.writeRanges (key fn : Nat) : List (List Seg) → List (List Byte) → Upd
  | segs :: r, b :: bs => .all [.writeSegs key fn segs b, .writeRanges key fn r bs]
  | _, _ => .skip

/-- The first range of a tile whose outbound window entry fails parity: by an armed injection, or still (WIN page). -/
def Device.badWindow (d : Device) (l : List (Rng × List Seg)) : Option (Nat × Rng × Nat) :=
  l.findSome? fun p => p.2.findSome? fun s => match s.target with
    | .remote w _ => if d.isArmed winPage 1 || d.xl.winBad.contains w then some (w, p.1, s.va) else none
    | _ => none

/-- A window entry failed parity: it stays so until it is rewritten (WIN page, WIN_PARITY). -/
def Upd.windowParity (entry : Nat) : Upd :=
  .read fun d =>
    let inj := d.isArmed winPage 1
    .all [.when inj (.fire winPage 1),
      .of fun d => { d with xl := { d.xl with winBad := if d.xl.winBad.contains entry then d.xl.winBad else d.xl.winBad ++ [entry] } },
      .error winPage 1 (deviceRec 0x040B 7 (detailN (entry % 1024))) false inj]

/-- A tile: its ranges are translated (R232), no peer it needs may be LOST (R309), its reads must be there (R215, R229),
its remote writes must fit the retry store and follow earlier writes to the same bytes (R299, R300); then it does its
work. A written line that stays unwritten ends the command with MEM_UE after the others are written (R215). -/
def Device.tile (d : Device) (v : Env) (ranges : List Rng) (k : List (List Byte) → Work) : TileRes :=
  let fn := d.ownerOf v.ctx
  match d.rangesOf v.ctx ranges with
  | .inl (f, stream) => v.xfault f stream
  | .inr l =>
    let reads := l.filter fun p => !p.1.write
    let writes := (l.filter (·.1.write)).map (·.2)
    let all := l.flatMap (·.2)
    match d.badWindow l with
    | some (w, r, va) =>
      .stop .translationFault (some { v.record 0x020A with addr := some (1, va), cause := causeWinInvalid, stream := r.stream }) (.windowParity w)
    | none =>
    match d.lostPeer all with
    | some p => v.badRead (.lost p) 0xFF
    | none =>
      match d.readRanges v.key fn reads with
      | .inl (b, stream) => v.badRead b stream (.touchSegs (reads.flatMap (·.2)))
      | .inr (missing, true, _) => .wait (.issueReads v.key missing (d.bulkLimit v.e reads))
      | .inr (_, false, bytes) =>
        let out := ((l.filter (·.1.write)).head?.map (·.1.stream)).getD 3
        match d.hostWrites v.key fn writes.flatten with
        | .bad b => v.badRead b out
        | .wait m => .wait (.issueReads v.key m)
        | .bytes _ =>
        if !d.writesFit writes.flatten || d.overlapsUnretired v.key writes.flatten then
          .wait (.all [.when (!d.writesFit writes.flatten) (.flag zwlPage 7), .cur v.e v.s fun c => { c with stalled := true }])
        else
          let w := k bytes
          let segs := reads.flatMap (·.2)
          let u : Upd := .all [
            .touchSegs segs, .readEvents v.e segs, .bulkEvents v.e reads, .lookups v.e v.ctx all, .consume v.key,
            .writeRanges v.key fn writes w.writes, w.extra]
          match d.segsWriteUe writes.flatten with
          | some pa => v.memUe pa out u
          | none => if w.more then .part u else if w.last then .last u else .next u

/-- A part of a tile up to a preemption point inside it (R261): the first part is issued only when all of the tile's ranges have
translations that permit it (R232); what comes after translates its own (R223; log 25). -/
def Device.tilePart (d : Device) (v : Env) (whole part : List Rng) (k : List (List Byte) → Work) : TileRes :=
  match (if v.cmd.piece = 0 then d.rangesOf v.ctx whole else .inr []) with
  | .inl (f, stream) => v.xfault f stream
  | .inr _ => d.tile v part k

/-! ### Carrying out -/

/-- The engine acts on a slot's command: it is not in reset, and replays no other slot, the gong is not active, the slot is not frozen by a held record,
and issue is not withheld (R238, R348, R365, R428). -/
def Device.acts (d : Device) (e s : Nat) : Bool :=
  d.up && d.unheld && d.blockOn e && ((d.eng e).rst = .running || (d.eng e).rst = .replaying && (d.eng e).replay = some s) && !d.resetDue e &&
    !(d.slot e s).frozen && !(d.eng e).withheld

/-- The first tile of the command is issued (R255), and each counts (R332), once for all its parts. -/
def Upd.issued (v : Env) : Upd :=
  .all [.cur v.e v.s fun c => { c with tileIssued := true, stalled := false }, .when (v.cmd.piece = 0) (.event v.e 0x005 1)]

/-- A part of a tile is done; the command is at a preemption point (R261). -/
def Upd.partDone (v : Env) : Upd := .cur v.e v.s fun c => { c with piece := c.piece + 1 }

/-- A tile is retired: the engine has made progress (R362). -/
def Upd.retired (v : Env) : Upd :=
  .all [.cur v.e v.s fun c => { c with done := c.done + 1, piece := 0, answers := [], asked := [] },
    .read fun d => .eng v.e fun g => { g with progress := d.dieTime (v.e / 8) }]

/-- The status of the command is decided (R243 to R253); the record that R356 asks for goes with its end. The census
operations that it has sent stay on their way (R138). -/
def Upd.decide (e s : Nat) (st : Status) (r : Option FaultRec) : Upd :=
  .cur e s fun c => { c with status := some st, fault := r, answers := [] }

/-- What a tile puts to use: the operator whose units it uses, with its descriptor (for a FUSED tile those of its stage); the
stored functions it applies (R114, R132); whether it evaluates EXP2 or LOG2 (R131). -/
structure TileUse where
  op : Nat
  desc : List Byte
  fns : List Nat := []
  rom : Bool := false

/-- The units of an engine that an injection can make fail for a tile, with the error of each: page, bit, code (R100,
R101, R104, R131, R361, SNR and DMA pages, DGS.lhash_parity). Unit numbers as in armedUnit. -/
def injectable (t : TileUse) (flags : Nat) : List (Nat × Nat × Nat) :=
  let op := t.op
  let dma := [0x03, 0x04, 0x05, 0x06, 0x07, 0x0C]
  let copy := op = 0x0B ∨ op = 0x41
  let small := fieldAt t.desc 48 8 ≤ 256
  let snare := [0x03, 0x04, 0x05, 0x06, 0x07, 0x0A]
  let vec := [0x01, 0x03, 0x04, 0x05, 0x08, 0x09, 0x0A, 0x0D, 0x0E, 0x40]
  let acc := [0x03, 0x04, 0x08, 0x09, 0x0A]
  let arr := [0x01, 0x03, 0x04, 0x40]
  (if arr.contains op then [(17, 0, 0x0101), (17, 1, 0x0102)] else []) ++
  (if vec.contains op then [(16, 1, 0x0105)] else []) ++
  (if dma.contains op ∨ (copy ∧ ¬small) then [(3, 1, 0x0207)] else []) ++
  (if snare.contains op ∨ (copy ∧ small) then [(2, 0, 0x0206)] else []) ++
  (if vec.contains op then [(18, 0, 0x0106)] else []) ++ (if acc.contains op then [(18, 1, 0x0107)] else []) ++
  (if t.rom then [(19, 0, 0x0108)] else []) ++ (if t.fns ≠ [] then [(19, 1, 0x0109)] else []) ++
  (if bits flags 4 1 = 1 then [(99, 2, 0x010D)] else [])

/-- What an injected guard fault finds, for a cell and a stage: none where the model leaves the residues free (log 43), some
none where the tile meets no such check, else the row's index within its pass and the residue of the unfaulted check. -/
abbrev GuardProbe : Type := Device → Env → Nat → Nat → Option (Option (Nat × Nat))

/-- How the injections meet a command's tiles: what an injected guard fault finds, and what a tile puts to use. -/
structure Units where
  probe : GuardProbe := fun _ _ _ _ => none
  use : Device → Env → TileUse := fun _ v => { op := v.op, desc := v.cmd.desc }

/-- The first armed parity injection that a tile of the command meets: page, bit, code, cell (R361). Unit numbers below
16 are block pages, 16 + p is page p of each enabled cell, 99 the DGS page. An injection into the guard check waits for a row that
is checked, that into the group sums for a group of physical column 0 (ARR page). -/
def Device.armedUnit (d : Device) (v : Env) (u : Units) : Option (Nat × Nat × Nat × Option Nat) :=
  ((injectable (u.use d v) (fieldAt v.cmd.desc 1 1)).flatMap fun x =>
    if x.1 = 99 then [(dgsPage, x.2.1, x.2.2, (d.cellsOf v.e).head?)]
    else if x.1 < 16 then [(blockPage v.e x.1, x.2.1, x.2.2, none)]
    else (d.cellsOf v.e).map fun c => (cellPage v.e c (x.1 - 16), x.2.1, x.2.2, some c)).find?
    fun x => d.isArmed x.1 x.2.1 && !(x.2.2.1 = 0x0101 && u.probe d v (x.2.2.2.getD 0) 0 == some none) &&
        !(x.2.2.1 = 0x0102 && u.probe d v (x.2.2.2.getD 0) 2 == some none)

/-- The microprogram store's injections, met by a tile that reads a function's steps (SFU page region instance, R132): a
single-bit error is corrected and counted; a double-bit one blocks the tile until the store is rewritten. -/
def Upd.readStore (r index : Nat) (u : Upd) (blocked : Upd) : Upd :=
  .inject (sfuRegionPage r) 2 fun ce => .inject (sfuRegionPage r) 3 fun ue =>
    .all [
      .when ce (.all [.error (sfuRegionPage r) 2 { regionRec 0x0301 r with detail := detailN index } true true,
        .modReg (sfuRegionPage r + 0x40) fun w => setField w 31 16 (min (fieldOf w 31 16 + 1) 0xFFFF)]),
      if ue then .all [.error (sfuRegionPage r) 3 { regionRec 0x0302 r with detail := detailN index } false true,
        .of fun d => { d with sfu := { d.sfu with rewrite := d.sfu.rewrite ++ [(r, index)] } }, blocked]
      else u]

/-- The region's copy of the function awaits its rewrite (R132): a command that reads it waits. -/
def Device.awaitsRewrite (d : Device) (e index : Nat) : Bool := d.sfu.rewrite.contains (e / 8, index)

/-- A double-bit error in a word of the cell store stops the consuming command before the data is used (R104). -/
def Upd.storeUe (e c word : Nat) (r : FaultRec) : Upd :=
  let page := celPage e c
  .all [.read fun d => .when (!bitOf (d.reg (page + 0x48)) 31) (.setReg (page + 0x48) (BitVec.ofNat 32 (2 ^ 31 + word))),
    .resetError page 1 { r with detail := detailN word } e true true]

/-- A single-bit error in a word of the cell store is corrected, written back and counted (R104). -/
def Upd.storeFixed (e c word : Nat) : Upd :=
  .all [
    .cell e c fun x => { x with damage := x.damage.filter (·.1 ≠ word) },
    .sat (celPage e c + 0x44), .event e (0x120 + 0x40 * c) 1,
    .error (celPage e c) 0 { engRec 0x0104 e (some c) with detail := detailN word } true true]

/-- A word of the cell store that a command's tile writes first: the spec gives no place in the cell store for what a command works
on, and it is a free value (log 43). -/
def Upd.someWord (k : Nat → Upd) : Upd := .draw fun n => k ((Config.freshWord n).toNat % 2 ^ 19)

/-- A record of a cell of an engine, with the command that runs there (R356). -/
def Device.cellRec (d : Device) (code e c : Nat) : FaultRec :=
  match d.env e with
  | some v => (engRec code e (some c)).ofCmd v.ctx v.s v.cmd.desc
  | none => engRec code e (some c)

/-- The fault of a unit that an injection made fail, with what its page records: the injection adds 1 to the drain's sum, or
to the predicted group-sum residue of column 0 (R100 to R102). Residues that the probe does not give and the word address
of R104 are free values (log 43). -/
def Upd.unitFault (v : Env) (page bit code : Nat) (cell : Option Nat) (probe : GuardProbe) : Upd :=
  let r := (engRec code v.e cell).ofCmd v.ctx v.s v.cmd.desc
  let err (detail : List Byte) : Upd := .resetError page bit { r with detail := detail } v.e true true
  if code = 0x0105 then
    .someWord fun word => .storeUe v.e (cell.getD 0) word r
  else if code = 0x0101 ∨ code = 0x0102 then
    let stage := if code = 0x0101 then 0 else 2
    let found (row r : Nat) : Upd :=
      let (exp, obs) := if stage = 0 then (r, (r + 1) % 255) else ((r + 1) % 255, r)
      .all [.read fun d => .when (fieldOf (d.reg (page + 0x0C)) 1 0 = 0)
          (.all [.setReg (page + 0x58) (BitVec.ofNat 32 row), .setReg (page + 0x5C) (BitVec.ofNat 32 (exp + obs * 2 ^ 8 + stage * 2 ^ 16))]),
        err (detailG row stage exp obs 0)]
    .read fun d => match probe d v (cell.getD 0) stage with
      | some (some (row, r)) => found row r
      | _ => .draw fun n => found 0 ((Config.freshWord n).toNat % 255)
  else err []

/-- An armed single-bit flip of a cell store takes the next word that the tile writes there, which is corrected when the tile reads
it (R104, CEL.store_ce). -/
def Upd.storeCe (v : Env) : Upd :=
  .read fun d => .each (d.cellsOf v.e) fun c => .inject (celPage v.e c) 0 fun a =>
    .when a (.someWord fun word => .storeFixed v.e c word)

/-- One tile of the running command by its tile function, or a part of one: it is carried out, waits, or decides the command's
end. A tile that is carried out meets the armed injections of the units it uses first, and those of the microprogram store when
it reads steps; one whose steps await their rewrite waits (R132). -/
def Upd.oneTile (e : Nat) (ops : List Nat) (f : Device → Env → TileRes) (units : Units := {}) : Upd :=
  .read fun d =>
    match d.env e with
    | none => .skip
    | some v =>
      if !ops.contains v.op || v.cmd.status.isSome || !d.acts e v.s then .skip else
      let fns := (units.use d v).fns
      let stored (u : Upd) : Upd :=
        if fns.isEmpty then u else .readStore (e / 8) (fns.headD 0) u (.askReset e 0x0302 false)
      let run (u : Upd) : Upd :=
        if fns.any fun i => d.awaitsRewrite e i then .skip
        else match d.armedUnit v units with
        | some (page, bit, code, cell) => .all [.when (d.isArmed page bit) (.fire page bit), .unitFault v page bit code cell units.probe]
        | none => stored u
      match f d v with
      | .wait u => u
      | .part u => run (.all [.issued v, .storeCe v, u, .partDone v])
      | .next u => run (.all [.issued v, .storeCe v, u, .retired v])
      | .last u => run (.all [.issued v, .storeCe v, u, .retired v, .decide e v.s .ok none])
      | .stop st r u => .all [u, .decide e v.s st r]

/-- The tiles of the running command, n at most (log 25). -/
def Upd.tiles (e n : Nat) (ops : List Nat) (f : Device → Env → TileRes) (units : Units := {}) : Upd :=
  .times n (.oneTile e ops f units)

/-! ### Meanings -/

/-- A command's effect on the state: that of an update of the device, when the command names something the part has. The
queue is not touched. -/
def State.act (s : State) (i : Instr) (u : Upd) : Host.Outcome State Fault Refusal :=
  .next { s with dev := (Upd.when i.wf u).run s.dev }

/-- The request is for configuration space, which a function in D3hot answers too. -/
def configures (t : Tlp) : Bool := match t.space with | .config _ => true | _ => false

/-- A register write of a function that has a row of its own: a request of 4 bytes from the host (R391, R399), which crosses from IO
die A to the die of the register (R23). -/
def State.hostAct (s : State) (i : Instr) (fn : Nat) (u : Upd) (die : Nat := 6) (tlp : Tlp := {}) :
    Host.Outcome State Fault Refusal :=
  s.act i (.read fun d => .when (d.linkUp && (d.awake fn || configures tlp)) (.received fn (.all [.count (pcxPage + 0x80) tlp.len, .cross 6 die u]) tlp))

end Sys2Proof.Machine
end

