-- ==== Sys2Proof/Machine/Format.lean ====
section
/-! DEFINITION. Number formats, exact values, rounding, the defined dot product, row statistics and stochastic rounding
(02_arithmetic.md R41 to R70). -/

namespace Sys2Proof.Machine

/-- The formats of R244. -/
inductive Fmt where
  | bf16 | fp16 | e4m3 | e5m2 | fp32 | int8 | int4 | e2m1 | mxE4m3 | mxE5m2 | mxfp4 | mxint8
deriving DecidableEq, Repr

/-- The format of a code (R244). -/
def fmtOf (code : Nat) : Option Fmt :=
  [Fmt.bf16, .fp16, .e4m3, .e5m2, .fp32, .int8, .int4, .e2m1, .mxE4m3, .mxE5m2, .mxfp4, .mxint8][code]?

/-- The element format of an MX format; any other format itself (R43). -/
def Fmt.elem : Fmt → Fmt
  | .mxE4m3 => .e4m3 | .mxE5m2 => .e5m2 | .mxfp4 => .e2m1 | .mxint8 => .int8 | f => f

/-- A microscaling format. -/
def Fmt.isMx : Fmt → Bool
  | .mxE4m3 | .mxE5m2 | .mxfp4 | .mxint8 => true
  | _ => false

/-- Bits of an element (R41). -/
def Fmt.width : Fmt → Nat
  | .fp32 => 32 | .bf16 => 16 | .fp16 => 16
  | .int4 | .e2m1 | .mxfp4 => 4
  | _ => 8

/-- Exponent bits, mantissa bits and bias of a float format (R41). -/
def Fmt.params : Fmt → Nat × Nat × Int
  | .fp32 => (8, 23, 127) | .bf16 => (8, 7, 127) | .fp16 => (5, 10, 15)
  | .e4m3 | .mxE4m3 => (4, 3, 7) | .e5m2 | .mxE5m2 => (5, 2, 15) | .e2m1 | .mxfp4 => (2, 1, 1)
  | _ => (0, 0, 0)

/-- A value: NaN, an infinity, or the finite m * 2^e. -/
inductive FVal where
  | nan
  | inf (neg : Bool)
  | fin (m : Int) (e : Int)
deriving DecidableEq, Repr

/-- Zero. -/
def FVal.zero : FVal := .fin 0 0

/-- A natural number as a value. -/
def FVal.ofNat (n : Nat) : FVal := .fin n 0

/-- The number of bits of a natural number. -/
def bitLen (n : Nat) : Nat := if n = 0 then 0 else Nat.log2 n + 1

/-- m * 2^k for a k of either sign, truncated toward zero. -/
def shiftNat (m : Nat) (k : Int) : Nat := if 0 ≤ k then m * 2 ^ k.toNat else m / 2 ^ (-k).toNat

/-- Two's complement of w bits. -/
def signed (w n : Nat) : Int := if n % 2 ^ w < 2 ^ (w - 1) then (n % 2 ^ w : Nat) else (n % 2 ^ w : Nat) - (2 : Int) ^ w

/-- The value of an encoding as an operand (R41, R42, R49): subnormal BF16, FP16 and FP32 read as zero. -/
def decodeElem (f : Fmt) (n : Nat) : FVal :=
  match f with
  | .int8 => .fin (signed 8 n) 0
  | .int4 => .fin (signed 4 n) 0
  | .mxint8 => .fin (signed 8 n) (-6)
  | f =>
    let (eb, mb, bias) := f.params
    let neg := bits n (eb + mb) 1 = 1
    let ex := bits n mb eb
    let man := bits n 0 mb
    let top := 2 ^ eb - 1
    let sg (m : Nat) : Int := if neg then -(m : Int) else m
    match f.elem with
    | .e2m1 => if ex = 0 then .fin (sg man) (1 - bias - mb) else .fin (sg (2 ^ mb + man)) (ex - bias - mb)
    | .e4m3 =>
      if ex = top ∧ man = 7 then .nan
      else if ex = 0 then .fin (sg man) (1 - bias - mb) else .fin (sg (2 ^ mb + man)) (ex - bias - mb)
    | .e5m2 =>
      if ex = top then (if man = 0 then .inf neg else .nan)
      else if ex = 0 then .fin (sg man) (1 - bias - mb) else .fin (sg (2 ^ mb + man)) (ex - bias - mb)
    | _ =>
      if ex = top then (if man = 0 then .inf neg else .nan)
      else if ex = 0 then .zero else .fin (sg (2 ^ mb + man)) (ex - bias - mb)

/-! ### Exact arithmetic -/

/-- The exact sum (R60): NaN from a NaN or from infinities of both signs. -/
def FVal.add : FVal → FVal → FVal
  | .nan, _ | _, .nan => .nan
  | .inf a, .inf b => if a = b then .inf a else .nan
  | .inf a, _ | _, .inf a => .inf a
  | .fin m e, .fin n f =>
    if m = 0 then .fin n f else if n = 0 then .fin m e
    else
      let b := min e f
      .fin (m * 2 ^ (e - b).toNat + n * 2 ^ (f - b).toNat) b

/-- The exact product (R58): NaN from a NaN or from infinity times zero. -/
def FVal.mul : FVal → FVal → FVal
  | .nan, _ | _, .nan => .nan
  | .inf a, .inf b => .inf (a != b)
  | .inf a, .fin m _ | .fin m _, .inf a => if m = 0 then .nan else .inf (a != decide (m < 0))
  | .fin m e, .fin n f => if m = 0 ∨ n = 0 then .zero else .fin (m * n) (e + f)

/-- The negation. -/
def FVal.neg : FVal → FVal
  | .nan => .nan
  | .inf a => .inf (!a)
  | .fin m e => .fin (-m) e

/-- The magnitude. -/
def FVal.abs : FVal → FVal
  | .nan => .nan
  | .inf _ => .inf false
  | .fin m e => .fin m.natAbs e

/-- The value is NaN. -/
def FVal.isNan : FVal → Bool
  | .nan => true
  | _ => false

/-- The value is finite. -/
def FVal.isFin : FVal → Bool
  | .fin _ _ => true
  | _ => false

/-- The value is zero. -/
def FVal.isZero : FVal → Bool
  | .fin m _ => m = 0
  | _ => false

/-- a < b for values that are not NaN. -/
def FVal.lt : FVal → FVal → Bool
  | .nan, _ | _, .nan => false
  | .inf a, .inf b => a && !b
  | .inf a, .fin _ _ => a
  | .fin _ _, .inf b => !b
  | .fin m e, .fin n f =>
    let b := min e f
    decide (m * 2 ^ (e - b).toNat < n * 2 ^ (f - b).toNat)

/-- The value scaled by 2^k. -/
def FVal.scale (v : FVal) (k : Int) : FVal :=
  match v with
  | .fin m e => .fin m (e + k)
  | v => v

/-- The exponent of the leading bit of a nonzero magnitude m * 2^e. -/
def leadExp (m : Nat) (e : Int) : Int := e + bitLen m - 1

/-! ### Rounding (R52, R69) -/

/-- m * 2^e rounded to multiples of 2^lsb: to nearest even, or stochastically by a random word (R69). -/
def roundAt (m : Nat) (e lsb : Int) (rand : Option Nat) : Nat :=
  if lsb ≤ e then m * 2 ^ (e - lsb).toNat
  else
    let d := (lsb - e).toNat
    let q := m / 2 ^ d
    let f := m % 2 ^ d
    match rand with
    | none => if 2 * f > 2 ^ d ∨ (2 * f = 2 ^ d ∧ q % 2 = 1) then q + 1 else q
    | some u =>
      let d' := min d 32
      let f' := f / 2 ^ (d - d')
      if f' + u / 2 ^ (32 - d') ≥ 2 ^ d' then q + 1 else q

/-- The largest finite magnitude of a float format as m * 2^e (R41). -/
def Fmt.largest (f : Fmt) : Nat × Int :=
  match f.elem with
  | .e4m3 => (14, 5)
  | f =>
    let (eb, mb, bias) := f.params
    if f = .e2m1 then (3, 1) else (2 ^ (mb + 1) - 1, (2 ^ eb - 2 : Int) - bias - mb)

/-- The pattern of infinity, or of the largest finite value for the formats that have none (R41, R52 step 4). -/
def Fmt.infPattern (f : Fmt) : Nat :=
  match f.elem with
  | .fp32 => 0x7F800000 | .bf16 => 0x7F80 | .fp16 => 0x7C00 | .e4m3 => 0x7E | .e5m2 => 0x7C | .e2m1 => 7 | _ => 0

/-- The pattern of the largest finite value (R41). -/
def Fmt.maxPattern (f : Fmt) : Nat :=
  match f.elem with
  | .fp32 => 0x7F7FFFFF | .bf16 => 0x7F7F | .fp16 => 0x7BFF | .e4m3 => 0x7E | .e5m2 => 0x7B | .e2m1 => 7 | _ => 0

/-- The canonical NaN (R51); a format without NaN writes zero (R54). -/
def Fmt.nanPattern (f : Fmt) : Nat :=
  match f.elem with
  | .fp32 => 0x7FC00000 | .bf16 => 0x7FC0 | .fp16 => 0x7E00 | .e4m3 => 0x7F | .e5m2 => 0x7E | _ => 0

/-- The sign bit of a float format. -/
def Fmt.signBit (f : Fmt) : Nat := 2 ^ (f.width - 1)

/-- The magnitude m * 2^e in a float format, rounded and range-limited (R52), without its sign. -/
def encodeMag (f : Fmt) (m : Nat) (e : Int) (rand : Option Nat) : Nat :=
  let (_, mb, bias) := f.params
  let wide := f.width ≥ 16
  let lead := leadExp m e
  let lsb := if wide then lead - mb else max (lead - mb) (1 - bias - mb)
  let r := roundAt m e lsb rand
  if r = 0 then 0
  else
    let lead := leadExp r lsb
    let big := f.largest
    if lead < 1 - bias then (if wide then 0 else r)
    else if big.1 * 2 ^ (big.2 - min big.2 lsb).toNat < r * 2 ^ (lsb - min big.2 lsb).toNat then
      (if wide then f.infPattern else f.maxPattern)
    else (lead + bias).toNat * 2 ^ mb + (shiftNat r (lsb - (lead - mb)) - 2 ^ mb)

/-- A value converted to an integer of w bits (R53). -/
def encodeInt (w : Nat) (v : FVal) (rand : Option Nat) : Nat :=
  let top : Int := 2 ^ (w - 1) - 1
  let clamp (n : Int) : Nat := ((max (-top - 1) (min top n)) % 2 ^ w).toNat
  match v with
  | .nan => 0
  | .inf neg => clamp (if neg then -top - 1 else top)
  | .fin m e =>
    let r := roundAt m.natAbs e 0 rand
    clamp (if m < 0 then -(r : Int) else r)

/-- A value converted to an element (R52, R53): nearest even, or stochastic by a random word. -/
def encodeElem (f : Fmt) (v : FVal) (rand : Option Nat := none) : Nat :=
  match f.elem with
  | .int8 => encodeInt 8 v rand
  | .int4 => encodeInt 4 v rand
  | f =>
    match v with
    | .nan => f.nanPattern
    | .inf neg => f.infPattern + (if neg then f.signBit else 0)
    | .fin m e =>
      if m = 0 then 0
      else
        let p := encodeMag f m.natAbs e rand
        if p = 0 then 0 else p + (if m < 0 then f.signBit else 0)

/-- The exact value rounded once to FP32, nearest even (R52, R63). -/
def FVal.round (v : FVal) : FVal :=
  match v with
  | .fin m e =>
    if m = 0 then .zero
    else
      let lead := leadExp m.natAbs e
      let r := roundAt m.natAbs e (lead - 23) none
      let lead' := leadExp r (lead - 23)
      if lead' < -126 then .zero
      else if lead' ≥ 128 then .inf (m < 0)
      else .fin (if m < 0 then -(r : Int) else r) (lead - 23)
  | v => v

/-- The FP32 pattern of a value (R50, R51). -/
def FVal.bits32 (v : FVal) : Nat := encodeElem .fp32 v

/-- The value of an FP32 pattern (R49). -/
def f32 (n : Nat) : FVal := decodeElem .fp32 n

/-- FP32 addition, multiplication and fused multiply-add (R60, R63). -/
def fadd (a b : FVal) : FVal := (a.add b).round
def fsub (a b : FVal) : FVal := (a.add b.neg).round
def fmul (a b : FVal) : FVal := (a.mul b).round
def fma (a b c : FVal) : FVal := ((a.mul b).add c).round

/-- The exact quotient of a finite value by a positive count, rounded once to FP32 (R65). -/
def FVal.divNat (v : FVal) (n : Nat) : FVal :=
  match v with
  | .fin m e =>
    if n = 0 then .nan else
    let k := 30 + bitLen n
    let a := m.natAbs * 2 ^ k
    let q := 2 * (a / n) + (if a % n = 0 then 0 else 1)
    (FVal.fin (if m < 0 then -(q : Int) else q) (e - k - 1)).round
  | v => v

/-! ### Philox (R70) -/

/-- One round of Philox4x32. -/
def philoxRound (c : Nat × Nat × Nat × Nat) (k0 k1 : Nat) : Nat × Nat × Nat × Nat :=
  let (c0, c1, c2, c3) := c
  let p0 := 0xD2511F53 * c0
  let p1 := 0xCD9E8D57 * c2
  (Nat.xor (Nat.xor (p1 / 2 ^ 32) c1) k0, p1 % 2 ^ 32, Nat.xor (Nat.xor (p0 / 2 ^ 32) c3) k1, p0 % 2 ^ 32)

/-- n rounds from the keys on. -/
def philoxRounds (n : Nat) (c : Nat × Nat × Nat × Nat) (k0 k1 : Nat) : Nat × Nat × Nat × Nat :=
  match n with
  | 0 => c
  | n + 1 => philoxRounds n (philoxRound c k0 k1) ((k0 + 0x9E3779B9) % 2 ^ 32) ((k1 + 0xBB67AE85) % 2 ^ 32)

/-- Philox4x32-10 of a counter under a 64-bit key. -/
def philox (c : Nat × Nat × Nat × Nat) (seed : Nat) : Nat × Nat × Nat × Nat :=
  philoxRounds 10 c (seed % 2 ^ 32) (seed / 2 ^ 32 % 2 ^ 32)

/-- Word i of the four. -/
def word4 (w : Nat × Nat × Nat × Nat) (i : Nat) : Nat :=
  match i with
  | 0 => w.1 | 1 => w.2.1 | 2 => w.2.2.1 | _ => w.2.2.2

/-- The random word of the output element with canonical index i (R70). -/
def roundingWord (seed i : Nat) : Nat := word4 (philox (i / 4 % 2 ^ 32, i / 4 / 2 ^ 32, 1, 0) seed) (i % 4)

/-! ### Rows in memory (R55, R73) -/

/-- The element patterns of a row of n elements; 4-bit elements pack two per byte, the lower index in bits 3:0. -/
def unpackElems (f : Fmt) (l : List Byte) (n : Nat) : List Nat :=
  match f.width with
  | 4 => (List.range n).map fun i => bits (fieldAt l (i / 2) 1) (4 * (i % 2)) 4
  | w => (List.range n).map fun i => fieldAt l (i * (w / 8)) (w / 8)

/-- Two 4-bit elements per byte. -/
def packNibbles : List Nat → List Byte
  | [] => []
  | [a] => [BitVec.ofNat 8 a]
  | a :: b :: r => BitVec.ofNat 8 (a + 16 * b) :: packNibbles r

/-- The bytes of element patterns. -/
def packElems (f : Fmt) (l : List Nat) : List Byte :=
  match f.width with
  | 4 => packNibbles l
  | w => l.flatMap (toBytes (w / 8))

/-- The bytes that n elements take (without MX scales). -/
def elemBytes (f : Fmt) (n : Nat) : Nat := ceilDiv (n * f.width) 8

/-- The bytes of an output row of n elements, MX scales included (R55). -/
def rowBytes (f : Fmt) (n : Nat) : Nat := elemBytes f n + (if f.isMx then ceilDiv n 32 else 0)

/-- The exponent of the largest normal value of an MX element format (R55 step 1). -/
def Fmt.eMax (f : Fmt) : Int :=
  match f.elem with
  | .e4m3 => 8 | .e5m2 => 15 | .e2m1 => 2 | _ => 0

/-- The exponent of the leading bit of a nonzero finite value. -/
def FVal.lead (v : FVal) : Int :=
  match v with
  | .fin m e => leadExp m.natAbs e
  | _ => 0

/-- The scale byte of an MX block (R55 steps 1, 2 and 4). -/
def mxScale (f : Fmt) (block : List FVal) : Nat :=
  if block.any fun v => !v.isFin then 0xFF
  else
    let nz := block.filter fun v => !v.isZero
    match nz with
    | [] => 0
    | v :: r =>
      let top := r.foldl (fun a w => max a w.lead) v.lead
      (max 0 (min 254 (top - f.eMax + 127))).toNat

/-- The element patterns of an MX block under its scale (R55 steps 3 and 4); rand gives each element's random word. -/
def mxElems (f : Fmt) (scale : Nat) (block : List FVal) (rand : List (Option Nat)) : List Nat :=
  if scale = 0xFF then block.map fun _ => 0
  else (block.zip rand).map fun p =>
    encodeElem f.elem (p.1.scale (127 - scale + (if f = .mxint8 then 6 else 0))) p.2

/-- A list cut into pieces of k; n is at least the number of pieces. -/
def chunksOf {α : Type} (n k : Nat) (l : List α) : List (List α) :=
  match n with
  | 0 => []
  | n + 1 => if l.isEmpty then [] else l.take k :: chunksOf n k (l.drop k)

/-- A list cut into pieces of k elements. -/
def pieces {α : Type} (k : Nat) (l : List α) : List (List α) := chunksOf l.length k l

/-- The bytes of an output row, and whether a NaN became a number (R54, R55). -/
def encodeRow (f : Fmt) (row : List FVal) (rand : List (Option Nat)) : List Byte × Bool :=
  if f.isMx then
    let blocks := (pieces 32 row).zip (pieces 32 rand)
    let scales := blocks.map fun b => mxScale f b.1
    let elems := (blocks.zip scales).flatMap fun b => mxElems f b.2 b.1.1 b.1.2
    (packElems f elems ++ scales.map (BitVec.ofNat 8), false)
  else
    (packElems f ((row.zip rand).map fun p => encodeElem f p.1 p.2),
      (f = .int8 || f = .int4 || f = .e2m1) && row.any FVal.isNan)

/-- The random words of an output row whose first element has canonical index i: none when rounding is to nearest. -/
def rowRand (stochastic : Bool) (seed i n : Nat) : List (Option Nat) :=
  (List.range n).map fun k => if stochastic then some (roundingWord seed (i + k)) else none

/-- The values of an operand row of n elements with its E8M0 scales (empty for other formats): an element under scale
0xFF is NaN (R43, R49). The scale itself is left to R59. -/
def decodeRow (f : Fmt) (l : List Byte) (n : Nat) (scales : List Byte) : List FVal :=
  let vals := (unpackElems f l n).map (decodeElem (if f = .mxint8 then .mxint8 else f.elem))
  if f.isMx then
    (vals.zip (List.range n)).map fun p => if fieldAt scales (p.2 / 32) 1 = 0xFF then .nan else p.1
  else vals

/-! ### The dot product (R47, R56 to R61) -/

/-- The classes of R47. -/
inductive FmtClass where
  | f16 | f8 | f4 | i8 | i4
deriving DecidableEq, Repr

def Fmt.cls : Fmt → Option FmtClass
  | .bf16 | .fp16 => some .f16
  | .e4m3 | .e5m2 | .mxE4m3 | .mxE5m2 => some .f8
  | .e2m1 | .mxfp4 => some .f4
  | .int8 | .mxint8 => some .i8
  | .int4 => some .i4
  | .fp32 => none

/-- The paths of R47. -/
inductive Path where
  | wide | narrow | integer
deriving DecidableEq, Repr

/-- The rate and path of a pairing; none when it is not permitted (R47, R48). -/
def pairing (a b : Fmt) : Option (Nat × Path) :=
  match a.cls, b.cls with
  | some .f16, some .f16 | some .f16, some .f8 | some .f16, some .f4
  | some .f8, some .f16 | some .f4, some .f16 => some (1, .wide)
  | some .f8, some .f8 | some .f8, some .f4 | some .f4, some .f8 => some (2, .narrow)
  | some .f4, some .f4 => some (4, .narrow)
  | some .i8, some .i8 | some .i8, some .i4 | some .i4, some .i8 => some (2, .integer)
  | some .i4, some .i4 => some (4, .integer)
  | _, _ => none

/-- The value of a group of special products: the first rule of R58 that applies; none when no rule does. -/
def specialGroup (ps : List (FVal × FVal)) : Option FVal :=
  let prods := ps.map fun p => p.1.mul p.2
  if prods.any FVal.isNan then some .nan
  else
    let pos := prods.contains (.inf false)
    let neg := prods.contains (.inf true)
    if pos && neg then some .nan
    else if pos then some (.inf false)
    else if neg then some (.inf true)
    else none

/-- The value of a group before its rounding: S and the exponent of its unit (R57 steps 1 to 4). -/
def groupSum (path : Path) (ps : List (FVal × FVal)) : Int × Int :=
  let prods := ps.filterMap fun p => match p.1.mul p.2 with
    | .fin m e => if m = 0 then none else some (m, e)
    | _ => none
  match prods with
  | [] => (0, 0)
  | p :: r =>
    let lead (q : Int × Int) : Int := leadExp q.1.natAbs q.2
    let top := r.foldl (fun a q => max a (lead q)) (lead p)
    let b := match path with
      | .wide => top - 47
      | .narrow => top - 63
      | .integer => r.foldl (fun a q => min a q.2) p.2
    (prods.foldl (fun s q => s + (if q.1 < 0 then -(shiftNat q.1.natAbs (q.2 - b) : Int) else shiftNat q.1.natAbs (q.2 - b))) 0, b)

/-- The FP32 value of a group with the scaling exponent sigma (R57 step 5, R58, R59). -/
def groupValue (path : Path) (sigma : Int) (ps : List (FVal × FVal)) : FVal :=
  match specialGroup ps with
  | some v => v
  | none =>
    let s := groupSum path ps
    (FVal.fin s.1 (s.2 + sigma)).round

/-- The groups of 32 of a range of K, accumulated from an initial value (R57, R60). sa and sw give the E8M0 scale of
each group, 127 for an operand without scales. -/
def accumulate (path : Path) (acc : FVal) (a w : List FVal) (sa sw : List Nat) : FVal :=
  ((pieces 32 (a.zip w)).zip (sa.zip sw)).foldl
    (fun acc g => fadd acc (groupValue path ((g.2.1 : Int) - 127 + ((g.2.2 : Int) - 127)) g.1)) acc

/-- One level of the pairwise combination (R61). -/
def pairUp : List FVal → List FVal
  | a :: b :: r => fadd a b :: pairUp r
  | l => l

/-- Levels until one value remains; n is at least the number of levels. -/
def pairwise (n : Nat) (l : List FVal) : FVal :=
  match n with
  | 0 => l.headD .zero
  | n + 1 => if l.length ≤ 1 then l.headD .zero else pairwise n (pairUp l)

/-- The partitions combined (R61): shape 0 serial, 1 pairwise. -/
def combine (shape : Nat) (l : List FVal) : FVal :=
  if shape = 0 then
    match l with
    | [] => .zero
    | a :: r => r.foldl fadd a
  else pairwise 7 l

/-! ### Row statistics (R64 to R68) -/

/-- The exact sum of a row (R64): NaN and infinities by its flags. -/
def exactSum (l : List FVal) : FVal := l.foldl FVal.add .zero

/-- A value added to a row accumulator (R64): an infinity or a NaN sets its flag and leaves the register. -/
def RowAcc.add (a : RowAcc) : FVal → RowAcc
  | .nan => { a with nan := true }
  | .inf true => { a with negInf := true }
  | .inf false => { a with posInf := true }
  | .fin m e =>
    { a with sum := a.sum + BitVec.ofInt 304 (if -149 ≤ e then m * 2 ^ (e + 149).toNat else m / 2 ^ (-149 - e).toNat) }

/-- What a row accumulator holds after some values, from empty. -/
def RowAcc.of (l : List FVal) : RowAcc := l.foldl RowAcc.add {}

/-- Row sum, mean and variance (R65 to R68). -/
def rowSum (l : List FVal) : FVal := (exactSum l).round
def rowMean (l : List FVal) : FVal := (exactSum l).divNat l.length

/-- The squares of a row's deviations, each rounded (R66). -/
def rowSquares (l : List FVal) (mean : FVal) : List FVal := l.map fun x => let dev := fsub x mean; fmul dev dev
def rowVariance (l : List FVal) : FVal :=
  let mean := rowMean l
  if !(exactSum l).isFin then .nan
  else
    (exactSum (rowSquares l mean)).divNat l.length

/-! ### The residue check of the arrays (R98 to R101) -/

/-- The signed significand m of an operand (R56, R98): zero for a NaN and an infinity. -/
def FVal.sig : FVal → Int
  | .fin m _ => m
  | _ => 0

/-- The residue modulo 255 of an integer (R98). -/
def residue (x : Int) : Nat := (x % 255).toNat

/-- The guard residues of a tile whose columns are given: entry k is the residue of the sum of the significands at K index
k over the columns (R99). -/
def guardResidues (len : Nat) (cols : List (List FVal)) : List Nat :=
  (List.range len).map fun k => residue (cols.map fun c => (c.getD k .zero).sig).sum

/-- The significand sum of a column for an activation row (R100). -/
def sigSum (row col : List FVal) : Int := ((row.zip col).map fun p => p.1.sig * p.2.sig).sum

/-- What the guard column forms for an activation row (R100). -/
def guardSum (row : List FVal) (g : List Nat) : Nat := residue ((row.zip g).map fun p => p.1.sig * (p.2 : Int)).sum

/-- The drain's sum of the columns' residues (R100). -/
def drainSum (row : List FVal) (cols : List (List FVal)) : Nat := residue (cols.map fun c => (residue (sigSum row c) : Int)).sum

/-- The predicted residue of a product's aligned integer, none of whose bits is truncated: ρ(M) * 2^((L - B) mod 8), with the
sign applied (R101). -/
def alignResidue (m e base : Int) : Nat := residue (m.sign * (residue m.natAbs * 2 ^ ((e - base) % 8).toNat))

/-- The nonzero products of a group as their column aligns them to the group's window base: significand, exponent, T (R57
steps 1 to 3). -/
def alignedProducts (path : Path) (ps : List (FVal × FVal)) : List (Int × Int × Int) :=
  let b := (groupSum path ps).2
  ps.filterMap fun p => match p.1.mul p.2 with
    | .fin m e => if m = 0 then none else some (m, e, if m < 0 then -(shiftNat m.natAbs (e - b) : Int) else shiftNat m.natAbs (e - b))
    | _ => none

/-- The alignment check of a group (R101, stage 1): predicted and actual residue of the first product that differs. A product
with a truncated bit that is not zero is excluded. -/
def alignFault (path : Path) (ps : List (FVal × FVal)) : Option (Nat × Nat) :=
  let b := (groupSum path ps).2
  (alignedProducts path ps).findSome? fun q =>
    let whole := b ≤ q.2.1 || (q.1.natAbs % 2 ^ (b - q.2.1).toNat = 0)
    if whole && residue q.2.2 ≠ alignResidue q.1 q.2.1 b then some (alignResidue q.1 q.2.1 b, residue q.2.2) else none

/-- The predicted group-sum residue of a group that R57 sums, from the residues of its T; none for a group with a special
operand (R58, R101). -/
def groupResidue (path : Path) (ps : List (FVal × FVal)) : Option Nat :=
  if (specialGroup ps).isSome then none
  else some (residue ((alignedProducts path ps).map fun q => (residue q.2.2 : Int)).sum)

/-- The group-sum check of a group (R101, stage 2): predicted and actual residue where they differ. -/
def groupFault (path : Path) (ps : List (FVal × FVal)) : Option (Nat × Nat) :=
  match groupResidue path ps with
  | some x => if x ≠ residue (groupSum path ps).1 then some (x, residue (groupSum path ps).1) else none
  | none => none

/-- What the own checks of the columns find for a row: stage, column, expected and observed residue (R101). -/
def columnFault (path : Path) (row : List FVal) (cols : List (List FVal)) : Option (Nat × Nat × Nat × Nat) :=
  (cols.zip (List.range cols.length)).findSome? fun c => (pieces 32 (row.zip c.1)).findSome? fun g =>
    if (specialGroup g).isSome then none
    else match alignFault path g with
      | some x => some (1, c.2, x.1, x.2)
      | none => (groupFault path g).map fun x => (2, c.2, x.1, x.2)

/-! ### Exact quotients (R185, R186) -/

/-- The quotient of finite values, with a last bit that says that it is not exact: 80 significant bits and more, so that
every later rounding comes out as of the exact quotient. A quotient by an infinity is zero. -/
def FVal.quot (a b : FVal) : FVal :=
  match a, b with
  | .fin m e, .fin n f =>
    if m = 0 ∨ n = 0 then .zero
    else
      let k := 80 + bitLen n.natAbs
      let x := m.natAbs * 2 ^ k
      let q := 2 * (x / n.natAbs) + (if x % n.natAbs = 0 then 0 else 1)
      .fin (if (m < 0) = (n < 0) then (q : Int) else -(q : Int)) (e - f - k - 1)
  | _, _ => .zero

end Sys2Proof.Machine
end

