-- ==== Sys2Proof/Machine/Operands.lean ====
section
/-! DEFINITION. The descriptors of the commands: their fields and the checks made at decode (R240 to R252, R273, R280,
R281, and the layouts of the other chapters). A command with both a field out of range and a shape that its rule calls
SHAPE_INVALID is rejected with OPERAND_FORMAT (log 26). -/

namespace Sys2Proof.Machine

/-! ### Opcodes (R241) -/

abbrev opNop : Nat := 0x00
abbrev opMatmul : Nat := 0x01
abbrev opFused : Nat := 0x02
abbrev opPrefill : Nat := 0x03
abbrev opDecode : Nat := 0x04
abbrev opAppend : Nat := 0x05
abbrev opFork : Nat := 0x06
abbrev opFree : Nat := 0x07
abbrev opNorm : Nat := 0x08
abbrev opSoftmax : Nat := 0x09
abbrev opSample : Nat := 0x0A
abbrev opCopy : Nat := 0x0B
abbrev opTranspose : Nat := 0x0C
abbrev opRope : Nat := 0x0D
abbrev opMicroprog : Nat := 0x0E
abbrev opWeight : Nat := 0x0F
abbrev opBind : Nat := 0x10
abbrev opSignal : Nat := 0x11
abbrev opWait : Nat := 0x12
abbrev opCounter : Nat := 0x13
abbrev opDigest : Nat := 0x14
abbrev opU4Gemm : Nat := 0x40
abbrev opU4Copy : Nat := 0x41
abbrev opU4Add : Nat := 0x42
abbrev opU4Wait : Nat := 0x43

/-- The command set (R241). -/
def opcodes : List Nat := List.range 0x15 ++ [0x40, 0x41, 0x42, 0x43]

/-- A wait on bells. -/
def isWait (op : Nat) : Bool := op = opWait || op = opU4Wait

/-- The bits of the flags byte (R242). -/
def flagBit (desc : List Byte) (b : Nat) : Bool := bits (fieldAt desc 1 1) b 1 = 1
def isFence (desc : List Byte) : Bool := flagBit desc 0

/-! ### Bells (R280, R281) -/

/-- A bell name that carries the device's own identifier, read as the local name (R280). -/
def ownBell (own : Option Nat) (name : Nat) : Nat :=
  if bits name 31 1 = 1 && own = some (bits name 18 13) then bits name 0 18 else name

/-- The device's own identifier while it is valid (ZWL.DEV_ID). -/
def Device.ownId (d : Device) : Option Nat :=
  let id := d.control (zwlPage + 0x40)
  if bitOf id 31 then some (fieldOf id 12 0) else none

/-- A bell name as a decode now reads it. -/
def Device.bellName (d : Device) (name : Nat) : Nat := ownBell d.ownId name

/-- The bell name may not be carried by a command of a context (R281); waits and U4_BELL_ADD take local names only. -/
def Device.badBell (d : Device) (ctx name : Nat) (localOnly : Bool) : Bool :=
  let n := d.bellName name
  let remote := bits n 31 1 = 1
  let grp := look d.bl.groups (bits n 15 2 * 512 + bits n 6 9) 0
  bits n 17 1 = 1 || (!remote && bits n 18 13 ≠ 0) || (remote && localOnly) ||
    (!remote && (!bitOf grp 31 || fieldOf grp 23 16 ≠ ctx))

/-! ### Checks -/

/-- Bytes of a descriptor that are not all zero. -/
def dirty (desc : List Byte) (off size : Nat) : Bool := ((desc.drop off).take size).any (· ≠ 0)

/-- A number outside a range. -/
def outside (n lo hi : Nat) : Bool := n < lo || hi < n

/-- An FP32 pattern that is not finite and positive as read under R49. -/
def notPositive (n : Nat) : Bool := !((f32 n).isFin && FVal.zero.lt (f32 n))

/-- An FP32 pattern that is negative, infinite or NaN as read under R49. -/
def notNonNegative (n : Nat) : Bool := !(f32 n).isFin || (f32 n).lt .zero

/-- What a check list finds: the conditions that make a format error and those that make a shape error. -/
structure Checks where
  format : List Bool := []
  shape : List Bool := []

/-- The status of the checks. -/
def Checks.status (c : Checks) : Status :=
  if c.format.any id then .operandFormat else if c.shape.any id then .shapeInvalid else .ok

/-- The longest row that a row accumulator takes (R64). -/
abbrev maxRow : Nat := 1048576

/-- The reduction plan of a matrix command is not allowed (R61). -/
def badPlan (parts kp k : Nat) : Bool :=
  outside parts 1 64 || (parts > 1 && (kp = 0 || kp % 32 ≠ 0 || !((parts - 1) * kp < k && k ≤ parts * kp)))

/-- MATMUL and U4_GEMM (R245 to R247, R252). off is where the checks of the header begin: a stage of a fused command has
the same fields (R274). A relay address may stand for activation and output rows there. -/
def checkMatmul (d : Device) (e : Nat) (x : List Byte) (u4 : Bool) : Checks :=
  let f := fieldAt x
  let set := bits (f 115 1) 0 1 = 1
  let aFmt := fmtOf (f 108 1)
  let wFmt := fmtOf (f 109 1)
  let noPair := match aFmt, wFmt with
    | some a, some w => (pairing a w).isNone
    | _, _ => true
  { format := [dirty x 125 3, f 80 4 = 0, outside (f 84 4) 1 (2 ^ 24), outside (f 88 4) 1 (2 ^ 24), f 96 4 % 64 ≠ 0,
      f 100 4 % 64 ≠ 0, f 108 1 = 4 || f 108 1 > 11, f 110 1 > 11, f 111 1 / 32 ≠ 0, bits (f 111 1) 0 2 = 3,
      f 114 1 > 1, f 115 1 > 1, badPlan (f 113 1) (f 92 4) (f 88 4),
      if set then f 109 1 ≠ 0 || dirty x 53 3 else f 109 1 = 4 || f 109 1 > 7 || noPair,
      u4 && (f 72 8 ≠ 0 || f 111 1 ≠ 0 || f 112 1 ≠ 0 || f 114 1 ≠ 0 || f 115 1 ≠ 0 || f 113 1 ≠ 1 || flagBit x 6)],
    shape := [f 124 1 > d.minWidth e] }

/-- NORM, SOFTMAX and SAMPLE (R248, R64, R125, R127, R129). -/
def checkRows (op : Nat) (x : List Byte) : Checks :=
  let f := fieldAt x
  let n := f 64 4
  let common := [dirty x 104 24, f 68 4 = 0, f 72 4 % 64 ≠ 0, f 92 1 > 4, op ≠ opSoftmax && n = 0]
  let more :=
    if op = opNorm then
      [dirty x 84 8, f 76 4 % 64 ≠ 0, f 93 1 > 11, f 94 1 > 1, f 95 1 > 3, notNonNegative (f 80 4)]
    else if op = opSoftmax then
      [dirty x 56 8, dirty x 84 8, f 76 4 % 64 ≠ 0, f 93 1 > 11, f 94 1 ≠ 0, f 95 1 > 1, notPositive (f 80 4)]
    else
      [dirty x 48 16, dirty x 76 4, dirty x 93 1, dirty x 95 1, f 94 1 > 1, f 88 4 > 65536,
        f 94 1 = 1 && (notPositive (f 80 4) || (f32 (f 84 4)).isNan)]
  { format := common ++ more, shape := [n > maxRow] }

/-- ROPE and MICROPROG (R249). -/
def checkElem (op : Nat) (x : List Byte) : Checks :=
  let f := fieldAt x
  if op = opRope then
    { format := [dirty x 64 8, outside (f 72 8) 1 (2 ^ 32 - 1), outside (f 80 2) 1 1024, outside (f 82 2) 2 256,
        f 82 2 % 2 ≠ 0, dirty x 84 1, f 85 1 > 4, f 86 1 > 4, f 87 1 > 3, dirty x 96 32] }
  else
    { format := [outside (f 72 8) 1 (2 ^ 40), dirty x 80 4, f 85 1 > 4, f 86 1 > 11, f 87 1 ≠ 0 && f 87 1 ≠ 2, dirty x 96 32] }

/-- COPY, U4_COPY and TRANSPOSE (R250). -/
def checkCopy (op : Nat) (x : List Byte) : Checks :=
  let f := fieldAt x
  if op = opTranspose then
    { format := [dirty x 48 8, outside (f 56 4) 1 (2 ^ 24), outside (f 60 4) 1 (2 ^ 24),
        f 72 1 ≠ 1 && f 72 1 ≠ 2 && f 72 1 ≠ 4, dirty x 73 55] }
  else
    { format := [outside (f 48 8) 1 (2 ^ 40), dirty x 56 72, f 32 8 < f 40 8 + f 48 8 && f 40 8 < f 32 8 + f 48 8] }

/-- BELL_SIGNAL, BELL_WAIT, U4_BELL_ADD and U4_BELL_WAIT (R251, R252, R281). -/
def checkBells (d : Device) (ctx op : Nat) (x : List Byte) : Checks :=
  let f := fieldAt x
  let n := f 96 1
  let one := op = opU4Add || op = opU4Wait
  { format := [outside n 1 (if one then 1 else 4), dirty x 97 3, dirty x 104 24,
      if op = opWait then false else dirty x 100 4, dirty x (32 + 16 * min n 4) (64 - 16 * min n 4),
      (List.range (min n 4)).any fun i =>
        dirty x (36 + 16 * i) 4 || d.badBell ctx (f (32 + 16 * i) 4) (op ≠ opSignal)] }

/-- FUSED (R273). -/
def checkFused (x : List Byte) : Checks :=
  let f := fieldAt x
  { format := [outside (f 40 1) 1 8, f 41 1 > 3, f 42 1 > 7, f 43 1 > 7, dirty x 58 2, dirty x 64 64] }

/-- ATTN_PREFILL and ATTN_DECODE (R146, R151). -/
def checkAttn (op : Nat) (x : List Byte) : Checks :=
  let f := fieldAt x
  let mode := bits (f 55 1) 3 2
  { format := [f 32 8 % 32 ≠ 0, outside (f 40 4) 1 65536, outside (f 44 2) 1 1024, outside (f 46 2) 1 128,
      f 46 2 = 0 || f 44 2 % f 46 2 ≠ 0, outside (f 48 2) 32 256, f 48 2 % 32 ≠ 0, f 50 1 > 3, f 51 1 > 3,
      f 52 1 ≠ 0 && f 52 1 ≠ 2, f 53 1 > 4, outside (f 54 1) 1 16, op = opPrefill && f 54 1 ≠ 1, f 55 1 / 64 ≠ 0, mode = 3,
      notPositive (f 56 4), mode = 2 && outside (f 60 4) 1 16777215, dirty x 108 20] }

/-- KV_APPEND (R146, R152). -/
def checkAppend (x : List Byte) : Checks :=
  let f := fieldAt x
  { format := [f 32 8 % 32 ≠ 0, outside (f 40 4) 1 65536, outside (f 44 2) 1 128, outside (f 46 2) 32 256, f 46 2 % 32 ≠ 0,
      f 48 1 > 3, f 49 1 ≠ 0 && f 49 1 ≠ 1 && f 49 1 ≠ 4, f 50 1 > 15, dirty x 51 1, dirty x 60 4, dirty x 96 32] }

/-- KV_FORK and KV_FREE (R153). -/
def checkLists (op : Nat) (x : List Byte) : Checks :=
  let f := fieldAt x
  { format := [outside (f 56 2) 1 1024, dirty x 58 2, f 60 4 % 4 ≠ 0, dirty x 64 64,
      if op = opFork then outside (f 48 4) 1 16777215 || dirty x 52 4 else outside (f 52 4) 1 524288 || dirty x 40 8] }

/-- WEIGHT_LOAD (R175). The fields an operation does not use are not checked, but for the ranges that the table states. -/
def checkWeight (x : List Byte) : Checks :=
  let f := fieldAt x
  let op := f 32 1
  { format := [outside op 1 6, f 33 1 > 3, dirty x 64 64, bits (f 33 1) 0 1 = 1 && f 36 2 > 1023,
      if op = 5 || op = 6 then f 34 2 > 4095 else f 34 2 > 255, op = 3 && f 38 1 > 1] }

/-- ADAPTER_BIND (R202). -/
def checkAdapter (x : List Byte) : Checks :=
  let f := fieldAt x
  { format := [f 32 2 > 4095 && f 32 2 ≠ 0xFFFF, dirty x 35 93] }

/-- COUNTER_CTL (R337). -/
def checkCounter (x : List Byte) : Checks :=
  let f := fieldAt x
  let op := f 32 1
  { format := [outside op 1 4, op = 4 && f 33 1 > 63, if op = 4 then f 34 1 > 7 else if op = 3 then f 34 1 ≠ 0 && f 34 1 ≠ 2
      else f 34 1 ≠ 0, dirty x 35 5, dirty x 64 64] }

/-- DIGEST_CTL (R324, R329). -/
def checkDigest (x : List Byte) : Checks :=
  let f := fieldAt x
  let op := f 32 1
  { format := [outside op 1 4, f 33 1 > 3, f 34 1 > 63, op = 3 && f 33 1 ≠ 1, f 35 1 > 3,
      if bits (f 35 1) 0 1 = 1 then f 36 2 > 4095 else f 36 2 > 255, dirty x 38 2,
      op = 2 && outside (f 48 8) 1 (2 ^ 32), op = 4 && f 40 8 % 64 ≠ 0,
      op = 4 && bits (f 35 1) 1 1 = 1 && f 56 8 % 64 ≠ 0,
      op = 4 && ((x.drop 64).take 4).any fun b => b.toNat > 64, dirty x 68 60] }

/-- The checks of a command's own fields, by its opcode. -/
def Device.checkOp (d : Device) (e ctx : Nat) (x : List Byte) : Checks :=
  let op := fieldAt x 0 1
  if op = opNop then { format := [dirty x 32 96] }
  else if op = opMatmul then checkMatmul d e x false
  else if op = opU4Gemm then checkMatmul d e x true
  else if op = opFused then checkFused x
  else if op = opPrefill ∨ op = opDecode then checkAttn op x
  else if op = opAppend then checkAppend x
  else if op = opFork ∨ op = opFree then checkLists op x
  else if op = opNorm ∨ op = opSoftmax ∨ op = opSample then checkRows op x
  else if op = opCopy ∨ op = opU4Copy ∨ op = opTranspose then checkCopy op x
  else if op = opRope ∨ op = opMicroprog then checkElem op x
  else if op = opWeight then checkWeight x
  else if op = opBind then checkAdapter x
  else if op = opSignal ∨ op = opWait ∨ op = opU4Add ∨ op = opU4Wait then checkBells d ctx op x
  else if op = opCounter then checkCounter x
  else checkDigest x

/-- The checks of the header (R240, R242, R243, R281). -/
def Device.checkHeader (d : Device) (ctx : Nat) (x : List Byte) : Checks :=
  let f := fieldAt x
  let op := f 0 1
  { format := [f 2 1 ≠ 1, f 3 1 ≠ 0, flagBit x 6 && op ≠ opMatmul && op ≠ opFused,
      f 24 8 % 64 ≠ 0, flagBit x 2 && d.badBell ctx (f 12 4) false] }

/-- What decoding a descriptor finds (R243). -/
def Device.decodeStatus (d : Device) (e ctx : Nat) (x : List Byte) : Status :=
  if !opcodes.contains (fieldAt x 0 1) then .opcodeInvalid
  else
    let h := d.checkHeader ctx x
    let c := d.checkOp e ctx x
    (Checks.mk (h.format ++ c.format) (h.shape ++ c.shape)).status

end Sys2Proof.Machine
end

