-- ==== Sys2Proof/Machine/Queues.lean ====
section
/-! DEFINITION. Queue slots, doorbells, the tabor's descriptor reads, completion records, the completion shadow ring,
cancellation and contexts (08_commands.md R256 to R272, R394). -/

namespace Sys2Proof.Machine

/-! ### The registers of a slot -/

/-- A register of a slot, by its offset in the slot's group. -/
def Device.slotReg (d : Device) (e s off : Nat) : Word := d.reg (tabPage e + 0x100 + 0x40 * s + off)
def Device.prio (d : Device) (e s : Nat) : Nat := fieldOf (d.slotReg e s 0x08) 9 8
def Device.sqLog2 (d : Device) (e s : Nat) : Nat := fieldOf (d.slotReg e s 0x08) 3 0
def Device.cqLog2 (d : Device) (e s : Nat) : Nat := fieldOf (d.slotReg e s 0x1C) 3 0
def Device.stopOnErr (d : Device) (e s : Nat) : Bool := bitOf (d.slotReg e s 0x08) 24
/-- The base of the submission and of the completion ring: 52-bit virtual addresses. -/
def Device.sqBase (d : Device) (e s : Nat) : Nat := d.pair (tabPage e + 0x100 + 0x40 * s) % 2 ^ 52
def Device.cqBase (d : Device) (e s : Nat) : Nat := d.pair (tabPage e + 0x100 + 0x40 * s + 0x14) % 2 ^ 52

/-- A virtual function is present and served: VF Enable is set, no Function Level Reset of it is under way, and its
interface is not in ERROR (R379, R398, R401). -/
def Device.vfOn (d : Device) (fn : Nat) : Bool :=
  let v := look d.ho.vfs fn {}
  d.ho.vfEnable && 1 ≤ fn && fn ≤ d.ho.vfCount && !v.flrBusy && v.tdi ≠ .error

/-- A virtual function has a valid map entry of the kind that names the target (R394); the physical function needs
none. -/
def Device.reaches (d : Device) (fn kind target : Nat) : Bool :=
  fn = 0 || d.vfOn fn && (List.range 256).any fun i =>
    let w := look d.ho.vfMap (fn * 256 + i) 0
    bitOf w 31 && fieldOf w 29 28 = kind && fieldOf w 15 0 = target

/-- The function reaches a queue slot (R394). -/
def Device.reachesSlot (d : Device) (fn e s : Nat) : Bool := d.reaches fn 0 (e * 8 + s)

/-- The slots bound to a context, as (engine, slot). -/
def Device.boundSlots (d : Device) (ctx : Nat) : List (Nat × Nat) :=
  ((List.range 256).map fun k => (k / 8, k % 8)).filter fun p => (d.slot p.1 p.2).state ≠ .unbound && (d.slot p.1 p.2).ctx = ctx

/-! ### Doorbells (R262, R263) -/

/-- A map entry, when it is valid: its kind and target (R394). -/
def Device.mapEntry (d : Device) (fn n : Nat) : Option (Nat × Nat) :=
  let w := look d.ho.vfMap (fn * 256 + n) 0
  if n ≠ 0 && bitOf w 31 && fieldOf w 29 28 ≠ 3 then some (fieldOf w 29 28, fieldOf w 15 0) else none

/-- A doorbell is latched, or discarded and counted (R256, R262). The engine must be present (R2). -/
def Upd.doorbell (fn e s tail : Nat) : Upd :=
  .read fun d =>
    let sl := d.slot e s
    let reject := Upd.sat (tabPage e + 0x44)
    if !d.up || !d.blockOn e || !d.reachesSlot fn e s then .skip
    else if sl.state = .unbound then reject
    else if d.ownerOf sl.ctx ≠ fn then reject
    else if (BitVec.ofNat 16 tail - sl.sqHead).toNat > 2 ^ d.sqLog2 e s then reject
    else .all [.slot e s fun t => { t with sqTail := BitVec.ofNat 16 tail, pending := true }, .count (tabPage e + 0x80)]

/-- DOORBELL (R23, R262, R394): a write of TAB.DOORBELL, which crosses from IO die A to the engine's region. A virtual function writes
it in the page of a map entry, whose slot is rung whatever the data's slot field holds. -/
def execDoorbell (fn e : Nat) (data : Word) (s : State) (entry : Nat := 0) : Host.Outcome State Fault Refusal :=
  s.hostAct (.doorbell fn e data entry) fn (.read fun d =>
    if fn = 0 then .doorbell 0 e (fieldOf data 18 16) (fieldOf data 15 0)
    else match d.mapEntry fn entry with
      | some (0, t) => .when (t % 256 / 8 = e) (.doorbell fn e (t % 8) (fieldOf data 15 0))
      | _ => .skip) (e / 8)

/-! ### The tabor (R263 to R266) -/

/-- The tabor works on a slot. -/
def Device.taborOn (d : Device) (e s : Nat) : Bool :=
  d.up && d.unheld && d.blockOn e && (d.eng e).rst = .running && !d.resetDue e && !(d.slot e s).frozen && (d.slot e s).state = .active

/-- Places that fetched commands and descriptor reads take, of Q0 slots and of the others. -/
def Device.places (d : Device) (e : Nat) : Nat × Nat :=
  let used (q0 : Bool) : Nat :=
    (((List.range 8).filter fun s => (d.prio e s = 0) = q0).map fun s =>
      (d.slot e s).fetched.length + (d.slot e s).reads.length).sum
  (used true, used false)

/-- A place is free for a slot (R265): one place stands in reserve for Q0 slots. -/
def Device.placeFree (d : Device) (e s : Nat) : Bool :=
  let a := fieldOf (d.reg (tabPage e + 0x48)) 4 0
  let ahead := if a = 0 then 16 else min a 16
  let (q0, others) := d.places e
  if d.prio e s = 0 then q0 + others < min (ahead + 1) 16 else others + (q0 - 1) < min ahead 15

/-- A wait or an unreadable descriptor among the fetched commands, or a wait that the slot holds, stops the fetching
(R266). -/
def Slot.fetchHeld (t : Slot) : Bool :=
  (t.fetched.any fun f => match f.desc with | none => true | some x => isWait (fieldAt x 0 1)) ||
  (match t.cur with | some c => isWait (fieldAt c.desc 0 1) | none => false)

/-- An idle slot with its pending bit set reads the tail and clears the bit (R263). -/
def Slot.readTail (t : Slot) : Slot :=
  if t.pending && (t.tailRead.isNone || t.tailRead = some t.sqHead) then
    { t with tailRead := some t.sqTail, pending := false } else t

/-- Where a ring lies: its translation now (R256). -/
def Device.ringTarget (d : Device) (e s va : Nat) : Option Target :=
  match d.translate (d.slot e s).ctx va false with
  | .inl _ => none
  | .inr (t, _) => some t

/-- The 128 bytes of a descriptor read: from device memory, or as the host returns them; none when it cannot be
translated or read (R256). -/
def Device.descBytes (d : Device) (e s index : Nat) (host : Option (List Byte)) : Option (List Byte) :=
  match d.ringTarget e s (d.sqBase e s + index % 2 ^ d.sqLog2 e s * 128) with
  | some (.mem pa key) => if (d.ueIn pa 128).isSome then none else some (d.bytesAt key pa 128)
  | some (.host _) => host.map fun l => (l ++ List.replicate 128 0).take 128
  | _ => none

/-- What the controllers note of a descriptor read. -/
def Device.descTouch (d : Device) (e s index : Nat) : Upd :=
  match d.ringTarget e s (d.sqBase e s + index % 2 ^ d.sqLog2 e s * 128) with
  | some (.mem pa _) => .touch pa 128
  | _ => .skip

/-- The slot's descriptors come from host memory. -/
def Device.hostRing (d : Device) (e s index : Nat) : Bool :=
  match d.ringTarget e s (d.sqBase e s + index % 2 ^ d.sqLog2 e s * 128) with
  | some (.host _) => true
  | _ => false

/-- A descriptor read completes (R256, R263, R243): the descriptor is decoded. A poisoned completion from the host counts as one
with an error status (R387). After the last read of the tail the slot reads its pending bit once more. -/
def Upd.arrived (e s : Nat) (poisoned : Bool) (host : Option (List Byte)) : Upd :=
  .read fun d =>
    let t := d.slot e s
    match t.reads with
    | [] => .skip
    | index :: rest =>
      .inject (tabPage e) 0 fun noData => .inject (tabPage e) 2 fun flip =>
        let spoilt := poisoned && d.hostRing e s index
        let desc := if noData || spoilt then none else d.descBytes e s index host
        let status := match desc with
          | none => .descFault
          | some x => d.decodeStatus e t.ctx x
        .all [
          d.descTouch e s index, .when spoilt (.pcxError 2),
          .slot e s fun t =>
            let t := { t with reads := rest, fetched := t.fetched ++ [{ index := index, desc := desc, status := status, bad := noData || flip, own := d.ownId }] }
            if rest.isEmpty && t.tailRead = some t.sqHead then
              (if t.pending then { t with tailRead := some t.sqTail, pending := false } else { t with tailRead := none })
            else t,
          .when desc.isSome (.all [.count (tabPage e + 0x88), .event e 0x040 1])]

/-- A descriptor in host memory is read under the Requester ID of the context's owner (R397), at a translated address where ATS is on;
a read that the translation denies fails (R228, R229). -/
def Upd.descRequest (e s : Nat) : Upd :=
  .read fun d =>
    let fn := d.ownerOf (d.slot e s).ctx
    match (d.slot e s).reads with
    | [] => .skip
    | index :: _ => match d.ringTarget e s (d.sqBase e s + index % 2 ^ d.sqLog2 e s * 128) with
      | some (.host a) =>
        let request (translated : Bool) : Upd := .all [
          .of fun d => { d with ho := { d.ho with nextRead := d.ho.nextRead + 1 } },
          .send (.hostReadReq fn d.ho.nextRead (d.hostAddr fn a) 128 translated)]
        if !d.xl.atsOn.contains fn then request false
        else match d.atcEntry fn a with
        | some x => if x.read then .all [.count (xltDevPage + 0x80), request true] else .arrived e s false none
        | none => .askHost { fn := fn, addr := a, engine := e, slot := s }
      | _ => .skip

/-- DESCRIPTOR_FETCH (R263, R265, R266): the tabor reads the next descriptor of a slot; one read of a slot is outstanding
at a time (log 27). -/
def Upd.fetch (e s : Nat) : Upd :=
  .read fun d =>
    let t := (d.slot e s).readTail
    if !d.taborOn e s || t.fetchHeld || !t.reads.isEmpty || !d.placeFree e s then .skip
    else match t.tailRead with
      | none => .skip
      | some tail =>
        if tail = t.sqHead then .slot e s fun _ => { t with tailRead := none }
        else .all [.slot e s fun _ => { t with sqHead := t.sqHead + 1, reads := [t.sqHead.toNat] }, .descRequest e s]

def execDescriptorFetch (e slot : Nat) (s : State) : Host.Outcome State Fault Refusal :=
  s.act (.descriptorFetch e slot) (.fetch e slot)

/-- The descriptor read of a slot waits for the translation of its page (R228). -/
def Device.descAsked (d : Device) (e s : Nat) : Bool :=
  d.ho.asks.any fun a => a.engine = e && a.slot = s && a.use = .descriptor

/-- A completion of a descriptor read arrives; while the gong is active it waits in its buffer, behind those of the slot that came before
it (R348). -/
def Upd.arrive (e s : Nat) (tlp : Tlp) (host : Option (List Byte)) : Upd :=
  .read fun d =>
    let buffered := (d.ho.arrived.filter fun p => p.1 = e && p.2.1 = s).length
    match (d.slot e s).reads.drop buffered with
    | [] => .skip
    | index :: _ =>
      let u : Upd :=
        if d.unheld then .arrived e s tlp.poisoned host
        else (.of fun d => { d with ho := { d.ho with arrived := d.ho.arrived ++ [(e, s, host, tlp)] } })
      .when (d.up && !d.descAsked e s)
        (if d.hostRing e s index then .received (d.ownerOf (d.slot e s).ctx) u tlp else u)

/-- DESCRIPTOR_ARRIVE (R256, R263, R243, R387). -/
def execDescriptorArrive (e slot : Nat) (data : Option (List Byte)) (s : State) (tlp : Tlp := {}) : Host.Outcome State Fault Refusal :=
  s.act (.descriptorArrive e slot data tlp) (.arrive e slot tlp data)

/-- The completions that arrived while the gong was active are taken from their buffer (R351). -/
def Upd.takeArrived : Upd :=
  .read fun d => .all [
    .of fun d => { d with ho := { d.ho with arrived := [] } },
    .each d.ho.arrived fun p => .arrived p.1 p.2.1 p.2.2.2.poisoned p.2.2.1]

/-- TABOR_PREFETCH (R242, R265, R266): the bulk operands of the oldest fetched command not yet prefetched are read ahead.
A fenced command, and every later one of the slot, waits until every command before the fenced one has completed. The operands
themselves are read at the tile (log 28). -/
def Upd.prefetch (e s : Nat) : Upd :=
  .read fun d =>
    let t := d.slot e s
    let early := (t.fetched.zip (List.range t.fetched.length)).find? fun p => !p.1.prefetched
    match early with
    | none => .skip
    | some (f, i) =>
      let fences := (t.fetched.take (i + 1)).map fun f => match f.desc with | some x => isFence x | none => false
      let fenced := if t.cur.isSome then fences.any id else (fences.drop 1).any id
      let held := (t.fetched.take i).any fun f => match f.desc with | some x => isWait (fieldAt x 0 1) | none => true
      let waits := match t.cur with | some c => isWait (fieldAt c.desc 0 1) | none => false
      if !d.taborOn e s || fenced || held || waits || f.desc.isNone then .skip
      else .all [
        .slot e s fun t => { t with fetched := t.fetched.set i { f with prefetched := true } },
        .count (tabPage e + 0x90), .event e 0x041 1]

def execTaborPrefetch (e slot : Nat) (s : State) : Host.Outcome State Fault Refusal :=
  s.act (.taborPrefetch e slot) (.prefetch e slot)

/-- Fetched commands and outstanding reads are dropped; SQ_HEAD returns to the oldest descriptor not issued, and the slot is
not idle while descriptors before the tail it last read are to be fetched again (R256, R258, R263). -/
def Slot.rewind (t : Slot) : Slot :=
  let n := t.fetched.length + t.reads.length
  { t with
    sqHead := t.sqHead - BitVec.ofNat 16 n, fetched := [], reads := [],
    tailRead := if n = 0 ∨ t.tailRead.isSome then t.tailRead else some t.sqHead }

/-! ### Writes of records -/

/-- A write of the engine's own records to a virtual range of the slot's context (stream 7): whether it is made, what it
does, and the host address when it goes to host memory. One to a host page without a translation waits for it (R228). -/
def Device.recordWrite (d : Device) (e s va : Nat) (bs : List Byte) : Bool × Upd × Option Nat :=
  let ctx := (d.slot e s).ctx
  match d.range ctx va bs.length true with
  | .inl _ => (false, .skip, none)
  | .inr segs =>
    let u := Upd.writeSegs (slotKey e s) (d.ownerOf ctx) segs bs
    let host := match segs with
      | ⟨_, .host a, _, _⟩ :: _ => some a
      | _ => none
    let fn := d.ownerOf ctx
    match host.filter fun _ => d.xl.atsOn.contains fn with
    | some a => match d.atcEntry fn a with
      | some x => (x.write, .when x.write u, host)
      | none => (true, .askHost { fn := fn, addr := a, engine := e, slot := s, use := .record bs none }, none)
    | none => ((d.segsWriteUe segs).isNone, u, host)

/-- The code of a status (R253). -/
def Status.code : Status → Nat
  | .ok => 0x0000 | .opcodeInvalid => 0x0001 | .operandFormat => 0x0002 | .shapeInvalid => 0x0003 | .microprogInvalid => 0x0004
  | .translationFault => 0x0010 | .memUe => 0x0011 | .descFault => 0x0012
  | .kvPoolOff => 0x0020 | .kvPageSize => 0x0021 | .kvPageNone => 0x0022 | .kvPageFree => 0x0023 | .kvPageRange => 0x0024
  | .kvNospace => 0x0025 | .kvListConflict => 0x0026 | .kvRefcount => 0x0027
  | .weightNospace => 0x0030 | .shardDigest => 0x0031 | .shardTimeout => 0x0032 | .weightBusy => 0x0033
  | .weightAccess => 0x0034 | .weightNotReady => 0x0035 | .expandLen => 0x0036 | .adapterInvalid => 0x0037
  | .bellTimeout => 0x0040 | .peerLost => 0x0041 | .cancelled => 0x0050 | .convicted => 0x0051 | .killed => 0x0052
  | .relayAbort => 0x0053

/-! ### The completion shadow ring (R271, R272) -/

def Device.shadow (d : Device) (e i : Nat) : Shadow := look (d.eng e).shadow i {}
def Upd.shadow (e i : Nat) (f : Shadow → Shadow) : Upd :=
  .eng e fun g => { g with shadow := put g.shadow i (f (look g.shadow i {})) {} }

/-- An entry that may not be overwritten: lost or awaiting rewrite, of a slot not flushed, unbound or dead since. -/
def Device.kept (d : Device) (e : Nat) (x : Shadow) : Bool :=
  x.valid && (x.lost || x.rewrite) && !x.freed && (d.slot e x.slot).state ≠ .unbound && (d.slot e x.slot).state ≠ .dead

/-- No entry can be overwritten: no slot of the engine issues (R272). -/
def Device.shadowFull (d : Device) (e : Nat) : Bool := (List.range 64).all fun i => d.kept e (d.shadow e i)

/-- The entry that the next record takes: an empty one, else the oldest that may be overwritten. -/
def Device.shadowPlace (d : Device) (e : Nat) : Option Nat :=
  match (List.range 64).find? fun i => !(d.shadow e i).valid with
  | some i => some i
  | none =>
    let l := (List.range 64).filter fun i => !d.kept e (d.shadow e i)
    match l with
    | [] => none
    | a :: r => some (r.foldl (fun b i => if (d.shadow e i).age < (d.shadow e b).age then i else b) a)

/-- A slot pauses for a lost record (R272 step 3). -/
def Slot.pauseLost (t : Slot) : Slot :=
  match t.state with
  | .active | .stopped | .pausedErr => { t with state := .pausedCmpl, after := t.state }
  | .flushing | .suspect => { t with lost := true }
  | _ => t

/-- Records of a slot are lost, from a ring index on: marked in the shadow ring, flagged, and the slot pauses (R272
steps 2 and 3); those of a slot that is UNBOUND or DEAD are never rewritten. -/
def Upd.recordLost (e s : Nat) (index : BitVec 16) (tag age : Nat) (injected : Bool) : Upd :=
  .read fun d =>
    let v := d.lostVector e s
    let alive : Bool := (d.slot e s).state ≠ .unbound && (d.slot e s).state ≠ .dead
    .all [
      .eng e fun g => { g with shadow := g.shadow.map fun p =>
        if p.2.valid && p.2.slot = s && p.2.age ≥ age then (p.1, { p.2 with lost := true, rewrite := false, checking := false, freed := p.2.freed || !alive })
        else p },
      .error (engPage e) 1 { (engRec 0x020C e) with
        ctx := some (d.slot e s).ctx, slot := s, tag := tag, detail := detailN index.toNat } false injected,
      .cross (e / 8) 6 (.msix v.1 v.2),
      .slot e s Slot.pauseLost,
      .read fun d => .when (d.shadowFull e) (.raise (tabPage e) (oneBit 1))]

/-- The zero-length read to the address of a record in host memory, sent directly after its write (R271): the record, at its place
in the shadow ring or without one, waits for it. -/
def Upd.zeroRead (e : Nat) (place : Option Nat) (x : Shadow) (fn a : Nat) : Upd :=
  .read fun d => .all [
    match place with
    | some i => .shadow e i fun x => { x with checking := true }
    | none => .eng e fun g => { g with checks := g.checks ++ [{ x with checking := true }] },
    .send (.zeroRead fn (d.hostAddr fn a) (d.hostMark fn a))]

/-- A record is written at an index of the slot's completion ring; a write that fails is a lost record (R271). A record
sent to host memory waits for its zero-length read. -/
def Upd.ringRecord (e s : Nat) (index : BitVec 16) (bs : List Byte) (place : Option Nat) (age : Nat) : Upd :=
  .inject (engPage e) 1 fun fail => .read fun d =>
    let w := d.recordWrite e s (d.cqBase e s + index.toNat % 2 ^ d.cqLog2 e s * 32) bs
    let tag := fieldAt bs 4 4
    let x : Shadow := { valid := true, slot := s, index := index, bytes := bs, age := age }
    if fail then .recordLost e s index tag age true
    else if !w.1 then .all [w.2.1, .recordLost e s index tag age false]
    else .all [w.2.1, .count (engPage e + 0x80),
      match w.2.2 with
      | some a => .zeroRead e place x (d.ownerOf (d.slot e s).ctx) a
      | none => .of fun d => { d with ho := { d.ho with asks := d.ho.asks.map fun a =>
          if a.engine = e && a.slot = s && a.use = .record bs none then { a with use := .record bs (some (place, x)) } else a } }]

/-- The next completion record of a slot: phase bit, shadow entry, the write, and CQ_TAIL (R254, R268, R272). -/
def Upd.completion (e s : Nat) (bs : List Byte) : Upd :=
  .read fun d =>
    let index := (d.slot e s).cqTail
    let phase := bits index.toNat (d.cqLog2 e s) 1 = 0
    let flags := fieldAt bs 2 1 / 2 * 2 + (if phase then 1 else 0)
    let bs := bs.take 2 ++ [BitVec.ofNat 8 flags] ++ bs.drop 3
    let age := (d.eng e).age
    let place := d.shadowPlace e
    .all [
      .eng e fun g => { g with age := g.age + 1 },
      .slot e s fun t => { t with cqTail := t.cqTail + 1 },
      match place with
      | none => .skip
      | some i => .shadow e i fun _ => { valid := true, slot := s, index := index, bytes := bs, age := age },
      .ringRecord e s index bs place age]

/-- RECORD_CHECK (R271, R272): the zero-length read after a record in host memory completes, or fails; entry 64 is the oldest record
without a place in the shadow ring. A poisoned completion counts as one with an error status (R387). -/
def Upd.recordCheck (e i : Nat) (ok : Bool) (tlp : Tlp) : Upd :=
  .read fun d =>
    let checks := (d.eng e).checks
    let x := if i = 64 then checks.headD {} else d.shadow e i
    let good := ok && !tlp.poisoned
    .when (x.valid && x.checking) (.received (d.ownerOf (d.slot e x.slot).ctx) (.all [
      .when (i = 64) (.eng e fun g => { g with checks := g.checks.drop 1 }),
      .when tlp.poisoned (.pcxError 2),
      if good then .when (i ≠ 64) (.shadow e i fun x => { x with checking := false })
      else .recordLost e x.slot x.index (fieldAt x.bytes 4 4) x.age false]) tlp)

def execRecordCheck (e entry : Nat) (ok : Bool) (s : State) (tlp : Tlp := {}) : Host.Outcome State Fault Refusal :=
  s.act (.recordCheck e entry ok tlp) (.recordCheck e entry ok tlp)

/-- An access of the engine's own whose page has been translated goes on, or fails (R228, R256, R271). -/
def Upd.askDone (a : Ask) (ok : Bool) : Upd :=
  match a.use with
  | .descriptor => .read fun d => .when (!(d.slot a.engine a.slot).reads.isEmpty)
      (if ok then .descRequest a.engine a.slot else .arrived a.engine a.slot false none)
  | .record bs x => match ok, x with
    | true, _ => .read fun d => .all [
        .send (.hostWrite a.fn (d.hostAddr a.fn a.addr) bs (d.hostMark a.fn a.addr)), .count (pcxPage + 0x88) bs.length,
        match x with | some (place, sh) => .zeroRead a.engine place sh a.fn a.addr | none => .skip]
    | false, some (_, sh) => .recordLost a.engine sh.slot sh.index (fieldAt sh.bytes 4 4) sh.age false
    | false, none => .skip

/-- The messages of a function go once no record of it waits any more (R267, R404). -/
def Upd.sendBehind (fn : Nat) : Upd :=
  .read fun d => .when (!d.recordAsked fn) (.all [
    .of fun d => { d with ho := { d.ho with behind := d.ho.behind.filter (·.1 ≠ fn) } },
    .each (d.ho.behind.filter (·.1 = fn)) fun p => .msix p.1 p.2])

/-- SHADOW_ACK (R272 step 1, R394): a write of TAB.SHADOW_SEL selects an entry, and with bit 31 acknowledges it. The ack of
another function's entry is ignored. -/
def Upd.shadowAck (fn e : Nat) (data : Word) : Upd :=
  .read fun d =>
    let i := fieldOf data 5 0
    let x := d.shadow e i
    let mine := d.reachesSlot fn e x.slot
    let alive : Bool := (d.slot e x.slot).state ≠ .unbound && (d.slot e x.slot).state ≠ .dead
    .when d.up (.all [
      .setReg (tabPage e + 0x4C) (BitVec.ofNat 32 i),
      .when (bitOf data 31 && x.valid && x.lost && mine)
        (.shadow e i fun x => { x with lost := false, rewrite := alive && !x.freed })])

def execShadowAck (fn e : Nat) (data : Word) (s : State) : Host.Outcome State Fault Refusal :=
  s.hostAct (.shadowAck fn e data) fn (.shadowAck fn e data) (e / 8)

/-- The slot's entries awaiting rewrite are released without writing them, and its lost ones may be overwritten (R272
step 5). -/
def Upd.releaseShadow (e s : Nat) : Upd :=
  .eng e fun g => { g with shadow := g.shadow.map fun p =>
    if p.2.slot = s && (p.2.lost || p.2.rewrite) then (p.1, { p.2 with rewrite := false, freed := true }) else p }

/-! ### Operations on a slot (R257) -/

/-- A ring violates R256: its size, its alignment, or a translation page that does not hold it whole. A ring without a
translation is no violation: its descriptors end with DESC_FAULT (log 29). -/
def Device.badRing (d : Device) (r : Root) (base log2 size : Nat) : Bool :=
  outside log2 4 15 || base % (2 ^ log2 * size) ≠ 0 ||
    match d.walk r base with
    | .leaf _ page => base / 2 ^ page ≠ (base + 2 ^ log2 * size - 1) / 2 ^ page
    | .fail _ _ => false

/-- The translation of a ring is pinned in the engine's buffer (R256). -/
def Upd.pin (e ctx va : Nat) : Upd :=
  .read fun d =>
    match d.walk (d.rootOf ctx) va with
    | .leaf pte log2 => .buffer e ⟨ctx, va / 2 ^ log2 * 2 ^ log2, log2, BitVec.ofNat 64 pte, true, false⟩
    | .fail _ _ => .skip

/-- The entries of a bound slot's submission and completion rings are filled and pinned (R256, R365). -/
def Upd.pinRings (e s : Nat) : Upd :=
  .read fun d => .all [.pin e (d.slot e s).ctx (d.sqBase e s), .pin e (d.slot e s).ctx (d.cqBase e s)]

/-- The entries that a slot's rings pinned may be evicted again, unless another slot of the engine has a ring there (R256). -/
def Upd.unpin (e s : Nat) : Upd :=
  .of fun d =>
    let used (t : TlbEntry) : Bool := (List.range 8).any fun k =>
      k ≠ s && (d.slot e k).state ≠ .unbound && (d.slot e k).ctx = t.ctx &&
        [d.sqBase e k, d.cqBase e k].any fun a => t.base ≤ a && a < t.base + 2 ^ t.log2
    let l := look d.xl.tlb e []
    { d with xl := { d.xl with tlb := put d.xl.tlb e (l.map fun t => { t with pinned := t.pinned && used t }) [] } }

/-- BIND (R256, R257, R223, R394). -/
def Upd.bind (fn e s : Nat) : Upd :=
  .read fun d =>
    let c := fieldOf (d.slotReg e s 0x08) 23 16
    let fail (n : Nat) : Upd := .slot e s fun t => { t with reason := n }
    -- the written root is used from the next binding
    -- a held record freezes the slots of its context (R238)
    let frozen := match (d.eng e).held with | some r => r.ctx = some c | none => false
    let root := if (d.boundSlots c).isEmpty then look d.xl.roots c {} else d.rootOf c
    if (d.ctx c).state ≠ .active then fail 3
    else if d.ownerOf c ≠ fn then fail 5
    else if d.badRing root (d.sqBase e s) (d.sqLog2 e s) 128 || d.badRing root (d.cqBase e s) (d.cqLog2 e s) 32 then fail 4
    else .all [
      .ctx c fun x => { x with root := some root },
      .slot e s fun t => { t with
        state := .stopped, ctx := c, sqHead := 0, sqTail := 0, cqHead := 0, cqTail := 0, pending := false, tailRead := none,
        reads := [], fetched := [], cur := none, reason := 0, stopReq := false, flushReq := none, unbindReq := false,
        after := .stopped, lost := false, frozen := frozen },
      .setReg (tabPage e + 0x100 + 0x40 * s + 0x20) 0,
      .pinRings e s]

/-- A counter of an engine. -/
def Device.counter (d : Device) (e i : Nat) : Word64 := look d.ob.cnt (e * 64 + i) 0

/-- The event counters of an engine less what is given, counter by counter (R333). -/
def Device.countsLess (d : Device) (e : Nat) (base : Sparse Word64) : Sparse Word64 :=
  (List.range 64).foldl (fun m i => put m i (d.counter e i - look base i 0) 0) []

/-- A slot's command stops running: what was counted for it and the time it ran are kept (R333, R334, R335), and the pages it
looked up are to be looked up again, for its engine passes a boundary (R145); its stationary tile is loaded again (R80). -/
def Upd.park (e s : Nat) : Upd :=
  .read fun d => .when ((d.eng e).run = some s) (.all [
    .cur e s fun c => { c with cntBase := d.countsLess e c.cntBase, paused := c.paused - d.dieTime (e / 8), looked := [], asked := c.asked.filter (·.kind ≠ 7), loaded := false },
    .eng e fun g => { g with run := none, redecode := none }])

/-- The running command of the engine is the slot's. -/
def Device.runs (d : Device) (e s : Nat) : Bool := (d.eng e).run = some s

/-- The slot's current command ends with a status at its next preemption point: at once when it does not run (R261,
R269). -/
def Upd.endCurrent (e s : Nat) (st : Status) : Upd :=
  .read fun d =>
    match (d.slot e s).cur with
    | none => .skip
    | some c =>
      if c.status.isSome then .skip
      else if d.runs e s then .slot e s fun t => { t with flushReq := some st }
      else .decide e s st none

/-- The slot leaves the suspects of its engine, and its replay (R373). -/
def Upd.unsuspect (e s : Nat) : Upd :=
  .eng e fun g => { g with suspects := g.suspects.filter (· ≠ s), replay := if g.replay = some s then none else g.replay }

/-- FLUSH and the flush of a kill (R269, R270, R272); the command's strikes are cleared (R371). -/
def Upd.flush (e s : Nat) (st : Status) : Upd :=
  .read fun d => .all [
    .releaseShadow e s,
    .count (tabPage e + 0x98) (d.slot e s).fetched.length,
    .slot e s fun t => { t with state := .flushing, fetched := [], stopReq := false, lost := false, reason := 0 },
    .consume (slotKey e s),
    .of fun d => { d with ho := { d.ho with reads := d.ho.reads.map fun r => if r.slot = slotKey e s then { r with dropped := true } else r } },
    .unsuspect e s,
    .cur e s fun c => { c with strike := none },
    .endCurrent e s st]

/-- The slot becomes UNBOUND (R257): no record of it is written again (R272), though one may still turn out to be lost. -/
def Upd.unbound (e s : Nat) : Upd :=
  .all [
    .unpin e s,
    .eng e fun g => { g with shadow := g.shadow.map fun p => if p.2.slot = s then (p.1, { p.2 with rewrite := false, freed := true }) else p },
    .slot e s fun t => { ({} : Slot) with
      sqHead := t.sqHead, sqTail := t.sqTail, cqHead := t.cqHead, cqTail := t.cqTail, lastStatus := t.lastStatus, lastTag := t.lastTag }]

/-- The records of a slot that await rewriting are written again, oldest first; n entries are looked at (R272 step 5). -/
def Upd.rewrite (n e s : Nat) : Upd :=
  match n with
  | 0 => .skip
  | n + 1 => .read fun d =>
    let l := (List.range 64).filter fun i => (d.shadow e i).valid && (d.shadow e i).rewrite && (d.shadow e i).slot = s
    match l with
    | [] => .skip
    | a :: r =>
      let i := r.foldl (fun b i => if (d.shadow e i).age < (d.shadow e b).age then i else b) a
      let x := d.shadow e i
      let bs := x.bytes.take 2 ++ [BitVec.ofNat 8 (Nat.lor (fieldAt x.bytes 2 1) 0x20)] ++ x.bytes.drop 3
      .all [.shadow e i fun x => { x with rewrite := false, bytes := bs }, .ringRecord e s x.index bs (some i) x.age,
        .rewrite n e s]

/-- RESUME (R257, R272 step 5): reason 2 while a lost entry of the slot is unacknowledged. -/
def Upd.resumeSlot (e s : Nat) : Upd :=
  .read fun d =>
    let t := d.slot e s
    let unacked := (List.range 64).any fun i =>
      (d.shadow e i).valid && (d.shadow e i).lost && (d.shadow e i).slot = s
    match t.state with
    | .pausedErr => .slot e s fun t => { t with state := .active, reason := 0 }
    | .pausedCmpl =>
      if unacked then .slot e s fun t => { t with reason := 2 }
      else .all [.slot e s fun t => { t with state := t.after, after := .stopped, reason := 0 }, .rewrite 64 e s]
    | _ => .skip

/-- The states in which an operation is permitted (R257, and R373 for a suspect): 1 BIND, 2 START, 3 STOP, 4 RESUME,
5 FLUSH, 6 UNBIND. -/
def opPermitted (op : Nat) (st : SlotState) : Bool :=
  match op, st with
  | 1, .unbound => true
  | 2, .stopped => true
  | 3, .active | 3, .suspect => true
  | 4, .pausedErr | 4, .pausedCmpl => true
  | 5, .stopped | 5, .pausedErr | 5, .pausedCmpl | 5, .suspect => true
  | 6, .stopped | 6, .dead => true
  | _, _ => false

/-- The command is one of a chain of several (R273). -/
def Cmd.chained (c : Cmd) : Bool := fieldAt c.desc 0 1 = opFused && bits (fieldAt c.desc 41 1) 0 2 ≠ 0

/-- A command of a chain holds its end with OK while another of the chain's commands is not done, or has failed and not ended yet: a chain
is replayed as a unit, so none of it is over before all of it is (R276; log 95). It gives up the engine's execute side meanwhile. -/
def Device.chainHolds (d : Device) (e : Nat) (c : Cmd) : Bool :=
  c.chained && c.status = some .ok &&
    ((List.range 8).any fun b => e / 8 * 8 + b ≠ e && (List.range 8).any fun s => (d.slot (e / 8 * 8 + b) s).cur.any fun m =>
      m.chained && fieldAt m.desc 44 4 = fieldAt c.desc 44 4 && m.status ≠ some .ok)

/-- The command of a slot is a suspect (R364, R373): the running one, a preempted one, a held wait, or one that was cleared
and has not resumed, or one that waits for the rest of its chain; not the command of a slot that is being flushed or was stopped
(R269, R373), nor one whose whole chain is done. Nothing but an operation, a kill or a reset on the slot changes this between the
detection of an error and its reset. -/
def Device.isSuspect (d : Device) (e s : Nat) : Bool :=
  let t := d.slot e s
  (t.state = .active || t.state = .suspect || t.state = .pausedCmpl) && match t.cur with
    | some c => !(c.chained && c.status = some .ok && !d.chainHolds e c) && ((d.eng e).run = some s || (d.eng e).pre = some s || c.cleared || (isWait (fieldAt c.desc 0 1) && (c.status = none || c.status = some .ok)) ||
        d.chainHolds e c || t.state = .suspect)
    | none => false

/-- An operation takes effect (R257). STOP of a suspect removes it from replay at once (R373); its replaying command is interrupted
(R80), and what a reset that is due has of it stays until the reset. -/
def Upd.slotOp (fn e s op : Nat) : Upd :=
  .read fun d =>
    let t := d.slot e s
    if !opPermitted op t.state then .slot e s fun t => { t with reason := 1 }
    else match op with
    | 1 => .bind fn e s
    | 2 => .slot e s fun t => { t with state := .active, reason := 0 }
    | 3 =>
      if t.state = .suspect then
        .all [
          .when (d.runs e s && !d.resetDue e) (.all [.park e s, .each (List.range 4) fun c => .cell e c Cell.cutPasses]),
          .slot e s fun t => if t.lost then { t with state := .pausedCmpl, after := .stopped, lost := false, stopReq := false, reason := 0 }
            else { t with state := .stopped, stopReq := false, reason := 0 },
          .unsuspect e s]
      else if d.runs e s then .slot e s fun t => { t with stopReq := true, reason := 0 }
      else .all [.slot e s fun t => { t with state := .stopped, reason := 0 },
        .eng e fun g => { g with pre := if g.pre = some s then none else g.pre }]
    | 4 => .resumeSlot e s
    | 5 => .flush e s .cancelled
    | _ =>
      if t.cur.isSome then
        .all [.count (tabPage e + 0x98) t.fetched.length,
          .slot e s fun t => { t with unbindReq := true, fetched := [], reads := [], reason := 0 }, .endCurrent e s .cancelled]
      else .unbound e s

/-- A write of SLOT_CTRL.op: while the gong is active it waits (R350), and during an engine reset or a replay too, but for STOP or
FLUSH of a suspect slot (R373), one of a reset that is due among them. -/
def Upd.slotCtrl (fn e s op : Nat) : Upd :=
  .read fun d =>
    if !d.up || !d.blockOn e || !d.reachesSlot fn e s || outside op 1 6 then .skip
    else
      let due := d.resetDue e && d.isSuspect e s
      let suspect := (op = 3 || op = 5) && ((d.slot e s).state = .suspect || due)
      if d.gongOn || ((d.resetDue e || (d.eng e).rst ≠ .running) && !suspect) then
        .eng e fun g => { g with deferred := g.deferred ++ [(fn, s, op)] }
      else .all [
        .when (due && suspect) (.slot e s fun t =>
          if t.state = .pausedCmpl then { t with state := .suspect, lost := true } else { t with state := .suspect }),
        .slotOp fn e s op]

/-- The operations that waited take effect in their order, once the engine runs again (R350, R373). -/
def Upd.runDeferred (e : Nat) : Upd :=
  .read fun d => .all [
    .eng e fun g => { g with deferred := [] },
    .each (d.eng e).deferred fun p => .slotOp p.1 e p.2.1 p.2.2]

/-- The operations that were written while the gong was active are written again at resume (R350). -/
def Upd.resubmit (e : Nat) : Upd :=
  .read fun d => .all [
    .eng e fun g => { g with deferred := [] },
    .each (d.eng e).deferred fun p => .slotCtrl p.1 e p.2.1 p.2.2]

/-- BIND (R256, R257). The word is SQ_CFG as host software wrote it before; it is written when the slot is UNBOUND. -/
def execBind (fn e slot : Nat) (data : Word) (s : State) : Host.Outcome State Fault Refusal :=
  s.hostAct (.bind fn e slot data) fn (.read fun d => .all [
    .when (d.up && d.blockOn e && d.reachesSlot fn e slot && (d.slot e slot).state = .unbound)
      (.setReg (tabPage e + 0x100 + 0x40 * slot + 0x08) (data &&& 0x01FF030F)),
    .slotCtrl fn e slot 1]) (e / 8)

/-- START (R257). -/
def execStart (fn e slot : Nat) (s : State) : Host.Outcome State Fault Refusal := s.hostAct (.start fn e slot) fn (.slotCtrl fn e slot 2) (e / 8)

/-- STOP (R257): at the running command's next preemption point. -/
def execStop (fn e slot : Nat) (s : State) : Host.Outcome State Fault Refusal := s.hostAct (.stop fn e slot) fn (.slotCtrl fn e slot 3) (e / 8)

/-- RESUME (R257, R272). -/
def execResume (fn e slot : Nat) (s : State) : Host.Outcome State Fault Refusal := s.hostAct (.resume fn e slot) fn (.slotCtrl fn e slot 4) (e / 8)

/-- FLUSH (R269). -/
def execFlush (fn e slot : Nat) (s : State) : Host.Outcome State Fault Refusal := s.hostAct (.flush fn e slot) fn (.slotCtrl fn e slot 5) (e / 8)

/-- UNBIND (R257, R272). -/
def execUnbind (fn e slot : Nat) (s : State) : Host.Outcome State Fault Refusal := s.hostAct (.unbind fn e slot) fn (.slotCtrl fn e slot 6) (e / 8)

/-- FLUSH_DONE (R257, R269 step 6, R270, R272): with no current command left, SQ_HEAD is set to SQ_TAIL and the slot enters
STOPPED, PAUSED_CMPL when a record was lost meanwhile, or DEAD for a killed context. -/
def Upd.flushDone (e s : Nat) : Upd :=
  .read fun d =>
    let t := d.slot e s
    if t.state ≠ .flushing ∨ t.cur.isSome ∨ !d.up then .skip
    else
      let killed := (d.ctx t.ctx).state = .killed
      .slot e s fun t => { t with
        sqHead := t.sqTail, tailRead := none, reads := [], fetched := [], flushReq := none,
        state := if killed then .dead else if t.lost then .pausedCmpl else .stopped, after := .stopped, lost := false }

def execFlushDone (e slot : Nat) (s : State) : Host.Outcome State Fault Refusal :=
  s.act (.flushDone e slot) (.flushDone e slot)

/-! ### Contexts (R270, CTX page) -/

/-- A slot of a killed context is flushed with the status (R270). -/
def Upd.killSlot (e s : Nat) (st : Status) : Upd := .read fun d => .when ((d.slot e s).state ≠ .dead) (.flush e s st)

/-- A context is killed: its slots are flushed with the status (R270). While the gong is active they see it at resume
(R350). -/
def Upd.kill (ctx : Nat) (st : Status) : Upd :=
  .read fun d =>
    .when ((d.ctx ctx).state = .active) (.all [
      .ctx ctx fun x => { x with state := .killed },
      .raise ctxPage (oneBit 0),
      if d.unheld then .each (d.boundSlots ctx) fun p => .killSlot p.1 p.2 st
      else .of fun d => { d with ob := { d.ob with gong := { d.ob.gong with kills := d.ob.gong.kills ++ [ctx] } } }])

/-- The function reaches a context (R394). -/
def Device.reachesCtx (d : Device) (fn c : Nat) : Bool := d.reaches fn 1 c

/-- A write of CTX.KILL for a context. -/
def Upd.ctxKill (fn ctx : Nat) (data : Word) : Upd :=
  .read fun d => .when (d.up && d.reachesCtx fn ctx && bitOf data 0) (.kill ctx .killed)

/-- CTX_KILL (R270): a write of CTX.KILL for the context that CTX_SEL shows. -/
def execCtxKill (fn : Nat) (data : Word) (s : State) : Host.Outcome State Fault Refusal :=
  s.hostAct (.ctxKill fn data) fn (.read fun d => .ctxKill fn (fieldOf (d.reg (ctxPage + 0x40)) 7 0) data)

/-- A write of CTX.CFG for a context (CTX page): enable 1 makes a FREE context ACTIVE and replayable, with the owner
written; enable 0 makes a context FREE when no slot is bound; the owner is the physical function's to write. -/
def Upd.ctxCfg (fn ctx : Nat) (data : Word) : Upd :=
  .read fun d =>
    let x := d.ctx ctx
    let owner := if fn = 0 then min (fieldOf data 6 0) 127 else x.owner
    if !d.up || !d.reachesCtx fn ctx then .skip
    else if bitOf data 31 then
      .when (x.state = .free) (.ctx ctx fun x => { x with state := .active, replayable := true, owner := owner })
    else if x.state = .free then .ctx ctx fun x => { x with owner := owner }
    else .when (d.boundSlots ctx).isEmpty
      (.ctx ctx fun x => { x with state := .free, replayable := false, adapters := [], owner := owner, root := none })

/-! ### Relays (R275, R361) -/

/-- RELAY_CREDIT (R275): up to n of the credits that a reading engine has sent reach the engine; an injection drops the
next one, and the check fails (ENG.relay). -/
def Upd.relayCredit (e relay n : Nat) : Upd :=
  .read fun d =>
    match (d.eng e).creditsDue.find? fun p => p.1 % 8 = relay && p.2 ≠ 0 with
    | none => .skip
    | some (k, due) =>
      let take (m got : Nat) : Upd :=
        .eng e fun g => { g with creditsDue := put g.creditsDue k (due - m) 0, credits := put g.credits k (look g.credits k 0 + got) 0 }
      .when d.up (.inject (engPage e) 4 fun drop => .read fun d =>
        if drop then
          let r := match d.env e with
            | some v => v.record 0x0203 (detailN (k / 8))
            | none => { engRec 0x0203 e with detail := detailN (k / 8) }
          .all [take 1 0, .resetError (engPage e) 4 r e true true]
        else take (min n due) (min n due))

def execRelayCredit (e relay n : Nat) (s : State) : Host.Outcome State Fault Refusal :=
  s.act (.relayCredit e relay n) (.relayCredit e relay n)

end Sys2Proof.Machine
end

