-- ==== Sys2Proof/Machine/Sfu.lean ====
section
/-! DEFINITION. The special-function unit's two steps, and the microprogram steps (04_vector_units.md R108 to R112). -/

namespace Sys2Proof.Machine

/-! ### EXP2 and LOG2 (R108) -/

/-- Fraction bits of the fixed-point numbers in which EXP2 is worked out. -/
abbrev expBits : Nat := 256

/-- ln 2 in units of 2^-256, rounded down. -/
abbrev ln2Fixed : Nat := 0xb17217f7d1cf79abc9e3b39803f2f6af40f343267298b62d8a0d175b8baafa2b

/-- The series of e^t from its term k on: term is t^(k-1)/(k-1)!. -/
def expSeries (n k term t acc : Nat) : Nat :=
  match n with
  | 0 => acc
  | n + 1 =>
    let next := term * t / 2 ^ expBits / k
    expSeries n (k + 1) next t (acc + next)

/-- 2^f for f in [0, 1), both in units of 2^-256. -/
def exp2Fixed (f : Nat) : Nat :=
  expSeries 60 1 (2 ^ expBits) (f * ln2Fixed / 2 ^ expBits) (2 ^ expBits)

/-- EXP2 (R108): 2^a correctly rounded. An exact power for an integer a; otherwise the fixed-point value, with a last bit
that says that the exact value lies above it (log 30). -/
def exp2 (a : FVal) : FVal :=
  match a with
  | .nan => .nan
  | .inf neg => if neg then .zero else .inf false
  | .fin m e =>
    if m = 0 then .fin 1 0
    else if FVal.lt a (.fin (-127) 0) then .zero
    else if !FVal.lt a (.fin 128 0) then .inf false
    else
      -- a in units of 2^-256: every finite FP32 value is a whole number of them
      let x : Int := m * 2 ^ (e + expBits).toNat
      let whole := x / 2 ^ expBits
      let f := (x % 2 ^ expBits).toNat
      if f = 0 then (FVal.fin 1 whole).round
      else (FVal.fin (2 * exp2Fixed f + 1) (whole - expBits - 1)).round

/-- n fraction bits of log2 y by repeated squaring, for y in [1, 2) in units of 2^-192. -/
def log2Bits (n y acc : Nat) : Nat :=
  match n with
  | 0 => acc
  | n + 1 =>
    let s := y * y / 2 ^ 192
    if s ≥ 2 ^ 193 then log2Bits n (s / 2) (2 * acc + 1) else log2Bits n s (2 * acc)

/-- LOG2 (R108): log2 a correctly rounded; exact for a power of two (log 30). -/
def log2 (a : FVal) : FVal :=
  match a with
  | .nan => .nan
  | .inf neg => if neg then .nan else .inf false
  | .fin m e =>
    if m = 0 then .inf true
    else if m < 0 then .nan
    else
      let n := m.toNat
      let k := bitLen n - 1
      let lead := e + k
      if n = 2 ^ k then (FVal.fin lead 0).round
      else
        let frac := log2Bits 120 (n * 2 ^ 192 / 2 ^ k) 0
        (FVal.fin ((lead * 2 ^ 120 + frac) * 2 + 1) (-121)).round

/-! ### Steps (R110 to R112) -/

/-- The smaller and the larger of two values, NaN if either is (R111). -/
def fmin (a b : FVal) : FVal := if a.isNan || b.isNan then .nan else if b.lt a then b else a
def fmax (a b : FVal) : FVal := if a.isNan || b.isNan then .nan else if a.lt b then b else a

/-- The largest integer not above the value. -/
def FVal.floor : FVal → FVal
  | .fin m e => if 0 ≤ e then .fin m e else .fin (m / 2 ^ (-e).toNat) 0
  | v => v

/-- The value rounded to an integer, nearest even. -/
def FVal.rint : FVal → FVal
  | .fin m e => if 0 ≤ e then .fin m e else
      let r := roundAt m.natAbs e 0 none
      .fin (if m < 0 then -(r : Int) else r) 0
  | v => v

/-- EXPO and MANT (R111). -/
def FVal.expo : FVal → Int
  | .fin m e => if m = 0 then -127 else leadExp m.natAbs e
  | _ => 128
def FVal.mant : FVal → FVal
  | .fin m e => if m = 0 then .zero else .fin m (e - leadExp m.natAbs e)
  | _ => .nan

/-- The pattern of a truth value. -/
def mask (b : Bool) : Nat := if b then 0xFFFFFFFF else 0

/-- The ops of R111. -/
def stepOps : List Nat :=
  [0x01, 0x02, 0x03, 0x04, 0x05, 0x06, 0x07, 0x08, 0x09, 0x0A, 0x0B, 0x0C, 0x0D, 0x0E, 0x10, 0x11, 0x12, 0x13, 0x14, 0x15,
   0x16, 0x18, 0x19, 0x1A, 0x1B, 0x1C, 0x20, 0x21]

/-- What a step writes, from the patterns of its operands (R111); an op outside the set never passes R115 and writes
zero. -/
def stepResult (op a b c : Nat) : Nat :=
  let x := f32 a
  let y := f32 b
  let z := f32 c
  let int (n : Int) : Nat := (n % 2 ^ 32).toNat
  match op with
  | 0x01 => (fadd x y).bits32
  | 0x02 => (fmul x y).bits32
  | 0x03 => (fma x y z).bits32
  | 0x04 => (fmin x y).bits32
  | 0x05 => (fmax x y).bits32
  | 0x06 => x.abs.bits32
  | 0x07 => x.neg.bits32
  | 0x08 => x.floor.bits32
  | 0x09 => x.rint.bits32
  | 0x0A => (x.scale (signed 32 b)).round.bits32
  | 0x0B => int x.expo
  | 0x0C => x.mant.bits32
  | 0x0D => encodeInt 32 x none
  | 0x0E => (FVal.fin (signed 32 a) 0).round.bits32
  | 0x10 => (a + b) % 2 ^ 32
  | 0x11 => (a + 2 ^ 32 - b) % 2 ^ 32
  | 0x12 => Nat.land a b
  | 0x13 => Nat.lor a b
  | 0x14 => Nat.xor a b
  | 0x15 => a * 2 ^ (b % 32) % 2 ^ 32
  | 0x16 => a / 2 ^ (b % 32)
  | 0x18 => mask (x.lt y)
  | 0x19 => mask (!x.isNan && !y.isNan && !y.lt x)
  | 0x1A => mask (!x.isNan && !y.isNan && !x.lt y && !y.lt x)
  | 0x1B => if a ≠ 0 then b else c
  | 0x1C => b
  | 0x20 => (exp2 x).bits32
  | 0x21 => (log2 x).bits32
  | _ => 0

/-- One step on the sixteen registers (R110). -/
def runStep (regs : List Nat) (w : Word64) : List Nat :=
  let n := w.toNat
  let reg (lo : Nat) : Nat := (regs[bits n lo 4]?).getD 0
  let imm := bits n 0 32
  let b := if bits n 33 1 = 1 then imm else reg 44
  let c := if bits n 32 1 = 1 then imm else reg 40
  regs.set (bits n 52 4) (stepResult (bits n 56 8) (reg 48) b c)

/-- The sixteen registers after a microprogram applied to its inputs (R110, R112). -/
def microRegs (steps : List Word64) (inputs : List FVal) : List Nat :=
  let m := inputs.map FVal.bits32
  steps.foldl runStep (m ++ List.replicate (16 - m.length) 0)

/-- A microprogram applied to its inputs: the values of its outputs (R112). -/
def runMicro (steps : List Word64) (outputs : Nat) (inputs : List FVal) : List FVal :=
  ((microRegs steps inputs).take outputs).map f32

/-- The number of EXP2 and of LOG2 steps of a microprogram. -/
def countOps (steps : List Word64) (op : Nat) : Nat := (steps.filter fun w => bits w.toNat 56 8 = op).length

/-! ### Built-in functions (R119) -/

/-- Inputs, outputs, registers and steps of the built-in functions; none for the reserved indices. -/
def builtinShape (index : Nat) : Option (Nat × Nat × Nat × Nat) :=
  [(1, 1, 1, 1), (1, 1, 5, 11), (1, 1, 16, 9), (1, 1, 16, 11), (1, 1, 16, 10), (1, 1, 16, 16), (1, 1, 16, 22), (1, 1, 16, 28),
   (1, 1, 16, 40), (1, 1, 16, 17), (1, 1, 16, 24), (1, 1, 16, 24), (1, 2, 16, 30), (1, 1, 1, 1)][index]?

/-- The EXP2 and LOG2 results of a built-in function, from the table: EXP2, then LOG2. -/
def builtinRom (index : Nat) : Nat × Nat :=
  let n := [0, 2, 2, 1, 1, 2, 2, 2, 2, 2, 0, 0, 0, 0].getD index 0
  let e := if index = 1 then 1 else min n (Config.builtinExp2 index)
  (e, n - e)

/-- The listing of RECIP (R119). -/
def recipSteps : List Word64 :=
  [0x0610000000000000, 0x2121000000000000, 0x0722000000000000, 0x2022000000000000, 0x0731000000000000, 0x033320013F800000,
   0x0332320000000000, 0x1A43300000000000, 0x1B34320000000000, 0x1210000280000000, 0x1303100000000000]

/-- The steps of a built-in function whose listing the spec gives: RECIP as listed, IDENTITY as one MOV and RELU as
FMAX(m0, +0) (the table calls both exact; log 31). -/
def builtinSteps (index : Nat) : List Word64 :=
  match index with
  | 0 => [0x1C00000000000000]
  | 1 => recipSteps
  | 13 => [0x0500000200000000]
  | _ => []

/-! ### The functions against which the bounds of R119 are stated, to about 2^-250 (log 31) -/

/-- pi in units of 2^-256, rounded down. -/
abbrev piFixed : Nat := 0x3243f6a8885a308d313198a2e03707344a4093822299f31d0082efa98ec4e6c89

/-- A finite value in units of 2^-256, rounded down; zero for what is not finite. -/
def FVal.fixed : FVal → Int
  | .fin m e => if 0 ≤ e + 256 then m * 2 ^ (e + 256).toNat else m / 2 ^ (-(e + 256)).toNat
  | _ => 0

/-- e^x for a finite x. -/
def expOf (x : FVal) : FVal :=
  let y := x.fixed
  let k := y / ln2Fixed
  .fin (expSeries 70 1 (2 ^ expBits) (y - k * ln2Fixed).toNat (2 ^ expBits)) (k - 256)

/-- ln x for a positive x. -/
def lnOf : FVal → FVal
  | .fin m e =>
    let n := m.toNat
    let k := bitLen n - 1
    let l : Int := (e + k) * 2 ^ 120 + log2Bits 120 (n * 2 ^ 192 / 2 ^ k) 0
    .fin (l * ln2Fixed) (-376)
  | v => v

/-- The square root of a finite value that is not negative. -/
def FVal.sqrt : FVal → FVal
  | .fin m e =>
    let odd := e % 2
    .fin (Nat.sqrt (m.toNat * 2 ^ (512 + odd.toNat))) ((e - odd) / 2 - 256)
  | v => v

/-- The series of the integral of e^(-t^2) from 0 to y, from its term k on: term is (-1)^(k-1) y^(2k-1)/(k-1)!. -/
def erfSeries (n k : Nat) (term y2 acc : Int) : Int :=
  match n with
  | 0 => acc
  | n + 1 =>
    let next := -(term * y2 / 2 ^ 256) / (k : Int)
    erfSeries n (k + 1) next y2 (acc + next / (2 * k + 1))

/-- sin y of an angle, both in units of 2^-256: the series of the angle's remainder by 2 pi, term by term. -/
def sinFixed (y : Int) : Int :=
  let r := y % (2 * piFixed)
  let y2 := r * r / 2 ^ 256
  (List.range 60).foldl (fun (p : Int × Int) k =>
    (-(p.1 * y2 / 2 ^ 256) / ((2 * k + 2) * (2 * k + 3)), p.2 + p.1)) (r, 0) |>.2

/-- erf z for |z| up to 6, and its limit beyond. -/
def erfOf (z : FVal) : FVal :=
  let y := z.fixed
  if 6 * 2 ^ 256 < y then .fin 1 0
  else if y < -(6 * 2 ^ 256) then .fin (-1) 0
  else
    let y2 := y * y / 2 ^ 256
    let s := erfSeries 220 1 y y2 y
    (FVal.fin (2 * s) (-256)).quot (FVal.sqrt (.fin piFixed (-256)))

/-- tanh and the logistic function of a finite value. -/
def sigmoidOf (x : FVal) : FVal := (FVal.fin 1 0).quot ((FVal.fin 1 0).add (expOf x.neg))
def tanhOf (x : FVal) : FVal := (FVal.fin 1 0).add ((FVal.fin (-2) 0).quot ((expOf (x.mul (.fin 2 0))).add (.fin 1 0)))

/-- The value of a function of R119 at a finite input. -/
def exactOf (index o : Nat) (x : FVal) : FVal :=
  let half := x.mul (.fin 1 (-1))
  match index with
  | 2 => (FVal.fin 1 0).quot x.sqrt
  | 3 => expOf x
  | 4 => lnOf x
  | 5 => sigmoidOf x
  | 6 => tanhOf x
  | 7 =>
    let c := (FVal.fin 44715 0).quot (.fin 1000000 0)
    let w := ((FVal.fin 2 0).quot (.fin piFixed (-256))).sqrt
    half.mul ((FVal.fin 1 0).add (tanhOf (w.mul (x.add (c.mul (x.mul (x.mul x)))))))
  | 8 => half.mul ((FVal.fin 1 0).add (erfOf (x.quot (FVal.sqrt (.fin 2 0)))))
  | 9 => x.mul (sigmoidOf x)
  | 10 => .fin (sinFixed x.fixed) (-256)
  | 11 => .fin (sinFixed (x.fixed + piFixed / 2)) (-256)
  | _ => if o = 0 then .fin (sinFixed x.fixed) (-256) else .fin (sinFixed (x.fixed + piFixed / 2)) (-256)

/-- The bound of a function of R119: units in the last place, and the power of two below which the error may stay in any case. -/
def boundOf (index : Nat) : Nat × Option Nat :=
  match index with
  | 2 => (1, none)
  | 3 | 4 => (2, none)
  | 5 => (3, none)
  | 6 => (4, some 26)
  | 7 | 9 => (4, some 24)
  | 8 => (6, some 24)
  | _ => (2, some 24)

/-- The limit of a function of R119 at an infinity of its domain. -/
def limitOf (index : Nat) (neg : Bool) : FVal :=
  match index with
  | 2 => .zero
  | 3 | 7 | 8 | 9 => if neg then .zero else .inf false
  | 5 => if neg then .zero else .fin 1 0
  | 6 => if neg then .fin (-1) 0 else .fin 1 0
  | _ => .inf false

/-- The domain over which R119 states the bound. -/
def inDomain (index : Nat) (x : FVal) : Bool :=
  match index with
  | 2 | 4 => FVal.zero.lt x
  | 10 | 11 | 12 => x.isFin && !(FVal.fin 1 20).lt x.abs
  | _ => true

/-- A result lies within a function's bound of the exact value (R119); the place of an exact zero is that of the smallest normal
numbers. -/
def withinBound (index : Nat) (y exact : FVal) : Bool :=
  let b := boundOf index
  let err := (y.add exact.neg).abs
  y.isFin && exact.isFin && (!((FVal.fin b.1 ((if exact.isZero then -126 else max exact.lead (-126)) - 23)).lt err) ||
    (match b.2 with | some n => !((FVal.fin 1 (-(n : Int))).lt err) | none => false))

/-- An output of a built-in function from 2 to 12 (R119): its listing's own bits, which lie within the stated bound over the
stated domain, and what the table states for RSQRT of zero and of a negative number; NaN gives NaN (log 31). Bits that break the
bound are no listing's: the model has the exact value rounded in their place (log 31). -/
def builtinOut (index o : Nat) (x : FVal) : FVal :=
  let free := f32 (Config.builtinResult index o x.bits32)
  if x.isNan then .nan
  else if index = 2 ∧ x.isZero then .inf false
  else if index = 2 ∧ x.lt .zero then .nan
  else if inDomain index x then
    let exact := match x with
      | .inf neg => limitOf index neg
      | _ => exactOf index o x
    if withinBound index free exact then free else exact.round
  else free

/-- A function's outputs for its inputs: a built-in function without a listing by R119, else its steps. -/
def runFn (index : Nat) (steps : List Word64) (outputs : Nat) (inputs : List FVal) : List FVal :=
  if 2 ≤ index ∧ index ≤ 12 then (List.range outputs).map fun o => builtinOut index o (inputs.headD .nan)
  else runMicro steps outputs inputs

/-- The EXP2 and LOG2 results of one application of a function. -/
def fnRom (index : Nat) (steps : List Word64) : Nat × Nat :=
  if index < 64 then builtinRom index else (countOps steps 0x20, countOps steps 0x21)

end Sys2Proof.Machine
end

