-- ==== Sys2Proof/Machine/Rows.lean ====
section
/-! DEFINITION. The row, element and copy commands: NORM, SOFTMAX, SAMPLE, ROPE, MICROPROG, COPY, TRANSPOSE and their
Umric U4 forms (04_vector_units.md R118 to R130, 08_commands.md R248 to R252). -/

namespace Sys2Proof.Machine

/-! ### Functions (R114, R116, R118) -/

/-- What an index of the function table holds from boot on (R114, R116): indices 0 to 63 are ACTIVE, with a built-in function or,
where R119 reserves the index, with none, so that no use matches it (log 31); the others are FREE. -/
def builtinFn (index : Nat) : Fn :=
  match builtinShape index with
  | some (i, o, r, _) => { state := .active, inputs := i, outputs := o, regs := r, steps := builtinSteps index }
  | none => if index < 64 then { state := .active } else {}

/-- An index of the function table. -/
def Device.fn (d : Device) (index : Nat) : Fn := look d.sfu.fns index (builtinFn index)

/-- A function applied to one element. -/
def Device.apply (d : Device) (index : Nat) (inputs : List FVal) : List FVal :=
  let f := d.fn index
  runFn index f.steps f.outputs inputs

/-- A function of one input and one output applied to a value. -/
def Device.apply1 (d : Device) (index : Nat) (x : FVal) : FVal := (d.apply index [x]).headD .nan

/-- EXP2 and LOG2 results of a command that produced some before in this execution: the counters of the engine's first enabled
cell, and its events, which count each full 128 (SFU page, R332; log 31). -/
def Upd.countRom (e s exps logs : Nat) : Upd :=
  .read fun d =>
    let c := (d.cellsOf e).headD 0
    let was := ((d.slot e s).cur.map (·.rom)).getD (0, 0)
    .all [.cur e s fun k => { k with rom := (was.1 + exps, was.2 + logs) },
      .count (sfuPage e c + 0x60) exps, .count (sfuPage e c + 0x68) logs,
      .event e (0x112 + 0x40 * c) ((was.1 + exps) / 128 - was.1 / 128), .event e (0x113 + 0x40 * c) ((was.2 + logs) / 128 - was.2 / 128)]

/-- Steps of the vector unit, each over 512 lanes, of the engine's first enabled cell: its counter and its event (VEC page, R332;
log 31). -/
def Upd.vecSteps (e n : Nat) : Upd :=
  .read fun d => let c := (d.cellsOf e).headD 0
    .all [.count (vecPage e c + 0x68) n, .event e (0x110 + 0x40 * c) n]

/-- Rows that the epilogue writes: the counter and the event of the engine's first enabled cell (VEC page, R332; log 31). -/
def Upd.epiRows (e n : Nat) : Upd :=
  .read fun d => let c := (d.cellsOf e).headD 0
    .all [.count (vecPage e c + 0x70) n, .event e (0x114 + 0x40 * c) n]

/-- The steps of a function (R113, R119). -/
def Device.fnSteps (d : Device) (index : Nat) : Nat :=
  match builtinShape index with
  | some (_, _, _, s) => s
  | none => (d.fn index).steps.length

/-- The counters of the SFU for elements put through a function (SFU page; log 31). -/
def Upd.countFn (e s index elems : Nat) : Upd :=
  .read fun d =>
    let n := fnRom index (d.fn index).steps
    .all [.countRom e s (elems * n.1) (elems * n.2), .count (sfuPage e ((d.cellsOf e).headD 0) + 0x70) (ceilDiv elems 512),
      .vecSteps e (ceilDiv elems 512 * d.fnSteps index)]

/-- The function evaluates EXP2 or LOG2, so that it reads their tables (R131). -/
def Device.fnUsesRom (d : Device) (index : Nat) : Bool := fnRom index (d.fn index).steps ≠ (0, 0)

/-- What an operator's tile uses, by its descriptor (R114, R131, R132): the functions that each kind of command applies. -/
def Device.opUse (d : Device) (op : Nat) (desc : List Byte) : TileUse :=
  let fns := if op = opMatmul then (if fieldAt desc 112 1 = 0 then [] else [fieldAt desc 112 1])
    else if op = opPrefill ∨ op = opDecode then (if fieldAt desc 55 1 % 2 = 1 then [1, 12] else [1])
    else if op = opAppend then (if fieldAt desc 50 1 % 2 = 1 then [12] else [])
    else if op = opNorm then [2]
    else if op = opSoftmax then [1]
    else if op = opRope then [12]
    else if op = opMicroprog then [fieldAt desc 84 1]
    else []
  { op := op, desc := desc, fns := fns,
    rom := op = opPrefill || op = opDecode || op = opSoftmax || op = opSample || fns.any d.fnUsesRom }

/-- The units that the tiles of a command of rows or elements use. -/
def rowUnits : Units := { use := fun d v => d.opUse v.op v.cmd.desc }

/-! ### Rows of a command -/

/-- Row-status bits of R255. -/
abbrev emptyRow : Nat := 1
abbrev zeroVar : Nat := 2
abbrev sampleNan : Nat := 4
abbrev varOvf : Nat := 8

/-- What a row of a command gives: its output bytes, its statistics bytes, its row status, and whether a NaN became a
number. -/
structure RowOut where
  bytes : List Byte
  stats : List Byte := []
  status : Nat := 0
  narrow : Bool := false

/-- A piece of the command's canonical stream, by its place, when a digest is asked for (R318). -/
def Upd.digest (v : Env) (place : Nat) (bytes : List Byte) : Upd :=
  .when (flagBit v.cmd.desc 4) (.cur v.e v.s fun c => { c with stream := put c.stream place bytes [] })

/-- A row's results are noted on the command: its status byte (R255), NARROW_NAN (R54), and its part of the canonical
stream (R318): rows first, statistics records after them. -/
def Upd.noteRow (v : Env) (row : Nat) (o : RowOut) : Upd :=
  .all [
    .cur v.e v.s fun c => { c with rowStatus := put c.rowStatus row o.status 0, narrowNan := c.narrowNan || o.narrow },
    .digest v row o.bytes, .digest v (2 ^ 33 + row) o.stats]

/-- The rows of the tile under way: up to 64 consecutive rows (R231). -/
def Env.rowTile (v : Env) (rows : Nat) : List Nat :=
  let first := v.cmd.done * 64
  span first (min 64 (rows - first))

/-- Elements of a row between two preemption points of NORM, SOFTMAX and SAMPLE: what 512 core cycles put through EXP2 and more,
the partial results of a row being kept in block store (R261; log 25). -/
abbrev rowPiece : Nat := 65536

/-- A tile of rows is carried out in pieces. A row of one piece is read and written in it; a longer one is read piece by piece and
then written piece by piece. The row's place within the tile, its pieces, and the piece under way, counted over both. -/
def Env.rowPart (v : Env) (n : Nat) : Nat × Nat × Nat :=
  let per := max 1 (ceilDiv n rowPiece)
  let all := if per = 1 then 1 else 2 * per
  (v.cmd.piece / all, per, v.cmd.piece % all)

/-- The values of a row read from memory. -/
def rowValues (code : Nat) (l : List Byte) (n : Nat) : List FVal :=
  match fmtOf code with
  | some f => (unpackElems f l n).map (decodeElem f)
  | none => []

/-- The bytes of n elements of a format code, with MX scales. -/
def codeBytes (code n : Nat) : Nat :=
  match fmtOf code with
  | some f => rowBytes f n
  | none => 0

/-- The output bytes of elements whose first has canonical index i. -/
def outPart (code : Nat) (stochastic : Bool) (seed i : Nat) (vals : List FVal) : List Byte × Bool :=
  match fmtOf code with
  | some f => encodeRow f vals (rowRand stochastic seed i vals.length)
  | none => ([], false)

/-- The output bytes of a row. -/
def outRow (code : Nat) (stochastic : Bool) (seed row : Nat) (vals : List FVal) : List Byte × Bool :=
  outPart code stochastic seed (row * vals.length) vals

/-- A vector of n values, BF16 or FP32 (R121, R125). -/
def vector (bf16 : Bool) (l : List Byte) (n : Nat) : List FVal := rowValues (if bf16 then 0 else 4) l n

/-! ### NORM (R125, R126) -/

/-- What a row leaves in the units that reduce it (R64, R105, R107): the values added into row accumulators 0, 1 and so on, and the
scalar unit's registers. -/
structure RowStats where
  sums : List (List FVal) := []
  regs : List (Nat × FVal) := []

/-- The row accumulators and the scalar registers of the engine's first enabled cell after a row (R105, R107; log 120). -/
def Upd.rowStats (e : Nat) (t : RowStats) : Upd :=
  .read fun d => .cell e ((d.cellsOf e).headD 0) fun x => { x with
    rowAccs := (t.sums.zip (List.range t.sums.length)).foldl (fun m p => put m p.2 (RowAcc.of p.1) {}) x.rowAccs,
    scalars := t.regs.foldl (fun m p => put m p.1 (BitVec.ofNat 32 p.2.bits32) 0) x.scalars }

/-- The scalar registers that hold a row's mean, inverse deviation, maximum, and reciprocal of its sum (log 120). -/
abbrev regMean : Nat := 0
abbrev regInv : Nat := 1
abbrev regMax : Nat := 2
abbrev regRecip : Nat := 3

/-- One row of NORM, before its conversion: the values and the row status, and what it leaves in the units: LayerNorm the exact sums
of the row and of the squared deviations, RMSNorm that of the squares. -/
def Device.normRow (d : Device) (rms : Bool) (eps : FVal) (gamma beta x : List FVal) : List FVal × Nat × RowStats :=
  let mu := if rms then FVal.zero else rowMean x
  let squares := if rms then x.map fun a => fmul a a else rowSquares x mu
  let v := if rms then (exactSum squares).divNat x.length else rowVariance x
  let w := fadd v eps
  let inv := d.apply1 2 w
  let zero := w.isZero || w = .inf false
  let t := x.map fun a => if zero then FVal.zero else fmul (if rms then a else fsub a mu) inv
  let y := if rms then (t.zip gamma).map fun p => fmul p.1 p.2
    else (t.zip (gamma.zip beta)).map fun p => fma p.1 p.2.1 p.2.2
  (y, if w.isZero then zeroVar else if w = .inf false then varOvf else 0,
    { sums := if rms then [squares] else [x, squares], regs := (if rms then [] else [(regMean, mu)]) ++ [(regInv, inv)] })

/-- The reads and writes of some rows: the rows, the outputs, then what aux ranges the command adds. -/
def rowRanges (v : Env) (rows : List Nat) (inLen outLen outBase outStride outStream : Nat) (aux : List Rng) : List Rng :=
  (rows.map fun r => ⟨v.fld 32 8 + r * v.fld 72 4, inLen, 2, false⟩) ++
  (rows.map fun r => ⟨outBase + r * outStride, outLen, outStream, true⟩) ++ aux

/-- A tile of a row command, up to its next preemption point (R231, R261): a piece of a row is read and kept; with its last piece
the row is worked out from all of it and the other ranges of the tile, and its output written, a piece of it at a time when the row
has several. `aux` gives the other ranges of some rows, `one` a row's results and what else it changes. -/
def Device.rowsTile (d : Device) (v : Env) (inFmt outLen outBase outStride outStream : Nat) (aux : List Nat → List Rng)
    (one : Nat → List FVal → List (List Byte) → RowOut × Upd) : TileRes :=
  let n := v.fld 64 4
  let total := v.fld 68 4
  let rows := v.rowTile total
  let (k, per, j) := v.rowPart n
  let lo := j * rowPiece
  let row := v.cmd.done * 64 + k
  let whole := rowRanges v rows (codeBytes inFmt n) outLen outBase outStride outStream (aux rows)
  let src : Rng := ⟨v.fld 32 8 + row * v.fld 72 4 + codeBytes inFmt lo, codeBytes inFmt (min rowPiece (n - lo)), 2, false⟩
  -- the piece of the row's output, the last one with its other written ranges
  let size := ceilDiv outLen per
  let out := (j - (if per = 1 then 0 else per)) * size
  let ends : Bool := per = 1 || j + 1 = 2 * per
  let dst : Rng := ⟨outBase + row * outStride + out, min size (outLen - out), outStream, true⟩
  let others := (aux [row]).filter fun r => ends || !r.write
  if per ≠ 1 && j < per then
    d.tilePart v whole [src] fun bs =>
      { extra := .cur v.e v.s fun c => { c with rowHeld := c.rowHeld ++ bs.headD [] }, more := true }
  else
    d.tilePart v whole ((if per = 1 then [src] else []) ++ dst :: others) fun bs =>
      let r := one row (rowValues inFmt (if per = 1 then bs.headD [] else v.cmd.rowHeld) n) (if per = 1 then bs.drop 1 else bs)
      { writes := (r.1.bytes.drop out).take size :: (if ends && !r.1.stats.isEmpty then [r.1.stats] else []),
        extra := .when ends (.all [.cur v.e v.s fun c => { c with rowHeld := [] }, .noteRow v row r.1, r.2]),
        more := !ends || k + 1 < rows.length, last := total ≤ (v.cmd.done + 1) * 64 }

/-- A tile of NORM. -/
def tileNorm (d : Device) (v : Env) : TileRes :=
  let n := v.fld 64 4
  let rms := v.fld 94 1 = 1
  let bf16 := bits (v.fld 95 1) 1 1 = 1
  let vec (off : Nat) : Rng := ⟨v.fld off 8, codeBytes (if bf16 then 0 else 4) n, 2, false⟩
  d.rowsTile v (v.fld 92 1) (codeBytes (v.fld 93 1) n) (v.fld 40 8) (v.fld 76 4) 3 (fun _ => vec 48 :: (if rms then [] else [vec 56]))
    fun row x bs =>
      let y := d.normRow rms (f32 (v.fld 80 4)) (vector bf16 (bs.getD 0 []) n) (vector bf16 (bs.getD 1 []) n) x
      let b := outRow (v.fld 93 1) (bits (v.fld 95 1) 0 1 = 1) (v.fld 96 8) row y.1
      ({ bytes := b.1, status := y.2.1, narrow := b.2 }, .all [.countFn v.e v.s 2 1, .rowStats v.e y.2.2])

/-- NORM (R125, R126, R248). -/
def execNorm (e n : Nat) (s : State) : Host.Outcome State Fault Refusal := s.act (.norm e n) (.tiles e n [opNorm] tileNorm rowUnits)

/-! ### SOFTMAX (R127, R128) -/

/-- The largest value of a row without NaN; none for an empty row. -/
def rowMax (x : List FVal) : Option FVal :=
  match x with
  | [] => none
  | a :: r => some (r.foldl (fun m y => if m.lt y then y else m) a)

/-- One row of SOFTMAX: its values, the statistics m and s, its status, and what it leaves in the units. -/
def Device.softmaxRow (d : Device) (kappa : FVal) (x : List FVal) : List FVal × FVal × FVal × Nat × RowStats :=
  if x.any fun a => a.isNan || a = .inf false then (x.map fun _ => .nan, .nan, .nan, 0, {})
  else match rowMax x with
  | none => ([], .inf true, .zero, emptyRow, {})
  | some m =>
    if m = .inf true then (x.map fun _ => .zero, .inf true, .zero, emptyRow, { regs := [(regMax, m)] })
    else
      let e := x.map fun a => exp2 (fmul (fsub a m) kappa)
      let s := rowSum e
      let r := d.apply1 1 s
      (e.map fun a => fmul a r, m, s, 0, { sums := [e], regs := [(regMax, m), (regRecip, r)] })

/-- A tile of SOFTMAX. -/
def tileSoftmax (d : Device) (v : Env) : TileRes :=
  let n := v.fld 64 4
  let stats := v.fld 48 8 ≠ 0
  d.rowsTile v (v.fld 92 1) (codeBytes (v.fld 93 1) n) (v.fld 40 8) (v.fld 76 4) 3
    (fun rows => if stats then rows.map fun r => ⟨v.fld 48 8 + 8 * r, 8, 3, true⟩ else []) fun row x _ =>
      let y := d.softmaxRow (f32 (v.fld 80 4)) x
      let b := outRow (v.fld 93 1) (bits (v.fld 95 1) 0 1 = 1) (v.fld 96 8) row y.1
      let st := if stats then toBytes 4 y.2.1.bits32 ++ toBytes 4 y.2.2.1.bits32 else []
      ({ bytes := b.1, stats := st, status := y.2.2.2.1, narrow := b.2 },
        .all [.countRom v.e v.s n 0, .countFn v.e v.s 1 1, .rowStats v.e y.2.2.2.2])

/-- SOFTMAX (R127, R128, R248). -/
def execSoftmax (e n : Nat) (s : State) : Host.Outcome State Fault Refusal :=
  s.act (.softmax e n) (.tiles e n [opSoftmax] tileSoftmax rowUnits)

/-! ### SAMPLE (R129, R130) -/

/-- a ranks before b: the larger value first, the lower index first among equals (R130). -/
def ranksBefore (a b : Nat × FVal) : Bool := b.2.lt a.2 || (!a.2.lt b.2 && a.1 < b.1)

/-- A candidate put in its place among ranked ones. -/
def insertRank (p : Nat × FVal) : List (Nat × FVal) → List (Nat × FVal)
  | [] => [p]
  | q :: r => if ranksBefore p q then p :: q :: r else q :: insertRank p r

/-- The candidates in rank order. -/
def rankOrder (x : List (Nat × FVal)) : List (Nat × FVal) := x.foldr insertRank []

/-- The shortest prefix, at least one long, whose exact sum reaches a bound (R130). -/
def prefixTo (bound : FVal) (acc : FVal) : List (Nat × FVal × FVal) → List (Nat × FVal × FVal)
  | [] => []
  | p :: r =>
    let acc := acc.add p.2.2
    if acc.lt bound then p :: prefixTo bound acc r else [p]

/-- The first kept candidate whose running sum is above the target (R130). -/
def pick (target : FVal) (acc : FVal) : List (Nat × FVal × FVal) → Option (Nat × FVal × FVal)
  | [] => none
  | p :: r =>
    let acc := acc.add p.2.2
    if target.lt acc then some p else pick target acc r

/-- One row of SAMPLE: token, log-probability, row status (R130), and what it leaves in the units. -/
def sampleRow (mode : Nat) (kappa topP : FVal) (topK seed row : Nat) (x : List FVal) : Nat × FVal × Nat × RowStats :=
  let indexed := (List.range x.length).zip x
  let order := rankOrder indexed
  match order with
  | [] => (0xFFFFFFFF, .nan, emptyRow, {})
  | (first, m) :: _ =>
    if m = .inf true then (0xFFFFFFFF, .nan, emptyRow, { regs := [(regMax, m)] })
    else
      let t (a : FVal) : FVal :=
        if m = .inf false then (if a = .inf false then .zero else .inf true) else fmul (fsub a m) kappa
      let all := order.map fun p => (p.1, t p.2, exp2 (t p.2))
      let cand := if topK = 0 then all else all.take topK
      let bound := topP.mul (exactSum (cand.map fun p => p.2.2))
      let kept := if topP.lt (.fin 1 0) then prefixTo bound .zero cand else cand
      let w1 := exactSum (kept.map fun p => p.2.2)
      let left : RowStats := { sums := [cand.map fun p => p.2.2, kept.map fun p => p.2.2], regs := [(regMax, m)] }
      let usable := kappa.isFin && FVal.zero.lt kappa && !topP.isNan
      if mode = 0 then
        let ts := t m
        (first, if usable then fsub ts (log2 w1.round) else .nan, 0, left)
      else
        let u := word4 (philox (row % 2 ^ 32, row / 2 ^ 32, 2, 0) seed) 0 / 256
        let target := (FVal.fin u (-24)).mul w1
        match pick target .zero kept with
        | some p => (p.1, fsub p.2.1 (log2 w1.round), 0, left)
        | none => (first, .nan, 0, left)

/-- The 8 bytes of a SAMPLE row: a row that contains NaN, or whose logits are all -infinity, gives the token 0xFFFF_FFFF
and log-probability 0xFFC0_0000 (R130, R248). -/
def sampleOut (v : Env) (row : Nat) (x : List FVal) : RowOut × RowStats :=
  let none32 := toBytes 4 0xFFFFFFFF ++ toBytes 4 0xFFC00000
  if x.any FVal.isNan then ({ bytes := none32, status := sampleNan }, {})
  else
    let r := sampleRow (v.fld 94 1) (f32 (v.fld 80 4)) (f32 (v.fld 84 4)) (v.fld 88 4) (v.fld 96 8) row x
    if r.2.2.1 ≠ 0 then ({ bytes := none32, status := r.2.2.1 }, r.2.2.2)
    else ({ bytes := toBytes 4 r.1 ++ toBytes 4 r.2.1.bits32 }, r.2.2.2)

/-- A tile of SAMPLE; its results go by the snare path (R277). -/
def tileSample (d : Device) (v : Env) : TileRes :=
  let n := v.fld 64 4
  d.rowsTile v (v.fld 92 1) 8 (v.fld 40 8) 8 6 (fun _ => []) fun row x _ =>
    let y := sampleOut v row x
    (y.1, .all [.countRom v.e v.s n 1, .rowStats v.e y.2, .snare v.e 0 (snarePieces (v.fld 40 8 + 8 * row) 8) 8])

/-- SAMPLE (R129, R130, R248). -/
def execSample (e n : Nat) (s : State) : Host.Outcome State Fault Refusal :=
  s.act (.sample e n) (.tiles e n [opSample] tileSample rowUnits)

/-! ### ROPE (R120, R249) -/

/-- One rotary pair at an angle (R120). -/
def Device.rotate (d : Device) (theta x0 x1 : FVal) : FVal × FVal :=
  let sc := d.apply 12 [theta]
  let s := sc.headD .nan
  let c := sc.getD 1 .nan
  (fma x0 c (fmul x1 s).neg, fma x0 s (fmul x1 c))

/-- A head's elements rotated at a position (R120, R159): halves or interleaved pairing. -/
def Device.rotateHead (d : Device) (interleaved : Bool) (pos : Nat) (freqs x : List FVal) : List FVal :=
  let half := x.length / 2
  let at' (i : Nat) : FVal := x.getD i .zero
  let pair (j : Nat) : FVal × FVal :=
    d.rotate (fmul (.ofNat pos) (freqs.getD j .zero)) (if interleaved then at' (2 * j) else at' j)
      (if interleaved then at' (2 * j + 1) else at' (j + half))
  let ps := (List.range half).map pair
  if interleaved then ps.flatMap fun p => [p.1, p.2] else ps.map (·.1) ++ ps.map (·.2)

/-- Heads of a ROPE row between two preemption points: 512 core cycles put 512 x 17 pairs and more through SINCOS (R119, R261;
log 25). -/
abbrev ropePiece : Nat := 64

/-- ROPE, whose whole command is one tile (R231), up to its next preemption point. -/
def tileRope (d : Device) (v : Env) : TileRes :=
  let rows := v.fld 72 8
  let h := v.fld 80 2
  let dim := v.fld 82 2
  let flags := v.fld 87 1
  let inLen := codeBytes (v.fld 85 1) (h * dim)
  let outLen := codeBytes (v.fld 86 1) (h * dim)
  let per := max 1 (ceilDiv h ropePiece)
  let r := v.cmd.piece / per
  let h0 := v.cmd.piece % per * ropePiece
  let hs := min ropePiece (h - h0)
  d.tilePart v [⟨v.fld 32 8, rows * inLen, 2, false⟩, ⟨v.fld 40 8, rows * outLen, 3, true⟩,
      ⟨v.fld 48 8, rows * 4, 2, false⟩, ⟨v.fld 56 8, dim / 2 * 4, 2, false⟩]
    [⟨v.fld 32 8 + r * inLen + codeBytes (v.fld 85 1) (h0 * dim), codeBytes (v.fld 85 1) (hs * dim), 2, false⟩,
      ⟨v.fld 40 8 + r * outLen + codeBytes (v.fld 86 1) (h0 * dim), codeBytes (v.fld 86 1) (hs * dim), 3, true⟩,
      ⟨v.fld 48 8 + 4 * r, 4, 2, false⟩, ⟨v.fld 56 8, dim / 2 * 4, 2, false⟩] fun bs =>
    let freqs := vector false (bs.getD 2 []) (dim / 2)
    let x := rowValues (v.fld 85 1) (bs.getD 0 []) (hs * dim)
    let y := (pieces dim x).flatMap (d.rotateHead (bits flags 0 1 = 1) (fieldAt (bs.getD 1 []) 0 4) freqs)
    let b := outPart (v.fld 86 1) (bits flags 1 1 = 1) (v.fld 88 8) (r * (h * dim) + h0 * dim) y
    let o : RowOut := { bytes := b.1, narrow := b.2 }
    { writes := [o.bytes],
      extra := .all [.cur v.e v.s fun c => { c with rowStatus := put c.rowStatus r 0 0, narrowNan := c.narrowNan || o.narrow },
        .digest v (r * 1024 + h0) o.bytes, .countFn v.e v.s 12 (hs * dim / 2)],
      more := r + 1 < rows || h0 + hs < h }

/-- ROPE (R120, R249). -/
def execRope (e n : Nat) (s : State) : Host.Outcome State Fault Refusal := s.act (.rope e n) (.tiles e n [opRope] tileRope rowUnits)

/-! ### MICROPROG (R112, R118, R249) -/

/-- The inputs and outputs that a MICROPROG command's addresses give (R118; log 32). -/
def microUse (desc : List Byte) : Nat × Nat :=
  let f := fieldAt desc
  (if f 48 8 ≠ 0 then 3 else if f 40 8 ≠ 0 then 2 else 1, if f 64 8 ≠ 0 then 2 else 1)

/-- Elements of a MICROPROG between two preemption points: 512 core cycles of its steps, one cycle for each on 512 lanes and four
for EXP2 and LOG2 (R105, R261; log 25). -/
def Device.microPiece (d : Device) (index : Nat) : Nat :=
  let n := fnRom index (d.fn index).steps
  512 * max 1 (512 / max 1 (d.fnSteps index + 3 * (n.1 + n.2)))

/-- The vector registers of the engine's first enabled cell after a program's last 512 elements, element i on lane i mod 512
(R105, R110, R112; log 120). -/
def Upd.vregs (e : Nat) (f : Nat → List Nat) (n : Nat) : Upd :=
  .read fun d => .cell e ((d.cellsOf e).headD 0) fun x => { x with
    vregs := (span (n - 512) (min n 512)).foldl (fun m i =>
      let r := f i
      (List.range r.length).foldl (fun m k => put m (i % 512 * 16 + k) (r.getD k 0) 0) m) x.vregs }

/-- MICROPROG, whose whole command is one tile (R231), up to its next preemption point. An MX output has its scales after all its
elements (R55). -/
def tileMicro (d : Device) (v : Env) : TileRes :=
  let n := v.fld 72 8
  let use := microUse v.cmd.desc
  let index := v.fld 84 1
  let f := d.fn index
  let size := d.microPiece index
  let lo := v.cmd.piece * size
  let len := min size (n - lo)
  let mx := (fmtOf (v.fld 86 1)).any (·.isMx)
  let elems (k : Nat) : Nat := match fmtOf (v.fld 86 1) with
    | some g => elemBytes g k
    | none => 0
  let outs (a m k : Nat) : List Rng := ⟨a + elems m, elems k, 3, true⟩ :: (if mx then [⟨a + elems n + m / 32, ceilDiv k 32, 3, true⟩] else [])
  d.tilePart v (((List.range use.1).map fun i => ⟨v.fld (32 + 8 * i) 8, codeBytes (v.fld 85 1) n, 2, false⟩) ++
      ((List.range use.2).map fun i => ⟨v.fld (56 + 8 * i) 8, codeBytes (v.fld 86 1) n, 3, true⟩))
    (((List.range use.1).map fun i => ⟨v.fld (32 + 8 * i) 8 + codeBytes (v.fld 85 1) lo, codeBytes (v.fld 85 1) len, 2, false⟩) ++
      ((List.range use.2).flatMap fun i => outs (v.fld (56 + 8 * i) 8) lo len)) fun bs =>
    let ins := bs.map fun b => rowValues (v.fld 85 1) b len
    let args (i : Nat) : List FVal := ins.map fun l => l.getD i .zero
    let res := (List.range len).map fun i => d.apply index (args i)
    let done := (List.range use.2).map fun o => (o, outPart (v.fld 86 1) (bits (v.fld 87 1) 1 1 = 1) (v.fld 88 8) lo (res.map fun r => r.getD o .nan))
    let cut (b : List Byte) : List (List Byte) := if mx then [b.take (elems len), b.drop (elems len)] else [b]
    { writes := done.flatMap fun o => cut o.2.1,
      extra := .all [
        .cur v.e v.s fun c => { c with narrowNan := c.narrowNan || done.any fun o => o.2.2 },
        .each done fun o => .each ((cut o.2.1).zip [0, 1]) fun b => .digest v (o.1 * 2 ^ 52 + b.2 * 2 ^ 48 + v.cmd.piece) b.1,
        .when (!f.steps.isEmpty) (.vregs v.e (fun i => microRegs f.steps (args i)) len),
        .countFn v.e v.s index len],
      more := lo + len < n }

/-- MICROPROG (R112, R118, R132, R249). -/
def execMicroprog (e n : Nat) (s : State) : Host.Outcome State Fault Refusal :=
  s.act (.microprog e n) (.tiles e n [opMicroprog] tileMicro rowUnits)

/-! ### COPY and TRANSPOSE (R250) -/

/-- Bytes between two preemption points of COPY, TRANSPOSE and U4_COPY (R261). -/
abbrev unitBytes : Nat := 4096

/-- A tile of COPY: 64 KiB of source with its destination (R231), in units of 4 KiB (R261). A COPY of at most 256 bytes goes by the
snare path (R277), on its stream. -/
def tileCopy (d : Device) (v : Env) : TileRes :=
  let total := v.fld 48 8
  let off := v.cmd.done * 65536
  let n := min 65536 (total - off)
  let at' := v.cmd.piece * unitBytes
  let m := min unitBytes (n - at')
  let snare := total ≤ 256
  let rng (o k : Nat) : List Rng :=
    [⟨v.fld 32 8 + o, k, if snare then 6 else 4, false⟩, ⟨v.fld 40 8 + o, k, if snare then 6 else 5, true⟩]
  d.tilePart v (rng off n) (rng (off + at') m) fun bs =>
    { writes := [bs.headD []],
      extra := .all [.digest v (v.cmd.done * 16 + v.cmd.piece) (bs.headD []),
        if snare then .snare v.e (snarePieces (v.fld 32 8) n) (snarePieces (v.fld 40 8) n) (2 * n) else .moved v.e m m],
      more := at' + m < n, last := total ≤ off + 65536 }

/-- COPY (R250). -/
def execCopy (e n : Nat) (s : State) : Host.Outcome State Fault Refusal := s.act (.copy e n) (.tiles e n [opCopy] tileCopy)

/-- U4_COPY (R252). -/
def execU4Copy (e n : Nat) (s : State) : Host.Outcome State Fault Refusal := s.act (.u4Copy e n) (.tiles e n [opU4Copy] tileCopy)

/-- A tile of TRANSPOSE: whole source rows up to 64 KiB, or 64 KiB of a longer row, with the destination they fill (R231, R250), in
units of 4 KiB of them (R261): whole rows, or part of one. The written range of each destination row is the row's part for the
source rows. -/
def tileTranspose (d : Device) (v : Env) : TileRes :=
  let rows := v.fld 56 4
  let cols := v.fld 60 4
  let sz := v.fld 72 1
  let wide (k : Nat) : Nat := max 1 (min cols (k / max 1 sz))
  let per (k : Nat) : Nat := max 1 (k / max 1 (cols * sz))
  let across := max 1 (ceilDiv cols (wide 65536))
  let first := v.cmd.done / across * per 65536
  let j0 := v.cmd.done % across * wide 65536
  let h := min (per 65536) (rows - first)
  let w := min (wide 65536) (cols - j0)
  let units := max 1 (ceilDiv w (wide unitBytes))
  let r0 := first + v.cmd.piece / units * per unitBytes
  let c0 := j0 + v.cmd.piece % units * wide unitBytes
  let hh := min (per unitBytes) (first + h - r0)
  let ww := min (wide unitBytes) (j0 + w - c0)
  let rng (r h c w : Nat) : List Rng :=
    ((span r h).map fun i => ⟨v.fld 32 8 + i * v.fld 64 4 + c * sz, w * sz, 4, false⟩) ++
      ((span c w).map fun j => ⟨v.fld 40 8 + j * v.fld 68 4 + r * sz, h * sz, 5, true⟩)
  d.tilePart v (rng first h j0 w) (rng r0 hh c0 ww) fun bs =>
    let col (j : Nat) : List Byte := bs.flatMap fun b => (b.drop ((j - c0) * sz)).take sz
    let outs := (span c0 ww).map fun j => (j, col j)
    { writes := outs.map (·.2),
      extra := .all [.each outs fun o => .digest v (o.1 * 2 ^ 24 + r0) o.2, .moved v.e (hh * ww * sz) (hh * ww * sz)],
      more := r0 + hh < first + h || c0 + ww < j0 + w, last := rows ≤ first + per 65536 ∧ cols ≤ j0 + wide 65536 }

/-- TRANSPOSE (R250). -/
def execTranspose (e n : Nat) (s : State) : Host.Outcome State Fault Refusal :=
  s.act (.transpose e n) (.tiles e n [opTranspose] tileTranspose)

/-! ### NOP -/

/-- NOP (R241): no work. -/
def execNop (e n : Nat) (s : State) : Host.Outcome State Fault Refusal :=
  s.act (.nop e n) (.tiles e n [opNop] fun _ _ => .last .skip)

end Sys2Proof.Machine
end

