-- ==== Sys2Proof/Machine/Digest.lean ====
section
/-! DEFINITION. SHA-384 as FIPS 180-4 defines it (10_determinism.md R322), and the layer digest over GF(2^128) (R319). -/

namespace Sys2Proof.Machine

/-! ### SHA-384 (R322) -/

/-- The round constants of FIPS 180-4. -/
def shaK : List Word64 :=
  [0x428A2F98D728AE22, 0x7137449123EF65CD, 0xB5C0FBCFEC4D3B2F, 0xE9B5DBA58189DBBC,
   0x3956C25BF348B538, 0x59F111F1B605D019, 0x923F82A4AF194F9B, 0xAB1C5ED5DA6D8118,
   0xD807AA98A3030242, 0x12835B0145706FBE, 0x243185BE4EE4B28C, 0x550C7DC3D5FFB4E2,
   0x72BE5D74F27B896F, 0x80DEB1FE3B1696B1, 0x9BDC06A725C71235, 0xC19BF174CF692694,
   0xE49B69C19EF14AD2, 0xEFBE4786384F25E3, 0x0FC19DC68B8CD5B5, 0x240CA1CC77AC9C65] ++
  [0x2DE92C6F592B0275, 0x4A7484AA6EA6E483, 0x5CB0A9DCBD41FBD4, 0x76F988DA831153B5,
   0x983E5152EE66DFAB, 0xA831C66D2DB43210, 0xB00327C898FB213F, 0xBF597FC7BEEF0EE4,
   0xC6E00BF33DA88FC2, 0xD5A79147930AA725, 0x06CA6351E003826F, 0x142929670A0E6E70,
   0x27B70A8546D22FFC, 0x2E1B21385C26C926, 0x4D2C6DFC5AC42AED, 0x53380D139D95B3DF,
   0x650A73548BAF63DE, 0x766A0ABB3C77B2A8, 0x81C2C92E47EDAEE6, 0x92722C851482353B] ++
  [0xA2BFE8A14CF10364, 0xA81A664BBC423001, 0xC24B8B70D0F89791, 0xC76C51A30654BE30,
   0xD192E819D6EF5218, 0xD69906245565A910, 0xF40E35855771202A, 0x106AA07032BBD1B8,
   0x19A4C116B8D2D0C8, 0x1E376C085141AB53, 0x2748774CDF8EEB99, 0x34B0BCB5E19B48A8,
   0x391C0CB3C5C95A63, 0x4ED8AA4AE3418ACB, 0x5B9CCA4F7763E373, 0x682E6FF3D6B2B8A3,
   0x748F82EE5DEFB2FC, 0x78A5636F43172F60, 0x84C87814A1F0AB72, 0x8CC702081A6439EC] ++
  [0x90BEFFFA23631E28, 0xA4506CEBDE82BDE9, 0xBEF9A3F7B2C67915, 0xC67178F2E372532B,
   0xCA273ECEEA26619C, 0xD186B8C721C0C207, 0xEADA7DD6CDE0EB1E, 0xF57D4F7FEE6ED178,
   0x06F067AA72176FBA, 0x0A637DC5A2C898A6, 0x113F9804BEF90DAE, 0x1B710B35131C471B,
   0x28DB77F523047D84, 0x32CAAB7B40C72493, 0x3C9EBE0A15C9BEBC, 0x431D67C49C100D4C,
   0x4CC5D4BECB3E42B6, 0x597F299CFC657E2A, 0x5FCB6FAB3AD6FAEC, 0x6C44198C4A475817]

/-- The initial state of SHA-384. -/
def shaInit : List Word64 :=
  [0xCBBB9D5DC1059ED8, 0x629A292A367CD507, 0x9159015A3070DD17, 0x152FECD8F70E5939,
   0x67332667FFC00B31, 0x8EB44A8768581511, 0xDB0C2E0D64F98FA7, 0x47B5481DBEFA4FA4]

/-- A rotation to the right. -/
def ror (x : Word64) (n : Nat) : Word64 := x.rotateRight n

/-- The big-endian words of bytes. -/
def beWords (n : Nat) (l : List Byte) : List Word64 :=
  match n with
  | 0 => []
  | n + 1 => BitVec.ofNat 64 (fromBytes (l.take 8).reverse) :: beWords n (l.drop 8)

/-- The message schedule: the sixteen latest words, newest first, extended by n words. -/
def shaExtend (n : Nat) (w : List Word64) : List Word64 :=
  match n with
  | 0 => w
  | n + 1 =>
    let g (i : Nat) : Word64 := (w[i]?).getD 0
    let s0 := ror (g 14) 1 ^^^ ror (g 14) 8 ^^^ (g 14 >>> 7)
    let s1 := ror (g 1) 19 ^^^ ror (g 1) 61 ^^^ (g 1 >>> 6)
    shaExtend n ((s1 + g 6 + s0 + g 15) :: w)

/-- The eight working variables. -/
structure ShaVars where
  a : Word64
  b : Word64
  c : Word64
  d : Word64
  e : Word64
  f : Word64
  g : Word64
  h : Word64

/-- One round. -/
def shaRound (v : ShaVars) (k w : Word64) : ShaVars :=
  let s1 := ror v.e 14 ^^^ ror v.e 18 ^^^ ror v.e 41
  let ch := (v.e &&& v.f) ^^^ (~~~ v.e &&& v.g)
  let t1 := v.h + s1 + ch + k + w
  let s0 := ror v.a 28 ^^^ ror v.a 34 ^^^ ror v.a 39
  let maj := (v.a &&& v.b) ^^^ (v.a &&& v.c) ^^^ (v.b &&& v.c)
  ⟨t1 + (s0 + maj), v.a, v.b, v.c, v.d + t1, v.e, v.f, v.g⟩

/-- One block of 128 bytes. -/
def shaBlock (h : List Word64) (block : List Byte) : List Word64 :=
  let w := (shaExtend 64 (beWords 16 block).reverse).reverse
  let g (i : Nat) : Word64 := (h[i]?).getD 0
  let v := (shaK.zip w).foldl (fun v kw => shaRound v kw.1 kw.2) ⟨g 0, g 1, g 2, g 3, g 4, g 5, g 6, g 7⟩
  [g 0 + v.a, g 1 + v.b, g 2 + v.c, g 3 + v.d, g 4 + v.e, g 5 + v.f, g 6 + v.g, g 7 + v.h]

/-- All blocks in order; n is at least their number. -/
def shaBlocks (n : Nat) (h : List Word64) (l : List Byte) : List Word64 :=
  match n with
  | 0 => h
  | n + 1 => if l.isEmpty then h else shaBlocks n (shaBlock h (l.take 128)) (l.drop 128)

/-- SHA-384 of a byte string: 48 bytes, the most significant byte of H0 first (R322). -/
def sha384 (l : List Byte) : List Byte :=
  let pad := (128 - (l.length + 17) % 128) % 128
  let m := l ++ [0x80] ++ List.replicate pad 0 ++ (toBytes 16 (l.length * 8)).reverse
  ((shaBlocks (m.length / 128 + 1) shaInit m).take 6).flatMap fun w => (toBytes 8 w.toNat).reverse

/-! ### The layer digest (R319) -/

/-- The published key K. -/
abbrev layerKey : BitVec 128 := 0x8F1BC4D27A36E5590C6DA2F7341E9B85

/-- A field element times x, modulo x^128 + x^7 + x^2 + x + 1. -/
def timesX (a : BitVec 128) : BitVec 128 := (a <<< 1) ^^^ (if a.msb then 0x87 else 0)

/-- The product of a and the polynomial of the bits of b from the top down; n bits are left. -/
def gfMul (n : Nat) (a b acc : BitVec 128) : BitVec 128 :=
  match n with
  | 0 => acc
  | n + 1 => gfMul n a b ((timesX acc) ^^^ (if b.getLsbD n then a else 0))

/-- The 16-byte blocks of a stream as field elements, the last one padded with zeros; n is at least their number. -/
def gfBlocks (n : Nat) (l : List Byte) : List (BitVec 128) :=
  match n with
  | 0 => []
  | n + 1 => if l.isEmpty then [] else BitVec.ofNat 128 (fromBytes (l.take 16)) :: gfBlocks n (l.drop 16)

/-- The layer digest of a canonical stream (R319). -/
def layerDigest (stream : List Byte) (layer op opcode : Nat) : BitVec 128 :=
  let y := (gfBlocks (stream.length / 16 + 1) stream).foldl (fun y x => gfMul 128 (y ^^^ x) layerKey 0) 0
  y ^^^ BitVec.ofNat 128 (stream.length + layer * 2 ^ 64 + op * 2 ^ 80 + opcode * 2 ^ 96)

/-- The 64 bytes of a digest record (R321). -/
def digestRecord (desc stream : List Byte) : List Byte :=
  let opcode := fieldAt desc 0 1
  (desc.drop 4).take 8 ++ toBytes 1 opcode ++ List.replicate 7 0 ++
    toBytes 16 (layerDigest stream (fieldAt desc 8 2) (fieldAt desc 10 2) opcode).toNat ++ toBytes 8 stream.length ++
    List.replicate 24 0

end Sys2Proof.Machine
end

