-- ==== Sys2Proof/Machine/Codec.lean ====
section
/-! DEFINITION. The Yilaz block codec: bit strings, coding tables, encoding and decoding of a block (06_weights.md R188 to
R193). -/

namespace Sys2Proof.Machine

/-! ### Bit strings (R184) -/

/-- Elements of w bits packed as a bit string: element i at bit offset i * w, counted upward from bit 0 of the first
byte. -/
def packBits (w : Nat) (l : List Nat) : List Byte :=
  toBytes (ceilDiv (l.length * w) 8) (l.foldr (fun x acc => acc * 2 ^ w + x % 2 ^ w) 0)

/-- n elements of w bits from a bit string. -/
def unpackBits (w n : Nat) (b : List Byte) : List Nat :=
  let all := fromBytes b
  (List.range n).map fun i => bits all (i * w) w

/-- The bytes of single bits, bit 0 first. -/
def bytesOfBits (l : List Bool) : List Byte := packBits 1 (l.map fun b => if b then 1 else 0)

/-- n bits of bytes, bit 0 of the first byte first. -/
def bitsOfBytes (n : Nat) (b : List Byte) : List Bool := (unpackBits 1 n b).map (· = 1)

/-! ### The split of an element (R188) -/

/-- How a stored element is split: its width, the position and width of its coded field, and whether ESC may be used. The
raw value is the remaining bits, the ones above the field moved down. -/
structure Split where
  width : Nat
  lo : Nat
  field : Nat
  escape : Bool

def Split.rawWidth (s : Split) : Nat := s.width - s.field

/-- Elements in a block of 4 KiB (R188). -/
def Split.count (s : Split) : Nat := 32768 / s.width

def Split.fieldOf (s : Split) (x : Nat) : Nat := bits x s.lo s.field
def Split.rawOf (s : Split) (x : Nat) : Nat := x % 2 ^ s.lo + x / 2 ^ (s.lo + s.field) * 2 ^ s.lo
def Split.join (s : Split) (field raw : Nat) : Nat :=
  raw % 2 ^ s.lo + field * 2 ^ s.lo + raw / 2 ^ s.lo * 2 ^ (s.lo + s.field)

/-! ### Coding tables (R189, R190) -/

/-- A coding table: field width, the field values of its symbols in order (zero for ESC), whether the last symbol is ESC,
and the code lengths. -/
structure CodeTable where
  width : Nat
  vals : List Nat
  esc : Bool
  lens : List Nat

/-- A node of the Huffman construction: count, creation order, the symbols below it. -/
structure HuffNode where
  count : Nat
  order : Nat
  leaves : List Nat

/-- The node of least (count, creation order) and the others. -/
def leastNode : List HuffNode → Option (HuffNode × List HuffNode)
  | [] => none
  | a :: r =>
    match leastNode r with
    | none => some (a, r)
    | some (b, rest) =>
      if a.count < b.count ∨ (a.count = b.count ∧ a.order < b.order) then some (a, r) else some (b, a :: rest)

/-- The merges, n at most: the depth of every leaf below a joined node grows by one. -/
def huffMerge (n next : Nat) (nodes : List HuffNode) (lens : List Nat) : List Nat :=
  match n with
  | 0 => lens
  | n + 1 =>
    match leastNode nodes with
    | none => lens
    | some (a, rest) =>
      match leastNode rest with
      | none => lens
      | some (b, rest) =>
        let below := a.leaves ++ b.leaves
        huffMerge n (next + 1) (rest ++ [⟨a.count + b.count, next, below⟩])
          ((lens.zip (List.range lens.length)).map fun p => if below.contains p.2 then p.1 + 1 else p.1)

/-- huffman_lengths (R189). -/
def huffLengths (cnt : List Nat) : List Nat :=
  huffMerge cnt.length cnt.length ((cnt.zip (List.range cnt.length)).map fun p => ⟨p.1, p.2, [p.2]⟩) (cnt.map fun _ => 0)

/-- Counts are halved, rounding up, until no length is above 12; n rounds at most. -/
def limitLengths (n : Nat) (cnt : List Nat) : List Nat :=
  match n with
  | 0 => huffLengths cnt
  | n + 1 =>
    let l := huffLengths cnt
    if l.all (· ≤ 12) then l else limitLengths n (cnt.map fun c => (c + 1) / 2)

/-- A value put in its place among those of larger counts, ties to the lower value. -/
def insertTop (p : Nat × Nat) : List (Nat × Nat) → List (Nat × Nat)
  | [] => [p]
  | q :: r => if q.2 < p.2 ∨ (q.2 = p.2 ∧ p.1 < q.1) then p :: q :: r else q :: insertTop p r

/-- build (R189): the table of a histogram, hist giving (value, count) of the values that occur, ascending. -/
def buildTable (width : Nat) (hist : List (Nat × Nat)) : CodeTable :=
  let top := ((hist.foldr insertTop []).take 31).map (·.1)
  let long := hist.length > 32
  let kept := if long then hist.filter fun p => top.contains p.1 else hist
  let rest := if long then ((hist.filter fun p => !top.contains p.1).map (·.2)).sum else 0
  let cnt := kept.map (·.2) ++ (if long then [rest] else [])
  { width := width, vals := kept.map (·.1) ++ (if long then [0] else []), esc := long,
    lens := if cnt.length = 1 then [1] else limitLengths 64 cnt }

/-- The histogram of field values below n that occur. -/
def histogram (n : Nat) (l : List Nat) : List (Nat × Nat) :=
  (List.range n).filterMap fun v => let c := (l.filter (· = v)).length; if c = 0 then none else some (v, c)

/-- The 64 bytes of a table (R190). -/
def CodeTable.bytes (t : CodeTable) : List Byte :=
  toBytes 1 t.vals.length ++ toBytes 1 (if t.esc then 1 else 0) ++ toBytes 1 t.width ++ [0] ++
  ((packBits 4 t.lens) ++ List.replicate 16 0).take 16 ++ ((t.vals.map (BitVec.ofNat 8)) ++ List.replicate 32 0).take 32 ++
  List.replicate 12 0

/-- A table read from its 64 bytes. -/
def readTable (b : List Byte) : CodeTable :=
  let n := fieldAt b 0 1
  { width := fieldAt b 2 1, vals := (List.range n).map fun i => fieldAt b (20 + i) 1, esc := bits (fieldAt b 1 1) 0 1 = 1,
    lens := (unpackBits 4 32 ((b.drop 4).take 16)).take n }

/-- The symbols in the order of canonical codes: by (length, symbol index). -/
def CodeTable.order (t : CodeTable) : List (Nat × Nat) :=
  (span 1 12).flatMap fun len => ((t.lens.zip (List.range t.lens.length)).filter (·.1 = len)).map fun p => (len, p.2)

/-- Canonical codes from the previous code and length on: (length, code, symbol) (R190). -/
def assignCodes (prev : Option (Nat × Nat)) : List (Nat × Nat) → List (Nat × Nat × Nat)
  | [] => []
  | (len, sym) :: r =>
    let code := match prev with
      | none => 0
      | some (l, c) => (c + 1) * 2 ^ (len - l)
    (len, code, sym) :: assignCodes (some (len, code)) r

/-- The bits of a code, most significant first. -/
def codeBits (len code : Nat) : List Bool := (List.range len).map fun i => decide (bits code (len - 1 - i) 1 = 1)

/-- Every symbol's code bits, with its field value; none for ESC. -/
def CodeTable.codes (t : CodeTable) : List (List Bool × Option Nat) :=
  (assignCodes none t.order).map fun p =>
    (codeBits p.1 p.2.1, if t.esc && p.2.2 + 1 = t.vals.length then none else some (t.vals.getD p.2.2 0))

/-- The table is usable: 1 to 32 symbols, lengths 1 to 12, the sum of 2^-length at most 1 (R190, R193). -/
def CodeTable.usable (t : CodeTable) : Bool :=
  1 ≤ t.vals.length && t.vals.length ≤ 32 && t.lens.all (fun l => 1 ≤ l && l ≤ 12) && (t.lens.map fun l => 2 ^ (12 - l)).sum ≤ 4096

/-! ### Blocks (R191 to R193) -/

/-- The bits of one coded field. -/
def encodeField (codes : List (List Bool × Option Nat)) (v : Nat) : List Bool :=
  match codes.find? (·.2 = some v) with
  | some (b, _) => b
  | none => ((codes.find? (·.2 = none)).map (·.1)).getD [] ++ (List.range 8).map fun i => decide (bits v i 1 = 1)

/-- A block of 4,096 bytes in YBC form (R191). -/
def encodeBlock (s : Split) (t : CodeTable) (block : List Byte) : List Byte :=
  let elems := unpackBits s.width s.count block
  let codes := t.codes
  let per := s.count / 16
  let subs := (List.range 16).map fun i => ((elems.drop (i * per)).take per).flatMap fun x => encodeField codes (s.fieldOf x)
  subs.flatMap (fun b => toBytes 2 b.length) ++
    (if s.rawWidth = 0 then [] else packBits s.rawWidth (elems.map s.rawOf)) ++ subs.flatMap bytesOfBits

/-- A coded field read from the front of a substream: the value and the bits left. -/
def decodeField (codes : List (List Bool × Option Nat)) (l : List Bool) : Option (Nat × List Bool) :=
  match codes.find? fun c => c.1.isPrefixOf l with
  | none => none
  | some (b, some v) => some (v, l.drop b.length)
  | some (b, none) =>
    let r := l.drop b.length
    if r.length < 8 then none else some (fromBytes (bytesOfBits (r.take 8)), r.drop 8)

/-- n coded fields of a substream that holds exactly these. -/
def decodeSub (codes : List (List Bool × Option Nat)) (n : Nat) (l : List Bool) : Option (List Nat) :=
  match n with
  | 0 => if l.isEmpty then some [] else none
  | n + 1 =>
    match decodeField codes l with
    | none => none
    | some (v, r) => (decodeSub codes n r).map (v :: ·)

/-- The substreams in order, from their bit lengths. -/
def decodeSubs (codes : List (List Bool × Option Nat)) (per : Nat) : List Nat → List Byte → Option (List Nat)
  | [], _ => some []
  | len :: r, b =>
    let k := ceilDiv len 8
    match decodeSub codes per (bitsOfBytes len (b.take k)) with
    | none => none
    | some l => (decodeSubs codes per r (b.drop k)).map (l ++ ·)

/-- A side-table entry of a block (R192): stored length, codec, table index. -/
structure SideEntry where
  len : Nat := 4096
  codec : Nat := 0
  table : Nat := 0

def SideEntry.bytes (x : SideEntry) : List Byte := toBytes 2 x.len ++ toBytes 1 x.codec ++ [0] ++ toBytes 4 x.table
def readSideEntry (b : List Byte) : SideEntry := ⟨fieldAt b 0 2, fieldAt b 2 1, fieldAt b 4 4⟩

/-- The stored elements of a block, from the bytes of its slot; none when it fails to decode (R193). -/
def decodeBlock (s : Split) (x : SideEntry) (t : CodeTable) (slot : List Byte) : Option (List Nat) :=
  if x.codec = 0 then
    if x.len = 4096 ∧ x.table = 0 then some (unpackBits s.width s.count (slot.take 4096)) else none
  else if x.codec ≠ 1 ∨ x.len < 33 ∨ 3850 < x.len ∨ !t.usable then none
  else
    let lens := (List.range 16).map fun i => fieldAt slot (2 * i) 2
    let rawLen := ceilDiv (s.count * s.rawWidth) 8
    if x.len ≠ 32 + rawLen + (lens.map fun l => ceilDiv l 8).sum then none
    else
      let raws := if s.rawWidth = 0 then List.replicate s.count 0 else unpackBits s.rawWidth s.count ((slot.drop 32).take rawLen)
      match decodeSubs t.codes (s.count / 16) lens (slot.drop (32 + rawLen)) with
      | none => none
      | some fields => some ((fields.zip raws).map fun p => s.join p.1 p.2)

/-- A block as pass 2 stores it (R192): YBC unless that is longer than 3,850 bytes, zero beyond the stored length
(R178). -/
def storeBlock (s : Split) (t : CodeTable) (index : Nat) (block : List Byte) : SideEntry × List Byte :=
  let y := encodeBlock s t block
  if 3850 < y.length then ({}, block) else (⟨y.length, 1, index⟩, y ++ List.replicate (4096 - y.length) 0)

end Sys2Proof.Machine
end

