-- ==== Sys2Proof/Machine/Shard.lean ====
section
/-! DEFINITION. Shard images: the manifest and its checks (R176), quantisation (R183, R185 to R187), tile storage (R184),
placement arithmetic (R181), and a tensor's prepared form (R177, R178). -/

namespace Sys2Proof.Machine

/-! ### Codes of a block (R185, R186) -/

/-- An integer held to 0..q. -/
def clampTo (q : Nat) (n : Int) : Nat := (max 0 (min (q : Int) n)).toNat

/-- A value rounded to an integer, to nearest even (R185). -/
def FVal.toInt (v : FVal) : Int :=
  match v with
  | .fin m e =>
    let r := roundAt m.natAbs e 0 none
    if m < 0 then -(r : Int) else r
  | _ => 0

/-! ### The manifest (R176) -/

/-- Bytes that are all zero. -/
def zeros (b : List Byte) (off size : Nat) : Bool := ((b.drop off).take size).all (· = 0)

/-- The header of a shard image. -/
structure Manifest where
  tensors : Nat := 0
  kind : Nat := 0
  rank : Nat := 0
  dataBytes : Nat := 0
  alpha : Nat := 0

/-- The header, when every field is in its range (R176). DESIGN CHOICE (log 150): the image is exactly its parts long. -/
def readManifest (b : List Byte) (len : Nat) : Option Manifest :=
  let f := fieldAt b
  let adapter := f 8 4 = 1
  if f 0 4 = 0x57534837 ∧ f 4 2 = 1 ∧ 1 ≤ f 6 2 ∧ f 6 2 ≤ 4096 ∧ f 8 4 ≤ 1 ∧
      (if adapter then 1 ≤ f 12 4 ∧ f 12 4 ≤ 256 else f 12 4 = 0 ∧ f 24 4 = 0) ∧ zeros b 28 36 = true ∧
      64 + 64 * f 6 2 + f 16 8 = len
  then some ⟨f 6 2, f 8 4, f 12 4, f 16 8, f 24 4⟩
  else none

/-- The entry of a tensor. -/
def readTensor (b : List Byte) : Tensor :=
  let f := fieldAt b
  { id := f 0 4, k := f 4 4, n := f 8 4, srcFmt := f 12 1, srcOrder := f 13 1, qmode := f 14 1, tgtFmt := f 15 1,
    codeBits := f 16 1, compress := bits (f 17 1) 0 1 = 1, pin := bits (f 17 1) 1 1 = 1, home := f 18 1, role := f 19 1,
    srcOff := f 24 8, srcBytes := f 32 8, auxOff := f 40 8, auxBytes := f 48 4 }

namespace Tensor

/-- Bits of a source element: code sources are packed as a bit string (log 34). -/
def srcWidth (t : Tensor) : Nat :=
  if t.srcFmt = 7 then t.codeBits else match fmtOf t.srcFmt with | some f => f.width | none => 8

/-- Code modes store b-bit codes. -/
def coded (t : Tensor) : Bool := 3 ≤ t.qmode

/-- Bits of a stored element (R184). -/
def width (t : Tensor) : Nat :=
  if t.coded then t.codeBits else match fmtOf t.tgtFmt with | some f => f.width | none => 8

/-- The target format. -/
def fmt (t : Tensor) : Fmt := (fmtOf t.tgtFmt).getD .bf16

/-- The rate of the target format (R47). -/
def rate (t : Tensor) : Nat :=
  match t.fmt.cls with
  | some .f16 => 1
  | some .f4 | some .i4 => 4
  | _ => 2

/-- Tiles (R184): K indices of a tile, tiles along K and along N, groups of a tile column, blocks of a tile. -/
def tileK (t : Tensor) : Nat := 128 * t.rate
def kTiles (t : Tensor) : Nat := ceilDiv t.k t.tileK
def nTiles (t : Tensor) : Nat := ceilDiv t.n 128
def tiles (t : Tensor) : Nat := t.kTiles * t.nTiles
def tileGroups (t : Tensor) : Nat := t.tileK / 32
def tileBlocks (t : Tensor) : Nat := ceilDiv (128 * t.tileK * t.width) 32768
def blocks (t : Tensor) : Nat := t.tiles * t.tileBlocks

/-- Bytes of a side entry (R183). -/
def sideBytes (t : Tensor) : Nat :=
  match t.qmode with
  | 1 | 4 | 6 => 1
  | 3 | 5 => 4
  | _ => 0

/-- The tensor is compressed: 3-bit codes are stored raw. -/
def packed (t : Tensor) : Bool := t.compress && t.width ≠ 3

/-- Table groups of at most 1,024 blocks (R189). -/
def groups (t : Tensor) : Nat := if t.packed then ceilDiv t.blocks 1024 else 0

/-- Where the parts of a tensor lie in its memory: the side table, the tables, the side data, the column scales, the end
(R181). -/
def sideTableAt (t : Tensor) : Nat := t.blocks * 4096
def tablesAt (t : Tensor) : Nat := t.sideTableAt + t.blocks * 8
def sideAt (t : Tensor) : Nat := t.tablesAt + t.groups * 64
def scalesAt (t : Tensor) : Nat := t.sideAt + t.tiles * 128 * t.tileGroups * t.sideBytes
def footprint (t : Tensor) : Nat := t.scalesAt + (if t.qmode = 2 then 4 * t.n else 0)

/-- Extents of 2 MiB that the tensor takes: whole ones of its own (log 35). Its palette is no part of its footprint (R181). -/
def extentsNeeded (t : Tensor) : Nat := ceilDiv t.footprint (2 ^ 21)

/-- The bytes that the palette of a tensor of palette codes may take in the epoch's table area (R187), whether what its last extent
leaves is enough for them, and where they lie: there, else beyond its extents (DESIGN CHOICE, log 125). -/
def fmtWidth (t : Tensor) : Nat := match fmtOf t.tgtFmt with | some f => f.width | none => 8
def paletteRoom (t : Tensor) : Nat := if t.qmode = 4 ∨ t.qmode = 6 then min t.auxBytes (256 * 2 * t.fmtWidth) else 0
def paletteInside (t : Tensor) : Bool := t.footprint + t.paletteRoom ≤ t.extentsNeeded * 2 ^ 21
def paletteAt (t : Tensor) : Nat := if t.paletteInside then t.footprint else t.extentsNeeded * 2 ^ 21

/-- The physical address of a byte of the tensor's memory. -/
def addr (t : Tensor) (off : Nat) : Nat := (t.extents[off / 2 ^ 21]?).getD 0 + off % 2 ^ 21

/-- The split of a stored element for the codec (R188). -/
def split (t : Tensor) : Split :=
  if t.coded then ⟨t.codeBits, 0, t.codeBits, t.codeBits = 8⟩
  else match t.fmt.elem with
    | .bf16 => ⟨16, 7, 8, true⟩
    | .fp16 => ⟨16, 10, 5, false⟩
    | .e4m3 => ⟨8, 3, 4, false⟩
    | .e5m2 => ⟨8, 2, 5, false⟩
    | .e2m1 => ⟨4, 1, 2, false⟩
    | .int4 => ⟨4, 0, 4, false⟩
    | _ => ⟨8, 0, 8, true⟩

/-- Source bytes and auxiliary bytes that the tensor's shape calls for; a palette's length stands in the data. -/
def srcNeeded (t : Tensor) : Nat := ceilDiv (t.k * t.n * t.srcWidth) 8

/-- The fields of an entry are in range and its data lie in the image (R176, R183). DESIGN CHOICE (log 149): tgt_fmt holds the format
codes of a descriptor (R244). DESIGN CHOICE (log 150): src_bytes may exceed what the shape needs, and ends the load when smaller. -/
def valid (t : Tensor) (b : List Byte) (kind dataBytes : Nat) : Bool :=
  let float := t.srcFmt ≤ 4
  let code := t.srcFmt = 7
  let codeFmt := t.tgtFmt = 0 || t.tgtFmt = 2 || t.tgtFmt = 3
  1 ≤ t.k && t.k ≤ 2 ^ 24 && 1 ≤ t.n && t.n ≤ 2 ^ 24 && t.srcFmt ≤ 7 && t.srcOrder ≤ 1 && t.home ≤ 3 &&
  fieldAt b 17 1 < 4 && zeros b 20 4 && zeros b 52 12 &&
  (if kind = 0 then t.role = 0 else t.role = 1 || t.role = 2) &&
  (match t.qmode with
    | 0 => !code && (t.tgtFmt ≤ 3 || t.tgtFmt = 7) && t.codeBits = 0
    | 1 => float && 8 ≤ t.tgtFmt && t.tgtFmt ≤ 11 && t.codeBits = 0
    | 2 => !code && (t.tgtFmt = 5 || t.tgtFmt = 6) && t.codeBits = 0
    | 3 => float && codeFmt && [2, 3, 4, 8].contains t.codeBits
    | 4 => float && codeFmt && [2, 3, 4].contains t.codeBits
    | 5 => code && codeFmt && [2, 3, 4, 8].contains t.codeBits
    | 6 => code && codeFmt && [2, 3, 4].contains t.codeBits
    | _ => false) &&
  t.srcOff + t.srcBytes ≤ dataBytes && t.auxOff + t.auxBytes ≤ dataBytes && t.srcNeeded ≤ t.srcBytes

end Tensor

/-- The tensors of an image, from the bytes of its entries; none when an entry is not valid or an id repeats (R176). -/
def readTensors (b : List Byte) (m : Manifest) : Option (List Tensor) :=
  let l := (List.range m.tensors).map fun i => (readTensor (b.drop (64 * i)), (b.drop (64 * i)).take 64)
  let ids := l.map fun p => (p.1.id, p.1.role)
  if (l.all fun p => p.1.valid p.2 m.kind m.dataBytes) && ids.eraseDups.length = ids.length then some (l.map (·.1)) else none

/-! ### Quantisation (R183 to R187) -/

/-- A palette: tables of 16 patterns of the target format, or none when its count or length does not fit (R187). -/
def readPalette (f : Fmt) (aux : List Byte) (more : Nat) : Option (List Nat) :=
  let p := fieldAt aux 0 4
  if 1 ≤ p ∧ p ≤ 256 ∧ 4 + p * 16 * (f.width / 8) + more ≤ aux.length
  then some (unpackElems f (aux.drop 4) (p * 16)) else none

/-- The source value of element (k, n) as a pattern. -/
def Tensor.source (t : Tensor) (srcNum k n : Nat) : Nat :=
  let i := if t.srcOrder = 0 then n * t.k + k else k * t.n + n
  bits srcNum (i * t.srcWidth) t.srcWidth

/-- An SZ group: codes and side entry (R185). -/
def quantSZ (b : Nat) (xs : List FVal) : List Nat × List Byte :=
  let a0 := xs.foldl (fun m x => if x.lt m then x else m) .zero
  let b0 := xs.foldl (fun m x => if m.lt x then x else m) .zero
  let q := 2 ^ b - 1
  let s0 := encodeElem .bf16 ((b0.add a0.neg).quot (.ofNat q))
  let sp := if s0 = 0 then 0x3F80 else s0
  let s := decodeElem .bf16 sp
  let z := clampTo q (a0.neg.quot s).toInt
  (xs.map fun x => clampTo q ((x.quot s).toInt + z), toBytes 2 sp ++ toBytes 1 z ++ [0])

/-- A CB group: codes and side entry (R187). -/
def quantCB (b : Nat) (f : Fmt) (palette : List Nat) (xs : List FVal) : List Nat × List Byte :=
  let tables := (pieces 16 palette).map fun t => (t.take (2 ^ b)).map (decodeElem f)
  let big (l : List FVal) : FVal := l.foldl (fun m x => if m.lt x.abs then x.abs else m) .zero
  let a := big xs
  let i := (((List.range tables.length).zip tables).find? fun p => !(big p.2).lt a).map (·.1) |>.getD (tables.length - 1)
  let t := tables.getD i []
  let code (x : FVal) : Nat :=
    let ds := (List.range t.length).zip (t.map fun e => (x.add e.neg).abs)
    match ds with
    | [] => 0
    | d :: r => (r.foldl (fun m p => if p.2.lt m.2 || (m.2.isNan && !p.2.isNan) then p else m) d).1
  (xs.map code, [BitVec.ofNat 8 i])

/-- The stored elements of one source column and its side entries, group by group; rounding is to nearest even. -/
def Tensor.column (t : Tensor) (palette : List Nat) (aux : List Byte) (n : Nat) (col : List Nat) : List Nat × List (List Byte) :=
  let val (p : Nat) : FVal := decodeElem ((fmtOf t.srcFmt).getD .bf16) p
  let gs := pieces 32 col
  let place (g : Nat) : Nat := n * ceilDiv t.k 32 + g
  match t.qmode with
  | 0 => (col.map fun p => encodeElem t.fmt (val p), [])
  | 1 =>
    let q := gs.map fun g => let xs := g.map val; let s := mxScale t.fmt xs; (mxElems t.fmt s xs (xs.map fun _ => none), [BitVec.ofNat 8 s])
    (q.flatMap (·.1), q.map (·.2))
  | 2 =>
    let xs := col.map val
    let top := xs.foldl (fun m x => if m.lt x.abs then x.abs else m) .zero
    let q := if t.fmt = .int8 then 127 else 7
    let s0 := encodeElem .fp32 (top.quot (.ofNat q))
    let s := if s0 = 0 then .fin 1 0 else f32 s0
    (xs.map fun x => encodeElem t.fmt (x.quot s), [])
  | 3 => let q := gs.map fun g => quantSZ t.codeBits (g.map val); (q.flatMap (·.1), q.map (·.2))
  | 4 => let q := gs.map fun g => quantCB t.codeBits t.fmt palette (g.map val); (q.flatMap (·.1), q.map (·.2))
  | 5 => (col, (List.range gs.length).map fun g => (aux.drop (4 * place g)).take 4)
  | _ =>
    let at' := 4 + palette.length * (t.fmt.width / 8)
    (col, (List.range gs.length).map fun g => (aux.drop (at' + place g)).take 1)

/-- The FP32 scale of a SYM column (R186). -/
def Tensor.columnScale (t : Tensor) (col : List Nat) : Nat :=
  let xs := col.map fun p => decodeElem ((fmtOf t.srcFmt).getD .bf16) p
  let top := xs.foldl (fun m x => if m.lt x.abs then x.abs else m) .zero
  let s := encodeElem .fp32 (top.quot (.ofNat (if t.fmt = .int8 then 127 else 7)))
  if s = 0 then 0x3F800000 else s

/-- What pass 1 writes of a tensor: its block slots uncompressed, its side data, column scales and palette (R177 step 3). -/
structure Laid where
  blocks : List (List Byte)
  side : List Byte
  scales : List Byte
  palette : List Byte
  narrow : Bool

/-- The prepared form of a tensor: its block slots with their side entries, tables and side data (R177, R178). -/
structure Prepared where
  blocks : List (SideEntry × List Byte)
  tables : List Byte
  side : List Byte

/-- The tiles of quantised columns, in storage order: each its padded bytes and its side record (R184). -/
def Tensor.layTiles (t : Tensor) (cols : List (List Nat × List (List Byte))) : List (List Byte × List Byte) :=
  (List.range t.nTiles).flatMap fun nt => (List.range t.kTiles).map fun kt =>
    let mine := (List.range 128).map fun c => cols.getD (nt * 128 + c) ([], [])
    let body := mine.flatMap fun c =>
      let e := (c.1.drop (kt * t.tileK)).take t.tileK
      packBits t.width (e ++ List.replicate (t.tileK - e.length) 0)
    let rec' := mine.flatMap fun c =>
      let g := (c.2.drop (kt * t.tileGroups)).take t.tileGroups
      (g ++ List.replicate (t.tileGroups - g.length) (List.replicate t.sideBytes 0)).flatten
    (body ++ List.replicate (t.tileBlocks * 4096 - body.length) 0, if t.sideBytes = 0 then [] else rec')

/-- The coding table of each table group, from the blocks as pass 1 wrote them (R189). -/
def Tensor.codeTables (t : Tensor) (blocks : List (List Byte)) : List CodeTable :=
  if t.packed then
    (pieces 1024 blocks).map fun g =>
      buildTable t.split.field (histogram (2 ^ t.split.field)
        (g.flatMap fun b => (unpackBits t.split.width t.split.count b).map t.split.fieldOf))
  else []

/-- A tensor laid out and quantised from its source data and auxiliary data; none when R183 or R187 refuses them. -/
def Tensor.lay (t : Tensor) (data : List Byte) : Option Laid :=
  let src := fromBytes ((data.drop t.srcOff).take t.srcNeeded)
  let aux := (data.drop t.auxOff).take t.auxBytes
  let groups := ceilDiv t.k 32 * t.n
  let palette := match t.qmode with
    | 4 => readPalette t.fmt aux 0
    | 6 => readPalette t.fmt aux groups
    | 5 => if 4 * groups ≤ aux.length then some [] else none
    | _ => some []
  match palette with
  | none => none
  | some palette =>
    let cols := (List.range t.n).map fun n => (List.range t.k).map fun k => t.source src k n
    let special := (t.qmode = 2 || t.qmode = 3 || t.qmode = 4) && cols.any fun c => c.any fun p =>
      !(decodeElem ((fmtOf t.srcFmt).getD .bf16) p).isFin
    if special then none
    else
      let laid := t.layTiles ((cols.zip (List.range t.n)).map fun c => t.column palette aux c.2 c.1)
      some {
        blocks := laid.flatMap fun p => pieces 4096 p.1,
        side := laid.flatMap (·.2), scales := if t.qmode = 2 then cols.flatMap fun c => toBytes 4 (t.columnScale c) else [],
        palette := (aux.drop 4).take (palette.length * (t.fmt.width / 8)),
        narrow := t.qmode = 0 && t.fmt = .e2m1 && cols.any fun c => c.any fun p => (decodeElem ((fmtOf t.srcFmt).getD .bf16) p).isNan }

/-- What pass 2 makes of a tensor that pass 1 laid out: each block with its side entry, and the tables (R177 steps 5 and 6). -/
def Tensor.encode (t : Tensor) (l : Laid) : Prepared :=
  let tables := t.codeTables l.blocks
  { blocks := (l.blocks.zip (List.range l.blocks.length)).map fun b =>
      match tables[b.2 / 1024]? with
      | some ct => storeBlock t.split ct (t.table + b.2 / 1024) b.1
      | none => ({}, b.1),
    tables := tables.flatMap CodeTable.bytes, side := l.side }

/-- The tables of a palette that a tensor's auxiliary data hold. -/
def Tensor.paletteCount (t : Tensor) (data : List Byte) : Nat :=
  if t.qmode = 4 ∨ t.qmode = 6 then fieldAt (data.drop t.auxOff) 0 4 else 0

/-- The bytes of the image, from its tensor data on, that a tensor needs before it can be laid out. -/
def Tensor.dataEnd (t : Tensor) : Nat := max (t.srcOff + t.srcBytes) (t.auxOff + t.auxBytes)

/-- The tensors with the index of each one's first table in the epoch (R192). -/
def numberTables (base : Nat) : List Tensor → List Tensor
  | [] => []
  | t :: r => { t with table := base } :: numberTables (base + t.groups) r

/-- The bytes that the prepared digest covers (R177 step 6): every block slot, the side tables, the tables, the side data,
each of all tensors in manifest order (log 36). -/
def preparedBytes (l : List Prepared) : List Byte :=
  (l.flatMap fun p => p.blocks.flatMap (·.2)) ++ (l.flatMap fun p => p.blocks.flatMap (·.1.bytes)) ++ (l.flatMap (·.tables)) ++
    (l.flatMap (·.side))

end Sys2Proof.Machine
end

