-- ==== Sys2Proof/Machine/Weights.lean ====
section
/-! DEFINITION. Weight sets, epochs and adapters: loading, adopting, freeing and binding (06_weights.md R169 to R182,
R201 to R206). The device keeps its own record of every slot and writes each set's entry of the set table through to
memory (R171). -/

namespace Sys2Proof.Machine

/-! ### The tables (R169 to R171, R201) -/

def Device.wset (d : Device) (s : Nat) : WSet := look d.wt.sets s {}
def Device.epoch (d : Device) (s k : Nat) : Loaded := look d.wt.epochs (s * 2 + k) {}
def Device.adapterSlot (d : Device) (a : Nat) : Loaded := look d.wt.adapters a {}
def Device.wgtOn (d : Device) : Bool := bitOf (d.reg (wgtPage + 0x04)) 0
def Device.job (d : Device) (key : Nat) : Option LoadJob := (d.wt.jobs.find? (·.1 = key)).map (·.2)

/-- The state codes of R170. -/
def EpochState.code : EpochState → Nat
  | .free => 0 | .loading => 1 | .ready => 2 | .degraded => 3 | .failed => 4 | .retiring => 5 | .suspended => 6

/-- Bytes of memory that a slot holds. -/
def Loaded.bytes (x : Loaded) : Nat := (x.tensors.map (·.extentsNeeded)).sum * 2 ^ 21

/-- The 120 bytes of a slot in the set table (R171). -/
def Loaded.entry (x : Loaded) : List Byte :=
  let sha (l : List Byte) : List Byte := (l ++ List.replicate 48 0).take 48
  toBytes 1 x.state.code ++ [0] ++ toBytes 2 x.tensors.length ++ toBytes 4 x.epoch ++ toBytes 8 x.dir.toNat ++
  toBytes 8 x.bytes ++ sha x.shard ++ sha x.prep

/-- The 256 bytes of a set's entry (R171). -/
def Device.setBytes (d : Device) (s : Nat) : List Byte :=
  let w := d.wset s
  toBytes 1 (w.current.getD 0xFF) ++ [0] ++ toBytes 2 w.owner ++ toBytes 1 w.keySlot ++ [0, 0, 0] ++ toBytes 4 w.lastEpoch ++
  [0, 0, 0, 0] ++ (d.epoch s 0).entry ++ (d.epoch s 1).entry

/-- Where a set's entry lies. -/
def Device.setAddr (d : Device) (s : Nat) : Nat := d.pair (wgtPage + 0x40) % 2 ^ 44 + 256 * s

/-- A set's entry is written to the set table under key slot 0 (R171, R219). -/
def Upd.syncSet (s : Nat) : Upd := .read fun d => .write 0 (d.setAddr s) (d.setBytes s)

def Upd.wset (s : Nat) (f : WSet → WSet) : Upd :=
  .of fun d => { d with wt := { d.wt with sets := put d.wt.sets s (f (d.wset s)) {} } }
def Upd.epoch (s k : Nat) (f : Loaded → Loaded) : Upd :=
  .of fun d => { d with wt := { d.wt with epochs := put d.wt.epochs (s * 2 + k) (f (d.epoch s k)) {} } }
def Upd.adapterSlot (a : Nat) (f : Loaded → Loaded) : Upd :=
  .of fun d => { d with wt := { d.wt with adapters := put d.wt.adapters a (f (d.adapterSlot a)) {} } }

/-- The slot that a load fills takes a function of itself; a set's entry is written through. -/
def Upd.target (j : LoadJob) (f : Loaded → Loaded) : Upd :=
  if j.adapter then .adapterSlot j.target f else .all [.epoch j.target j.epochSlot f, .syncSet j.target]
def Device.target (d : Device) (j : LoadJob) : Loaded := if j.adapter then d.adapterSlot j.target else d.epoch j.target j.epochSlot

/-- A slot without its contents: its memory is released. -/
def Loaded.emptied (x : Loaded) (st : EpochState) : Loaded :=
  { x with state := st, tensors := [], shard := [], prep := [], dir := 0, loader := none, wait := [] }

/-- The job of a queue slot. -/
def Upd.setJob (key : Nat) (j : Option LoadJob) : Upd :=
  .of fun d => { d with wt := { d.wt with jobs :=
    (d.wt.jobs.filter (·.1 ≠ key)) ++ (match j with | none => [] | some j => [(key, j)]) } }

/-- Every virtual function's own state. -/
def Device.vf (d : Device) (fn : Nat) : Vf := look d.ho.vfs fn {}

/-- The key slot of a context: slot 0 for the physical function, the slot that the Sladex root assigned for a virtual one
(R169; log 33). -/
def Device.ctxKey (d : Device) (ctx : Nat) : Nat :=
  let fn := d.ownerOf ctx
  if fn = 0 then 0 else (d.vf fn).keySlot.getD 0

/-- A set that no load has given an owner yet: it has had no epoch and holds none (R169). -/
def Device.unowned (d : Device) (s : Nat) : Bool :=
  (d.wset s).lastEpoch = 0 && (d.epoch s 0).state = .free && (d.epoch s 1).state = .free

/-- The set belongs to another function than the context's (R169). -/
def Device.setDenied (d : Device) (ctx s : Nat) : Bool := !d.unowned s && (d.wset s).owner ≠ d.ownerOf ctx

/-- A command holds the epoch (R172). -/
def Device.epochHeld (d : Device) (s k : Nat) : Bool :=
  d.q.slots.any fun p => match p.2.cur with | some c => c.epochs.contains (s, k) | none => false

/-- A command holds the adapter slot (R202). -/
def Device.adapterHeld (d : Device) (a : Nat) : Bool :=
  d.q.slots.any fun p => match p.2.cur with | some c => c.adapters.any (·.2 = a) | none => false

/-- A load into the slot is running (R174). -/
def Device.loadRuns (d : Device) (adapter : Bool) (t k : Nat) : Bool :=
  d.wt.jobs.any fun p => p.2.adapter = adapter && p.2.target = t && (adapter || p.2.epochSlot = k)

/-- The engines that have yet to pass a command boundary, with their counts now (R145, R173). -/
def Device.boundaries (d : Device) : List (Nat × Nat) :=
  ((List.range 32).filter d.blockOn).map fun e => (e, (d.eng e).boundary)

/-! ### Retiring (R173, R174) -/

/-- A RETIRING slot with no references and no engine left to wait for becomes FREE (R173 step 4). -/
def Loaded.done (x : Loaded) : Bool := x.state = .retiring && x.refs = 0 && x.wait.isEmpty

/-- The releases that are due. -/
def Upd.releaseDue : Upd :=
  .read fun d => .all [
    .each (d.wt.epochs.filter fun p => p.2.done) fun p =>
      .all [.epoch (p.1 / 2) (p.1 % 2) (·.emptied .free), .syncSet (p.1 / 2)],
    .each (d.wt.adapters.filter fun p => p.2.done) fun p => .adapterSlot p.1 (·.emptied .free)]

/-- A slot starts to retire. -/
def Upd.retire (s k : Nat) : Upd :=
  .read fun d => .all [.epoch s k fun x => { x with state := .retiring, wait := d.boundaries }, .syncSet s]

/-- The regional mirrors of a set take its current slot (R173 step 3). -/
def Upd.mirror (s : Nat) (cur : Option Nat) : Upd :=
  .of fun d =>
    let v := match cur with | none => 0 | some k => k + 1
    let m := (List.range 4).foldl (fun m r => put m (r * 256 + s) v 0) d.wt.mirror
    { d with wt := { d.wt with mirror := m } }

/-- The current slot that a region's mirror shows (R172). -/
def Device.mirrored (d : Device) (r s : Nat) : Option Nat :=
  match look d.wt.mirror (r * 256 + s) 0 with
  | 0 => none
  | k + 1 => some k

/-- The set has no current epoch any more. -/
def Upd.noCurrent (s : Nat) : Upd := .all [.wset s fun w => { w with current := none }, .mirror s none, .syncSet s]

/-! ### Errors of the unit (WGT page) -/

/-- The tables or a heap cannot be trusted: WGT.CTRL.enable returns to 0 (0x0403). -/
def Upd.wgtBroken (bit : Nat) (injected : Bool := false) : Upd :=
  .all [.error wgtPage bit (deviceRec 0x0403 6) false injected, .setReg (wgtPage + 0x04) 0]

/-- A set's entry is read: an uncorrectable error, or an armed injection, stops the unit (WGT.table_ue). -/
def Upd.readSet (s : Nat) (k : Upd) : Upd :=
  .inject wgtPage 2 fun bad => .read fun d =>
    if bad || (d.ueIn (d.setAddr s) 256).isSome then .wgtBroken 2 bad else k

/-! ### Heaps (R181) -/

/-- A heap: base address and number of extents, extent 0 included. h is tier*4 + region. -/
def Device.heap (d : Device) (h : Nat) : Nat × Nat :=
  let w := look d.wt.heaps h (0, 0, 0)
  ((w.1.toNat + w.2.1.toNat * 2 ^ 32) % 2 ^ 44, fieldOf w.2.2 23 0)

/-- The extents that slots hold, as physical addresses. -/
def Device.extentsHeld (d : Device) : List Nat :=
  (d.wt.epochs.flatMap fun p => p.2.tensors.flatMap (·.extents)) ++ (d.wt.adapters.flatMap fun p => p.2.tensors.flatMap (·.extents))

/-- The free extents of a heap, as physical addresses. -/
def Device.freeExtents (d : Device) (h : Nat) : List Nat :=
  let (base, count) := d.heap h
  let held := d.extentsHeld
  ((span 1 (count - 1)).map fun i => base + i * 2 ^ 21).filter fun a => !held.contains a

/-- n extents taken from free ones; which ones is the allocator's own affair: a free value (log 35). -/
def takeExtents (n draw : Nat) (free : List Nat) : List Nat :=
  match n with
  | 0 => []
  | n + 1 =>
    match free[(Config.freshWord (draw + n)).toNat % free.length]? with
    | none => []
    | some a => a :: takeExtents n draw (free.erase a)

/-- Where the palette of a tensor of a heap lies that its own extents do not hold: a place of 8 KiB in the heap's extent 0, which is
the allocator's, so that a palette has no part in what fits (R181, R187; DESIGN CHOICE, log 125). -/
def Device.palettePlace (d : Device) (h : Nat) (taken : List Nat) (t : Tensor) : List Nat :=
  if t.paletteInside then []
  else
    let base := (d.heap h).1
    let used := d.extentsHeld ++ taken
    [(((List.range 256).map fun i => base + 8192 * i).find? fun a => !used.contains a).getD base]

/-- The tensors placed in order, whole tensors only; none when one fits no heap that it may use (R181). -/
def Device.place (d : Device) (noSpill : Bool) (draw : Nat) (taken : List Nat) : List Tensor → Option (List Tensor)
  | [] => some []
  | t :: r =>
    let free (tier : Nat) : List Nat := (d.freeExtents (tier * 4 + t.home)).filter fun a => !taken.contains a
    let n := t.extentsNeeded
    let go (tier : Nat) : Option (List Tensor) :=
      let mine := takeExtents n draw (free tier) ++ d.palettePlace (tier * 4 + t.home) taken t
      (d.place noSpill (draw + n) (mine ++ taken) r).map ({ t with extents := mine } :: ·)
    if n ≤ (free 0).length then go 0
    else if !noSpill && !t.pin && n ≤ (free 1).length then go 1
    else none

/-! ### Bytes of a tensor -/

/-- The bytes of a tensor's memory from an offset on, under the key slot of its set. -/
def Device.tensorBytes (d : Device) (key : Nat) (t : Tensor) (off n : Nat) : List Byte :=
  (span off n).map fun i => d.byteAt key (t.addr i)

/-- The first uncorrectable line of a part of a tensor. -/
def Device.tensorUe (d : Device) (t : Tensor) (off n : Nat) : Option Nat :=
  (linesOf off n).findSome? fun l => d.ueIn (t.addr (l * 64)) 64

/-- What reading a part of a tensor does in the controllers (R211, R212, R215). -/
def Upd.touchTensor (t : Tensor) (off n : Nat) : Upd := .each (cutAt (n / 64 + 2) 64 off n) fun p => .touch (t.addr p.1) p.2

/-- The end for an access to a weight heap under an EMPTY key slot (R219), at the address it would reach. -/
def Env.noKey (v : Env) (pa stream : Nat) : TileRes :=
  .stop .translationFault (some { v.record 0x020A with addr := some (2, pa), cause := causeKey, stream := stream }) .skip

/-- Bytes are written to a tensor's memory. -/
def Upd.putTensor (key : Nat) (t : Tensor) (off : Nat) (bs : List Byte) : Upd :=
  .each (linePieces off bs) fun p => .write key (t.addr p.1) p.2

/-- The first line of a part of a tensor that a write could not write, because it would modify part of an uncorrectable line
(R215). -/
def Device.tensorWriteUe (d : Device) (t : Tensor) (off n : Nat) : Option Nat :=
  (cutAt (n / 64 + 2) 64 off n).findSome? fun p => d.writeUe (t.addr p.1) p.2

/-- Parts of a tensor written: offset and bytes of each. -/
def Upd.putParts (key : Nat) (t : Tensor) (l : List (Nat × List Byte)) : Upd := .each l fun p => .putTensor key t p.1 p.2
def Device.partsUe (d : Device) (t : Tensor) (l : List (Nat × List Byte)) : Option Nat :=
  l.findSome? fun p => d.tensorWriteUe t p.1 p.2.length

/-- What pass 1 writes of a tensor (R177 step 3). -/
def Tensor.rawParts (t : Tensor) (l : Laid) : List (Nat × List Byte) :=
  ((l.blocks.zip (List.range l.blocks.length)).map fun b => (4096 * b.2, b.1)) ++
    [(t.sideAt, l.side), (t.scalesAt, l.scales), (t.paletteAt, l.palette)]

/-- The prepared digest of what a slot's memory holds (R177 step 6, R206). -/
def Device.storedDigest (d : Device) (key : Nat) (ts : List Tensor) : List Byte :=
  let part (f : Tensor → Nat × Nat) : List Byte := ts.flatMap fun t => d.tensorBytes key t (f t).1 (f t).2
  sha384 (part (fun t => (0, t.sideTableAt)) ++ part (fun t => (t.sideTableAt, t.tablesAt - t.sideTableAt)) ++
    part (fun t => (t.tablesAt, t.sideAt - t.tablesAt)) ++ part (fun t => (t.sideAt, t.scalesAt - t.sideAt)))

/-! ### LOAD and ADAPTER_LOAD (R177, R179, R201) -/

/-- Segments of the shard image from an offset on: through the context's translation, or through a Zwirid window (R175). -/
def Device.sourceSegs (d : Device) (v : Env) (off len : Nat) : XFault ⊕ List Seg :=
  let src := v.fld 40 8 + off
  if bits (v.fld 33 1) 0 1 = 1 then
    let w := v.fld 36 2
    if bitOf (look d.xl.winOut w 0) 31 then .inr [⟨src, .remote w src, len, 0⟩] else .inl ⟨causeWinInvalid, src, 0⟩
  else d.range v.ctx src len false

/-- A fetch attempt fails (R179): it is repeated up to WGT.RETRY times; after the last the slot is FAILED. -/
def Device.failAttempt (d : Device) (v : Env) (j : LoadJob) (digest : Bool) : TileRes :=
  let u : Upd := .all [.count (wgtPage + 0x88), .consume v.key,
    .of fun d => { d with ho := { d.ho with reads := d.ho.reads.map fun r => if r.slot = v.key then { r with dropped := true } else r } }]
  if j.attempt < fieldOf (d.reg (wgtPage + 0x50)) 3 0 then
    .wait (.all [u, .setJob v.key (some { j with attempt := j.attempt + 1, fetched := [], laid := 0, timedOut := false })])
  else
    .stop (if digest then .shardDigest else .shardTimeout)
      (some { (deviceRec 0x0404 6 (detailN j.target)).ofCmd v.ctx v.s v.cmd.desc with injected := false })
      (.all [u, .target j (·.emptied .failed), .setJob v.key none])

/-- A read of the shard image: what follows when its bytes are there. Failed reads over PCI Express or a window fail the
attempt (R179); an uncorrectable line of device memory ends the command (R215). -/
def Device.readShard (d : Device) (v : Env) (j : LoadJob) (off len : Nat) (k : List Byte → List Seg → TileRes) : TileRes :=
  match d.sourceSegs v off len with
  | .inl f => v.xfault f 4
  | .inr segs =>
    if j.timedOut then d.failAttempt v j false
    else match d.readSegs v.key (d.ownerOf v.ctx) segs with
    | .bad (.ue pa) => v.memUe pa 4 (.touchSegs segs)
    | .bad (.lost p) => v.badRead (.lost p) 4
    | .bad _ => d.failAttempt v j false
    | .wait m => .wait (.issueReads v.key m)
    | .bytes b => k b segs

/-- An adapter tensor is one that R201 allows: CVT to BF16 or E4M3, not compressed, its shape that of the base tensor of
the same id. -/
def adapterFits (base : List Tensor) (rank : Nat) (t : Tensor) : Bool :=
  t.qmode = 0 && (t.tgtFmt = 0 || t.tgtFmt = 2) && !t.compress &&
    match base.find? (·.id = t.id) with
    | none => false
    | some b => if t.role = 1 then t.k = b.k && t.n = rank else t.k = rank && t.n = b.n

/-- Step 1 of R177: a FREE slot is claimed; the base set of an adapter is bound since the command's issue (R172, R201). Which of two FREE slots is a free value (log 37). -/
def Device.claim (d : Device) (v : Env) (adapter : Bool) : TileRes :=
  let t := v.fld 34 2
  let key := d.ctxKey v.ctx
  let mark (k : Nat) : Upd :=
    let j : LoadJob := { target := t, epochSlot := k, adapter := adapter }
    let ks := if adapter || d.unowned t then key else (d.wset t).keySlot
    .all [.setJob v.key (some j),
      .when (!adapter && d.unowned t) (.wset t fun w => { w with owner := d.ownerOf v.ctx, keySlot := key }),
      .target j fun _ =>
        { state := .loading, loader := some v.e, owner := d.ownerOf v.ctx, keySlot := ks, base := v.fld 39 1 }]
  if d.keyGen key = 0 then .stop .translationFault (some { v.record 0x020A with cause := causeKey, stream := 5 }) .skip
  else if adapter then
    if (d.adapterSlot t).state ≠ .free then .stop .weightBusy none .skip
    else .wait (mark 0)
  else if d.setDenied v.ctx t then .stop .weightAccess none .skip
  else
    match [0, 1].filter fun k => (d.epoch t k).state = .free with
    | [] => .stop .weightBusy none .skip
    | [k] => .wait (.readSet t (mark k))
    | _ => .wait (.readSet t (.draw fun n => mark ((Config.freshWord n).toNat % 2)))

/-- Step 2: the manifest is read and checked, the placement computed, the memory allocated. -/
def Device.plan (d : Device) (v : Env) (j : LoadJob) : TileRes :=
  let len := v.fld 48 8
  let x := d.target j
  let free (st : Status) : TileRes := .stop st none (.all [.target j (·.emptied .free), .setJob v.key none])
  d.readShard v j 0 64 fun head _ =>
    match readManifest head len with
    | none => free .operandFormat
    | some m =>
      if m.kind ≠ (if j.adapter then 1 else 0) then free .operandFormat else
      d.readShard v j 64 (64 * m.tensors) fun body segs =>
        match readTensors body m with
        | none => free .operandFormat
        | some ts =>
          let base := match v.cmd.epochs.head? with
            | some p => (d.epoch p.1 p.2).tensors
            | none => []
          if j.adapter && !(ts.all (adapterFits base m.rank)) then free .operandFormat
          else match d.place (bits (v.fld 33 1) 1 1 = 1) d.free [] (numberTables 0 ts) with
          | none => free .weightNospace
          | some placed =>
            .wait (.inject wgtPage 3 fun bad =>
              if bad then .wgtBroken 3 true
              else .all [.touchSegs segs, .consume v.key,
                .of fun d => { d with free := d.free + (placed.map fun t => t.extents.length).sum },
                .draw fun n => .target j fun x => { x with
                  tensors := placed, rank := m.rank, alpha := m.alpha, dir := Config.freshWord n }])

/-- Step 3: the next 4 KiB of the image, hashed with all before; the tensors whose data are then complete are laid out, quantised
and written uncompressed. Data that R183 or R187 refuses ends the load here. -/
def Device.fetchBlock (d : Device) (v : Env) (j : LoadJob) : TileRes :=
  let off := j.fetched.length
  let x := d.target j
  d.readShard v j off (min 4096 (v.fld 48 8 - off)) fun b segs =>
    let data := (j.fetched ++ b).drop (64 + 64 * x.tensors.length)
    let now := (x.tensors.drop j.laid).takeWhile fun t => t.dataEnd ≤ data.length
    let laid := now.map fun t => (t, t.lay data)
    let got := laid.filterMap fun p => p.2.map (p.1, p.1.rawParts ·)
    let read : Upd := .all [.touchSegs segs, .readEvents v.e segs,
      .lookups v.e v.ctx (segs.filter fun s => match s.target with | .remote _ _ => false | _ => true),
      .consume v.key, .count (wgtPage + 0x80) b.length]
    if laid.any (·.2.isNone) then .stop .operandFormat none (.all [read, .target j (·.emptied .free), .setJob v.key none])
    else if !got.isEmpty && d.keyGen x.keySlot = 0 then v.noKey ((got.head?.map fun p => p.1.addr 0).getD 0) 5
    else
      let u : Upd := .all [read, .each got fun p => .putParts x.keySlot p.1 p.2,
        .cur v.e v.s fun c => { c with narrowNan := c.narrowNan || laid.any fun p => p.2.any (·.narrow) },
        .setJob v.key (some { j with fetched := j.fetched ++ b, laid := j.laid + now.length })]
      match got.findSome? fun p => d.partsUe p.1 p.2 with
      | some pa => v.memUe pa 5 u
      | none => .next u

/-- Step 7 and R173: the loaded slot becomes READY and current, and the previous current slot retires. -/
def Upd.switch (j : LoadJob) (ts : List Tensor) (shard prep : List Byte) : Upd :=
  .read fun d =>
    if j.adapter then .target j fun x => { x with state := .ready, tensors := ts, shard := shard, prep := prep, loader := none }
    else
      let w := d.wset j.target
      .all [
        .epoch j.target j.epochSlot fun x => { x with
          state := .ready, tensors := ts, shard := shard, prep := prep, loader := none, epoch := w.lastEpoch + 1 },
        .wset j.target fun w => { w with current := some j.epochSlot, lastEpoch := (w.lastEpoch + 1) % 2 ^ 32 },
        .mirror j.target (some j.epochSlot),
        (match w.current with | some k => .retire j.target k | none => .skip),
        .syncSet j.target, .releaseDue]

/-- Step 4: the hash of the image is compared with the expected digest. -/
def Device.checkLoad (d : Device) (v : Env) (j : LoadJob) : TileRes :=
  match d.range v.ctx (v.fld 56 8) 48 false with
  | .inl f => v.xfault f 6
  | .inr segs =>
    match d.readSegs v.key (d.ownerOf v.ctx) segs with
    | .bad b => v.badRead b 6 (.touchSegs segs)
    | .wait m => .wait (.issueReads v.key m)
    | .bytes want =>
      if sha384 j.fetched ≠ want then d.failAttempt v j true
      else .wait (.all [.touchSegs segs, .consume v.key, .setJob v.key (some { j with checked := true })])

/-- Steps 5 to 7: pass 2 encodes the blocks of the compressed tensors, one in each tile, with its side entry; with the last, the
tables and the other side entries are written and the set is switched. -/
def Device.encodeBlock (d : Device) (v : Env) (j : LoadJob) : TileRes :=
  let x := d.target j
  let data := j.fetched.drop (64 + 64 * x.tensors.length)
  let ps := x.tensors.filterMap fun t => (t.lay data).map fun l => (t, t.encode l)
  let todo := ps.flatMap fun p => if p.1.packed then (p.2.blocks.zip (List.range p.2.blocks.length)).map fun b => (p.1, b.2, b.1) else []
  let mine := (todo[j.coded]?).toList
  let last : Bool := todo.length ≤ j.coded + 1
  let parts : List (Tensor × List (Nat × List Byte)) :=
    (mine.map fun b => (b.1, [(4096 * b.2.1, b.2.2.2), (b.1.sideTableAt + 8 * b.2.1, b.2.2.1.bytes)])) ++
    (if last then ps.map fun p =>
      (p.1, (p.1.tablesAt, p.2.tables) :: (if p.1.packed then [] else [(p.1.sideTableAt, p.2.blocks.flatMap (·.1.bytes))])) else [])
  let ybc := (mine.filter fun b => b.2.2.1.codec = 1).length
  let u : Upd := .all [
    .each parts fun p => .putParts x.keySlot p.1 p.2,
    .count (wgtPage + 0x90) ybc, .count (wgtPage + 0x98) (mine.length - ybc),
    if last then .all [
      .switch j (x.tensors.map fun t => { t with palettes := t.paletteCount data }) (sha384 j.fetched) (sha384 (preparedBytes (ps.map (·.2)))),
      .setJob v.key none]
    else .setJob v.key (some { j with coded := j.coded + 1 })]
  if !parts.isEmpty && d.keyGen x.keySlot = 0 then v.noKey ((parts.head?.map fun p => p.1.addr 0).getD 0) 5
  else match parts.findSome? fun p => d.partsUe p.1 p.2 with
  | some pa => v.memUe pa 5 (.each parts fun p => .putParts x.keySlot p.1 p.2)
  | none => if last then .last u else .next u

/-- The next step of a load (R177). DESIGN CHOICE (log 153): while WGT.CTRL.enable is 0 a weight command ends with
WEIGHT_NOT_READY. -/
def tileLoad (d : Device) (v : Env) : TileRes :=
  if !d.wgtOn then .stop .weightNotReady none .skip
  else match d.job v.key with
  | none => d.claim v (v.fld 32 1 = 5)
  | some j =>
    if (d.target j).tensors.isEmpty then d.plan v j
    else if j.fetched.length < v.fld 48 8 then d.fetchBlock v j
    else if !j.checked then d.checkLoad v j
    else d.encodeBlock v j

/-! ### ADOPT and the frees (R174, R201, R206) -/

/-- ADOPT (R206): the prepared digest of a SUSPENDED current slot is recomputed. DESIGN CHOICE (log 151): another slot is left as it is,
with OK, and a digest that differs ends the command with SHARD_DIGEST and its record. -/
def tileAdopt (d : Device) (v : Env) : TileRes :=
  let s := v.fld 34 2
  if !d.wgtOn then .stop .weightNotReady none .skip
  else if d.setDenied v.ctx s then .stop .weightAccess none .skip
  else match (d.wset s).current with
  | none => .last .skip
  | some k =>
    let x := d.epoch s k
    if x.state ≠ .suspended then .last .skip
    else
    let read : Upd := .each x.tensors fun t => .touchTensor t 0 t.scalesAt
    if d.keyGen (d.wset s).keySlot = 0 then v.noKey ((x.tensors.head?.map fun t => t.addr 0).getD 0) 4
    else match x.tensors.findSome? fun t => d.tensorUe t 0 t.scalesAt with
    | some pa => v.memUe pa 4 read
    | none =>
      if d.storedDigest (d.wset s).keySlot x.tensors = x.prep then
        .last (.all [read, .epoch s k fun x => { x with state := .ready }, .mirror s (some k), .syncSet s])
      else .stop .shardDigest (some ((deviceRec 0x0404 6 (detailN s)).ofCmd v.ctx v.s v.cmd.desc))
        (.all [read, .epoch s k (·.emptied .failed), .noCurrent s])

/-- What FREE_EPOCH and ADAPTER_FREE do with a slot of this state, when a command holds it or not, and when a load into
it runs (R174): the state it takes; none for WEIGHT_BUSY. -/
def freeResult (st : EpochState) (held runs : Bool) : Option EpochState :=
  match st with
  | .free => some .free
  | .retiring => some .retiring
  | .ready => none
  | .loading => if runs then none else if held then some .retiring else some .free
  | .failed | .suspended | .degraded => if held then some .retiring else some .free

/-- FREE_EPOCH (R174). -/
def tileFreeEpoch (d : Device) (v : Env) : TileRes :=
  let s := v.fld 34 2
  let k := v.fld 38 1
  let st := (d.epoch s k).state
  if !d.wgtOn then .stop .weightNotReady none .skip
  else if d.setDenied v.ctx s then .stop .weightAccess none .skip
  else match freeResult st (d.epochHeld s k) (d.loadRuns false s k) with
  | none => .stop .weightBusy none .skip
  | some new =>
    let change := Upd.all [
      if new = .free then .all [.epoch s k (·.emptied .free), .syncSet s] else .retire s k,
      .when ((d.wset s).current = some k) (.noCurrent s)]
    .last (if new = st then .skip else change)

/-- FREE_SET (R174). -/
def tileFreeSet (d : Device) (v : Env) : TileRes :=
  let s := v.fld 34 2
  if !d.wgtOn then .stop .weightNotReady none .skip
  else if d.setDenied v.ctx s then .stop .weightAccess none .skip
  else match (d.wset s).current with
  | none => .last .skip
  | some k =>
    .last (.all [if d.epochHeld s k then .retire s k else .epoch s k (·.emptied .free), .noCurrent s])

/-- ADAPTER_FREE (R201): as FREE_EPOCH. DESIGN CHOICE (log 152): a slot of another function's ends the command with
WEIGHT_ACCESS. -/
def tileAdapterFree (d : Device) (v : Env) : TileRes :=
  let a := v.fld 34 2
  let x := d.adapterSlot a
  if !d.wgtOn then .stop .weightNotReady none .skip
  else if x.state ≠ .free ∧ x.owner ≠ d.ownerOf v.ctx then .stop .weightAccess none .skip
  else match freeResult x.state (d.adapterHeld a) (d.loadRuns true a 0) with
  | none => .stop .weightBusy none .skip
  | some new =>
    .last (if new = x.state then .skip
      else if new = .free then .adapterSlot a (·.emptied .free)
      else .adapterSlot a fun x => { x with state := .retiring, wait := d.boundaries })

/-- ADAPTER_BIND (R202). -/
def tileAdapterBind (d : Device) (v : Env) : TileRes :=
  let a := v.fld 32 2
  let s := v.fld 34 1
  let x := d.adapterSlot a
  let others := (d.ctx v.ctx).adapters.filter (·.1 ≠ s)
  if d.setDenied v.ctx s then .stop .weightAccess none .skip
  else if a = 0xFFFF then .last (.ctx v.ctx fun c => { c with adapters := others })
  else if x.state ≠ .ready ∨ x.owner ≠ d.ownerOf v.ctx ∨ x.base ≠ s ∨ others.length ≥ 16 then
    .stop .adapterInvalid none .skip
  else .last (.ctx v.ctx fun c => { c with adapters := others ++ [(s, a)] })

/-- The commands of opcode WEIGHT_LOAD with one op. -/
def Upd.weightOp (e n op : Nat) (f : Device → Env → TileRes) : Upd :=
  .times n (.read fun d =>
    match d.env e with
    | some v => .when (v.fld 32 1 = op) (.oneTile e [opWeight] f)
    | none => .skip)

/-- WEIGHT_LOAD with op LOAD (R177). -/
def execWeightLoad (e n : Nat) (s : State) : Host.Outcome State Fault Refusal := s.act (.weightLoad e n) (.weightOp e n 1 tileLoad)

/-- ADOPT (R206). -/
def execAdopt (e n : Nat) (s : State) : Host.Outcome State Fault Refusal := s.act (.adopt e n) (.weightOp e n 2 tileAdopt)

/-- FREE_EPOCH (R174). -/
def execFreeEpoch (e n : Nat) (s : State) : Host.Outcome State Fault Refusal :=
  s.act (.freeEpoch e n) (.weightOp e n 3 tileFreeEpoch)

/-- FREE_SET (R174). -/
def execFreeSet (e n : Nat) (s : State) : Host.Outcome State Fault Refusal := s.act (.freeSet e n) (.weightOp e n 4 tileFreeSet)

/-- ADAPTER_LOAD (R201). -/
def execAdapterLoad (e n : Nat) (s : State) : Host.Outcome State Fault Refusal :=
  s.act (.adapterLoad e n) (.weightOp e n 5 tileLoad)

/-- ADAPTER_FREE (R201). -/
def execAdapterFree (e n : Nat) (s : State) : Host.Outcome State Fault Refusal :=
  s.act (.adapterFree e n) (.weightOp e n 6 tileAdapterFree)

/-- ADAPTER_BIND (R202). -/
def execAdapterBind (e n : Nat) (s : State) : Host.Outcome State Fault Refusal :=
  s.act (.adapterBind e n) (.tiles e n [opBind] tileAdapterBind)

/-! ### References (R25, R172) -/

/-- The reference messages that may arrive next: the oldest of each engine (R25). -/
def headMsgs : List (Nat × Nat × Nat × Bool) → List (Nat × Nat × Nat × Bool)
  | [] => []
  | m :: r => m :: (headMsgs r).filter (·.1 ≠ m.1)

/-- A reference message for an epoch reaches the weight-set unit on IO die A (R23, R172). -/
def Upd.refArrive (s k : Nat) (inc : Bool) : Upd :=
  .read fun d =>
    match (headMsgs d.wt.refMsgs).find? fun m => m.2 = (s, k, inc) with
    | none => .skip
    | some m =>
      .when d.up (.all [
        .of fun d => { d with wt := { d.wt with refMsgs := d.wt.refMsgs.erase m } },
        .cross (m.1 / 8) 6 (.all [.epoch s k fun x => { x with refs := if inc then x.refs + 1 else x.refs - 1 }, .releaseDue])])

/-- EPOCH_REF_INCREMENT (R172). -/
def execEpochRefIncrement (set slot : Nat) (s : State) : Host.Outcome State Fault Refusal :=
  s.act (.epochRefIncrement set slot) (.refArrive set slot true)

/-- EPOCH_REF_DECREMENT (R172, R173). -/
def execEpochRefDecrement (set slot : Nat) (s : State) : Host.Outcome State Fault Refusal :=
  s.act (.epochRefDecrement set slot) (.refArrive set slot false)

/-- A boundary count of an engine arrives: the engine has passed a boundary since a count of c when it has begun or ended
a command since, or is idle (R145). No earlier reference of the engine is still on its way (R25, R173). -/
def Device.passedBoundary (d : Device) (e c : Nat) : Bool :=
  c < (d.eng e).boundary || (d.eng e).run.isNone

/-- The retiring slots note an engine's boundary (R173 step 4). -/
def Upd.weightBoundary (e : Nat) : Upd :=
  .read fun d =>
    let drop (l : List (Nat × Nat)) : List (Nat × Nat) := l.filter fun p => !(p.1 = e && d.passedBoundary e p.2)
    let f (p : Nat × Loaded) : Nat × Loaded := (p.1, { p.2 with wait := drop p.2.wait })
    .when (!(d.wt.refMsgs.any fun m => m.1 = e && m.2.2.2)) (.all [
      .of fun d => { d with wt := { d.wt with epochs := d.wt.epochs.map f, adapters := d.wt.adapters.map f } },
      .releaseDue])

/-! ### Timeouts and enabling (R179, R206) -/

/-- FETCH_TIMEOUT (R179): a shard read of the slot's load has had no completion within WGT.FETCH_TMO; the attempt fails. -/
def execFetchTimeout (e slot : Nat) (s : State) : Host.Outcome State Fault Refusal :=
  s.act (.fetchTimeout e slot) (.read fun d =>
    let key := slotKey e slot
    let waits := (d.ho.reads.any fun r => r.slot = key && !r.answered && !r.dropped) ||
      (d.lk.reqs.any fun r => r.slot = key && r.kind = .read && !r.answered)
    match d.job key with
    | none => .skip
    | some j => .when (d.up && d.unheld && waits) (.setJob key (some { j with timedOut := true })))

/-- The state that a slot takes when enable is written (R206). -/
def Loaded.enabled (x : Loaded) : Loaded :=
  match x.state with
  | .ready => { x with state := .suspended, refs := 0 }
  | .retiring => { (x.emptied .free) with refs := 0 }
  | _ => { x with refs := 0, loader := none }

/-- The set table says nothing that the device did not write: every entry is as the device wrote it, or both its slots are
FREE and its current slot, if it names one, is one of them. -/
def Device.entryOk (d : Device) (s : Nat) (b : List Byte) : Bool :=
  b = d.setBytes s || (fieldAt b 16 1 = 0 && fieldAt b 136 1 = 0 && (fieldAt b 0 1 ≤ 1 || fieldAt b 0 1 = 0xFF))

/-- The tables and heaps that enabling reads are consistent: aligned, populated, and with entries as above. -/
def Device.tablesOk (d : Device) : Bool :=
  let sets := d.pair (wgtPage + 0x40) % 2 ^ 44
  let ads := d.pair (wgtPage + 0x48) % 2 ^ 44
  let heapOk (h : Nat) : Bool :=
    let (base, count) := d.heap h
    count = 0 || (base % 2 ^ 21 = 0 && populatedRange base (count * 2 ^ 21))
  sets % 4096 = 0 && ads % 4096 = 0 && populatedRange sets 65536 && populatedRange ads 262144 && (List.range 8).all heapOk &&
    (List.range 256).all fun s => d.entryOk s (d.bytesAt 0 (d.setAddr s) 256)

/-- A set whose entry host software wrote while enable was 0: both slots FREE, the owner and the last epoch number as
written. -/
def Upd.takeEntry (s : Nat) : Upd :=
  .read fun d =>
    let b := d.bytesAt 0 (d.setAddr s) 256
    .when (b ≠ d.setBytes s) (.all [
      .wset s fun _ => { current := none, owner := fieldAt b 2 2, keySlot := fieldAt b 4 1, lastEpoch := fieldAt b 8 4 },
      .epoch s 0 fun _ => {}, .epoch s 1 fun _ => {}])

/-- A write of WGT.CTRL (R206, WGT page). -/
def Upd.wgtCtrl (data : Word) : Upd :=
  .read fun d =>
    if !bitOf data 0 then .setReg (wgtPage + 0x04) 0
    else if d.wgtOn then .skip
    else .inject wgtPage 2 fun bad => .read fun d =>
      let ue := (d.ueIn (d.pair (wgtPage + 0x40) % 2 ^ 44) 65536).isSome || (d.ueIn (d.pair (wgtPage + 0x48) % 2 ^ 44) 262144).isSome
      let read (a len : Nat) : Upd := .when (populatedRange a len) (.touch a len)
      .all [read (d.pair (wgtPage + 0x40) % 2 ^ 44) 65536, read (d.pair (wgtPage + 0x48) % 2 ^ 44) 262144,
      if bad || ue then .wgtBroken 2 bad
      else if !d.tablesOk then .setReg (wgtPage + 0x08) 4
      else .all [
        .each (List.range 256) .takeEntry,
        .of fun d => { d with wt := { d.wt with
          known := true, epochs := d.wt.epochs.map fun p => (p.1, p.2.enabled), adapters := [], jobs := [], refMsgs := [], mirror := [] } },
        .setReg (wgtPage + 0x08) 0, .setReg (wgtPage + 0x04) 1,
        .each (List.range 256) fun s => .read fun d => .when (d.setBytes s ≠ d.bytesAt 0 (d.setAddr s) 256) (.syncSet s)]]

/-- WGT_ENABLE (R206): a write of WGT.CTRL by the physical function. -/
def execWgtEnable (fn : Nat) (data : Word) (s : State) : Host.Outcome State Fault Refusal :=
  s.hostAct (.wgtEnable fn data) fn (.read fun d => .when (d.up && fn = 0) (.wgtCtrl data))

/-- An engine's loads end with its reset: the slots it was loading return to FREE (R205). -/
def Upd.dropLoads (e : Nat) : Upd :=
  .read fun d => .all [
    .each (d.wt.jobs.filter fun p => p.1 / 8 = e) fun p => .all [.setJob p.1 none,
      .when ((d.target p.2).state = .loading) (.target p.2 (·.emptied .free))],
    .each (d.wt.epochs.filter fun p => p.2.state = .loading && p.2.loader = some e) fun p =>
      .all [.epoch (p.1 / 2) (p.1 % 2) (·.emptied .free), .syncSet (p.1 / 2)],
    .each (d.wt.adapters.filter fun p => p.2.state = .loading && p.2.loader = some e) fun p => .adapterSlot p.1 (·.emptied .free)]

/-- A block of an epoch, or of an adapter, cannot be decoded: it is DEGRADED from now on (R197). -/
def Upd.degrade (adapter : Bool) (t k : Nat) : Upd :=
  .read fun d =>
    let f (x : Loaded) : Loaded := { x with state := if x.state = .ready then .degraded else x.state }
    .all [if adapter then .adapterSlot t f else .all [.epoch t k f, .syncSet t],
      .when ((if adapter then d.adapterSlot t else d.epoch t k).state = .ready) (.raise wgtPage (oneBit 0))]

end Sys2Proof.Machine
end

