-- ==== Sys2Proof/Machine/Matrix.lean ====
section
/-! DEFINITION. Matrix commands: what a command binds at issue (R118, R172, R202), weights through the expander
(06_weights.md R195 to R197), passes and segments, accumulators, the epilogue, and MATMUL and U4_GEMM
(02_arithmetic.md R56 to R62, 03_matrix_array.md R75 to R80, 04_vector_units.md R121, 08_commands.md R245 to R247). -/

namespace Sys2Proof.Machine

/-! ### What a command binds at issue -/

/-- The functions that a command names, with the inputs and outputs it uses (R118). -/
def fnUses (desc : List Byte) : List (Nat × Nat × Nat) :=
  let op := fieldAt desc 0 1
  if op = opMatmul then (if fieldAt desc 112 1 = 0 then [] else [(fieldAt desc 112 1, 1, 1)])
  else if op = opMicroprog then [(fieldAt desc 84 1, microUse desc)]
  else []

/-- The weight set and tensor that a matrix command names (R245), or the set alone that a DIGEST_CTL of a set or an ADAPTER_LOAD, for
its base, names (R172, R201). -/
def setUse (desc : List Byte) : Option (Nat × Nat) :=
  if fieldAt desc 0 1 = opMatmul ∧ bits (fieldAt desc 115 1) 0 1 = 1 then some (fieldAt desc 48 1, fieldAt desc 49 4)
  else if fieldAt desc 0 1 = opDigest ∧ fieldAt desc 32 1 = 3 ∧ bits (fieldAt desc 35 1) 0 1 = 0 then some (fieldAt desc 36 2, 0)
  else if fieldAt desc 0 1 = opWeight ∧ fieldAt desc 32 1 = 5 then some (fieldAt desc 39 1, 0)
  else none

/-- What a command holds from its issue to its end. -/
structure Bound where
  fns : List Nat := []
  epochs : List (Nat × Nat) := []
  adapters : List (Nat × Nat) := []
deriving DecidableEq, Repr

/-- A and B of an adapter for a tensor, when their shapes fit it (R201, R203). -/
def adapterPair (x : Loaded) (t : Tensor) : Option (Tensor × Tensor) :=
  match x.tensors.find? (fun u => u.id = t.id && u.role = 1), x.tensors.find? (fun u => u.id = t.id && u.role = 2) with
  | some a, some b => if a.k = t.k ∧ a.n = x.rank ∧ b.k = x.rank ∧ b.n = t.n then some (a, b) else none
  | _, _ => none

/-- What a descriptor binds, or the status with which its command ends at issue (R118, R169, R172, R202; the order is log
39). adapter is the adapter flag of the header. -/
def Device.bindOf (d : Device) (e ctx : Nat) (adapter : Bool) (desc : List Byte) : Status × Bound :=
  let fns := fnUses desc
  let bad := fns.any fun u => let f := d.fn u.1; f.state ≠ .active || (f.inputs, f.outputs) ≠ u.2
  if bad then (.microprogInvalid, {})
  else match setUse desc with
  | none => if adapter && fieldAt desc 0 1 = opMatmul then (.adapterInvalid, {}) else (.ok, { fns := fns.map (·.1) })
  | some (s, id) =>
    if d.setDenied ctx s then (.weightAccess, {})
    else match d.mirrored (e / 8) s with
    | none => (.weightNotReady, {})
    | some k =>
      let x := d.epoch s k
      if !d.wgtOn || x.state ≠ .ready then (.weightNotReady, {})
      else if !adapter || fieldAt desc 0 1 = opWeight then (.ok, { fns := fns.map (·.1), epochs := [(s, k)] })
      else match (d.ctx ctx).adapters.find? (·.1 = s), x.tensors.find? (·.id = id) with
      | some (_, a), some t =>
        let y := d.adapterSlot a
        if y.state ≠ .ready || (adapterPair y t).isNone then (.adapterInvalid, {})
        else (.ok, { fns := fns.map (·.1), epochs := [(s, k)], adapters := [(s, a)] })
      | _, _ => (.adapterInvalid, {})

/-- The command takes hold of what it binds (R117, R172, R202): references of functions and adapters are counted at once,
those of epochs travel to the weight-set unit (log 40). -/
def Upd.hold (e s : Nat) (b : Bound) : Upd :=
  .all [
    .cur e s fun c => { c with fns := c.fns ++ b.fns, epochs := c.epochs ++ b.epochs, adapters := c.adapters ++ b.adapters },
    .of fun d => { d with wt := { d.wt with refMsgs := d.wt.refMsgs ++ b.epochs.map fun p => (e, p.1, p.2, true) } },
    .each b.fns fun i => .of fun d => { d with sfu := { d.sfu with fns := put d.sfu.fns i { d.fn i with refs := (d.fn i).refs + 1 } (builtinFn i) } },
    .each b.adapters fun p => .adapterSlot p.2 fun x => { x with refs := x.refs + 1 }]

/-! ### Weights through the expander (R184, R195, R196) -/

/-- What reading weights brings: values with their group scales, an uncorrectable line, a block that fails to decode, or an access
under an EMPTY key slot (R219). -/
inductive WGot where
  | ok (vals : List FVal) (scales : List Nat)
  | ue (pa : Nat)
  | bad (block : Nat)
  | key (pa : Nat)

/-- The values in order: the first failure decides. -/
def WGot.append : WGot → WGot → WGot
  | .ok a s, .ok b t => .ok (a ++ b) (s ++ t)
  | .ok _ _, x => x
  | x, _ => x

/-- The bytes of a block of a tensor, decoded. -/
def Device.weightBlock (d : Device) (key : Nat) (t : Tensor) (b : Nat) : List Byte ⊕ WGot :=
  let at' := t.sideTableAt + 8 * b
  if d.keyGen key = 0 then .inr (.key (t.addr at')) else
  match d.tensorUe t at' 8 with
  | some pa => .inr (.ue pa)
  | none =>
    let x := readSideEntry (d.tensorBytes key t at' 8)
    let off := t.tablesAt + 64 * (x.table - t.table)
    let coded := x.codec = 1
    if coded && (x.table < t.table || t.groups ≤ x.table - t.table) then .inr (.bad b)
    else match (if coded then d.tensorUe t off 64 else none), d.tensorUe t (4096 * b) (min x.len 4096) with
    | some pa, _ => .inr (.ue pa)
    | none, some pa => .inr (.ue pa)
    | none, none =>
      let table := if coded then readTable (d.tensorBytes key t off 64) else ⟨0, [], false, []⟩
      let slot := d.tensorBytes key t (4096 * b) 4096
      if t.width = 3 then (if x.codec = 0 ∧ x.len = 4096 ∧ x.table = 0 then .inl slot else .inr (.bad b))
      else match decodeBlock t.split x table slot with
      | none => .inr (.bad b)
      | some l => .inl (packBits t.split.width l)

/-- Blocks in order, as one byte string. -/
def Device.weightBlocks (d : Device) (key : Nat) (t : Tensor) : List Nat → List Byte ⊕ WGot
  | [] => .inl []
  | b :: r =>
    match d.weightBlock key t b with
    | .inr x => .inr x
    | .inl l =>
      match d.weightBlocks key t r with
      | .inr x => .inr x
      | .inl m => .inl (l ++ m)

/-- The palette of a tensor of palette codes, from the epoch's table area (R187). -/
def Device.paletteOf (d : Device) (key : Nat) (t : Tensor) : List Nat :=
  unpackElems t.fmt (d.tensorBytes key t t.paletteAt (t.palettes * 16 * (t.fmt.width / 8))) (t.palettes * 16)

/-- A stored element as the expander writes it: under its group's side entry (R196). DESIGN CHOICE (log 126): a zero point of
PRE_SZ side data is used as its whole byte, and a palette index of PRE_CB side data beyond the palette gives pattern 0. -/
def Tensor.expand (t : Tensor) (palette : List Nat) (side : List Byte) (p : Nat) : FVal :=
  match t.qmode with
  | 0 | 2 => decodeElem t.fmt p
  | 1 => if fieldAt side 0 1 = 0xFF then .nan else decodeElem (if t.fmt = .mxint8 then .mxint8 else t.fmt.elem) p
  | 3 | 5 =>
    let v := (FVal.fin ((p : Int) - fieldAt side 2 1) 0).mul (decodeElem .bf16 (fieldAt side 0 2))
    decodeElem t.fmt (encodeElem t.fmt v)
  | _ => decodeElem t.fmt (palette.getD (fieldAt side 0 1 * 16 + p) 0)

/-- The blocks of a tensor that hold a byte of a column's part in a tile (R195). -/
def Tensor.columnBlocks (t : Tensor) (kt n : Nat) : List Nat :=
  let bytes := t.tileK * t.width / 8
  let lo := n % 128 * bytes
  let first := ((n / 128) * t.kTiles + kt) * t.tileBlocks
  span (first + lo / 4096) ((lo + bytes - 1) / 4096 - lo / 4096 + 1)

/-- Column n of a tensor in tile kt: its values and group scales. -/
def Device.tileColumn (d : Device) (key : Nat) (t : Tensor) (kt n : Nat) : WGot :=
  let tile := (n / 128) * t.kTiles + kt
  let bytes := t.tileK * t.width / 8
  let lo := n % 128 * bytes
  let sideLen := t.tileGroups * t.sideBytes
  let sideOff := t.sideAt + (tile * 128 + n % 128) * sideLen
  let palUe := d.tensorUe t t.paletteAt (t.palettes * 16 * (t.fmt.width / 8))
  match d.weightBlocks key t (t.columnBlocks kt n), d.tensorUe t sideOff sideLen, palUe with
  | .inr x, _, _ => x
  | .inl _, some pa, _ => .ue pa
  | .inl _, none, some pa => .ue pa
  | .inl b, none, none =>
    let palette := d.paletteOf key t
    let elems := unpackBits t.width t.tileK ((b.drop (lo % 4096)).take bytes)
    let side := d.tensorBytes key t sideOff sideLen
    let entry (g : Nat) : List Byte := (side.drop (g * t.sideBytes)).take t.sideBytes
    let live (i : Nat) (x : FVal) : FVal := if kt * t.tileK + i < t.k then x else .zero
    .ok ((elems.zip (List.range t.tileK)).map fun p => live p.2 (t.expand palette (entry (p.2 / 32)) p.1))
      ((List.range t.tileGroups).map fun g => if t.qmode = 1 then fieldAt (entry g) 0 1 else 127)

/-- The stored tiles along K that hold some K indices. -/
def Tensor.tilesOf (t : Tensor) (k0 len : Nat) : List Nat := span (k0 / t.tileK) ((k0 + len - 1) / t.tileK - k0 / t.tileK + 1)

/-- Column n of a tensor over len K indices from k0, a multiple of 32. -/
def Device.tensorColumn (d : Device) (key : Nat) (t : Tensor) (n k0 len : Nat) : WGot :=
  let first := k0 / t.tileK
  let tiles := (t.tilesOf k0 len).map fun kt => d.tileColumn key t kt n
  match tiles.foldr WGot.append (.ok [] []) with
  | .ok v s =>
    let skip := k0 - first * t.tileK
    .ok ((v.drop skip).take len) ((s.drop (skip / 32)).take (ceilDiv len 32))
  | x => x

/-- What a staged block occupies in the block store and in the cell store: its stored length rounded up to 64 bytes (R194). -/
def SideEntry.occupies (x : SideEntry) : Nat := roundUp x.len 64

/-- A block of a tensor as the stores hold it. -/
def Device.stagedBlock (d : Device) (key : Nat) (t : Tensor) (b : Nat) (x : SideEntry) : Staged :=
  ⟨t.addr (4096 * b), d.tensorBytes key t (4096 * b) x.occupies⟩

/-- Bytes of a tensor are read by an engine: they meet their controller (R212), and the read counts (R332). -/
def Upd.tensorRead (e : Nat) (t : Tensor) (off len : Nat) : Upd :=
  .when (len ≠ 0) (.all [.touchTensor t off len, .memRead e (t.addr off)])

/-- What loading the stationary tile of a pass does: reads in the controllers, snare transfers of side-table entries and tables
(R277), the blocks staged in the block store and, for the pass's rows to use them again, in the cell store (R194; log 31), and the expander's counters, on the engine's first enabled cell (EXP page;
log 31). What is staged with more adds to what is staged already. -/
def Upd.expanded (e key : Nat) (t : Tensor) (cols kts : List Nat) (more : Bool := false) : Upd :=
  .read fun d =>
    let c := (d.cellsOf e).headD 0
    let bs := (cols.flatMap fun n => kts.flatMap fun kt => t.columnBlocks kt n).eraseDups
    let entries := bs.map fun b => readSideEntry (d.tensorBytes key t (t.sideTableAt + 8 * b) 8)
    let tables := ((entries.filter (·.codec = 1)).map (·.table)).eraseDups
    let ybc := (entries.filter (·.codec = 1)).length
    let sideLen := t.tileGroups * t.sideBytes
    let bytes := (entries.map (·.len)).sum + cols.length * kts.length * sideLen
    let out := cols.length * kts.length * 256
    .all [
      .each (bs.zip entries) fun p => .all [.tensorRead e t (4096 * p.1) p.2.len, .tensorRead e t (t.sideTableAt + 8 * p.1) 8,
        .event e 0x041 1, .event e 0x042 (ceilDiv p.2.len 64)],
      .each tables fun i => .tensorRead e t (t.tablesAt + 64 * (i - t.table)) 64,
      .each cols fun n => .each kts fun kt => .tensorRead e t (t.sideAt + (((n / 128) * t.kTiles + kt) * 128 + n % 128) * sideLen) sideLen,
      .tensorRead e t t.paletteAt (t.palettes * 16 * (t.fmt.width / 8)),
      .snare e (bs.length + tables.length) 0 (8 * bs.length + 64 * tables.length),
      (let l := (bs.zip entries).map fun p => d.stagedBlock key t p.1 p.2
       .all [.eng e fun g => { g with staged := (if more then g.staged else []) ++ l },
         .cell e c fun a => { a with blocks := (if more then a.blocks else []) ++ l }]),
      .count (expPage e c + 0x60) ybc, .count (expPage e c + 0x68) (bs.length - ybc),
      .count (expPage e c + 0x70) bytes, .count (expPage e c + 0x78) out, .count (expPage e c + 0x80) tables.length,
      .event e (0x118 + 0x40 * c) ybc, .event e (0x119 + 0x40 * c) (bs.length - ybc),
      .event e (0x11A + 0x40 * c) (ceilDiv bytes 64), .event e (0x11B + 0x40 * c) (ceilDiv out 64)]

/-! ### The operands of a matrix command -/

/-- Where the weights come from. -/
inductive WSrc where
  /-- a weight operand in memory (R246) -/
  | memory (fmt : Fmt)
  /-- a tensor of a bound epoch: set, epoch slot, key slot -/
  | tensor (set slot key : Nat) (t : Tensor)

/-- The format class of the weights. -/
def WSrc.fmt : WSrc → Fmt
  | .memory f => f
  | .tensor _ _ _ t => t.fmt

/-- A bound adapter of a matrix operation: its slot, key slot and alpha, with its A and B for the tensor (R203). -/
structure AdapterUse where
  slot : Nat
  key : Nat
  alpha : Nat
  a : Tensor
  b : Tensor

/-- A matrix operation, read from its descriptor. -/
structure Mat where
  m : Nat
  n : Nat
  k : Nat
  aFmt : Fmt
  outFmt : Fmt
  src : WSrc
  rate : Nat
  path : Path
  parts : Nat
  kp : Nat
  shape : Nat
  width : Nat
  desc : List Byte
  adapter : Option AdapterUse

namespace Mat

def fld (p : Mat) (off size : Nat) : Nat := fieldAt p.desc off size
def bias (p : Mat) : Nat := bits (p.fld 111 1) 0 2
def scaleSel (p : Mat) : Nat := bits (p.fld 111 1) 2 2
def stochastic (p : Mat) : Bool := bits (p.fld 111 1) 4 1 = 1

/-- Stationary tiles in the order of their passes: partition, first K index, K indices (R247). -/
def passes (p : Mat) : List (Nat × Nat × Nat) :=
  (List.range p.parts).flatMap fun j =>
    let lo := if p.parts = 1 then 0 else j * p.kp
    let hi := if p.parts = 1 then p.k else min ((j + 1) * p.kp) p.k
    (cutAt (p.k / (128 * p.rate) + 2) (128 * p.rate) 0 (hi - lo)).map fun c => (j, lo + c.1, c.2)

/-- Slices of N: first column, columns. -/
def slices (p : Mat) : List (Nat × Nat) := cutAt (p.n / p.width + 2) p.width 0 p.n

/-- Output elements that are converted together: 32 of an MX format, 2 of a 4-bit one. -/
def unit (p : Mat) : Nat := if p.outFmt.isMx then 32 else if p.outFmt.width = 4 then 2 else 1

/-- The output elements that a slice completes: from the first column not yet converted to the end of the last whole unit
(all that remain for the last slice) (log 41). -/
def outSpan (p : Mat) (c0 w : Nat) : Nat × Nat :=
  let lo := c0 / p.unit * p.unit
  let hi := if c0 + w = p.n then p.n else (c0 + w) / p.unit * p.unit
  (lo, hi - lo)

/-- The bytes of an output row that a span of elements fills: offsets and lengths. -/
def outPieces (p : Mat) (lo len : Nat) : List (Nat × Nat) :=
  if len = 0 then []
  else (lo * p.outFmt.width / 8, elemBytes p.outFmt len) ::
    (if p.outFmt.isMx then [(elemBytes p.outFmt p.n + lo / 32, ceilDiv len 32)] else [])

/-- The size of the bias vector, rounded up to 64 bytes (R246). -/
def biasBytes (p : Mat) : Nat := roundUp (match p.bias with | 1 => 4 * p.n | 2 => 2 * p.n | _ => 0) 64

end Mat

/-- A matrix operation of a command, or the status that its bound epoch gives it (R48; log 42). -/
def Device.matOf (d : Device) (e : Nat) (cmd : Cmd) (desc : List Byte) (adapter : Bool) : Status ⊕ Mat :=
  let f := fieldAt desc
  let aFmt := (fmtOf (f 108 1)).getD .bf16
  let build (src : WSrc) (ad : Option AdapterUse) : Status ⊕ Mat :=
    match pairing aFmt src.fmt with
    | none => .inl .operandFormat
    | some (rate, path) =>
      .inr { m := f 80 4, n := f 84 4, k := f 88 4, aFmt := aFmt, outFmt := (fmtOf (f 110 1)).getD .bf16, src := src,
             rate := rate, path := path, parts := f 113 1, kp := f 92 4, shape := f 114 1,
             width := if f 124 1 = 0 then d.minWidth e else f 124 1, desc := desc, adapter := ad }
  match setUse desc with
  | none => build (.memory ((fmtOf (f 109 1)).getD .bf16)) none
  | some (s, id) =>
    match cmd.epochs.find? (·.1 = s) with
    | none => .inl .weightNotReady
    | some (_, k) =>
      match (d.epoch s k).tensors.find? (·.id = id) with
      | none => .inl .shapeInvalid
      | some t =>
        if t.k < f 88 4 ∨ t.n < f 84 4 then .inl .shapeInvalid
        else
          let ad := if adapter then (cmd.adapters.find? (·.1 = s)).bind fun p =>
              (adapterPair (d.adapterSlot p.2) t).map fun ab =>
                ⟨p.2, (d.adapterSlot p.2).keySlot, (d.adapterSlot p.2).alpha, ab.1, ab.2⟩
            else none
          match ad with
          | some x => if (pairing aFmt x.a.fmt).isNone then .inl .operandFormat else build (.tensor s k (d.wset s).keySlot t) ad
          | none => build (.tensor s k (d.wset s).keySlot t) none

/-- The activation values of a row's bytes and its scales, over some K indices. -/
def actRow (f : Fmt) (bytes scales : List Byte) (len : Nat) : List FVal × List Nat :=
  (decodeRow f bytes len scales,
    (List.range (ceilDiv len 32)).map fun g => if f.isMx then fieldAt scales g 1 else 127)

/-- All the columns, or the first failure. -/
def gather : List WGot → List (List FVal × List Nat) ⊕ WGot
  | [] => .inl []
  | .ok v s :: r =>
    match gather r with
    | .inl l => .inl ((v, s) :: l)
    | .inr x => .inr x
  | x :: _ => .inr x

/-! ### The epilogue (R121, R122, R203) -/

/-- The dot-product path of a format with another (R47). -/
def pathWith (g f : Fmt) : Path :=
  match pairing f g with
  | some r => r.2
  | none => .wide

/-- What the adapter adds to a row: v of R203 for each column, from the whole activation row. u runs on one path, its product with B on
the other; af is the adapter format, to which u is converted. -/
def adapterRow (pathU pathV : Path) (a b : List (List FVal × List Nat)) (af : Fmt) (row : List FVal × List Nat) : List FVal :=
  let u := a.map fun w => encodeElem af (accumulate pathU .zero row.1 w.1 row.2 w.2)
  let uv := u.map (decodeElem af)
  let ones := (List.range (ceilDiv uv.length 32)).map fun _ => 127
  b.map fun w => accumulate pathV .zero uv w.1 ones w.2

/-- The epilogue of one element up to its conversion (R121 steps 2 to 4), each operand none when its step is skipped. -/
def Device.epilogue (d : Device) (act : Nat) (bias scale : Option FVal) (x : FVal) : FVal :=
  let x := match bias with | some b => fadd x b | none => x
  let x := if act = 0 then x else d.apply1 act x
  match scale with | some s => fmul x s | none => x

/-! ### The steps of MATMUL (R231, R247) -/

/-- Where a tile of a MATMUL stands: row block and its rows, slice, pass, and the first row of the segment within the block. -/
structure MatPos where
  rb : Nat
  size : Nat
  slice : Nat
  pass : Nat
  row : Nat

/-- The position after some passes and some rows of the next: every output tile takes all its passes, every pass the rows of its
block. -/
def Mat.pos (p : Mat) (done : Nat × Nat) : MatPos :=
  let q := p.passes.length
  let ns := p.slices.length
  let rb := done.1 / (ns * q)
  { rb := rb, size := min 2048 (p.m - rb * 2048), slice := done.1 % (ns * q) / q, pass := done.1 % q, row := done.2 }

/-- The rows of a segment: 512 at most, or as many as entered in 512 core cycles (R79). -/
def MatPos.rows (z : MatPos) (limit : Nat) : Nat := min (max 1 (min limit 512)) (z.size - z.row)

/-- The segment of n rows ends its pass. -/
def MatPos.passEnds (z : MatPos) (n : Nat) : Bool := z.size ≤ z.row + n

/-- The pass is the last of the operation. -/
def Mat.lastPass (p : Mat) (z : MatPos) : Bool := p.m ≤ (z.rb + 1) * 2048 && z.slice + 1 = p.slices.length && z.pass + 1 = p.passes.length

/-- The ranges of the activation rows and their scales over some K indices. -/
def Mat.actRanges (p : Mat) (rows : List Nat) (k0 len : Nat) : List Rng :=
  (rows.map fun r => ⟨p.fld 32 8 + r * p.fld 96 4 + k0 * p.aFmt.width / 8, elemBytes p.aFmt len, 2, false⟩) ++
  (if p.aFmt.isMx then rows.map fun r => ⟨p.fld 40 8 + r * roundUp (ceilDiv p.k 32) 64 + k0 / 32, ceilDiv len 32, 2, false⟩ else [])

/-- The ranges of a weight operand in memory for some columns (R246). -/
def Mat.weightRanges (p : Mat) (cols : List Nat) (k0 len : Nat) : List Rng :=
  match p.src with
  | .memory f => cols.map fun n => ⟨p.fld 48 8 + n * roundUp (elemBytes f p.k) 64 + k0 * f.width / 8, elemBytes f len, 1, false⟩
  | .tensor _ _ _ _ => []

/-- The bias and scale values of a row's columns from the bytes of their ranges. -/
def Mat.epiOperands (p : Mat) (biasBytes scaleBytes : List Byte) (row j : Nat) : Option FVal × Option FVal :=
  let b := match p.bias with
    | 1 => some (f32 (fieldAt biasBytes (4 * j) 4))
    | 2 => some (decodeElem .bf16 (fieldAt biasBytes (2 * j) 2))
    | _ => none
  let s := match p.scaleSel with
    | 1 => some (f32 (p.fld 104 4))
    | 2 => some (f32 (fieldAt scaleBytes (4 * j) 4))
    | 3 => some (f32 (fieldAt scaleBytes (4 * row) 4))
    | _ => none
  (b, s)

/-- The ranges of the epilogue vectors for columns c0 to c0+w-1 of rows r0 to r0+h-1. -/
def Mat.epiRanges (p : Mat) (c0 w r0 h : Nat) : List Rng :=
  let base := p.fld 72 8
  (match p.bias with
    | 1 => [⟨base + 4 * c0, 4 * w, 2, false⟩]
    | 2 => [⟨base + 2 * c0, 2 * w, 2, false⟩]
    | _ => []) ++
  (match p.scaleSel with
    | 2 => [⟨base + p.biasBytes + 4 * c0, 4 * w, 2, false⟩]
    | 3 => [⟨base + p.biasBytes + 4 * r0, 4 * h, 2, false⟩]
    | _ => [])

/-- The block of a tensor whose second decode an engine awaits (R197): of an epoch slot, or of an adapter slot. -/
def Upd.awaitDecode (e cell : Nat) (adapter : Bool) (target slot block : Nat) (t : Tensor) : Upd :=
  .eng e fun g => { g with redecode := some (cell, adapter, target, slot, t.role * 2 ^ 32 + t.id, block) }

/-- The columns of the weights of a pass, from memory operands' bytes or through the expander. -/
def Device.matColumns (d : Device) (p : Mat) (cols : List Nat) (k0 len : Nat) (bytes : List (List Byte)) :
    List (List FVal × List Nat) ⊕ WGot :=
  match p.src with
  | .memory f =>
    .inl (bytes.map fun b => (decodeRow f b len [], (List.range (ceilDiv len 32)).map fun _ => 127))
  | .tensor _ _ key t => gather (cols.map fun n => d.tensorColumn key t n k0 len)

/-- A failed weight read ends the tile: MEM_UE with the line noted (R182, R216), KEY (R219), or the second decode of R197. Which
tensor it was of: an adapter's, or the set's. -/
def Device.badWeights (d : Device) (v : Env) (p : Mat) (x : WGot) (adapter : Option (Nat × Tensor) := none) : TileRes :=
  match x, adapter, p.src with
  | .ue pa, _, _ => v.memUe pa 1 (.touch (pa / 64 * 64) 64)
  | .key pa, _, _ => v.noKey pa 1
  | .bad b, some (a, t), _ => .wait (.awaitDecode v.e ((d.cellsOf v.e).headD 0) true a 0 b t)
  | .bad b, none, .tensor s k _ t => .wait (.awaitDecode v.e ((d.cellsOf v.e).headD 0) false s k b t)
  | _, _, _ => .wait .skip

/-- The weights of a bound adapter for some columns: A whole, and the columns of B (R203). -/
def Device.adapterWeights (d : Device) (p : Mat) (cols : List Nat) :
    Option ((List (List FVal × List Nat) ⊕ WGot) × (List (List FVal × List Nat) ⊕ WGot)) :=
  p.adapter.map fun x => (gather ((List.range x.a.n).map fun n => d.tensorColumn x.key x.a n 0 p.k),
    gather (cols.map fun n => d.tensorColumn x.key x.b n 0 x.b.k))

/-- The weights of a bound adapter are loaded through the expander: A whole, and columns of B (R203). -/
def Upd.adapterLoad (e : Nat) (p : Mat) (cols : List Nat) : Upd :=
  match p.adapter with
  | some x => .all [.expanded e x.key x.a (List.range x.a.n) (x.a.tilesOf 0 p.k) true, .expanded e x.key x.b cols (x.b.tilesOf 0 x.b.k) true]
  | none => .skip

/-- The end of a tile whose adapter weights cannot be read. -/
def Device.badAdapter (d : Device) (v : Env) (p : Mat)
    (w : Option ((List (List FVal × List Nat) ⊕ WGot) × (List (List FVal × List Nat) ⊕ WGot))) : Option TileRes :=
  match p.adapter, w with
  | some x, some (.inr g, _) => some (d.badWeights v p g (some (x.slot, x.a)))
  | some x, some (_, .inr g) => some (d.badWeights v p g (some (x.slot, x.b)))
  | _, _ => none

/-- What a bound adapter adds to a row's columns (R203). Where A and B have different target formats, "the adapter format" that u is
converted to is A's (DESIGN CHOICE, log 146); each product runs on the path of its own two formats (R47). -/
def Mat.adapterAdds (p : Mat) (w : Option ((List (List FVal × List Nat) ⊕ WGot) × (List (List FVal × List Nat) ⊕ WGot)))
    (row : List FVal × List Nat) : List FVal :=
  match p.adapter, w with
  | some x, some (.inl ca, .inl cb) => (adapterRow (pathWith x.a.fmt p.aFmt) (pathWith x.b.fmt x.a.fmt) ca cb x.a.fmt row).map fun y => fmul y (f32 x.alpha)
  | _, _ => []

/-- The injections that a tile of coded weights meets: a failed first decode (EXP bit 1), a table entry with a parity error
(EXP bit 2); the cell that has one armed. -/
def Device.expArmed (d : Device) (v : Env) (bit : Nat) : Option Nat :=
  (d.cellsOf v.e).find? fun c => d.isArmed (expPage v.e c) bit

/-- One tile of a MATMUL: one segment of a pass (R79, R231), of up to limit rows. The accumulators of the rows go on from the previous pass of
the partition; after the last pass of the last partition the rows are combined, put through the epilogue, converted and
written. -/
def Device.matTile (d : Device) (v : Env) (p : Mat) (limit : Nat) : TileRes :=
  let z := p.pos v.cmd.pass
  let (c0, w) := p.slices.getD z.slice (0, 1)
  let (part, k0, len) := p.passes.getD z.pass (0, 0, 0)
  let final := z.pass + 1 = p.passes.length
  let r0 := z.rb * 2048 + z.row
  let rows := span r0 (z.rows limit)
  let cols := span c0 w
  let withAcc := p.fld 64 8 ≠ 0 && part = 0 && k0 = 0
  let (o0, oLen) := p.outSpan c0 w
  let pieces := if final then p.outPieces o0 oLen else []
  let wholeRow := final && p.adapter.isSome
  let ka := if wholeRow then 0 else k0
  let lenA := if wholeRow then p.k else len
  let ranges :=
    p.actRanges rows ka lenA ++ p.weightRanges cols k0 len ++
    (rows.flatMap fun r => pieces.map fun o => ⟨p.fld 56 8 + r * p.fld 100 4 + o.1, o.2, 3, true⟩) ++
    (if withAcc then rows.map fun r => ⟨p.fld 64 8 + (r * p.n + c0) * 4, 4 * w, 2, false⟩ else []) ++
    (if final then p.epiRanges c0 w r0 rows.length else [])
  let nr := rows.length
  let na := if p.aFmt.isMx then 2 * nr else nr
  let nw := match p.src with | .memory _ => w | _ => 0
  let nc := if withAcc then nr else 0
  if (d.eng v.e).redecode.isSome then .wait .skip
  else match d.rangesOf v.ctx ranges with
  | .inl (f, stream) => v.xfault f stream
  | .inr _ =>
    match p.src, d.expArmed v 1, d.expArmed v 2 with
    | .tensor s k _ t, some c, _ =>
      .wait (.all [.fire (expPage v.e c) 1, .awaitDecode v.e c false s k ((t.columnBlocks (k0 / t.tileK) c0).headD 0) t])
    | .tensor _ _ _ t, none, some c =>
      if t.packed then .wait (.all [.fire (expPage v.e c) 2,
        .resetError (expPage v.e c) 2 ((engRec 0x010B v.e (some c)).ofCmd v.ctx v.s v.cmd.desc) v.e true true])
      else .wait (.fire (expPage v.e c) 2)
    | _, _, _ =>
    -- weights of a set are read before the tile's other effects; those in memory come with the ranges
    match d.matColumns p cols k0 len [] with
    | .inr x => d.badWeights v p x
    | .inl setCols =>
      let ad := if wholeRow then d.adapterWeights p cols else none
      match d.badAdapter v p ad with
      | some r => r
      | none =>
      d.tile v ranges fun bs =>
        let wc := match p.src with
          | .memory f => ((bs.drop na).take nw).map fun b => (decodeRow f b len [], (List.range (ceilDiv len 32)).map fun _ => 127)
          | _ => setCols
        let rest := bs.drop (na + nw)
        let accs := rest.take nc
        let epi := rest.drop nc
        let biasB := if p.bias = 0 then [] else epi.headD []
        let scaleB := if p.bias = 0 then epi.headD [] else epi.getD 1 []
        let actOf (i : Nat) : List FVal × List Nat :=
          actRow p.aFmt (bs.getD i []) (if p.aFmt.isMx then bs.getD (nr + i) [] else []) lenA
        let step (i : Nat) : List Nat :=
          let all := actOf i
          let row := ((all.1.drop (k0 - ka)).take len, (all.2.drop ((k0 - ka) / 32)).take (ceilDiv len 32))
          let prev := look v.cmd.accs (part * 2048 + z.row + i) []
          (wc.zip (List.range w)).map fun c =>
            let start := if withAcc then f32 (fieldAt (accs.getD i []) (4 * c.2) 4) else f32 (prev.getD c.2 0)
            (accumulate p.path start row.1 c.1.1 row.2 c.1.2).bits32
        let news := (List.range nr).map step
        -- the stationary tile is loaded with the pass's first segment (R195), and again when the pass resumes (R80)
        let ends := z.passEnds nr
        let loads : Upd := .all [
          match p.src with
          | .tensor _ _ key t => .when (!v.cmd.loaded) (.all [.expanded v.e key t cols (t.tilesOf k0 len), .when wholeRow (.adapterLoad v.e p cols)])
          | _ => .skip,
          .cur v.e v.s fun c => { c with
            pass := if ends then (c.pass.1 + 1, 0) else (c.pass.1, c.pass.2 + nr), loaded := !ends }]
        let keyed := (List.range nr).zip news
        let place (j i : Nat) : Nat := j * 2048 + z.row + i
        let saved := keyed.foldl (fun m q => put m (place part q.1) q.2 []) v.cmd.accs
        if !final then
          { extra := .all [.cur v.e v.s fun c => { c with accs := saved }, loads], last := false }
        else
          let vals (i : Nat) : List Nat :=
            let add := p.adapterAdds ad (actOf i)
            (List.range w).map fun j =>
              let x := combine p.shape ((List.range p.parts).map fun q => f32 ((look saved (place q i) []).getD j 0))
              let x := match add[j]? with | some y => fadd x y | none => x
              let ops := p.epiOperands biasB scaleB i j
              (d.epilogue (p.fld 112 1) ops.1 ops.2 x).bits32
          let outs : List (Nat × List Nat × (List Byte × Bool)) := (List.range nr).map fun i =>
            let all := look v.cmd.accs (64 * 2048 + z.row + i) [] ++ vals i
            let now := (all.take oLen).map f32
            let enc := encodeRow p.outFmt now (rowRand p.stochastic (p.fld 116 8) (rows.headD 0 * p.n + i * p.n + o0) oLen)
            (i, all.drop oLen, enc)
          let bytesOf (b : List Byte) : List (List Byte) :=
            if oLen = 0 then [] else if p.outFmt.isMx then [b.take (elemBytes p.outFmt oLen), b.drop (elemBytes p.outFmt oLen)] else [b]
          -- the partial accumulators of the output tile are done with; what stays is of the unit not yet complete
          let cleared := outs.foldl (fun m o =>
            put ((List.range p.parts).foldl (fun m q => put m (place q o.1) [] []) m) (64 * 2048 + z.row + o.1) o.2.1 []) saved
          { writes := outs.flatMap fun o => bytesOf o.2.2.1,
            extra := .all [
              .cur v.e v.s fun c => { c with accs := cleared, narrowNan := c.narrowNan || outs.any fun o => o.2.2.2 },
              .each outs fun o => .each ((bytesOf o.2.2.1).zip [0, 1]) fun b => .digest v ((r0 + o.1) * 2 ^ 26 + b.2 * 2 ^ 25 + z.slice) b.1,
              loads,
              .when (p.fld 112 1 ≠ 0) (.countFn v.e v.s (p.fld 112 1) (nr * w)),
              .epiRows v.e nr],
            last := ends && p.lastPass z }

/-- A tile of MATMUL or U4_GEMM, of up to limit rows. -/
def tileMatmul (limit : Nat) (d : Device) (v : Env) : TileRes :=
  match d.matOf v.e v.cmd v.cmd.desc (flagBit v.cmd.desc 6) with
  | .inl st => .stop st none .skip
  | .inr p => d.matTile v p limit

/-- The operands that the arrays check in a tile: the activation rows with their index within the pass, and the columns
(R79, R99). None when they cannot be read. -/
def Device.checkedRows (d : Device) (v : Env) (p : Mat) (limit : Nat) : Option (List (Nat × List FVal) × List (List FVal)) :=
  let z := p.pos v.cmd.pass
  let (c0, w) := p.slices.getD z.slice (0, 1)
  let (_, k0, len) := p.passes.getD z.pass (0, 0, 0)
  let first := z.row
  let rows := span (z.rb * 2048 + first) (z.rows limit)
  let nr := rows.length
  let na := if p.aFmt.isMx then 2 * nr else nr
  match d.rangesOf v.ctx (p.actRanges rows k0 len ++ p.weightRanges (span c0 w) k0 len) with
  | .inl _ => none
  | .inr l => match d.readRanges v.key (d.ownerOf v.ctx) l with
    | .inr (_, false, bs) => match d.matColumns p (span c0 w) k0 len (bs.drop na) with
      | .inl cols =>
        some ((List.range nr).map fun i =>
          (first + i, (actRow p.aFmt (bs.getD i []) (if p.aFmt.isMx then bs.getD (nr + i) [] else []) len).1), cols.map (·.1))
      | .inr _ => none
    | _ => none

/-- What a guard check forms from the rows of a pass and its columns: for stage 0 G of the first row, for stage 2 the group-sum residue
of the first group of physical column 0, unless that column is bypassed (R94, R97, R100, R101). -/
def guardProbe (d : Device) (v : Env) (cell stage : Nat) (path : Path) (rows : List (Nat × List FVal)) (cols : List (List FVal)) :
    Option (Option (Nat × Nat)) :=
  if stage = 0 then some (rows.head?.map fun r => (r.1, guardSum r.2 (guardResidues r.2.length cols)))
  else some (if (d.bypassed v.e cell).getLsbD 0 then none else
    rows.findSome? fun r => ((pieces 32 (r.2.zip (cols.headD []))).findSome? (groupResidue path)).map fun x => (r.1, x))

/-- What the guard check of a matrix tile forms. -/
def matProbe (limit : Nat) : GuardProbe := fun d v cell stage =>
  match d.matOf v.e v.cmd v.cmd.desc (flagBit v.cmd.desc 6) with
  | .inl _ => none
  | .inr p => match d.checkedRows v p limit with
    | none => none
    | some (rows, cols) => guardProbe d v cell stage p.path rows cols

/-- The units of a matrix tile: its function is applied with the last pass of an output tile (R121). -/
def matUnits (limit : Nat) : Units where
  probe := matProbe limit
  use := fun d v => match d.matOf v.e v.cmd v.cmd.desc (flagBit v.cmd.desc 6) with
    | .inr p => if (p.pos v.cmd.pass).pass + 1 = p.passes.length then d.opUse v.op v.cmd.desc else { op := v.op, desc := v.cmd.desc }
    | .inl _ => { op := v.op, desc := v.cmd.desc }

/-- MATMUL (R245 to R247): tiles whose segments take up to rows rows, of the 512 that R79 allows, before 512 core cycles end them. -/
def execMatmul (e n : Nat) (s : State) (rows : Nat := 512) : Host.Outcome State Fault Refusal :=
  s.act (.matmul e n rows) (.tiles e n [opMatmul] (tileMatmul rows) (matUnits rows))

/-- U4_GEMM (R252): a MATMUL without accumulators, epilogue, partitions and weight sets. -/
def execU4Gemm (e n : Nat) (s : State) (rows : Nat := 512) : Host.Outcome State Fault Refusal :=
  s.act (.u4Gemm e n rows) (.tiles e n [opU4Gemm] (tileMatmul rows) (matUnits rows))

end Sys2Proof.Machine
end

