-- ==== Sys2Proof/Machine/Arrays.lean ====
section
/-! DEFINITION. The matrix arrays, cycle by cycle: passes, ramps, rows, freezes, shadow loads, the guard check, and the
second decode of a block (03_matrix_array.md R76 to R102, 06_weights.md R197). The values that a pass computes are those
of MATMUL and the attention commands; these commands move rows and tiles. -/

namespace Sys2Proof.Machine

/-- An event of a cell (R332). -/
def Upd.cellEvent (e c ev n : Nat) : Upd := .event e (0x100 + 0x40 * c + ev) n

/-- The array is clocked: the device is up, its cell is enabled, and the gong does not hold it (R93, R348). -/
def Device.arrayUp (d : Device) (e c : Nat) : Bool := d.up && d.unheld && d.cellOn e c

/-- The array takes passes, rows and tiles: it is clocked, and no reset of its engine is due (R93, R102, R365). -/
def Device.arrayOn (d : Device) (e c : Nat) : Bool := d.arrayUp e c && !d.resetDue e

/-- PASS_ISSUE (R91): a pass within the array's ranges is issued. From STOPPED or RAMP_DOWN a ramp begins, at the ramp
length then written (R90); from IDLE_HOLD the array runs at once. A tile wider than the array is rejected (R96). A ramp up
that begins in RAMP_DOWN counts in ARR.RAMPS like one from STOPPED (DESIGN CHOICE, log 121: R91 does not say). The
operands of the pass are a free value, which the draw names (log 43); final says that it is the last pass for its output elements
(R78). -/
def execPassIssue (e c rate tileK tileN rows : Nat) (accIn : Bool) (groupBase : Nat) (s : State) (final : Bool := false) :
    Host.Outcome State Fault Refusal :=
  s.act (.passIssue e c rate tileK tileN rows accIn groupBase final) (.read fun d =>
    .when (d.arrayOn e c && (rate = 1 || rate = 2 || rate = 4) && !outside tileK 1 (128 * rate) && !outside tileN 1 (d.width e c) &&
        !outside rows 1 (2 ^ 32 - 1) && groupBase % 32 = 0) (.draw fun n => .all [
      .cell e c fun a => { a with
        nextPass := a.nextPass + 1,
        passes := a.passes ++ [⟨a.nextPass + 1, rate, tileK, tileN, rows, accIn, groupBase, n, false, final⟩],
        rampLen := if a.arr = .stopped ∨ a.arr = .rampDown then d.rampCycles e c else a.rampLen,
        groups := if a.arr = .stopped then 1 else a.groups,
        arr := match a.arr with
          | .stopped | .rampDown => .rampUp
          | .idleHold => .running
          | x => x },
      .when ((d.cell e c).arr = .stopped || (d.cell e c).arr = .rampDown)
        (.all [.count (arrPage e c + 0x98), .cellEvent e c 0x07 1])]))

/-- RAMP_STEP (R91); the ramp down of an engine reset goes on while the reset is due (R93). -/
def execRampStep (e c : Nat) (s : State) : Host.Outcome State Fault Refusal :=
  s.act (.rampStep e c) (.read fun d => .when (d.arrayUp e c) (.cell e c Cell.ramp))

/-- IDLE_HOLD_EXPIRY (R91): after ARR.DRUMROLL.idle_hold core cycles in IDLE_HOLD the ramp down begins; group 0 is disabled
in its first cycle. -/
def execIdleHoldExpiry (e c : Nat) (s : State) : Host.Outcome State Fault Refusal :=
  s.act (.idleHoldExpiry e c) (.read fun d =>
    .when (d.arrayOn e c && (d.cell e c).arr = .idleHold)
      (.cell e c fun a => Cell.ramp { a with arr := .rampDown, rampLen := d.rampCycles e c }))

/-! ### The operands of a pass (R71, R98; log 43) -/

/-- The operand format of a pass: one whose pairing with itself has the pass's rate (R47); which one, no parameter says. -/
def Pass.fmt (p : Pass) : Fmt :=
  let l : List Fmt := match p.rate with
    | 1 => [.bf16, .fp16]
    | 2 => [.e4m3, .e5m2, .int8]
    | _ => [.e2m1, .int4]
  l.getD ((Config.freshWord p.data).toNat % l.length) .bf16

/-- The dot-product path of a pass (R47). -/
def Pass.path (p : Pass) : Path := match pairing p.fmt p.fmt with | some (_, x) => x | none => .wide

/-- An operand element by its place among the operands of the pass. -/
def Pass.elem (p : Pass) (place : Nat) : FVal :=
  decodeElem p.fmt (fieldAt [Config.freshByte p.data (2 * place), Config.freshByte p.data (2 * place + 1)] 0 2 % 2 ^ p.fmt.width)

/-- A logical column of the tile, over its K indices. -/
def Pass.column (p : Pass) (n : Nat) : List FVal := (List.range p.tileK).map fun k => p.elem (n * 512 + k)

/-- An activation row of the pass. -/
def Pass.actRow (p : Pass) (r : Nat) : List FVal := (List.range p.tileK).map fun k => p.elem ((128 + r) * 512 + k)

/-- Where the cell store holds a row of the pass, as a word index: 0 its activations, 1 its initial accumulators, 2 its results. No
parameter gives the places: they are free values, one row after the other (log 43). -/
def Pass.place (p : Pass) (what row : Nat) : Nat :=
  (fieldAt [Config.freshByte p.data (2 ^ 40 + 2 * what), Config.freshByte p.data (2 ^ 40 + 2 * what + 1)] 0 2 + row) % 8192 * 64

/-- The words of the cell store that a row's entry reads: its activations, 256 bytes, and its initial accumulators, 512 (R74). -/
def Pass.reads (p : Pass) (row : Nat) : List (Nat × Nat) :=
  (p.place 0 row, 32) :: (if p.accIn then [(p.place 1 row, 64)] else [])

/-- FP32 patterns as words of the cell store, two to a word, and back. -/
def wordsOf (l : List Nat) : List Nat := (pieces 2 l).map fun p => p.headD 0 + p.getD 1 0 * 2 ^ 32
def floatsOf (l : List Nat) : List Nat := l.flatMap fun w => [w % 2 ^ 32, w / 2 ^ 32]

/-- The initial accumulators of a row, as the accumulator-in port reads them (R75). -/
def Cell.accRow (a : Cell) (p : Pass) (row : Nat) : List Nat :=
  if p.accIn then floatsOf ((span (p.place 1 row) 64).map fun i => look a.words i 0) else []

/-- The output row of an activation row (R75, R77): for each logical column the accumulation from its initial accumulator. -/
def Pass.outRow (p : Pass) (r : RowFlight) : List Nat :=
  let ones := (List.range (ceilDiv p.tileK 32)).map fun _ => 127
  (List.range p.tileN).map fun n =>
    (accumulate p.path (if p.accIn then f32 (r.acc.getD n 0) else .zero) (p.actRow r.row) (p.column n) ones ones).bits32

/-- The columns of the tile. -/
def Pass.columns (p : Pass) : List (List FVal) := (List.range p.tileN).map p.column

/-! ### Rows (R76, R79, R81, R83, R87) -/

/-- The physical column of a logical one: the j-th column that is not bypassed (R96). -/
def Device.physical (d : Device) (e c j : Nat) : Nat :=
  (((List.range 128).filter fun p => !(d.bypassed e c).getLsbD p)[j]?).getD 128

/-- The physical columns that a pass's tile is loaded into. -/
def Device.tileCols (d : Device) (e c : Nat) (p : Pass) : List Nat := (List.range p.tileN).map (d.physical e c)

/-- The tile is in place in a column that a swap token enters. -/
def Device.columnReady (d : Device) (e c : Nat) (a : Cell) (col : Nat) (p : Pass) : Bool :=
  !(d.tileCols e c p).contains col || look a.shadow col 0 = p.id

/-- One row entered before another: in an earlier pass, or earlier in its pass. -/
def RowFlight.before (r q : RowFlight) : Bool := r.pass < q.pass || (r.pass = q.pass && r.row < q.row)

/-- A row put in the drain buffer, which holds its rows in the order in which they entered (R78). -/
def drainInsert (r : RowFlight) : List RowFlight → List RowFlight
  | [] => [r]
  | q :: l => if r.before q then r :: q :: l else q :: drainInsert r l

/-- A row of a pass has entered the guard column: G from the residues active there, the drain's sum, and what the columns' own
checks found (R100, R101). -/
def RowFlight.checked (r : RowFlight) (p : Pass) (g : List Nat) : RowFlight :=
  { r with want := guardSum (p.actRow r.row) g, sum := drainSum (p.actRow r.row) p.columns,
           fault := columnFault p.path (p.actRow r.row) p.columns }

/-- The guard column's shadow takes the oldest staged residues when they are whole and R82 permits the write (R85). -/
def Cell.fillGuard (a : Cell) : Cell :=
  match a.staging with
  | (p, g) :: rest =>
    let whole := match a.passOf p with | some q => p < a.loading.1 || (p = a.loading.1 && q.tileN ≤ a.loading.2) | none => false
    if whole && a.guardShadow.1 = 0 && !a.earlier a.guardActive.1 p then { a with staging := rest, guardShadow := (p, g) } else a
  | [] => a

/-- One cycle of the array without a freeze (R76, R77, R81): every row in flight moves one column on, a row past the guard
column after its column latency stands in the drain buffer, and the next row of the current pass enters column 0 with,
as the first of its pass, the swap token. The token exchanges the registers of each data column and of the guard column
that it enters. -/
def Cell.cycle (a : Cell) : Cell :=
  let moved := a.flight.map fun r => { r with col := r.col + 1 }
  let done (r : RowFlight) : Bool :=
    match a.passOf r.pass with
    | some p => r.col ≥ 128 + (5 + 4 * p.rate)
    | none => true
  let swaps := moved.filter fun r => r.row = 0 && r.col < 128
  let active := swaps.foldl (fun m r => put m r.col r.pass 0) a.active
  let shadow := swaps.foldl (fun m r => if look m r.col 0 = r.pass then put m r.col 0 0 else m) a.shadow
  let token := moved.find? fun r => r.row = 0 && r.col = 128
  let guard := match token with
    | some r => if a.guardShadow.1 = r.pass then a.guardShadow else (r.pass, [])
    | none => a.guardActive
  let seen := moved.map fun r =>
    if r.col = 128 then (match a.passOf r.pass with | some p => r.checked p guard.2 | none => r) else r
  let base := { a with
    flight := seen.filter fun r => !done r, drain := (seen.filter done).foldl (fun l r => drainInsert r l) a.drain,
    active := active, shadow := shadow, guardActive := guard,
    guardShadow := if token.isSome then (0, []) else a.guardShadow, segCycles := a.segCycles + 1 }
  match a.due with
  | none => base.fillGuard
  | some p =>
    let i := a.rowsIn p
    let newSeg := i = 0 || base.segRows ≥ 512 || base.segCycles ≥ 512
    Cell.fillGuard { base with
      flight := base.flight ++ [{ pass := p.id, row := i, col := 0, acc := a.accRow p i }], entered := i + 1,
      active := if i = 0 then put base.active 0 p.id 0 else base.active,
      shadow := if i = 0 ∧ look base.shadow 0 0 = p.id then put base.shadow 0 0 0 else base.shadow,
      segRows := if newSeg then 1 else base.segRows + 1, segCycles := if newSeg then 0 else base.segCycles }

/-- The shadow cause of R87: a swap token would enter a column whose tile is not there (R83). -/
def Device.shadowHeld (d : Device) (e c : Nat) (a : Cell) : Bool :=
  (a.flight.any fun r => r.row = 0 && r.col < 127 &&
    match a.passOf r.pass with | some p => !d.columnReady e c a (r.col + 1) p | none => false) ||
  match a.due with
  | some p => a.rowsIn p = 0 && !d.columnReady e c a 0 p
  | none => false

/-- Words are written into the cell store, which makes their check bits fit again. An armed flip acts on the first of them; the
damage is found when the word is read (R104, R361). -/
def Upd.storeWrite (e c start : Nat) (ws : List Nat) : Upd :=
  .inject (celPage e c) 0 fun ce => .inject (celPage e c) 1 fun ue => .cell e c fun a => { a with
    words := ((span start ws.length).zip ws).foldl (fun m p => put m p.1 p.2 0) a.words,
    damage := (if ue then [(start, .uncorrectable)] else if ce then [(start, .corrected)] else []) ++
      a.damage.filter fun w => !(start ≤ w.1 && w.1 < start + ws.length) }

/-- The damaged words among some words of the cell store. -/
def Cell.hurt (a : Cell) (l : List (Nat × Nat)) : List (Nat × LineErr) :=
  a.damage.filter fun w => l.any fun r => r.1 ≤ w.1 && w.1 < r.1 + r.2

/-- Words of the cell store are read: damaged ones are corrected and written back, or stop the reader (R104). -/
def Upd.storeRead (e c : Nat) (l : List (Nat × Nat)) (u : Upd) : Upd :=
  .read fun d =>
    let hurt := (d.cell e c).hurt l
    match hurt.find? (·.2 = .uncorrectable) with
    | some w => .storeUe e c w.1 (d.cellRec 0x0105 e c)
    | none => .all [.each hurt fun w => .storeFixed e c w.1, u]

/-- ARRAY_ROW_ENTER (R76): one core cycle of a running array in which no cause of freeze holds: rows advance, and the next
row of the pass enters column 0, read from the cell store (R104). ARR.BUSY counts the cycle when a row is in the array
(R89). -/
def execArrayRowEnter (e c : Nat) (s : State) : Host.Outcome State Fault Refusal :=
  s.act (.arrayRowEnter e c) (.read fun d =>
    let a := d.cell e c
    .when (d.arrayOn e c && a.arr = .running && a.working && !d.shadowHeld e c a && !a.drainFull)
      (let cycle := Upd.all [
        .cell e c fun a => Cell.prune { a.cycle with frozen := (false, false, false, false) },
        .count (arrPage e c + 0x60), .cellEvent e c 0x00 1]
      match a.due with
      | some p => .storeRead e c (p.reads (a.rowsIn p)) cycle
      | none => cycle))

/-- The next row of the drain needs a staging buffer of the epilogue while both hold tiles (R123): it is of a last pass, and of
neither tile. -/
def Cell.wantsBuffer (a : Cell) : Bool :=
  a.buffers.length ≥ 2 && match a.drain.head?.bind fun r => a.passOf r.pass with
    | some p => p.final && !a.buffers.any (·.pass = p.id)
    | none => false

/-- ARRAY_FREEZE (R87, R89): the array freezes for one core cycle. The shadow cause holds when the array's own state shows it
(R83), the drain cause when 16 rows stand in the drain buffer, or when the drain needs a staging buffer of the epilogue and both
are in use (R123). The caller gives what lies outside the array: act, that a row due at column 0 is not yet in the cell store; drn,
that the vector unit has finished with neither buffer, which VEC.STAGE_FULL counts; shd, that a shadow register waits for the expander
to get a table, which cell event 0x1C counts (R332). shd states no cause of its own (log 122). -/
def execArrayFreeze (e c : Nat) (act shd drn : Bool) (s : State) : Host.Outcome State Fault Refusal :=
  s.act (.arrayFreeze e c act shd drn) (.read fun d =>
    let a := d.cell e c
    let act := act && a.due.isSome
    let shadow := d.shadowHeld e c a
    let waits := drn && a.wantsBuffer
    let drain := waits || a.drainFull
    let which := if drain then (0x90, 0x06) else if shadow then (0x88, 0x05) else (0x80, 0x04)
    .when (d.arrayOn e c && a.arr = .running && a.working && (act || shadow || drain)) (.all [
      .cell e c fun a => Cell.prune { a with frozen := (true, act, shadow, drain), segCycles := a.segCycles + 1 },
      .count (arrPage e c + 0x78), .cellEvent e c 0x03 1,
      .count (arrPage e c + which.1), .cellEvent e c which.2 1,
      .when (shd && shadow) (.cellEvent e c 0x1C 1),
      .when waits (.count (vecPage e c + 0x78))]))

/-! ### Shadow loads (R82, R84, R85, R99) -/

/-- The shadow register of a column may be written with the tile of pass p: the swap token of the pass before it has
entered the column (R82), and the register holds no tile still to be used. -/
def Cell.writable (a : Cell) (p : Pass) (col : Nat) : Bool := !a.earlier (look a.active col 0) p.id && look a.shadow col 0 = 0

/-- The pass whose tile is loaded next and its first column not yet written (R84). -/
def Cell.loads (a : Cell) : Option (Pass × Nat) :=
  let later := (a.passes.find? fun q => a.loading.1 < q.id && !q.cut).map fun q => (q, 0)
  match a.passOf a.loading.1 with
  | some p => if a.loading.2 < p.tileN then some (p, a.loading.2) else later
  | none => later

/-- Residues of a tile with some more columns added, K index by K index (R99). -/
def addResidues (g : List Nat) (cols : List (List FVal)) (len : Nat) : List Nat :=
  (List.range len).map fun k => residue ((g.getD k 0 : Int) + (cols.map fun c => (c.getD k .zero).sig).sum)

/-- The staging entry of a pass with the residues of the columns j to j+n-1 added (R85, R99). -/
def Cell.stage (a : Cell) (p : Pass) (j n : Nat) : List (Nat × List Nat) :=
  let cols := (span j n).map p.column
  if a.staging.any (·.1 = p.id) then
    a.staging.map fun q => if q.1 = p.id then (q.1, addResidues q.2 cols p.tileK) else q
  else a.staging ++ [(p.id, addResidues [] cols p.tileK)]

/-- SHADOW_LOAD (R84): the next pair of columns of the next tile is written, when R82 permits both and the tile before it
is wholly written; with both staging entries of the guard column full the load waits (R85). The residues of the columns
are formed with them (R99). A block that failed to decode withholds the tile instead: its shadow contents are discarded
(R197). -/
def execShadowLoad (e c : Nat) (ok : Bool) (s : State) : Host.Outcome State Fault Refusal :=
  s.act (.shadowLoad e c ok) (.read fun d =>
    let a := d.cell e c
    match a.loads with
    | none => .skip
    | some (p, j) =>
      if !d.arrayOn e c then .skip
      else if !ok then
        .cell e c fun a => { a with
          loading := (p.id, 0), shadow := a.shadow.filter (·.2 ≠ p.id), staging := a.staging.filter (·.1 ≠ p.id) }
      else
        let cols := (span j (min 2 (p.tileN - j))).map (d.physical e c)
        .when ((a.staging.length < 2 || a.staging.any (·.1 = p.id)) && cols.all (a.writable p)) (.cell e c fun a => Cell.fillGuard { a with
          shadow := cols.foldl (fun m q => put m q p.id 0) a.shadow,
          loading := (p.id, j + cols.length),
          staging := a.stage p j cols.length }))

/-! ### Commitment (R78, R100 to R102) -/

/-- A guard fault (R102): recorded, and the engine is reset. -/
def Upd.guardFault (e c row stage col expected observed : Nat) (injected : Bool) : Upd :=
  .read fun d =>
    let page := arrPage e c
    let r := d.cellRec (if stage = 0 then 0x0101 else 0x0102) e c
    .all [
      .when (fieldOf (d.reg (page + 0x0C)) 1 0 = 0) (.all [.setReg (page + 0x58) (BitVec.ofNat 32 row),
        .setReg (page + 0x5C) (BitVec.ofNat 32 (expected + observed * 2 ^ 8 + stage * 2 ^ 16 + col * 2 ^ 20))]),
      .resetError page (if stage = 0 then 0 else 1) { r with detail := detailG row stage expected observed col } e true injected]

/-- The oldest row of the drain buffer is written: a completed pass leaves, and with no pass left the array enters
IDLE_HOLD (R78, R91). -/
def Cell.commit (a : Cell) (r : RowFlight) (rest : List RowFlight) : Cell × Bool :=
  let lastRow := match a.passOf r.pass with | some p => r.row + 1 = p.rows | none => false
  let passes := if lastRow then a.passes.filter (·.id ≠ r.pass) else a.passes
  (Cell.prune { a with drain := rest, passes := passes, arr := if passes.isEmpty ∧ a.arr = .running then .idleHold else a.arr }, lastRow)

/-- The first group-sum residue that physical column 0 predicts for a row; none where that column is bypassed, or has no
group without a special operand (R94, R101). -/
def Device.firstGroup (d : Device) (e c : Nat) (a : Cell) (r : RowFlight) : Option Nat :=
  if (d.bypassed e c).getLsbD 0 then none
  else match a.passOf r.pass with
    | none => none
    | some p => (pieces 32 ((p.actRow r.row).zip (p.column 0))).findSome? (groupResidue p.path)

/-- The check of a row before its commitment (R100 to R102): its columns' own checks, in which an armed injection adds 1 to the
first group-sum residue that column 0 predicts; then the drain's sum, to which an armed injection adds 1, against G. A
row that the first finds wrong is not checked by the second. -/
def Upd.rowCheck (e c : Nat) (r : RowFlight) (u : Upd) : Upd :=
  .read fun d =>
    let page := arrPage e c
    let sums : Upd := .inject page 0 fun inj =>
      let seen := if inj then (r.sum + 1) % 255 else r.sum
      if seen ≠ r.want then .guardFault e c r.row 0 0 r.want seen inj else u
    match r.fault with
    | some (stage, col, x, y) => .guardFault e c r.row stage (d.physical e c col) x y false
    | none =>
      if d.isArmed page 1 then
        match d.firstGroup e c (d.cell e c) r with
        | some x => .inject page 1 fun _ => .guardFault e c r.row 2 0 ((x + 1) % 255) x true
        | none => sums
      else sums

/-- The staging buffers that the vector unit has finished with are free again: the oldest, as far as their tiles are whole (R123). -/
def Cell.freeBuffers (a : Cell) : Nat → Cell
  | 0 => a
  | n + 1 =>
    match a.buffers with
    | b :: rest => if (a.passOf b.pass).isSome then a else Cell.freeBuffers { a with buffers := rest } n
    | [] => a

/-- A row of a last pass is put in the staging buffer of its output tile, the first in one that was free (R123). -/
def Cell.toBuffer (a : Cell) (r : RowFlight) (row : List Nat) : Cell :=
  { a with buffers :=
    if a.buffers.any (·.pass = r.pass) then
      a.buffers.map fun b => if b.pass = r.pass then { b with rows := put b.rows r.row row [] } else b
    else a.buffers ++ [⟨r.pass, put [] r.row row []⟩] }

/-- The array stands in a frozen cycle in which no row is checked or written (R87). A cycle frozen for the drain cause is none: it is
the writing of rows that ends that cause (log 123). -/
def Cell.stands (a : Cell) : Bool := a.working && a.frozen.1 && !a.frozen.2.2.2

/-- Every row still in flight entered after the given one. -/
def Cell.oldest (a : Cell) (r : RowFlight) : Bool := a.flight.all fun q => r.before q

/-- ROW_COMMIT (R78): the oldest output row in the drain buffer is checked by the guard column and written: as partial accumulators into
the cell store, or, in a last pass, into a staging buffer of the epilogue. Rows are committed in the order in which they entered. A
row that the check finds wrong is not committed (R102), nor is one in a frozen cycle (R87), nor one whose tile finds neither
staging buffer free (R123). freed is how many of the buffers the vector unit has finished with since. -/
def execRowCommit (e c : Nat) (s : State) (freed : Nat := 0) : Host.Outcome State Fault Refusal :=
  s.act (.rowCommit e c freed) (.all [.cell e c fun a => a.freeBuffers freed, .read fun d =>
    let a := d.cell e c
    match a.drain with
    | [] => .skip
    | r :: rest =>
      if !d.arrayOn e c || !a.oldest r || a.stands || a.wantsBuffer then .skip
      else .rowCheck e c r (
        .all [
          match a.passOf r.pass with
          | some p => if p.final then .cell e c fun x => x.toBuffer r (p.outRow r) else .storeWrite e c (p.place 2 r.row) (wordsOf (p.outRow r))
          | none => .skip,
          .cell e c fun a => (a.commit r rest).1,
          .count (arrPage e c + 0x68), .cellEvent e c 0x01 1,
          .when (a.commit r rest).2 (.all [.count (arrPage e c + 0x70), .cellEvent e c 0x02 1])])])

/-! ### The second decode (R197) -/

/-- What the second decode of a block finds: the block, an uncorrectable line, or that it fails again; a tensor that its slot no
longer holds fails. -/
def Device.decodesNow (d : Device) (adapter : Bool) (target slot tensor block : Nat) : List Byte ⊕ WGot :=
  let x := if adapter then d.adapterSlot target else d.epoch target slot
  match x.tensors.find? fun t => t.role * 2 ^ 32 + t.id = tensor with
  | none => .inr (.bad block)
  | some t => d.weightBlock x.keySlot t block

/-- REDECODE (R197): the block that the engine's running command waits for is fetched and decoded a second time. Success shows a
hardware fault: the engine is reset. Failure ends the command with EXPAND_LEN, and the epoch or adapter becomes DEGRADED. An
uncorrectable line met now ends the command with MEM_UE and changes no state of the epoch (R182). The refetched block fails when
the caller says so or when what memory holds does not decode. -/
def execRedecode (e c : Nat) (ok : Bool) (s : State) : Host.Outcome State Fault Refusal :=
  s.act (.redecode e c ok) (.read fun d =>
    match (d.eng e).redecode, d.env e with
    | some (cell, adapter, target, slot, tensor, block), some v =>
      if cell ≠ c || !d.up || !d.unheld then .skip
      else
        let x := if adapter then d.adapterSlot target else d.epoch target slot
        let index := ((x.tensors.zip (List.range 4096)).find? (fun p => p.1.role * 2 ^ 32 + p.1.id = tensor)).map (·.2) |>.getD 0
        let detail := detailE block target slot (tensor % 2 ^ 32) adapter
        let clear := Upd.eng e fun g => { g with redecode := none }
        let fails : Upd := .all [
          .setReg (expPage e c + 0x44) (BitVec.ofNat 32
            (2 ^ 31 + slot * 2 ^ 30 + index % 4096 * 2 ^ 18 + (if adapter then 2 ^ 17 else 0) + target % 4096)),
          .setReg (expPage e c + 0x48) (BitVec.ofNat 32 block),
          .degrade adapter target slot,
          .decide e v.s .expandLen (some { (engRec 0x010C e (some c)).ofCmd v.ctx v.s v.cmd.desc with detail := detail })]
        .all [clear,
          match d.decodesNow adapter target slot tensor block with
          | .inr (.ue pa) => .all [.touch (pa / 64 * 64) 64,
              .decide e v.s .memUe (some { v.record 0x020B (detailA pa) with addr := some (2, pa), stream := 1, injected := true })]
          | .inl _ => if ok then
              .resetError (expPage e c) 1 { (engRec 0x010A e (some c)).ofCmd v.ctx v.s v.cmd.desc with detail := detail } e
            else fails
          | .inr _ => fails]
    | _, _ => .skip)

end Sys2Proof.Machine
end

