-- ==== Sys2Proof/Machine/Fused.lean ====
section
/-! DEFINITION. FUSED: stage tables, relays and their credits, and chains over several engines (08_commands.md R273 to
R276). A tile carries out one segment of a pass of a matrix stage on a batch of rows, or one batch of another stage (R231, log 44). -/

namespace Sys2Proof.Machine

/-! ### Stages -/

/-- An operand of a stage: its address field, the bytes between its rows, and the bytes of a row. -/
structure StageOperand where
  addr : Nat
  stride : Nat
  len : Nat

/-- The relay that an address names, if any (R274). -/
def relayOf (addr : Nat) : Option Nat := if bits addr 63 1 = 1 then some (addr % 8) else none

def StageOperand.relay (o : StageOperand) : Option Nat := relayOf o.addr

/-- The range of a row of an operand in memory. -/
def StageOperand.rng (o : StageOperand) (stream : Nat) (write : Bool) (r : Nat) : Rng := ⟨o.addr + r * o.stride, o.len, stream, write⟩

/-- What a stage does to a batch of rows: the rows of each output, the bytes of its other written ranges in order, and
what else changes. -/
structure StageOut where
  outs : List (List RowOut)
  writes : List (List Byte) := []
  extra : Upd := .skip

/-- A stage of a fused command: its rows, the most rows of a batch, its operands, the other ranges that a tile touches (`mid`
before the output rows in the order of R232, `aux` after them), and its arithmetic, from the rows of each input operand and the
bytes of the other ranges read. A batch takes `steps` tiles, of which this is number `step`. Where `each` is set every one of them
does its own work: for a matrix stage one segment of a pass (R79, R231). Else the steps before the last are the preemption points
inside the rows of the batch (R261; log 25). `fail` ends a tile whose weights cannot be read. -/
structure Stage where
  rows : Nat
  batch : Nat
  steps : Nat := 1
  step : Nat := 0
  each : Bool := false
  ins : List StageOperand
  outs : List StageOperand
  mid : List Rng := []
  aux : List Nat → List Rng := fun _ => []
  fail : Option TileRes := none
  eval : List Nat → List (List (List Byte)) → List (List Byte) → StageOut

/-- The batch is done with this tile. -/
def Stage.last (s : Stage) : Bool := s.steps ≤ s.step + 1

/-- The opcodes of stages (R274). -/
def stageOps : List Nat := [opMatmul, opNorm, opSoftmax, opRope, opMicroprog, opCopy]

/-- The row addresses of a stage descriptor: those of its inputs and those of its outputs. -/
def rowAddrs (x : List Byte) : List Nat × List Nat :=
  let op := fieldAt x 0 1
  let f (l : List Nat) : List Nat := l.map fun o => fieldAt x o 8
  if op = opMatmul then (f [32], f [56])
  else if op = opMicroprog then (f ((span 0 (microUse x).1).map (32 + 8 * ·)), f ((span 0 (microUse x).2).map (56 + 8 * ·)))
  else (f [32], f [40])

/-- The relays that a stage reads, and those that it writes. -/
def stageReads (x : List Byte) : List Nat := (rowAddrs x).1.filterMap relayOf
def stageWrites (x : List Byte) : List Nat := (rowAddrs x).2.filterMap relayOf

/-- The rows of a stage that its own fields give. -/
def ownRows (x : List Byte) : Option Nat :=
  let op := fieldAt x 0 1
  if op = opMatmul then some (fieldAt x 80 4)
  else if op = opNorm ∨ op = opSoftmax then some (fieldAt x 68 4)
  else if op = opRope then some (fieldAt x 72 8)
  else none

/-- The bytes that a MICROPROG or COPY stage moves through one operand. -/
def flatBytes (x : List Byte) (output : Bool) : Nat :=
  if fieldAt x 0 1 = opCopy then fieldAt x 48 8
  else codeBytes (fieldAt x (if output then 86 else 85) 1) (fieldAt x 72 8)

/-- The rows of stage i: its own; else those of the stage that writes a relay it reads; else those of x_row_bytes for the
relay from another engine; else those of the stage that reads a relay it writes; else one (log 44). n bounds the walk. -/
def stageRowsOf (desc : List Byte) (st : List (List Byte)) (n i : Nat) : Nat :=
  match n with
  | 0 => 1
  | n + 1 =>
    let x := st.getD i []
    match ownRows x with
    | some r => r
    | none =>
      match (stageReads x).head? with
      | some 4 => flatBytes x false / max 1 (fieldAt desc 60 4)
      | some k =>
        match (List.range i).find? fun j => (stageWrites (st.getD j [])).contains k with
        | some j => stageRowsOf desc st n j
        | none => 1
      | none =>
        match (stageWrites x).head? with
        | some 5 => 1
        | some k =>
          match ((List.range st.length).filter (i < ·)).find? fun j => (stageReads (st.getD j [])).contains k with
          | some j => (ownRows (st.getD j [])).getD 1
          | none => 1
        | none => 1

/-- The bytes of a row of each operand of a stage: inputs, then outputs; an operand of a relay holds MX scales after the
elements of its row. -/
def rowLens (desc : List Byte) (st : List (List Byte)) (i : Nat) : List Nat × List Nat :=
  let x := st.getD i []
  let f := fieldAt x
  let op := f 0 1
  let rows := max 1 (stageRowsOf desc st 9 i)
  let use := rowAddrs x
  if op = opMatmul then ([codeBytes (f 108 1) (f 88 4)], [codeBytes (f 110 1) (f 84 4)])
  else if op = opNorm ∨ op = opSoftmax then ([codeBytes (f 92 1) (f 64 4)], [codeBytes (f 93 1) (f 64 4)])
  else if op = opRope then ([codeBytes (f 85 1) (f 80 2 * f 82 2)], [codeBytes (f 86 1) (f 80 2 * f 82 2)])
  else if op = opCopy then ([flatBytes x false / rows], [flatBytes x true / rows])
  else (use.1.map fun _ => codeBytes (f 85 1) (f 72 8 / rows), use.2.map fun _ => codeBytes (f 86 1) (f 72 8 / rows))

/-! ### Checks of the stage table (R274) -/

/-- The bytes of a row that a relay holds: those of its writer, or x_row_bytes for the relay from another engine. -/
def relayRow (desc : List Byte) (st : List (List Byte)) (k : Nat) : Option Nat :=
  if k = 4 then some (fieldAt desc 60 4) else
  (List.range st.length).findSome? fun i =>
    (((rowAddrs (st.getD i [])).2.zip (rowLens desc st i).2).find? fun p => relayOf p.1 = some k).map (·.2)

/-- The slots of a local relay or of the relay from another engine (R273). -/
def relaySlots (desc : List Byte) (k : Nat) : Nat := if k = 4 then fieldAt desc 56 2 else fieldAt desc (48 + 2 * k) 2

/-- The stage table breaks R274. DESIGN CHOICE (log 156): a relay that is used has at least one slot. -/
def badStages (desc : List Byte) (st : List (List Byte)) : Bool :=
  let chain := bits (fieldAt desc 41 1) 0 2
  let idx := List.range st.length
  let readers (k : Nat) : List Nat := idx.flatMap fun i => ((stageReads (st.getD i [])).filter (· = k)).map fun _ => i
  let writers (k : Nat) : List Nat := idx.flatMap fun i => ((stageWrites (st.getD i [])).filter (· = k)).map fun _ => i
  let used := (st.flatMap fun x => stageReads x ++ stageWrites x).eraseDups
  let wrongRelay (k : Nat) : Bool :=
    match readers k, writers k with
    | [r], [w] => !(k < 4 && w < r)
    | [_], [] => !(k = 4 && (chain = 2 || chain = 3))
    | [], [_] => !(k = 5 && (chain = 1 || chain = 2))
    | _, _ => true
  let small (k : Nat) : Bool :=
    k ≤ 4 && (readers k).any fun i =>
      fieldAt (st.getD i []) 0 1 = opMatmul && relaySlots desc k < min 512 (fieldAt (st.getD i []) 80 4)
  let size (k : Nat) : Nat := if k = 5 then 0 else relaySlots desc k * (relayRow desc st k).getD 0
  let rowsAgree (k : Nat) : Bool :=
    match readers k, writers k with
    | [r], [w] => stageRowsOf desc st 9 r = stageRowsOf desc st 9 w &&
        (((rowAddrs (st.getD r [])).1.zip (rowLens desc st r).1).all fun p => relayOf p.1 ≠ some k || some p.2 = relayRow desc st k)
    | [r], [] => ((rowAddrs (st.getD r [])).1.zip (rowLens desc st r).1).all fun p => relayOf p.1 ≠ some k || some p.2 = relayRow desc st k
    | _, _ => true
  let whole (i : Nat) : Bool :=
    let x := st.getD i []
    let r := stageRowsOf desc st 9 i
    (ownRows x).isSome || (r ≠ 0 && (if fieldAt x 0 1 = opCopy then fieldAt x 48 8 % r = 0 else fieldAt x 72 8 % r = 0))
  st.any (fun x => !stageOps.contains (fieldAt x 0 1) || dirty x 1 31) || used.any (fun k => k > 5 || wrongRelay k || small k) ||
    used.any (fun k => k ≤ 4 && relaySlots desc k = 0) || (used.map size).sum > 2 ^ 23 || !(used.all rowsAgree) || !(idx.all whole) ||
    ((chain = 2 || chain = 3) && !used.contains 4) || ((chain = 1 || chain = 2) && !used.contains 5)

/-- The checks of a stage's own fields. A COPY through a relay has no memory range to overlap (R250). -/
def Device.checkStage (d : Device) (e ctx : Nat) (x : List Byte) : Checks :=
  if fieldAt x 0 1 = opCopy ∧ (stageReads x ++ stageWrites x) ≠ [] then
    { format := [outside (fieldAt x 48 8) 1 (2 ^ 40), dirty x 56 72] }
  else d.checkOp e ctx x

/-! ### What each stage computes -/

/-- Where a tile of a matrix stage stands: its slice of N, and its pass of the slice. -/
def Mat.stagePos (p : Mat) (step : Nat) : (Nat × Nat) × (Nat × Nat × Nat) × Bool :=
  let q := max 1 p.passes.length
  (p.slices.getD (step / q) (0, 1), p.passes.getD (step % q) (0, 0, 0), step % q + 1 = q)

/-- The K indices of its rows that a tile reads: those of its pass, or all of them where an adapter needs the whole row (R203). -/
def Mat.stageK (p : Mat) (step : Nat) : Nat × Nat :=
  let (_, (_, k0, len), final) := p.stagePos step
  if final && p.adapter.isSome then (0, p.k) else (k0, len)

/-- Row i of a batch over the K indices that its tile reads: from the bytes of its ranges, or from the relay's whole row. -/
def matRow (p : Mat) (relay : Bool) (step : Nat) (ins : List (List (List Byte))) (i : Nat) : List FVal × List Nat :=
  let row := (ins.getD 0 []).getD i []
  let (ka, lenA) := p.stageK step
  if relay then
    let all := actRow p.aFmt (row.take (elemBytes p.aFmt p.k)) (if p.aFmt.isMx then row.drop (elemBytes p.aFmt p.k) else []) p.k
    ((all.1.drop ka).take lenA, (all.2.drop (ka / 32)).take (ceilDiv lenA 32))
  else actRow p.aFmt row (if p.aFmt.isMx then (ins.getD 1 []).getD i [] else []) lenA

/-- A MATMUL stage: each partition accumulated in ascending K order and combined as a MATMUL does (R60 to R62, R121, R203), slice
by slice and pass by pass. The finished values of a row are kept until its last slice is done. -/
def Device.stageMatmul (d : Device) (v : Env) (p : Mat) (k : Nat) : Stage :=
  let relay := (relayOf (p.fld 32 8)).isSome
  let ((c0, w), (part, k0, len), final) := p.stagePos k
  let (ka, lenA) := p.stageK k
  let cols := span c0 w
  let setCols := d.matColumns p cols k0 len []
  let ad := if final then d.adapterWeights p cols else none
  let fail : Option TileRes :=
    match setCols with
    | .inr x => some (d.badWeights v p x)
    | .inl _ => d.badAdapter v p ad
  let withAcc : Bool := p.fld 64 8 ≠ 0 && part = 0 && k0 = 0
  { rows := p.m, batch := 512, steps := p.slices.length * p.passes.length, step := k, each := true,
    ins := ⟨p.fld 32 8 + (if relay then 0 else ka * p.aFmt.width / 8), p.fld 96 4,
        if relay then codeBytes (p.fld 108 1) p.k else elemBytes p.aFmt lenA⟩ ::
      (if p.aFmt.isMx && !relay then [⟨p.fld 40 8 + ka / 32, roundUp (ceilDiv p.k 32) 64, ceilDiv lenA 32⟩] else []),
    outs := [⟨p.fld 56 8, p.fld 100 4, codeBytes (p.fld 110 1) p.n⟩],
    mid := p.weightRanges cols k0 len,
    aux := fun rows =>
      (if withAcc then rows.map fun r => ⟨p.fld 64 8 + (r * p.n + c0) * 4, 4 * w, 2, false⟩ else []) ++
      (if final then p.epiRanges c0 w (rows.headD 0) rows.length else []),
    fail := fail,
    eval := fun rows ins aux =>
      let nw := match p.src with | .memory _ => w | _ => 0
      let wc := match p.src, setCols with
        | .memory f, _ => (aux.take nw).map fun b => (decodeRow f b len [], (List.range (ceilDiv len 32)).map fun _ => 127)
        | _, .inl l => l
        | _, .inr _ => []
      let nc := if withAcc then rows.length else 0
      let accs := (aux.drop nw).take nc
      let epi := aux.drop (nw + nc)
      let biasB := if p.bias = 0 then [] else epi.headD []
      let scaleB := if p.bias = 0 then epi.headD [] else epi.getD 1 []
      let idx := List.range rows.length
      let sum (i : Nat) : List Nat :=
        let all := matRow p relay k ins i
        let row := ((all.1.drop (k0 - ka)).take len, (all.2.drop ((k0 - ka) / 32)).take (ceilDiv len 32))
        let prev := look v.cmd.accs (part * 2048 + i) []
        (wc.zip (List.range w)).map fun c =>
          let start := if withAcc then f32 (fieldAt (accs.getD i []) (4 * c.2) 4) else f32 (prev.getD c.2 0)
          (accumulate p.path start row.1 c.1.1 row.2 c.1.2).bits32
      let saved := idx.foldl (fun m i => put m (part * 2048 + i) (sum i) []) v.cmd.accs
      let finished (i : Nat) : List Nat :=
        let adds := p.adapterAdds ad (matRow p relay k ins i)
        look v.cmd.accs (64 * 2048 + i) [] ++ (List.range w).map fun j =>
          let x := combine p.shape ((List.range p.parts).map fun q => f32 ((look saved (q * 2048 + i) []).getD j 0))
          let x := match adds[j]? with | some y => fadd x y | none => x
          let ops := p.epiOperands biasB scaleB i j
          (d.epilogue (p.fld 112 1) ops.1 ops.2 x).bits32
      let done := p.slices.length * p.passes.length ≤ k + 1
      let kept := if !final then saved else idx.foldl (fun m i =>
        put ((List.range p.parts).foldl (fun m q => put m (q * 2048 + i) [] []) m) (64 * 2048 + i) (if done then [] else finished i) []) saved
      let one (i : Nat) : RowOut :=
        let b := encodeRow p.outFmt ((finished i).map f32) (rowRand p.stochastic (p.fld 116 8) (((rows.headD 0) + i) * p.n) p.n)
        { bytes := b.1, narrow := b.2 }
      { outs := [if done then idx.map one else []],
        extra := .all [.cur v.e v.s fun c => { c with accs := kept },
          (match p.src with
            | .tensor _ _ key t => .all [.expanded v.e key t cols (t.tilesOf k0 len), .when (final && p.adapter.isSome) (.adapterLoad v.e p cols)]
            | _ => .skip),
          .when (final && p.fld 112 1 ≠ 0) (.countFn v.e v.s (p.fld 112 1) (rows.length * w)),
          .when final (.epiRows v.e rows.length)] } }

/-- Rows of a stage between two preemption points, by the elements that 512 core cycles take, and the points inside a longer row
(R261; log 25). -/
def rowsWithin (unit n : Nat) : Nat := max 1 (min 64 (unit / max 1 n))
def pointsWithin (unit n : Nat) : Nat := max 1 (ceilDiv n unit)

/-- A NORM stage (R125, R126). -/
def Device.stageNorm (d : Device) (v : Env) (x : List Byte) : Stage :=
  let f := fieldAt x
  let n := f 64 4
  let rms := f 94 1 = 1
  let bf16 := bits (f 95 1) 1 1 = 1
  let vec (off : Nat) : Rng := ⟨f off 8, codeBytes (if bf16 then 0 else 4) n, 2, false⟩
  { rows := f 68 4, batch := rowsWithin rowPiece n, steps := pointsWithin rowPiece n,
    ins := [⟨f 32 8, f 72 4, codeBytes (f 92 1) n⟩], outs := [⟨f 40 8, f 76 4, codeBytes (f 93 1) n⟩],
    aux := fun _ => vec 48 :: (if rms then [] else [vec 56]),
    eval := fun rows ins aux =>
      let gamma := vector bf16 (aux.getD 0 []) n
      let beta := vector bf16 (aux.getD 1 []) n
      let ys := ((ins.getD 0 []).zip rows).map fun p => (p.2, d.normRow rms (f32 (f 80 4)) gamma beta (rowValues (f 92 1) p.1 n))
      { outs := [ys.map fun y =>
          let b := outRow (f 93 1) (bits (f 95 1) 0 1 = 1) (f 96 8) y.1 y.2.1
          { bytes := b.1, status := y.2.2.1, narrow := b.2 }],
        extra := .all [.countFn v.e v.s 2 rows.length, .each ys fun y => .rowStats v.e y.2.2.2] } }

/-- A SOFTMAX stage (R127, R128). -/
def Device.stageSoftmax (d : Device) (v : Env) (x : List Byte) : Stage :=
  let f := fieldAt x
  let n := f 64 4
  let stats := f 48 8 ≠ 0
  { rows := f 68 4, batch := rowsWithin rowPiece n, steps := pointsWithin rowPiece n,
    ins := [⟨f 32 8, f 72 4, codeBytes (f 92 1) n⟩], outs := [⟨f 40 8, f 76 4, codeBytes (f 93 1) n⟩],
    aux := fun rows => if stats then rows.map fun r => ⟨f 48 8 + 8 * r, 8, 3, true⟩ else [],
    eval := fun rows ins _ =>
      let ys := ((ins.getD 0 []).zip rows).map fun p => (p.2, d.softmaxRow (f32 (f 80 4)) (rowValues (f 92 1) p.1 n))
      let outs := ys.map fun (r, y) =>
        let b := outRow (f 93 1) (bits (f 95 1) 0 1 = 1) (f 96 8) r y.1
        let st := if stats then toBytes 4 y.2.1.bits32 ++ toBytes 4 y.2.2.1.bits32 else []
        ({ bytes := b.1, stats := st, status := y.2.2.2.1, narrow := b.2 } : RowOut)
      { outs := [outs], writes := if stats then outs.map (·.stats) else [],
        extra := .all [.countRom v.e v.s (n * rows.length) 0, .countFn v.e v.s 1 rows.length,
          .each ys fun y => .rowStats v.e y.2.2.2.2.2] } }

/-- A ROPE stage (R120). -/
def Device.stageRope (d : Device) (v : Env) (x : List Byte) : Stage :=
  let f := fieldAt x
  let dim := f 82 2
  let n := f 80 2 * dim
  { rows := f 72 8, batch := rowsWithin (ropePiece * dim) n, steps := pointsWithin (ropePiece * dim) n,
    ins := [⟨f 32 8, codeBytes (f 85 1) n, codeBytes (f 85 1) n⟩], outs := [⟨f 40 8, codeBytes (f 86 1) n, codeBytes (f 86 1) n⟩],
    aux := fun rows => [⟨f 48 8 + 4 * rows.headD 0, 4 * rows.length, 2, false⟩, ⟨f 56 8, dim / 2 * 4, 2, false⟩],
    eval := fun rows ins aux =>
      let freqs := vector false (aux.getD 1 []) (dim / 2)
      { outs := [((ins.getD 0 []).zip (rows.zip (List.range rows.length))).map fun p =>
          let pos := fieldAt (aux.getD 0 []) (4 * p.2.2) 4
          let y := (pieces dim (rowValues (f 85 1) p.1 n)).flatMap (d.rotateHead (bits (f 87 1) 0 1 = 1) pos freqs)
          let b := outRow (f 86 1) (bits (f 87 1) 1 1 = 1) (f 88 8) p.2.1 y
          { bytes := b.1, narrow := b.2 }],
        extra := .countFn v.e v.s 12 (rows.length * n / 2) } }

/-- A MICROPROG stage, its elements cut into the rows of its relays (R112, R118). -/
def Device.stageMicro (d : Device) (v : Env) (x : List Byte) (rows : Nat) : Stage :=
  let f := fieldAt x
  let n := f 72 8 / max 1 rows
  let use := microUse x
  let lenIn := codeBytes (f 85 1) n
  let lenOut := codeBytes (f 86 1) n
  { rows := rows, batch := rowsWithin (d.microPiece (f 84 1)) n, steps := pointsWithin (d.microPiece (f 84 1)) n,
    ins := (List.range use.1).map fun i => ⟨f (32 + 8 * i) 8, lenIn, lenIn⟩,
    outs := (List.range use.2).map fun i => ⟨f (56 + 8 * i) 8, lenOut, lenOut⟩,
    eval := fun rs ins _ =>
      let res (i : Nat) : List (List FVal) :=
        let vs := ins.map fun l => rowValues (f 85 1) (l.getD i []) n
        (List.range n).map fun j => d.apply (f 84 1) (vs.map fun l => l.getD j .zero)
      let all := (List.range rs.length).map res
      { outs := (List.range use.2).map fun o => (all.zip rs).map fun p =>
          let b := outRow (f 86 1) (bits (f 87 1) 1 1 = 1) (f 88 8) p.2 (p.1.map fun r => r.getD o .nan)
          { bytes := b.1, narrow := b.2 },
        extra := .countFn v.e v.s (f 84 1) (n * rs.length) } }

/-- A COPY stage (R250): rows through relays, or, with memory at both ends, 4 KiB at a time (R261). -/
def stageCopy (v : Env) (x : List Byte) (rows i step : Nat) : Stage :=
  let n := fieldAt x 48 8 / max 1 rows
  let off := step * unitBytes
  let m := min unitBytes (n - off)
  if (stageReads x ++ stageWrites x).isEmpty then
    { rows := 1, batch := 1, steps := pointsWithin unitBytes n, step := step, each := true, ins := [], outs := [],
      aux := fun _ => [⟨fieldAt x 32 8 + off, m, 2, false⟩, ⟨fieldAt x 40 8 + off, m, 3, true⟩],
      eval := fun _ _ bs =>
        { outs := [], writes := [bs.headD []], extra := .all [.digest v (i * 2 ^ 60 + step) (bs.headD []), .moved v.e m m] } }
  else
    { rows := rows, batch := rowsWithin unitBytes n, steps := pointsWithin unitBytes n, step := step,
      ins := [⟨fieldAt x 32 8, n, n⟩], outs := [⟨fieldAt x 40 8, n, n⟩],
      eval := fun rs ins _ => { outs := [(ins.getD 0 []).map fun b => { bytes := b }], extra := .moved v.e (n * rs.length) (n * rs.length) } }

/-- The tile of stage i that is next for its batch. -/
def Cmd.stepOf (c : Cmd) (i : Nat) : Nat :=
  match c.batch with
  | some (j, _, k) => if j = i then k else 0
  | none => 0

/-- Stage i of the running command; a status when a bound epoch does not fit it. -/
def Device.stageOf (d : Device) (v : Env) (i : Nat) : Status ⊕ Stage :=
  let x := v.cmd.stages.getD i []
  let op := fieldAt x 0 1
  let rows := stageRowsOf v.cmd.desc v.cmd.stages 9 i
  if op = opMatmul then
    match d.matOf v.e v.cmd x (flagBit v.cmd.desc 6) with
    | .inl st => .inl st
    | .inr p => .inr (d.stageMatmul v p (v.cmd.stepOf i))
  else if op = opNorm then .inr { d.stageNorm v x with step := v.cmd.stepOf i }
  else if op = opSoftmax then .inr { d.stageSoftmax v x with step := v.cmd.stepOf i }
  else if op = opRope then .inr { d.stageRope v x with step := v.cmd.stepOf i }
  else if op = opMicroprog then .inr { d.stageMicro v x rows with step := v.cmd.stepOf i }
  else .inr (stageCopy v x rows i (v.cmd.stepOf i))

/-! ### Relays and credits (R275) -/

/-- The chain of the running command. -/
def Env.chain (v : Env) : Nat := bits (v.fld 41 1) 0 2
def Env.chainKey (v : Env) (relay : Nat) : Nat := v.fld 44 4 * 8 + relay

/-- The command of a chain on another engine that takes part in it, other than an ended one: slot and command. -/
def Device.member (d : Device) (e chain : Nat) : Option (Nat × Cmd) :=
  (List.range 8).findSome? fun s =>
    match (d.slot e s).cur with
    | some c => if c.chained && fieldAt c.desc 44 4 = chain && c.status.isNone then some (s, c) else none
    | none => none

/-- The engine of the same region at a block index. -/
def Env.peerEngine (v : Env) (block : Nat) : Nat := v.e / 8 * 8 + block

/-- Credits set out for a writing engine (R275). -/
def Upd.oweCredit (e key n : Nat) : Upd :=
  .eng e fun g => { g with creditsDue := put g.creditsDue key (look g.creditsDue key 0 + n) 0 }

/-- At its issue a reading engine sends x_slots to the writer (R275). -/
def Upd.announce (e : Nat) (desc : List Byte) : Upd :=
  let chain := bits (fieldAt desc 41 1) 0 2
  .when (fieldAt desc 0 1 = opFused && (chain = 2 || chain = 3))
    (.oweCredit (e / 8 * 8 + fieldAt desc 42 1) (fieldAt desc 44 4 * 8 + 5) (fieldAt desc 56 2))

/-- The rows that a relay can still take. -/
def Device.relayRoom (d : Device) (v : Env) (k : Nat) : Nat :=
  if k = 5 then look (d.eng v.e).credits (v.chainKey 5) 0
  else relaySlots v.cmd.desc k - (look v.cmd.relays k []).length

/-- The rows that stage i can process now. -/
def Device.stageBatch (d : Device) (v : Env) (i : Nat) (s : Stage) : Nat :=
  let left := s.rows - look v.cmd.stageRows i 0
  let inRows := (s.ins.filterMap (·.relay)).map fun k => (look v.cmd.relays k []).length
  let room := (s.outs.filterMap (·.relay)).map fun k => d.relayRoom v k
  (inRows ++ room).foldl min (min s.batch left)

/-- Rows leave a relay; the writer of a relay from another engine gets their credits back. -/
def Upd.takeRows (v : Env) (k n : Nat) : Upd :=
  .all [
    .cur v.e v.s fun c => { c with relays := put c.relays k ((look c.relays k []).drop n) [], taken := put c.taken k (look c.taken k 0 + n) 0 },
    .read fun d => .when (k = 4 && (d.member (v.peerEngine (v.fld 42 1)) (v.fld 44 4)).isSome)
      (.oweCredit (v.peerEngine (v.fld 42 1)) (v.chainKey 5) n)]

/-- Rows enter a relay; those of the relay to another engine go to the reading engine's command, and cost credits. -/
def Upd.putRows (v : Env) (k : Nat) (rows : List (List Byte)) : Upd :=
  if k = 5 then
    let e := v.peerEngine (v.fld 43 1)
    .all [
      .eng v.e fun g => { g with credits := put g.credits (v.chainKey 5) (look g.credits (v.chainKey 5) 0 - rows.length) 0 },
      .read fun d =>
        match d.member e (v.fld 44 4) with
        | some (s, _) => .cur e s fun c => { c with relays := put c.relays 4 (look c.relays 4 [] ++ rows) [] }
        | none => .skip]
  else .cur v.e v.s fun c => { c with relays := put c.relays k (look c.relays k [] ++ rows) [] }

/-- The rows that stages before i put into memory: where the row-status bytes of stage i begin (R255). -/
def rowBase (desc : List Byte) (st : List (List Byte)) (i : Nat) : Nat :=
  ((List.range i).map fun j =>
    if (stageWrites (st.getD j [])).isEmpty then stageRowsOf desc st 9 j else 0).sum

/-- The output rows of a fused command (R255). -/
def fusedRows (desc : List Byte) (st : List (List Byte)) : Nat := rowBase desc st st.length

/-- What the rows of a stage leave on the command: status bytes and the canonical stream of outputs in memory (R255,
R318), NARROW_NAN. -/
def Upd.noteStage (v : Env) (i o : Nat) (relay : Bool) (rows : List Nat) (outs : List RowOut) : Upd :=
  .each (rows.zip outs) fun p => .all [
    .cur v.e v.s fun c => { c with narrowNan := c.narrowNan || p.2.narrow },
    .when (!relay) (.all [
      .cur v.e v.s fun c => { c with rowStatus := put c.rowStatus (rowBase c.desc c.stages i + p.1) p.2.status 0 },
      .digest v (i * 2 ^ 60 + o * 2 ^ 58 + p.1) p.2.bytes, .digest v (i * 2 ^ 60 + 2 ^ 59 + p.1) p.2.stats])]

/-- The ranges that a tile of a stage touches: its rows in memory, with what it writes when its batch is done. -/
def Stage.ranges (s : Stage) (rows : List Nat) (done : Bool) : List Rng :=
  let memOut := if done then s.outs.filter (·.relay.isNone) else []
  ((s.ins.filter (·.relay.isNone)).flatMap fun o => rows.map (o.rng 2 false)) ++ s.mid ++ (memOut.flatMap fun o => rows.map (o.rng 3 true)) ++
    (s.aux rows).filter fun r => done || s.each || !r.write

/-- The n rows of each input operand: out of its relay, or of the bytes that the tile's ranges brought. -/
def Stage.inputs (s : Stage) (v : Env) (n : Nat) (bs : List (List Byte)) : List (List (List Byte)) :=
  (s.ins.zip (List.range s.ins.length)).map fun p =>
    match p.1.relay with
    | some k => (look v.cmd.relays k []).take n
    | none => (bs.drop (((s.ins.take p.2).filter (·.relay.isNone)).length * n)).take n

/-- A tile of a batch of n rows of stage i. The ranges of the batch have their translations before its weights are read (R232). -/
def Device.runStage (d : Device) (v : Env) (stages : List Stage) (i n : Nat) (s : Stage) : TileRes :=
  let first := look v.cmd.stageRows i 0
  let rows := span first n
  match d.rangesOf v.ctx (s.ranges rows (s.last || !s.each)), s.fail with
  | .inl (f, stream), _ => v.xfault f stream
  | .inr _, some r => r
  | .inr _, none =>
    d.tile v (s.ranges rows s.last) fun bs =>
      let r := s.eval rows (s.inputs v n bs) (bs.drop ((s.ins.filter (·.relay.isNone)).length * n))
      let outs := s.outs.zip (r.outs.zip (List.range s.outs.length))
      if !s.last then
        { writes := if s.each then r.writes else [],
          extra := .all [.cur v.e v.s fun c => { c with batch := some (i, n, s.step + 1) }, .when s.each r.extra], last := false }
      else
      { writes := (outs.flatMap fun p => if p.1.relay.isNone then p.2.1.map (·.bytes) else []) ++ r.writes,
        extra := .all [
          .each (s.ins.filterMap (·.relay)) fun k => .takeRows v k n,
          .each outs fun p => match p.1.relay with
            | some k => .putRows v k (p.2.1.map (·.bytes))
            | none => .skip,
          .each outs fun p => .noteStage v i p.2.2 p.1.relay.isSome rows p.2.1,
          .cur v.e v.s fun c => { c with stageRows := put c.stageRows i (first + n) 0, batch := none },
          r.extra],
        last := (stages.zip (List.range stages.length)).all fun p =>
          p.1.rows ≤ look v.cmd.stageRows p.2 0 + (if p.2 = i then n else 0) }

/-! ### The command -/

/-- The range of the stage table. -/
def Env.tableRange (v : Env) : Rng := ⟨v.fld 32 8, 128 * v.fld 40 1, 2, false⟩

/-- The reading of the stage table at the issue of a FUSED command: what it changes, its waiting, or the command's end (R118). -/
def Device.readStages (d : Device) (v : Env) : TileRes := d.tile v [v.tableRange] fun _ => { last := false }

/-- The stage table of a FUSED command at its issue, once its bytes are there; none while its reads are under way. -/
def Device.issueStages (d : Device) (v : Env) : Option (List (List Byte)) :=
  match d.rangesOf v.ctx [v.tableRange] with
  | .inl _ => some []
  | .inr l => match d.readRanges v.key (d.ownerOf v.ctx) l with
    | .inl _ => some []
    | .inr (_, true, _) => none
    | .inr (_, false, bs) => some (pieces 128 (bs.headD []))

/-- The reads of the stage table are under way, and none of them is still to be sent. -/
def Device.tableAwaited (d : Device) (v : Env) : Bool :=
  match d.rangesOf v.ctx [v.tableRange] with
  | .inl _ => false
  | .inr l => match d.readRanges v.key (d.ownerOf v.ctx) l with
    | .inr (missing, true, _) => missing.isEmpty
    | _ => false

/-- The status of the checks of a stage table that has been read, with what it binds. -/
def Device.stageCheck (d : Device) (v : Env) (st : List (List Byte)) : Status × List Bound :=
  if badStages v.cmd.desc st then (.shapeInvalid, []) else
  let checks := st.map fun x => (d.checkStage v.e v.ctx x).status
  match checks.find? (· ≠ .ok) with
  | some s => (s, [])
  | none =>
    let bs := st.map fun x => d.bindOf v.e v.ctx (flagBit v.cmd.desc 6) x
    match bs.find? (·.1 ≠ .ok) with
    | some b => (b.1, [])
    | none => (.ok, bs.map (·.2))

/-- What a command's stages bind together, or the status with which it ends. -/
def Device.bindStages (d : Device) (v : Env) (st : List (List Byte)) : Status × Bound :=
  let r := d.stageCheck v st
  (r.1, { fns := r.2.flatMap (·.fns), epochs := r.2.flatMap (·.epochs), adapters := r.2.flatMap (·.adapters) })

/-- The stages of a fused command whose table is read; a status when a bound epoch does not fit one. -/
def Device.stagesOf (d : Device) (v : Env) : Status ⊕ List Stage :=
  let got := (List.range v.cmd.stages.length).map (d.stageOf v)
  match got.findSome? fun r => match r with | .inl st => some st | .inr _ => none with
  | some st => .inl st
  | none => .inr (got.filterMap fun r => match r with | .inr s => some s | .inl _ => none)

/-- The stage that goes on, with the rows of its batch: that of the batch under way, else the latest stage that has input rows and
room for its output (R275). -/
def Device.nextStage (d : Device) (v : Env) (stages : List Stage) : Option (Stage × Nat × Nat) :=
  match v.cmd.batch with
  | some (i, n, _) => stages[i]?.map fun s => (s, i, n)
  | none => (((stages.zip (List.range stages.length)).filter fun p => d.stageBatch v p.2 p.1 ≠ 0).getLast?).map fun p =>
      (p.1, p.2, d.stageBatch v p.2 p.1)

/-- The command waits for a relay credit or a row from another engine (R275): no stage of its chain can go on. -/
def Device.awaitsRelay (d : Device) (v : Env) : Bool :=
  v.op = opFused && v.chain ≠ 0 && !v.cmd.stages.isEmpty && match d.stagesOf v with
    | .inr stages => (d.nextStage v stages).isNone
    | .inl _ => false

/-- A tile of FUSED: the stage that goes on takes a batch, or the next segment of one (R231, R275). A command of a chain that
restarts issues no further tile before it does (R276). -/
def tileFused (d : Device) (v : Env) : TileRes :=
  if look d.q.restart v.e 0 = v.fld 44 4 + 1 && v.chain ≠ 0 then .wait .skip
  else if (d.eng v.e).redecode.isSome then .wait .skip
  else match d.stagesOf v with
  | .inl st => .stop st none .skip
  | .inr stages =>
    match d.nextStage v stages with
    | none => .wait .skip
    | some (s, i, n) => d.runStage v stages i n s

/-- The stage that a FUSED tile works on, with its rows, when it has one. -/
def Device.fusedAt (d : Device) (v : Env) : Option (Stage × Nat × Nat) :=
  match d.stagesOf v with
  | .inr stages => d.nextStage v stages
  | .inl _ => none

/-- What the guard check of a FUSED tile forms, when its stage is a MATMUL (R100, R101): as for a MATMUL. -/
def fusedProbe : GuardProbe := fun d v cell stage =>
  match d.fusedAt v with
  | none => none
  | some (s, i, n) =>
    match d.matOf v.e v.cmd (v.cmd.stages.getD i []) (flagBit v.cmd.desc 6) with
    | .inl _ => none
    | .inr p =>
      let rows := span (look v.cmd.stageRows i 0) n
      let ((c0, w), (_, k0, len), _) := p.stagePos s.step
      match d.rangesOf v.ctx (s.ranges rows s.last) with
      | .inl _ => none
      | .inr l => match d.readRanges v.key (d.ownerOf v.ctx) (l.filter (!·.1.write)) with
        | .inr (_, false, bs) =>
          match d.matColumns p (span c0 w) k0 len (bs.drop ((s.ins.filter (·.relay.isNone)).length * n)) with
          | .inr _ => none
          | .inl cols =>
            let relay := (relayOf (p.fld 32 8)).isSome
            let skip := k0 - (p.stageK s.step).1
            guardProbe d v cell stage p.path
              ((List.range n).map fun i => (i, (((matRow p relay s.step (s.inputs v n bs) i).1.drop skip).take len))) ((cols.take w).map (·.1))
        | _ => none

/-- The units of a FUSED tile: those of its stage's operator; a MATMUL stage applies its function with the last pass of a slice. -/
def fusedUnits : Units where
  probe := fusedProbe
  use := fun d v => match d.fusedAt v with
    | none => { op := opNop, desc := [] }
    | some (s, i, _) =>
      let x := v.cmd.stages.getD i []
      if fieldAt x 0 1 ≠ opMatmul then d.opUse (fieldAt x 0 1) x
      else match d.matOf v.e v.cmd x (flagBit v.cmd.desc 6) with
        | .inr p => if (p.stagePos s.step).2.2 then d.opUse opMatmul x else { op := opMatmul, desc := x }
        | .inl _ => { op := opMatmul, desc := x }

/-- FUSED (R273 to R276). -/
def execFused (e n : Nat) (s : State) : Host.Outcome State Fault Refusal := s.act (.fused e n) (.tiles e n [opFused] tileFused fusedUnits)

end Sys2Proof.Machine
end

