-- ==== Sys2Proof/Machine/KvPool.lean ====
section
/-! DEFINITION. The census unit of each region: entries, free lists, the operations of commands, migration between tiers, the
quarantine and command boundaries (05_attention.md R133 to R145). -/

namespace Sys2Proof.Machine

/-! ### Registers of a pool (KVP page) -/

def Device.pool (d : Device) (r : Nat) : Pool := look d.kv r {}
def Upd.pool (r : Nat) (f : Pool → Pool) : Upd := .of fun d => { d with kv := put d.kv r (f (d.pool r)) {} }
def Device.kvOn (d : Device) (r : Nat) : Bool := bitOf (d.reg (kvpPage r + 0x04)) 0
def Device.kvLen (d : Device) (r : Nat) : Nat := d.regN (kvpPage r + 0x48)
/-- The frame size of a region. -/
def Device.frameBytes (d : Device) (r : Nat) : Nat := 2 ^ fieldOf (d.reg (kvpPage r + 0x4C)) 4 0
/-- The offset of a tier's free-list registers: base, HEAD, TAIL, COUNT. -/
def freeOff (tier : Nat) : Nat := if tier = 0 then 0x68 else 0x7C
def Device.frames (d : Device) (r tier : Nat) : Nat := d.regN (kvpPage r + (if tier = 0 then 0x58 else 0x64))
def Device.freeCount (d : Device) (r tier : Nat) : Nat := d.regN (kvpPage r + freeOff tier + 0x10)

abbrev pageNone : Nat := 0xFFFFFFFF
/-- The region and the census index of a page number (R133). -/
def pageRegion (p : Nat) : Nat := bits p 30 2
def pageIndex (p : Nat) : Nat := p % 2 ^ 30
def pageNumber (r idx : Nat) : Nat := r * 2 ^ 30 + idx

/-- The tier of a frame field, and the frame's physical address (R136). -/
def frameTier (f : Nat) : Nat := bits f 31 1
def Device.frameAddr (d : Device) (r f : Nat) : Nat :=
  d.pair (kvpPage r + (if frameTier f = 0 then 0x50 else 0x5C)) % 2 ^ 44 + f % 2 ^ 31 * d.frameBytes r

/-! ### Census entries (R136, R142) -/

structure Census where
  refcnt : Nat
  frame : Nat
  heat : Nat
  flags : Nat
  owner : Nat
  mark : Nat
  keySlot : Nat
deriving DecidableEq, Repr

def readCensus (b : List Byte) : Census :=
  ⟨fieldAt b 0 4, fieldAt b 4 4, fieldAt b 8 2, fieldAt b 10 1, fieldAt b 11 1, fieldAt b 12 3, fieldAt b 15 1⟩

def Census.bytes (c : Census) : List Byte :=
  toBytes 4 c.refcnt ++ toBytes 4 c.frame ++ toBytes 2 c.heat ++ toBytes 1 c.flags ++ toBytes 1 c.owner ++ toBytes 3 c.mark ++
  toBytes 1 c.keySlot

def Census.migrating (c : Census) : Bool := bits c.flags 0 1 = 1
def Census.leased (c : Census) : Bool := bits c.flags 1 1 = 1
def Census.pending (c : Census) : Bool := bits c.flags 2 1 = 1

/-- The heat brought up to date: halved once for each advance since decay_mark (R142). -/
def Census.decayed (c : Census) (count : Nat) : Census :=
  let n := (count % 2 ^ 24 + 2 ^ 24 - c.mark) % 2 ^ 24
  { c with heat := c.heat / 2 ^ min n 16, mark := count % 2 ^ 24 }

def Device.censusAddr (d : Device) (r idx : Nat) : Nat := d.pair (kvpPage r + 0x40) % 2 ^ 44 + 16 * idx
def Device.census (d : Device) (r idx : Nat) : Census := readCensus (d.bytesAt 0 (d.censusAddr r idx) 16)

/-- An entry is written, under key slot 0 (R219). -/
def Upd.putCensus (r idx : Nat) (c : Census) : Upd := .read fun d => .write 0 (d.censusAddr r idx) c.bytes

/-- The pool cannot trust its memory: enable returns to 0 (census_ue, list_corrupt). -/
def Upd.kvBroken (r bit : Nat) (injected : Bool) : Upd :=
  .all [.error (kvpPage r) bit (regionRec 0x030B r) false injected, .setReg (kvpPage r + 0x04) 0]

/-- The census unit reads an entry, its heat halved as R142 says and written back; or the read fails. -/
def Upd.census (r idx : Nat) (fail : Upd) (k : Census → Upd) : Upd :=
  .inject (kvpPage r) 2 fun bad => .read fun d =>
    let a := d.censusAddr r idx
    if bad || (d.ueIn a 16).isSome then .all [.kvBroken r 2 bad, fail]
    else
      let c := d.census r idx
      let now := c.decayed (d.pool r).decay
      .all [.touch a 16, .when (now ≠ c) (.putCensus r idx now), k now]

/-! ### Free lists (R137) -/

/-- The address of an entry of a tier's ring. -/
def Device.ringAddr (d : Device) (r tier i : Nat) : Nat :=
  d.pair (kvpPage r + freeOff tier) % 2 ^ 44 + 4 * (i % max 1 (d.frames r tier))

/-- A count register of a tier's list changes; falling below its mark is flagged (free_low_hbm, free_low_lp). -/
def Upd.freeCount (r tier n : Nat) : Upd :=
  .read fun d =>
    let before := d.freeCount r tier
    let low (x : Nat) : Bool :=
      if tier = 0 then x < d.regN (kvpPage r + 0x9C) else x * 64 < d.frames r 1
    .all [.setReg (kvpPage r + freeOff tier + 0x10) (BitVec.ofNat 32 n),
      .when (low n && !low before) (.raise (kvpPage r) (oneBit tier))]

/-- The page at the head of a tier's list is taken, which must be a free one; the list is not empty. -/
def Upd.popPage (r tier : Nat) (fail : Upd) (k : Nat → Census → Upd) : Upd :=
  .inject (kvpPage r) 3 fun bad => .read fun d =>
    let off := kvpPage r + freeOff tier
    let a := d.ringAddr r tier (d.regN (off + 0x8))
    let p := d.numAt 0 a 4
    if (d.ueIn a 4).isSome then .all [.kvBroken r 2 false, fail]
    else if bad || pageRegion p ≠ r || d.kvLen r ≤ pageIndex p then .all [.touch a 4, .kvBroken r 3 bad, fail]
    else .all [.touch a 4, .census r (pageIndex p) fail fun c =>
      if c.refcnt ≠ 0 ∨ c.flags ≠ 0 then .all [.kvBroken r 3 false, fail]
      else .all [
        .setReg (off + 0x8) (BitVec.ofNat 32 ((d.regN (off + 0x8) + 1) % max 1 (d.frames r tier))),
        .freeCount r tier (d.freeCount r tier - 1), k p c]]

/-- A page number is appended to a tier's list. -/
def Upd.pushPage (r tier p : Nat) : Upd :=
  .read fun d =>
    let off := kvpPage r + freeOff tier
    .all [
      .writeNum 0 (d.ringAddr r tier (d.regN (off + 0xC))) 4 p,
      .setReg (off + 0xC) (BitVec.ofNat 32 ((d.regN (off + 0xC) + 1) % max 1 (d.frames r tier))),
      .freeCount r tier (d.freeCount r tier + 1)]

/-- A page whose refcnt reaches 0 is released (R139). -/
def Upd.releasePage (r idx : Nat) (c : Census) : Upd :=
  .all [.putCensus r idx { c with refcnt := 0, flags := 0, owner := 0 }, .pushPage r (frameTier c.frame) (pageNumber r idx),
    .pool r fun x => { x with lens := put x.lens idx 0 0 }, .count (kvpPage r + 0xC8)]

/-- One reference less. -/
def Upd.dropRef (r idx : Nat) (c : Census) : Upd :=
  if c.refcnt ≤ 1 then .releasePage r idx c else .putCensus r idx { c with refcnt := c.refcnt - 1 }

/-! ### The operations of commands (R138, R139) -/

/-- The slot under which the operations on page lists outside device memory stand that an engine's slot sent before its reset
(R138, log 46). -/
abbrev sentEngine (e : Nat) : Nat := e + 64

/-- What the census unit answers. -/
def Upd.answerOp (e s : Nat) (op : CensusOp) (a : CensusAns) : Upd :=
  .cur e s fun c => { c with asked := c.asked.drop 1, answers := c.answers ++ [(op, a)] }

/-- The four bytes of a page-list entry. -/
def CensusOp.seg (op : CensusOp) : Seg := ⟨op.va, op.entry, 4, op.log2⟩

/-- Another command's operation on the same entry has reached its census unit first and reads the entry (R138). -/
def Device.entryBusy (d : Device) (key : Nat) (op : CensusOp) : Bool :=
  (d.ho.reads.map (·.slot) ++ (d.lk.reqs.filter (·.kind = .read)).map (·.slot)).any fun k => k ≠ key &&
    (match (d.slot (k / 8) (k % 8)).cur with
      | some c => c.asked.head?.any fun o => o.entry = op.entry && (o.kind = 2 || o.kind = 5 || o.kind = 6)
      | none => false)

/-- An operation acts on its page-list entry as it stands (R138, R156): an entry in host memory or behind a window is read
by the operation itself, and other operations on the same entry wait. Where that read fails, or the entry's line is uncorrectable
(R215), the operation is given up, and the command, which reads the entry too, ends with the read's failure. -/
def Upd.withEntry (e s : Nat) (op : CensusOp) (k : Nat → Upd) : Upd :=
  .read fun d => match op.entry with
    | .mem pa slot =>
      if (d.ueIn pa 4).isSome then .cur e s fun c => { c with asked := [], answers := [] }
      else .all [.touch pa 4, k (d.numAt slot pa 4)]
    | _ =>
      let key := slotKey e s
      match d.readSegs key (d.ownerOf (d.slot e s).ctx) [op.seg] with
      | .bytes b => .all [.consume key, k (fromBytes b)]
      | .wait m => .when (!d.entryBusy key op) (.issueReads key m)
      | .bad _ => .cur e s fun c => { c with asked := [], answers := [] }

/-- A page-list entry is written. -/
def Upd.putEntry (e s : Nat) (op : CensusOp) (v : Nat) : Upd :=
  .read fun d => .writeSegs (slotKey e s) (d.ownerOf (d.slot e s).ctx) [op.seg] (toBytes 4 v)

/-- The tiers that an ALLOC may use, in order (KVP.ALLOC). -/
def Device.allocTiers (d : Device) (r : Nat) (lp : Bool) : List Nat :=
  let f := fieldOf (d.reg (kvpPage r + 0x90)) 1 0
  if f = 0 then (if lp then [1, 0] else [0, 1]) else if f = 1 then (if lp then [1, 0] else [0]) else [if lp then 1 else 0]

/-- ALLOC (R138). -/
def Upd.opAlloc (e s : Nat) (op : CensusOp) : Upd :=
  .read fun d =>
    let r := op.region
    match (d.allocTiers r op.prefer).find? fun t => d.freeCount r t ≠ 0 with
    | none => .answerOp e s op { status := .kvNospace }
    | some t =>
      .popPage r t (.answerOp e s op { status := .kvPoolOff }) fun p c => .all [
        .putCensus r (pageIndex p) { c with refcnt := 1, flags := 4, owner := e, keySlot := op.keySlot },
        .pool r fun x => { x with lens := put x.lens (pageIndex p) op.len 0 },
        .count (kvpPage r + 0xC0),
        .answerOp e s op { page := p, frame := d.frameAddr r c.frame, refcnt := 1 }]

/-- COMMIT (R138, R139, R156): the entry is compared with the old page and takes the new one. -/
def Upd.opCommit (e s : Nat) (op : CensusOp) (now : Nat) : Upd :=
  .read fun d =>
    let r := pageRegion op.page2
    let ri := pageIndex op.page2
    let o := pageRegion op.page
    let oi := pageIndex op.page
    let answer (st : Status) : Upd := .answerOp e s op { status := st }
    .census r ri (answer .kvPoolOff) fun new =>
      let giveUp (st : Status) : Upd := .all [.when new.pending (.releasePage r ri new), answer st]
      let take : Upd := .all [.putEntry e s op op.page2, .putCensus r ri { new with flags := new.flags % 4, owner := 0 }]
      if now = op.page then
        if new.refcnt = 0 then answer .kvPageFree
        else if op.page = pageNone then .all [take, answer .ok]
        else if !d.kvOn o then giveUp .kvPoolOff
        else if d.kvLen o ≤ oi then giveUp .kvPageRange
        else .census o oi (giveUp .kvPoolOff) fun old =>
          if old.refcnt = 0 then giveUp .kvPageFree
          else .all [take, .dropRef o oi old, answer .ok]
      else if now = op.page2 then answer .ok
      else giveUp .kvListConflict

/-- LEASE waits while the page migrates; UNLEASE (R138). -/
def Upd.opLease (e s : Nat) (op : CensusOp) (set : Bool) : Upd :=
  .census op.region (pageIndex op.page) (.answerOp e s op { status := .kvPoolOff }) fun c =>
    if set && c.migrating then .skip
    else .read fun d => .all [
      .putCensus op.region (pageIndex op.page)
        { c with flags := if set then Nat.lor c.flags 2 else c.flags - bits c.flags 1 1 * 2, owner := if set then e else 0 },
      .when set (.pool op.region fun x => { x with lens := put x.lens (pageIndex op.page) op.len 0 }),
      .answerOp e s op { page := op.page, frame := d.frameAddr op.region c.frame, refcnt := c.refcnt }]

/-- SHARE (R138, R139). -/
def Upd.opShare (e s : Nat) (op : CensusOp) (now : Nat) : Upd :=
  .read fun d =>
    let answer (st : Status) : Upd := .answerOp e s op { status := st }
    if op.page = pageNone then answer (if now = pageNone then .ok else .kvListConflict)
    else if now = op.page then answer .ok
    else if now ≠ pageNone then answer .kvListConflict
    else if d.kvLen op.region ≤ pageIndex op.page then answer .kvPageRange
    else .census op.region (pageIndex op.page) (answer .kvPoolOff) fun c =>
      if c.refcnt = 0 then answer .kvPageFree
      else if c.refcnt + 1 > 0xFFFFFFFE then answer .kvRefcount
      else .all [.putEntry e s op op.page, .putCensus op.region (pageIndex op.page) { c with refcnt := c.refcnt + 1 }, answer .ok]

/-- DROP (R138, R139). -/
def Upd.opDrop (e s : Nat) (op : CensusOp) (p : Nat) : Upd :=
  .read fun d =>
    let answer (st : Status) : Upd := .answerOp e s { op with page := p } { status := st }
    if p = pageNone then answer .ok
    else if !d.kvOn (pageRegion p) then answer .kvPoolOff
    else if d.kvLen (pageRegion p) ≤ pageIndex p then answer .kvPageRange
    else .census (pageRegion p) (pageIndex p) (answer .kvPoolOff) fun c =>
      if c.refcnt = 0 then answer .kvPageFree
      else .all [.dropRef (pageRegion p) (pageIndex p) c, .putEntry e s op pageNone, answer .ok]

/-- A promotion request is dropped (R143, R144). -/
def Upd.promoDrop (r : Nat) : Upd := .all [.count (kvpPage r + 0xE8), .error (kvpPage r) 4 (regionRec 0x030C r) true]

def Device.migrates (d : Device) (r : Nat) : Bool := d.kvOn r && bitOf (d.reg (kvpPage r + 0x94)) 0

/-- The placing of a page in the promotion queue (R143). DESIGN CHOICE (log 128): a page that stands in the queue already is
not placed a second time, and is not counted as dropped. -/
def Upd.promote (r p : Nat) (c : Census) : Upd :=
  .read fun d =>
    let min' := fieldOf (d.reg (kvpPage r + 0x98)) 31 16
    let wanted := d.migrates r && frameTier c.frame = 1 && c.heat ≥ min' && c.flags = 0 &&
      d.regN (kvpPage r + 0x9C) < d.freeCount r 0 && !(d.pool r).promo.contains p
    .when wanted (if (d.pool r).promo.length < 64 then .pool r fun x => { x with promo := x.promo ++ [p] } else .promoDrop r)

/-- LOOKUP (R138, R142): the frame, and one more heat, once per page and command. -/
def Upd.opLookup (e s : Nat) (op : CensusOp) : Upd :=
  .read fun d =>
    let r := op.region
    let idx := pageIndex op.page
    let answer (a : CensusAns) : Upd := .answerOp e s op a
    let first := match (d.slot e s).cur with | some c => !c.heated.contains op.page | none => true
    if d.kvLen r ≤ idx then answer { status := .kvPageRange }
    else .census r idx (answer { status := .kvPoolOff }) fun c =>
      if c.refcnt = 0 then answer { status := .kvPageFree }
      else
        let c := { c with heat := if first then min (c.heat + 1) 0xFFFF else c.heat }
        .all [
          .when first (.all [.putCensus r idx c, .promote r op.page c]),
          .cur e s fun x => { x with
            looked := put x.looked op.page (d.frameAddr r c.frame + 1) 0, heated := if first then x.heated ++ [op.page] else x.heated },
          answer { page := op.page, frame := d.frameAddr r c.frame, refcnt := c.refcnt }]

/-- The census unit carries out an operation. A census whose enable is 0 answers KV_POOL_OFF (R141); a SHARE of NONE reads
no census. -/
def Upd.censusOp (e s : Nat) (op : CensusOp) : Upd :=
  .read fun d =>
    let off := !d.kvOn op.region && !(op.kind = 5 && op.page = pageNone) && op.kind ≠ 6
    if off then .answerOp e s op { status := .kvPoolOff }
    else match op.kind with
    | 1 => .opAlloc e s op
    | 2 => .withEntry e s op (.opCommit e s op)
    | 3 => .opLease e s op true
    | 4 => .opLease e s op false
    | 5 => .withEntry e s op (.opShare e s op)
    | 6 => .withEntry e s op (.opDrop e s op)
    | _ => .opLookup e s op

/-- The oldest operation that a slot's command has asked for reaches the census unit, when it is of this kind: it crosses from
the engine's region to the pool's (R23). -/
def Upd.serveOp (e s kind : Nat) : Upd :=
  .read fun d =>
    match (d.slot e s).cur with
    | none => .skip
    | some c =>
      match c.asked with
      | op :: _ => .when (d.up && d.unheld && op.kind = kind) (.cross (e % 64 / 8) op.region (.censusOp e s op))
      | [] => .skip

/-- An operation of a slot reaches the census unit: those that the slot sent before an engine reset go before the others (R138). -/
def Upd.serveCensus (e s kind : Nat) : Upd :=
  .read fun d =>
    let ghost := sentEngine e
    if (d.slot ghost s).cur.any fun c => !c.asked.isEmpty then .all [.serveOp ghost s kind,
      .read fun d => .when ((d.slot ghost s).cur.any fun c => c.asked.isEmpty) (.slot ghost s fun _ => {})]
    else .serveOp e s kind

/-- ALLOC (R138). -/
def execAlloc (e slot : Nat) (s : State) : Host.Outcome State Fault Refusal := s.act (.alloc e slot) (.serveCensus e slot 1)

/-- COMMIT (R138, R139). -/
def execCommit (e slot : Nat) (s : State) : Host.Outcome State Fault Refusal := s.act (.commit e slot) (.serveCensus e slot 2)

/-- LEASE (R138). -/
def execLease (e slot : Nat) (s : State) : Host.Outcome State Fault Refusal := s.act (.lease e slot) (.serveCensus e slot 3)

/-- UNLEASE (R138). -/
def execUnlease (e slot : Nat) (s : State) : Host.Outcome State Fault Refusal := s.act (.unlease e slot) (.serveCensus e slot 4)

/-- SHARE (R138, R139). -/
def execShare (e slot : Nat) (s : State) : Host.Outcome State Fault Refusal := s.act (.share e slot) (.serveCensus e slot 5)

/-- DROP (R138, R139). -/
def execDrop (e slot : Nat) (s : State) : Host.Outcome State Fault Refusal := s.act (.drop e slot) (.serveCensus e slot 6)

/-- LOOKUP (R138, R142, R143). -/
def execLookup (e slot : Nat) (s : State) : Host.Outcome State Fault Refusal := s.act (.lookup e slot) (.serveCensus e slot 7)

/-! ### Engine resets (R140) -/

/-- The fresh pages that operations sent by an engine before its reset will still commit (R138, R140). -/
def Device.committing (d : Device) (e : Nat) : List Nat :=
  (List.range 8).flatMap fun s => match (d.slot (sentEngine e) s).cur with
    | some c => (c.asked.filter (·.kind = 2)).map (·.page2)
    | none => []

/-- An engine's pending pages are released, but those of a COMMIT that is still to arrive, and its write leases cleared, in every
region. -/
def Upd.censusReset (e : Nat) : Upd :=
  .each (List.range 4) fun r => .read fun d =>
    .when (d.kvOn r) (.each (List.range (d.kvLen r)) fun i => .read fun d =>
      let c := (d.census r i).decayed (d.pool r).decay
      .when (c.owner = e && c.refcnt ≠ 0 && !(d.committing e).contains (pageNumber r i))
        (if c.pending then .releasePage r i c
         else .when c.leased (.putCensus r i { c with flags := c.flags - 2, owner := 0 })))

/-- The operation acts on a page-list entry outside device memory, which the census unit has to read first. -/
def CensusOp.distant (op : CensusOp) : Bool :=
  (op.kind = 2 || op.kind = 5 || op.kind = 6) && match op.entry with | .mem _ _ => false | _ => true

/-- Operations that an engine sent before its reset are still delivered (R138, R140): those of its commands, but for those whose
entry the census unit reads first, which stand apart until it has; then its pending pages are released (log 45). A LEASE that
still waits is dropped: the reset would clear it. -/
def Upd.censusDeliver (e : Nat) : Upd :=
  .all [.each (List.range 8) fun s => .read fun d =>
      match (d.slot e s).cur with
      | some c => .all [
          .when (c.asked.any CensusOp.distant) (.slot (sentEngine e) s fun t => { t with
            ctx := (d.slot e s).ctx,
            cur := some { asked := ((t.cur.map (·.asked)).getD []) ++ c.asked.filter CensusOp.distant } }),
          .each (c.asked.filter fun op => !op.distant) (.censusOp e s)]
      | none => .skip,
    .censusReset e]

/-! ### Enabling (R141) -/

/-- A write of KVP.CTRL. DESIGN CHOICE (log 129): enabling sets CLOCK_HAND to 0 and empties the promotion queue, the quarantine
and the migrations, of which R141 says nothing: the pool that it enables has no page in use. -/
def Upd.kvCtrl (r : Nat) (data : Word) : Upd :=
  .read fun d =>
    let log2 := fieldOf (d.reg (kvpPage r + 0x4C)) 4 0
    let ok := !outside log2 12 21 && d.freeCount r 0 = d.frames r 0 && d.freeCount r 1 = d.frames r 1 &&
      d.kvLen r = d.frames r 0 + d.frames r 1
    if !bitOf data 0 then .setReg (kvpPage r + 0x04) 0
    else if d.kvOn r then .skip
    else if !ok then .setReg (kvpPage r + 0x08) 4
    else .all [.setReg (kvpPage r + 0x08) 0, .setReg (kvpPage r + 0x04) 1,
      .pool r fun _ => { period := fieldOf (d.reg (kvpPage r + 0x94)) 23 8 },
      .setReg (kvpPage r + 0xA8) 0]

/-- KVP_ENABLE (R141): a write of KVP.CTRL by the physical function. -/
def execKvpEnable (fn region : Nat) (data : Word) (s : State) : Host.Outcome State Fault Refusal :=
  s.hostAct (.kvpEnable fn region data) fn (.read fun d => .when (d.up && fn = 0) (.kvCtrl region data)) region

/-! ### Decay and migration (R142 to R144) -/

/-- DECAY_ADVANCE (R142): an interval ends; the next one takes the period then written. -/
def execDecayAdvance (region : Nat) (s : State) : Host.Outcome State Fault Refusal :=
  s.act (.decayAdvance region) (.read fun d =>
    .when (d.up && d.unheld && d.kvOn region && (d.pool region).period ≠ 0)
      (.pool region fun x => { x with decay := (x.decay + 1) % 2 ^ 24, period := fieldOf (d.reg (kvpPage region + 0x94)) 23 8 }))

/-- Copies that may be in progress at once (KVP.MIG_CTRL.mig_max). -/
def Device.migMax (d : Device) (r : Nat) : Nat :=
  let n := fieldOf (d.reg (kvpPage r + 0x94)) 7 4
  if n = 0 then 16 else n

/-- Steps 1 and 2 of R144: MIGRATING is set on a page whose entry has no flag, and a page number of the target tier is
taken; with none there, MIGRATING is cleared again. -/
def Upd.migrate (r idx : Nat) (c : Census) (toHbm : Bool) (abandoned : Upd) : Upd :=
  .read fun d =>
    let tier := if toHbm then 0 else 1
    if c.flags ≠ 0 ∨ d.freeCount r tier = 0 then abandoned
    else .popPage r tier abandoned fun f _ => .all [
      .putCensus r idx { c with flags := 1 },
      .pool r fun x => { x with migs := x.migs ++ [⟨pageNumber r idx, f, toHbm⟩] }]

/-- MIGRATION_START (R143, R144): the oldest promotion asked for starts, or is abandoned and counted. DESIGN CHOICE (log 128): a
page that is free, or in HBM3E already, when its promotion would start is counted in PROMO_DROPS like an abandoned one. -/
def execMigrationStart (region page : Nat) (s : State) : Host.Outcome State Fault Refusal :=
  s.act (.migrationStart region page) (.read fun d =>
    .when (d.up && d.unheld && d.migrates region && (d.pool region).promo.head? = some page &&
        (d.pool region).migs.length < d.migMax region) (.all [
      .pool region fun x => { x with promo := x.promo.drop 1 },
      .census region (pageIndex page) .skip fun c =>
        if c.refcnt = 0 ∨ frameTier c.frame = 0 then .promoDrop region
        else .migrate region (pageIndex page) c true (.promoDrop region)]))

/-- The clock hand examines n entries at most (R143). -/
def Upd.scan (n r : Nat) : Upd :=
  match n with
  | 0 => .skip
  | n + 1 => .read fun d =>
    let hand := d.regN (kvpPage r + 0xA8)
    let len := d.kvLen r
    let idx := if hand < len then hand else 0
    if !d.migrates r || (d.pool r).migs.length ≥ d.migMax r || d.regN (kvpPage r + 0xA0) ≤ d.freeCount r 0 then .skip
    else .all [
      .setReg (kvpPage r + 0xA8) (BitVec.ofNat 32 (if idx + 1 < len then idx + 1 else 0)),
      .census r idx .skip fun c =>
        .when (frameTier c.frame = 0 && c.refcnt ≠ 0 && c.heat ≤ fieldOf (d.reg (kvpPage r + 0x98)) 15 0 && c.flags = 0)
          (.migrate r idx c false .skip),
      .scan n r]

/-- DEMOTION_SCAN (R143): while HBM_FREE_COUNT is below HBM_LOW_WM, the hand walks at most one lap and starts the demotions
that the limit of copies permits. -/
def execDemotionScan (region : Nat) (s : State) : Host.Outcome State Fault Refusal :=
  s.act (.demotionScan region) (.read fun d =>
    .when (d.up && d.unheld && d.migrates region && d.freeCount region 0 < d.regN (kvpPage region + 0x9C))
      (.scan (d.kvLen region) region))

/-- The bytes of a page are copied under one key (R144 step 3), each line that is read meeting its controller (R212). A line
that cannot be read stays unreadable in its copy (log 47). -/
def Upd.copyFrame (key src dst n : Nat) : Upd :=
  .each (List.range (n / 64)) fun i => .read fun d => .all [
    .write key (dst + 64 * i) (d.bytesAt key (src + 64 * i) 64), .touch (src + 64 * i) 64,
    .when ((d.ueIn (src + 64 * i) 64).isSome) (.lineErr ((dst + 64 * i) / 64) (some .uncorrectable))]

/-- MIGRATION_EXCHANGE (R144 steps 3 and 4): the page's L bytes and no others are copied (R135); the copy completes, the frames are exchanged, and the page number taken goes
into the quarantine. A migration that has begun completes while the gong is active (R348). A page released meanwhile is not exchanged: the number taken returns to its list (log 47). -/
def execMigrationExchange (region page : Nat) (s : State) : Host.Outcome State Fault Refusal :=
  s.act (.migrationExchange region page) (.read fun d =>
    match (d.pool region).migs.find? (·.page = page) with
    | none => .skip
    | some m =>
      let i := pageIndex m.page
      let j := pageIndex m.other
      .when (d.up && d.kvOn region) (.all [
        .pool region fun x => { x with migs := x.migs.erase m },
        .census region i .skip fun p => .census region j .skip fun f =>
          if !p.migrating then .pushPage region (frameTier f.frame) m.other
          else .all [
            .copyFrame p.keySlot (d.frameAddr region p.frame) (d.frameAddr region f.frame)
              (look (d.pool region).lens i 0),
            .putCensus region i { p with frame := f.frame, flags := p.flags - 1 },
            .putCensus region j { f with frame := p.frame },
            .pool region fun x => { x with quar := x.quar ++ [⟨m.other, d.boundaries⟩] },
            .count (kvpPage region + (if m.toHbm then 0xE0 else 0xD8))]]))

/-! ### The quarantine and command boundaries (R145) -/

/-- A region's quarantine notes an engine's boundary; numbers that wait for no engine return to their free lists. -/
def Upd.quarantine (r e : Nat) : Upd :=
  .read fun d =>
    let q := (d.pool r).quar.map fun x => { x with wait := x.wait.filter fun p => !(p.1 = e && d.passedBoundary e p.2) }
    .when (d.kvOn r) (.all [
      .pool r fun x => { x with quar := q.filter fun y => !y.wait.isEmpty },
      .each (q.filter fun y => y.wait.isEmpty) fun y =>
        .census r (pageIndex y.page) .skip fun c => .pushPage r (frameTier c.frame) y.page])

/-- COMMAND_BOUNDARY (R145, R173): an engine's boundary count arrives at the census units and the weight-set unit, which start no work
while the gong is active (R348). -/
def execCommandBoundary (e : Nat) (s : State) : Host.Outcome State Fault Refusal :=
  s.act (.commandBoundary e) (.read fun d =>
    .when (d.up && d.unheld) (.all [.each (List.range 4) fun r => .quarantine r e, .weightBoundary e]))

end Sys2Proof.Machine
end

