-- ==== Sys2Proof/Machine/Attention.lean ====
section
/-! DEFINITION. Attention and key-value commands: length tables, pages, the attention arithmetic, appending, forking and
freeing (05_attention.md R133 to R135, R146 to R168). -/

namespace Sys2Proof.Machine

/-! ### Reads before a tile's own work -/

/-- Virtual ranges are translated and read: what follows when their bytes are there. -/
def Device.withReads (d : Device) (v : Env) (rs : List Rng) (k : List (List Byte) → List (Rng × List Seg) → TileRes) : TileRes :=
  match d.rangesOf v.ctx rs with
  | .inl (f, stream) => v.xfault f stream
  | .inr l =>
    match d.lostPeer (l.flatMap (·.2)) with
    | some p => v.badRead (.lost p) 0xFF
    | none =>
      match d.readRanges v.key (d.ownerOf v.ctx) (l.filter fun p => !p.1.write) with
      | .inl (b, stream) => v.badRead b stream (.touchSegs (l.flatMap (·.2)))
      | .inr (missing, true, _) => .wait (.issueReads v.key missing (d.bulkLimit v.e l))
      | .inr (_, false, bytes) => k bytes l

/-! ### Faults of key-value commands (R148, R149, R139) -/

/-- Detail format K (R354). -/
def detailK (page entry seq code : Nat) : List Byte := toBytes 4 page ++ toBytes 4 entry ++ toBytes 2 seq ++ toBytes 1 code

/-- DMA.KV_FAULT takes the first fault since its valid bit was cleared; the page's flag (DMA page). -/
def Upd.kvFault (e page entry seq code : Nat) : Upd :=
  .read fun d => .all [
    .when (!bitOf (d.reg (dmaPage e + 0x48)) 31) (.all [
      .setReg (dmaPage e + 0x40) (BitVec.ofNat 32 page), .setReg (dmaPage e + 0x44) (BitVec.ofNat 32 entry),
      .setReg (dmaPage e + 0x48) (BitVec.ofNat 32 (2 ^ 31 + code * 2 ^ 28 + seq % 2 ^ 16))]),
    .raise (dmaPage e) (oneBit 0)]

/-- The code of DMA.KV_FAULT_SEQ for a status, 0 for none. -/
def kvCode : Status → Nat
  | .kvPageNone => 1
  | .kvPageFree => 2
  | .kvPageRange => 3
  | .shapeInvalid => 4
  | _ => 0

/-- The command ends with a status of R168, its fault recorded when the status is one of R148 or R149. What it has taken
from a census and not committed is given back (R168). -/
def Env.kvStop (v : Env) (st : Status) (page entry seq : Nat) : TileRes :=
  let code := kvCode st
  if code = 0 then .stop st none (.censusReset v.e)
  else .stop st (some (v.record 0x0208 (detailK page entry seq code))) (.all [.kvFault v.e page entry seq code, .censusReset v.e])

/-! ### Length tables (R146 to R148) -/

/-- An entry of a length table. -/
structure SeqEnt where
  q : Nat
  ctx : Nat
  start : Nat
  plist : Nat

def readSeq (b : List Byte) : SeqEnt := ⟨fieldAt b 0 4, fieldAt b 4 4, fieldAt b 8 4, fieldAt b 16 8⟩

/-- The entry breaks a limit of R148, sum being the rows of the entries up to it. -/
def badSeq (op sum : Nat) (b : List Byte) : Bool :=
  let s := readSeq b
  s.ctx > 16777215 || (op = opDecode && s.q > 16) || (op = opPrefill && s.q > 65536) ||
    (op = opAppend && (s.q = 0 || s.ctx < s.q)) || sum > 1048576 || s.plist % 4 ≠ 0 || dirty b 12 4 || dirty b 24 8

/-- The first entry that breaks a limit. -/
def firstBad (op i sum : Nat) : List (List Byte) → Option Nat
  | [] => none
  | b :: r => if badSeq op (sum + (readSeq b).q) b then some i else firstBad op (i + 1) (sum + (readSeq b).q) r

/-- A segment lies outside device memory. -/
def Seg.foreign (s : Seg) : Bool := match s.target with | .mem _ _ => false | _ => true

/-- Page-list entries are read on the snare path (R277, R332; DMA page). -/
def Upd.entriesRead (e n : Nat) : Upd := .all [.count (dmaPage e + 0x78) n, .event e 0x086 n, .snare e n 0 (4 * n)]

/-- The range of the length table, which belongs to the ranges of every tile (R231). -/
def Env.seqTable (v : Env) : Rng := ⟨v.fld 32 8, 32 * v.fld 40 4, 6, false⟩

/-- Before the first tile the length table is read whole and checked (R146, R148). A table behind a leaf that is not local is
refused before anything of it is read (R219). -/
def Device.readTable (d : Device) (v : Env) : TileRes :=
  let base := v.fld 32 8
  let n := v.fld 40 4
  let table : List Rng := [v.seqTable]
  match d.rangesOf v.ctx table with
  | .inl (f, stream) => v.xfault f stream
  | .inr l =>
    if (l.flatMap (·.2)).any Seg.foreign then v.xfault ⟨causeKey, base, 0⟩ 6
    else d.withReads v table fun bs l =>
      let segs := l.flatMap (·.2)
      let key := match segs.head? with
        | some ⟨_, .mem _ k, _, _⟩ => k
        | _ => 0
      let entries := pieces 32 (bs.headD [])
      match firstBad v.op 0 0 entries with
      | some i => .stop .shapeInvalid (some (v.record 0x0208 (detailK 0 0 i 4))) (.kvFault v.e 0 0 i 4)
      | none => .wait (.all [.touchSegs segs, .readEvents v.e segs, .lookups v.e v.ctx segs, .consume v.key,
          .snare v.e (snarePieces base (32 * n)) 0 (32 * n),
          .cur v.e v.s fun c => { c with stages := entries, keySlot := key }])

/-- The sequences of the running command, each with its number and its first row. -/
def seqsFrom (i row : Nat) : List (List Byte) → List (Nat × Nat × SeqEnt)
  | [] => []
  | b :: r => let s := readSeq b; (i, row, s) :: seqsFrom (i + 1) (row + s.q) r

/-- The positions that row i of a sequence may attend to, from one up to another (R147). -/
def attends (mode w : Nat) (s : SeqEnt) (i : Nat) : Nat × Nat :=
  if s.ctx + i < s.q then (0, 0)
  else
    let p := s.ctx + i - s.q
    (max s.start (if mode = 2 then p + 1 - w else 0), if mode = 1 then s.ctx else min s.ctx (p + 1))

/-- An interval of positions meets another. -/
def meets (a b : Nat × Nat) : Bool := a.1 < a.2 && b.1 < b.2 && a.1 < b.2 && b.1 < a.2

/-! ### The tiles of an attention command (R160, R166, R231) -/

/-- The attention of a descriptor. -/
structure Attn where
  hq : Nat
  hkv : Nat
  dim : Nat
  kvFmt : Fmt
  qFmt : Fmt
  pFmt : Fmt
  outFmt : Fmt
  splits : Nat
  flags : Nat
  kappa : FVal
  window : Nat
  vScale : FVal

def attnOf (x : List Byte) : Attn :=
  let f := fieldAt x
  let fmt (off : Nat) : Fmt := (fmtOf (f off 1)).getD .bf16
  { hq := f 44 2, hkv := f 46 2, dim := f 48 2, kvFmt := fmt 50, qFmt := fmt 51, pFmt := fmt 52, outFmt := fmt 53, splits := f 54 1,
    flags := f 55 1, kappa := f32 (f 56 4), window := f 60 4, vScale := f32 (f 104 4) }

def Attn.mode (a : Attn) : Nat := bits a.flags 3 2

/-- The bytes of a page (R134). -/
def pageLen (hkv dim : Nat) (f : Fmt) : Nat := 64 * hkv * dim * (f.width / 8)

/-- A tile: partition, first position, positions. -/
structure AttnTile where
  part : Nat
  first : Nat
  len : Nat
deriving DecidableEq

def AttnTile.span (t : AttnTile) : Nat × Nat := (t.first, t.first + t.len)

/-- All tiles of a sequence, partition by partition (R160). -/
def allTiles (splits : Nat) (s : SeqEnt) : List AttnTile :=
  let pages := ceilDiv s.ctx 32
  let c := ceilDiv pages splits
  (List.range splits).flatMap fun j =>
    let lo := min (j * c) pages
    let hi := min ((j + 1) * c) pages
    (cutAt ((hi - lo) / 4 + 2) 4 0 (hi - lo)).map fun p => ⟨j, 32 * (lo + p.1), 32 * p.2⟩

/-- The tiles of a sequence that some row attends to, in order; a sequence whose rows attend to nothing has one empty tile,
at which its rows end. -/
def Attn.tiles (a : Attn) (s : SeqEnt) : List AttnTile :=
  let rows := (List.range s.q).map (attends a.mode a.window s)
  let l := (allTiles a.splits s).filter fun t => rows.any (meets t.span)
  if s.q = 0 then [] else if l.isEmpty then [⟨0, 0, 0⟩] else l

/-- The tile under way: the sequence, its tiles, and the tile's index among them. -/
def findTile (a : Attn) (n : Nat) : List (Nat × Nat × SeqEnt) → Option ((Nat × Nat × SeqEnt) × List AttnTile × Nat)
  | [] => none
  | s :: r =>
    let l := a.tiles s.2.2
    if n < l.length then some (s, l, n) else findTile a (n - l.length) r

/-! ### Pages (R134, R135, R149, R150) -/

/-- The pages of a tile that some row attends to: the entries that are read (R149). -/
def Attn.needs (a : Attn) (s : SeqEnt) (t : AttnTile) : List Nat :=
  let rows := (List.range s.q).map (attends a.mode a.window s)
  (span (t.first / 32) (t.len / 32)).filter fun g => rows.any (meets (32 * g, 32 * g + 32))

/-- What the entries of needed pages call for: the statuses of R149 and R135 for the first page that fails, else the pages
not yet looked up. DESIGN CHOICE (log 130): where several pages of one tile fail, a status that the entry itself shows (NONE, POOL_OFF,
PAGE_SIZE) is taken before one that a LOOKUP of an earlier page would answer (FREE, RANGE). -/
def Device.pageCheck (d : Device) (v : Env) (len : Nat) : List (Nat × Nat) → (Status × Nat × Nat) ⊕ List (Nat × Nat)
  | [] => .inr []
  | (g, p) :: r =>
    if p = pageNone then .inl (.kvPageNone, p, g)
    else if !d.kvOn (pageRegion p) then .inl (.kvPoolOff, p, g)
    else if len > d.frameBytes (pageRegion p) then .inl (.kvPageSize, p, g)
    else match d.pageCheck v len r with
    | .inl x => .inl x
    | .inr l => .inr (if look v.cmd.looked p 0 = 0 then (g, p) :: l else l)

/-- The pages of entries are looked up, one LOOKUP for each; what follows when every frame is known. -/
def Device.withPages (d : Device) (v : Env) (seq len : Nat) (pages : List (Nat × Nat)) (k : TileRes) : TileRes :=
  match v.cmd.answers.find? fun a => a.2.status ≠ .ok with
  | some (op, a) => v.kvStop a.status op.page op.index op.seq
  | none =>
    if !v.cmd.asked.isEmpty then .wait .skip
    else match d.pageCheck v len pages with
    | .inl (st, p, g) => v.kvStop st p g seq
    | .inr [] => k
    | .inr l => .wait (.cur v.e v.s fun c => { c with
        asked := l.map fun p => { kind := 7, region := pageRegion p.2, page := p.2, index := p.1, seq := seq } })

/-- The frame of a page that has been looked up. -/
def Env.frame (v : Env) (p : Nat) : Nat := look v.cmd.looked p 0 - 1

/-- Element e of the key of head h at slot t, as a byte offset in its page; element n of its value (R134). -/
def keyOff (dim eb h t e : Nat) : Nat := (h * 32 * dim + t * dim + e) * eb
def valOff (hkv dim eb h t n : Nat) : Nat := 32 * hkv * dim * eb + (h * dim * 32 + n * 32 + t) * eb

/-- The key of head h at a slot of a page, and value element n of its 32 slots. -/
def pageKey (a : Attn) (page : List Byte) (h t : Nat) : List FVal :=
  let eb := a.kvFmt.width / 8
  (unpackElems a.kvFmt ((page.drop (keyOff a.dim eb h t 0)).take (a.dim * eb)) a.dim).map (decodeElem a.kvFmt)
def pageVals (a : Attn) (page : List Byte) (h n : Nat) : List FVal :=
  let eb := a.kvFmt.width / 8
  (unpackElems a.kvFmt ((page.drop (valOff a.hkv a.dim eb h 0 n)).take (32 * eb)) 32).map (decodeElem a.kvFmt)

/-! ### The arithmetic (R161 to R165) -/

/-- A partition's state: NAN_STATE, or the maximum, the sum and the vector. -/
structure AttnState where
  nan : Bool := false
  m : FVal := .inf true
  l : FVal := .zero
  o : List FVal := []

/-- A state as the numbers that a command keeps between tiles. -/
def AttnState.save (s : AttnState) : List Nat := (if s.nan then 1 else 0) :: s.m.bits32 :: s.l.bits32 :: s.o.map FVal.bits32
def AttnState.load (dim : Nat) (l : List Nat) : AttnState :=
  match l with
  | n :: m :: s :: o => ⟨n = 1, f32 m, f32 s, o.map f32⟩
  | _ => { o := List.replicate dim .zero }

/-- 1.0 in every scale. -/
def unitScales (n : Nat) : List Nat := (List.range (ceilDiv n 32)).map fun _ => 127

/-- One tile of R162 for a row and head: q is the row's head, live says which positions are unmasked; keys by position,
values by element. With the new state come the weights whose exact sum the row accumulator holds. -/
def attnStep (a : Attn) (st : AttnState) (q : List FVal) (live : List Bool) (keys vals : List (List FVal)) : AttnState × List FVal :=
  let ones := unitScales a.dim
  let s := (live.zip keys).map fun p =>
    if p.1 then accumulate (pathWith a.kvFmt a.qFmt) .zero q p.2 ones ones else .inf true
  if st.nan then (st, [])
  else if (live.zip s).any fun p => p.1 && (p.2.isNan || p.2 = .inf false) then ({ st with nan := true }, [])
  else
    let mn := s.foldl (fun m x => if m.lt x then x else m) st.m
    if mn = .inf true then (st, [])
    else
      let w (x : FVal) : FVal := exp2 (fmul (fsub x mn) a.kappa)
      let al := w st.m
      let p := s.map fun x => if x = .inf true then FVal.zero else decodeElem a.pFmt (encodeElem a.pFmt (w x))
      let l := fma st.l al (rowSum p)
      let ps := unitScales p.length
      let o := (st.o.zip vals).map fun ov => accumulate (pathWith a.kvFmt a.pFmt) (fmul ov.1 al) p ov.2 ps ps
      ({ st with m := mn, l := l, o := o }, p)

/-- Two states merged (R163). -/
def attnMerge (a : Attn) (x y : AttnState) : AttnState :=
  if x.nan || y.nan then { x with nan := true }
  else
    let m := if x.m.lt y.m then y.m else x.m
    if m = .inf true then { o := x.o.map fun _ => .zero }
    else
      let wa := exp2 (fmul (fsub x.m m) a.kappa)
      let wb := exp2 (fmul (fsub y.m m) a.kappa)
      { m := m, l := fma x.l wa (fmul y.l wb), o := (x.o.zip y.o).map fun p => fma p.1 wa (fmul p.2 wb) }

/-- States merged pairwise (R163); n bounds the levels. -/
def attnMergeAll (a : Attn) (n : Nat) (l : List AttnState) : AttnState :=
  match n, l with
  | _, [] => { o := List.replicate a.dim .zero }
  | _, [x] => x
  | 0, x :: _ => x
  | n + 1, l => attnMergeAll a n ((pieces 2 l).map fun p =>
      match p with
      | [x, y] => attnMerge a x y
      | [x] => x
      | _ => { o := List.replicate a.dim .zero })

/-- The outputs of a row's head, its record (R164, R165), and whether it attended to nothing. -/
def Device.attnFinal (d : Device) (a : Attn) (s : AttnState) : List FVal × List Byte × Bool :=
  let rec3 (m l z : Nat) : List Byte := toBytes 4 m ++ toBytes 4 l ++ toBytes 4 z ++ [0, 0, 0, 0]
  let nan := FVal.bits32 .nan
  if s.nan then (List.replicate a.dim .nan, rec3 nan nan nan, false)
  else if s.m = .inf true then (List.replicate a.dim .zero, rec3 0xFF800000 0 0xFF800000, true)
  else
    let r := d.apply1 1 s.l
    (s.o.map fun x => fmul (fmul x r) a.vScale,
      rec3 s.m.bits32 s.l.bits32 (fadd (fmul s.m a.kappa) (log2 s.l)).bits32, false)

/-! ### A tile of attention -/

/-- The key under which the state of a partition, row of its sequence and head is kept. -/
def attnKey (a : Attn) (part row h : Nat) : Nat := (part * 65536 + row) * a.hq + h

/-- Row i of a sequence ends at this tile: the last one that it attends to, or the first when it attends to none. -/
def rowEnds (a : Attn) (s : SeqEnt) (tiles : List AttnTile) (k i : Nat) : Bool :=
  let mine := (tiles.zip (List.range tiles.length)).filter fun t => meets t.1.span (attends a.mode a.window s i)
  match mine.getLast? with
  | some t => t.2 = k
  | none => k = 0

/-- The rows of a sequence that attend to positions of a tile, and those that end at it. -/
def Attn.live (a : Attn) (s : SeqEnt) (t : AttnTile) : List Nat :=
  (List.range s.q).filter fun i => meets t.span (attends a.mode a.window s i)
def Attn.ends (a : Attn) (s : SeqEnt) (tiles : List AttnTile) (k : Nat) : List Nat := (List.range s.q).filter (rowEnds a s tiles k)

/-- The ranges of a tile: list entries, queries, outputs, statistics, frequencies (R160, R232). -/
def Attn.ranges (a : Attn) (v : Env) (first : Nat) (s : SeqEnt) (tiles : List AttnTile) (k : Nat) (t : AttnTile) : List Rng :=
  let qLen := a.hq * a.dim * (a.qFmt.width / 8)
  let oLen := a.hq * a.dim * (a.outFmt.width / 8)
  let live := a.live s t
  let ends := a.ends s tiles k
  ((a.needs s t).map fun g => ⟨s.plist + 4 * g, 4, 6, false⟩) ++
  (live.map fun i => ⟨v.fld 64 8 + (first + i) * qLen, qLen, 2, false⟩) ++
  (ends.map fun i => ⟨v.fld 72 8 + (first + i) * oLen, oLen, 3, true⟩) ++
  (if bits a.flags 2 1 = 1 then ends.map fun i => ⟨v.fld 80 8 + 16 * (first + i) * a.hq, 16 * a.hq, 3, true⟩ else []) ++
  (if bits a.flags 0 1 = 1 && !live.isEmpty then [⟨v.fld 88 8, a.dim / 2 * 4, 2, false⟩] else [])

/-- The frames of a tile's pages, by page index, and the bytes of those that were read (R134). -/
def Device.tilePages (d : Device) (v : Env) (a : Attn) (t : AttnTile) (pages : List (Nat × Nat)) : List (Nat × Option (List Byte)) :=
  (span (t.first / 32) (t.len / 32)).map fun g =>
    (g, (pages.find? (·.1 = g)).map fun p => d.bytesAt v.cmd.keySlot (v.frame p.2) (pageLen a.hkv a.dim a.kvFmt))

/-- The keys of a head by position, and its values by element: positions beyond the context, and those of pages not read, hold zeros
(R150). -/
def tileKeys (a : Attn) (s : SeqEnt) (store : List (Nat × Option (List Byte))) (h : Nat) : List (List FVal) :=
  store.flatMap fun g => (List.range 32).map fun j =>
    match g.2 with
    | some b => if 32 * g.1 + j < s.ctx then pageKey a b h j else List.replicate a.dim .zero
    | none => List.replicate a.dim .zero
def tileVals (a : Attn) (s : SeqEnt) (store : List (Nat × Option (List Byte))) (h : Nat) : List (List FVal) :=
  (List.range a.dim).map fun n => store.flatMap fun g =>
    match g.2 with
    | some b => ((pageVals a b h n).zip (List.range 32)).map fun x => if 32 * g.1 + x.2 < s.ctx then x.1 else .zero
    | none => List.replicate 32 .zero

/-- The query of row i of a sequence and a head, from the bytes of its row: rotated and converted back where the command asks for it
(R159). -/
def Device.queryRow (d : Device) (a : Attn) (s : SeqEnt) (freqs : List FVal) (i : Nat) (b : List Byte) (h : Nat) : List FVal :=
  let eq := a.qFmt.width / 8
  let x := (unpackElems a.qFmt ((b.drop (h * a.dim * eq)).take (a.dim * eq)) a.dim).map (decodeElem a.qFmt)
  if bits a.flags 0 1 = 1 then
    (d.rotateHead (bits a.flags 1 1 = 1) (s.ctx + i - s.q) freqs x).map fun y => decodeElem a.qFmt (encodeElem a.qFmt y)
  else x

/-- A key-value page is read by the block DMA engine: it meets its controller and counts (R212, R332). -/
def Upd.pageRead (e frame len : Nat) : Upd := .all [.touch frame len, .memRead e frame]

/-- One tile of one sequence (R162, R167, R231), its pages known. -/
def Device.attnTile (d : Device) (v : Env) (a : Attn) (first : Nat) (s : SeqEnt) (tiles : List AttnTile) (k : Nat) (t : AttnTile)
    (pages : List (Nat × Nat)) (last : Bool) : TileRes :=
  let L := pageLen a.hkv a.dim a.kvFmt
  let ends := a.ends s tiles k
  let live := a.live s t
  let stats := bits a.flags 2 1 = 1
  let rotary := bits a.flags 0 1 = 1
  let np := (a.needs s t).length
  -- the frames are read under the key slot of the command's context, which must hold a key (R219)
  match (if d.keyGen v.cmd.keySlot = 0 then pages.head? else none), pages.findSome? fun p => d.ueIn (v.frame p.2) L with
  | some p, _ => v.noKey (v.frame p.2) 4
  | none, some pa => v.memUe pa 4 (.touch pa 64)
  | none, none =>
    d.tile v (a.ranges v first s tiles k t) fun bs =>
      let freqs := vector false (bs.getD (np + live.length) []) (a.dim / 2)
      let store := d.tilePages v a t pages
      let kv := (List.range a.hkv).map fun h => (tileKeys a s store h, tileVals a s store h)
      let steps := (live.zip (bs.drop np)).flatMap fun r => (List.range a.hq).map fun h =>
        let key := attnKey a t.part r.1 h
        let (lo, hi) := attends a.mode a.window s r.1
        let (ks, vs) := kv.getD (h * a.hkv / a.hq) ([], [])
        let st := AttnState.load a.dim (look v.cmd.accs key [])
        (key, (attnStep a st (d.queryRow a s freqs r.1 r.2 h) ((span t.first t.len).map fun x => lo ≤ x && x < hi) ks vs))
      let accs := steps.foldl (fun m x => put m x.1 x.2.1.save []) v.cmd.accs
      let finals := ends.map fun i => (i, (List.range a.hq).map fun h =>
        d.attnFinal a (attnMergeAll a 5 ((List.range a.splits).map fun j => AttnState.load a.dim (look accs (attnKey a j i h) []))))
      let rowOut (i : Nat) (hs : List (List FVal × List Byte × Bool)) : RowOut :=
        let row := first + i
        let b := encodeRow a.outFmt (hs.flatMap (·.1)) (rowRand (bits a.flags 5 1 = 1) (v.fld 96 8) (row * a.hq * a.dim) (a.hq * a.dim))
        { bytes := b.1, stats := if stats then hs.flatMap (·.2.1) else [], narrow := b.2,
          status := if hs.any (·.2.2) then emptyRow else 0 }
      let outs := finals.map fun f => (first + f.1, rowOut f.1 f.2)
      let cleared := finals.foldl (fun m f => (List.range a.splits).foldl (fun m j =>
        (List.range a.hq).foldl (fun m h => put m (attnKey a j f.1 h) [] []) m) m) accs
      { writes := (outs.map fun o => o.2.bytes) ++ (if stats then outs.map fun o => o.2.stats else []),
        extra := .all [
          .cur v.e v.s fun c => { c with accs := cleared },
          .each outs fun o => .noteRow v o.1 o.2,
          .each pages fun p => .pageRead v.e (v.frame p.2) L,
          (match steps.getLast? with
            | some x => .rowStats v.e { sums := [x.2.2], regs := [(regMax, x.2.1.m)] }
            | none => .skip),
          (match ends.getLast?, steps.getLast? with
            | some _, some x => .rowStats v.e { regs := [(regRecip, d.apply1 1 x.2.1.l)] }
            | _, _ => .skip),
          .count (dmaPage v.e + 0x70) pages.length, .event v.e 0x085 pages.length, .moved v.e (L * pages.length) 0,
          .entriesRead v.e np,
          .when rotary (.countFn v.e v.s 12 (live.length * a.hq * (a.dim / 2))),
          .countRom v.e v.s (live.length * a.hq * (t.len + 1)) 0, .countRom v.e v.s 0 (if stats then ends.length * a.hq else 0),
          .countFn v.e v.s 1 (ends.length * a.hq)],
        last := last }

/-- A tile of ATTN_PREFILL or ATTN_DECODE. -/
def tileAttn (d : Device) (v : Env) : TileRes :=
  let a := attnOf v.cmd.desc
  if v.cmd.stages.isEmpty then d.readTable v
  else
    let seqs := seqsFrom 0 0 v.cmd.stages
    match findTile a v.cmd.done seqs with
    | none => .last .skip
    | some ((i, first, s), tiles, k) =>
      let t := tiles.getD k ⟨0, 0, 0⟩
      let last := (findTile a (v.cmd.done + 1) seqs).isNone
      let need := a.needs s t
      -- all of the tile's ranges have their translations before any of it is read (R232)
      match d.rangesOf v.ctx (v.seqTable :: a.ranges v first s tiles k t) with
      | .inl (f, stream) => v.xfault f stream
      | .inr _ => d.withReads v (need.map fun g => ⟨s.plist + 4 * g, 4, 6, false⟩) fun bs _ =>
        let pages := need.zip (bs.map fromBytes)
        d.withPages v i (pageLen a.hkv a.dim a.kvFmt) pages (d.attnTile v a first s tiles k t pages last)

/-- What the guard check of an attention tile forms, from its first row and head against the keys of that head (R100, R101, R162):
as for a matrix pass. -/
def attnProbe : GuardProbe := fun d v cell stage =>
  let a := attnOf v.cmd.desc
  match findTile a v.cmd.done (seqsFrom 0 0 v.cmd.stages) with
  | none => none
  | some ((_, first, s), tiles, k) =>
    let t := tiles.getD k ⟨0, 0, 0⟩
    let need := a.needs s t
    let live := a.live s t
    match d.rangesOf v.ctx (a.ranges v first s tiles k t) with
    | .inl _ => none
    | .inr l => match d.readRanges v.key (d.ownerOf v.ctx) (l.filter (!·.1.write)) with
      | .inr (_, false, bs) =>
        let freqs := vector false (bs.getD (need.length + live.length) []) (a.dim / 2)
        let keys := tileKeys a s (d.tilePages v a t (need.zip (bs.map fromBytes))) 0
        guardProbe d v cell stage (pathWith a.kvFmt a.qFmt)
          ((live.take 1).map fun i => (0, d.queryRow a s freqs i (bs.getD need.length []) 0)) keys
      | _ => none

/-- The units of an attention tile. -/
def attnUnits : Units := { rowUnits with probe := attnProbe }

/-- ATTN_PREFILL (R151, R162, R167). -/
def execAttnPrefill (e n : Nat) (s : State) : Host.Outcome State Fault Refusal :=
  s.act (.attnPrefill e n) (.tiles e n [opPrefill] tileAttn attnUnits)

/-- ATTN_DECODE (R151, R162). -/
def execAttnDecode (e n : Nat) (s : State) : Host.Outcome State Fault Refusal :=
  s.act (.attnDecode e n) (.tiles e n [opDecode] tileAttn attnUnits)

/-! ### KV_APPEND (R154, R155) -/

/-- The page write under way: sequence number, first row, entry, page index. -/
def findPage (n : Nat) : List (Nat × Nat × SeqEnt) → Option (Nat × Nat × SeqEnt × Nat)
  | [] => none
  | (i, row, s) :: r =>
    let lo := (s.ctx - s.q) / 32
    let k := (s.ctx - 1) / 32 + 1 - lo
    if n < k then some (i, row, s, lo + n) else findPage (n - k) r

/-- A new token's stored elements: key and value patterns (R154). -/
def Device.tokenElems (d : Device) (x : List Byte) (pos : Nat) (freqs : List FVal) (kRow vRow : List Byte) : List Nat × List Nat :=
  let f := fieldAt x
  let hkv := f 44 2
  let dim := f 46 2
  let fmt := (fmtOf (f 48 1)).getD .bf16
  let flags := f 50 1
  let ks := rowValues (f 49 1) kRow (hkv * dim)
  let vs := rowValues (f 49 1) vRow (hkv * dim)
  let ks := if bits flags 0 1 = 1 then (pieces dim ks).flatMap (d.rotateHead (bits flags 1 1 = 1) pos freqs) else ks
  let rand (i k : Nat) : Option Nat :=
    if bits flags 2 1 = 1 then some (roundingWord (f 88 8) ((pos * hkv * dim + i) * 2 + k)) else none
  let conv (scale : FVal) (k : Nat) (l : List FVal) : List Nat :=
    (l.zip (List.range l.length)).map fun p => encodeElem fmt (fmul p.1 scale) (rand p.2 k)
  (conv (f32 (f 52 4)) 0 ks, conv (f32 (f 56 4)) 1 vs)

/-- The bytes that a token puts into its page, by offset (R134). -/
def tokenWrites (hkv dim : Nat) (fmt : Fmt) (slot : Nat) (ks vs : List Nat) : List (Nat × List Byte) :=
  let eb := fmt.width / 8
  ((List.range hkv).map fun h => (keyOff dim eb h slot 0, packElems fmt ((ks.drop (h * dim)).take dim))) ++
  ((List.range hkv).flatMap fun h => (List.range dim).map fun n => (valOff hkv dim eb h slot n, toBytes eb (vs.getD (h * dim + n) 0)))

/-- Bytes of a page written over a copy of it. -/
def patch (page : List Byte) (w : List (Nat × List Byte)) : List Byte :=
  w.foldl (fun p x => p.take x.1 ++ x.2 ++ p.drop (x.1 + x.2.length)) page

/-- Asks the census for an operation. -/
def Upd.ask (v : Env) (op : CensusOp) : Upd := .cur v.e v.s fun c => { c with asked := c.asked ++ [op] }

/-- The new tokens of a page: position, key patterns, value patterns. bs holds the key rows, the value rows, the
frequencies. -/
def Device.newTokens (d : Device) (x : List Byte) (lo n : Nat) (bs : List (List Byte)) : List (Nat × List Nat × List Nat) :=
  let freqs := vector false (bs.getD (2 * n) []) (fieldAt x 46 2 / 2)
  (List.range n).map fun j => (lo + j, d.tokenElems x (lo + j) freqs (bs.getD j []) (bs.getD (n + j) []))

/-- The page's bytes written into a frame: the tokens' own bytes, or a patched copy of the old page (R155); with the counts
of the DMA page, and the tokens' part of the canonical stream (R318). -/
def Device.writeTokens (d : Device) (v : Env) (i frame : Nat) (copyOf : Option Nat) (toks : List (Nat × List Nat × List Nat))
    (w : List (Nat × List Byte)) : Upd :=
  let f := fieldAt v.cmd.desc
  let fmt := (fmtOf (f 48 1)).getD .bf16
  let row := f 44 2 * f 46 2
  let L := pageLen (f 44 2) (f 46 2) fmt
  let moved := 2 * toks.length * row * (fmt.width / 8)
  .all [
    (match copyOf with
      | some old => .all [.pageRead v.e old L, .write v.cmd.keySlot frame (patch (d.bytesAt v.cmd.keySlot old L) w), .count (kvpPage (v.e / 8) + 0xD0)]
      | none => .each w fun x => .write v.cmd.keySlot (frame + x.1) x.2),
    .each toks fun t => .digest v (i * 2 ^ 24 + t.1) (packElems fmt t.2.1 ++ packElems fmt t.2.2),
    .count (dmaPage v.e + 0x80) (moved / 2), .when copyOf.isSome (.all [.count (dmaPage v.e + 0x70), .event v.e 0x085 1]),
    .moved v.e (if copyOf.isSome then L else 0) moved,
    .when (bits (f 50 1) 0 1 = 1) (.countFn v.e v.s 12 (toks.length * row / 2))]

/-- One page of KV_APPEND (R155): its entry is looked up, a frame is leased or allocated, the tokens are written, and the
lease is released or the new page committed. -/
def Device.appendPage (d : Device) (v : Env) (i row : Nat) (s : SeqEnt) (g : Nat) (last : Bool) : TileRes :=
  let f := fieldAt v.cmd.desc
  let hkv := f 44 2
  let dim := f 46 2
  let fmt := (fmtOf (f 48 1)).getD .bf16
  let L := pageLen hkv dim fmt
  let inLen := codeBytes (f 49 1) (hkv * dim)
  let lo := max (s.ctx - s.q) (32 * g)
  let n := min s.ctx (32 * g + 32) - lo
  let rowOf (j : Nat) : Nat := row + (lo + j - (s.ctx - s.q))
  let entry : Rng := ⟨s.plist + 4 * g, 4, 6, true⟩
  let ranges : List Rng :=
    [{ entry with write := false }] ++ ((List.range n).map fun j => ⟨f 64 8 + rowOf j * inLen, inLen, 2, false⟩) ++
    ((List.range n).map fun j => ⟨f 72 8 + rowOf j * inLen, inLen, 2, false⟩) ++
    (if bits (f 50 1) 0 1 = 1 then [⟨f 80 8, dim / 2 * 4, 2, false⟩] else [])
  let op (kind p : Nat) : CensusOp := { kind := kind, region := pageRegion p, page := p, index := g, seq := i, len := L }
  match v.cmd.answers.find? fun a => a.2.status ≠ .ok with
  | some (x, a) => v.kvStop a.status x.page x.index x.seq
  | none =>
    if !v.cmd.asked.isEmpty then .wait .skip
    else if v.cmd.answers.any fun a => a.1.kind = 2 || a.1.kind = 4 then (if last then .last .skip else .next .skip)
    else match d.rangesOf v.ctx (v.seqTable :: entry :: ranges.drop 1) with
    | .inl (x, stream) => v.xfault x stream
    | .inr el =>
      d.withReads v ranges fun bs l =>
        let segs := l.flatMap (·.2)
        let target := match el with
          | _ :: (_, sg :: _) :: _ => sg
          | _ => ⟨0, .mem 0 0, 0, 0⟩
        let now := fromBytes (bs.headD [])
        -- the page that the entry held when its write began
        let old := match v.cmd.answers.head? with
          | none => now
          | some (x, _) => if x.kind = 7 then x.page else pageNone
        let alloc : CensusOp := { kind := 1, region := v.e / 8, keySlot := v.cmd.keySlot, prefer := bits (f 50 1) 3 1 = 1, index := g, seq := i, len := L }
        let askAlloc : TileRes :=
          if !d.kvOn (v.e / 8) then v.kvStop .kvPoolOff pageNone g i
          else if L > d.frameBytes (v.e / 8) then v.kvStop .kvPageSize pageNone g i
          else .wait (.all [.when v.cmd.answers.isEmpty (.entriesRead v.e 1), .ask v alloc])
        let write (frame : Nat) (copyOf : Option Nat) (next : CensusOp) : TileRes :=
          let toks := d.newTokens v.cmd.desc lo n (bs.drop 1)
          let w := toks.flatMap fun t => tokenWrites hkv dim fmt (t.1 % 32) t.2.1 t.2.2
          let u : Upd := .all [
            .touchSegs segs, .readEvents v.e segs, .lookups v.e v.ctx segs, .consume v.key, d.writeTokens v i frame copyOf toks w]
          let stop (pa stream : Nat) (u : Upd) : TileRes :=
            .stop .memUe (some { v.record 0x020B (detailA pa) with addr := some (2, pa), stream := stream, injected := true }) (.all [u, .censusReset v.e])
          if d.keyGen v.cmd.keySlot = 0 then v.noKey (copyOf.getD frame) (if copyOf.isSome then 4 else 5)
          else match copyOf.bind fun p => d.ueIn p L with
          | some pa => stop pa 4 (.touch pa 64)
          | none =>
            match (if copyOf.isSome then none else w.findSome? fun x => d.writeUe (frame + x.1) x.2.length) with
            | some pa => stop pa 5 u
            | none => .part (.all [u, .ask v next])
        let found (kind : Nat) : Option (CensusOp × CensusAns) := v.cmd.answers.find? fun a => a.1.kind = kind
        match found 1, found 3, found 7 with
        | some (_, a), _, _ =>
          -- the page was parked meanwhile: its frame is to be looked up again (R145)
          if old ≠ pageNone && look v.cmd.looked old 0 = 0 then .wait (.ask v (op 7 old))
          else write a.frame (if old = pageNone then none else some (v.frame old))
            { op 2 old with region := v.e / 8, entry := target.target, va := target.va, log2 := target.log2, seen := now, page2 := a.page }
        | none, some (x, a), _ => write a.frame none (op 4 x.page)
        | none, none, some (x, a) => if a.refcnt = 1 then .wait (.ask v (op 3 x.page)) else askAlloc
        | none, none, none =>
          if now = pageNone then askAlloc
          else if !d.kvOn (pageRegion now) then v.kvStop .kvPoolOff now g i
          else if L > d.frameBytes (pageRegion now) then v.kvStop .kvPageSize now g i
          else .wait (.all [.entriesRead v.e 1, .ask v (op 7 now)])

/-- A tile of KV_APPEND. -/
def tileAppend (d : Device) (v : Env) : TileRes :=
  if v.cmd.stages.isEmpty then d.readTable v
  else
    let seqs := seqsFrom 0 0 v.cmd.stages
    match findPage v.cmd.done seqs with
    | none => .last .skip
    | some (i, row, s, g) => d.appendPage v i row s g (findPage (v.cmd.done + 1) seqs).isNone

/-- The units of a page write: they are used where its tokens are rotated, converted and written, which its end follows. -/
def appendUnits : Units where
  use := fun d v => if v.cmd.piece = 0 then d.opUse v.op v.cmd.desc else { op := opNop, desc := [] }

/-- KV_APPEND (R152, R154, R155). -/
def execKvAppend (e n : Nat) (s : State) : Host.Outcome State Fault Refusal :=
  s.act (.kvAppend e n) (.tiles e n [opAppend] tileAppend appendUnits)

/-! ### KV_FORK and KV_FREE (R157, R158) -/

/-- The answer of the one census operation of a list entry: the command stops at the entry, or goes on. The fault registers
name the page and the entry; the spec gives no sequence for these commands, and the field is a free value (log 48). -/
def Env.entryDone (v : Env) (op : CensusOp) (a : CensusAns) (last : Bool) : TileRes :=
  if a.status = .ok then (if last then .last .skip else .next .skip)
  else if kvCode a.status = 0 then .stop a.status none .skip
  else v.kvStop a.status op.page op.index op.seq

/-- The free value that stands for the sequence of a fault of KV_FORK or KV_FREE: drawn when the operation is asked for. -/
def Upd.askEntry (v : Env) (op : CensusOp) : Upd :=
  .draw fun n => .ask v { op with seq := (Config.freshWord n).toNat % 65536 }

/-- Where an entry lies that a command may write, or the fault of its translation. DESIGN CHOICE (log 148): an entry of KV_FORK or
KV_FREE whose address is no multiple of 4 is read and written where it lies; one that straddles two pages ends as UNMAPPED. -/
def Device.entryTarget (d : Device) (v : Env) (va : Nat) : (XFault × Nat) ⊕ Seg :=
  match d.rangesOf v.ctx [⟨va, 4, 6, true⟩] with
  | .inl f => .inl f
  | .inr [(_, sg :: _)] => .inr sg
  | .inr _ => .inl (⟨causeUnmapped, va, 0⟩, 6)

/-- One list entry of KV_FORK. -/
def tileFork (d : Device) (v : Env) : TileRes :=
  let per := ceilDiv (v.fld 48 4) 32
  let total := per * v.fld 56 2
  let k := v.cmd.done / per
  let g := v.cmd.done % per
  let src := v.fld 32 8 + k * v.fld 60 4 + 4 * g
  let dst := v.fld 40 8 + k * v.fld 60 4 + 4 * g
  match v.cmd.answers with
  | (op, a) :: _ => v.entryDone op a (total ≤ v.cmd.done + 1)
  | [] =>
    if !v.cmd.asked.isEmpty then .wait .skip
    else match d.rangesOf v.ctx [⟨src, 4, 6, false⟩], d.entryTarget v dst with
      | .inl (x, stream), _ => v.xfault x stream
      | .inr _, .inl (x, stream) => v.xfault x stream
      | .inr _, .inr t =>
        d.withReads v [⟨src, 4, 6, false⟩, ⟨dst, 4, 6, false⟩] fun bs l =>
          let p := fromBytes (bs.headD [])
          .wait (.all [.touchSegs (l.flatMap (·.2)), .readEvents v.e (l.flatMap (·.2)), .lookups v.e v.ctx (l.flatMap (·.2)), .consume v.key, .entriesRead v.e 1,
            .cur v.e v.s fun c => { c with tileIssued := true },
            .askEntry v { kind := 5, region := if p = pageNone then v.e / 8 else pageRegion p, entry := t.target, va := t.va, log2 := t.log2,
                          seen := fromBytes (bs.getD 1 []), page := p, index := g }])

/-- KV_FORK (R153, R157). -/
def execKvFork (e n : Nat) (s : State) : Host.Outcome State Fault Refusal := s.act (.kvFork e n) (.tiles e n [opFork] tileFork)

/-- One list entry of KV_FREE. -/
def tileFree (d : Device) (v : Env) : TileRes :=
  let per := v.fld 52 4
  let total := per * v.fld 56 2
  let k := v.cmd.done / per
  let g := v.fld 48 4 + v.cmd.done % per
  let va := v.fld 32 8 + k * v.fld 60 4 + 4 * g
  match v.cmd.answers with
  | (op, a) :: _ => v.entryDone op a (total ≤ v.cmd.done + 1)
  | [] =>
    if !v.cmd.asked.isEmpty then .wait .skip
    else match d.entryTarget v va with
    | .inl (x, stream) => v.xfault x stream
    | .inr t =>
      d.withReads v [⟨va, 4, 6, false⟩] fun bs l =>
        let p := fromBytes (bs.headD [])
        .wait (.all [.touchSegs (l.flatMap (·.2)), .readEvents v.e (l.flatMap (·.2)), .lookups v.e v.ctx (l.flatMap (·.2)), .consume v.key, .entriesRead v.e 1,
          .cur v.e v.s fun c => { c with tileIssued := true },
          .askEntry v { kind := 6, region := if p = pageNone then v.e / 8 else pageRegion p, entry := t.target, va := t.va,
                        log2 := t.log2, seen := p, page := p, index := g }])

/-- KV_FREE (R153, R158). -/
def execKvFree (e n : Nat) (s : State) : Host.Outcome State Fault Refusal := s.act (.kvFree e n) (.tiles e n [opFree] tileFree)

end Sys2Proof.Machine
end

