-- ==== Sys2Proof/Machine/BellStore.lean ====
section
/-! DEFINITION. Bells: the bell stores, the carillon, waiting and waking, and the commands that signal and wait
(01_architecture.md R26 to R30, 08_commands.md R251, R252, 09_bells_links.md R280 to R288, R310). -/

namespace Sys2Proof.Machine

/-! ### The store (R282, R283, R287) -/

/-- A bell's counter. -/
def Device.bell (d : Device) (b : Nat) : Word64 := look d.bl.bells b 0

/-- A bell's counter takes a value: the one update that changes bells. -/
def Upd.setBell (b : Nat) (v : Word64) : Upd :=
  ⟨fun d => { d with bl := { d.bl with bells := put d.bl.bells b v 0 } },
   fun _ h => ⟨h.mem, h.pop, h.regs, put_canon (d := fun _ => (0 : Word64)) h.bells b v, h.keys⟩, fun _ => Fuses.Before.refl _⟩

/-- A bell's counter is damaged or whole. -/
def Upd.damageBell (b : Nat) (e : Option LineErr) : Upd :=
  .of fun d => { d with bl := { d.bl with damaged :=
    (d.bl.damaged.filter (·.1 ≠ b)) ++ (match e with | none => [] | some e => [(b, e)]) } }

/-- The region of a bell and of an engine. -/
def bellRegion (b : Nat) : Nat := b / 32768

/-- An egress queue of the carillon (R34); the queue from a region to itself holds the operations of its own engines. -/
def Device.egress (d : Device) (src dst : Nat) : List CarMsg := look d.bl.egress (src * 4 + dst) []
def Device.wakes (d : Device) (src dst : Nat) : List CarMsg := look d.bl.wakes (src * 4 + dst) []
def Upd.egress (src dst : Nat) (f : List CarMsg → List CarMsg) : Upd :=
  .of fun d => { d with bl := { d.bl with egress := put d.bl.egress (src * 4 + dst) (f (d.egress src dst)) [] } }
def Upd.wakes (src dst : Nat) (f : List CarMsg → List CarMsg) : Upd :=
  .of fun d => { d with bl := { d.bl with wakes := put d.bl.wakes (src * 4 + dst) (f (d.wakes src dst)) [] } }

/-- The WAKE of a watch entry. -/
def Watch.wakeMsg (w : Watch) : CarMsg :=
  { op := .wake, engine := w.slot / 8, slot := w.slot % 8, index := w.bell % 32768, cond := w.cond, tag := w.tag }

/-- A met watch sends its WAKE and is freed; without a wake credit, or with a full egress queue, it waits (R28, R283). -/
def Upd.sendWake (w : Watch) : Upd :=
  .read fun d =>
    let src := bellRegion w.bell
    let dst := w.slot / 64
    let used := look d.bl.wakeUsed (src * 4 + dst) 0
    if src ≠ dst ∧ (used ≥ 16 ∨ (d.wakes src dst).length ≥ 16) then
      .of fun d => { d with bl := { d.bl with watches := d.bl.watches.map fun x => if x = w then { x with woken := true } else x } }
    else .all [
      .of fun d => { d with bl := { d.bl with
        watches := d.bl.watches.filter (· ≠ w),
        wakeUsed := if src = dst then d.bl.wakeUsed else put d.bl.wakeUsed (src * 4 + dst) (used + 1) 0 } },
      .wakes src dst (· ++ [w.wakeMsg]), .count (belPage src + 0x90)]

/-- The watches of a bell are compared with its counter (R283). -/
def Upd.checkWatches (b : Nat) : Upd :=
  .read fun d => .each (d.bl.watches.filter fun w => w.bell = b && !w.woken && w.value ≤ d.bell b) .sendWake

/-- A bell's counter can be read (R287). -/
def Device.bellWhole (d : Device) (b : Nat) : Bool := !(d.bl.damaged.any fun p => p.1 = b && p.2 = .uncorrectable)

/-- A bell is read by its store: the operation goes on unless the counter is uncorrectable, which resets the device
(R287); a corrected counter is counted and whole again. -/
def Upd.bellAccess (b : Nat) (k : Upd) : Upd :=
  .read fun d =>
    let page := belPage (bellRegion b)
    let detail (r : FaultRec) : FaultRec := { r with detail := detailN (b % 32768) }
    match d.bl.damaged.find? (·.1 = b) with
    | some (_, .uncorrectable) => .deviceError page 1 (detail (regionRec 0x0304 (bellRegion b))) true
    | some (_, .corrected) => .all [.damageBell b none, .error page 0 (detail (regionRec 0x0303 (bellRegion b))) true true, k]
    | none => k

/-- A counter is written (the injections of the BEL page act here), and its watches are checked. -/
def Upd.bellWrite (b : Nat) (v : Word64) : Upd :=
  let page := belPage (bellRegion b)
  .all [.setBell b v,
    .inject page 0 fun a => .when a (.damageBell b (some .corrected)),
    .inject page 1 fun a => .when a (.damageBell b (some .uncorrectable)),
    .checkWatches b]

/-- SIGNAL(v): the larger of the counter and v (R282). -/
def Upd.bellSignal (b : Nat) (v : Word64) : Upd :=
  .bellAccess b (.read fun d => .all [.bellWrite b (if d.bell b < v then v else d.bell b), .count (belPage (bellRegion b) + 0x80)])

/-- ADD(d): the sum modulo 2^64 (R282). -/
def Upd.bellAdd (b : Nat) (v : Word64) : Upd :=
  .bellAccess b (.read fun d => .all [.bellWrite b (d.bell b + v), .count (belPage (bellRegion b) + 0x80)])

/-- RESET(v) (R282). -/
def Upd.bellReset (b : Nat) (v : Word64) : Upd := .bellAccess b (.bellWrite b v)

/-- A watch is registered and compared with the counter as it stands (R283). -/
def Upd.register (w : Watch) : Upd :=
  .bellAccess w.bell (.all [
    .of fun d => { d with bl := { d.bl with watches := d.bl.watches ++ [w] } },
    .count (belPage (bellRegion w.bell) + 0x88), .checkWatches w.bell])

/-! ### The carillon (R27 to R30, R288) -/

/-- Carillon messages of an engine to a region that hold a credit (R28). -/
def Device.carUsed (d : Device) (e dst : Nat) : Nat := look d.bl.credits (e * 4 + dst) 0

/-- The engine may put a message to a region into the egress queue (R28); its own region takes no credit (R286). -/
def Device.carFree (d : Device) (e dst : Nat) : Bool :=
  e / 8 = dst || (d.carUsed e dst < 3 && !(d.bl.backlog.any fun p => p.2.engine = e && p.1 = dst))

/-- A SIGNAL merged into the last waiting operation on its bell, if that is a SIGNAL (R29). -/
def mergeSignal (q : List CarMsg) (m : CarMsg) : Option (List CarMsg) :=
  match q with
  | [] => none
  | x :: r =>
    match mergeSignal r m with
    | some r' => some (x :: r')
    | none =>
      if x.index = m.index ∧ (x.op = .signal ∨ x.op = .add) ∧ !(r.any fun y => y.index = m.index && (y.op = .signal || y.op = .add))
      then (if x.op = .signal then some ({ x with value := if x.value < m.value then m.value else x.value } :: r) else none)
      else none

/-- A message enters the egress queue and takes a credit, or waits in its engine for one (R28, R29), behind those that wait there. -/
def Upd.carry (dst : Nat) (m : CarMsg) : Upd :=
  .read fun d =>
    let src := m.engine / 8
    let waits : Bool := d.bl.backlog.any fun p => p.2.engine = m.engine && p.1 = dst
    if src = dst then .egress src dst (· ++ [m])
    else match (if m.op = .signal && !waits then mergeSignal (d.egress src dst) m else none) with
    | some q => .all [.egress src dst fun _ => q, .count (nocPage src + 0xA8)]
    | none =>
      if d.carFree m.engine dst then .all [
        .egress src dst (· ++ [m]),
        .of fun d => { d with bl := { d.bl with credits := put d.bl.credits (m.engine * 4 + dst) (d.carUsed m.engine dst + 1) 0 } }]
      else .of fun d => { d with bl := { d.bl with backlog := d.bl.backlog ++ [(dst, m)] } }

/-- A SIGNAL of a command to a bell, by its name as decode read it: over the carillon, or over the links for another device
(R280, R297). -/
def Upd.sendSignal (e s n : Nat) (v : Word64) : Upd :=
    if bits n 31 1 = 1 then .request (slotKey e s) .bell (bits n 18 13) (bits n 0 17) 0 8 (toBytes 8 v.toNat)
    else .carry (bits n 15 2) { op := .signal, engine := e, slot := s, index := bits n 0 15, value := v }

/-- The requests that the bells of other devices among some names make: destination and size (R297). -/
def remoteBells (names : List Nat) : List (Nat × Nat) := (names.filter fun n => bits n 31 1 = 1).map fun n => (bits n 18 13, 32)

/-- A SIGNAL to a bell name can be sent now: credits for the carillon, room in the retry store for another device. -/
def Device.canSignal (d : Device) (e n : Nat) : Bool :=
  if bits n 31 1 = 1 then d.retryRoom (bits n 18 13) 32
  else
    let dst := bits n 15 2
    d.carFree e dst || (!(d.bl.backlog.any fun p => p.2.engine = e && p.1 = dst) && (mergeSignal (d.egress (e / 8) dst) { op := .signal, engine := e, index := bits n 0 15 }).isSome)

/-- A message that failed its check n times before it arrived: the retries are counted at the receiver, and 8 in a row
call for a device reset (R26, R27). An injection fails the next one from the lowest-numbered source region 8 times (NOC page). -/
def Upd.carRetries (src dst fails : Nat) (k : Upd) : Upd :=
  let inject (u : Bool → Upd) : Upd := if src = (if dst = 0 then 1 else 0) then .inject (nocPage dst) 0 u else u false
  inject fun inj =>
    let n := if inj then 8 else min fails 8
    .all [.count (nocPage dst + 0xA0) n,
      if n ≥ 8 then .deviceError (nocPage dst) 0 { regionRec 0x030D dst with detail := detailN src } inj else k]

/-- The block that the second update port of a region's store serves next: in rotation among those with an operation pending
(R286). -/
def Device.nextBlock (d : Device) (r : Nat) : Option Nat :=
  let last := look d.bl.served r 0
  let waits (b : Nat) : Bool := (d.egress r r).any fun m => m.engine % 8 = b
  ((List.range 9).map fun i => (last + 1 + i) % 9).find? waits

/-- The message that arrives next from a region at a store: the oldest over the carillon; of the region's own blocks, the oldest of
the block whose turn it is (R286). -/
def Device.nextMsg (d : Device) (src dst : Nat) : Option CarMsg :=
  if src = dst then (d.nextBlock src).bind fun b => (d.egress src src).find? fun m => m.engine % 8 = b
  else (d.egress src dst).head?

/-- The second update port has served a source (R286). -/
def Upd.serve (r source : Nat) : Upd := .of fun d => { d with bl := { d.bl with served := put d.bl.served r source 0 } }

/-- The next message of a region arrives, when it is of the given kind: it is applied at the destination's store (R282, R286,
R288). The stores act while the device is up and the gong is not active. -/
def Upd.deliver (src dst fails : Nat) (op : CarOp) : Upd :=
  .read fun d =>
    match d.nextMsg src dst with
    | none => .skip
    | some m =>
      if m.op ≠ op || !d.up || !d.unheld then .skip
      else
        let b := dst * 32768 + m.index
        let apply : Upd := match m.op with
          | .signal => .bellSignal b m.value
          | .add => .bellAdd b m.value
          | .watch => .register { bell := b, slot := m.engine * 8 + m.slot, cond := m.cond, value := m.value, tag := m.tag }
          | .unwatch => .of fun d => { d with bl := { d.bl with watches := d.bl.watches.filter fun w =>
              !(w.bell = b && w.slot = m.engine * 8 + m.slot && w.cond = m.cond) } }
          | .wake => .skip
        let arrived := Upd.all [.egress src dst (·.erase m), .when (src = dst) (.serve src (m.engine % 8)), apply]
        if src = dst then arrived else .carRetries src dst fails arrived

/-- SIGNAL (R282). -/
def execSignal (src dst fails : Nat) (s : State) : Host.Outcome State Fault Refusal :=
  s.act (.signal src dst fails) (.deliver src dst fails .signal)

/-- ADD (R282). -/
def execAdd (src dst fails : Nat) (s : State) : Host.Outcome State Fault Refusal :=
  s.act (.add src dst fails) (.deliver src dst fails .add)

/-- WATCH (R283). -/
def execWatch (src dst fails : Nat) (s : State) : Host.Outcome State Fault Refusal :=
  s.act (.watch src dst fails) (.deliver src dst fails .watch)

/-- UNWATCH (R284). -/
def execUnwatch (src dst fails : Nat) (s : State) : Host.Outcome State Fault Refusal :=
  s.act (.unwatch src dst fails) (.deliver src dst fails .unwatch)

/-- The condition of the slot's wait that a WAKE names is met; a WAKE of a wait that is over is ignored (R284). -/
def Upd.takeWake (m : CarMsg) : Upd :=
  .cur m.engine m.slot fun c =>
    if c.waitTag = m.tag ∧ c.status.isNone then
      { c with waits := (c.waits.zip (List.range c.waits.length)).map fun p => if p.2 = m.cond then { p.1 with met := true } else p.1 }
    else c

/-- WAKE (R27, R28, R284): the front WAKE from a bell's region reaches the waiting engine's region. -/
def execWake (src dst fails : Nat) (s : State) : Host.Outcome State Fault Refusal :=
  s.act (.wake src dst fails) (.read fun d =>
    match d.wakes src dst with
    | [] => .skip
    | m :: rest =>
      if !d.up || !d.unheld then .skip
      else
        let arrived := Upd.all [.wakes src dst fun _ => rest, .takeWake m]
        if src = dst then arrived else .carRetries src dst fails arrived)

/-- The oldest message that waits in an engine for a credit to a region enters the egress queue (R28); a SIGNAL that can be merged
into a waiting one is, and takes no credit (R29). -/
def Upd.pumpCar (e dst : Nat) : Upd :=
  .read fun d =>
    match d.bl.backlog.find? fun p => p.2.engine = e && p.1 = dst with
    | none => .skip
    | some (_, m) =>
      let leave := Upd.of fun d => { d with bl := { d.bl with backlog := d.bl.backlog.erase (dst, m) } }
      match (if m.op = .signal then mergeSignal (d.egress (e / 8) dst) m else none) with
      | some q => .all [leave, .egress (e / 8) dst fun _ => q, .count (nocPage (e / 8) + 0xA8)]
      | none => .when (d.carUsed e dst < 3) (.all [leave,
        .egress (e / 8) dst (· ++ [m]),
        .of fun d => { d with bl := { d.bl with credits := put d.bl.credits (e * 4 + dst) (d.carUsed e dst + 1) 0 } }])

/-- CARILLON_CREDIT_RETURN (R28): the destination's ingress returns the credit of a message that has left the egress
queue. The next of the engine's waiting messages takes it; one that merges leaves it to the next after it. -/
def execCarillonCreditReturn (e dst : Nat) (s : State) : Host.Outcome State Fault Refusal :=
  s.act (.carillonCreditReturn e dst) (.read fun d =>
    let waiting := ((d.egress (e / 8) dst).filter (·.engine = e)).length
    .when (waiting < d.carUsed e dst) (.all [
      .of fun d => { d with bl := { d.bl with credits := put d.bl.credits (e * 4 + dst) (d.carUsed e dst - 1) 0 } },
      .times d.bl.backlog.length (.pumpCar e dst)]))

/-- WAKE_CREDIT_RETURN (R28): the waiting engine took a WAKE; the oldest watch that waits for a credit sends its own. -/
def execWakeCreditReturn (src dst : Nat) (s : State) : Host.Outcome State Fault Refusal :=
  s.act (.wakeCreditReturn src dst) (.read fun d =>
    let used := look d.bl.wakeUsed (src * 4 + dst) 0
    .when ((d.wakes src dst).length < used) (.all [
      .of fun d => { d with bl := { d.bl with wakeUsed := put d.bl.wakeUsed (src * 4 + dst) (used - 1) 0 } },
      match d.bl.watches.find? fun w => w.woken && bellRegion w.bell = src && w.slot / 64 = dst with
      | some w => .sendWake w
      | none => .skip]))

/-! ### Host operations (BEL page, R310) -/

/-- The function reaches a bell's group (R394): the physical function, or a function with the group in its map. -/
def Device.reachesGroup (d : Device) (fn r g : Nat) : Bool := d.reaches fn 2 (r * 512 + g)

/-- A host operation reaches the store by the second update port (R286): 1 RESET, 2 SIGNAL (R282). -/
def Upd.hostBell (b op : Nat) (v : Word64) : Upd :=
  .all [.serve (bellRegion b) 8, if op = 1 then .bellReset b v else if op = 2 then .bellSignal b v else .skip]

/-- The host operations that waited for the gong's end are applied, oldest first (R350). -/
def Upd.hostBells : Upd :=
  .read fun d => .all [.of fun d => { d with bl := { d.bl with hostOps := [] } }, .each d.bl.hostOps fun p => .hostBell p.1 p.2.1 p.2.2]

/-- An operation of BEL.OP on a bell: 1 RESET(SET), 2 SIGNAL(SET) (R282). The stores apply nothing while the gong is active
(R348). -/
def Upd.bellOpAt (r i op : Nat) : Upd :=
  .read fun d =>
    let v := BitVec.ofNat 64 (d.pair (belPage r + 0x54))
    .when d.up (if d.unheld then .hostBell (r * 32768 + i) op v
      else .of fun d => { d with bl := { d.bl with hostOps := d.bl.hostOps ++ [(r * 32768 + i, op, v)] } })

/-- A write of BEL.OP by a function, on the bell that BELL_SEL names. -/
def Upd.bellOp (fn r op : Nat) : Upd :=
  .read fun d =>
    let i := fieldOf (d.reg (belPage r + 0x48)) 14 0
    .when (d.reachesGroup fn r (i / 64)) (.bellOpAt r i op)

/-- BELL_RESET (R282): BEL.OP with op 1. -/
def execBellReset (fn region : Nat) (data : Word) (s : State) : Host.Outcome State Fault Refusal :=
  s.hostAct (.bellReset fn region data) fn (.when (fieldOf data 1 0 = 1) (.bellOp fn region 1)) region

/-- BEL_OP_SIGNAL (R282): BEL.OP with op 2. -/
def execBelOpSignal (fn region : Nat) (data : Word) (s : State) : Host.Outcome State Fault Refusal :=
  s.hostAct (.belOpSignal fn region data) fn (.when (fieldOf data 1 0 = 2) (.bellOp fn region 2)) region

/-- The trailer's magic number (R310). -/
abbrev bellMagic : Nat := 0x42454C37

/-- A save image is loaded when its trailer matches, and its valid bit is cleared in memory; otherwise the store is left
at zero (R310). -/
def Upd.bellRestore (r : Nat) : Upd :=
  .read fun d =>
    let base := d.pair (belPage r + 0x60) % 2 ^ 44
    let t := base + 0x40000
    let ok := base ≠ 0 && populatedRange base 0x40040 && (d.ueIn base 0x40040).isNone && d.numAt 0 t 4 = bellMagic &&
      d.numAt 0 (t + 4) 2 = fieldOf (d.control (zwlPage + 0x40)) 12 0 && d.numAt 0 (t + 6) 1 = r && bits (d.numAt 0 (t + 7) 1) 0 1 = 1
    .all [
      .when (base ≠ 0 && populatedRange base 0x40040) (.touch base 0x40040),
      .each (List.range 32768) fun i => .setBell (r * 32768 + i) (if ok then BitVec.ofNat 64 (d.numAt 0 (base + 8 * i) 8) else 0),
      .when ok (.writeNum 0 (t + 7) 1 (d.numAt 0 (t + 7) 1 / 2 * 2)),
      .setReg (belPage r + 0x6C) (if ok then 3 else setField (d.reg (belPage r + 0x6C)) 8 8 1)]

/-- BELL_RESTORE (R310): BEL.SAVE_CTL.restore. -/
def execBellRestore (fn region : Nat) (data : Word) (s : State) : Host.Outcome State Fault Refusal :=
  s.hostAct (.bellRestore fn region data) fn (.read fun d => .when (d.up && fn = 0 && bitOf data 0) (.bellRestore region)) region

/-! ### Commands that signal and wait (R251, R252) -/

/-- The conditions of a bell command: bell name and value. -/
def bellConds (desc : List Byte) : List (Nat × Word64) :=
  (List.range (min (fieldAt desc 96 1) 4)).map fun i =>
    (fieldAt desc (32 + 16 * i) 4, BitVec.ofNat 64 (fieldAt desc (40 + 16 * i) 8))

/-- A remote bell of a command whose device is LOST (R309). -/
def Device.lostBell (d : Device) (names : List Nat) : Option Nat :=
  names.findSome? fun n =>
    if bits n 31 1 = 1 && d.peer (bits n 18 13) = .lost then some (bits n 18 13) else none

/-- The signals of a command can all be sent: each of them, and those to other devices together within the limits of the retry store
(R300). -/
def Device.canSignals (d : Device) (e : Nat) (names : List Nat) : Bool :=
  names.all (d.canSignal e) && d.requestsFit (remoteBells names)

/-- A command waits for what its signals need; where that is space in the retry store, the wait shows (R300, R308). -/
def Upd.awaitSignals (e s : Nat) (names : List Nat) : Upd :=
  .read fun d => .when (!d.requestsFit (remoteBells names)) (.all [.flag zwlPage 7, .cur e s fun c => { c with stalled := true }])

/-- BELL_SIGNAL's work is done at its end (R267 step 4): here a LOST peer ends it, and it waits for what its signals need
(R28, R300). -/
def tileSignal (d : Device) (v : Env) : TileRes :=
  let names := (bellConds v.cmd.desc).map fun p => ownBell v.cmd.own p.1
  match d.lostBell names with
  | some p => v.badRead (.lost p) 0xFF
  | none => if d.canSignals v.e names then .last .skip else .wait (.awaitSignals v.e v.s names)

/-- U4_BELL_ADD (R252): the ADD is sent. -/
def tileAdd (d : Device) (v : Env) : TileRes :=
  match bellConds v.cmd.desc with
  | (name, x) :: _ =>
    let n := ownBell v.cmd.own name
    if d.carFree v.e (bits n 15 2) then
      .last (.carry (bits n 15 2) { op := .add, engine := v.e, slot := v.s, index := bits n 0 15, value := x })
    else .wait .skip
  | [] => .last .skip

/-- BELL_SIGNAL (R251, R29). -/
def execBellSignal (e n : Nat) (s : State) : Host.Outcome State Fault Refusal :=
  s.act (.bellSignal e n) (.tiles e n [opSignal] tileSignal)

/-- U4_BELL_ADD (R252). -/
def execU4BellAdd (e n : Nat) (s : State) : Host.Outcome State Fault Refusal :=
  s.act (.u4BellAdd e n) (.tiles e n [opU4Add] tileAdd)

/-- The watch of one condition is sent once its engine has a credit (R28, R283). -/
def Upd.sendWatch (e s i : Nat) : Upd :=
  .read fun d =>
    match (d.slot e s).cur with
    | none => .skip
    | some c =>
      match c.waits[i]? with
      | none => .skip
      | some w =>
        .when (!w.sent && d.carFree e (bellRegion w.bell)) (.all [
          .cur e s fun c => { c with waits := c.waits.set i { w with sent := true } },
          .carry (bellRegion w.bell) { op := .watch, engine := e, slot := s, index := w.bell % 32768, cond := i, value := w.value, tag := c.waitTag }])

/-- A slot's wait goes on: its watches are registered, and it ends with OK once every condition is met (R251, R283,
R284). A wait holds no execution resource. That of a STOPPED slot goes on at START (R257). -/
def Upd.waitStep (ops : List Nat) (e s : Nat) : Upd :=
  .read fun d =>
    match (d.slot e s).cur with
    | none => .skip
    | some c =>
      if !ops.contains (fieldAt c.desc 0 1) || c.status.isSome || !d.acts e s || (d.slot e s).state = .stopped then .skip
      else if !c.waits.isEmpty && c.waits.all (·.met) then .decide e s .ok none
      else .all [.cur e s fun c => { c with tileIssued := true },
        .sendWatch e s 0, .sendWatch e s 1, .sendWatch e s 2, .sendWatch e s 3]

/-- BELL_WAIT (R251, R283, R284): the waits of the engine's slots go on. -/
def execBellWait (e n : Nat) (s : State) : Host.Outcome State Fault Refusal :=
  s.act (.bellWait e n) (.times n (.each (List.range 8) (.waitStep [opWait] e)))

/-- U4_BELL_WAIT (R252). -/
def execU4BellWait (e n : Nat) (s : State) : Host.Outcome State Fault Refusal :=
  s.act (.u4BellWait e n) (.times n (.each (List.range 8) (.waitStep [opU4Wait] e)))

/-- UNWATCH is sent for every condition of the slot's wait still registered (R284). -/
def Upd.unwatchAll (e s : Nat) : Upd :=
  .read fun d =>
    match (d.slot e s).cur with
    | none => .skip
    | some c => .all [
        .cur e s fun c => { c with waits := c.waits.map fun w => { w with sent := false } },
        .each (c.waits.zip (List.range c.waits.length)) fun p =>
          .when (p.1.sent && !p.1.met)
            (.carry (bellRegion p.1.bell) { op := .unwatch, engine := e, slot := s, index := p.1.bell % 32768, cond := p.2, tag := c.waitTag })]

/-- BELL_WAIT_TIMEOUT (R251, R284): timeout_us passes before every WAKE has arrived. -/
def execBellWaitTimeout (e slot : Nat) (s : State) : Host.Outcome State Fault Refusal :=
  s.act (.bellWaitTimeout e slot) (.read fun d =>
    match (d.slot e slot).cur with
    | none => .skip
    | some c =>
      .when (isWait (fieldAt c.desc 0 1) && fieldAt c.desc 100 4 ≠ 0 && c.status.isNone && !(c.waits.all (·.met)) && d.acts e slot &&
          (d.slot e slot).state ≠ .stopped)
        (.all [.unwatchAll e slot, .decide e slot .bellTimeout none]))

end Sys2Proof.Machine
end

