-- ==== Sys2Proof/Machine/Firmware.lean ====
section
/-! DEFINITION. Firmware images and what the Sladex root verifies of what is signed (14_security_mgmt.md R406 to R411). -/

namespace Sys2Proof.Machine

/-! ### Signatures (R406, R410) -/

/-- The public keys of a set hash to its fused values (R406): the RSA key of 388 bytes and the SLH-DSA key of 48. -/
def keysFused (set : Nat) (rsa slh : List Byte) : Bool :=
  sha384 rsa = (List.range 48).map (Config.fusedHash set 0) && sha384 slh = (List.range 48).map (Config.fusedHash set 1)

/-- The bytes of a signature block (R410). -/
abbrev signatureBytes : Nat := 16640

/-- A signature block is whole, ends in 32 zero bytes, and both its signatures over the signed bytes verify under the keys (R410; the
two algorithms are free predicates, log 49). -/
def signaturesHold (rsa slh signed block : List Byte) : Bool :=
  block.length = signatureBytes && zeros block 16608 32 && Config.rsaVerifies rsa signed (block.take 384) &&
    Config.slhVerifies slh signed ((block.drop 384).take 16224)

/-! ### Images (R408, R409, R411) -/

/-- The keys that an image's header holds. -/
def imageRsa (b : List Byte) : List Byte := (b.drop 32).take 388
def imageSlh (b : List Byte) : List Byte := (b.drop 432).take 48

/-- The header and sections of an image are as R409 and R411 say, its other header bytes are zero, and the digests of its sections hold.
What it then says of itself, with its bytes. -/
def readFirmware (b : List Byte) : Option FwImage :=
  let f := fieldAt b
  let len := f 16 4
  let sections := (List.range 6).map fun i => (f (512 + 64 * i) 4, f (516 + 64 * i) 4, f (520 + 64 * i) 4, f (524 + 64 * i) 4, (b.drop (528 + 64 * i)).take 48)
  let inside := sections.all fun x => x.2.1 + x.2.2.1 ≤ len && 4096 ≤ x.2.1 && x.2.2.2.1 = 0
  let apart := (sections.zip (List.range 6)).all fun p => (sections.take p.2).all fun q =>
    q.2.1 + q.2.2.1 ≤ p.1.2.1 || p.1.2.1 + p.1.2.2.1 ≤ q.2.1
  let image : FwImage := ⟨f 8 1, f 9 1, f 12 4, true, sha384 (b.take 4096), sha384 (sections.flatMap fun x => x.2.2.2.2), b⟩
  if f 0 4 = 0x554D4637 && f 4 2 = 1 && f 6 2 = 6 && f 8 1 ≤ 64 && f 9 1 ≤ 1 && len % 64 = 0 && len ≤ 0x00FFBF00 &&
      zeros b 10 2 && zeros b 20 12 && zeros b 420 12 && zeros b 480 32 && zeros b 896 3200 &&
      len + signatureBytes ≤ b.length && sections.map (·.1) = span 1 6 && inside && apart &&
      sections.all (fun x => sha384 ((b.drop x.2.1).take x.2.2.1) = x.2.2.2.2)
  then some image else none

/-- An image verifies (R411): the key set is not revoked, and its bytes are those of an image whose keys are fused and whose signatures
over its header hold. Of the image that the part was shipped with the spec gives no bytes: it is genuine or not (log 3). -/
def Device.verifies (d : Device) (i : FwImage) : Bool :=
  !d.fuses.revoked.getLsbD i.keySet &&
    if i.bytes.isEmpty then i.genuine
    else (readFirmware i.bytes).isSome && keysFused i.keySet (imageRsa i.bytes) (imageSlh i.bytes) &&
      signaturesHold (imageRsa i.bytes) (imageSlh i.bytes) (i.bytes.take 4096) ((i.bytes.drop (fieldAt i.bytes 16 4)).take signatureBytes)

/-- An image is bootable: it verifies and is not older than the fused counter (R411). -/
def Device.bootable (d : Device) (i : FwImage) : Bool := d.verifies i && i.svn ≥ d.fuses.svn

/-- The image in a slot of the flash. -/
def Device.imageIn (d : Device) (slot : Nat) : Option FwImage := look d.se.flash slot none

/-- The keys of the running image, under which a run-time microprogram verifies (R410): those in its header, of the image that the part
was shipped with those of its key set (log 49). -/
def Device.runningKeys (d : Device) : List Byte × List Byte :=
  match d.se.running with
  | none => ([], [])
  | some r =>
    let b := ((d.imageIn r.slot).getD {}).bytes
    if b.isEmpty then ((List.range 388).map (Config.publicKey r.keySet 0), (List.range 48).map (Config.publicKey r.keySet 1))
    else (imageRsa b, imageSlh b)

/-- An entropy health test fails when it is not healthy: it shows, and no key is generated any more (R407). -/
def Upd.healthTest (healthy : Bool) : Upd :=
  .read fun d => .when (!healthy && !d.se.rngBad) (.all [
    .of fun d => { d with se := { d.se with rngBad := true } }, .raise secPage (oneBit 0)])

end Sys2Proof.Machine
end

