-- ==== Sys2Proof/Machine/Microprograms.lean ====
section
/-! DEFINITION. The function table: registering and unregistering microprograms, and the store's rewrite (04_vector_units.md
R109, R110, R114 to R117, R132, 14_security_mgmt.md R421). -/

namespace Sys2Proof.Machine

def Upd.fn (index : Nat) (f : Fn → Fn) : Upd :=
  .of fun d => { d with sfu := { d.sfu with fns := put d.sfu.fns index (f (d.fn index)) (builtinFn index) } }

/-- Bytes of a store that a function of n steps takes (R114). -/
def storeBytesOf (n : Nat) : Nat := roundUp (64 + 8 * n) 64

/-- The indices that registrations have made other than FREE. -/
def Device.userFns (d : Device) : List (Nat × Fn) := d.sfu.fns.filter fun p => 64 ≤ p.1 && p.2.state ≠ .free

/-- The occupied part of a store (R114): the built-in functions and the registered ones. -/
def Device.storeUsed (d : Device) : Nat :=
  ((List.range 64).map fun i => match builtinShape i with | some (_, _, _, n) => storeBytesOf n | none => 0).sum +
    (d.userFns.map fun p => if p.2.steps.isEmpty then 0 else storeBytesOf p.2.steps.length).sum

/-- SFU.UP_STATUS takes a state and a result. -/
def Upd.upStatus (state result : Nat) : Upd := .setReg (sfuDevPage + 0x50) (BitVec.ofNat 32 (state + result * 256))

/-- The log of measurement index 5 is extended (R421). -/
def Upd.upLog (op index : Nat) (digest : List Byte) : Upd :=
  .of fun d =>
    let m := sha384 ((d.se.upLog ++ List.replicate 48 0).take 48 ++ toBytes 1 op ++ toBytes 1 index ++ digest)
    { d with se := { d.se with upLog := m } }

/-- A RETIRING index that no issued command references becomes FREE (R117), and the unregistration is logged (R421). -/
def Upd.freeFns : Upd :=
  .read fun d => .each (d.sfu.fns.filter fun p => p.2.state = .retiring && p.2.refs = 0) fun p =>
    .all [.fn p.1 fun _ => {}, .upLog 2 p.1 p.2.digest]

/-- At a management tick a command in SFU.UP_CMD is taken with its address and length, and its op returns to 0 (R38, R116, R117,
R457). DESIGN CHOICE (log 131): one written while an earlier registration is BUSY is taken too; the loads then go on side by
side, and UP_STATUS shows what was reported last. -/
def Upd.takeUpCommand : Upd :=
  .read fun d =>
    let cmd := d.reg (sfuDevPage + 0x4C)
    let op := fieldOf cmd 9 8
    .all [
      .setReg (sfuDevPage + 0x4C) (setField cmd 9 8 0),
      .when (op = 1 || op = 2) (.of fun d => { d with sfu := { d.sfu with commands := d.sfu.commands ++
        [(op, fieldOf cmd 7 0, d.pair (sfuDevPage + 0x40) % 2 ^ 44, fieldOf (d.reg (sfuDevPage + 0x48)) 15 0)] } })]

/-- The oldest command taken is carried out, when it is of this kind (R116, R117). DESIGN CHOICE (log 147): UP_STATUS reports an
unregistration DONE as its index becomes RETIRING. -/
def Upd.upCommand (op : Nat) : Upd :=
  .read fun d => match d.sfu.commands with
    | [] => .skip
    | (kind, index, addr, len) :: later =>
      .when (d.up && kind = op) (.all [
        .of fun d => { d with sfu := { d.sfu with commands := later } },
        if index < 64 then .upStatus 3 1
        else if op = 1 then
          (if (d.fn index).state ≠ .free then .upStatus 3 2
           else .all [.fn index fun _ => { state := .loading },
            .of fun d => { d with sfu := { d.sfu with loads := d.sfu.loads ++ [(index, addr, len)] } },
            .upStatus 1 0])
        else if (d.fn index).state ≠ .active then .upStatus 3 2
        else .all [.fn index fun f => { f with state := .retiring }, .upStatus 2 0, .freeFns]])

/-- MICROPROG_REGISTER (R116): a register command that a tick has taken is carried out. -/
def execMicroprogRegister (s : State) : Host.Outcome State Fault Refusal := s.act .microprogRegister (.upCommand 1)

/-- MICROPROG_UNREGISTER (R117): an unregister command that a tick has taken is carried out. -/
def execMicroprogUnregister (s : State) : Host.Outcome State Fault Refusal := s.act .microprogUnregister (.upCommand 2)

/-- A step breaks a rule of R115. DESIGN CHOICE (log 132): every register field of a step names a register, those that its op does
not use or that the immediate replaces among them. -/
def badStep (regs : Nat) (w : Nat) : Bool :=
  !stepOps.contains (bits w 56 8) || bits w 34 6 ≠ 0 || (bits w 33 1 = 1 && bits w 32 1 = 1) ||
    [52, 48, 44, 40].any fun lo => regs ≤ bits w lo 4

/-- The signature block that follows the steps of an image of n steps is there, and its signatures over the image verify under the keys of
the running firmware's set (R109, R410). -/
def Device.imageSigned (d : Device) (b : List Byte) (n : Nat) : Bool :=
  signaturesHold d.runningKeys.1 d.runningKeys.2 (b.take (64 + 8 * n)) ((b.drop (64 + 8 * n)).take signatureBytes)

/-- What the layout checks of R115 find in an image: its steps, or none. DESIGN CHOICE (log 132): nonzero reserved bytes of the
header, 11, 14 and 15, are refused with the layout's code, FORMAT. -/
def readImage (b : List Byte) : Option Fn :=
  let f := fieldAt b
  let n := f 6 2
  let steps := (List.range n).map fun i => f (64 + 8 * i) 8
  if f 0 4 ≠ 0x4D555037 ∨ f 4 2 ≠ 1 ∨ outside n 1 256 ∨ outside (f 8 1) 1 3 ∨ outside (f 9 1) 1 2 ∨ outside (f 10 1) 1 16 ∨
      b.length < 64 + 8 * n ∨ dirty b 11 1 ∨ dirty b 14 2 ∨ steps.any (badStep (f 10 1)) then none
  else some { state := .active, inputs := f 8 1, outputs := f 9 1, regs := f 10 1, steps := steps.map (BitVec.ofNat 64), digest := (b.drop 16).take 48 }

/-- MICROPROG_LOADED (R115, R116): the image of a LOADING index is read and checked. It becomes ACTIVE, or FREE with a result
code. An image that cannot be read is one that fails its digest. DESIGN CHOICE (log 132): a misaligned address, or one of memory that is not there, ends FORMAT. -/
def execMicroprogLoaded (index : Nat) (s : State) : Host.Outcome State Fault Refusal :=
  s.act (.microprogLoaded index) (.read fun d =>
    match d.sfu.loads.find? (·.1 = index) with
    | none => .skip
    | some (_, addr, len) =>
      let fail (code : Nat) : Upd := .all [.fn index fun _ => {}, .upStatus 3 code]
      let b := d.bytesAt 0 addr len
      .when (d.up && (d.fn index).state = .loading) (.all [
        .of fun d => { d with sfu := { d.sfu with loads := d.sfu.loads.filter (·.1 ≠ index) } },
        if addr % 64 ≠ 0 || !populatedRange addr len then fail 3
        else .all [.touch addr len, if (d.ueIn addr len).isSome then fail 6
        else match readImage b with
        | none => fail 3
        | some f =>
          if sha384 (b.take 16 ++ (b.drop 64).take (8 * f.steps.length)) ≠ f.digest then fail 6
          else if !d.imageSigned b f.steps.length then fail 4
          else if d.storeUsed + storeBytesOf f.steps.length > 65536 then fail 5
          else .all [.fn index fun _ => f, .upStatus 2 0, .upLog 1 index f.digest]]]))

/-- USTORE_REWRITE_DONE (R132): the Sladex root has rewritten an image in a region's store. -/
def execUstoreRewriteDone (region index : Nat) (s : State) : Host.Outcome State Fault Refusal :=
  s.act (.ustoreRewriteDone region index) (.read fun d => .when d.up
    (.of fun d => { d with sfu := { d.sfu with rewrite := d.sfu.rewrite.filter (· ≠ (region, index)) } }))

end Sys2Proof.Machine
end

