-- ==== Sys2Proof/Machine/MemoryUnits.lean ====
section
/-! DEFINITION. The memory controllers, translation walks and invalidations, the address translation cache, completions from
the host and inbound windows (07_memory.md R210 to R216, R223 to R235, 13_host_pcie.md R384 to R387). -/

namespace Sys2Proof.Machine

/-! ### Controllers (R210 to R215) -/

/-- MEMORY_READ (R211, R212, R215): a controller reads a range for a requester under a key slot. -/
def execMemoryRead (pa len key : Nat) (s : State) : Host.Outcome State Fault Refusal :=
  s.act (.memoryRead pa len key) (.read fun d => .when (d.up && populatedRange pa len && d.keyGen key ≠ 0) (.touch pa len))

/-- MEMORY_WRITE (R210, R215, R217): a controller writes a range for a requester under a key slot. -/
def execMemoryWrite (pa : Nat) (data : List Byte) (key : Nat) (s : State) : Host.Outcome State Fault Refusal :=
  s.act (.memoryWrite pa data key) (.read fun d => .when (d.up && d.keyGen key ≠ 0) (.write key pa data))

/-- The physical address of a controller's device address (R209). -/
def physOf (ctl a : Nat) : Nat :=
  let o := a / 2 ^ 12 * 2 ^ 14 + ctl % 4 * 2 ^ 12 + a % 2 ^ 12
  if ctl < 16 then ctl / 4 * 2 ^ 38 + o else 2 ^ 41 + (ctl - 16) / 4 * 2 ^ 39 + o

/-- Bytes of a controller's part (R208). -/
def partBytes (ctl : Nat) : Nat := if ctl < 16 then 47999614976 else 127999672320

/-- PATROL_SCRUB (R213): patrol reads the controller's next line; after the last one the pass is counted, and the corrected
errors of rows are counted anew. It pauses while the gong is active (R348). -/
def execPatrolScrub (ctl : Nat) (s : State) : Host.Outcome State Fault Refusal :=
  s.act (.patrolScrub ctl) (.read fun d =>
    let a := (d.ctl ctl).patrol
    let line := physOf ctl a / 64
    .when (d.up && d.unheld && fieldOf (d.reg (ctlPage ctl + 0x44)) 15 0 ≠ 0) (.all [
      (match d.lineErrAt line with
        | none => .skip
        | some .corrected => .corrected line
        | some .uncorrectable => .uncorrectable (line * 64) true),
      if a + 64 < partBytes ctl then .ctl ctl fun t => { t with patrol := a + 64 }
      else .all [.ctl ctl fun t => { t with patrol := 0, rowErrs := [] }, .sat (ctlPage ctl + 0x48)]]))

/-- A write of HBC.CTRL or LPC.CTRL. DESIGN CHOICE (log 155): a request for an address beyond the part is ignored. -/
def Upd.spareReq (ctl : Nat) (data : Word) : Upd :=
  .read fun d =>
    let a := d.pair (ctlPage ctl + 0x60) % 2 ^ 44
    .when (bitOf data 0 && a < partBytes ctl) (.startSpare (physOf ctl a))

/-- SPARE_REQ (R214): a repair of the row at SPARE_ADDR is asked for. -/
def execSpareReq (fn ctl : Nat) (data : Word) (s : State) : Host.Outcome State Fault Refusal :=
  s.hostAct (.spareReq fn ctl data) fn (.read fun d => .when (d.up && fn = 0) (.spareReq ctl data)) (ctl / 4 % 4)

/-- SPARE_DONE (R214): the repair in progress completes, and the next one asked for begins. The lines of the row were read with correction and rewritten; an
uncorrectable one stays so. It waits while the gong is active (R348). -/
def execSpareDone (ctl : Nat) (s : State) : Host.Outcome State Fault Refusal :=
  s.act (.spareDone ctl) (.read fun d =>
    match (d.ctl ctl).sparing with
    | none => .skip
    | some a =>
      let row := Config.rowOf ctl a
      let pa := physOf ctl a
      let mine := d.mm.lineErr.filter fun p => ctlOf (p.1 * 64) = ctl && Config.rowOf ctl (devAddr (p.1 * 64)) = row && p.2 = .corrected
      .when (d.up && d.unheld) (.all [
        .each mine fun p => .all [.lineErr p.1 none, .sat (ctlPage ctl + 0x4C), .error (ctlPage ctl) 0 (ctlRec 0x0305 (p.1 * 64)) true true],
        .ctl ctl fun t => { t with sparing := none, used := t.used + 1, rowErrs := put t.rowErrs row 0 0 },
        .of (fun d => { d with fuses := { d.fuses with repairs := d.fuses.repairs ++ [(ctl, a)] } })
          (fun _ h => ⟨h.mem, h.pop, h.regs, h.bells, h.keys⟩)
          (fun _ => ⟨rfl, Nat.le_refl _, BitVec.and_self, _, rfl⟩),
        .error (ctlPage ctl) 3 (ctlRec 0x0307 pa), .nextSpare ctl]))

/-! ### Walks (R220 to R227) -/

/-- The entries that a walk reads. -/
def Device.walkReads (d : Device) (levels : List Nat) (table va : Nat) : List Nat :=
  match levels with
  | [] => []
  | log2 :: rest =>
    let index := if log2 = 30 then va / 2 ^ 30 else if log2 = 21 then bits va 21 9 else bits va 16 5
    let entry := table + index * 8
    entry :: (if (d.ueIn entry 8).isSome then [] else
      match checkEntry (d.numAt 0 entry 8) log2 rest.isEmpty with
      | .inr (some next) => d.walkReads rest next va
      | _ => [])

/-- The walker that takes a miss: the lowest free one; walker 7 serves Q0 only (R225). -/
def Device.freeWalker (d : Device) (r prio : Nat) : Option Nat :=
  (List.range (if prio = 0 then 8 else 7)).find? fun w => !(d.xl.walks.any fun x => x.region = r && x.walker = w)

/-- The set of a region's second level in which a page lies (R225; log 138). -/
def l2Set (r va log2 : Nat) : Nat := r * 2048 + va / 2 ^ log2 % 2048

/-- A region's second-level entry that covers an address. -/
def Device.l2Entry (d : Device) (r ctx va : Nat) : Option TlbEntry :=
  [16, 21, 30].findSome? fun log2 => (look d.xl.l2 (l2Set r va log2) []).find? fun t => t.log2 = log2 && t.covers ctx va

/-- A second level takes an entry in its set of 8, in place of the one filled longest ago (R225). An injection corrupts it
(R227). -/
def Upd.fillL2 (r : Nat) (t : TlbEntry) : Upd :=
  .inject (xltRegionPage r) 0 fun bad => .of fun d =>
    let i := l2Set r t.base t.log2
    { d with xl := { d.xl with l2 := put d.xl.l2 i (({ t with bad := bad } :: (look d.xl.l2 i []).filter fun u => !u.same t).take 8) [] } }

/-- The entry that a lookup of a second level meets is dropped when its parity is wrong, and the lookup becomes a miss (R227). -/
def Upd.dropBadL2 (r ctx va : Nat) : Upd :=
  .read fun d => match d.l2Entry r ctx va with
    | none => .skip
    | some t =>
      let i := l2Set r va t.log2
      .when t.bad (.all [
        .of fun d => { d with xl := { d.xl with l2 := put d.xl.l2 i ((look d.xl.l2 i []).erase t) [] } },
        .error (xltRegionPage r) 0 (regionRec 0x0309 r) true true])

/-- The table pointer covers an address of a context. -/
def WalkEntry.covers (t : WalkEntry) (ctx va : Nat) : Bool := t.ctx = ctx && t.base ≤ va && va < t.base + 2 ^ t.log2

/-- How many levels a walk need not read: those above and at the lowest table pointer in the walk cache (R225). -/
def Device.cachedLevels (d : Device) (r ctx va : Nat) : Nat :=
  let l := (look d.xl.walkCache r []).filter (·.covers ctx va)
  if l.any (·.log2 = 21) then 2 else if l.any (·.log2 = 30) then 1 else 0

/-- A walk cache takes a table pointer; it holds 512 (R225). An injection of the page corrupts it (R227). -/
def Upd.fillCache (r : Nat) (t : WalkEntry) : Upd :=
  .inject (xltRegionPage r) 0 fun bad => .of fun d =>
    let old := (look d.xl.walkCache r []).filter fun u => !(u.ctx = t.ctx && u.base = t.base && u.log2 = t.log2)
    { d with xl := { d.xl with walkCache := put d.xl.walkCache r (({ t with bad := bad } :: old).take 512) [] } }

/-- The table pointers that a walk meets in the walk cache are dropped when their parity is wrong (R227). -/
def Upd.dropBadCache (r ctx va : Nat) : Upd :=
  .read fun d => .when ((look d.xl.walkCache r []).any fun t => t.covers ctx va && t.bad) (.all [
    .of fun d => { d with xl := { d.xl with
      walkCache := put d.xl.walkCache r ((look d.xl.walkCache r []).filter fun t => !(t.covers ctx va && t.bad)) [] } },
    .error (xltRegionPage r) 0 (regionRec 0x0309 r) true true])

/-- A walker takes a miss. -/
def Upd.startWalk (w : Walk) : Upd :=
  .all [.count (xltRegionPage w.region + 0x68), .of fun d => { d with xl := { d.xl with walks := d.xl.walks ++ [w] } }]

/-- The misses of a stream that are outstanding (R224). -/
def Device.missesOf (d : Device) (e stream : Nat) : Nat :=
  ((d.xl.walks ++ d.xl.misses).filter fun x => x.engine = e && x.stream = stream).length

/-- The priority of the command that an engine runs, for its misses (R225). -/
def Device.missPrio (d : Device) (e : Nat) : Nat := match d.running e with | some (s, _) => d.prio e s | none => 3

/-- PAGE_WALK (R224, R225): a miss of an engine's stream reaches its region's second level, and a walker when that misses too; with
none free it waits for one. A stream with 4 misses outstanding stalls. -/
def execPageWalk (e ctx va : Nat) (s : State) (stream : Nat := 0) : Host.Outcome State Fault Refusal :=
  s.act (.pageWalk e ctx va stream) (.read fun d => .when (d.up && d.missesOf e stream < 4) (.all [
    .dropBad e ctx va, .read fun d => .when (!(look d.xl.tlb e []).any (·.covers ctx va)) (.all [
      .dropBadL2 (e / 8) ctx va, .read fun d =>
        let m : Walk := ⟨e / 8, 0, e, stream, d.missPrio e, ctx, va⟩
        match d.l2Entry (e / 8) ctx va, d.freeWalker (e / 8) m.prio with
        | some t, _ => .all [.count (xltRegionPage (e / 8) + 0x60), .buffer e t]
        | none, some w => .startWalk { m with walker := w }
        | none, none => .of fun d => { d with xl := { d.xl with misses := d.xl.misses ++ [m] } }])]))

/-- The miss that a free walker takes next: by priority, then by arrival (R225). -/
def Device.nextMiss (d : Device) (r walker : Nat) : Option Walk :=
  let l := d.xl.misses.filter fun m => m.region = r && (walker ≠ 7 || m.prio = 0)
  l.foldl (fun best m => match best with
    | none => some m
    | some b => if m.prio < b.prio then some m else some b) none

/-- WALK_COMPLETE (R222, R225, R227): the walk's reads have returned; its translation is filled, or it ends without one. The walker
takes the next miss. -/
def execWalkComplete (region walker : Nat) (s : State) : Host.Outcome State Fault Refusal :=
  s.act (.walkComplete region walker) (.read fun d =>
    match d.xl.walks.find? fun x => x.region = region && x.walker = walker with
    | none => .skip
    | some w =>
      let root := d.rootOf w.ctx
      let entries := if root.usable && w.va < 2 ^ root.vaBits then d.walkReads [30, 21, 16] root.base w.va else []
      .when d.up (.all [
        .of fun d => { d with xl := { d.xl with
          walks := d.xl.walks.erase w,
          invals := d.xl.invals.map fun i => { i with walks := i.walks.filter (· ≠ (region, walker)) } } },
        .dropBadCache region w.ctx w.va,
        .read fun d =>
          let reads := entries.drop (d.cachedLevels region w.ctx w.va)
          .all [.count (xltRegionPage region + 0x70) reads.length,
            .each reads fun a => .all [.touch a 8, .count (ctlPage (ctlOf a) + 0x98)]],
        (match d.walk root w.va with
        | .leaf pte log2 =>
          let t : TlbEntry := ⟨w.ctx, w.va / 2 ^ log2 * 2 ^ log2, log2, BitVec.ofNat 64 pte, false, false⟩
          .all [.each ([30, 21].filter (log2 < ·)) fun l => .fillCache region ⟨w.ctx, w.va / 2 ^ l * 2 ^ l, l, false⟩,
            .fillL2 region t, .buffer w.engine t]
        | .fail cause entry =>
          .when (cause = causePteUe) (.error (xltRegionPage region) 1
            { regionRec 0x030A region with addr := some (2, entry), cause := causePteUe, detail := detailA entry })),
        .read fun d => match d.nextMiss region walker with
          | some m => .all [.of fun d => { d with xl := { d.xl with misses := d.xl.misses.erase m } }, .startWalk { m with walker := walker }]
          | none => .skip]))

/-! ### Invalidations (R223, R227, R394) -/

/-- The invalidation drops the entry of a page. -/
def Inval.hitsPage (i : Inval) (ctx base log2 : Nat) : Bool :=
  (match i.ctx with | none => true | some c => ctx = c) && base < i.base + 2 ^ i.log2 && i.base < base + 2 ^ log2

/-- An access went through a page whose entry the invalidation drops. -/
def Inval.hitsAccess (i : Inval) (ctx va log2 : Nat) : Bool := log2 ≠ 0 && i.hitsPage ctx (va / 2 ^ log2 * 2 ^ log2) log2

/-- An invalidation of a context's range, or of every context's, begins: it waits for every walk that has begun, and for the
accesses to the host and to peers that went through the entries it drops. -/
def Upd.invalBegin (fn : Nat) (ctx : Option Nat) (va log2 seq : Nat) : Upd :=
  .of fun d =>
    let ctxOf (key : Nat) : Nat := (d.slot (key / 8) (key % 8)).ctx
    let i : Inval := { fn := fn, seq := seq, ctx := ctx, base := va, log2 := log2 }
    let reads := (d.ho.reads.filter fun r => !r.answered && i.hitsAccess (ctxOf r.slot) r.va r.log2).map (·.id)
    let reqs := (d.lk.reqs.filter fun r => !r.answered && i.hitsAccess (ctxOf r.slot) r.va r.log2).map (·.id)
    { d with xl := { d.xl with invals := d.xl.invals ++
      [{ i with walks := d.xl.walks.map fun w => (w.region, w.walker), reads := reads, reqs := reqs }] } }

/-- A write of XLT.INVAL_CMD by a function for a context, or for all of them: the range stands in the registers. -/
def Upd.invalCmd (fn : Nat) (ctx : Option Nat) (data : Word) : Upd :=
  .read fun d =>
    let log2 := max 16 (min 52 (fieldOf (d.reg (xltDevPage + 0x5C)) 5 0))
    .when d.up (.invalBegin fn ctx (d.pair (xltDevPage + 0x54)) log2 (fieldOf data 15 0))

/-- The context that INVAL_CTX names, or all of them, for a function; none for a context that it does not reach. -/
def Device.invalTarget (d : Device) (fn : Nat) : Option (Option Nat) :=
  let c := d.reg (xltDevPage + 0x50)
  let ctx := fieldOf c 7 0
  if bitOf c 31 && fn = 0 then some none else if d.reachesCtx fn ctx then some (some ctx) else none

/-- The context of a virtual function's map entry. -/
def Device.invalEntry (d : Device) (fn entry : Nat) : Option (Option Nat) :=
  match d.mapEntry fn entry with
  | some (1, c) => some (some (c % 256))
  | _ => none

/-- INVALIDATION (R223, R394): a write of XLT.INVAL_CMD. A virtual function writes it in the page of a map entry, whose context is
implied. -/
def execInvalidation (fn : Nat) (data : Word) (s : State) (entry : Nat := 0) : Host.Outcome State Fault Refusal :=
  s.hostAct (.invalidation fn data entry) fn (.read fun d =>
    match (if fn = 0 then d.invalTarget 0 else d.invalEntry fn entry) with
    | some ctx => .invalCmd fn ctx data
    | none => .skip)

/-- The entry is one that an invalidation drops. -/
def Inval.hits (i : Inval) (t : TlbEntry) : Bool := i.hitsPage t.ctx t.base t.log2

/-- The pinned entries that an invalidation drops, with their engines: they are refilled before it completes (R256). -/
def Device.pinsHit (d : Device) (i : Inval) : List (Nat × TlbEntry) :=
  d.xl.tlb.flatMap fun p => (p.2.filter fun t => t.pinned && i.hits t).map fun t => (p.1, t)

/-- INVALIDATION_DONE (R223, R256): the oldest invalidation completes, once the walks and the accesses that began before it have
finished; its entries are dropped, those of rings are refilled, and INVAL_DONE takes its sequence number. -/
def execInvalidationDone (s : State) : Host.Outcome State Fault Refusal :=
  s.act .invalidationDone (.read fun d =>
    match d.xl.invals with
    | [] => .skip
    | i :: rest =>
      let busy := !i.walks.isEmpty || (d.ho.reads.any fun r => i.reads.contains r.id && !r.answered) ||
        (d.lk.reqs.any fun r => i.reqs.contains r.id && !r.answered)
      let keep (m : Sparse (List TlbEntry)) : Sparse (List TlbEntry) :=
        (m.map fun p => (p.1, p.2.filter fun t => !i.hits t)).filter fun p => !p.2.isEmpty
      let cache := (d.xl.walkCache.map fun p => (p.1, p.2.filter fun t => !i.hitsPage t.ctx t.base t.log2)).filter fun p => !p.2.isEmpty
      .when (d.up && !busy) (.all [
        .of fun d => { d with xl := { d.xl with invals := rest, tlb := keep d.xl.tlb, l2 := keep d.xl.l2, walkCache := cache } },
        .each (d.pinsHit i) fun p => .pin p.1 p.2.ctx p.2.base,
        .of fun d => { d with xl := { d.xl with invalDone := put d.xl.invalDone i.fn i.seq 0 } },
        .when (i.fn = 0) (.setReg (xltDevPage + 0x64) (BitVec.ofNat 32 i.seq))]))

/-- A write of XLT.FLUSH. -/
def Upd.xltFlush (e : Nat) (data : Word) : Upd :=
  .when (bitOf data 0) (.of fun d => { d with xl := { d.xl with tlb := put d.xl.tlb e [] [] } })

/-- XLT_FLUSH (R227). -/
def execXltFlush (fn e : Nat) (data : Word) (s : State) : Host.Outcome State Fault Refusal :=
  s.hostAct (.xltFlush fn e data) fn (.read fun d => .when (d.up && fn = 0) (.xltFlush e data)) (e / 8)

/-! ### Address Translation Services (R228 to R230) -/

/-- The function of a slot's outstanding host access. -/
def Device.readFn (d : Device) (r : HostRead) : Nat := d.ownerOf (d.slot (r.slot / 8) (r.slot % 8)).ctx

/-- A host access whose page has been translated: a read is sent, or fails when it is denied; a write is permitted, or fails
(R228, R229). While the gong is active no request is sent (R348). -/
def Upd.atsAnswer (r : HostRead) (fn : Nat) (ok rd wr : Bool) : Upd :=
  .read fun d =>
    let set (f : HostRead → Option HostRead) : Upd :=
      .of fun d => { d with ho := { d.ho with reads := d.ho.reads.filterMap fun x => if x.id = r.id then f x else some x } }
    if r.write then (if ok && wr then set fun _ => none else set fun x => some { x with answered := true, failed := true, ats := false })
    else if ok && rd then
      (if d.unheld then .all [set fun x => some { x with ats := false }, .send (.hostReadReq fn r.id (d.hostAddr fn r.addr) r.len (d.hostMark fn r.addr))]
      else set fun x => some { x with ats := false, queued := true })
    else set fun x => some { x with answered := true, failed := true, ats := false }

/-- The engines' own accesses of a page that has been translated, or refused: while the gong is active one that is permitted waits
(R348). -/
def Upd.answerAsks (fn base size : Nat) (ok rd wr : Bool) : Upd :=
  .read fun d =>
    let mine (a : Ask) : Bool := a.fn = fn && !a.granted && base ≤ a.addr && a.addr < base + size
    let good (a : Ask) : Bool := ok && (if a.use = .descriptor then rd else wr)
    let later (a : Ask) : Bool := good a && !d.unheld
    .all [
      .of fun d => { d with ho := { d.ho with asks := d.ho.asks.filterMap fun a =>
        (if !mine a then some a else if later a then some { a with granted := true } else none) } },
      .each (d.ho.asks.filter fun a => mine a && !later a) fun a => .askDone a (good a),
      .sendBehind fn]

/-- The reads whose translations came while the gong was active are sent (R351). -/
def Upd.sendQueued : Upd :=
  .read fun d => .all [
    .each (d.ho.reads.filter (·.queued)) fun r => .read fun d => .send (.hostReadReq (d.readFn r) r.id (d.hostAddr (d.readFn r) r.addr) r.len
        (d.hostMark (d.readFn r) r.addr)),
    .of fun d => { d with ho := { d.ho with reads := d.ho.reads.map fun r => { r with queued := false }, asks := d.ho.asks.filter (!·.granted) } },
    .each (d.ho.asks.filter (·.granted)) fun a => .all [.askDone a true, .sendBehind a.fn]]

/-- The repairs that were asked for while the gong was active begin (R350). -/
def Upd.spareQueued : Upd :=
  .each (List.range 32) .nextSpare

/-- ATS_TRANSLATION_COMPLETION (R228, R229): the host's translation of a page arrives, or its refusal; a poisoned one counts as a refusal
(R387). -/
def execAtsTranslationCompletion (fn addr : Nat) (ok : Bool) (target log2 : Nat) (rd wr : Bool) (s : State)
    (tlp : Tlp := {}) : Host.Outcome State Fault Refusal :=
  s.act (.atsTranslationCompletion fn addr ok target log2 rd wr tlp) (.read fun d =>
    let size := max 12 log2
    let base := addr / 2 ^ size * 2 ^ size
    let waiting := d.ho.reads.filter fun r => r.ats && d.readFn r = fn && base ≤ r.addr && r.addr < base + 2 ^ size
    let asks := d.ho.asks.filter fun a => a.fn = fn && !a.granted && base ≤ a.addr && a.addr < base + 2 ^ size
    let ok := ok && !tlp.poisoned
    let denied := !ok || (waiting.any fun r => if r.write then !wr else !rd) || asks.any fun a => if a.use = .descriptor then !rd else !wr
    .when (d.up && d.xl.atsOn.contains fn && !(waiting.isEmpty && asks.isEmpty)) (.received fn (.all [
      .when (ok && (rd || wr)) (.inject xltDevPage 0 fun bad =>
        .of fun d => { d with xl := { d.xl with atc := (⟨fn, base, size, target / 2 ^ size * 2 ^ size, rd, wr, bad⟩ :: d.xl.atc).take 4096 } }),
      .when denied (.raise xltDevPage (oneBit 1)),
      .when tlp.poisoned (.pcxError 2),
      .each waiting fun r => .atsAnswer r fn ok rd wr,
      .answerAsks fn base (2 ^ size) ok rd wr]) tlp))

/-- ATS_INVALIDATION_REQUEST (R230): the entries that it covers are dropped; the reads translated through them are noted. -/
def execAtsInvalidationRequest (fn tag addr log2 : Nat) (s : State) : Host.Outcome State Fault Refusal :=
  s.act (.atsInvalidationRequest fn tag addr log2) (.read fun d =>
    .when d.up (.received fn (.all [
      .of fun d =>
        let size := max 12 log2
        let base := addr / 2 ^ size * 2 ^ size
        let atc := d.xl.atc.filter fun x => !(x.fn = fn && x.base < base + 2 ^ size && base < x.base + 2 ^ x.log2)
        let dropped := d.xl.atc.filter fun x => !atc.contains x
        let ids := (d.ho.reads.filter fun r => !r.answered && !r.ats && d.readFn r = fn &&
          (base < r.addr + r.len && r.addr < base + 2 ^ size ||
            dropped.any fun x => x.base < r.addr + r.len && r.addr < x.base + 2 ^ x.log2)).map (·.id)
        { d with xl := { d.xl with atc := atc, atsInvals := d.xl.atsInvals ++ [(fn, tag, ids)] } },
      .count (xltDevPage + 0x90)])))

/-- ATS_INVALIDATION_COMPLETION (R230): with no request translated through a dropped entry outstanding, the device answers
the Invalidation Request. -/
def execAtsInvalidationCompletion (fn tag : Nat) (s : State) : Host.Outcome State Fault Refusal :=
  s.act (.atsInvalidationCompletion fn tag) (.read fun d =>
    match d.xl.atsInvals.find? fun x => x.1 = fn && x.2.1 = tag with
    | none => .skip
    | some x =>
      .when (d.up && !(d.ho.reads.any fun r => x.2.2.contains r.id && !r.answered)) (.all [
        .of fun d => { d with xl := { d.xl with atsInvals := d.xl.atsInvals.erase x } },
        .send (.invalCpl fn tag)]))

/-! ### Completions from the host (R229, R269, R365) -/

/-- A read of the host is answered. Data of a read that nobody waits for any more is dropped. -/
def Upd.hostAnswer (id : Nat) (ok : Bool) (data : List Byte) : Upd :=
  .of fun d =>
    let answer (r : HostRead) : HostRead :=
      { r with answered := true, failed := !ok, data := (data ++ List.replicate r.len 0).take r.len }
    let reads := d.ho.reads.map fun r => if r.id = id then answer r else r
    { d with ho := { d.ho with reads := reads.filter fun r => !(r.dropped && r.answered) } }

/-- PCIE_COMPLETION (R229): a completion for a read arrives, with data or an error status; a poisoned one counts as one with an
error status (R387), and one for no read outstanding is an Unexpected Completion (R405). -/
def execPcieCompletion (id : Nat) (ok : Bool) (data : List Byte) (s : State) (tlp : Tlp := {}) : Host.Outcome State Fault Refusal :=
  s.act (.pcieCompletion id ok data tlp) (.read fun d =>
    let good := ok && !tlp.poisoned
    match d.ho.reads.find? fun r => r.id = id && !r.answered && !r.ats with
    | none => .when d.linkUp (.aer .unexpectedCompletion)
    | some r => .when d.up (.received (d.readFn r) (.all [
        .hostAnswer id good data, .count (pcxPage + 0x80) (if good then r.len else 0),
        .when tlp.poisoned (.pcxError 2), .when (!ok) (.pcxError 1)]) tlp))

/-- COMPLETION_TIMEOUT (R229): a read of the host ends without a completion. -/
def execCompletionTimeout (id : Nat) (s : State) : Host.Outcome State Fault Refusal :=
  s.act (.completionTimeout id) (.read fun d =>
    .when (d.up && d.ho.reads.any fun r => r.id = id && !r.answered && !r.ats)
      (.all [.hostAnswer id false [], .pcxError 1, .count (pcxPage + 0x98)]))

/-! ### Inbound windows (R234, R235) -/

/-- A window entry is rewritten: its parity is good again (WIN page). -/
def Upd.windowGood (entry : Nat) : Upd := .of fun d => { d with xl := { d.xl with winBad := d.xl.winBad.filter (· ≠ entry) } }

/-- A write of WIN.IN_CFG: the staged base and size take effect with it, and the entry's parity is good. -/
def Upd.inCfg (data : Word) : Upd :=
  .read fun d =>
    let w := fieldOf (d.reg (winPage + 0x48)) 9 0
    let base := d.pair (winPage + 0x4C) % 2 ^ 44
    let units := fieldOf (d.reg (winPage + 0x54)) 21 0
    .all [.windowGood (1024 + w), .of fun d => { d with xl := { d.xl with winIn := put d.xl.winIn w (base, units, data &&& 0xF0FF1FFF) (0, 0, 0) } }]

/-- IN_CFG (R235). -/
def execInCfg (fn : Nat) (data : Word) (s : State) : Host.Outcome State Fault Refusal :=
  s.hostAct (.inCfg fn data) fn (.read fun d => .when (d.up && fn = 0) (.inCfg data)) 7

end Sys2Proof.Machine
end

