-- ==== Sys2Proof/Machine/Records.lean ====
section
/-! DEFINITION. The region fault queues, the device fault log, and the links between the dies (07_memory.md R236 to R239,
12_faults.md R357 to R360, 01_architecture.md R26). -/

namespace Sys2Proof.Machine

/-! ### Region fault queues (R236 to R239) -/

/-- Records in a region's ring (R237). -/
def Device.ringUsed (d : Device) (r : Nat) : Nat :=
  (d.regN (fltPage r + 0x48) + 2048 - d.regN (fltPage r + 0x4C)) % 2048

/-- A record takes its number and is written at HEAD, when the ring's memory is populated (R236, R237); it is `some` with its
number then. The interrupt follows when the ring was empty (FLT.CTRL.irq). -/
def Upd.ringWrite (r : Nat) (rec : FaultRec) (held : Bool) (k : Nat → Upd) : Upd :=
  .read fun d =>
    let p := fltPage r
    let head := d.regN (p + 0x48)
    let at' := d.pair (p + 0x40) % 2 ^ 44 / 65536 * 65536 + head % 1024 * 64
    let seq := (look d.fl.seq r 0 + 1) % 2 ^ 32
    if !populated at' then k 0 else .all [
      .of fun d => { d with fl := { d.fl with seq := put d.fl.seq r seq 0 } },
      .write 0 at' (recordBytes rec seq (d.regN (p + 0x50)) (head / 1024 % 2 = 0) held),
      .setReg (p + 0x48) (BitVec.ofNat 32 ((head + 1) % 2048)),
      .when (d.ringUsed r = 0 && bitOf (d.reg (p + 0x04)) 1) (.cross r 6 (.msix 0 (1 + r))),
      k seq]

/-- A record goes on to the device fault log (R357), with the number of its region's record, and into the trace (R339). -/
def Upd.passUp (r : Nat) (rec : FaultRec) (seq : Nat) : Upd :=
  .all [
    .of fun d => { d with fl := { d.fl with toLog := d.fl.toLog ++ [{ rec with regionSeq := seq }] } },
    .trace r 8 0x10 ([BitVec.ofNat 8 rec.source, BitVec.ofNat 8 (rec.ctx.getD 0), 0] ++ toBytes 4 rec.tag ++ toBytes 2 rec.code ++ toBytes 4 seq),
    .trigger r 5 8]

/-- The slots of an engine bound to a context freeze, or all its slots resume (R238). -/
def Upd.freezeSlots (e c : Nat) : Upd :=
  .each (List.range 8) fun s => .read fun d =>
    .when ((d.slot e s).state ≠ .unbound && (d.slot e s).ctx = c) (.slot e s fun t => { t with frozen := true })
def Upd.thawSlots (e : Nat) : Upd := .each (List.range 8) fun s => .slot e s fun t => { t with frozen := false }

/-- A record reaches its region's queue: it is written, held, or only counted (R237 to R239). -/
def Upd.takeRecord (r : Nat) (rec : FaultRec) : Upd :=
  .read fun d =>
    let p := fltPage r
    let e := r * 8 + rec.source / 16
    if !bitOf (d.reg (p + 0x04)) 0 then .all [.sat (p + 0x50), .passUp r rec 0]
    else if d.ringUsed r < 1024 then .ringWrite r rec false fun seq => .passUp r rec seq
    else .all [
      .sat (p + 0x50), .raise p (oneBit 0),
      match rec.ctx with
      | some c => .when (rec.source / 16 < 8 && (d.eng e).held.isNone)
          (.all [.eng e fun g => { g with held := some rec }, .freezeSlots e c])
      | none => .skip,
      .passUp r rec 0]

/-- FAULT_RECORD (R357, R238): the oldest record detected in the region reaches its fault queue. -/
def execFaultRecord (region : Nat) (s : State) : Host.Outcome State Fault Refusal :=
  s.act (.faultRecord region) (.read fun d =>
    match d.fl.detected.find? (·.region = region) with
    | none => .skip
    | some rec => .when d.up (.all [
        .of fun d => { d with fl := { d.fl with detected := d.fl.detected.erase rec } }, .takeRecord region rec]))

/-- A record that is on its way to the device fault log takes the number that its region's ring has given it meanwhile (R359). -/
def Upd.loggedAs (r : FaultRec) (seq : Nat) : Upd :=
  .read fun d =>
    let same : FaultRec → Bool := fun x => x = { r with regionSeq := 0 }
    match List.findIdx? same d.fl.toLog with
    | some i => .of fun d => { d with fl := { d.fl with toLog := d.fl.toLog.modify i fun x => { x with regionSeq := seq } } }
    | none => .skip

/-- The held records of a region are written while the ring has room, in ascending block order, and their engines' slots
resume (R238 step 4). -/
def Upd.writeHeld (r : Nat) : Upd :=
  .each (List.range 8) fun b => .read fun d =>
    match (d.eng (r * 8 + b)).held with
    | none => .skip
    | some rec => .when (d.ringUsed r < 1024 && bitOf (d.reg (fltPage r + 0x04)) 0) (.all [
        .ringWrite r rec true fun seq => .loggedAs rec seq, .eng (r * 8 + b) fun g => { g with held := none }, .thawSlots (r * 8 + b)])

/-- A write of FLT.TAIL: a value that would make more than 1,024 records present is ignored. -/
def Upd.fltTail (r : Nat) (data : Word) : Upd :=
  .read fun d =>
    let tail := fieldOf data 10 0
    .when ((d.regN (fltPage r + 0x48) + 2048 - tail) % 2048 ≤ 1024)
      (.all [.setReg (fltPage r + 0x4C) (BitVec.ofNat 32 tail), .writeHeld r])

/-- FLT_TAIL_WRITE (R238). -/
def execFltTailWrite (fn region : Nat) (data : Word) (s : State) : Host.Outcome State Fault Refusal :=
  s.hostAct (.fltTailWrite fn region data) fn (.read fun d => .when (d.up && fn = 0) (.fltTail region data)) region

/-- A write of FLT.CTRL: with enable 0 the held records are discarded and their slots resume (R239). -/
def Upd.fltCtrl (r : Nat) (data : Word) : Upd :=
  .all [
    .setReg (fltPage r + 0x04) (data &&& 3),
    .when (!bitOf data 0) (.each (List.range 8) fun b => .read fun d =>
      .when (d.eng (r * 8 + b)).held.isSome (.all [.eng (r * 8 + b) fun g => { g with held := none }, .thawSlots (r * 8 + b)]))]

/-- FLT_ENABLE (R239). -/
def execFltEnable (fn region : Nat) (data : Word) (s : State) : Host.Outcome State Fault Refusal :=
  s.hostAct (.fltEnable fn region data) fn (.read fun d => .when (d.up && fn = 0) (.fltCtrl region data)) region

/-! ### The device fault log (R358 to R360) -/

/-- Entries of the log that are not consumed (R358). -/
def Device.logUsed (d : Device) : Nat :=
  (d.regN (rstDevPage + 0x48) + 512 - d.regN (rstDevPage + 0x4C)) % 512

/-- An entry reaches the log: the ring, or when that is full the overflow entry; and the device fault vector, when the entry
asks for it and RST.ERR_ENABLE.log_entry is 1 (R358 to R360). -/
def Upd.logEntry (rec : FaultRec) : Upd :=
  .read fun d =>
    let seq := (d.fl.logSeq + 1) % 2 ^ 32
    let head := d.regN (rstDevPage + 0x48)
    let alarm := rec.enabled || rec.level = 3
    .all [
      .of fun d => { d with fl := { d.fl with logSeq := seq } },
      if d.logUsed < 256 then .all [
        .of fun d => { d with fl := { d.fl with log := put d.fl.log (head % 256) (logBytes rec seq (d.regN (rstDevPage + 0x54))) [] } },
        .setReg (rstDevPage + 0x48) (BitVec.ofNat 32 ((head + 1) % 512))]
      else .all [
        .sat (rstDevPage + 0x54), .raise rstDevPage (oneBit 2), .when (d.enabled rstDevPage 2) .faultVector,
        .of fun d => { d with fl := { d.fl with ovf := logBytes rec seq (d.regN (rstDevPage + 0x54)) } }],
      .when alarm (.all [.raise rstDevPage (oneBit 0), .when (d.enabled rstDevPage 0) .faultVector])]

/-- DEVICE_LOG_ENTRY (R23, R357 to R360): the oldest record on its way reaches the device fault log on IO die A. -/
def execDeviceLogEntry (s : State) : Host.Outcome State Fault Refusal :=
  s.act .deviceLogEntry (.read fun d =>
    match d.fl.toLog with
    | [] => .skip
    | rec :: rest => .when (d.clk.power ≠ .off && d.clk.power ≠ .perst)
        (.all [.of fun d => { d with fl := { d.fl with toLog := rest } }, .cross rec.region 6 (.logEntry rec)]))

/-- A write of RST.LOG_TAIL: a value that would leave more than 256 entries is ignored (R358). -/
def Upd.logTail (data : Word) : Upd :=
  .read fun d =>
    let tail := fieldOf data 8 0
    .when ((d.regN (rstDevPage + 0x48) + 512 - tail) % 512 ≤ 256) (.setReg (rstDevPage + 0x4C) (BitVec.ofNat 32 tail))

/-! ### Links between the dies (R26, R458) -/

/-- NOC_RETRANSMIT (R26): a flit that a die receives over a link fails its CRC a number of times in a row and is sent again;
the eighth failure is a device error. An injection fails the next flit of the die's lowest-numbered link 8 times. -/
def execNocRetransmit (die link fails : Nat) (s : State) : Host.Outcome State Fault Refusal :=
  s.act (.nocRetransmit die link fails) (.read fun d =>
    .when (d.up && linkEnds die link) (.inject (nocPage die) 1 fun inj =>
      if inj then .flitFails die (lowestLink die) 8 true else .flitFails die link (min fails 8) false))

end Sys2Proof.Machine
end

