-- ==== Sys2Proof/Machine/Links.lean ====
section
/-! DEFINITION. The Zwirid links: flits, replay and encryption of a hop, requests and their answers, peers, holding, and the
training of ports (09_bells_links.md R289 to R309, 07_memory.md R233 to R235, 14_security_mgmt.md R422). -/

namespace Sys2Proof.Machine

/-! ### Flits (R291 to R296) -/

/-- The port receives: it is trained, whether or not one of its ends is holding. A device reset leaves the links up, whatever state it
ends in (R306). -/
def Device.portOn (d : Device) (p : Nat) : Bool :=
  (d.up || d.clk.power = .resetting || d.clk.power = .held || d.clk.power = .fwFail) && ((d.port p).state = .up || (d.port p).state = .holdRx || (d.port p).state = .holdTx)

/-- A flit is discarded with every later one, and a NAK names the flit expected (R294). -/
def Upd.sendNak (port : Nat) : Upd :=
  .read fun d =>
    let q := d.port port
    .when (!q.nakSent) (.all [.port port fun q => { q with nakSent := true }, .sendFlit port (.nak q.rxSeq)])

/-- The credits of a flit are taken, and what they let through is sent (R291, R293); ack advances. -/
def Upd.takeCredit (port : Nat) (h : FlitHead) : Upd :=
  .all [.port port fun q => { q with acked := h.ack, credit := put q.credit h.vc (look q.credit h.vc 0 + h.credit) 0 },
    .when (h.credit ≠ 0) (.pump port)]

/-- A flit other than an idle flit arrives (R294): one with a bad codeword or CRC, or out of sequence, is discarded; the one
expected is taken and acts. A bad one is named in a NAK again though one was sent before: it may be the flit that was sent again. -/
def Upd.takeFlit (port : Nat) (h : FlitHead) (u : Upd) : Upd :=
  .read fun d => .when (d.portOn port) (
    if !h.good then .all [.sat (portPage port + 0x48), .linkError port 0 0x0405 true,
      .port port fun q => { q with nakSent := false }, .sendNak port]
    else if h.seq ≠ (d.port port).rxSeq then .sendNak port
    else .all [.port port fun q => { q with rxSeq := (h.seq + 1) % 65536, nakSent := false }, u])

/-- A flit other than a data flit, whose credits count at once. -/
def Upd.takeControl (port : Nat) (h : FlitHead) (u : Upd) : Upd := .takeFlit port h (.all [u, .takeCredit port h])

/-- DATA_FLIT (R294, R349): a data flit joins the group that the next MAC flit closes; the marked packets in it are logged (R304).
Its credits wait for its group's tag, so that a group that fails and comes again brings them once (R293; DEDUCED, log 158). While the
gong is active it goes into the port's buffers, and an idle flit makes it known. -/
def execDataFlit (port : Nat) (head : FlitHead) (packets : List Packet) (s : State) : Host.Outcome State Fault Refusal :=
  s.act (.dataFlit port head packets) (.all [
    .read fun d => .when (d.portOn port && d.gongOn)
      (.of fun d => { d with ob := { d.ob with gong := { d.ob.gong with flitsRx := min (d.ob.gong.flitsRx + 1) 0xFFFFFFFF } } }),
    .takeFlit port head (.all [
      .port port fun q => { q with group := q.group ++ [⟨head, packets⟩] },
      .each packets (.crossing 0x32 port head.seq),
      .read fun d => .when d.gongOn (.sendFlit port .idle)])])

/-- NAK (R294, R349): the transmitter resends from the flit named, after the gong when that is active; the eighth resending of
one flit in a row retrains the port. -/
def execNak (port seq : Nat) (s : State) (head : FlitHead := {}) : Host.Outcome State Fault Refusal :=
  s.act (.nak port seq head) (.takeControl port head (.read fun d =>
    let q := d.port port
    let n := if q.nakSeq = seq then q.resends + 1 else 1
    .when (!(fromSeq q.replay seq).isEmpty) (.all [
      .sat (portPage port + 0x4C),
      .port port fun q => { q with resends := n, nakSeq := seq },
      if n ≥ 8 then .all [.linkError port 1 0x0406, .retrain port]
      else if d.portSends port then .resend port seq
      else .port port fun q => { q with nakDue := some seq }])))

/-- The receive buffers of a port that are free are made known to the partner, in an idle flit for each channel (R291, R293; log
135). -/
def Upd.advertise (port : Nat) : Upd :=
  .all [
    .port port fun q =>
      let free (vc : Nat) : Nat := Config.linkBuffer vc - ((q.rx.filter (·.vc = vc)).map Packet.units).sum
      { q with owed := (free 0, free 1, free 2), credit := [] },
    .times 3 (.sendFlit port .idle)]

/-- RETRAIN_DONE (R294, R306): the port returns to routing. Flits left in its replay buffer are discarded (R299), and both
ends number their flits anew (log 6). -/
def execRetrainDone (port : Nat) (s : State) : Host.Outcome State Fault Refusal :=
  s.act (.retrainDone port) (.read fun d =>
    .when (d.up && (d.port port).state = .training && (d.port port).lanes ≠ 0) (.all [
      .port port fun q => { q with
        state := if d.lk.holdTx then .holdTx else .up, replay := [], txSeq := 0, rxSeq := 0, nakSent := false, nakSeq := 0,
        nakDue := none },
      .advertise port, .pump port]))

/-- REPLAY_EXPIRY (R299): the oldest flit of the replay buffer is no longer sent. -/
def execReplayExpiry (port : Nat) (s : State) : Host.Outcome State Fault Refusal :=
  s.act (.replayExpiry port) (.port port fun q => { q with replay := q.replay.drop 1 })

/-- A port goes out of use (R295, R301): it is removed from routing, and what waits in it is recovered end to end. -/
def Upd.portDown (port : Nat) (st : PortState) : Upd :=
  .port port fun q => { q with
    state := st, lanes := 0, partnerSwitch := false, partner := (0, 0), replay := [], waiting := [], group := [], rx := [], credit := [],
    owed := (0, 0, 0), txOpen := 0, macRun := 0, resends := 0, nakSent := false, nakDue := none, nextKey := none, rxNext := none, txKey := {}, rxKey := {}, requester := false }

/-- MAC_FLIT (R295, R296): the tag of the group received since the last MAC flit is verified under the key that the phase of its
flits selects; ok says that it is right for it. A group counter that is not the one expected does not verify (DEDUCED, log 158). A group
that verifies is delivered, and its credits count. A failed tag discards it and is handled as
a NAK for its first flit; the third in a row takes the port down. -/
def execMacFlit (port : Nat) (head : FlitHead) (s : State) (ok : Bool := true) (counter : Option Nat := none) :
    Host.Outcome State Fault Refusal :=
  s.act (.macFlit port head ok counter) (.takeControl port head (.read fun d =>
    let q := d.port port
    if ok && counter.all (· = q.rxGroup) && head.phase = q.rxPhase && q.group.all (·.head.phase = q.rxPhase) then .all [
      .count (portPage port + 0x68) q.group.length,
      .port port fun q => { q with rx := q.rx ++ q.group.flatMap (·.packets), group := [], macRun := 0, rxGroup := q.rxGroup + 1 },
      .each q.group fun g => .takeCredit port g.head]
    else .all [
      .sat (portPage port + 0x50), .linkError port 2 0x0407,
      .port port fun q => { q with
        group := [], macRun := q.macRun + 1, rxSeq := ((q.group.head?).map (·.head.seq)).getD head.seq, nakSent := false },
      .sendNak port,
      .when (q.macRun ≥ 2) (.all [.linkError port 3 0x0408, .portDown port .down])]))

/-- KEY_CHANGE (R296): the partner announces its next key; the phase of its later flits selects it, and its group counter starts
anew under it. Without a next key the announcement has no effect (log 137). -/
def execKeyChange (port : Nat) (s : State) (head : FlitHead := {}) : Host.Outcome State Fault Refusal :=
  s.act (.keyChange port head) (.takeControl port head (.port port fun q =>
    match q.rxNext with
    | some k => { q with rxPhase := !q.rxPhase, rxGroup := 0, rxKey := k, rxNext := none }
    | none => q))

/-- IDLE_FLIT (R291, R293): credits return and ack advances. An idle flit has no sequence number of its own; one that is damaged
is discarded. -/
def execIdleFlit (port ackSeq vc credit : Nat) (good : Bool) (s : State) : Host.Outcome State Fault Refusal :=
  s.act (.idleFlit port ackSeq vc credit good) (.read fun d =>
    .when (d.portOn port) (
      if !good then .all [.sat (portPage port + 0x48), .linkError port 0 0x0405 true]
      else .takeCredit port { ack := ackSeq, vc := vc, credit := credit }))

/-! ### Peers (R305 to R309) -/

/-- The peer's state changes. -/
def Upd.setPeer (p : Nat) (st : PeerState) : Upd :=
  .of fun d => { d with lk := { d.lk with peers := put d.lk.peers p (st, if st = .normal then 0 else d.clk.time) (.normal, 0) } }

/-- A NORMAL peer enters HOLD (R305). -/
def Upd.peerHold (p port : Nat) : Upd :=
  .read fun d => .when (d.peer p = .normal) (.all [
    .setPeer p .hold, .count (zwlPage + 0x98),
    .error zwlPage 5 (deviceRec 0x040A 7 (detailL port p (if port < 18 then (d.port port).faults else 0)))])

/-- An answer other than HOLD, or HOLD_OFF, ends HOLD (R305). -/
def Upd.peerBack (p : Nat) : Upd := .read fun d => .when (d.peer p = .hold) (.setPeer p .normal)

/-- The current command of a slot ends with a status that its traffic brought, unless it has failed before. -/
def Upd.failSlot (key : Nat) (st : Status) (code : Nat) (f : FaultRec → FaultRec) : Upd :=
  .read fun d =>
    let e := key / 8
    let s := key % 8
    match (d.slot e s).cur with
    | none => .skip
    | some c => .when (c.status = none || c.status = some .ok)
        (.decide e s st (some (f ((engRec code e).ofCmd (d.slot e s).ctx s c.desc))))

/-- A peer enters LOST (R309): every command with a request awaiting its answer ends with PEER_LOST, and the link interrupt is
raised. A BELL is sent when its command has ended, and a read may outlive a flushed one: those belong to no command (R267, R269). -/
def Upd.losePeer (p : Nat) (injected : Bool) : Upd :=
  .read fun d =>
    let mine := d.lk.reqs.filter fun r => r.dst = p && !r.answered
    .all [
      .setPeer p .lost, .raise zwlPage (oneBit 6), .msix 0 5,
      .each (mine.filter fun r => r.kind ≠ .bell && !r.orphan) fun r => .failSlot r.slot .peerLost 0x020E fun f => { f with detail := detailL 0xFF p 0, injected := injected },
      .of fun d => { d with lk := { d.lk with reqs := d.lk.reqs.filter fun r => !(r.dst = p && !r.answered) } }, .launchHeld]

/-- HOLD_ON (R305): the peer holds; a port cabled to it is in HOLD_RX. -/
def execHoldOn (port src : Nat) (s : State) (head : FlitHead := {}) : Host.Outcome State Fault Refusal :=
  s.act (.holdOn port src head) (.takeControl port head (.all [
    .peerHold src port,
    .port port fun q => { q with state := if q.state = .up ∧ !q.partnerSwitch then .holdRx else q.state }]))

/-- HOLD_OFF (R305). -/
def execHoldOff (port src : Nat) (s : State) (head : FlitHead := {}) : Host.Outcome State Fault Refusal :=
  s.act (.holdOff port src head) (.takeControl port head (.all [
    .peerBack src,
    .port port fun q => { q with state := if q.state = .holdRx then .up else q.state }]))

/-- PEER_SILENT (R305): no answer has come from a peer with requests awaiting one. The timer stands still while the gong is
active. -/
def execPeerSilent (peer : Nat) (s : State) : Host.Outcome State Fault Refusal :=
  s.act (.peerSilent peer) (.read fun d =>
    .when (d.up && d.unheld && d.lk.reqs.any fun r => r.dst = peer && !r.answered) (.peerHold peer 0xFF))

/-- PEER_LOST (R305, R309): a peer has been in HOLD for ZWL.HOLD_TIME. -/
def execPeerLost (peer : Nat) (s : State) : Host.Outcome State Fault Refusal :=
  s.act (.peerLost peer) (.read fun d => .when (d.up && d.peer peer = .hold) (.losePeer peer false))

/-- A write of ZWL.PEER_STATE for the peer that PEER_SEL shows. -/
def Upd.peerClear (data : Word) : Upd :=
  .read fun d =>
    let p := fieldOf (d.reg (zwlPage + 0x58)) 12 0
    .when (bitOf data 31 && d.peer p = .lost) (.setPeer p .normal)

/-- PEER_CLEAR (R305). -/
def execPeerClear (fn : Nat) (data : Word) (s : State) : Host.Outcome State Fault Refusal :=
  s.hostAct (.peerClear fn data) fn (.read fun d => .when (d.up && fn = 0) (.peerClear data)) 7

/-- HOLD_ON is sent on every port that this device holds, or is about to (R306). -/
def Upd.holdBeacon : Upd :=
  .each (List.range 18) fun p => .read fun d => .when ((d.port p).state = .holdTx) (.sendFlit p .holdOn)

/-- HOLD_BEACON (R306): HOLD_ON is repeated while the device holds. -/
def execHoldBeacon (s : State) : Host.Outcome State Fault Refusal :=
  s.act .holdBeacon (.read fun d => .when (d.lk.holdTx && d.clk.power ≠ .off && d.clk.power ≠ .perst) .holdBeacon)

/-- A write of ZWL.RELEASE: HOLD_TX ends, HOLD_OFF is sent on every port, and requests are accepted (R306). -/
def Upd.releaseLinks (data : Word) : Upd :=
  .read fun d => .when (bitOf data 0 && d.lk.holdTx) (.all [
    .of fun d => { d with lk := { d.lk with holdTx := false } },
    .each (List.range 18) fun p => .read fun d =>
      .when ((d.port p).state = .holdTx) (.all [.port p fun q => { q with state := .up }, .sendFlit p .holdOff, .pump p])])

/-- RELEASE (R306). -/
def execRelease (fn : Nat) (data : Word) (s : State) : Host.Outcome State Fault Refusal :=
  s.hostAct (.release fn data) fn (.read fun d => .when (d.up && fn = 0) (.releaseLinks data)) 7

/-! ### Requests that arrive (R234, R235, R297) -/

/-- The port has delivered a packet of this type with these fields (R295); nothing is taken from its buffers while the gong is
active (R348, R349). -/
def Device.arrived (d : Device) (port : Nat) (f : Packet → Bool) : Option Packet :=
  if d.portOn port && d.unheld then (d.port port).rx.find? f else none

/-- A delivered packet leaves the port's buffers and acts; the credits that it held go back with the next flit (R291, R293). -/
def Upd.takePacket (port : Nat) (f : Packet → Bool) (u : Upd) : Upd :=
  .read fun d => match d.arrived port f with
    | none => .skip
    | some p => .all [
        .port port fun q => { q.owe p.vc (· + p.units) with rx := q.rx.erase p }, u, .returnCredits port]

/-- A response leaves through a port whose mask holds the requester, the one that its next request would take, and is no part of that
rotation (R301); with none it is lost and the request comes again. -/
def Upd.respond (dst type seq len : Nat) (data : List Byte) : Upd :=
  .read fun d => match d.nextPort dst with
    | some p => .packet p { type := type, len := len, dst := dst, src := d.devId, seq := seq, data := data }
    | none => .skip

/-- A request is answered with HOLD while the device holds (R306), else handled. -/
def Upd.inbound (port src seq : Nat) (f : Packet → Bool) (u : Upd) : Upd :=
  .takePacket port f (.read fun d => if d.lk.holdTx then .respond src 6 seq 0 [] else u)

/-- Why an inbound window refuses an access (R234): the code of the first check that fails, or where it reaches and under
which key slot. An access to unpopulated memory counts as out of range, an EMPTY key slot as an invalid window (log 54). -/
def Device.windowCheck (d : Device) (src window offset len : Nat) (write : Bool) : Nat ⊕ (Nat × Nat) :=
  let w := look d.xl.winIn window (0, 0, 0)
  let cfg := w.2.2
  let key := fieldOf cfg 23 16
  let at' := w.1 / 2 ^ 21 * 2 ^ 21 + offset
  if d.isArmed winPage 1 || d.xl.winBad.contains (1024 + window) then .inl 6
  else if !bitOf cfg 31 || d.keyGen key = 0 then .inl 1
  else if offset + len > w.2.1 * 2 ^ 21 || !populatedRange at' len then .inl 2
  else if !bitOf cfg (if write then 29 else 30) then .inl 3
  else if !bitOf cfg 28 && fieldOf cfg 12 0 ≠ src then .inl 4
  else if (if write then (d.writeUe at' len).isSome else (d.ueIn at' len).isSome) then .inl 5
  else .inr (at', key)

/-- A refused access (R234, WIN page): REJECT with the reason, the count, and the first one in REJ_INFO. -/
def Upd.windowReject (src seq window reason : Nat) : Upd :=
  .read fun d => .all [
    .when (reason = 6) (.windowParity (1024 + window)),
    .count (winPage + 0x68),
    .when (!bitOf (d.reg (winPage + 0x5C)) 31)
      (.setReg (winPage + 0x5C) (BitVec.ofNat 32 (2 ^ 31 + reason * 2 ^ 28 + window * 2 ^ 16 + src))),
    .error winPage 0 (deviceRec 0x040C 7 (detailN window)) true,
    .respond src 7 seq reason []]

/-- WRITE (R234, R297): a write packet is checked, carried out and acknowledged, or refused. The lines of a write that are
not uncorrectable are written even when one is (R215). -/
def execWriteReq (port src seq window offset : Nat) (data : List Byte) (s : State) : Host.Outcome State Fault Refusal :=
  s.act (.writeReq port src seq window offset data) (.inbound port src seq (fun p => p.type = 1 && p.src = src && p.seq = seq && p.window = window && p.offset = offset && p.data = data) (.read fun d =>
    .when (!outside data.length 1 512) (match d.windowCheck src window offset data.length true with
    | .inl reason =>
      let w := look d.xl.winIn window (0, 0, 0)
      .all [.when (reason = 5) (.write (fieldOf w.2.2 23 16) (w.1 / 2 ^ 21 * 2 ^ 21 + offset) data), .windowReject src seq window reason]
    | .inr (at', key) => .all [
        .count (winPage + 0x60), .count (zwlPage + 0x88), .write key at' data, .respond src 4 seq 0 []])))

/-- READ (R234, R297): a read packet is checked and answered with READ_DATA, or refused. -/
def execReadReq (port src seq window offset len : Nat) (s : State) : Host.Outcome State Fault Refusal :=
  s.act (.readReq port src seq window offset len) (.inbound port src seq (fun p => p.type = 2 && p.src = src && p.seq = seq && p.window = window && p.offset = offset && p.len + 1 = len) (.read fun d =>
    .when (!outside len 1 512) (match d.windowCheck src window offset len false with
    | .inl reason =>
      let w := look d.xl.winIn window (0, 0, 0)
      .all [.when (reason = 5) (.touch (w.1 / 2 ^ 21 * 2 ^ 21 + offset) len), .windowReject src seq window reason]
    | .inr (at', key) => .all [
        .count (winPage + 0x60), .count (zwlPage + 0x88), .touch at' len,
        .respond src 3 seq (len - 1) (d.bytesAt key at' len)])))

/-- Why a group refuses a remote SIGNAL (BEL page, REJ_INFO.reason): 0 when it does not. -/
def Device.groupDenies (d : Device) (index src : Nat) : Nat :=
  let g := look d.bl.groups (index / 64) 0
  if !bitOf g 31 then 1 else if !bitOf g 30 then 2 else if !bitOf g 29 && fieldOf g 12 0 ≠ src then 3 else 0

/-- BELL (R281, R297): a remote SIGNAL is checked against its group, applied and acknowledged, or refused with
BELL_DENIED; one that meets an uncorrectable counter has no effect and no answer (R287). index is the low 17 bits of the bell name. -/
def execBellReq (port src seq index : Nat) (value : Word64) (s : State) : Host.Outcome State Fault Refusal :=
  s.act (.bellReq port src seq index value) (.inbound port src seq (fun p => p.type = 5 && p.src = src && p.seq = seq && p.offset = index && p.data = toBytes 8 value.toNat) (.read fun d =>
    let page := belPage (bellRegion index)
    match d.groupDenies index src with
    | 0 => .all [.serve (bellRegion index) 8, .bellSignal index value,
        .when (d.bellWhole index) (.all [.count (page + 0x98), .count (zwlPage + 0x88), .respond src 4 seq 0 []])]
    | why => .all [
        .when (!bitOf (d.reg (page + 0x70)) 31)
          (.setReg (page + 0x70) (BitVec.ofNat 32 (2 ^ 31 + why * 2 ^ 28 + src * 2 ^ 15 + index % 32768))),
        .raise page (oneBit 3), .respond src 7 seq 7 []]))

/-! ### Answers that arrive (R297 to R299) -/

/-- The request that an answer names. -/
def Device.reqOf (d : Device) (src seq : Nat) (p : Req → Bool) : Option Req :=
  d.lk.reqs.find? fun r => r.dst = src && r.seq = seq && !r.answered && p r

/-- A request is retired, and the writes that it held back are sent (R299). -/
def Upd.endReq (id : Nat) : Upd := .all [.req id fun _ => none, .launchHeld]

/-- An answer to a request of this device is taken from the port's buffers: any but HOLD shows that the peer is back (R305). -/
def Upd.answered (port src type seq : Nat) (f : Packet → Bool) (u : Upd) : Upd :=
  .takePacket port (fun p => p.type = type && p.src = src && p.seq = seq && f p) (.all [.when (type ≠ 6) (.peerBack src), u])

/-- READ_DATA (R297): a read's data arrives; that of a command that has ended is dropped (R269). -/
def execReadData (port src seq : Nat) (data : List Byte) (s : State) : Host.Outcome State Fault Refusal :=
  s.act (.readData port src seq data) (.answered port src 3 seq (·.data = data) (.read fun d =>
    match d.reqOf src seq fun r => r.kind = .read with
    | none => .skip
    | some r => .req r.id fun r => if r.orphan then none else some { r with answered := true, answer := (data ++ List.replicate r.len 0).take r.len }))

/-- ACK (R299): the request is retired; a WRITE sent more than once waits for WRITE_RETIRE. -/
def execAck (port src seq : Nat) (s : State) : Host.Outcome State Fault Refusal :=
  s.act (.ack port src seq) (.answered port src 4 seq (fun _ => true) (.read fun d =>
    match d.reqOf src seq fun r => r.kind ≠ .read with
    | none => .skip
    | some r => if r.kind = .write ∧ r.sends > 1 then .req r.id fun r => some { r with answered := true } else .endReq r.id))

/-- HOLD (R305): the peer answers a request with HOLD; the request stays. -/
def execHold (port src seq : Nat) (s : State) : Host.Outcome State Fault Refusal :=
  s.act (.hold port src seq) (.answered port src 6 seq (fun _ => true) (.peerHold src port))

/-- The stream of a command's writes through windows (R224): 5 for those of the block DMA engine, 6 for the snare path with its page-list
entries, 7 for a DIGEST_CTL's record, else 3. -/
def outStream (desc : List Byte) : Nat :=
  let op := fieldAt desc 0 1
  if op = opCopy ∨ op = opU4Copy then (if fieldAt desc 48 8 ≤ 256 then 6 else 5)
  else if op = opTranspose then 5
  else if op = opSample ∨ op = opAppend ∨ op = opFork ∨ op = opFree then 6
  else if op = opDigest then 7
  else 3

/-- REJECT (R234, R297, R299): the request ends. A rejected read ends its command when the read is used, a rejected write at once,
and one that was sent more than once is retired later; a rejected BELL sets remote_reject in the signalling region and produces a
record, whose code the spec does not give (log 51). -/
def execReject (port src seq reason : Nat) (s : State) : Host.Outcome State Fault Refusal :=
  s.act (.reject port src seq reason) (.answered port src 7 seq (·.len = reason) (.read fun d =>
    match d.reqOf src seq fun _ => true with
    | none => .skip
    | some r =>
      match r.kind with
      | .read => .req r.id fun r => if r.orphan then none else some { r with answered := true, reason := reason }
      | .write => .all [
          if r.sends > 1 then .req r.id fun r => some { r with answered := true, reason := reason } else .endReq r.id,
          .failSlot r.slot (if reason = 5 then .memUe else .translationFault) (if reason = 5 then 0x020B else 0x020A) fun f =>
            { f with addr := some (3, r.via * 2 ^ 54 + r.offset), cause := causeRemote + reason * 16,
                     stream := outStream (((d.slot (r.slot / 8) (r.slot % 8)).cur.map (·.desc)).getD []) }]
      | .bell => .all [
          .req r.id fun _ => none,
          .draw fun n => .error (belPage (r.slot / 64)) 2 (regionRec ((Config.freshWord n).toNat % 65536) (r.slot / 64))]))

/-- E2E_TIMEOUT (R297): a request without an answer is sent again under its number. -/
def execE2eTimeout (id : Nat) (s : State) : Host.Outcome State Fault Refusal :=
  s.act (.e2eTimeout id) (.read fun d =>
    match d.lk.reqs.find? fun r => r.id = id && !r.answered && 1 ≤ r.sends with
    | none => .skip
    | some r => .when (d.up && d.unheld) (.all [
        .req id fun r => some { r with sends := r.sends + 1, lastSent := d.now },
        .count (zwlPage + 0x90), .transmit r]))

/-- WRITE_RETIRE (R299): 200 us after its last sending an answered WRITE is retired. -/
def execWriteRetire (id : Nat) (s : State) : Host.Outcome State Fault Refusal :=
  s.act (.writeRetire id) (.read fun d =>
    .when (d.up && d.lk.reqs.any fun r => r.id = id && r.kind = .write && r.answered) (.endReq id))

/-! ### Ports (R289, R294, R301, R422; the port pages are management pages, R38) -/

/-- The controls of a port's page act: enable starts partner training or takes the port out of use, retrain trains it
again. -/
def Upd.portControl (port : Nat) (old new : Word) : Upd :=
  .read fun d =>
    let st := (d.port port).state
    if !bitOf new 0 then .when (bitOf old 0 || st ≠ .down) (.portDown port .down)
    else if !bitOf old 0 then .all [.portDown port .training]
    else if !bitOf new 1 then .skip
    else if st = .down ∨ st = .failed then .portDown port .training
    else .retrain port

/-- A write of ZWL.CTRL of a port, staged until the next management tick (R38). -/
def Upd.portWrite (port : Nat) (data : Word) : Upd :=
  .modReg (portPage port + 0x04) fun w => (data &&& 3) ||| (w &&& 2)

/-- PORT_ENABLE (R422). -/
def execPortEnable (fn port : Nat) (data : Word) (s : State) : Host.Outcome State Fault Refusal :=
  s.hostAct (.portEnable fn port data) fn (.read fun d => .when (d.up && fn = 0) (.portWrite port data)) (portDie port)

/-- PORT_RETRAIN (R294). -/
def execPortRetrain (fn port : Nat) (data : Word) (s : State) : Host.Outcome State Fault Refusal :=
  s.hostAct (.portRetrain fn port data) fn (.read fun d => .when (d.up && fn = 0) (.portWrite port data)) (portDie port)

/-- PORT_TRAINED (R289, R407, R422): partner training and the key session end. The lower of two devices is its requester, a switch
never. healthy is false when an entropy health test has failed. A port that does not train all of its 8 lanes, whose partner is not authenticated, or for which no key can be generated, is
FAILED. partner holds the device in bits 12:0 and the port above. -/
def execPortTrained (port : Nat) (ok sw : Bool) (lanes partner : Nat) (s : State) (healthy : Bool := true) :
    Host.Outcome State Fault Refusal :=
  s.act (.portTrained port ok sw lanes partner healthy) (.read fun d =>
    .when (d.up && (d.port port).state = .training && (d.port port).lanes = 0 && !d.clk.lostLink) (.all [.healthTest healthy, .read fun d =>
      if ok && lanes = 255 && !d.se.rngBad then .all [
        .draw fun n => .port port fun q => { q with
          txKey := ⟨Config.linkKey n 0, Config.linkSalt n 0⟩, rxKey := ⟨Config.linkKey n 1, Config.linkSalt n 1⟩,
          requester := sw || d.devId < partner % 8192,
          state := if d.lk.holdTx then .holdTx else .up, lanes := BitVec.ofNat 8 lanes, partnerSwitch := sw,
          partner := (partner % 8192, partner / 8192 % 32), txSeq := 0, rxSeq := 0, txGroup := 0, rxGroup := 0, txPhase := false,
          rxPhase := false, replay := [], group := [], rx := [], nakSeq := 0, acked := 0 },
        .advertise port, .pump port]
      else .all [.linkError port 3 0x0408, .portDown port .failed]]))

/-- LANE_DOWN (R301): a trained port goes down and is removed from routing. -/
def execLaneDown (port : Nat) (s : State) : Host.Outcome State Fault Refusal :=
  s.act (.laneDown port) (.read fun d =>
    .when (d.portOn port || d.up && (d.port port).state = .training && (d.port port).lanes ≠ 0)
      (.all [.linkError port 3 0x0408, .portDown port .down]))

end Sys2Proof.Machine
end

