-- ==== Sys2Proof/Machine/Observation.lean ====
section
/-! DEFINITION. Event counters, the trace stores, the gong, and the clearing of counters (11_observability.md R336 to R351,
16_registers.md R456 to R458). -/

namespace Sys2Proof.Machine

/-! ### Event counters (R336 to R338) -/

/-- An armed counter whose value has reached its threshold fires (R338): it is disarmed, recorded, and its actions act. -/
def Upd.fireMatch (e i : Nat) : Upd :=
  .read fun d =>
    match look d.ob.armed (e * 64 + i) none with
    | none => .skip
    | some a => .when (a.threshold ≤ d.counter e i && d.unheld) (.all [
        .of fun d => { d with ob := { d.ob with armed := put d.ob.armed (e * 64 + i) none none } },
        .trace (e / 8) (e % 8) 0x24 (toBytes 1 e ++ toBytes 1 i ++ toBytes 5 0 ++ toBytes 8 (d.counter e i).toNat),
        .when (bits a.actions 1 1 = 1) (.trigger (e / 8) 3 (e % 8)),
        .when (bits a.actions 2 1 = 1) (.all [.raise (cntPage e) (oneBit 0), .cross (e / 8) 6 (.msix 0 (8 + e))]),
        .when (bits a.actions 0 1 = 1) (.gongRaise (2 * 2 ^ 24 + i * 2 ^ 8 + e * 2 ^ 3))])

/-- A counter is armed, replacing an earlier arming; one that already meets its threshold fires at once (R338). -/
def Upd.armMatch (e i : Nat) (threshold : Word64) (actions : Nat) : Upd :=
  .all [.of fun d => { d with ob := { d.ob with armed := put d.ob.armed (e * 64 + i) (some ⟨threshold, actions % 8⟩) none } },
    .fireMatch e i]

/-- COUNTER_MATCH (R338). -/
def execCounterMatch (e counter : Nat) (s : State) : Host.Outcome State Fault Refusal :=
  s.act (.counterMatch e counter) (.read fun d => .when (d.up && d.blockOn e) (.fireMatch e counter))

/-- The counter that CNT.MATCH_SEL of an engine shows. -/
def Device.matchSel (d : Device) (e : Nat) : Nat := fieldOf (d.reg (cntPage e + 0x4C)) 5 0

/-- A write of CNT.MATCH_ACT: arm 1 arms the selected counter with its threshold; arm 0 disarms it (log 56). -/
def Upd.matchAct (e : Nat) (data : Word) : Upd :=
  .read fun d =>
    let i := d.matchSel e
    let t := look d.ob.thr (e * 64 + i) (0, 0, 0)
    .all [
      .of fun d => { d with ob := { d.ob with thr := put d.ob.thr (e * 64 + i) (t.1, t.2.1, data &&& 7) (0, 0, 0) } },
      if bitOf data 31 then .armMatch e i (BitVec.ofNat 64 (t.1.toNat + t.2.1.toNat * 2 ^ 32)) (fieldOf data 2 0)
      else .of fun d => { d with ob := { d.ob with armed := put d.ob.armed (e * 64 + i) none none } }]

/-- MATCH_ARM (R338). -/
def execMatchArm (fn e : Nat) (data : Word) (s : State) : Host.Outcome State Fault Refusal :=
  s.hostAct (.matchArm fn e data) fn (.read fun d => .when (d.up && fn = 0 && d.blockOn e) (.matchAct e data)) (e / 8)

/-- The 64 counters of an engine return to zero. -/
def Upd.zeroCounters (e : Nat) : Upd :=
  .of fun d => { d with ob := { d.ob with cnt := d.ob.cnt.filter fun p => p.1 / 64 ≠ e } }

/-- A selection comes into force: counter i takes selector f i, and CNT.GEN goes up (R336). The registers show it. -/
def Upd.select (e : Nat) (f : Nat → Word) : Upd :=
  .all [
    .of fun d =>
      let set (m : Sparse Word) (i : Nat) : Sparse Word := put m (e * 64 + i) (f i &&& 0x81FF) 0
      { d with ob := { d.ob with sel := (List.range 64).foldl set d.ob.sel } },
    .each (List.range 64) fun i => .setReg (cntPage e + 0x100 + 4 * i) (f i &&& 0x81FF),
    .modReg (cntPage e + 0x40) (· + 1)]

/-- A command of the engine has run and its record is still to come: one that runs, or that was preempted or stopped. -/
def Device.midCommand (d : Device) (e : Nat) : Bool :=
  (d.eng e).run.isSome || (List.range 8).any fun s => (d.slot e s).cur.any fun c => c.cntBase ≠ [] || c.paused ≠ 0

/-- At a command boundary the staged clear and the staged selection of an engine take effect, unless a command has begun under the
selection in force, so that its record is computed under one (R336; DEDUCED, log 161). -/
def Upd.counterBoundary (e : Nat) : Upd :=
  .read fun d => .when (!d.midCommand e) (.all [
    .when (d.ob.clrStaged.contains e) (.all [
      .zeroCounters e, .of fun d => { d with ob := { d.ob with clrStaged := d.ob.clrStaged.filter (· ≠ e) } }]),
    .when (d.ob.selStaged.contains e) (.all [
      .select e fun i => d.reg (cntPage e + 0x100 + 4 * i),
      .of fun d => { d with ob := { d.ob with selStaged := d.ob.selStaged.filter (· ≠ e) } }])])

/-- A write of CNT.CTRL: the clear is staged (R336). -/
def Upd.cntClear (e : Nat) (data : Word) : Upd :=
  .when (bitOf data 0) (.of fun d => { d with ob := { d.ob with
    clrStaged := if d.ob.clrStaged.contains e then d.ob.clrStaged else d.ob.clrStaged ++ [e] } })

/-- CNT_CLEAR (R336). -/
def execCntClear (fn e : Nat) (data : Word) (s : State) : Host.Outcome State Fault Refusal :=
  s.hostAct (.cntClear fn e data) fn (.read fun d => .when (d.up && fn = 0 && d.blockOn e) (.cntClear e data)) (e / 8)

/-- SELECTION_APPLY (R336): with no command running, what is staged takes effect. -/
def execSelectionApply (e : Nat) (s : State) : Host.Outcome State Fault Refusal :=
  s.act (.selectionApply e) (.read fun d =>
    .when (d.up && d.unheld && d.blockOn e) (.counterBoundary e))

/-- A COUNTER_CTL of an op is carried out (R337). -/
def Upd.counterOp (e n op : Nat) (f : Device → Env → TileRes) : Upd :=
  .tiles e n [opCounter] fun d v => if v.fld 32 1 = op then f d v else .wait .skip

/-- The table of LOAD_SEL is read; it takes effect at the command's end (R337). -/
def tileLoadSel (d : Device) (v : Env) : TileRes :=
  d.tile v [{ va := v.fld 40 8, len := 128, stream := 2 }] fun bs =>
    { extra := .cur v.e v.s fun c => { c with stages := bs } }

/-- LOAD_SEL (R336, R337). -/
def execLoadSel (e n : Nat) (s : State) : Host.Outcome State Fault Refusal :=
  s.act (.loadSel e n) (.counterOp e n 1 tileLoadSel)

/-- CLEAR (R337): at the command's end. -/
def execClearCounters (e n : Nat) (s : State) : Host.Outcome State Fault Refusal :=
  s.act (.clearCounters e n) (.counterOp e n 2 fun _ _ => .last .skip)

/-- The MARKER record enters the trace, and with flag bit 1 the marker is a trigger (R337, R339). -/
def tileMarker (_d : Device) (v : Env) : TileRes :=
  .last (.all [
    .trace (v.e / 8) (v.e % 8) 0x22
      (toBytes 1 v.e ++ toBytes 1 v.ctx ++ toBytes 1 0 ++ toBytes 4 (v.fld 4 4) ++ toBytes 8 (v.fld 48 8) ++ toBytes 8 (v.fld 56 8)),
    .when (bits (v.fld 34 1) 1 1 = 1) (.trigger (v.e / 8) 2 (v.e % 8))])

/-- MARKER (R337, R339). -/
def execMarker (e n : Nat) (s : State) : Host.Outcome State Fault Refusal := s.act (.marker e n) (.counterOp e n 3 tileMarker)

/-- A counter is armed with the command's threshold and actions (R337, R338). -/
def tileMatch (_d : Device) (v : Env) : TileRes :=
  .last (.armMatch v.e (v.fld 33 1 % 64) (BitVec.ofNat 64 (v.fld 48 8)) (v.fld 34 1))

/-- MATCH (R337, R338). -/
def execMatchCounter (e n : Nat) (s : State) : Host.Outcome State Fault Refusal :=
  s.act (.matchCounter e n) (.counterOp e n 4 tileMatch)

/-- What a COUNTER_CTL that ended with OK does at its end (R337). -/
def Upd.counterEnd (e : Nat) (c : Cmd) : Upd :=
  let op := fieldAt c.desc 32 1
  .when (fieldAt c.desc 0 1 = opCounter && c.status = some .ok) (.all [
    .when (op = 1) (.select e fun i => BitVec.ofNat 32 (fieldAt (c.stages.headD []) (2 * i) 2)),
    .when (op = 2) (.zeroCounters e)])

/-! ### The trace stores (R339 to R343) -/

/-- The entries of a store. -/
abbrev traceDepth : Nat := 262144

/-- One entry is written (the injection of the TRC page acts on it). -/
def Upd.traceWrite (r i : Nat) (bs : List Byte) : Upd :=
  .all [
    .of fun d => { d with ob := { d.ob with trace := put d.ob.trace (r * traceDepth + i) bs [] } },
    .trc r fun t => { t with bad := t.bad.filter (· ≠ i) },
    .inject (trcPage r) 1 fun a => .when a (.trc r fun t => { t with bad := t.bad ++ [i] })]

/-- A record reaches the store and is written under the mode (R341). -/
def Upd.traceStore (r : Nat) (bs : List Byte) : Upd :=
  .read fun d =>
    let t := d.trc r
    let mode := fieldOf (d.reg (trcPage r + 0x04)) 2 1
    let trig := fieldAt bs 8 1 = 0x21
    let preLen := max 1 (fieldOf (d.reg (trcPage r + 0x4C)) 18 0)
    let postLen := max 1 (fieldOf (d.reg (trcPage r + 0x50)) 18 0)
    let step (n : Nat) : Nat := if t.wrPtr + 1 ≥ n then 0 else t.wrPtr + 1
    if t.state ≠ .capturing then
      (if trig then .when (t.state = .done) (.triggerLate r) else .when (t.state = .done && mode = 1) (.traceDrop r))
    else if trig && t.triggered then .sat (trcPage r + 0x5C)
    else if mode = 2 then
      if trig then .all [
        .traceWrite r preLen bs,
        .trc r fun t => { t with
          triggered := true, trigIdx := if t.wrapped then t.wrPtr else 0, wrPtr := (preLen + 1) % traceDepth, count := 1,
          state := if postLen = 1 then .done else .capturing }]
      else if t.triggered then .all [
        .traceWrite r t.wrPtr bs,
        .trc r fun t => { t with wrPtr := (t.wrPtr + 1) % traceDepth, count := t.count + 1, state := if t.count + 1 ≥ postLen then .done else .capturing }]
      else .all [
        .traceWrite r t.wrPtr bs,
        .trc r fun t => { t with wrPtr := step preLen, wrapped := t.wrapped || step preLen = 0, pre := min (t.pre + 1) preLen }]
    else .all [
      .traceWrite r t.wrPtr bs,
      .trc r fun t => { t with
        wrPtr := step traceDepth, count := min (t.count + 1) traceDepth, triggered := t.triggered || trig,
        wrapped := t.wrapped || (mode ≠ 1 && step traceDepth = 0),
        state := if mode = 1 && t.count + 1 ≥ traceDepth then .done else .capturing }]

/-- The oldest record in the sources' buffers reaches the store; its source's buffer has room then (R340). -/
def Upd.traceTake (r : Nat) : Upd :=
  .read fun d =>
    match (d.trc r).queue with
    | [] => .skip
    | (source, bs) :: rest => .all [.trc r fun t => { t with queue := rest }, .traceStore r bs, .traceLost r source]

/-- TRACE_RECORD (R340, R341). -/
def execTraceRecord (region : Nat) (s : State) : Host.Outcome State Fault Refusal :=
  s.act (.traceRecord region) (.read fun d => .when (d.up && d.unheld) (.traceTake region))

/-- A write of TRC.CTRL (R341, R342): mode is writable while enable is 0 and takes values 0 to 2; enable 1 starts a capture,
unless the CENTRE counts are too large, and enable 0 ends it. -/
def Upd.trcCtrl (r : Nat) (data : Word) : Upd :=
  .read fun d =>
    let p := trcPage r
    let old := d.reg (p + 0x04)
    let mode := if bitOf old 0 || fieldOf data 2 1 = 3 then fieldOf old 2 1 else fieldOf data 2 1
    let tooLarge := mode = 2 && fieldOf (d.reg (p + 0x4C)) 18 0 + fieldOf (d.reg (p + 0x50)) 18 0 > traceDepth
    let start := bitOf data 0 && !tooLarge
    .all [
      .setReg (p + 0x04) (BitVec.ofNat 32 (mode * 2 + (if start then 1 else 0))),
      .when (bitOf data 0) (.all [.setReg (p + 0x60) 0, .setReg (p + 0x5C) 0]),
      .trc r fun t =>
        if bitOf data 0 then { state := if start then .capturing else .off, cfgErr := !start, dumpDone := t.dumpDone, bad := t.bad }
        else { t with state := .off, queue := [], drops := [] }]

/-- TRACE_ENABLE (R342). -/
def execTraceEnable (fn region : Nat) (data : Word) (s : State) : Host.Outcome State Fault Refusal :=
  s.hostAct (.traceEnable fn region data) fn (.read fun d => .when (d.up && fn = 0) (.trcCtrl region data)) region

/-- TRIGGER (R341): a host trigger; it enters the stream from IO die A. -/
def execTrigger (fn region : Nat) (data : Word) (s : State) : Host.Outcome State Fault Refusal :=
  s.hostAct (.trigger fn region data) fn (.read fun d => .when (d.up && fn = 0 && bitOf data 0) (.trigger region 1 10)) region

/-- The entries that a dump copies, oldest first (R343). -/
def Device.captured (d : Device) (r : Nat) : List Nat :=
  let t := d.trc r
  let mode := fieldOf (d.reg (trcPage r + 0x04)) 2 1
  let preLen := max 1 (fieldOf (d.reg (trcPage r + 0x4C)) 18 0)
  if mode = 2 then
    let first := if t.triggered then t.trigIdx else if t.wrapped then t.wrPtr else 0
    ((List.range t.pre).map fun i => (first + i) % preLen) ++ (if t.triggered then span preLen t.count else [])
  else if t.wrapped then span t.wrPtr (traceDepth - t.wrPtr) ++ List.range t.wrPtr
  else List.range t.count

/-- An entry as it is read (R343): one that fails parity reads as zero and is counted; one not captured since the store lost
its contents is a free value (log 7). -/
def Upd.traceEntry (r i : Nat) (k : List Byte → Upd) : Upd :=
  .read fun d =>
    let bs := look d.ob.trace (r * traceDepth + i) []
    if (d.trc r).bad.contains i then
      .all [.error (trcPage r) 1 { regionRec 0x030E r with detail := detailN i } true, k (List.replicate 32 0)]
    else if bs.isEmpty then
      .draw fun n => k ((List.range 32).map (Config.freshByte n))
    else k bs

/-- A write of TRC.DUMP_CTL: a dump starts while capture is off (R343). -/
def Upd.trcDump (r : Nat) (data : Word) : Upd :=
  .read fun d => .when (bitOf data 0 && !bitOf (d.reg (trcPage r + 0x04)) 0)
    (.trc r fun t => { t with dumping := true, dumpDone := false })

/-- TRACE_DUMP (R343). -/
def execTraceDump (fn region : Nat) (data : Word) (s : State) : Host.Outcome State Fault Refusal :=
  s.hostAct (.traceDump fn region data) fn (.read fun d => .when (d.up && fn = 0) (.trcDump region data)) region

/-- DUMP_DONE (R343): the captured records stand in device memory, oldest first, under key slot 0. -/
def execDumpDone (region : Nat) (s : State) : Host.Outcome State Fault Refusal :=
  s.act (.dumpDone region) (.read fun d =>
    let base := d.pair (trcPage region + 0x88) % 2 ^ 44 / 4096 * 4096
    let l := d.captured region
    .when (d.up && (d.trc region).dumping) (.all [
      .each (l.zip (List.range l.length)) fun p => .traceEntry region p.1 fun bs => .write 0 (base + 32 * p.2) bs,
      .trc region fun t => { t with dumping := false, dumpDone := true }]))

/-! ### The gong (R345 to R351) -/

/-- A write of GNG.RAISE. -/
def Upd.gngRaise (data : Word) : Upd := .when (bitOf data 0) (.gongRaise (2 ^ 24))

/-- GONG_RAISE (R345). -/
def execGongRaise (fn : Nat) (data : Word) (s : State) : Host.Outcome State Fault Refusal :=
  s.hostAct (.gongRaise fn data) fn (.read fun d => .when (d.up && fn = 0) (.gngRaise data))

/-- The smear of a stop or a resume (R347, R351): each stop point minus the earliest, at most 32 core cycles, so 30 ticks:
free values, one for each point (log 77). -/
def Upd.smear : Upd :=
  .draw fun n => .all [
    .of fun d => { d with ob := { d.ob with gong := { d.ob.gong with skew := [] } } },
    .each (List.range 16) fun i => .draw fun m => .of fun d =>
      let ticks := if i = (Config.freshWord n).toNat % 16 then 0 else (Config.freshWord m).toNat % 31
      { d with ob := { d.ob with gong := { d.ob.gong with skew := put d.ob.gong.skew i ticks 0 } } }]

/-- Data flits held unsent in a port: those that wait and those of the replay buffer (R349). -/
def Port.unsent (q : Port) : Nat := q.waiting.length + (q.replay.filter fun p => match p.1.body with | .data _ => true | _ => false).length

/-- A region's part of the stop: its queued records and its GONG record are written, the gong acts as a trigger, and capture
stops (R341, R348). -/
def Upd.traceStop (r : Nat) : Upd :=
  .read fun d =>
    let g := d.ob.gong
    let rec' := traceBytes (look g.cuts r d.clk.time) 0x20 (toBytes 1 (fieldOf g.cause 31 24) ++ toBytes 6 0 ++ toBytes 8 g.raisedAt.toNat)
    let trig := traceBytes (d.dieTime r) 0x21 [4]
    let triggers := bitOf (d.reg (trcPage r + 0x44)) 3
    .all [
      .when ((d.trc r).state = .done) (.all [.traceStore r rec', .when triggers (.triggerLate r)]),
      .when ((d.trc r).state = .capturing) (.all [
        .times ((d.trc r).queue.length + (d.trc r).drops.length) (.traceTake r), .traceStore r rec', .when triggers (.traceStore r trig),
        .trc r fun t => { t with state := if t.state = .capturing then .stopped else t.state }])]

/-- The DGS unit's oldest operation has begun when the stop comes, and completes (R348). -/
def Upd.dgsBegun : Upd :=
  .of fun d =>
    let slot := (d.ob.dgs.find? (·.answer.isNone)).map (·.slot)
    { d with ob := { d.ob with dgs := d.ob.dgs.map fun o => { o with begun := slot = some o.slot } } }

/-- GONG_CUT (R346 to R349): the stop has reached every region and domain; a region's cut lies as far from the earliest stop as its
SKEW says. -/
def execGongCut (s : State) : Host.Outcome State Fault Refusal :=
  s.act .gongCut (.read fun d =>
    let tx := ((List.range 18).map fun p => (d.port p).unsent).sum
    .when (d.up && d.ob.gong.state = .stopping) (.all [
      .smear,
      .of fun d => { d with ob := { d.ob with gong := { d.ob.gong with
        state := .stopped, stoppedAt := d.clk.time, flitsRx := 0, flitsTx := tx,
        cuts := (List.range 4).map fun r => (r, d.clk.time + BitVec.ofNat 64 (look d.ob.gong.skew r 0)) } } },
      .each (List.range 4) .traceStop, .dgsBegun,
      .flag gngPage 0]))

/-- The messages of vectors that are pending and not masked any more are sent, one for each (R404). -/
def Upd.sendPending : Upd :=
  .read fun d =>
    let ready (p : Nat × Bool × Bool) : Bool := p.2.1 && p.2.2 && d.msixSends (p.1 / 2048) && d.unheld && !d.recordAsked (p.1 / 2048)
    .all [
      .each (d.ho.vectors.filter ready) fun p => .send (d.msixMsg (p.1 / 2048) (p.1 % 2048)),
      .of fun d =>
        let clear (p : Nat × Bool × Bool) : Nat × Bool × Bool := if ready p then (p.1, true, false) else p
        { d with ho := { d.ho with vectors := d.ho.vectors.map clear } }]

/-- A write of GNG.RESUME (R351): the parts resume, and what the gong deferred begins. Ignored unless STOPPED. -/
def Upd.gngResume (data : Word) : Upd :=
  .read fun d => .when (bitOf data 0 && d.ob.gong.state = .stopped) (.all [
    .count (gngPage + 0x88) (d.now - d.ob.gong.stoppedAt).toNat,
    .of fun d => { d with ob := { d.ob with gong := { d.ob.gong with state := .running } } },
    .smear,
    .each (List.range 4) fun r => .trc r fun t => { t with state := if t.state = .stopped then .capturing else t.state },
    .each (List.range 18) fun p => .all [.pump p, .returnCredits p], .hostBells, .takeArrived, .sendQueued, .spareQueued, .sendPending,
    .each d.ob.gong.kills fun c => .each (d.boundSlots c) fun p => .killSlot p.1 p.2 .killed,
    .of fun d => { d with ob := { d.ob with gong := { d.ob.gong with kills := [] } } },
    .each (List.range 32) fun e => .read fun d => .when (!(d.eng e).deferred.isEmpty) (.resubmit e)])

/-- GONG_RESUME (R351). -/
def execGongResume (fn : Nat) (data : Word) (s : State) : Host.Outcome State Fault Refusal :=
  s.hostAct (.gongResume fn data) fn (.read fun d => .when (d.up && fn = 0) (.gngResume data))

/-! ### Counters of a page (R89, R106, R108, R195, R458; the CTRL registers of their pages) -/

/-- A write of the CTRL register of a page with counters from lo to hi: clr_counters clears them. -/
def Upd.clrCounters (page lo hi : Nat) (data : Word) : Upd := .when (bitOf data 0) (.clearCtrs page lo hi)

/-- A host write of a CTRL register of a present block takes effect. -/
def Upd.pfBlock (fn e : Nat) (u : Upd) : Upd := .read fun d => .when (d.up && fn = 0 && d.blockOn e) u

/-- The same of a cell that is enabled (R18). -/
def Upd.pfCell (fn e c : Nat) (u : Upd) : Upd := .read fun d => .when (d.up && fn = 0 && d.cellOn e c) u

/-- ARR_CLR_COUNTERS (R89): BUSY, ROWS, PASSES and the four freeze counters. -/
def execArrClrCounters (fn e c : Nat) (data : Word) (s : State) : Host.Outcome State Fault Refusal :=
  s.hostAct (.arrClrCounters fn e c data) fn (.pfCell fn e c (.clrCounters (arrPage e c) 0x60 0x97 data)) (e / 8)

/-- VEC_CLR_COUNTERS (R106). -/
def execVecClrCounters (fn e c : Nat) (data : Word) (s : State) : Host.Outcome State Fault Refusal :=
  s.hostAct (.vecClrCounters fn e c data) fn (.pfCell fn e c (.clrCounters (vecPage e c) 0x60 0x7F data)) (e / 8)

/-- SFU_CLR_COUNTERS (R108). -/
def execSfuClrCounters (fn e c : Nat) (data : Word) (s : State) : Host.Outcome State Fault Refusal :=
  s.hostAct (.sfuClrCounters fn e c data) fn (.pfCell fn e c (.clrCounters (sfuPage e c) 0x60 0x77 data)) (e / 8)

/-- EXP_CLR_COUNTERS (R195). -/
def execExpClrCounters (fn e c : Nat) (data : Word) (s : State) : Host.Outcome State Fault Refusal :=
  s.hostAct (.expClrCounters fn e c data) fn (.pfCell fn e c (.clrCounters (expPage e c) 0x60 0x87 data)) (e / 8)

/-- ENG_CLR_COUNTERS (ENG page). -/
def execEngClrCounters (fn e : Nat) (data : Word) (s : State) : Host.Outcome State Fault Refusal :=
  s.hostAct (.engClrCounters fn e data) fn (.pfBlock fn e (.clrCounters (engPage e) 0x60 0x87 data)) (e / 8)

/-- BEL_CLR_COUNTERS (BEL page). -/
def execBelClrCounters (fn region : Nat) (data : Word) (s : State) : Host.Outcome State Fault Refusal :=
  s.hostAct (.belClrCounters fn region data) fn (.read fun d =>
    .when (d.up && fn = 0) (.clrCounters (belPage region) 0x80 0x9F data)) region

/-- A write of DGS.CTRL: enable, and clr_counters in bit 1. -/
def Upd.dgsCtrl (data : Word) : Upd :=
  .all [.setReg (dgsPage + 0x04) (data &&& 1), .when (bitOf data 1) (.clearCtrs dgsPage 0x60 0x7F)]

/-- DGS_CLR_COUNTERS (DGS page): the write of DGS.CTRL also writes its enable (R454). -/
def execDgsClrCounters (fn : Nat) (data : Word) (s : State) : Host.Outcome State Fault Refusal :=
  s.hostAct (.dgsClrCounters fn data) fn (.read fun d => .when (d.up && fn = 0) (.dgsCtrl data))

/-- NOC_CLR_COUNTERS (R458). -/
def execNocClrCounters (fn die : Nat) (data : Word) (s : State) : Host.Outcome State Fault Refusal :=
  s.hostAct (.nocClrCounters fn die data) fn (.read fun d =>
    .when (d.up && fn = 0) (.clrCounters (nocPage die) 0x60 0xAF data)) die

end Sys2Proof.Machine
end

