-- ==== Sys2Proof/Machine/Audit.lean ====
section
/-! DEFINITION. Audit sessions and the DGS unit (10_determinism.md R322 to R329). -/

namespace Sys2Proof.Machine

/-! ### Sessions (R323) -/

/-- Where a context's session lies. -/
def Device.session (d : Device) (ctx : Nat) : Nat := d.pair (dgsPage + 0x40) % 2 ^ 44 / 65536 * 65536 + ctx * 16384

/-- Where an item and the presence bits of a kind lie. -/
def Device.itemAt (d : Device) (ctx kind index : Nat) : Nat := d.session ctx + kind * 3072 + index * 48
def Device.presentAt (d : Device) (ctx kind : Nat) : Nat := d.session ctx + 12288 + 8 * kind

/-- An item of the session is present. -/
def Device.present (d : Device) (ctx kind index : Nat) : Bool := bits (d.numAt 0 (d.presentAt ctx kind) 8) index 1 = 1

/-- An uncorrectable line met in the session ends the operation (DGS.session_ue); u is what the operation did to the session's memory,
its controllers noting the line (R215, R216). -/
def Env.sessionUe (v : Env) (pa : Nat) (u : Upd) : TileRes := v.memUe pa 0xFF (.all [u, .raise dgsPage (oneBit 1)])

/-- The digest of an item is stored, each of its lines under its own rule (R215), and when it is whole its presence bit is set
(R325). -/
def Upd.storeItem (ctx kind index : Nat) (digest : List Byte) : Upd :=
  .read fun d =>
    let p := d.presentAt ctx kind
    let was := d.numAt 0 p 8
    .all [.write 0 (d.itemAt ctx kind index) digest,
      .when (d.writeUe (d.itemAt ctx kind index) 48).isNone (.all [.touch p 8,
        .when (d.ueIn p 8).isNone (.writeNum 0 p 8 (if bits was index 1 = 1 then was else was + 2 ^ index))])]

/-- A store of an item is not possible: a line that it would modify in part is uncorrectable. -/
def Device.itemUe (d : Device) (ctx kind index : Nat) : Option Nat :=
  match d.writeUe (d.itemAt ctx kind index) 48 with
  | some pa => some pa
  | none => d.ueIn (d.presentAt ctx kind) 8

/-- The end of an operation that stores an item: OK, or MEM_UE where a line of it could not be written. -/
def Device.itemStored (d : Device) (v : Env) (kind index : Nat) (u : Upd) : TileRes :=
  match d.itemUe v.ctx kind index with
  | some pa => v.sessionUe pa u
  | none => .last u

/-! ### The operations (R325 to R328) -/

/-- OPEN: every presence bit of the session is cleared. -/
def dgsOpen (d : Device) (v : Env) : TileRes :=
  match d.writeUe (d.presentAt v.ctx 0) 32 with
  | some pa => v.sessionUe pa (.write 0 (d.presentAt v.ctx 0) (List.replicate 32 0))
  | none => .last (.write 0 (d.presentAt v.ctx 0) (List.replicate 32 0))

/-- ADD_RANGE: the digest of a range. -/
def dgsAddRange (d : Device) (v : Env) : TileRes :=
  let kind := v.fld 33 1
  let index := v.fld 34 1
  match d.tile v [{ va := v.fld 40 8, len := v.fld 48 8, stream := 4 }] fun bs =>
      { extra := .all [.count (dgsPage + 0x68) (v.fld 48 8), .storeItem v.ctx kind index (sha384 bs.flatten)] } with
  | .last u => d.itemStored v kind index u
  | r => r

/-- ADD_SET: the digest of the shard and prepared digests of the epoch bound at issue, or of an adapter slot. -/
def dgsAddSet (d : Device) (v : Env) : TileRes :=
  let index := v.fld 34 1
  let x := if bits (v.fld 35 1) 0 1 = 1 then d.adapterSlot (v.fld 36 2)
    else match v.cmd.epochs with
      | (s, k) :: _ => d.epoch s k
      | [] => {}
  if bits (v.fld 35 1) 0 1 = 1 && x.state ≠ .ready then .stop .weightNotReady none .skip
  else d.itemStored v 1 index (.storeItem v.ctx 1 index (sha384 (x.shard ++ x.prep)))

/-- The digest of a kind's items below its count (R327 step 1). -/
def Device.listDigest (d : Device) (ctx kind count : Nat) : List Byte :=
  sha384 ((List.range count).flatMap fun i => d.bytesAt 0 (d.itemAt ctx kind i) 48)

/-- The 320 bytes of an audit record (R327 step 3), signed or not for want of attestation keys. -/
def Device.auditRecord (d : Device) (ctx : Nat) (counts : List Byte) (signed attest : Bool) : List Byte :=
  let count (k : Nat) : Nat := fieldAt counts k 1
  let head := toBytes 4 0x41554437 ++ [1] ++ counts ++ List.replicate 7 0
  let lists := (List.range 4).flatMap fun k => d.listDigest ctx k (count k)
  head ++ sha384 (head ++ lists) ++ lists ++ toBytes 8 (d.dieTime 6).toNat ++ toBytes 2 d.devId ++ toBytes 1 ctx ++
    toBytes 1 (if signed then (if attest then 1 else 2) else 0) ++ List.replicate 52 0

/-- The first uncorrectable line of a session's presence bits and of its items below the counts. -/
def Device.sessionUe (d : Device) (ctx : Nat) (counts : List Byte) : Option Nat :=
  match d.ueIn (d.presentAt ctx 0) 32 with
  | some pa => some pa
  | none => (List.range 4).findSome? fun k => d.ueIn (d.itemAt ctx k 0) (48 * fieldAt counts k 1)

/-- The session's presence bits, and its items below the counts, are read (R212, R327). -/
def Upd.sessionRead (ctx : Nat) (counts : List Byte) : Upd :=
  .read fun d => .all [.touch (d.presentAt ctx 0) 32, .each (List.range 4) fun k => .touch (d.itemAt ctx k 0) (48 * fieldAt counts k 1)]

/-- SEAL (R327, R328). The signatures of the attestation keys are free values (log 6). -/
def dgsSeal (d : Device) (v : Env) : TileRes :=
  let counts := (v.cmd.desc.drop 64).take 4
  let signed := bits (v.fld 35 1) 1 1 = 1
  let attest := d.se.attest
  match d.sessionUe v.ctx counts with
  | some pa => v.sessionUe pa (.sessionRead v.ctx counts)
  | none =>
    if (List.range 4).any fun k => (List.range (fieldAt counts k 1)).any fun i => !d.present v.ctx k i
    then .stop .shapeInvalid none (.sessionRead v.ctx counts)
    else
      let block : List Byte :=
        if attest then (List.range 16608).map (Config.freshByte d.free) ++ List.replicate 32 0 else List.replicate 16640 0
      let ranges : List Rng := [{ va := v.fld 40 8, len := 320, stream := 7, write := true }] ++
        (if signed then [{ va := v.fld 56 8, len := 16640, stream := 7, write := true }] else [])
      d.tile v ranges fun _ =>
        { writes := [d.auditRecord v.ctx counts signed attest] ++ (if signed then [block] else []),
          extra := .all [.sessionRead v.ctx counts, .count (dgsPage + 0x70), .when (signed && attest) (.all [.count (dgsPage + 0x78), .draw fun _ => .skip])] }

/-! ### The unit (R326, R329) -/

/-- The operation of an entry of the unit's queue. -/
def dgsServe (d : Device) (v : Env) : TileRes :=
  match v.fld 32 1 with
  | 1 => dgsOpen d v
  | 2 => dgsAddRange d v
  | 3 => dgsAddSet d v
  | _ => dgsSeal d v

/-- The queue of the DGS unit takes a function of itself. -/
def Upd.dgs (f : List DgsOp → List DgsOp) : Upd := .of fun d => { d with ob := { d.ob with dgs := f d.ob.dgs } }

/-- DGS_ANSWER (R326, R329): the unit finishes its oldest operation and answers the command that waits for it, while the gong is active
only one that had begun, and sends no request then (R348). An injected
parity error restarts the operation, and no command sees it (DGS.sha_parity). -/
def execDgsAnswer (s : State) : Host.Outcome State Fault Refusal :=
  s.act .dgsAnswer (.read fun d =>
    match d.ob.dgs.find? (·.answer.isNone) with
    | none => .skip
    | some o =>
      let e := o.slot / 8
      let sl := o.slot % 8
      let answer (a : Status × Option FaultRec) : Upd :=
        .all [.dgs fun l => l.map fun x => if x.slot = o.slot then { x with answer := some a } else x, .count (dgsPage + 0x60)]
      match (d.slot e sl).cur with
      | none => .when d.up (.dgs fun l => l.filter fun x => x.slot ≠ o.slot)
      | some c => .when (d.up && (d.unheld || o.begun)) (.all [
          .inject dgsPage 0 fun a => .when a (.error dgsPage 0 (deviceRec 0x040D 6) false true),
          match dgsServe d ⟨e, sl, (d.slot e sl).ctx, c⟩ with
          | .wait u => .when d.unheld u
          | .part u => .all [u, answer (.ok, none)]
          | .next u => .all [u, answer (.ok, none)]
          | .last u => .all [u, answer (.ok, none)]
          | .stop st r u => .all [u, answer (st, r)]]))

/-- A DIGEST_CTL hands its operation to the unit, of at most 64, and waits for the answer (R329). -/
def tileDigest (d : Device) (v : Env) : TileRes :=
  match d.ob.dgs.find? fun o => o.slot = v.key with
  | none =>
    if !bitOf (d.reg (dgsPage + 0x04)) 0 then .stop .operandFormat none .skip
    else if (d.ob.dgs.filter (·.answer.isNone)).length ≥ 64 then .wait .skip
    else .wait (.dgs (· ++ [{ slot := v.key }]))
  | some o =>
    let done : Upd := .dgs fun l => l.filter fun x => x.slot ≠ v.key
    match o.answer with
    | none => .wait .skip
    | some (.ok, _) => .last done
    | some (st, r) => .stop st r done

/-- A DIGEST_CTL of an op is carried out. -/
def Upd.digestOp (e n op : Nat) : Upd :=
  .tiles e n [opDigest] fun d v => if v.fld 32 1 = op then tileDigest d v else .wait .skip

/-- OPEN (R325). -/
def execOpenSession (e n : Nat) (s : State) : Host.Outcome State Fault Refusal := s.act (.openSession e n) (.digestOp e n 1)

/-- ADD_RANGE (R325). -/
def execAddRange (e n : Nat) (s : State) : Host.Outcome State Fault Refusal := s.act (.addRange e n) (.digestOp e n 2)

/-- ADD_SET (R325). -/
def execAddSet (e n : Nat) (s : State) : Host.Outcome State Fault Refusal := s.act (.addSet e n) (.digestOp e n 3)

/-- SEAL (R327, R328). -/
def execSeal (e n : Nat) (s : State) : Host.Outcome State Fault Refusal := s.act (.seal e n) (.digestOp e n 4)

end Sys2Proof.Machine
end

