-- ==== Sys2Proof/Machine/Execution.lean ====
section
/-! DEFINITION. How an engine issues commands, preempts and stops them, and ends them (08_commands.md R251, R254, R255, R258
to R261, R267 to R272, 11_observability.md R333 to R335, 10_determinism.md R321). -/

namespace Sys2Proof.Machine

/-! ### What runs, and for how long -/

/-- A command stops running at a preemption point: its counts and time are kept, its passes end with their segment (R80). Its
saved state may take an injected flip (ENG.state_parity). -/
def Upd.suspend (e s : Nat) : Upd :=
  .inject (engPage e) 3 fun flip => .all [
    .park e s, .cur e s fun c => { c with badSave := c.badSave || flip }, .cutArrays e]

/-- A command runs again (R260, R369); saved state that fails its parity resets the engine (STATE_PARITY). -/
def Upd.unsuspend (e s : Nat) : Upd :=
  .read fun d => .all [
    .cur e s fun c => { c with cntBase := d.countsLess e c.cntBase, paused := c.paused + d.dieTime (e / 8), cleared := false },
    .eng e fun g => { g with run := some s, pre := if g.pre = some s then none else g.pre },
    match (d.slot e s).cur with
    | some c => .when c.badSave
        (.resetError (engPage e) 3 ((engRec 0x0202 e).ofCmd (d.slot e s).ctx s c.desc) e true true)
    | none => .skip]

/-- The slot's state after its command has ended (R257, R258, R272): paused for a status other than OK, the pause for a lost
record going before it; a stop that was asked for takes effect here. -/
def Slot.afterEnd (t : Slot) (bad : Bool) : Slot :=
  let fail (u : Slot) : Slot := { u.rewind with state := .pausedErr }
  match t.state with
  | .active => if bad then fail { t with stopReq := false } else if t.stopReq then { t with state := .stopped, stopReq := false } else t
  | .pausedCmpl =>
    if t.after = .active && bad then { t.rewind with after := .pausedErr, stopReq := false }
    else if t.after = .active && t.stopReq then { t with after := .stopped, stopReq := false }
    else t
  | .suspect =>
    if t.lost then (if bad then { t.rewind with state := .pausedCmpl, after := .pausedErr, lost := false, stopReq := false }
      else { t with state := .pausedCmpl, after := if t.stopReq then .stopped else .active, lost := false, stopReq := false })
    else if bad then fail { t with stopReq := false } else { t with state := if t.stopReq then .stopped else .active, stopReq := false }
  | _ => t

/-- The last suspect of an engine is cleared: the engine runs again, and what waited for that takes effect (R369, R373,
R374). -/
def Upd.replayDone (e : Nat) : Upd :=
  .read fun d => .all [
    .eng e fun g => { g with rst := .running, suspects := [], replay := none },
    .setReg (rstPage e + 0x58) (BitVec.ofNat 32 (min ((d.dieTime (e / 8) - (d.eng e).pauseAt).toNat / 1000) 0xFFFFFF)),
    .runDeferred e]

/-- A suspect of an engine is cleared (R369). -/
def Upd.replayCleared (e s : Nat) : Upd :=
  .read fun d =>
    .when ((d.eng e).replay = some s || (d.eng e).suspects.contains s) (.all [
      .eng e fun g => { g with suspects := g.suspects.filter (· ≠ s), replay := if g.replay = some s then none else g.replay },
      .read fun d => .when ((d.eng e).rst = .replaying && (d.eng e).suspects.isEmpty && (d.eng e).replay.isNone) (.replayDone e)])

/-- A suspect's replay passes: its slot returns to service, and the command goes on later (R257, R369). -/
def Upd.clearSuspect (e s : Nat) : Upd :=
  .all [
    .cur e s fun c => { c with cleared := true },
    .slot e s fun t => t.afterEnd false,
    .replayCleared e s]

/-- The running command waits for one of the things that R363 lists: the answer of a peer to its read or, at its end, to its writes, and
retry-store space (R308), the DGS unit, a held record, a credit or row of a chain, a read of a WEIGHT_LOAD. -/
def Device.waitsOutside (d : Device) (v : Env) : Bool :=
  (d.lk.reqs.any fun r => r.slot = v.key && !r.orphan &&
    (r.kind = .read && !r.answered || r.kind = .write && v.cmd.status.isSome)) || v.cmd.stalled ||
    (v.op = opDigest && ((d.ob.dgs.any fun o => o.slot = v.key && o.answer.isNone) || (d.ob.dgs.filter (·.answer.isNone)).length ≥ 64)) || (d.slot v.e v.s).frozen || d.awaitsRelay v ||
    (v.op = opWeight && d.ho.reads.any fun r => r.slot = v.key && !r.answered && !r.dropped)

/-- The watchdog window of the running command is suspended (R363), as it is during a read of host memory, which has its own timeout
(R229). -/
def Device.windowSuspended (d : Device) (v : Env) : Bool :=
  d.waitsOutside v || d.ho.reads.any fun r => r.slot = v.key && !r.answered && !r.dropped

/-- A replaying command that has reached a wait of R363 is interrupted there, and its suspect cleared (R369). -/
def Upd.replayWaits (e : Nat) : Upd :=
  .read fun d => match (d.eng e).replay, d.env e with
    | some s, some v => .when (v.s = s && v.cmd.status.isNone && d.waitsOutside v) (.all [.suspend e s, .clearSuspect e s])
    | _, _ => .skip

/-- Bytes 9 to 21 of a command's trace records (R339). -/
def cmdTrace (e s ctx : Nat) (c : Cmd) : List Byte :=
  toBytes 1 (slotKey e s) ++ toBytes 1 ctx ++ toBytes 1 (fieldAt c.desc 0 1) ++ toBytes 4 (fieldAt c.desc 4 4) ++
    toBytes 2 (fieldAt c.desc 8 2) ++ toBytes 2 (fieldAt c.desc 10 2) ++ toBytes 2 c.index

/-- A command record enters the trace: 1 CMD_ISSUE, 2 CMD_END, 3 CMD_PREEMPT, 4 CMD_RESUME (R339). -/
def Upd.cmdTrace (e s kind : Nat) (c : Cmd) (rest : List Byte) : Upd :=
  .read fun d => .trace (e / 8) (e % 8) kind (Machine.cmdTrace e s (d.slot e s).ctx c ++ rest)

/-! ### Issue (R259, R268) -/

/-- The engine can give its execute side to a command. -/
def Device.issues (d : Device) (e : Nat) : Bool :=
  d.up && d.unheld && d.blockOn e && (d.eng e).rst = .running && !d.resetDue e && !(d.eng e).withheld && (d.eng e).run.isNone

/-- The slot holds a command that goes on: preempted, stopped and started again, or cleared of suspicion (R257, R260,
R369). -/
def Device.canResume (d : Device) (e s : Nat) : Bool :=
  let t := d.slot e s
  t.state = .active && !t.frozen && match t.cur with
    | some c => !isWait (fieldAt c.desc 0 1) && c.status.isNone
    | none => false

/-- A slot has a free entry in its completion ring for one more command (R268). -/
def Device.cqSpace (d : Device) (e s : Nat) : Bool :=
  let t := d.slot e s
  (t.cqTail - t.cqHead).toNat + (if t.cur.isSome then 1 else 0) < 2 ^ d.cqLog2 e s

/-- The environment of a slot's oldest fetched command, when it is a FUSED command that decode accepted: its issue reads the stage
table (R118). -/
def Device.fusedFront (d : Device) (e s : Nat) : Option Env :=
  let t := d.slot e s
  match t.fetched with
  | f :: _ =>
    if f.status = .ok && !f.bad then f.desc.bind fun desc => if fieldAt desc 0 1 = opFused then some ⟨e, s, t.ctx, { desc := desc }⟩ else none
    else none
  | [] => none

/-- The slot's oldest fetched command cannot issue before the reads of its stage table are answered. -/
def Device.frontAwaits (d : Device) (e s : Nat) : Bool := (d.fusedFront e s).any d.tableAwaited

/-- The slot holds a fetched command that can be issued (R259, R268, R272). -/
def Device.canIssue (d : Device) (e s : Nat) : Bool :=
  let t := d.slot e s
  t.state = .active && !t.frozen && t.cur.isNone && !t.fetched.isEmpty && d.cqSpace e s && !d.shadowFull e && !d.frontAwaits e s

/-- A slot is ready (R259). -/
def Device.isReady (d : Device) (e s : Nat) : Bool := d.canResume e s || d.canIssue e s

/-- The slots in rotating order, starting after the one last issued from. -/
def Device.rotation (d : Device) (e : Nat) : List Nat := (List.range 8).map fun i => ((d.eng e).last + 1 + i) % 8

/-- The slot whose command is next: the most urgent priority, in rotation; a preempted command goes before any other of Q1
to Q3 (R259). -/
def Device.pickSlot (d : Device) (e : Nat) : Option Nat :=
  match (d.rotation e).find? fun s => d.prio e s = 0 && d.isReady e s with
  | some s => some s
  | none =>
    match (d.eng e).pre with
    | some s => if d.canResume e s then some s else none
    | none => [1, 2, 3].findSome? fun p => (d.rotation e).find? fun s => d.prio e s = p && d.isReady e s

/-- The conditions that a wait registers: bells of this device (R251, R280). -/
def waitConds (own : Option Nat) (desc : List Byte) : List WaitCond :=
  if isWait (fieldAt desc 0 1) then (bellConds desc).map fun p => { bell := bits (ownBell own p.1) 0 17, value := p.2 } else []

/-- What the issue of a slot's oldest fetched command finds: the stages of a FUSED command, its status with what it binds (R118, R172,
R202), the fault record that the status calls for, and what the reading of the stage table changes. None while the table is being
read. -/
def Device.issueOf (d : Device) (e s : Nat) (f : Fetched) (desc : List Byte) : Option (List (List Byte) × (Status × Bound) × Option FaultRec × Upd) :=
  let t := d.slot e s
  if f.status ≠ .ok then some ([], (f.status, {}), none, .skip)
  else match d.fusedFront e s with
  | none => some ([], d.bindOf e t.ctx (flagBit desc 6) desc, none, .skip)
  | some v =>
    match d.readStages v, d.issueStages v with
    | .stop st r u, _ => some ([], (st, {}), r, u)
    | .wait _, _ => none
    | .part u, some st => some (st, d.bindStages v st, none, u)
    | .next u, some st => some (st, d.bindStages v st, none, u)
    | .last u, some st => some (st, d.bindStages v st, none, u)
    | _, none => none

/-- The slot's oldest fetched command is issued. One that decode rejected, whose descriptor could not be read, or that cannot
bind what it names, has its status at once and does not run (R118, R172, R202, R243, R256). A wait does not run either
(R251). A descriptor whose parity fails resets the engine (PREFETCH_PARITY). A FUSED command whose stage table is not there yet
sends the reads of it and does not issue. -/
def Upd.issueFront (e s : Nat) : Upd :=
  .read fun d =>
    let t := d.slot e s
    match t.fetched with
    | [] => .skip
    | f :: rest =>
      let rec1 := { engRec (if f.desc.isNone then 0x0205 else 0x0204) e with
        ctx := some t.ctx, slot := s, detail := detailN f.index, injected := f.bad }
      if f.bad && f.desc.isSome then .resetError (tabPage e) 2 rec1 e false true
      else
        let desc := f.desc.getD (List.replicate 128 0)
        let op := fieldAt desc 0 1
        match d.issueOf e s f desc with
        | none => match (d.fusedFront e s).map d.readStages with
          | some (.wait u) => u
          | _ => .skip
        | some (stages, b, fault, read) =>
        let waits := waitConds f.own desc
        let runs : Bool := b.1 = .ok && !isWait op
        let c : Cmd := {
          index := f.index, desc := desc, tStart := d.dieTime (e / 8), tIssue := d.dieTime (e / 8),
          status := if b.1 = .ok then none else some b.1,
          fault := if b.1 = .descFault then some rec1 else fault,
          cntBase := if runs then d.countsLess e [] else [],
          waits := if b.1 = .ok then waits else [], waitTag := d.bl.nextWait, own := f.own,
          stages := if b.1 = .ok then stages else [] }
        .all [
          .slot e s fun t => { t with fetched := rest, cur := some c },
          .eng e fun g => { g with
            last := s, boundary := g.boundary + 1, run := if runs then some s else g.run },
          .of fun d => { d with bl := { d.bl with nextWait := d.bl.nextWait + (if waits.isEmpty then 0 else 1) } },
          read,
          .when (b.1 = .ok) (.all [.hold e s b.2, .announce e desc,
            .when (op = opU4Add) (.ctx t.ctx fun x => { x with replayable := false })]),
          .event e 0x003 1, .cmdTrace e s 0x01 c []]

/-- COMMAND_ISSUE (R259, R336): the next command issues or resumes. -/
def Upd.commandIssue (e : Nat) : Upd :=
  .read fun d =>
    if !d.issues e then .skip
    else match d.pickSlot e with
    | none => .skip
    | some s =>
      match (d.slot e s).cur with
      | some c => .all [.unsuspend e s, .cmdTrace e s 0x04 c []]
      | none => .all [.counterBoundary e, .issueFront e s]

def execCommandIssue (e : Nat) (s : State) : Host.Outcome State Fault Refusal :=
  s.act (.commandIssue e) (.commandIssue e)

/-! ### Tiles (R231, R232, R261) -/

/-- What the next tile of a command does, by its opcode. -/
def tileOf (d : Device) (v : Env) : TileRes :=
  let op := v.op
  if op = opMatmul ∨ op = opU4Gemm then tileMatmul 512 d v
  else if op = opFused then tileFused d v
  else if op = opPrefill ∨ op = opDecode then tileAttn d v
  else if op = opAppend then tileAppend d v
  else if op = opFork then tileFork d v
  else if op = opFree then tileFree d v
  else if op = opNorm then tileNorm d v
  else if op = opSoftmax then tileSoftmax d v
  else if op = opSample then tileSample d v
  else if op = opCopy ∨ op = opU4Copy then tileCopy d v
  else if op = opTranspose then tileTranspose d v
  else if op = opRope then tileRope d v
  else if op = opMicroprog then tileMicro d v
  else if op = opBind then tileAdapterBind d v
  else if op = opSignal then tileSignal d v
  else if op = opDigest then tileDigest d v
  else if op = opWeight then
    match v.fld 32 1 with
    | 2 => tileAdopt d v
    | 3 => tileFreeEpoch d v
    | 4 => tileFreeSet d v
    | 6 => tileAdapterFree d v
    | _ => tileLoad d v
  else if op = opCounter ∧ v.fld 32 1 = 1 then tileLoadSel d v
  else .last .skip

/-- What the tiles of a command put to use, by its opcode. -/
def unitsOf (op : Nat) : Units := if op = opMatmul then matUnits 512 else if op = opFused then fusedUnits
  else if op = opAppend then appendUnits else if op = opPrefill ∨ op = opDecode then attnUnits else rowUnits

/-- TILE_ISSUE (R232): the next tile of the running command is issued when its translations permit it and its reads can be
made, and the steps it applies are in their store (R132); else the command ends, or it waits. Its work is done by the command's own row of the table. -/
def execTileIssue (e : Nat) (s : State) : Host.Outcome State Fault Refusal :=
  s.act (.tileIssue e) (.read fun d =>
    match d.env e with
    | none => .skip
    | some v =>
      if v.cmd.status.isSome || !d.acts e v.s then .skip
      else
        let issue : Upd := .when (((unitsOf v.op).use d v).fns.all fun i => !d.awaitsRewrite e i)
          (.cur e v.s fun c => { c with tileIssued := true })
        match tileOf d v with
        | .wait u => .all [u, .replayWaits e]
        | .stop st r u => .all [u, .decide e v.s st r]
        | .part _ => issue
        | .next _ => issue
        | .last _ => issue)

/-- A command begins again from its start: what it did is forgotten, but for what it holds, its strike and its first issue
(R276, R334, R369). -/
def Cmd.again (c : Cmd) (now : Word64) : Cmd :=
  { index := c.index, desc := c.desc, tStart := c.tStart, tIssue := now, replayed := true, strike := c.strike,
    epochs := c.epochs, adapters := c.adapters, fns := c.fns, own := c.own, heated := c.heated,
    stages := if fieldAt c.desc 0 1 = opFused then c.stages else [], preempted := c.preempted,
    waits := c.waits.map fun w => { w with sent := false, met := false } }

/-- A command of a chain restarts from its start, and its relays are empty again (R276). -/
def Upd.restartChain (e s : Nat) : Upd :=
  .read fun d => .all [
    .cur e s fun c => { c.again (d.dieTime (e / 8)) with cntBase := if d.runs e s then d.countsLess e [] else [], paused := if d.runs e s then 0 else 0 - d.dieTime (e / 8) },
    .of fun d => { d with q := { d.q with restart := put d.q.restart e 0 0 } },
    match (d.slot e s).cur with
    | some c => .announce e c.desc
    | none => .skip]

/-- TILE_BOUNDARY (R79, R257, R260, R261, R269, R276): at a preemption point of the running command a cancellation, a stop, a
restart of its chain or a ready Q0 command takes effect. Pages that a key-value command has asked for are settled first. -/
def Upd.tileBoundary (e : Nat) : Upd :=
  .read fun d =>
    match d.env e with
    | none => .skip
    | some v =>
      let t := d.slot e v.s
      if v.cmd.status.isSome || !d.up || !d.unheld || d.resetDue e || ((d.eng e).rst ≠ .running && (d.eng e).rst ≠ .replaying)
        || !v.cmd.asked.isEmpty || !v.cmd.answers.isEmpty || (d.eng e).redecode.isSome then .skip
      else match t.flushReq with
      | some st => .all [.decide e v.s st none, .cutArrays e, .slot e v.s fun t => { t with flushReq := none }]
      | none =>
        if t.stopReq then
          .all [.suspend e v.s, .slot e v.s fun t => t.afterEnd false, .replayCleared e v.s]
        else if look d.q.restart e 0 = v.fld 44 4 + 1 && v.op = opFused && v.chain ≠ 0 then
          .all [.cutArrays e, .restartChain e v.s]
        else if d.prio e v.s ≠ 0 && (d.eng e).rst = .running && !(d.eng e).withheld &&
            ((List.range 8).any fun s => d.prio e s = 0 && d.isReady e s) then
          .all [.suspend e v.s, .cur e v.s fun c => { c with preempted := true, preempts := c.preempts + 1 },
            .eng e fun g => { g with pre := some v.s, progress := d.dieTime (e / 8) },
            .count (engPage e + 0x68), .event e 0x004 1, .cmdTrace e v.s 0x03 v.cmd []]
        else .replayWaits e

def execTileBoundary (e : Nat) (s : State) : Host.Outcome State Fault Refusal :=
  s.act (.tileBoundary e) (.tileBoundary e)

/-! ### The end of a command (R267) -/

/-- The output rows of a command, which have a row-status byte each (R255). -/
def Cmd.rowCount (c : Cmd) : Nat :=
  let f := fieldAt c.desc
  let op := f 0 1
  if op = opMatmul ∨ op = opU4Gemm then f 80 4
  else if op = opNorm ∨ op = opSoftmax ∨ op = opSample then f 68 4
  else if op = opRope then f 72 8
  else if op = opPrefill ∨ op = opDecode then (c.stages.map fun b => (readSeq b).q).sum
  else if op = opFused then fusedRows c.desc c.stages
  else 0

/-- Ticks that the current execution of a command ran (R333, R335). -/
def Cmd.ranTicks (c : Cmd) (now : Word64) (runs : Bool) : Word64 :=
  if isWait (fieldAt c.desc 0 1) then 0 else if runs then now - c.tIssue - c.paused else 0 - c.tIssue - c.paused

/-- The 576 bytes of a counter record (R335); every count is zero for a command that never ran. -/
def Device.counterRecord (d : Device) (e s ctx : Nat) (c : Cmd) : List Byte :=
  let runs := d.runs e s
  let count := if runs then d.countsLess e c.cntBase else c.cntBase
  let on (i : Nat) : Bool := bitOf (look d.ob.sel (e * 64 + i) 0) 15
  let enabled := ((List.range 64).map fun i => if on i then 2 ^ i else 0).sum
  let never := c.cntBase.isEmpty && !c.tileIssued && !runs
  (c.desc.drop 4).take 8 ++ toBytes 1 (fieldAt c.desc 0 1) ++ toBytes 1 (slotKey e s) ++ toBytes 1 ctx ++ toBytes 1 (min c.preempts 255) ++
    toBytes 4 (d.regN (cntPage e + 0x40)) ++ toBytes 8 c.tIssue.toNat ++ toBytes 8 (d.dieTime (e / 8)).toNat ++
    toBytes 8 (if never then 0 else (c.ranTicks (d.dieTime (e / 8)) runs).toNat) ++ toBytes 8 enabled ++ List.replicate 16 0 ++
    ((List.range 64).flatMap fun i => toBytes 8 (if on i then (look count i 0).toNat else 0))

/-- One of the records of step 2 is written, or counts as not written (R255, R321, R335): 0 counter, 1 digest, 2 row
status, whose bytes go by the snare path (R277). -/
def Upd.putRecord (e s kind va : Nat) (bs : List Byte) (fail : Bool) (k : Bool → Upd) : Upd :=
  .read fun d =>
    let w := d.recordWrite e s va bs
    let ok := w.1 && !fail
    let r := match (d.slot e s).cur with
      | some c => (engRec 0x0210 e).ofCmd (d.slot e s).ctx s c.desc
      | none => engRec 0x0210 e
    .all [.when (!fail) w.2.1, .when (kind = 2 && ok) (.snare e 0 (snarePieces va bs.length) bs.length), .when (!ok) (.error (cntPage e) 1 { r with detail := detailN kind } true fail), k ok]

/-- Step 2 of R267: the counter, digest and row-status records; their rec bits go on. -/
def Upd.endRecords (e s : Nat) (c : Cmd) (st : Status) (k : Nat → Upd) : Upd :=
  .read fun d =>
    let va := fieldAt c.desc 24 8
    let rows := c.rowCount
    let three (bits : Nat) : Upd :=
      if flagBit c.desc 5 && c.tileIssued && rows ≠ 0 then
        .putRecord e s 2 (va + 0x600) ((List.range rows).map fun i => BitVec.ofNat 8 (look c.rowStatus i 0)) false
          fun ok => k (bits + (if ok then 4 else 0))
      else k bits
    let two (bits : Nat) : Upd :=
      if flagBit c.desc 4 && st = .ok then
        .putRecord e s 1 (va + 0x400) (digestRecord c.desc (c.stream.flatMap (·.2))) false fun ok => three (bits + (if ok then 2 else 0))
      else three bits
    if flagBit c.desc 3 then
      .inject (cntPage e) 1 fun fail =>
        .putRecord e s 0 va (d.counterRecord e s (d.slot e s).ctx c) fail fun ok => two (if ok then 1 else 0)
    else two 0

/-- cflags without the phase (R254). -/
def Cmd.cflags (c : Cmd) : Nat :=
  (if c.narrowNan then 2 else 0) + (if c.rowStatus.any (·.2 ≠ 0) then 4 else 0) + (if c.replayed then 8 else 0) + (if c.preempted then 16 else 0)

/-- The 32 bytes of a completion record, before its phase (R254). -/
def Device.completionBytes (d : Device) (e s : Nat) (c : Cmd) (st : Status) (recBits : Nat) : List Byte :=
  toBytes 2 st.code ++ toBytes 2 c.cflags ++ toBytes 4 (fieldAt c.desc 4 4) ++ toBytes 8 c.tStart.toNat ++
    toBytes 4 (min (d.dieTime (e / 8) - c.tStart).toNat 0xFFFFFFFF) ++ toBytes 2 c.index ++ toBytes 1 (slotKey e s) ++
    toBytes 1 (d.slot e s).ctx ++ toBytes 8 (fieldAt c.desc 24 8 + recBits)

/-- What a status other than OK leaves in the pages, and its fault record (R356): the record's vector follows the ERR_ENABLE
bit of the page that R355 names. -/
def Upd.statusFault (e ctx : Nat) (r : FaultRec) : Upd :=
  .read fun d =>
    let a := (r.addr.map (·.2)).getD 0
    match r.code with
    | 0x020A => .all [
        .count (xltPage e + 0x78),
        .when (!bitOf (d.reg (xltPage e + 0x48)) 31) (.all [
          .setPair (xltPage e + 0x40) a,
          .setReg (xltPage e + 0x48) (BitVec.ofNat 32
            (2 ^ 31 + r.cause % 16 * 2 ^ 27 + (if r.stream < 8 then r.stream else 0) * 2 ^ 24 + ctx))]),
        .error (xltPage e) 1 r false r.injected]
    | 0x0205 => .error (tabPage e) 0 r false r.injected
    | 0x0404 => .error wgtPage 1 r false r.injected
    | 0x010C => .error (expPage e (r.source % 16)) 0 r false r.injected
    | 0x0208 => .record { r with enabled := d.enabled (dmaPage e) 0 }
    | 0x020B =>
      -- of the peer's line behind a window the device knows no address within a part: a free value (log 43)
      if r.addr.any (·.1 = 3) then .draw fun n => .record { r with detail := (List.range 10).map (Config.freshByte n) }
      else .record { r with enabled := d.enabled (ctlPage (ctlOf a)) 1 }
    | 0x020E => .record { r with enabled := d.enabled zwlPage 6 }
    | _ => .record r

/-- What a command held is released: functions, adapters, epochs (by a message; R117, R172, R202), its load, its operation at
the DGS unit, its reads, its watches, and for a key-value command that failed its pages (R140, R168). -/
def Upd.releaseCmd (e s : Nat) (c : Cmd) (st : Status) : Upd :=
  let op := fieldAt c.desc 0 1
  .all [
    .when (isWait op) (.unwatchAll e s),
    .each c.fns fun i => .of fun d => { d with sfu := { d.sfu with fns := put d.sfu.fns i { d.fn i with refs := (d.fn i).refs - 1 } (builtinFn i) } },
    .freeFns,
    .each c.adapters fun p => .adapterSlot p.2 fun x => { x with refs := x.refs - 1 },
    .of fun d => { d with wt := { d.wt with refMsgs := d.wt.refMsgs ++ c.epochs.map fun p => (e, p.1, p.2, false) } },
    .releaseDue,
    .read fun d => match d.job (slotKey e s) with
      | none => .skip
      | some j => .all [.setJob (slotKey e s) none,
          .when (st ≠ .ok && (d.target j).state = .loading)
            (.all [.target j (·.emptied .failed), .when (!j.adapter) (.syncSet j.target)])],
    .dgs fun l => l.filter fun x => x.slot ≠ slotKey e s,
    .consume (slotKey e s),
    .of fun d => { d with
      ho := { d.ho with reads := d.ho.reads.map fun r => if r.slot = slotKey e s then { r with dropped := true } else r },
      lk := { d.lk with reqs := d.lk.reqs.map fun r => if r.slot = slotKey e s then { r with orphan := true } else r } },
    .when (op = opFused && bits (fieldAt c.desc 41 1) 0 2 ≠ 0) (.eng e fun g => { g with
      credits := g.credits.filter fun p => p.1 ≠ fieldAt c.desc 44 4 * 8 + 5,
      creditsDue := g.creditsDue.filter fun p => p.1 ≠ fieldAt c.desc 44 4 * 8 + 5 }),
    .when ((op = opAppend || op = opFork || op = opFree) && st ≠ .ok) (.censusReset e)]

/-- The other commands of a chain end when one ends with a status other than OK (R276), those among them that are done and wait for
the rest of the chain. -/
def Upd.abortChain (e : Nat) (c : Cmd) : Upd :=
  .when c.chained
    (.each ((List.range 8).map fun b => e / 8 * 8 + b) fun f => .each (List.range 8) fun s => .read fun d =>
      match (if f = e then none else (d.slot f s).cur) with
      | some m => .when (m.chained && fieldAt m.desc 44 4 = fieldAt c.desc 44 4)
          (if m.status = some .ok then .decide f s .relayAbort none else .endCurrent f s .relayAbort)
      | none => .skip)

/-- The bells that a command signals at its end with OK, by their names as decode read them (R280): that of flags bit 2, then
those of BELL_SIGNAL in order (R267 step 4). -/
def Cmd.endSignals (c : Cmd) : List (Nat × Word64) :=
  ((if flagBit c.desc 2 then [(fieldAt c.desc 12 4, BitVec.ofNat 64 (fieldAt c.desc 16 8))] else []) ++
    (if fieldAt c.desc 0 1 = opSignal then bellConds c.desc else [])).map fun p => (ownBell c.own p.1, p.2)

/-- A function under reset has no slot left: its contexts become FREE, and it is quiescent (R379). -/
def Upd.flrDone (fn : Nat) : Upd :=
  .read fun d =>
    let ctxs := (d.q.ctxs.filter fun p => p.2.owner = fn && p.2.state ≠ .free).map (·.1)
    .when ((d.vf fn).flrBusy && ctxs.all fun c => (d.boundSlots c).isEmpty) (.all [
      .each ctxs fun c => .ctx c fun x => { x with state := .free, replayable := false, adapters := [], root := none },
      .of fun d => { d with ho := { d.ho with vfs := put d.ho.vfs fn { d.vf fn with flrBusy := false } {} } }])

/-- Steps 3 to 5 of R267, and what the end leaves: the completion record but for OK with no_cmpl (R242, R243), the signals,
the interrupt, the slot's next state. A function under reset gets neither record nor message (R379). -/
def Upd.finish (e s : Nat) (c : Cmd) (st : Status) (fault : Option FaultRec) : Upd :=
  .read fun d =>
    let ctx := (d.slot e s).ctx
    let flr := (d.vf (d.ownerOf ctx)).flrBusy && d.ownerOf ctx ≠ 0
    let bad : Bool := st ≠ .ok && (d.stopOnErr e s || st = .descFault)
    let after (recBits : Nat) : Upd := .read fun d =>
      let phase := if bits (d.slot e s).cqTail.toNat (d.cqLog2 e s) 1 = 0 then 1 else 0
      .all [
        .when (!flr && !(flagBit c.desc 7 && st = .ok)) (.completion e s (d.completionBytes e s c st recBits)),
        .when (st = .ok) (.each c.endSignals fun p => .sendSignal e s p.1 p.2),
        match (if flagBit c.desc 1 && !flr then d.slotVector e s else none) with
        | some v => .cross (e / 8) 6 (.msix v.1 v.2)
        | none => .skip,
        .count (engPage e + 0x60),
        .when (st ≠ .ok) (.raise (engPage e) (oneBit 0)),
        match fault with
        | some r => .statusFault e ctx r
        | none => .skip,
        .cmdTrace e s 0x02 c (toBytes 2 st.code ++ toBytes 2 (c.cflags + phase)),
        .releaseCmd e s c st,
        .when (st ≠ .ok) (.abortChain e c),
        .counterEnd e { c with status := some st },
        .eng e fun g => { g with
          run := if g.run = some s then none else g.run, pre := if g.pre = some s then none else g.pre,
          boundary := g.boundary + 1, progress := d.dieTime (e / 8), redecode := if g.run = some s then none else g.redecode },
        .slot e s fun t => { (t.afterEnd bad) with cur := none, lastStatus := st, lastTag := fieldAt c.desc 4 4, flushReq := none },
        .counterBoundary e,
        .read fun d => .when (flr || (d.slot e s).unbindReq) (.unbound e s),
        .when flr (.flrDone (d.ownerOf ctx)),
        .replayCleared e s]
    if flr then after 0 else .endRecords e s c st after

/-- COMMAND_END (R258, R267): the command of a slot whose status is decided ends, once its remote writes are retired (R298), the
census operations that it has sent are done (R138) and its signals can be sent. A signal to a LOST peer ends it with PEER_LOST instead (R309). -/
def Upd.commandEnd (e s : Nat) : Upd :=
  .read fun d =>
    match (d.slot e s).cur with
    | none => .skip
    | some c =>
      match c.status with
      | none => .skip
      | some st =>
        let waits := d.lk.reqs.any fun r => r.slot = slotKey e s && r.kind = .write
        let names := if st = .ok then c.endSignals.map (·.1) else []
        if !d.up || !d.unheld || !d.blockOn e || ((d.eng e).rst ≠ .running && (d.eng e).rst ≠ .replaying) || d.resetDue e || waits || !c.asked.isEmpty
            || (isWait (fieldAt c.desc 0 1) && (d.slot e s).state = .stopped && !(d.slot e s).unbindReq) then .skip
        else if d.chainHolds e c then .park e s
        else match d.lostBell names with
        | some p => .finish e s c .peerLost
            (some { (engRec 0x020E e).ofCmd (d.slot e s).ctx s c.desc with detail := detailL 0xFF p 0 })
        | none => if d.canSignals e names then .finish e s c st c.fault else .awaitSignals e s names

def execCommandEnd (e slot : Nat) (s : State) : Host.Outcome State Fault Refusal :=
  s.act (.commandEnd e slot) (.commandEnd e slot)

end Sys2Proof.Machine
end

