-- ==== Sys2Proof/Machine/Recovery.lean ====
section
/-! DEFINITION. Hang detection, engine reset and replay, device reset, Function Level Reset, the clocks and the power
(12_faults.md R362 to R383, 09_bells_links.md R306, 14_security_mgmt.md R412 to R414, 15_electrical.md R434, R439). -/

namespace Sys2Proof.Machine

/-! ### Hang detection (R362, R363) -/

/-- Detail format W of R354. -/
def Device.detailW (d : Device) (v : Env) : List Byte :=
  toBytes 8 (d.eng v.e).progress.toNat ++ toBytes 2 (max 1 (fieldOf (d.reg (engPage v.e + 0x44)) 13 0)) ++ toBytes 1 v.op

/-- The window of the running command has expired; nothing happens while it is suspended. -/
def Upd.watchdog (e : Nat) : Upd :=
  .read fun d =>
    match d.env e with
    | none => .skip
    | some v => .when (d.acts e v.s && !d.windowSuspended v)
        (.inject (engPage e) 2 fun inj => .resetError (engPage e) 2 (v.record 0x0201 (d.detailW v)) e true inj)

/-- WATCHDOG (R362). -/
def execWatchdog (e : Nat) (s : State) : Host.Outcome State Fault Refusal := s.act (.watchdog e) (.watchdog e)

/-! ### Engine reset (R364 to R368) -/

/-- A command is convicted (R371, R372): its record holds the code of this error and of the first strike; its context is
killed, and it ends with CONVICTED. -/
def Upd.convict (e s code first : Nat) : Upd :=
  .read fun d =>
    match (d.slot e s).cur with
    | none => .skip
    | some c =>
      let ctx := (d.slot e s).ctx
      .all [
        .record { (engRec 0x020D e).ofCmd ctx s c.desc with detail := toBytes 2 code ++ toBytes 2 first ++ toBytes 2 c.index },
        .count (rstPage e + 0x70),
        .kill ctx .killed,
        .slot e s fun t => { t with flushReq := none },
        .decide e s .convicted none]

/-- The strike of an error of action RESET falls on the running command; a second one convicts it (R371). A command whose
context is not replayable gets none (R372), nor one that is being flushed, whose strikes are cleared. -/
def Upd.strikeRunning (e code : Nat) : Upd :=
  .read fun d =>
    match d.env e with
    | none => .skip
    | some v =>
      if !(d.ctx v.ctx).replayable || (d.slot e v.s).state = .flushing then .skip
      else match v.cmd.strike with
      | none => .cur e v.s fun c => { c with strike := some code }
      | some first => .convict e v.s code first

/-- A slot of an engine whose command belongs to a chain and is not done, so that the chain is replayed with it (R276): one that
waits for the rest of its chain is not done either. -/
def Device.chainOf (d : Device) (e s : Nat) : Option Nat :=
  match (d.slot e s).cur with
  | some c => if c.chained && (c.status.isNone || d.chainHolds e c) then some (fieldAt c.desc 44 4) else none
  | none => none

/-- The partners of a chain restart with it (R276, R372): a running one at its next preemption point, another at once, one that
waits for its end among them; the relays between them are empty again, and their credits gone before any of them announces its
slots anew. -/
def Upd.restartPartners (e chain : Nat) : Upd :=
  let engines := (List.range 8).map fun b => e / 8 * 8 + b
  .all [
    .each engines fun f => .eng f fun g => { g with
      credits := g.credits.filter fun p => p.1 ≠ chain * 8 + 5, creditsDue := g.creditsDue.filter fun p => p.1 ≠ chain * 8 + 5 },
    .each engines fun f => .each (List.range 8) fun s => .read fun d =>
      if f = e || d.chainOf f s ≠ some chain then .skip
      else if d.runs f s && (d.slot f s).cur.any (·.status.isNone) then
        .of fun d => { d with q := { d.q with restart := put d.q.restart f (chain + 1) 0 } }
      else .restartChain f s]

/-- Steps 1 to 4 for one slot: its reads are dropped, its fetched commands are to be fetched again, its watches go, and a
command that was being flushed ends now (R365, R366, R373); a STOP that waits for a preemption point goes on waiting. -/
def Upd.quietSlot (e s : Nat) : Upd :=
  .read fun d => .all [
    .unwatchAll e s,
    .slot e s Slot.rewind,
    match (d.slot e s).flushReq with
    | some st => .all [.decide e s st none, .slot e s fun t => { t with flushReq := none }]
    | none => .skip]

/-- What an engine reset clears outside the slots (R365 steps 3 to 5, R366): reads in flight are dropped, and the engine's
requests in the retry store (log 62); pages, leases, loads, watches, operations at the DGS unit;
cells, block store, relays, translations, armed injections; the entries of the bound rings are walked again (step 7). The counts of the command that ran are kept (R335). -/
def Upd.clearEngine (e : Nat) : Upd :=
  .all [
    .each (List.range 8) (.park e),
    .of fun d => { d with
      ho := { d.ho with reads := d.ho.reads.map fun r => if r.slot / 8 = e then { r with dropped := true } else r },
      lk := { d.lk with reqs := d.lk.reqs.filter fun r => r.slot / 8 ≠ e },
      bl := { d.bl with watches := d.bl.watches.filter fun w => w.slot / 8 ≠ e },
      xl := { d.xl with tlb := put d.xl.tlb e [] [] },
      rf := { d.rf with armed := d.rf.armed.filter fun p => p.1 / 2 ^ 20 ≠ e / 8 * 16 + e % 8 } },
    .censusDeliver e, .dropLoads e, .dgs fun l => l.filter fun o => o.slot / 8 ≠ e,
    .each (List.range 4) fun c => .cell e c fun _ => {},
    .eng e fun g => { g with
      boundary := g.boundary + 1, run := none, pre := none, redecode := none, staged := [], credits := [], creditsDue := [], replay := none },
    .each (List.range 8) fun s => .read fun d => .when ((d.slot e s).state ≠ .unbound) (.pinRings e s)]

/-- Detail format S of R354. -/
def detailS (code suspects strikes ns : Nat) : List Byte := toBytes 2 code ++ toBytes 1 suspects ++ toBytes 1 strikes ++ toBytes 4 ns

/-- A set of slots as a bit for each. -/
def slotBits (l : List Nat) : Nat := (l.map fun s => 2 ^ s).sum

/-- The slots of an engine whose current command holds a strike (RST.STRIKES). -/
def Device.struck (d : Device) (e : Nat) : List Nat :=
  (List.range 8).filter fun s => match (d.slot e s).cur with | some c => c.strike.isSome | none => false

/-- ENGINE_RESET, from its detection to step 8 (R364 to R372). -/
def Upd.engineReset (e code : Nat) (strike : Bool) : Upd :=
  .read fun d =>
    let suspects := (List.range 8).filter (d.isSuspect e)
    let outlaws := suspects.filter fun s => !(d.ctx (d.slot e s).ctx).replayable
    let chained := (List.range 8).filter fun s => (d.chainOf e s).isSome
    let chains := (chained.filterMap (d.chainOf e)).eraseDups
    let ns := (d.dieTime (e / 8) - (d.eng e).resetAt).toNat
    .all [
      .when strike (.strikeRunning e code),
      .each outlaws fun s => .convict e s code 0,
      .read fun d => .record { engRec 0x020F e with detail := detailS code (slotBits suspects) (slotBits (d.struck e)) ns },
      .each (List.range 8) (.quietSlot e),
      .clearEngine e,
      .each chains (.restartPartners e),
      .each (chained.filter fun s => !suspects.contains s) fun s => .read fun d => .when (d.chainOf e s).isSome (.restartChain e s),
      .each suspects fun s => .slot e s fun t =>
        if t.state = .active then { t with state := .suspect }
        else if t.state = .pausedCmpl then { t with state := .suspect, lost := true } else t,
      .count (rstPage e + 0x60),
      .setReg (rstPage e + 0x48) (BitVec.ofNat 32 code),
      .setPair (rstPage e + 0x4C) (d.eng e).resetAt.toNat,
      .setReg (rstPage e + 0x54) (BitVec.ofNat 32 (min ns 0x3FFFF)),
      .read fun d => .eng e fun g => { g with
        rst := .replaying, rstCode := code, suspects := suspects.filter fun s => (d.slot e s).state = .suspect }]

/-- A reset due may be carried out: while the gong is active only one that was in progress at the cut, and not that of the fault
that raised the gong (R350). -/
def Device.resetGoes (d : Device) (e code : Nat) : Bool :=
  let g := d.ob.gong
  let at' := (d.eng e).resetAt
  d.unheld || ((g.state = .stopping || at' < g.stoppedAt) && !(at' = g.raisedAt && g.cause = BitVec.ofNat 32 (3 * 2 ^ 24 + code)))

/-- ENGINE_RESET (R365): the oldest reset due for the engine is carried out, when the gong lets it (R350). An injection fails it (R367,
RST page), and so do what the caller says that its steps 5 and 6 met: an uncorrectable error, which shows in quiesce_timeout (DESIGN
CHOICE, log 159), or a self-check that finds a mismatch. -/
def execEngineReset (e : Nat) (s : State) (failure : Option Bool := none) : Host.Outcome State Fault Refusal :=
  s.act (.engineReset e failure) (.read fun d =>
    match d.fl.resets.find? (·.1 = e) with
    | none => .skip
    | some (_, code, strike) =>
      .when (d.up && d.blockOn e && (d.eng e).rst ≠ .failed && d.resetGoes e code) (.all [
        .of fun d => { d with fl := { d.fl with resets := d.fl.resets.filter (·.1 ≠ e) } },
        .inject (rstPage e) 0 fun late => .inject (rstPage e) 1 fun wrong =>
          if late then .resetFailed e 0 true
          else .all [
            .engineReset e code strike,
            if wrong then .resetFailed e 1 true
            else match failure with
              | some true => .resetFailed e 1
              | some false => .resetFailed e 0
              | none => .skip]]))

/-- QUIESCE_TIMEOUT (R367): steps 1 to 4 of the reset are not complete in time. -/
def execQuiesceTimeout (e : Nat) (s : State) : Host.Outcome State Fault Refusal :=
  s.act (.quiesceTimeout e) (.read fun d => .when (d.up && d.unheld && d.resetDue e) (.all [
    .of fun d => { d with fl := { d.fl with resets := d.fl.resets.filter (·.1 ≠ e) } }, .resetFailed e 0]))

/-- A write of RST.CTRL of a block: reset_req resets the engine without a strike; while its state is RESETTING it has no
effect (R368). -/
def Upd.resetReq (e : Nat) (data : Word) : Upd :=
  .read fun d => .when (bitOf data 0 && !d.resetDue e && (d.eng e).rst ≠ .failed)
    (.all [.askReset e 0xFFFF false, .count (rstPage e + 0x78)])

/-- RESET_REQ (R368). -/
def execResetReq (fn e : Nat) (data : Word) (s : State) : Host.Outcome State Fault Refusal :=
  s.hostAct (.resetReq fn e data) fn (.pfBlock fn e (.resetReq e data)) (e / 8)

/-! ### Replay (R369, R370) -/

/-- The suspect that replays next: the most urgent priority, then the lowest slot number. -/
def Device.nextSuspect (d : Device) (e : Nat) : Option Nat :=
  [0, 1, 2, 3].findSome? fun p => (List.range 8).find? fun s => d.prio e s = p && (d.eng e).suspects.contains s

/-- A suspect's command begins again from its start. A wait is cleared as soon as it is reached. -/
def Upd.replay (e s : Nat) : Upd :=
  .read fun d =>
    match (d.slot e s).cur with
    | none => .replayCleared e s
    | some c =>
      let wait := isWait (fieldAt c.desc 0 1)
      .all [
        .eng e fun g => { g with
          suspects := g.suspects.filter (· ≠ s), replay := some s, run := if wait then none else some s, progress := d.dieTime (e / 8),
          boundary := g.boundary + 1 },
        .cur e s fun c => { c.again (d.dieTime (e / 8)) with cntBase := if wait then [] else d.countsLess e [], waitTag := d.bl.nextWait },
        .of fun d => { d with bl := { d.bl with nextWait := d.bl.nextWait + (if wait then 1 else 0) } },
        .announce e c.desc, .count (rstPage e + 0x68), .event e 0x003 1, .cmdTrace e s 0x01 c [],
        .when wait (.clearSuspect e s)]

/-- REPLAY_START (R369): the next suspect is replayed; with none left the engine runs again. A command that was flushed or killed in its
replay ends first (R373). -/
def execReplayStart (e : Nat) (s : State) : Host.Outcome State Fault Refusal :=
  s.act (.replayStart e) (.read fun d =>
    .when (d.up && d.unheld && d.blockOn e && (d.eng e).rst = .replaying && !d.resetDue e && (d.eng e).replay.isNone && (d.eng e).run.isNone)
      (match d.nextSuspect e with
       | some s => .replay e s
       | none => .replayDone e))

/-- REPLAY_LIMIT (R369): the replaying command has run for RST.REPLAY_LIMIT; its suspect is cleared. -/
def execReplayLimit (e : Nat) (s : State) : Host.Outcome State Fault Refusal :=
  s.act (.replayLimit e) (.read fun d =>
    match (d.eng e).replay, d.env e with
    | some s, some v => .when (v.s = s && d.acts e s && v.cmd.status.isNone) (.all [.suspend e s, .clearSuspect e s])
    | _, _ => .skip)

/-! ### Device reset (R306, R375 to R377) -/

/-- A write of RST.CTRL of the device (R375). -/
def Upd.devReset (data : Word) : Upd :=
  .read fun d => .when (bitOf data 0 && (d.clk.power = .ready || d.clk.power = .resetting)) (.askDevice 1 0)

/-- DEV_RESET (R375): by the physical function only. -/
def execDevReset (fn : Nat) (data : Word) (s : State) : Host.Outcome State Fault Refusal :=
  s.hostAct (.devReset fn data) fn (.when (fn = 0) (.devReset data))

/-- The counters of a region's bells, as they stand in the image. -/
def Device.bellImage (d : Device) (r : Nat) : List Byte := (List.range 32768).flatMap fun i => toBytes 8 (d.bell (r * 32768 + i)).toNat

/-- A region's bells are saved (R306 step 2, R310): valid when every counter reads. -/
def Upd.saveBells (r : Nat) : Upd :=
  .read fun d =>
    let base := d.pair (belPage r + 0x60) % 2 ^ 44 / 4096 * 4096
    let ok := !(d.bl.damaged.any fun p => p.1 / 32768 = r && p.2 = .uncorrectable)
    let id := d.reg (zwlPage + 0x40)
    .when (base ≠ 0) (.all [
      .write 0 base (d.bellImage r),
      .write 0 (base + 0x40000) (toBytes 4 bellMagic ++ toBytes 2 (if bitOf id 31 then fieldOf id 12 0 else 0) ++ toBytes 1 r ++
        toBytes 1 (if ok then 1 else 0) ++ toBytes 8 (d.dieTime r).toNat ++ List.replicate 48 0),
      .setReg (belPage r + 0x6C) (if ok then 1 else 2)])

/-- Registers that a device reset keeps (R377, RST page; the enables of ports that stay trained, R306, log 63). -/
def keptReg (addr : Nat) : Bool :=
  (addr = rstDevPage + 0x40 || addr = rstDevPage + 0x44 || addr = rstDevPage + 0x48 || addr = rstDevPage + 0x4C ||
    addr = rstDevPage + 0x54 || addr = rstDevPage + 0x0C || addr = zwlPage + 0x40 || addr = timPage + 0x4C) ||
    (List.range 4).any (fun r => addr = belPage r + 0x6C) || (List.range 18).any fun p => addr = portPage p + 0x04

/-- Registers that survive until power-on only (R439). -/
def keptByPerst (addr : Nat) : Bool :=
  addr = rstDevPage + 0x44 || addr = rstDevPage + 0x48 || addr = rstDevPage + 0x4C || addr = rstDevPage + 0x54 || addr = timPage + 0x4C

theorem canon_filter {α : Type} {f : Nat → α} {m : Sparse α} (h : Canon f m) (p : Nat × α → Bool) : Canon f (m.filter p) :=
  ⟨h.1.filter p, fun q hq => h.2 q (List.mem_filter.1 hq).1⟩

/-- A port through a device reset: a trained port stays in HOLD_TX with its lanes trained and its link layer at work; the requests
that wait in it are dropped (R306), and its errors are counted anew (R354). -/
def Port.held (q : Port) : Port :=
  match q.state with
  | .up | .holdRx | .holdTx => { q with state := .holdTx, waiting := q.waiting.filter (·.vc = 1), faults := 0 }
  | _ => {}

/-- The image that runs still verifies (R412). -/
def Device.stillBoots (d : Device) : Bool :=
  match d.se.running with
  | some r => match d.imageIn r.slot with
    | some i => d.verifies i && i.gen = r.gen
    | none => false
  | none => false

/-- What the configuration of PCI Express is after a reset: a Hot Reset or link down (kind 5) does not keep it (R376, R377), a Function
Level Reset of the physical function (kind 4) keeps it and disables the virtual functions (R380). What the device has sent stays
sent. -/
def HostIf.afterReset (h : HostIf) (kind : Nat) : HostIf :=
  if kind = 5 then { rate := h.rate, width := h.width, flit := h.flit, sent := h.sent, nextRead := h.nextRead }
  else
    let vfs : Bool := kind ≠ 4
    let kept : HostIf :=
      { vectors := h.vectors, msixOn := h.msixOn, msixMasked := h.msixMasked, msixTable := h.msixTable, d3 := h.d3, aer := h.aer,
        aerReport := h.aerReport,
        rate := h.rate, width := h.width, flit := h.flit, bar2Log2 := h.bar2Log2, vfBar2Log2 := h.vfBar2Log2, sent := h.sent,
        nextRead := h.nextRead }
    if vfs then { kept with vfEnable := h.vfEnable, vfCount := h.vfCount }
    else { kept with
      vectors := h.vectors.filter fun p => p.1 < 2048, msixTable := h.msixTable.filter fun p => p.1 < 2048,
      msixOn := h.msixOn.filter (· = 0), msixMasked := h.msixMasked.filter (· = 0) }

/-- What stands after steps 3 to 6 (R376, R377) of a reset of a kind of RST.CAUSE; cold tells one that does not keep memory (R383). -/
def Device.afterReset (d : Device) (kind : Nat) (cold : Bool) (regs : Sparse Word) : Device :=
  { clk := { d.clk with power := if cold then .held else if d.stillBoots then .resetting else .fwFail, dieSkew := [] },
    fuses := d.fuses,
    rf := { regs := regs, inForce := d.rf.inForce.filter fun p => keptReg p.1,
            ctrs := d.rf.ctrs.filter fun p => p.1 = gngPage + 0x80 || p.1 = gngPage + 0x88 },
    mm := { d.mm with
      cells := if cold then [] else d.mm.cells, lineKey := if cold then [] else d.mm.lineKey, lineErr := if cold then [] else d.mm.lineErr,
      ctls := d.mm.ctls.map fun p => (p.1, { p.2 with sparing := none, spareDue := [], rowErrs := [], patrol := 0 }) },
    xl := { atsOn := d.xl.atsOn.filter fun fn => kind ≠ 5 && (kind ≠ 4 || fn = 0) },
    wt := if cold then {} else { sets := d.wt.sets, epochs := d.wt.epochs, adapters := d.wt.adapters },
    bl := { nextWait := d.bl.nextWait },
    lk := { ports := d.lk.ports.map fun p => (p.1, p.2.held), routes := d.lk.routes, holdTx := true, nextReq := d.lk.nextReq },
    fl := { toLog := d.fl.toLog ++ d.fl.detected, log := d.fl.log, ovf := d.fl.ovf, logSeq := d.fl.logSeq },
    ho := d.ho.afterReset kind,
    se := { flash := d.se.flash, running := d.se.running, attest := d.se.attest, attestKeys := d.se.attestKeys,
            debugOpen := d.se.debugOpen, rngBad := d.se.rngBad, draws := d.se.draws },
    free := d.free }

/-- Steps 3 to 6 of a device reset. -/
def Upd.wipe (kind : Nat) (cold : Bool) : Upd :=
  ⟨fun d => d.afterReset kind cold (d.rf.regs.filter fun p => keptReg p.1), fun d h => by
    refine ⟨?_, ?_, canon_filter h.regs _, ⟨List.Pairwise.nil, by simp [Device.afterReset]⟩,
      h.keys.1, ?_, h.keys.2.2.1, ?_⟩
    · simp only [Device.afterReset]
      split
      · exact ⟨List.Pairwise.nil, by simp⟩
      · exact h.mem
    · simp only [Device.afterReset]
      split
      · simp
      · exact h.pop
    · simp only [Device.afterReset]
      split
      · simp
      · exact h.keys.2.1
    · simp only [Device.afterReset]
      split
      · exact List.Pairwise.nil
      · exact h.keys.2.2.2, fun _ => Fuses.Before.refl _⟩

/-- DEVICE_RESET (R376 steps 1 to 7): the cause is entered in the log, unless it was an error, which has its own record
(log 64); the links begin HOLD, the bells are saved (not when REFCLK is lost, R383), the dies are reset, the firmware is
verified. -/
def Upd.deviceReset (cause : Word) : Upd :=
  let kind := fieldOf cause 31 24
  .all [
    .of fun d => { d with fl := { d.fl with devReset := none } },
    .read fun d => .when (d.ob.gong.state = .stopped) (.count (gngPage + 0x88) (d.now - d.ob.gong.stoppedAt).toNat),
    .when (kind = 1 || kind = 4 || kind = 5) (.record (deviceRec 0x0411 6 (detailN cause.toNat))),
    .when (kind ≠ 6) (.each (List.range 4) .saveBells),
    .setReg (rstDevPage + 0x40) cause,
    .sat (rstDevPage + 0x44),
    .modReg (rstDevPage + 0x0C) (· &&& 2),
    .wipe kind (kind = 6),
    .holdBeacon]

def execDeviceReset (s : State) : Host.Outcome State Fault Refusal :=
  s.act .deviceReset (.read fun d =>
    match d.fl.devReset with
    | none => .skip
    | some cause => .when d.up (.deviceReset cause))

/-- The cells whose fuse map fails its check are named in the log at every boot (R2, R95, R355). -/
def Upd.fuseMaps : Upd :=
  .read fun d => .each (d.fuses.badMap.filter fun c => !d.fuses.disabled.contains c) fun c =>
    .error (arrPage (c / 4) (c % 4)) 2 (engRec 0x0103 (c / 4) (some (c % 4)))

/-- DEVICE_RESET_DONE (R376 step 8): the device is ready; the record raises the device fault vector when it reaches the
log. -/
def execDeviceResetDone (s : State) : Host.Outcome State Fault Refusal :=
  s.act .deviceResetDone (.read fun d => .when (d.clk.power = .resetting) (.all [
    .of fun d => { d with clk := { d.clk with power := .ready } },
    .fuseMaps,
    .raise rstDevPage (oneBit 1),
    .record (deviceRec 0x0411 6 (detailN (d.regN (rstDevPage + 0x40))))]))

/-- HOT_RESET (R375, R380): a PCI Express Hot Reset or link down. -/
def execHotReset (s : State) : Host.Outcome State Fault Refusal :=
  s.act .hotReset (.read fun d => .when (d.clk.power = .ready || d.clk.power = .resetting) (.askDevice 5 0))

/-! ### Function Level Reset (R379, R398, R401) -/

/-- A slot of a function under reset (R379 steps 2 and 3): its fetched commands are discarded, its running command stops at
its next preemption point, another ends now; without one the slot is UNBOUND. -/
def Upd.quiesceSlot (e s : Nat) : Upd :=
  .read fun d => .all [
    .releaseShadow e s,
    .slot e s fun t => { t with state := .flushing, fetched := [], reads := [], stopReq := false, lost := false, pending := false },
    .of fun d => { d with
      ho := { d.ho with reads := d.ho.reads.map fun r => if r.slot = slotKey e s then { r with dropped := true } else r },
      lk := { d.lk with reqs := d.lk.reqs.filter fun r => r.slot ≠ slotKey e s } },
    .unsuspect e s,
    .dgs fun l => l.filter fun o => o.slot ≠ slotKey e s,
    .cur e s fun c => { c with strike := none },
    if (d.slot e s).cur.isSome then .endCurrent e s .cancelled else .unbound e s]

/-- A function's weight sets and adapter slots are freed as by FREE_SET, FREE_EPOCH and ADAPTER_FREE (R379 step 6). -/
def Upd.freeWeights (fn : Nat) : Upd :=
  .read fun d => .all [
    .each (d.wt.jobs.filter fun p => (d.target p.2).owner = fn) fun p => .setJob p.1 none,
    .each ((List.range 256).filter fun s => !d.unowned s && (d.wset s).owner = fn) fun s => .all [
      .each [0, 1] fun k => .read fun d =>
        let st := (d.epoch s k).state
        if st = .free ∨ st = .retiring then .skip
        else if d.epochHeld s k then .retire s k else .epoch s k (·.emptied .free),
      .noCurrent s],
    .each (d.wt.adapters.filter fun p => p.2.owner = fn && p.2.state ≠ .free && p.2.state ≠ .retiring) fun p => .read fun d =>
      if d.adapterHeld p.1 then .adapterSlot p.1 fun x => { x with state := .retiring, wait := d.boundaries }
      else .adapterSlot p.1 (·.emptied .free)]

/-- A virtual function is quiesced (R379). -/
def Upd.quiesce (fn : Nat) : Upd :=
  .read fun d =>
    let ctxs := (d.q.ctxs.filter fun p => p.2.owner = fn && p.2.state ≠ .free).map (·.1)
    let clear (p : Nat × Word) : Nat × Word := if ctxs.contains (fieldOf p.2 23 16) then (p.1, p.2 &&& 0x7FFFFFFF) else p
    .all [
      .of fun d => { d with ho := { d.ho with vfs := put d.ho.vfs fn { d.vf fn with flrBusy := true } {} } },
      .each (ctxs.flatMap d.boundSlots) fun p => .quiesceSlot p.1 p.2,
      .of fun d => { d with bl := { d.bl with groups := d.bl.groups.map clear } },
      .freeWeights fn,
      .flrDone fn]

/-- A Function Level Reset: of the physical function a device reset (R380), of a virtual one R379 and R398. -/
def Upd.functionReset (fn : Nat) : Upd :=
  .read fun d =>
    if fn = 0 then .when (d.clk.power = .ready || d.clk.power = .resetting) (.askDevice 4 0)
    else .when (d.up && d.ho.vfEnable && fn ≤ d.ho.vfCount) (.all [
      .record (deviceRec 0x0412 6 (detailN fn)),
      .of fun d => { d with ho := { d.ho with
        vectors := d.ho.vectors.filter fun p => p.1 / 2048 ≠ fn, msixTable := d.ho.msixTable.filter fun p => p.1 / 2048 ≠ fn,
        msixOn := d.ho.msixOn.filter (· ≠ fn), msixMasked := d.ho.msixMasked.filter (· ≠ fn) } },
      .quiesce fn])

/-- FLR (R379, R380). -/
def execFlr (fn : Nat) (s : State) : Host.Outcome State Fault Refusal := s.act (.flr fn) (.functionReset fn)

/-- VF_ENABLE_CLEAR (R398): every virtual function is reset, and none is enabled any more. -/
def execVfEnableClear (s : State) : Host.Outcome State Fault Refusal :=
  s.act .vfEnableClear (.read fun d => .all [
    .each (span 1 d.ho.vfCount) .functionReset,
    .of fun d => { d with ho := { d.ho with vfEnable := false, vfCount := 0 } },
    .enableAts ((List.range 64).map (· + 1)) false])

/-- VF_ENABLE (R228, R390, R393): host software sets NumVFs, the size of VF BAR2, VF Enable, and the ATS enable of the virtual
functions. -/
def execVfEnable (count bar2Log2 : Nat) (s : State) (ats : Bool := false) : Host.Outcome State Fault Refusal :=
  s.act (.vfEnable count bar2Log2 ats) (.read fun d =>
    .when (!d.ho.vfEnable && d.clk.power ≠ .off && d.clk.power ≠ .perst) (.all [
      .of fun d => { d with ho := { d.ho with vfEnable := true, vfCount := count, vfBar2Log2 := bar2Log2 } },
      .enableAts ((List.range count).map (· + 1)) ats]))

/-! ### Clocks (R383) -/

/-- CLOCK_LOSS (R383): 0 REFCLK, 1 LINK_REFCLK, 2 MGT_CLK. -/
def execClockLoss (clock : Nat) (s : State) : Host.Outcome State Fault Refusal :=
  s.act (.clockLoss clock) (.read fun d =>
    let report := Upd.error rstDevPage 3 (deviceRec 0x0410 6 (detailN clock))
    .when (d.clk.power ≠ .off && d.clk.power ≠ .perst && d.clk.power ≠ .tripped) (
      match clock with
      | 0 => .when (!d.clk.lostRef) (.all [
          report, .of fun d => { d with clk := { d.clk with lostRef := true } },
          -- in a reset in progress, the cause becomes this one, and the reset ends in HELD (R375)
          if d.clk.power = .resetting then .all [
            .setReg (rstDevPage + 0x40) (causeWord 6 0x0410), .modReg (rstDevPage + 0x0C) (· &&& 0xA), .wipe 6 true]
          else .when d.up (.of fun d => { d with fl := { d.fl with devReset := some (causeWord 6 0x0410) } })])
      | 1 => .when (!d.clk.lostLink) (.all [
          report, .of fun d => { d with clk := { d.clk with lostLink := true } },
          .each (List.range 18) fun p => .read fun d => .when ((d.port p).state ≠ .down) (.portDown p .down)])
      | _ => .when (!d.clk.lostMgt) (.all [report, .of fun d => { d with clk := { d.clk with lostMgt := true } }])))

/-- CLOCK_RETURN (R383): the clock is present again; enabled ports train again. -/
def execClockReturn (clock : Nat) (s : State) : Host.Outcome State Fault Refusal :=
  s.act (.clockReturn clock) (.read fun d =>
    match clock with
    | 0 => .of fun d => { d with clk := { d.clk with lostRef := false } }
    | 1 => .when d.clk.lostLink (.all [
        .of fun d => { d with clk := { d.clk with lostLink := false } },
        .when (d.up || d.clk.power = .resetting) (.each (List.range 18) fun p => .read fun d => .when (bitOf (d.inForce (portPage p + 0x04)) 0) (.portDown p .training))])
    | _ => .of fun d => { d with clk := { d.clk with lostMgt := false } })

/-! ### PERST# and power (R412 to R414, R434, R439) -/

/-- What survives the assertion of PERST# (R439): the log, the time, the fuses and the repairs recorded in them, the debug
state, and what is kept until power-on. -/
def Device.afterPerst (d : Device) (regs : Sparse Word) : Device :=
  { clk := { power := .perst, time := d.clk.time, lostRef := d.clk.lostRef, lostLink := d.clk.lostLink, lostMgt := d.clk.lostMgt,
             smbAddr := d.clk.smbAddr },
    fuses := d.fuses,
    rf := { regs := regs },
    mm := { nextGen := d.mm.nextGen },
    fl := { toLog := d.fl.toLog ++ d.fl.detected, log := d.fl.log, ovf := d.fl.ovf, logSeq := d.fl.logSeq },
    ho := { sent := d.ho.sent, nextRead := d.ho.nextRead },
    se := { flash := d.se.flash, debugOpen := d.se.debugOpen, draws := d.se.draws },
    free := d.free }

/-- The fundamental reset (R439). -/
def Upd.perst : Upd :=
  ⟨fun d => d.afterPerst (d.rf.regs.filter fun p => keptByPerst p.1), fun _ h =>
    ⟨⟨List.Pairwise.nil, by simp [Device.afterPerst]⟩, by simp [Device.afterPerst], canon_filter h.regs _,
      ⟨List.Pairwise.nil, by simp [Device.afterPerst]⟩, Nat.zero_le _, by simp [Device.afterPerst], by simp [Device.afterPerst]⟩,
   fun _ => Fuses.Before.refl _⟩

/-- PERST_ASSERT (R439): shorter than 10 us it is ignored; between 10 us and 100 us it is undefined. A tripped device stays
tripped. -/
def execPerstAssert (nanos : Nat) (s : State) : Host.Outcome State Fault Refusal :=
  if 10000 ≤ nanos ∧ nanos < 100000 ∧ s.dev.clk.power ≠ .off ∧ s.dev.clk.power ≠ .tripped then .fault .undefinedPerst
  else s.act (.perstAssert nanos) (.read fun d =>
    .when (100000 ≤ nanos && d.clk.power ≠ .off && d.clk.power ≠ .tripped) .perst)

/-- The slots of the flash in the order in which the ROM tries them (R412): a slot without a valid header last, the higher
gen first, slot A before slot B. -/
def Device.bootOrder (d : Device) : List Nat :=
  match d.imageIn 0, d.imageIn 1 with
  | some a, some b => if a.gen < b.gen then [1, 0] else [0, 1]
  | none, some _ => [1, 0]
  | _, none => [0, 1]

/-- The slots that hold a bootable image, in the ROM's order. -/
def Device.bootSlots (d : Device) : List Nat :=
  d.bootOrder.filter fun k => match d.imageIn k with | some i => d.bootable i | none => false

/-- The state after the power-up sequence of R413 (steps 1 to 5), with the image of a slot running: key slot 0 fresh, memory
zero under it (R218, R462). -/
def Device.afterBoot (d : Device) (slot : Nat) (i : FwImage) : Device :=
  let g := d.mm.nextGen + 1
  { d with
    clk := { d.clk with power := .ready },
    mm := { nextGen := g, keys := [(0, g)], fillGen := g },
    se := { d.se with
      running := some { slot := slot, keySet := i.keySet, svn := i.svn, gen := i.gen, header := i.header, sections := i.sections }, attest := !d.se.debugOpen,
      attestKeys := if d.se.debugOpen then [] else (d.fuses.wrapped.zip [0, 1]).map fun p => Config.unwrapped p.2 p.1,
      upLog := List.replicate 48 0 } }

/-- The power-up sequence with an image. -/
def Upd.boot (slot : Nat) (i : FwImage) : Upd :=
  ⟨fun d => d.afterBoot slot i, fun _ h =>
    ⟨⟨List.Pairwise.nil, by simp [Device.afterBoot]⟩, by simp [Device.afterBoot], h.regs, h.bells,
      Nat.le_refl _, by simp [Device.afterBoot], by simp [Device.afterBoot], List.Pairwise.nil⟩, fun _ => Fuses.Before.refl _⟩

/-- PERST_RELEASE (R412 to R414): the first bootable image runs; the second slot tried sets fw_fallback; with none the device
is in FW_FAIL. A part whose REFCLK is absent does not start (R438). -/
def execPerstRelease (s : State) : Host.Outcome State Fault Refusal :=
  s.act .perstRelease (.read fun d => .when (d.clk.power = .perst && !d.clk.lostRef)
    (match d.bootSlots with
     | [] => .of fun d => { d with clk := { d.clk with power := .fwFail } }
     | k :: _ => .all [
        .boot k ((d.imageIn k).getD {}),
        .when (d.bootOrder.head? ≠ some k) (.raise secPage (oneBit 2)),
        .fuseMaps]))

/-- POWER_OFF (R434): nothing is left but the fuses and the flash. -/
def execPowerOff (s : State) : Host.Outcome State Fault Refusal :=
  s.act .powerOff ⟨fun d => { ({} : Device) with
      clk := { power := .off }, fuses := d.fuses, se := { flash := d.se.flash }, ho := { sent := d.ho.sent }, mm := { nextGen := d.mm.nextGen },
      free := d.free },
    fun _ _ => ⟨⟨List.Pairwise.nil, by simp⟩, by simp, ⟨List.Pairwise.nil, by simp⟩, ⟨List.Pairwise.nil, by simp⟩, Nat.zero_le _, by simp, by simp, List.Pairwise.nil⟩,
    fun _ => Fuses.Before.refl _⟩

/-- POWER_ON (R434): the rails rise with PERST# asserted; the time and the log begin at zero (R331, R377). -/
def execPowerOn (s : State) : Host.Outcome State Fault Refusal :=
  s.act .powerOn (.read fun d => .when (d.clk.power = .off) (.of fun d => { d with clk := { d.clk with power := .perst } }))

end Sys2Proof.Machine
end

