-- ==== Sys2Proof/Machine/RegView.lean ====
section
/-! DEFINITION. What the registers of BAR0 that mirror the device's state show (16_registers.md, and the page tables of the
chapters that R447 names). A register that is not here shows what it stores. -/

namespace Sys2Proof.Machine

/-- A word of fields, each a value and the place of its lowest bit. -/
def pack (l : List (Nat × Nat)) : Word := BitVec.ofNat 32 ((l.map fun p => p.1 * 2 ^ p.2).sum)

/-- Word i of a row of bytes. -/
def wordAt (b : List Byte) (i : Nat) : Word := BitVec.ofNat 32 (fieldAt b (4 * i) 4)

/-! ### Codes of states -/

def SlotState.code : SlotState → Nat
  | .unbound => 0 | .stopped => 1 | .active => 2 | .pausedErr => 3 | .pausedCmpl => 4 | .flushing => 5 | .suspect => 6 | .dead => 7
def CtxState.code : CtxState → Nat
  | .free => 0 | .active => 1 | .killed => 2
def ArrState.code : ArrState → Nat
  | .stopped => 0 | .rampUp => 1 | .running => 2 | .idleHold => 3 | .rampDown => 4
def FnState.code : FnState → Nat
  | .free => 0 | .loading => 1 | .active => 2 | .retiring => 3
def TrcState.code : TrcState → Nat
  | .off => 0 | .capturing => 1 | .done => 2 | .stopped => 3
def GongState.code : GongState → Nat
  | .running => 0 | .stopping => 1 | .stopped => 2 | .resuming => 3
def PortState.code : PortState → Nat
  | .down => 0 | .training => 1 | .up => 2 | .holdRx => 3 | .holdTx => 4 | .failed => 5
def PeerState.code : PeerState → Nat
  | .normal => 0 | .hold => 1 | .lost => 2
def Tdi.code : Tdi → Nat
  | .unlocked => 0 | .locked => 1 | .run => 2 | .error => 3

/-! ### Cells and engines -/

/-- ARR page: STATUS, GEOMETRY, COLMAP. -/
def Device.viewArr (d : Device) (e c off : Nat) : Option Word :=
  let a := d.cell e c
  if off = 0x008 then
    let f := a.frozen
    some (pack [(a.arr.code, 0), (f.1.toNat, 3), (f.2.1.toNat, 8), (f.2.2.1.toNat, 9), (f.2.2.2.toNat, 10)])
  else if off = 0x040 then some (pack [(d.width e c, 0), (d.bypassCount e c, 8), (0x80, 16), (1, 24), (1, 31)])
  else if 0x044 ≤ off ∧ off < 0x054 then some (BitVec.ofNat 32 (bits (d.bypassed e c).toNat (8 * (off - 0x044)) 32))
  else none

/-- SFU pages: the region's STORE, the device's FN_INFO. -/
def Device.viewSfuRegion (d : Device) (r off : Nat) : Option Word :=
  if off = 0x040 then some (setField (d.reg (sfuRegionPage r + 0x40)) 15 0 (d.storeUsed / 64)) else none
def Device.viewSfuDevice (d : Device) (off : Nat) : Option Word :=
  if off = 0x058 then
    let i := fieldOf (d.reg (sfuDevPage + 0x54)) 7 0
    match builtinShape i with
    | some (ins, outs, _, steps) => some (pack [(min (look d.sfu.fns i {}).refs 511, 0), (steps, 9), (ins, 26), (outs, 28), (2, 30)])
    | none =>
      if i < 64 then some (pack [(2, 30)]) else
      let f := look d.sfu.fns i {}
      some (pack [(min f.refs 511, 0), (f.steps.length, 9), (f.inputs, 26), (f.outputs, 28), (f.state.code, 30)])
  else none

/-- ENG.STATUS.waiting: no command runs, and every slot that has one is held. -/
def Device.waiting (d : Device) (e : Nat) : Bool :=
  (d.eng e).run.isNone && (d.pickSlot e).isNone &&
    (List.range 8).any fun s => (d.slot e s).state = .active && (!(d.slot e s).fetched.isEmpty || (d.slot e s).cur.isSome)

/-- ENG page: STATUS, CELLS. -/
def Device.viewEng (d : Device) (e off : Nat) : Option Word :=
  let g := d.eng e
  if off = 0x008 then some (pack [(g.run.getD 0, 0), (g.run.isSome.toNat, 3), (g.pre.getD 0, 4), (g.pre.isSome.toNat, 7),
    ((d.waiting e).toNat, 8), ((decide (g.rst = .replaying)).toNat, 9)])
  else if off = 0x040 then some (pack [(slotBits (d.cellsOf e), 0), ((d.cellsOf e).length, 4), (d.minWidth e, 8)])
  else none

/-- A shadow entry as a function sees it: entries of slots that it does not reach read as zero (R394). -/
def Device.shownShadow (d : Device) (e : Nat) (mine : Nat → Bool) : Shadow :=
  let x := d.shadow e (fieldOf (d.reg (tabPage e + 0x4C)) 5 0)
  if x.valid && mine x.slot then x else {}

/-- TAB.SHADOW_SEL, SHADOW_INFO, SHADOW_LOST and SHADOW_DATA (R272). -/
def Device.viewShadow (d : Device) (e : Nat) (mine : Nat → Bool) (off : Nat) : Option Word :=
  let x := d.shownShadow e mine
  if off = 0x050 then some (pack [(x.index.toNat, 0), (x.slot, 16), (x.rewrite.toNat, 29), (x.lost.toNat, 30), (x.valid.toNat, 31)])
  else if off = 0x054 then
    some (BitVec.ofNat 32 ((List.range 64).filter fun i => (d.shadow e i).lost && mine (d.shadow e i).slot).length)
  else if 0x060 ≤ off ∧ off < 0x080 then some (wordAt x.bytes ((off - 0x060) / 4))
  else none

/-- The registers of a slot, at their offsets from its first (R256, R257). -/
def Device.viewSlot (d : Device) (e s off : Nat) : Option Word :=
  let t := d.slot e s
  match off with
  | 0x0C => some (t.sqHead.zeroExtend 32)
  | 0x10 => some (t.sqTail.zeroExtend 32)
  | 0x20 => some (t.cqHead.zeroExtend 32)
  | 0x24 => some (t.cqTail.zeroExtend 32)
  | 0x2C => some (pack [(t.state.code, 0), (t.pending.toNat, 3), ((!d.cqSpace e s).toNat, 4), (t.reason, 24)])
  | 0x34 => some (BitVec.ofNat 32 t.lastStatus.code)
  | 0x38 => some (BitVec.ofNat 32 t.lastTag)
  | _ => none

/-- TAB page. -/
def Device.viewTab (d : Device) (e off : Nat) : Option Word :=
  if 0x100 ≤ off ∧ off < 0x300 then d.viewSlot e ((off - 0x100) / 0x40) ((off - 0x100) % 0x40)
  else d.viewShadow e (fun _ => true) off

/-- CNT page: STATUS, ARMED, MATCH_THR, MATCH_ACT. -/
def Device.viewCnt (d : Device) (e off : Nat) : Option Word :=
  let armed (i : Nat) : Bool := (look d.ob.armed (e * 64 + i) none).isSome
  let t := look d.ob.thr (e * 64 + d.matchSel e) (0, 0, 0)
  match off with
  | 0x008 => some (pack [((d.ob.selStaged.contains e).toNat, 0)])
  | 0x044 => some (BitVec.ofNat 32 (slotBits ((List.range 32).filter armed)))
  | 0x048 => some (BitVec.ofNat 32 (slotBits ((List.range 32).filter fun i => armed (32 + i))))
  | 0x050 => some t.1
  | 0x054 => some t.2.1
  | 0x058 => some (t.2.2 ||| (if armed (d.matchSel e) then 0x80000000 else 0))
  | _ => none

/-- RST page of a block: STATUS, STRIKES. -/
def Device.viewRst (d : Device) (e off : Nat) : Option Word :=
  let g := d.eng e
  if off = 0x008 then
    some (pack [(if d.resetDue e && g.rst ≠ .failed then 1 else codeOf g.rst, 0), (g.replay.getD 0, 8), (g.replay.isSome.toNat, 11),
      (slotBits g.suspects, 24)])
  else if off = 0x044 then some (BitVec.ofNat 32 (slotBits (d.struck e)))
  else none
where
  /-- RST.STATUS.state of a block. -/
  codeOf : EngState → Nat
    | .running => 0 | .resetting => 1 | .replaying => 2 | .failed => 3

/-! ### Regions -/

/-- XLT block page: STATUS, the streams with a miss outstanding (R224). -/
def Device.viewXltBlock (d : Device) (e off : Nat) : Option Word :=
  if off = 0x008 then
    some (BitVec.ofNat 32 (slotBits ((List.range 8).filter fun s => (d.xl.walks ++ d.xl.misses).any fun x => x.engine = e && x.stream = s)))
  else none

/-- XLT region page: STATUS. -/
def Device.viewXltRegion (d : Device) (r off : Nat) : Option Word :=
  if off = 0x008 then some (BitVec.ofNat 32 (slotBits ((List.range 8).filter fun w => d.xl.walks.any fun x => x.region = r && x.walker = w)))
  else none

/-- The root of a context, at the offsets of ROOT_LO, ROOT_HI and ROOT_CFG (R220). -/
def Device.viewRoot (d : Device) (ctx off : Nat) : Option Word :=
  let r := look d.xl.roots ctx {}
  match off with
  | 0x044 => some r.lo
  | 0x048 => some r.hi
  | 0x04C => some r.cfg
  | _ => none

/-- BEL page: STATUS, and the group that GRP_SEL shows. -/
def Device.viewBel (d : Device) (r off : Nat) : Option Word :=
  match off with
  | 0x008 => some (BitVec.ofNat 32 (d.bl.watches.filter fun w => bellRegion w.bell = r).length)
  | 0x044 => some (look d.bl.groups (r * 512 + fieldOf (d.reg (belPage r + 0x40)) 8 0) 0)
  | _ => none

/-- TRC page: STATUS and the pointers (R341 to R343). -/
def Device.viewTrc (d : Device) (r off : Nat) : Option Word :=
  let t := d.trc r
  match off with
  | 0x008 => some (pack [(t.state.code, 0), (t.triggered.toNat, 2), (t.wrapped.toNat, 3), (t.cfgErr.toNat, 4), (t.dumpDone.toNat, 5)])
  | 0x054 => some (BitVec.ofNat 32 t.wrPtr)
  | 0x058 => some (BitVec.ofNat 32 t.trigIdx)
  | _ => none

/-- FLT page: STATUS (R238). -/
def Device.viewFlt (d : Device) (r off : Nat) : Option Word :=
  if off = 0x008 then some (pack [((bitOf (d.reg (fltPage r + 0x04)) 0).toNat, 0), ((decide (d.ringUsed r ≥ 1024)).toNat, 1),
    (slotBits ((List.range 8).filter fun b => (d.eng (r * 8 + b)).held.isSome), 8)])
  else none

/-- HBC and LPC pages: STATUS, SPARES (R213, R214). -/
def Device.viewCtl (d : Device) (ctl off : Nat) : Option Word :=
  let t := d.ctl ctl
  match off with
  | 0x008 => some (pack [((decide (fieldOf (d.reg (ctlPage ctl + 0x44)) 15 0 ≠ 0)).toNat, 0), (t.sparing.isSome.toNat, 1), (1, 31)])
  | 0x068 => some (pack [(Config.sparesLeft ctl (d.fuses.repairs.filter (·.1 = ctl)) % 65536, 0), (min t.used 65535, 16)])
  | _ => none

/-- NOC page: the links that end at the die (R458). -/
def viewNoc (die off : Nat) : Option Word :=
  if off = 0x008 then some (BitVec.ofNat 32 (slotBits ((List.range 8).filter (linkEnds die)))) else none

/-- The nominal frequency of a clock domain in kHz on a die, as of the last tick (R31, R38, R459): 0 for a domain that the die does
not have, and before the first tick. -/
def Device.freqKhz (d : Device) (die domain : Nat) : Nat :=
  if d.clk.ticks = 0 then 0
  else match domain with
  | 0 => if die < 4 then 1050000 else 0
  | 1 => 1400000
  | 2 => if die < 4 then 1225000 else 0
  | 3 => if die < 4 then 667000 else 0
  | 4 => if die = 6 then 1000000 else 0
  | 5 => if 6 ≤ die && bits d.clk.refs 1 1 = 1 then 1328125 else 0
  | 6 => 1000000
  | _ => if die = 6 then 100000 else 0

/-- CLK page (R459). -/
def Device.viewClk (d : Device) (die off : Nat) : Option Word :=
  match off with
  | 0x044 => some (BitVec.ofNat 32 (d.freqKhz die (fieldOf (d.reg (clkPage die + 0x40)) 2 0)))
  | 0x04C => some (if die < 4 && d.clk.ticks ≠ 0 then
      BitVec.ofNat 32 (Config.gatedPct d.clk.ticks.toNat (die * 8 + fieldOf (d.reg (clkPage die + 0x48)) 2 0) % 101) else 0)
  | 0x050 => some (BitVec.ofNat 32 (if die < 6 then 0 else if die = 6 then d.clk.refs else d.clk.refs / 2 % 2 * 2))
  | _ => none

/-- The block maximum in 0.25 W units (R436). -/
def Device.blockMax (d : Device) (e : Nat) : Nat :=
  if !d.fuses.harvested then 0x0162
  else if (List.range 4).any fun c => d.fuses.disabled.contains (e * 4 + c) then 0x010D else 0x015A

/-- The cap of a block as it was last written (R428). -/
def Device.capWritten (d : Device) (e : Nat) : Nat := ((look d.se.caps e (none, none)).1).getD (d.blockMax e)

/-- The value of a sensor latched at the last tick (R427). -/
def Device.sensor (d : Device) (id : Nat) : Int := look d.se.sensors id 0

/-- PWR page. -/
def Device.viewPwr (d : Device) (r off : Nat) : Option Word :=
  let e := r * 8 + fieldOf (d.reg (pwrPage r + 0x50)) 2 0
  match off with
  | 0x040 => some (BitVec.ofInt 32 (d.sensor (40 + r)) &&& 0x3FF)
  | 0x048 => some (BitVec.ofInt 32 (d.sensor (1 + r)) &&& 0xFFFF)
  | 0x04C => some ((d.reg (pwrPage r + 0x4C) &&& 0xFFFF) ||| (if d.se.throttled.contains r then 0x80000000 else 0))
  | 0x054 => some (BitVec.ofNat 32 (if d.blockOn e then d.capWritten e else 0))
  | 0x058 => some (BitVec.ofInt 32 (d.sensor (45 + e)) &&& 0xFFFF)
  | 0x05C => some (BitVec.ofNat 32 (if d.blockOn e then d.blockMax e else 0))
  | _ => none

/-! ### Ports and the device -/

/-- ZWL port page: CTRL without its action bit, STATUS, PARTNER (R289, R296). -/
def Device.viewPort (d : Device) (p off : Nat) : Option Word :=
  let q := d.port p
  match off with
  | 0x004 => some (d.reg (portPage p + 0x04) &&& 1)
  | 0x008 => some (pack [(q.state.code, 0), (q.lanes.toNat, 8), (q.txPhase.toNat, 16), (q.partnerSwitch.toNat, 17)])
  | 0x040 => some (pack [(if q.partnerSwitch then 0 else q.partner.1, 0), (q.partner.2, 16)])
  | _ => none

/-- ZWL device page: PEER_STATE, ROUTE_MASK, HOLD. -/
def Device.viewZwl (d : Device) (off : Nat) : Option Word :=
  match off with
  | 0x05C => some (BitVec.ofNat 32 (d.peer (fieldOf (d.reg (zwlPage + 0x58)) 12 0)).code)
  | 0x064 => some (look d.lk.routes (fieldOf (d.reg (zwlPage + 0x60)) 12 0) 0)
  | 0x070 => some (BitVec.ofNat 32 d.lk.holdTx.toNat)
  | _ => none

/-- WIN page: the outbound entry that OUT_SEL shows, and the configuration in force of the inbound entry that IN_SEL shows. -/
def Device.viewWin (d : Device) (off : Nat) : Option Word :=
  match off with
  | 0x044 => some (look d.xl.winOut (fieldOf (d.reg (winPage + 0x40)) 9 0) 0)
  | 0x058 => some (look d.xl.winIn (fieldOf (d.reg (winPage + 0x48)) 9 0) (0, 0, 0)).2.2
  | _ => none

/-- The link runs below 32.0 GT/s x16 (R385). -/
def Device.linkSlow (d : Device) : Bool := d.ho.rate < 5 || d.ho.width < 16

/-- The virtual function that PCX.VF_SEL shows, and its map entry that VF_MAP_SEL shows. -/
def Device.vfSel (d : Device) : Nat := fieldOf (d.reg (pcxPage + 0x40)) 6 0
def Device.mapSel (d : Device) : Nat := fieldOf (d.reg (pcxPage + 0x50)) 7 0

/-- PCX page. -/
def Device.viewPcx (d : Device) (off : Nat) : Option Word :=
  let v := d.vf d.vfSel
  match off with
  | 0x008 => some (pack [(d.ho.rate, 0), (d.ho.width, 4), (d.ho.flit.toNat, 10), ((decide (d.ho.rate ≠ 0) && d.linkSlow).toNat, 11)])
  | 0x044 => some (pack [(v.keySlot.getD 0, 0), (v.tdi.code, 28), (d.ho.vfEnable.toNat, 31)])
  | 0x048 => some v.aptLo
  | 0x04C => some v.aptHi
  | 0x054 => some (look d.ho.vfMap (d.vfSel * 256 + d.mapSel) 0)
  | _ => none

/-- CTX.CFG and CTX.STATE of a context (R270). -/
def Device.viewCtx (d : Device) (c off : Nat) : Option Word :=
  let x := d.ctx c
  match off with
  | 0x044 => some (pack [(x.owner, 0), ((decide (x.state ≠ .free)).toNat, 31)])
  | 0x048 => some (pack [(x.state.code, 0), (x.replayable.toNat, 2), ((d.boundSlots c).length, 4)])
  | _ => none

/-- The slot that WGT.SET_SEL shows (R169, R201); nothing from a device reset until the tables are read again (R206). -/
def Device.shownSet (d : Device) : Loaded :=
  let w := d.reg (wgtPage + 0x6C)
  let i := fieldOf w 11 0
  if !d.wt.known then {}
  else if bitOf w 12 then d.adapterSlot i else d.epoch (i % 256) (fieldOf w 13 13)

/-- WGT page. -/
def Device.viewWgt (d : Device) (off : Nat) : Option Word :=
  let h := fieldOf (d.reg (wgtPage + 0x58)) 2 0
  let w := d.reg (wgtPage + 0x6C)
  let hp := look d.wt.heaps h (0, 0, 0)
  match off with
  | 0x008 => some (pack [(d.wgtOn.toNat, 0), ((d.wt.jobs.any fun _ => true).toNat, 1), ((bitOf (d.reg (wgtPage + 0x08)) 2).toNat, 2)])
  | 0x05C => some hp.1
  | 0x060 => some hp.2.1
  | 0x064 => some hp.2.2
  | 0x068 => some (BitVec.ofNat 32 (d.freeExtents h).length)
  | 0x070 =>
    let cur := if bitOf w 12 then 0 else if !d.wt.known then 3 else ((d.wset (fieldOf w 11 0 % 256)).current).getD 3
    some (pack [(min d.shownSet.refs 0xFFFFF, 0), (cur, 26), (d.shownSet.state.code, 28)])
  | 0x074 => some (BitVec.ofNat 32 (if bitOf w 12 then 0 else d.shownSet.epoch))
  | _ => none

/-- KVP page: STATUS, QUAR_COUNT. -/
def Device.viewKvp (d : Device) (r off : Nat) : Option Word :=
  let p := d.pool r
  match off with
  | 0x008 => some (pack [((d.kvOn r).toNat, 0), ((!p.migs.isEmpty).toNat, 1), ((bitOf (d.reg (kvpPage r + 0x08)) 2).toNat, 2)])
  | 0x0A4 => some (BitVec.ofNat 32 p.quar.length)
  | _ => none

/-- DGS page: STATUS (R329): the oldest operation is in progress, the others wait. -/
def Device.viewDgs (d : Device) (off : Nat) : Option Word :=
  if off = 0x008 then some (pack [(min 64 (d.ob.dgs.length - 1), 0), ((!d.ob.dgs.isEmpty).toNat, 8)]) else none

/-- GNG device page. -/
def Device.viewGng (d : Device) (off : Nat) : Option Word :=
  let g := d.ob.gong
  match off with
  | 0x008 => some (BitVec.ofNat 32 g.state.code)
  | 0x04C => some g.cause
  | 0x058 => some (BitVec.ofNat 32 g.extra)
  | 0x070 => some (BitVec.ofNat 32 g.flitsRx)
  | 0x074 => some (BitVec.ofNat 32 g.flitsTx)
  | _ => if 0x060 ≤ off ∧ off < 0x070 then
      some (pack ((List.range 4).map fun j => (look g.skew (off - 0x060 + j) 0, 8 * j)))
    else none

/-- The level of a sensor (R427): 0 normal, 1 warning, 2 critical, 3 fatal; the temperature sensors are 1 to 39. -/
def sensorLevel (id : Nat) (v : Int) : Nat :=
  if id = 0 ∨ 39 < id then 0 else if v ≥ 920 then 3 else if v ≥ 840 then 2 else if v ≥ 760 then 1 else 0

/-- MGT page. -/
def Device.viewMgt (d : Device) (off : Nat) : Option Word :=
  let i := fieldOf (d.reg (mgtPage + 0x48)) 6 0
  match off with
  | 0x008 => some (pack [((d.up && !d.clk.lostMgt).toNat, 0)])
  | 0x04C => some (BitVec.ofInt 32 (d.sensor i))
  | 0x050 => some (BitVec.ofNat 32 (sensorLevel i (d.sensor i)))
  | 0x054 => some (pack [(0x60 + d.clk.smbAddr, 0), (d.se.eid, 8)])
  | _ => none

/-- SEC.STATUS.other_ok: the slot that does not run is bootable (R415). -/
def Device.otherOk (d : Device) : Bool :=
  match d.se.running with
  | some r => match d.imageIn (1 - r.slot) with | some i => d.bootable i | none => false
  | none => false

/-- SEC page. -/
def Device.viewSec (d : Device) (off : Nat) : Option Word :=
  let k := fieldOf (d.inForce (secPage + 0x4C)) 7 0
  let run := d.se.running.getD {}
  match off with
  | 0x008 => some (pack [(d.fuses.svn, 0), (run.slot, 16), (if d.clk.power = .fwFail then 2 else if d.up then 1 else 0, 24),
      (d.otherOk.toNat, 29), (d.se.attest.toNat, 30), (d.se.debugOpen.toNat, 31)])
  | 0x040 => some (pack [(run.svn, 0), (run.keySet, 8)])
  | 0x044 => some (BitVec.ofNat 32 run.gen)
  | 0x054 =>
    let r := look d.se.keyResult k (0, 0)
    some (pack [(r.1, 0), (r.2, 8), ((decide (d.keyGen k ≠ 0)).toNat, 31)])
  | _ => if 0x080 ≤ off ∧ off < 0x0B0 then some (wordAt (d.se.nonce.getD []) ((off - 0x080) / 4)) else none

/-- RST device page. -/
def Device.viewRstDevice (d : Device) (off : Nat) : Option Word :=
  let sel := d.reg (rstDevPage + 0x50)
  let entry := if bitOf sel 8 then d.fl.ovf else look d.fl.log (fieldOf sel 7 0) []
  let busy (lo : Nat) : Nat := slotBits ((List.range 32).filter fun i => (d.vf (lo + i)).flrBusy)
  match off with
  | 0x008 => some (pack [(if d.up then 0 else if d.clk.power = .held then 2 else 1, 0), (d.up.toNat, 31)])
  | 0x058 => some (BitVec.ofNat 32 (busy 1))
  | 0x05C => some (BitVec.ofNat 32 (busy 33))
  | _ => if 0x080 ≤ off ∧ off < 0x0C0 then some (wordAt entry ((off - 0x080) / 4)) else none

/-! ### All pages -/

/-- The engine, cell and controller of a page. -/
def Page.engine (p : Page) : Nat := p.region * 8 + p.block
def Page.controller (p : Page) : Nat := (if p.kind = .hbc then 0 else 16) + p.region * 4 + p.cell
def Page.port (p : Page) : Nat := p.cell + (if p.region = 7 then 9 else 0)

/-- Where the page begins. -/
def Page.base (p : Page) : Nat :=
  match p.kind with
  | .cel => celPage p.engine p.cell | .arr => arrPage p.engine p.cell | .vec => vecPage p.engine p.cell
  | .sfuCell => sfuPage p.engine p.cell | .exp => expPage p.engine p.cell | .eng => engPage p.engine | .tab => tabPage p.engine
  | .snr => snrPage p.engine | .dma => dmaPage p.engine | .xltBlock => xltPage p.engine | .cnt => cntPage p.engine
  | .rstBlock => rstPage p.engine | .hbc | .lpc => ctlPage p.controller | .sfuRegion => sfuRegionPage p.region
  | .xltRegion => xltRegionPage p.region | .flt => fltPage p.region | .bel => belPage p.region | .trc => trcPage p.region
  | .gngRegion => gngRegionPage p.region | .kvp => kvpPage p.region | .pwr => pwrPage p.region | .clk => clkPage p.region
  | .noc => nocPage p.region | .dgs => dgsPage | .gngDevice => gngPage | .rstDevice => rstDevPage | .pcx => pcxPage
  | .sec => secPage | .mgt => mgtPage | .zwlDevice => zwlPage | .win => winPage | .tim => timPage | .zwlPort => portPage p.port
  | .sfuDevice => sfuDevPage | .xltDevice => xltDevPage | .ctx => ctxPage | .wgt => wgtPage

/-- The instance field of ID (R450). -/
def Page.instanceId (p : Page) : Nat :=
  match p.kind with
  | .hbc | .lpc => 0x48 + p.cell
  | .zwlPort => 0x60 + p.port
  | _ => if p.region = 6 then 0x7E else if p.region = 7 then 0x7F else if p.region = 15 then 0xF0
    else if p.block = 15 then 0x40 else if p.cell = 15 then 0x20 + p.block else p.block * 4 + p.cell

/-- The ID register (R449). -/
def Page.id (p : Page) : Word := pack [(1, 0), (p.instanceId, 8), (p.kind.code, 16)]

/-- What a register shows that mirrors the state; none for one that shows what it stores. -/
def Device.view (d : Device) (p : Page) (off : Nat) : Option Word :=
  match p.kind with
  | .arr => d.viewArr p.engine p.cell off
  | .sfuRegion => d.viewSfuRegion p.region off
  | .sfuDevice => d.viewSfuDevice off
  | .eng => d.viewEng p.engine off
  | .tab => d.viewTab p.engine off
  | .cnt => d.viewCnt p.engine off
  | .rstBlock => d.viewRst p.engine off
  | .xltBlock => d.viewXltBlock p.engine off
  | .xltRegion => d.viewXltRegion p.region off
  | .xltDevice => d.viewRoot (fieldOf (d.reg (xltDevPage + 0x40)) 7 0) off
  | .bel => d.viewBel p.region off
  | .trc => d.viewTrc p.region off
  | .flt => d.viewFlt p.region off
  | .hbc | .lpc => d.viewCtl p.controller off
  | .noc => viewNoc p.region off
  | .clk => d.viewClk p.region off
  | .pwr => d.viewPwr p.region off
  | .zwlPort => d.viewPort p.port off
  | .zwlDevice => d.viewZwl off
  | .win => d.viewWin off
  | .pcx => d.viewPcx off
  | .ctx => d.viewCtx (fieldOf (d.reg (ctxPage + 0x40)) 7 0) off
  | .wgt => d.viewWgt off
  | .kvp => d.viewKvp p.region off
  | .dgs => d.viewDgs off
  | .gngDevice => d.viewGng off
  | .mgt => d.viewMgt off
  | .sec => d.viewSec off
  | .rstDevice => d.viewRstDevice off
  | .cel | .vec | .sfuCell | .exp | .snr | .dma | .gngRegion | .tim => none

/-- The places of a page's 64-bit counters: the offset of the first and their number (the counter tables of the pages). -/
def counterRange : PageKind → Nat × Nat
  | .arr => (0x060, 8) | .vec => (0x060, 4) | .sfuCell => (0x060, 3) | .exp => (0x060, 5) | .eng => (0x060, 5) | .tab => (0x080, 4)
  | .snr => (0x060, 3) | .dma => (0x060, 5) | .xltBlock => (0x060, 4) | .xltRegion => (0x060, 3) | .xltDevice => (0x080, 3)
  | .bel => (0x080, 4) | .hbc => (0x080, 4) | .lpc => (0x080, 4) | .noc => (0x060, 10) | .pwr => (0x080, 3) | .zwlPort => (0x060, 2)
  | .zwlDevice => (0x080, 4) | .win => (0x060, 3) | .pcx => (0x080, 4) | .wgt => (0x080, 4) | .kvp => (0x0C0, 6) | .dgs => (0x060, 4)
  | .gngDevice => (0x080, 2) | .rstBlock => (0x060, 4)
  | .cel | .sfuRegion | .sfuDevice | .cnt | .trc | .flt | .clk | .ctx | .gngRegion | .mgt | .sec | .rstDevice | .tim => (0, 0)

/-- The 64-bit quantity whose LO register lies at the offset (R456): a counter, a time, a selected counter of CNT. The bell of
BEL.VALUE is read by its store. -/
def Device.quantity (d : Device) (p : Page) (off : Nat) : Option Word64 :=
  let (first, n) := counterRange p.kind
  if n ≠ 0 ∧ first ≤ off ∧ off < first + 8 * n ∧ off % 8 = 0 then some (d.ctr (p.base + off))
  else match p.kind, off with
  | .tim, 0x040 => some d.clk.time
  | .mgt, 0x040 => some d.clk.ticks
  | .gngDevice, 0x050 => some d.ob.gong.raisedAt
  | .gngRegion, 0x040 => some (look d.ob.gong.cuts p.region 0)
  | .cnt, _ => if 0x200 ≤ off ∧ off < 0x400 ∧ off % 8 = 0 then some (d.counter p.engine ((off - 0x200) / 8)) else none
  | _, _ => none

/-- The offset is that of the HI register of a 64-bit quantity. -/
def isHigh (k : PageKind) (off : Nat) : Bool :=
  let (first, n) := counterRange k
  (n ≠ 0 && first ≤ off && off < first + 8 * n && off % 8 = 4) ||
    match k, off with
    | .tim, 0x044 | .mgt, 0x044 | .gngDevice, 0x054 | .gngRegion, 0x044 | .bel, 0x050 => true
    | .cnt, _ => 0x200 ≤ off && off < 0x400 && off % 8 = 4
    | _, _ => false

/-- STATUS of a unit that it samples at work, which depends on timing: the value that a number names (log 66). -/
def sampled : PageKind → Option (Nat → Nat)
  | .vec => some fun n => n % 7
  | .exp => some fun n => n % 3 + n / 3 % 2 * 4
  | .snr => some fun n => n % 33
  | .dma => some fun n => n % 4
  | _ => none

/-- The part of such a STATUS that the state holds: VEC.STATUS.stage_full (R123). -/
def Device.steady (d : Device) (p : Page) : Nat :=
  match p.kind with
  | .vec => (decide ((d.cell p.engine p.cell).buffers.length ≥ 2)).toNat * 8
  | _ => 0

/-- The page is there: its cell is enabled, its block has an enabled cell (R2, R18, R446). -/
def Device.pagePresent (d : Device) (p : Page) : Bool :=
  if p.region < 4 && p.block < 8 then (if p.cell < 4 then d.cellOn p.engine p.cell else d.blockOn p.engine) else true

/-- The pages that stay accessible during a device reset and in FW_FAIL (R376, R414). -/
def staysOpen (k : PageKind) : Bool :=
  match k with
  | .rstDevice | .mgt | .sec | .pcx => true
  | _ => false

end Sys2Proof.Machine
end

