-- ==== Sys2Proof/Machine/RegAccess.lean ====
section
/-! DEFINITION. What a read and a write of one register do, page by page (16_registers.md, R391, R394, R446 to R460): first the
pages as the physical function reaches them, then the pages of a virtual function. -/

namespace Sys2Proof.Machine

/-! ### Reads -/

/-- The key of the holding register of a LO/HI pair, by the BAR0 offset of its HI register: each function has its own (R456). -/
def holdKey (fn hi : Nat) : Nat := fn * 2 ^ 28 + hi

/-- A LO register is read: it shows bits 31:0, and bits 63:32 are latched for the function (R456). -/
def Upd.readLow (fn hi : Nat) (v : Word64) (k : Word → Upd) : Upd :=
  .all [
    .of fun d => { d with rf := { d.rf with hold := put d.rf.hold (holdKey fn hi) (BitVec.ofNat 32 (v.toNat / 2 ^ 32)) 0 } },
    k (BitVec.ofNat 32 v.toNat)]

/-- BEL.VALUE_LO of a bell is read by its store (R282, R287); an uncorrectable counter shows a free value (log 2). -/
def Upd.readBell (fn hi b : Nat) (k : Word → Upd) : Upd :=
  .read fun d =>
    if d.bl.damaged.any fun p => p.1 = b && p.2 = .uncorrectable then
      .all [.bellAccess b .skip, .draw fun n => .readLow fn hi (Config.freshWord n) k]
    else .bellAccess b (.read fun d => .readLow fn hi (d.bell b) k)

/-- What a register stores, or zero where the page has none (R446). -/
def Device.stored (d : Device) (p : Page) (off : Nat) : Word := if (rowOf p.kind off).isSome then d.reg (p.base + off) else 0

/-- STATUS of a unit that samples itself: zero when its engine runs nothing, else a free value of its range (log 66). -/
def Upd.readSampled (e : Nat) (busy : Bool) (f : Nat → Nat) (k : Word → Upd) : Upd :=
  .read fun d => if busy && (d.eng e).run.isSome then .draw fun n => k (BitVec.ofNat 32 (f (Config.freshWord n).toNat)) else k 0

/-- A register of a page is read by a function (R391, R446, R456). -/
def Upd.readPage (fn : Nat) (p : Page) (off : Nat) (k : Word → Upd) : Upd :=
  .read fun d =>
    let a := p.base + off
    if off = 0x000 then k p.id
    else if off = 0x014 then k 0
    else if off = 0x00C ∨ off = 0x010 ∨ off = 0x018 ∨ off = 0x01C then k (if p.errBits.1 = 0 then 0 else d.reg a)
    else if isHigh p.kind off then k (look d.rf.hold (holdKey fn a) 0)
    else if p.kind = .bel ∧ off = 0x04C then
      .readBell fn (a + 4) (p.region * 32768 + fieldOf (d.reg (belPage p.region + 0x48)) 14 0) k
    else if p.kind = .trc ∧ 0x068 ≤ off ∧ off < 0x088 then
      .traceEntry p.region (fieldOf (d.reg (trcPage p.region + 0x64)) 17 0) fun b => k (wordAt b ((off - 0x068) / 4))
    else match d.quantity p off with
    | some v => .readLow fn (a + 4) v k
    | none => match (if off = 0x008 then sampled p.kind else none) with
      | some f => .readSampled p.engine true f fun w => k (w ||| BitVec.ofNat 32 (d.steady p))
      | none => k ((d.view p off).getD (d.stored p off))

/-! ### Writes of the common header -/

/-- A write that clears bits of a register: on a management page it waits for the tick (R38; log 105), elsewhere it acts at once. -/
def Upd.clears (k : PageKind) (addr : Nat) (bits : Word) (u : Upd) : Upd :=
  if isManagement k then .of fun d => { d with rf := { d.rf with clrNext := put d.rf.clrNext addr (look d.rf.clrNext addr 0 ||| bits) 0 } } else u

/-- ERR_STATUS: the bits written 1 clear, and ERR_FIRST with the last of them (R448, R451). -/
def Upd.errClear (page : Nat) (data : Word) : Upd :=
  .read fun d =>
    let w := d.reg (page + 0x0C) &&& ~~~data
    .all [.setReg (page + 0x0C) w, .when (w = 0) (.setReg (page + 0x18) 0)]

/-- The clearing writes of the management pages take effect (R38). -/
def Upd.applyClears : Upd :=
  .read fun d => .all [
    .of fun d => { d with rf := { d.rf with clrNext := [] } },
    .each d.rf.clrNext fun p => if p.1 % 4096 = 0x0C then .errClear (p.1 - 0x0C) p.2 else .modReg p.1 (· &&& ~~~p.2)]

/-- An interface enters ERROR: it is quiesced, and error bit 4 of the PCX page is raised (R400, R401). -/
def Upd.tdiError (fn : Nat) (injected : Bool := false) : Upd :=
  .all [
    .of fun d => { d with ho := { d.ho with vfs := put d.ho.vfs fn { d.vf fn with tdi := .error } {} } },
    .error pcxPage 4 (deviceRec 0x0413 6 (detailN 4)) false injected,
    .quiesce fn]

/-- The interface of a virtual function is CONFIG_LOCKED or RUN (R400). -/
def Device.locked (d : Device) (fn : Nat) : Bool := (d.vf fn).tdi = .locked || (d.vf fn).tdi = .run

/-- ERR_INJECT: the bits of access WO arm one injection each (R361). Those whose event is there at once take effect: the gong is
raised, the selected peer is lost, the selected function's interface is in ERROR if it is locked, the watchdog expires. -/
def Upd.arm (p : Page) (data : Word) : Upd :=
  .read fun d =>
    let bits := data &&& p.errBits.2.1
    let armAll (w : Word) : Upd := .of fun d => { d with rf := { d.rf with armed := put d.rf.armed p.base (look d.rf.armed p.base 0 ||| w) 0 } }
    match p.kind with
    | .gngDevice => .when (bitOf bits 0) (.all [armAll (oneBit 0), .fire p.base 0, .gongRaise (2 ^ 24)])
    | .zwlDevice => .when (bitOf bits 6) (.all [armAll (oneBit 6), .fire p.base 6, .losePeer (fieldOf (d.reg (zwlPage + 0x58)) 12 0) true])
    | .pcx => .all [armAll (bits &&& 0x2F),
        .when (bitOf bits 4 && d.locked d.vfSel) (.all [armAll (oneBit 4), .fire p.base 4, .tdiError d.vfSel true])]
    | .eng => .all [armAll bits, .when (bitOf bits 2) (.watchdog p.engine)]
    | _ => armAll bits

/-! ### Writes of a page's own registers -/

/-- The write of a plain register, field by field: bits of access RW and RWS take the value, others keep theirs, and a saturating
count returns to zero (R454). An offset without a register discards it (R446). -/
def Upd.storeWord (p : Page) (off : Nat) (data : Word) : Upd :=
  match rowOf p.kind off with
  | none => .skip
  | some r =>
    if r.clears then .clears p.kind (p.base + off) r.mask (.modReg (p.base + off) (· &&& ~~~r.mask))
    else .modReg (p.base + off) fun w => data &&& r.mask ||| (w &&& ~~~r.mask)

/-- A register with a valid bit: a write of 0 to it clears the register with its companions, another write is plain. -/
def Upd.storeValid (p : Page) (off : Nat) (others : List Nat) (data : Word) : Upd :=
  if bitOf data 31 then .storeWord p off data else .each (off :: others) fun o => .setReg (p.base + o) 0

/-- A register that is writable only while a condition holds (R454). -/
def Upd.storeWhen (c : Bool) (p : Page) (off : Nat) (data : Word) : Upd := .when c (.storeWord p off data)

/-- A register of a queue slot, at its offset from the slot's first: the rings are writable while the slot is UNBOUND (R256,
R257). -/
def Upd.writeSlot (fn e s off : Nat) (data : Word) : Upd :=
  .read fun d =>
    let p : Page := ⟨.tab, e / 8, e % 8, 15⟩
    let a := 0x100 + 0x40 * s + off
    match off with
    | 0x20 => .slot e s fun t => { t with cqHead := BitVec.ofNat 16 (fieldOf data 15 0) }
    | 0x28 => .slotCtrl fn e s (fieldOf data 2 0)
    | 0x30 => .storeWord p a data
    | _ => .storeWhen ((d.slot e s).state == .unbound) p a data

/-- TAB page. -/
def Upd.writeTab (p : Page) (off : Nat) (data : Word) : Upd :=
  if off = 0x040 then .doorbell 0 p.engine (fieldOf data 18 16) (fieldOf data 15 0)
  else if off = 0x04C then .shadowAck 0 p.engine data
  else if 0x100 ≤ off ∧ off < 0x300 then .writeSlot 0 p.engine ((off - 0x100) / 0x40) ((off - 0x100) % 0x40) data
  else .storeWord p off data

/-- A context's root takes a word, at the offsets of ROOT_LO, ROOT_HI and ROOT_CFG (R220). -/
def Upd.rootWord (ctx off : Nat) (data : Word) : Upd :=
  .of fun d =>
    let r := look d.xl.roots ctx {}
    let r' : Root := match off with
      | 0x044 => { r with lo := data }
      | 0x048 => { r with hi := data &&& 0xFFF }
      | _ => { r with cfg := data &&& 0x8000003F }
    { d with xl := { d.xl with roots := put d.xl.roots ctx r' {} } }

/-- XLT device page. -/
def Upd.writeXlt (p : Page) (off : Nat) (data : Word) : Upd :=
  .read fun d =>
    if off = 0x044 ∨ off = 0x048 ∨ off = 0x04C then .rootWord (fieldOf (d.reg (xltDevPage + 0x40)) 7 0) off data
    else if off = 0x060 then match d.invalTarget 0 with | some c => .invalCmd 0 c data | none => .skip
    else .storeWord p off data

/-- BEL page. -/
def Upd.writeBel (p : Page) (off : Nat) (data : Word) : Upd :=
  .read fun d =>
    let g := p.region * 512 + fieldOf (d.reg (p.base + 0x40)) 8 0
    match off with
    | 0x004 => .clrCounters p.base 0x80 0x9F data
    | 0x044 => .of fun d => { d with bl := { d.bl with groups := put d.bl.groups g (data &&& 0xE0FF1FFF) 0 } }
    | 0x05C => .bellOp 0 p.region (fieldOf data 1 0)
    | 0x068 => .when (bitOf data 0) (.bellRestore p.region)
    | 0x070 => .storeValid p off [] data
    | _ => .storeWord p off data

/-- CNT page: a selection is staged (R336), a threshold is held until it is armed (R338). -/
def Upd.writeCnt (p : Page) (off : Nat) (data : Word) : Upd :=
  .read fun d =>
    let e := p.engine
    let i := e * 64 + d.matchSel e
    let t := look d.ob.thr i (0, 0, 0)
    let thr (v : Word × Word × Word) : Upd := .of fun d => { d with ob := { d.ob with thr := put d.ob.thr i v (0, 0, 0) } }
    if off = 0x004 then .cntClear e data
    else if off = 0x050 then thr (data, t.2)
    else if off = 0x054 then thr (t.1, data, t.2.2)
    else if off = 0x058 then .matchAct e data
    else if 0x100 ≤ off ∧ off < 0x200 then
      .all [.storeWord p off data,
        .of fun d => { d with ob := { d.ob with selStaged := if d.ob.selStaged.contains e then d.ob.selStaged else d.ob.selStaged ++ [e] } }]
    else .storeWord p off data

/-- TRC page. -/
def Upd.writeTrc (p : Page) (off : Nat) (data : Word) : Upd :=
  match off with
  | 0x004 => .trcCtrl p.region data
  | 0x048 => .when (bitOf data 0) (.trigger p.region 1 10)
  | 0x090 => .trcDump p.region data
  | _ => .storeWord p off data

/-- FLT page: the ring's base is writable while the ring is not in use (R237). -/
def Upd.writeFlt (p : Page) (off : Nat) (data : Word) : Upd :=
  .read fun d =>
    match off with
    | 0x004 => .fltCtrl p.region data
    | 0x040 | 0x044 => .storeWhen (!bitOf (d.reg (p.base + 0x04)) 0) p off data
    | 0x04C => .fltTail p.region data
    | _ => .storeWord p off data

/-- PWR page: BLK_CAP of the block that BLK_SEL shows waits for the next tick (R38, R428). -/
def Upd.writePwr (p : Page) (off : Nat) (data : Word) : Upd :=
  .read fun d =>
    let e := p.region * 8 + fieldOf (d.reg (p.base + 0x50)) 2 0
    if off = 0x054 then
      .when (d.blockOn e) (.of fun d =>
        { d with se := { d.se with caps := put d.se.caps e (some (fieldOf data 15 0), (look d.se.caps e (none, none)).2) (none, none) } })
    else .storeWord p off data

/-- Every port is disabled, by the controls in force. -/
def Device.portsOff (d : Device) : Bool := (List.range 18).all fun p => !bitOf (d.inForce (portPage p + 0x04)) 0

/-- ZWL device page. -/
def Upd.writeZwl (p : Page) (off : Nat) (data : Word) : Upd :=
  .read fun d =>
    match off with
    | 0x040 | 0x04C | 0x050 => .storeWhen d.portsOff p off data
    | 0x05C => .peerClear data
    | 0x064 =>
      let dev := fieldOf (d.reg (zwlPage + 0x60)) 12 0
      .of fun d => { d with lk := { d.lk with routes := put d.lk.routes dev (data &&& 0x3FFFF) 0 } }
    | 0x06C => .releaseLinks data
    | _ => .storeWord p off data

/-- WIN page: IN_SEL shows the selected inbound entry in the staging registers, and IN_CFG applies them (R233, R235). -/
def Upd.writeWin (p : Page) (off : Nat) (data : Word) : Upd :=
  .read fun d =>
    let out := fieldOf (d.reg (winPage + 0x40)) 9 0
    match off with
    | 0x044 => .all [.windowGood out, .of fun d => { d with xl := { d.xl with winOut := put d.xl.winOut out (data &&& 0xBFF01FFF) 0 } }]
    | 0x048 =>
      let w := look d.xl.winIn (fieldOf data 9 0) (0, 0, 0)
      .all [.storeWord p off data, .setPair (winPage + 0x4C) w.1, .setReg (winPage + 0x54) (BitVec.ofNat 32 w.2.1)]
    | 0x058 => .inCfg data
    | 0x05C => .storeValid p off [] data
    | _ => .storeWord p off data

/-- A virtual function takes a function of itself. -/
def Upd.vf (fn : Nat) (f : Vf → Vf) : Upd := .of fun d => { d with ho := { d.ho with vfs := put d.ho.vfs fn (f (d.vf fn)) {} } }

/-- A write of PCX.VF_MAP for the function that VF_SEL shows and the entry that VF_MAP_SEL shows (R396). -/
def Upd.mapEntry (data : Word) : Upd :=
  .read fun d => .when (1 ≤ d.vfSel && d.vfSel ≤ 64 && 1 ≤ d.mapSel)
    (.of fun d => { d with ho := { d.ho with vfMap := put d.ho.vfMap (d.vfSel * 256 + d.mapSel) (data &&& 0xB000FFFF) 0 } })

/-- PCX page. -/
def Upd.writePcx (p : Page) (off : Nat) (data : Word) : Upd :=
  .read fun d =>
    let mine : Bool := 1 ≤ d.vfSel && d.vfSel ≤ 64
    match off with
    | 0x048 => .when mine (.vf d.vfSel fun v => { v with aptLo := data })
    | 0x04C => .when mine (.vf d.vfSel fun v => { v with aptHi := data &&& 0xFFF })
    | 0x054 => .mapEntry data
    | _ => .storeWord p off data

/-- CTX page. -/
def Upd.writeCtx (p : Page) (off : Nat) (data : Word) : Upd :=
  .read fun d =>
    let c := fieldOf (d.reg (ctxPage + 0x40)) 7 0
    match off with
    | 0x044 => .ctxCfg 0 c data
    | 0x04C => .ctxKill 0 c data
    | _ => .storeWord p off data

/-- WGT page: the tables and the heaps are writable while weight commands are off. -/
def Upd.writeWgt (p : Page) (off : Nat) (data : Word) : Upd :=
  .read fun d =>
    let h := fieldOf (d.reg (wgtPage + 0x58)) 2 0
    let x := look d.wt.heaps h (0, 0, 0)
    let heap (v : Word × Word × Word) : Upd :=
      .when (!d.wgtOn) (.of fun d => { d with wt := { d.wt with heaps := put d.wt.heaps h v (0, 0, 0) } })
    match off with
    | 0x004 => .wgtCtrl data
    | 0x040 | 0x044 | 0x048 | 0x04C => .storeWhen (!d.wgtOn) p off data
    | 0x05C => heap (data, x.2)
    | 0x060 => heap (x.1, data &&& 0xFFF, x.2.2)
    | 0x064 => heap (x.1, x.2.1, data &&& 0xFFFFFF)
    | _ => .storeWord p off data

/-- KVP page: the census, the frames and the rings are writable while the pool is off. A nonzero decay_period begins an interval
at once when none runs (R142). -/
def Upd.writeKvp (p : Page) (off : Nat) (data : Word) : Upd :=
  .read fun d =>
    let r := p.region
    if off = 0x004 then .kvCtrl r data
    else if 0x040 ≤ off ∧ off ≤ 0x08C then .storeWhen (!d.kvOn r) p off data
    else if off = 0x094 then
      .all [.storeWord p off data, .when (d.kvOn r && (d.pool r).period = 0) (.pool r fun x => { x with period := fieldOf data 23 8 })]
    else .storeWord p off data

/-- A write of SEC.SVN_COMMIT waits for the next tick (R415). -/
def Upd.svnCommit (data : Word) : Upd := .when (bitOf data 0) (.of fun d => { d with se := { d.se with svnDue := true } })

/-- A page's own register is written by the physical function. -/
def Upd.writeOwn (p : Page) (off : Nat) (data : Word) : Upd :=
  .read fun d =>
    match p.kind with
    | .cel => if off = 0x048 then .storeValid p off [] data else .storeWord p off data
    | .arr => if off = 0x004 then .clrCounters p.base 0x60 0x97 data else .storeWord p off data
    | .vec => if off = 0x004 then .clrCounters p.base 0x60 0x7F data else .storeWord p off data
    | .sfuCell => if off = 0x004 then .clrCounters p.base 0x60 0x77 data else .storeWord p off data
    | .exp => if off = 0x004 then .clrCounters p.base 0x60 0x87 data else if off = 0x044 then .storeValid p off [0x048] data
        else .storeWord p off data
    | .eng => if off = 0x004 then .clrCounters p.base 0x60 0x87 data else .storeWord p off data
    | .noc => if off = 0x004 then .clrCounters p.base 0x60 0xAF data else .storeWord p off data
    | .dgs => if off = 0x004 then .dgsCtrl data else if off = 0x040 ∨ off = 0x044 then .storeWhen (!bitOf (d.reg (dgsPage + 0x04)) 0) p off data
        else .storeWord p off data
    | .dma => if off = 0x048 then .storeValid p off [0x040, 0x044] data else .storeWord p off data
    | .xltBlock => if off = 0x048 then .storeValid p off [0x040, 0x044] data else if off = 0x04C then .xltFlush p.engine data
        else .storeWord p off data
    | .hbc | .lpc => if off = 0x004 then .spareReq p.controller data else if off = 0x058 then .storeValid p off [0x054] data
        else .storeWord p off data
    | .zwlPort => if off = 0x004 then .portWrite p.port data else .storeWord p off data
    | .gngDevice => if off = 0x040 then .gngRaise data else if off = 0x044 then .gngResume data else .storeWord p off data
    | .sec => if off = 0x048 then .svnCommit data else .storeWord p off data
    | .rstBlock => if off = 0x004 then .resetReq p.engine data else .storeWord p off data
    | .rstDevice => if off = 0x004 then .devReset data else if off = 0x04C then .logTail data else .storeWord p off data
    | .tab => .writeTab p off data
    | .xltDevice => .writeXlt p off data
    | .bel => .writeBel p off data
    | .cnt => .writeCnt p off data
    | .trc => .writeTrc p off data
    | .flt => .writeFlt p off data
    | .pwr => .writePwr p off data
    | .zwlDevice => .writeZwl p off data
    | .win => .writeWin p off data
    | .pcx => .writePcx p off data
    | .ctx => .writeCtx p off data
    | .wgt => .writeWgt p off data
    | .kvp => .writeKvp p off data
    | .sfuRegion | .sfuDevice | .snr | .xltRegion | .clk | .gngRegion | .mgt | .tim => .storeWord p off data

/-- A register of a page is written by the physical function: the header of R448, or a register of the page's own. -/
def Upd.writePage (p : Page) (off : Nat) (data : Word) : Upd :=
  match off with
  | 0x00C => .clears p.kind (p.base + 0x0C) data (.errClear p.base data)
  | 0x010 => .setReg (p.base + 0x10) (data &&& p.errBits.1)
  | 0x014 => if isManagement p.kind then .of fun d => { d with rf := { d.rf with injNext := put d.rf.injNext p.base (data &&& p.errBits.2.1) 0 } }
    else .arm p data
  | 0x01C => .clears p.kind (p.base + 0x1C) 0xFFFFFFFF (.setReg (p.base + 0x1C) 0)
  | _ => .writeOwn p off data

/-! ### Locked interfaces (R400) -/

/-- What the configuration of a virtual function's interface is: its map entries, aperture and key slot, the owner and root of
the given contexts, the configuration of the given bell groups. -/
def Device.tdiConfig (d : Device) (fn : Nat) (ctxs groups : List Nat) :
    Sparse Word × Word × Word × Option Nat × List (Nat × Root) × List Word :=
  (d.ho.vfMap.filter fun p => p.1 / 256 = fn, (d.vf fn).aptLo, (d.vf fn).aptHi, (d.vf fn).keySlot,
    ctxs.map fun c => ((d.ctx c).owner, look d.xl.roots c {}), groups.map fun g => look d.bl.groups g 0)

/-- The contexts of a function, and the bell groups of those contexts. -/
def Device.ctxsOf (d : Device) (fn : Nat) : List Nat := (d.q.ctxs.filter fun p => p.2.owner = fn).map (·.1)
def Device.groupsOf (d : Device) (fn : Nat) : List Nat :=
  (d.bl.groups.filter fun p => bitOf p.2 31 && (d.ctxsOf fn).contains (fieldOf p.2 23 16)).map (·.1)

/-- An update changes the configuration of a function's interface. -/
def Device.reconfigures (d : Device) (fn : Nat) (u : Upd) : Bool :=
  (u.run d).tdiConfig fn (d.ctxsOf fn) (d.groupsOf fn) != d.tdiConfig fn (d.ctxsOf fn) (d.groupsOf fn)

/-- A write of the physical function that would change the configuration of a locked interface is discarded, and the interface
enters ERROR (R400). -/
def Upd.guarded (u : Upd) : Upd :=
  .read fun d =>
    match (span 1 64).find? fun fn => d.locked fn && d.reconfigures fn u with
    | some fn => .tdiError fn
    | none => u

/-- The pages whose writes can change the configuration of an interface. -/
def reconfigures (k : PageKind) : Bool :=
  match k with
  | .pcx | .ctx | .xltDevice | .bel => true
  | _ => false

/-! ### The physical function's BAR0 (R391, R446) -/

/-- A request of BAR0 is a single aligned word (R391). -/
def oneWord (addr len : Nat) : Bool := addr % 4 = 0 && len = 4

/-- A word of BAR0 is read: the request and its answer cross between IO die A and the page's die (R23). -/
def Upd.readBar0 (addr len : Nat) (k : Word → Upd) (refuse : Upd) : Upd :=
  .read fun d =>
    if !oneWord addr len then .all [.pcxError 0, refuse]
    else match decodeAddr addr with
    | none => k 0
    | some (p, off) =>
      if !d.up && !staysOpen p.kind then k 0xFFFFFFFF
      else if !d.pagePresent p then k 0
      else .cross 6 p.die (.readPage 0 p off fun w => .cross p.die 6 (k w))

/-- A word of BAR0 is written: the write crosses to the page's die (R23). -/
def Upd.writeBar0 (addr : Nat) (data : Word) (len : Nat := 4) : Upd :=
  .read fun d =>
    if !oneWord addr len then .pcxError 0
    else match decodeAddr addr with
    | none => .skip
    | some (p, off) =>
      let u := Upd.writePage p off data
      .when ((d.up || staysOpen p.kind) && d.pagePresent p) (.cross 6 p.die (if reconfigures p.kind then .guarded u else u))

/-! ### A virtual function's BAR0 (R393, R394, R460) -/

/-- The VF information page (R460). -/
def Device.vfInfo (d : Device) (fn off : Nat) : Word :=
  let v := d.vf fn
  match off with
  | 0x000 => 0x0016FF01
  | 0x040 => BitVec.ofNat 32 fn
  | 0x044 => pack [(v.keySlot.getD 0, 0), (v.keySlot.isSome.toNat, 31)]
  | 0x048 => BitVec.ofNat 32 v.tdi.code
  | 0x04C => BitVec.ofNat 32 d.ho.vfBar2Log2
  | _ => if 0x104 ≤ off ∧ off < 0x500 then look d.ho.vfMap (fn * 256 + (off - 0x100) / 4) 0 else 0

/-- The ID of a page presented to a virtual function (R394, R450). -/
def vfId (k : PageKind) : Word := pack [(1, 0), (0xFF, 8), (k.code, 16)]

/-- A slot entry: the shadow ring's entries of the slot, and the slot's registers. Where the block has no enabled cell, all but ID
reads zero as the block's pages do (R2, R446); the spec gives the entry's ID the page type (R394) and does not say what it reads
there, and the model answers the page type (DESIGN CHOICE, log 140). -/
def Upd.readSlotPage (e s off : Nat) (k : Word → Upd) : Upd :=
  .read fun d =>
    let p : Page := ⟨.tab, e / 8, e % 8, 15⟩
    if off = 0x000 then k (vfId .tab)
    else if !d.blockOn e then k 0
    else if off = 0x04C then k (d.stored p off)
    else if 0x050 ≤ off ∧ off < 0x080 then k ((d.viewShadow e (· = s) off).getD 0)
    else if 0x100 ≤ off ∧ off < 0x140 then k ((d.viewSlot e s (off - 0x100)).getD (d.stored p (off + 0x40 * s)))
    else k 0

/-- A context entry. -/
def Device.ctxPageWord (d : Device) (fn c off : Nat) : Word :=
  if off = 0x000 then vfId .ctx
  else if off = 0x044 ∨ off = 0x048 then (d.viewCtx c off).getD 0
  else if 0x050 ≤ off ∧ off < 0x05C then (d.viewRoot c (off - 0x00C)).getD 0
  else if 0x060 ≤ off ∧ off < 0x06C then d.reg (xltDevPage + off - 0x00C)
  else if off = 0x070 then BitVec.ofNat 32 (look d.xl.invalDone fn 0)
  else 0

/-- A bell-group entry. -/
def Upd.readGroupPage (fn g off : Nat) (k : Word → Upd) : Upd :=
  .read fun d =>
    let page := belPage (g / 512)
    let i := fieldOf (d.reg (page + 0x48)) 5 0
    match off with
    | 0x000 => k (vfId .bel)
    | 0x044 => k (look d.bl.groups g 0)
    | 0x048 => k (BitVec.ofNat 32 i)
    | 0x04C => .readBell fn (page + 0x50) (g * 64 + i) k
    | 0x050 => k (look d.rf.hold (holdKey fn (page + 0x50)) 0)
    | 0x054 | 0x058 => k (d.reg (page + off))
    | _ => k 0

/-- The die of a map entry's page: the target's region, for a context IO die A (R23). -/
def entryDie (kind target : Nat) : Nat := if kind = 0 then target % 256 / 64 else if kind = 1 then 6 else target % 2048 / 512

/-- A word of VF BAR0 is read: beyond 1 MiB there is none. -/
def Upd.readVf (fn addr len : Nat) (k : Word → Upd) (refuse : Upd) : Upd :=
  .read fun d =>
    let off := addr % 4096
    if 2 ^ 20 ≤ addr then .skip
    else if !d.vfOn fn then refuse
    else if !oneWord addr len then .all [.pcxError 0, refuse]
    else if !d.up then k 0xFFFFFFFF
    else if addr < 4096 then k (d.vfInfo fn off)
    else match d.mapEntry fn (addr / 4096) with
    | none => k 0
    | some (kind, t) =>
      let back (w : Word) : Upd := .cross (entryDie kind t) 6 (k w)
      .cross 6 (entryDie kind t) (match kind with
        | 0 => .readSlotPage (t % 256 / 8) (t % 8) off back
        | 1 => back (d.ctxPageWord fn (t % 256) off)
        | _ => .readGroupPage fn (t % 2048) off back)

/-- A write to a slot entry: the doorbell rings the entry's slot; the ack of another slot's entry is ignored. -/
def Upd.writeSlotPage (fn e s off : Nat) (data : Word) : Upd :=
  .read fun d =>
    .when (d.blockOn e) (
      if off = 0x040 then .doorbell fn e s (fieldOf data 15 0)
      else if off = 0x04C then
        .shadowAck fn e (if (d.shadow e (fieldOf data 5 0)).slot = s then data else data &&& 0x7FFFFFFF)
      else .when (0x100 ≤ off && off < 0x140) (.writeSlot fn e s (off - 0x100) data))

/-- A write to a context entry: CFG.owner stays, INVAL_CTX is implied. -/
def Upd.writeCtxPage (fn c off : Nat) (data : Word) : Upd :=
  let xlt (o : Nat) : Upd := .storeWord ⟨.xltDevice, 15, 15, 15⟩ o data
  match off with
  | 0x044 => .ctxCfg fn c data
  | 0x04C => .ctxKill fn c data
  | 0x050 | 0x054 | 0x058 => .rootWord c (off - 0x00C) data
  | 0x060 | 0x064 | 0x068 => xlt (off - 0x00C)
  | 0x06C => .invalCmd fn (some c) data
  | _ => .skip

/-- A write to a bell-group entry: bits 5:0 of BELL_SEL select a bell of the group. -/
def Upd.writeGroupPage (g off : Nat) (data : Word) : Upd :=
  .read fun d =>
    let r := g / 512
    let page := belPage r
    match off with
    | 0x048 => .setReg (page + 0x48) (BitVec.ofNat 32 (g % 512 * 64 + fieldOf data 5 0))
    | 0x054 | 0x058 => .setReg (page + off) data
    | 0x05C => .bellOpAt r (g % 512 * 64 + fieldOf (d.reg (page + 0x48)) 5 0) (fieldOf data 1 0)
    | _ => .skip

/-- A word of VF BAR0 is written; the information page ignores writes. -/
def Upd.writeVf (fn addr : Nat) (data : Word) (len : Nat := 4) : Upd :=
  .read fun d =>
    let off := addr % 4096
    if 2 ^ 20 ≤ addr || !d.vfOn fn then .skip
    else if !oneWord addr len then .pcxError 0
    else if !d.up || addr < 4096 then .skip
    else match d.mapEntry fn (addr / 4096) with
    | none => .skip
    | some (kind, t) => .cross 6 (entryDie kind t) (match kind with
        | 0 => .writeSlotPage fn (t % 256 / 8) (t % 8) off data
        | 1 => .writeCtxPage fn (t % 256) off data
        | _ => .writeGroupPage (t % 2048) off data)

/-! ### BAR4: the MSI-X table and the pending bits (R389, R390, R393, R404) -/

/-- The vectors of a function's table (R389, R393). -/
def vectorsOf (fn : Nat) : Nat := if fn = 0 then 2048 else 32

/-- Where the pending bits of a function lie in BAR4. -/
def pbaBase (fn : Nat) : Nat := if fn = 0 then 0x8000 else 0x800

/-- A word of BAR4: an entry is the message's address, its upper half, its data, and a word whose bit 0 masks the vector. -/
def Device.bar4Word (d : Device) (fn addr : Nat) : Word :=
  let v := addr / 16
  let e := look d.ho.msixTable (fn * 2048 + v) (0, 0, 0)
  let flags (v : Nat) : Bool × Bool := look d.ho.vectors (fn * 2048 + v) (false, false)
  if v < vectorsOf fn then
    (match addr / 4 % 4 with
    | 0 => e.1
    | 1 => e.2.1
    | 2 => e.2.2
    | _ => BitVec.ofNat 32 (!(flags v).1).toNat)
  else if pbaBase fn ≤ addr ∧ addr < pbaBase fn + vectorsOf fn / 8 then
    BitVec.ofNat 32 (((List.range 32).map fun i => (flags ((addr - pbaBase fn) / 4 * 32 + i)).2.toNat * 2 ^ i).sum)
  else 0

/-- A vector is masked or unmasked; a pending bit of one unmasked sends one message (R404). -/
def Upd.maskVector (fn v : Nat) (masked : Bool) : Upd :=
  .all [
    .of fun d => { d with ho := { d.ho with
      vectors := put d.ho.vectors (fn * 2048 + v) (!masked, (look d.ho.vectors (fn * 2048 + v) (false, false)).2) (false, false) } },
    .sendPending]

/-- A word of BAR4 is written; the pending bits ignore writes. -/
def Upd.writeBar4 (fn addr : Nat) (data : Word) : Upd :=
  let v := addr / 16
  let entry (f : Word × Word × Word → Word × Word × Word) : Upd :=
    .of fun d => { d with ho := { d.ho with msixTable := put d.ho.msixTable (fn * 2048 + v) (f (look d.ho.msixTable (fn * 2048 + v) (0, 0, 0))) (0, 0, 0) } }
  .when (v < vectorsOf fn) (match addr / 4 % 4 with
    | 0 => entry fun e => (data &&& 0xFFFFFFFC, e.2)
    | 1 => entry fun e => (e.1, data, e.2.2)
    | 2 => entry fun e => (e.1, e.2.1, data)
    | _ => .maskVector fn v (bitOf data 0))

/-! ### Configuration space, by the names of its fields (R384, R389, R393, R399, R404, R405; log 145) -/

/-- A stream takes a function of itself. -/
def Upd.ide (stream : Nat) (f : Ide → Ide) : Upd :=
  .of fun d => { d with ho := { d.ho with ide := put d.ho.ide stream (f (d.ide stream)) {} } }

/-- What waited for a stream, or for D0, is sent, oldest first. -/
def Upd.unblock (stream : Nat) : Upd :=
  .of fun d => { d with ho := { d.ho with
    sent := ((d.ho.blocked.filter (·.1 = stream)).map (·.2)).reverse ++ d.ho.sent,
    blocked := d.ho.blocked.filter (·.1 ≠ stream) } }

/-- The place of an error in the field aerStatus. -/
def AerError.place : AerError → Nat
  | .receiverError => 0 | .badTlp => 1 | .badDllp => 2 | .replayTimeout => 3 | .replayRollover => 4 | .malformedTlp => 5
  | .unexpectedCompletion => 6 | .completerAbort => 7

/-- The field stands in the configuration space of a virtual function too (R389). -/
def ofVirtual (f : ConfigField) : Bool :=
  match f with
  | .msixEnable | .msixMask | .ats => true
  | _ => false

/-- A field of a function's configuration space. -/
def Device.configWord (d : Device) (fn : Nat) (f : ConfigField) : Word :=
  let h := d.ho
  match f with
  | .powerState => if h.d3 then 3 else 0
  | .msixEnable => BitVec.ofNat 32 (h.msixOn.contains fn).toNat
  | .msixMask => BitVec.ofNat 32 (h.msixMasked.contains fn).toNat
  | .ats => BitVec.ofNat 32 (d.xl.atsOn.contains fn).toNat
  | .bar2Size => BitVec.ofNat 32 h.bar2Log2
  | .vfBar2Size => BitVec.ofNat 32 h.vfBar2Log2
  | .aerStatus => BitVec.ofNat 32 (h.aer.map fun x => 2 ^ x.place).sum
  | .errorReporting => BitVec.ofNat 32 (h.aerReport.1.toNat + 2 * h.aerReport.2.toNat)
  | .ridAssociation s => BitVec.ofNat 32 (match (d.ide s).rid with | some (lo, hi) => lo + hi * 2 ^ 16 | none => 0)
  | .addressBase s b => BitVec.ofNat 32 (look (d.ide s).regions b (0, 0)).1
  | .addressLimit s b => BitVec.ofNat 32 (look (d.ide s).regions b (0, 0)).2

/-- A list with a function, or without it. -/
def toggled (l : List Nat) (fn : Nat) (on : Bool) : List Nat := l.filter (· ≠ fn) ++ (if on then [fn] else [])

/-- A field of a function's configuration space is written; a size that a BAR cannot have is ignored. -/
def Upd.writeConfig (fn : Nat) (f : ConfigField) (data : Word) : Upd :=
  let on := bitOf data 0
  let ho (g : HostIf → HostIf) : Upd := .of fun d => { d with ho := g d.ho }
  match f with
  | .powerState =>
    if fieldOf data 1 0 = 3 then ho fun h => { h with d3 := true }
    else .when (fieldOf data 1 0 = 0) (.all [ho fun h => { h with d3 := false }, .unblock 256, .sendPending])
  | .msixEnable => .all [ho fun h => { h with msixOn := toggled h.msixOn fn on }, .sendPending]
  | .msixMask => .all [ho fun h => { h with msixMasked := toggled h.msixMasked fn on }, .sendPending]
  | .ats => .enableAts [fn] on
  | .bar2Size => .when (30 ≤ data.toNat && data.toNat ≤ 42) (ho fun h => { h with bar2Log2 := data.toNat })
  | .vfBar2Size => .when (data = 0 || 26 ≤ data.toNat && data.toNat ≤ 36) (ho fun h => { h with vfBar2Log2 := data.toNat })
  | .aerStatus => ho fun h => { h with aer := h.aer.filter fun x => !bitOf data x.place }
  | .errorReporting => ho fun h => { h with aerReport := (on, bitOf data 1) }
  | .ridAssociation s => .when (1 ≤ s && s ≤ 8) (.ide s fun x => { x with rid := some (fieldOf data 15 0, fieldOf data 31 16) })
  | .addressBase s b => .when (1 ≤ s && s ≤ 8 && b < 2)
      (.ide s fun x => { x with regions := put x.regions b (data.toNat, (look x.regions b (0, 0)).2) (0, 0) })
  | .addressLimit s b => .when (1 ≤ s && s ≤ 8 && b < 2)
      (.ide s fun x => { x with regions := put x.regions b ((look x.regions b (0, 0)).1, data.toNat) (0, 0) })

/-- A function is there: the physical one, or a virtual one that is enabled (R380, R398). -/
def Device.functionThere (d : Device) (fn : Nat) : Bool := fn = 0 || d.ho.vfEnable && fn ≤ d.ho.vfCount

/-! ### Meanings -/

/-- The completion of a host read of BAR0 or BAR2 (R391, R392). -/
def Upd.complete (fn : Nat) (data : List Byte) : Upd := .all [.count (pcxPage + 0x88) data.length, .send (.readCpl fn data)]

/-- REGISTER_READ (R391, R394, R456): a read of BAR0; of BAR4 or of configuration space where the request is for those. In D3hot only
the last is answered with data (R384). -/
def execRegisterRead (fn addr : Nat) (s : State) (tlp : Tlp := {}) : Host.Outcome State Fault Refusal :=
  s.act (.registerRead fn addr tlp) (.read fun d => .when d.linkUp (.received fn (
    let answer (w : Word) : Upd := .complete fn (toBytes 4 w.toNat)
    let refuse : Upd := .send (.unsupported fn)
    match tlp.space with
    | .config f => if d.functionThere fn then answer (if fn = 0 || ofVirtual f then d.configWord fn f else 0) else refuse
    | .bar4 => if d.awake fn && (fn = 0 || d.vfOn fn) && oneWord addr tlp.len then answer (d.bar4Word fn addr) else refuse
    | .bar0 =>
      if !d.awake fn then refuse
      else if fn = 0 then .readBar0 addr tlp.len answer refuse else .readVf fn addr tlp.len answer refuse) tlp))

/-- A BAR0 write of a function. -/
def Upd.writeReg (fn addr : Nat) (data : Word) (len : Nat := 4) : Upd :=
  if fn = 0 then .writeBar0 addr data len else .writeVf fn addr data len

/-- REGISTER_WRITE (R391, R454): a write of BAR0, field by field; of BAR4 or of configuration space where the request is for those. A
poisoned one is discarded (R387). -/
def execRegisterWrite (fn addr : Nat) (data : Word) (s : State) (tlp : Tlp := {}) : Host.Outcome State Fault Refusal :=
  s.hostAct (.registerWrite fn addr data tlp) fn (
    if tlp.poisoned then .pcxError 2
    else match tlp.space with
    | .config f => .read fun d => .when (d.functionThere fn && (fn = 0 || ofVirtual f)) (.writeConfig fn f data)
    | .bar4 => .read fun d => .when ((fn = 0 || d.vfOn fn) && oneWord addr tlp.len) (.writeBar4 fn addr data)
    | .bar0 => .writeReg fn addr data tlp.len) 6 tlp

/-- ERR_STATUS_CLEAR (R448, R451): a write of a page's ERR_STATUS; no page of a virtual function shows one (R395). -/
def execErrStatusClear (fn page : Nat) (data : Word) (s : State) : Host.Outcome State Fault Refusal :=
  s.hostAct (.errStatusClear fn page data) fn (.when (fn = 0 && page % 4096 = 0) (.writeBar0 (page + 0x0C) data))

/-- ERR_INJECT (R361): a write of a page's ERR_INJECT, by the physical function only. -/
def execErrInject (fn page : Nat) (data : Word) (s : State) : Host.Outcome State Fault Refusal :=
  s.hostAct (.errInject fn page data) fn (.when (fn = 0 && page % 4096 = 0) (.writeBar0 (page + 0x14) data))

/-- VF_MAP (R396): a write of PCX.VF_MAP. -/
def execVfMap (fn : Nat) (data : Word) (s : State) : Host.Outcome State Fault Refusal :=
  s.hostAct (.vfMap fn data) fn (.when (fn = 0) (.writeBar0 (pcxPage + 0x54) data))

/-- SVN_COMMIT (R415): a write of SEC.SVN_COMMIT. -/
def execSvnCommit (fn : Nat) (data : Word) (s : State) : Host.Outcome State Fault Refusal :=
  s.hostAct (.svnCommit fn data) fn (.when (fn = 0) (.writeBar0 (secPage + 0x48) data))

/-- CTX_ENABLE (R270, R400): a write of CTX.CFG for the context that CTX_SEL shows. -/
def execCtxEnable (fn : Nat) (data : Word) (s : State) : Host.Outcome State Fault Refusal :=
  s.hostAct (.ctxEnable fn data) fn (.read fun d =>
    let u := Upd.ctxCfg fn (fieldOf (d.reg (ctxPage + 0x40)) 7 0) data
    if fn = 0 then .guarded u else u)

end Sys2Proof.Machine
end

