-- ==== Sys2Proof/Machine/HostAccess.lean ====
section
/-! DEFINITION. The rest of the host's side: BAR2, MSI-X, link training, Integrity and Data Encryption, and the TEE Device
Interface Security Protocol (13_host_pcie.md R385, R390, R392, R393, R396, R399 to R404). -/

namespace Sys2Proof.Machine

/-! ### Functions, identity and capabilities (R388 to R390, R393) -/

/-- What a function's configuration space identifies it by. -/
structure Identity where
  vendor : Nat
  device : Nat
  revision : Nat
  classCode : Nat
  subsystem : Word
deriving DecidableEq, Repr

/-- The identifiers of a function (R388); the subsystem identifiers stand in the board table of the running image (log 141). -/
def Device.identity (d : Device) (fn : Nat) : Identity where
  vendor := 0x1D7B
  device := if fn ≠ 0 then 0x010F else if d.fuses.harvested then 0x0117 else 0x0107
  revision := Config.metalRevision.toNat
  classCode := 0x120000
  subsystem := Config.subsystem (d.se.running.getD {}).gen

/-- The objects of the Data Object Exchange mailbox (R389). -/
inductive DataObject where
  | discovery | spdm | securedSpdm | ideKm | tdisp
deriving DecidableEq, Repr

/-- The capability structures of R389 with their supported parts. -/
inductive Capability where
  /-- D3hot, PME, No_Soft_Reset (R384) -/
  | powerManagement (d3hot pme noSoftReset : Bool)
  /-- an endpoint: the bits of its tags, Function Level Reset, maximum payload and read request sizes (R384) -/
  | pciExpress (tagBits : List Nat) (flr : Bool) (payload readRequest : Nat)
  /-- vectors; where the table and the pending bits lie in BAR4 -/
  | msix (vectors table pba : Nat)
  | advancedErrors (errors : List AerError)
  | serialNumber (value : Nat)
  | secondary | physical16 | physical32 | physical64 | margining | flitLogging | dataLinkFeature | ari
  /-- no control is implemented -/
  | accessControl
  | srIov (total initial pageBytes : Nat) (migration : Bool)
  /-- the depth of the invalidate queue, Page Aligned Request, Global Invalidate -/
  | ats (depth : Nat) (pageAligned globalInvalidate : Bool)
  /-- the base-two logarithms of the sizes of BAR2 -/
  | resizableBar (sizes : List Nat)
  | vfResizableBar (sizes : List Nat)
  | dataObjects (objects : List DataObject)
  /-- selective streams, the address association blocks of each, Flit mode, PCRC, aggregation (R399) -/
  | ide (selective regions : Nat) (flit pcrc aggregation : Bool)
  | tdisp
deriving DecidableEq, Repr

/-- The capability structures of a function (R389): a virtual one has PCI Express, MSI-X, ATS and ARI. -/
def Device.capabilities (d : Device) (fn : Nat) : List Capability :=
  let express := Capability.pciExpress [8, 10, 14] true 512 4096
  if fn ≠ 0 then [express, .msix 32 0 0x800, .ats 32 true false, .ari]
  else [.powerManagement true false true, express, .msix 2048 0 0x8000,
    .advancedErrors [.receiverError, .badTlp, .badDllp, .replayTimeout, .replayRollover, .malformedTlp, .unexpectedCompletion, .completerAbort],
    .serialNumber d.fuses.serial.toNat, .secondary, .physical16, .physical32, .physical64, .margining, .flitLogging, .dataLinkFeature, .ari,
    .accessControl, .srIov 64 64 4096 false, .ats 32 true false, .resizableBar (span 30 13), .vfResizableBar (span 26 11),
    .dataObjects [.discovery, .spdm, .securedSpdm, .ideKm, .tdisp], .ide 8 2 true true false, .tdisp]

/-- The sizes of BAR0 and BAR4 of a function (R390, R393). -/
def bar0Size (fn : Nat) : Nat := if fn = 0 then 2 ^ 28 else 2 ^ 20
def bar4Size (fn : Nat) : Nat := if fn = 0 then 65536 else 4096

/-! ### BAR2 (R390, R392, R393, R396) -/

/-- The aperture of a virtual function's BAR2: its first physical address. -/
def Device.aperture (d : Device) (fn : Nat) : Nat := (d.vf fn).aptLo.toNat + (d.vf fn).aptHi.toNat * 2 ^ 32

/-- A range of device memory meets the aperture of a locked interface (R400). -/
def Device.inLockedAperture (d : Device) (pa len : Nat) : Bool :=
  d.ho.vfBar2Log2 ≠ 0 && (span 1 64).any fun fn =>
    d.locked fn && pa < d.aperture fn + 2 ^ d.ho.vfBar2Log2 && d.aperture fn < pa + len

/-- The size of a function's BAR2: none when it has none (R390, R393). -/
def Device.bar2Size (d : Device) (fn : Nat) : Nat :=
  if fn = 0 then 2 ^ d.ho.bar2Log2 else if d.ho.vfBar2Log2 = 0 then 0 else 2 ^ d.ho.vfBar2Log2

/-- The physical address that a BAR2 offset reaches, and the key slot of the access. -/
def Device.bar2Target (d : Device) (fn addr : Nat) : Nat × Nat :=
  if fn = 0 then (addr, 0) else (d.aperture fn + addr, (d.vf fn).keySlot.getD 0)

/-- The record of an uncorrectable line that a host access met (R215): level 2, no context. -/
def Upd.hostUe (pa : Nat) : Upd :=
  .read fun d => .record { ctlRec 0x020B pa with injected := true, enabled := d.enabled (ctlPage (ctlOf pa)) 1 }

/-- A host read of device memory (R215, R392): whole, or not at all. -/
def Upd.bar2Read (fn pa len key : Nat) : Upd :=
  .read fun d =>
    if !populatedRange pa len then .all [.when (fn ≠ 0) (.pcxError 0), .send (.unsupported fn)]
    else match d.ueIn pa len with
    | some l => .all [.touch pa len, .hostUe l, .aer .completerAbort, .send (.aborted fn)]
    | none => .all [.touch pa len, .read fun d => .cross (memDie pa) 6 (.complete fn (d.bytesAt key pa len))]

/-- A host write of device memory (R215, R392): line by line; the part of an uncorrectable line stays unwritten, is counted and
recorded. -/
def Upd.bar2Write (fn pa : Nat) (data : List Byte) (key : Nat) : Upd :=
  .read fun d =>
    let stuck := (linesOf pa data.length).filter fun l =>
      d.lineErrAt l = some .uncorrectable && !(pa ≤ l * 64 && l * 64 + 64 ≤ pa + data.length)
    .all [
      .when (fn ≠ 0 && !populatedRange pa data.length) (.pcxError 0),
      .each stuck fun l => .hostUe (l * 64),
      .write key pa data]

/-- A BAR2 request of a function within its BAR (R392, R393), which crosses to the die that holds its address (R23): a poisoned write is
discarded (R387), and in D3hot none is carried out. What the device does when it is not out of reset is log 70. -/
def Upd.bar2 (fn addr len : Nat) (tlp : Tlp) (locked refuse : Upd) (k : Nat → Nat → Upd) : Upd :=
  .read fun d => .when (d.linkUp && addr + len ≤ d.bar2Size fn) (.received fn (
    let (pa, key) := d.bar2Target fn addr
    if !d.awake fn then refuse
    else if tlp.poisoned then .pcxError 2
    else if !d.up || (fn ≠ 0 && !d.vfOn fn) then refuse
    else if fn = 0 && d.inLockedAperture pa len then locked
    else .cross 6 (memDie pa) (k pa key)) tlp)

/-- BAR2_READ (R392, R396, R400). -/
def execBar2Read (fn addr len : Nat) (s : State) (tlp : Tlp := {}) : Host.Outcome State Fault Refusal :=
  s.act (.bar2Read fn addr len tlp) (.bar2 fn addr len { tlp with poisoned := false } (.complete fn (List.replicate len 0xFF))
    (.send (.unsupported fn)) fun pa key => .bar2Read fn pa len key)

/-- BAR2_WRITE (R392, R396, R400); a poisoned one is discarded (R387). -/
def execBar2Write (fn addr : Nat) (data : List Byte) (s : State) (tlp : Tlp := {}) : Host.Outcome State Fault Refusal :=
  s.act (.bar2Write fn addr data tlp) (.bar2 fn addr data.length tlp .skip .skip
    fun pa key => .all [.count (pcxPage + 0x80) data.length, .bar2Write fn pa data key])

/-! ### MSI-X (R404) and the link (R385) -/

/-- MSIX_UNMASK (R404): a vector is unmasked, and a pending bit sends one message; on a function whose MSI-X is masked or disabled the
event still waits. -/
def execMsixUnmask (fn vector : Nat) (s : State) : Host.Outcome State Fault Refusal :=
  s.hostAct (.msixUnmask fn vector) fn (.read fun d =>
    .when (vector < vectorsOf fn && (fn = 0 || d.vfOn fn)) (.maskVector fn vector false))

/-- PCIE_LINK_TRAINED (R384, R385): the link runs at a rate (1 to 6) and width; below 32.0 GT/s x16 it is degraded. -/
def execPcieLinkTrained (rate width : Nat) (flit : Bool) (s : State) (ats : Bool := false) : Host.Outcome State Fault Refusal :=
  s.act (.pcieLinkTrained rate width flit ats) (.read fun d => .when d.linkUp (.all [
    .of fun d => { d with ho := { d.ho with rate := rate, width := width, flit := flit } },
    .enableAts [0] ats,
    .read fun d => .when d.linkSlow (.pcxError 5)]))

/-! ### Integrity and Data Encryption (R399) -/

/-- The keys of a key set: one for each sub-stream (posted, non-posted, completions) and direction. -/
def keyParts (keySet : Nat) : List (Nat × Nat × Bool) :=
  (List.range 3).flatMap fun sub => [(keySet, sub, false), (keySet, sub, true)]

/-- KEY_PROG (R399): the key of a stream, sub-stream and direction is programmed for a key set; without a part, all of them. -/
def execKeyProg (stream keySet : Nat) (s : State) (part : Option (Nat × Bool) := none) : Host.Outcome State Fault Refusal :=
  s.act (.keyProg stream keySet part) (.read fun d => .when d.up
    (.ide stream fun x =>
      let parts := match part with | some p => [(keySet, p)] | none => keyParts keySet
      { x with programmed := x.programmed ++ parts.filter fun k => !x.programmed.contains k }))

/-- K_SET_GO (R399): a stream runs with the keys programmed for a set, and is Secure. -/
def execKSetGo (stream keySet : Nat) (s : State) : Host.Outcome State Fault Refusal :=
  s.act (.kSetGo stream keySet) (.read fun d => .when (d.up && (keyParts keySet).all fun k => (d.ide stream).programmed.contains k) (.all [
    .ide stream fun x => { x with secure := true, failed := false, keySet := keySet },
    .unblock stream]))

/-- K_SET_STOP (R399): the keys of a set are given up; a stream that runs with them goes Insecure (log 71). -/
def execKSetStop (stream keySet : Nat) (s : State) : Host.Outcome State Fault Refusal :=
  s.act (.kSetStop stream keySet) (.read fun d => .when d.up (.all [
    .ide stream fun x => { x with programmed := x.programmed.filter (·.1 ≠ keySet) },
    .when ((d.ide stream).secure && (d.ide stream).keySet = keySet) (.all [
      .ide stream fun x => { x with secure := false, failed := true }, .pcxError 3])]))

/-! ### TEE device interfaces (R400, R401, R417) -/

/-- A key slot takes a fresh key (R407, R417). -/
def Upd.freshKey (slot : Nat) : Upd :=
  .of (fun d => { d with mm := { d.mm with nextGen := d.mm.nextGen + 1, keys := put d.mm.keys slot (d.mm.nextGen + 1) 0 } })
    fun d h => ⟨h.mem, h.pop, h.regs, h.bells, Nat.le_succ_of_le h.keys.1, fun p hp => Nat.le_succ_of_le (h.keys.2.1 p hp), fun p hp => by
      rcases mem_put hp with hp | ⟨rfl, -⟩
      · exact Nat.le_succ_of_le (h.keys.2.2.1 p hp)
      · exact Nat.le_refl _, h.keys.2.2.2⟩

/-- A key slot is EMPTY (R417). -/
def Upd.eraseKey (slot : Nat) : Upd :=
  .of (fun d => { d with mm := { d.mm with keys := put d.mm.keys slot 0 0 } })
    fun d h => ⟨h.mem, h.pop, h.regs, h.bells, h.keys.1, h.keys.2.1, fun p hp => by
      rcases mem_put hp with hp | ⟨rfl, -⟩
      · exact h.keys.2.2.1 p hp
      · exact Nat.zero_le _, h.keys.2.2.2⟩

/-- The EMPTY key slots that can be assigned. -/
def Device.emptySlots (d : Device) : List Nat := (span 1 255).filter fun k => d.keyGen k = 0

/-- LOCK_INTERFACE (R400, R407, R417): healthy is false when an entropy health test has failed; an unlocked interface is CONFIG_LOCKED with a selective stream, and the Sladex root assigns it a
key slot, a free choice among the EMPTY ones (log 2), and generates its key. -/
def execLockInterface (vf stream : Nat) (s : State) (healthy : Bool := true) : Host.Outcome State Fault Refusal :=
  s.act (.lockInterface vf stream healthy) (.all [.when s.dev.up (.healthTest healthy), .read fun d =>
    .when (d.up && d.vfOn vf && (d.vf vf).tdi = .unlocked && stream ≠ 0 && !d.se.rngBad && !d.emptySlots.isEmpty)
      (.draw fun n =>
        let k := d.emptySlots.getD ((Config.freshWord n).toNat % d.emptySlots.length) 1
        .all [.freshKey k, .vf vf fun v => { v with tdi := .locked, stream := some stream, keySlot := some k }])])

/-- What the interface report of a virtual function lists (R400): its VF BAR0 pages, the sizes of its BARs and its key slot. -/
structure InterfaceReport where
  pages : List Nat
  bar2 : Nat
  bar4 : Nat
  keySlot : Option Nat
deriving DecidableEq, Repr

/-- The interface report (R400). -/
def Device.interfaceReport (d : Device) (vf : Nat) : InterfaceReport where
  pages := 0 :: (span 1 255).filter fun n => (d.mapEntry vf n).isSome
  bar2 := d.bar2Size vf
  bar4 := bar4Size vf
  keySlot := (d.vf vf).keySlot

/-- START_INTERFACE (R400): a locked interface is in RUN, when the nonce is that of its lock. -/
def execStartInterface (vf : Nat) (nonceOk : Bool) (s : State) : Host.Outcome State Fault Refusal :=
  s.act (.startInterface vf nonceOk) (.read fun d =>
    .when (d.up && nonceOk && (d.vf vf).tdi = .locked) (.vf vf fun v => { v with tdi := .run }))

/-- STOP_INTERFACE (R401): the interface is CONFIG_UNLOCKED again and its key slot is erased. -/
def execStopInterface (vf : Nat) (s : State) : Host.Outcome State Fault Refusal :=
  s.act (.stopInterface vf) (.read fun d =>
    .when (d.up && (d.vf vf).tdi ≠ .unlocked) (.all [
      match (d.vf vf).keySlot with
      | some k => .eraseKey k
      | none => .skip,
      .vf vf fun v => { v with tdi := .unlocked, stream := none, keySlot := none }]))

end Sys2Proof.Machine
end

