-- ==== Sys2Proof/Machine/Management.lean ====
section
/-! DEFINITION. The management plane: the phases of a tick, sensors, power, voltage requests, thermal trip, and the operations of
the Sladex root that take several ticks (14_security_mgmt.md R415, R417, R421 to R430, 12_faults.md R382, 11_observability.md
R331). -/

namespace Sys2Proof.Machine

/-- The management sequencer runs: the device is ready and MGT_CLK is there (R383, R425). -/
def Device.managed (d : Device) : Bool := d.up && !d.clk.lostMgt

/-- The telemetry runs: also after a thermal trip, while management power remains (R382). -/
def Device.telemetry (d : Device) : Bool := (d.up || d.clk.power = .tripped) && !d.clk.lostMgt

/-! ### Phase 1: staged writes, key, SVN and debug commands (R38, R415, R417, R423) -/

/-- The address is that of a register on a management page. -/
def onManagementPage (addr : Nat) : Bool :=
  match decodeAddr addr with
  | some (p, _) => isManagement p.kind
  | none => false

/-- The controls written to management pages take effect, those of the ports with their actions, injections among them; the
clocks are sampled (R38, R361, R459). -/
def Upd.applyControls : Upd :=
  .all [
    .applyClears,
    .each (List.range 18) fun p => .read fun d =>
      let a := portPage p + 0x04
      .all [.portControl p (d.inForce a) (d.reg a), .modReg a (· &&& 1)],
    .of fun d => { d with
      rf := { d.rf with
        inForce := d.rf.regs.filter fun p => onManagementPage p.1
        armed := d.rf.injNext.foldl (fun m p => put m p.1 (look m p.1 0 ||| p.2) 0) d.rf.armed
        injNext := [] }
      clk := { d.clk with refs := (!d.clk.lostRef).toNat + 2 * (!d.clk.lostLink).toNat + 4 * (!d.clk.lostMgt).toNat }
      se := { d.se with caps := d.se.caps.map fun p => (p.1, p.2.1, p.2.1) } }]

/-- A command register with an op in bits 1:0 is taken and returns to 0, unless its unit is busy (log 72). -/
def Upd.takeOp (addr : Nat) (busy : Bool) (k : Nat → Upd) : Upd :=
  .read fun d =>
    let op := fieldOf (d.reg addr) 1 0
    .when (op ≠ 0 && !busy) (.all [.modReg addr fun w => setField w 1 0 0, k op])

/-- The result of a key command (R417): state and code of KEY_STATUS for a slot. -/
def Upd.keyStatus (slot state code : Nat) : Upd :=
  .of fun d => { d with se := { d.se with keyResult := put d.se.keyResult slot (state, code) (0, 0) } }

/-- Key, SVN and debug commands of phase 1. -/
def Upd.applyCommands : Upd :=
  .all [
    .read fun d =>
      let slot := fieldOf (d.reg (secPage + 0x4C)) 7 0
      .takeOp (secPage + 0x50) d.se.keyBusy.isSome fun op =>
        .when (op = 1 || op = 2) (.all [.of fun d => { d with se := { d.se with keyBusy := some (op, slot) } }, .keyStatus slot 1 0]),
    .read fun d => .when d.se.svnDue (
      .of (fun d => { d with
          fuses := { d.fuses with svn := max d.fuses.svn (d.se.running.getD {}).svn }, se := { d.se with svnDue := false } })
        (fun d h => ⟨h.mem, h.pop, h.regs, h.bells, h.keys⟩)
        (fun d => ⟨rfl, Nat.le_max_left _ _, BitVec.and_self, [], (List.append_nil _).symm⟩)),
    .read fun d => .takeOp (secPage + 0x58) (d.se.dbgBusy ≠ 0) fun op =>
      .when (op = 1 || op = 2) (.all [
        .of fun d => { d with se := { d.se with dbgBusy := op, dbgAddr := d.pair (secPage + 0x5C) % 2 ^ 44 } }, .setReg (secPage + 0x64) 1]),
    .takeUpCommand]

/-! ### Phase 2: sensors (R427) -/

/-- The levels that a sensor reaches one by one on its way from one level to another. -/
def levelsBetween (old new : Nat) : List Nat :=
  if old < new then span (old + 1) (new - old) else (span new (old - new)).reverse

/-- A sensor is latched: each threshold crossed sends an event, when events are enabled (R427). -/
def Upd.latch (id : Nat) (v : Int) : Upd :=
  .read fun d =>
    let old := sensorLevel id (d.sensor id)
    .all [
      .of fun d => { d with se := { d.se with sensors := put d.se.sensors id v 0 } },
      .when (d.se.events && !d.se.sensorOff.contains id) (.each (levelsBetween old (sensorLevel id v)) fun l => .send (.platformEvent id l))]

/-- A junction temperature that no input gives, in 1/8 degree: a free value from -40 to below 115, where nothing trips (log 58). -/
def anyTemperature (n : Nat) : Int := ((Config.freshWord n).toNat % 1240 : Nat) - 320

/-- The temperature of an external memory part, in 1/8 degree: a free value of the sensor's range, above that of R443 too (R381;
log 58). -/
def partTemperature (n : Nat) : Int := (BitVec.ofNat 16 (Config.freshWord n).toNat).toInt

/-- The hottest junction of a die as last sampled; none has been sampled: a free value (log 58). -/
def Upd.junction (id : Nat) (k : Int → Upd) : Upd :=
  .read fun d => match d.se.raw.find? (·.1 = id) with
    | some p => k p.2
    | none => .draw fun n => k (anyTemperature n)

/-- A sensor self-test that an injection fails: the sensor keeps its last good value (MGT.sensor). -/
def Upd.tested (id : Nat) (v : Int) : Upd :=
  .inject mgtPage 0 fun bad => if bad then .raise mgtPage (oneBit 0) else .latch id v

/-- The mean of the power estimates of a block since the last tick, in 0.25 W (R428). -/
def Device.meanPower (d : Device) (e : Nat) : Nat :=
  let w := look d.se.windows e (0, 0, 0)
  if w.2.1 = 0 then 0 else w.1 / w.2.1

/-- Every sensor is sampled and latched; the windows of the tick are closed (R427, R428). -/
def Upd.sampleSensors : Upd :=
  .all [
    .each (span 1 6) fun id => .junction id (.tested id),
    .read fun d => .tested 7 ((span 1 6).foldl (fun m id => max m (d.sensor id)) (d.sensor 1)),
    .each (span 8 32) fun id => .draw fun n => .tested id (partTemperature n),
    .each (List.range 4) fun r => .read fun d => .tested (40 + r) (look d.se.volt r (750, false, 0, false)).1,
    .draw fun n => .tested 44 ((Config.freshWord n).toNat % 65536 : Nat),
    .each (List.range 32) fun e => .read fun d => .all [
      .tested (45 + e) (d.meanPower e),
      .count (pwrPage (e / 8) + 0x88) (1050 * (look d.se.windows e (0, 0, 0)).2.2)],
    .read fun d => .tested 77 d.logUsed,
    .read fun d => .tested 78 ((List.range 18).filter fun p => (d.port p).state = .up).length,
    .of fun d => { d with se := { d.se with windows := [] } }]

/-! ### Phase 3: thermal and power rules, voltage requests (R428 to R430) -/

/-- The threshold of throttling in force, in 1/8 degree. -/
def Device.throttleAt (d : Device) (r : Nat) : Int := 8 * (max 85 (min 110 (fieldOf (d.inForce (pwrPage r + 0x4C)) 7 0)) : Nat)

/-- A die is throttled from a tick at or above its threshold to one 3 degrees below it (R429). -/
def Upd.thermal (r : Nat) : Upd :=
  .read fun d =>
    let t := d.sensor (1 + r)
    let on := d.se.throttled.contains r
    .all [
      .when (!on && d.throttleAt r ≤ t) (.all [
        .of fun d => { d with se := { d.se with throttled := d.se.throttled ++ [r] } }, .raise (pwrPage r) (oneBit 1)]),
      .when (on && t ≤ d.throttleAt r - 24) (.of fun d => { d with se := { d.se with throttled := d.se.throttled.filter (· ≠ r) } }),
      .read fun d => .when (d.se.throttled.contains r) (.count (pwrPage r + 0x80))]

/-- The cap of a block in force, in 0.25 W: never above its maximum; pct of it while its die is throttled; half while a raised
voltage request of its region is not acknowledged (R428 to R430). -/
def Device.cap (d : Device) (e : Nat) : Nat :=
  let full := min ((look d.se.caps e (none, none)).2.getD (d.blockMax e)) (d.blockMax e)
  let pct := max 10 (min 100 (fieldOf (d.inForce (pwrPage (e / 8) + 0x4C)) 15 8))
  let warm := if d.se.throttled.contains (e / 8) then full * pct / 100 else full
  if (look d.se.volt (e / 8) (750, false, 0, false)).2.2.2 then warm / 2 else warm

/-- The voltage loop of a region: request, awaiting its acknowledgement, repeats, caps halved. -/
def Device.volt (d : Device) (r : Nat) : Nat × Bool × Nat × Bool := look d.se.volt r (750, false, 0, false)
def Upd.volt (r : Nat) (v : Nat × Bool × Nat × Bool) : Upd :=
  .of fun d => { d with se := { d.se with volt := put d.se.volt r v (750, false, 0, false) } }

/-- A limit of PWR.VLIMIT in force: values outside 600 to 850 mV act as the nearer. -/
def Device.vmin (d : Device) (r : Nat) : Nat := max 600 (min 850 (fieldOf (d.inForce (pwrPage r + 0x44)) 9 0))
def Device.vmax (d : Device) (r : Nat) : Nat := max 600 (min 850 (fieldOf (d.inForce (pwrPage r + 0x44)) 25 16))

/-- A voltage request is sent over AVSBus (R430). -/
def Upd.sendVolt (r mv : Nat) : Upd := .all [.count (pwrPage r + 0x90), .send (.avs r mv)]

/-- The adaptive loop of a region changes its request by at most 10 mV in steps of 5 mV within VLIMIT: by how much its timing
monitors ask is a free value (log 73). While a request awaits its acknowledgement it stays. -/
def Upd.adapt (r : Nat) : Upd :=
  .draw fun n => .read fun d =>
    let v := d.volt r
    let asked := v.1 + 5 * ((Config.freshWord n).toNat % 5) - 10
    let mv := max (d.vmin r) (min (d.vmax r) asked)
    .when (!v.2.1 && mv ≠ v.1) (.all [.volt r (mv, true, 0, v.2.2.2 || v.1 < mv), .sendVolt r mv])

/-! ### Phase 4: time synchronisation (R331) -/

/-- A die compares its counter with the master's: a difference of more than 2 ticks is reported and corrected. A die behind advances, a
die ahead stands still until the master has come up (R331). -/
def Upd.syncDie (k : Nat) : Upd :=
  .read fun d =>
    let skew := look d.clk.dieSkew k 0
    let off : Bool := skew > 2 || skew < -2
    .all [
      .modReg (timPage + 0x48) fun w => setField w k k (!off).toNat,
      .when off (.all [
        .error timPage 0 (deviceRec 0x040E 7 (detailN k)),
        .sat (timPage + 0x50),
        .of fun d => { d with clk := { d.clk with
          dieSkew := put d.clk.dieSkew k 0 0
          dieStop := if skew > 0 then put d.clk.dieStop k (d.clk.time + BitVec.ofInt 64 skew) 0 else d.clk.dieStop } }])]

/-- The check of a tick; an injection sets region 0 off by 4 ticks before it (TIM.die_sync). -/
def Upd.timeSync : Upd :=
  .all [
    .inject timPage 0 fun a => .when a (.of fun d => { d with clk := { d.clk with dieSkew := put d.clk.dieSkew 0 4 0 } }),
    .modReg (timPage + 0x4C) (· + 1),
    .each (List.range 6) .syncDie]

/-- MANAGEMENT_TICK (R38, R425): the phases in their order. After a thermal trip only the telemetry is left of them (R382). -/
def execManagementTick (s : State) : Host.Outcome State Fault Refusal :=
  s.act .managementTick (.read fun d => .when d.telemetry (.all [
    .of fun d => { d with clk := { d.clk with ticks := d.clk.ticks + 1 } },
    .when d.managed (.all [.applyControls, .applyCommands]),
    .sampleSensors,
    .when d.managed (.all [
      .each (List.range 4) .thermal, .each (List.range 4) .adapt,
      .timeSync])]))

/-! ### Power (R428, R430) -/

/-- AVS_ACK (R430): the regulator acknowledges; an injection ignores it (PWR.avs_nak). -/
def execAvsAck (region : Nat) (s : State) : Host.Outcome State Fault Refusal :=
  s.act (.avsAck region) (.read fun d => .when (d.managed && (d.volt region).2.1)
    (.inject (pwrPage region) 2 fun ignored => .when (!ignored) (.volt region ((d.volt region).1, false, 0, false))))

/-- AVS_TIMEOUT (R430): a request unacknowledged for 1 ms is repeated once; then avs_nak is set and the request is held at vmax,
with the caps halved until an acknowledgement. -/
def execAvsTimeout (region : Nat) (s : State) : Host.Outcome State Fault Refusal :=
  s.act (.avsTimeout region) (.read fun d =>
    let (mv, waits, repeats, half) := d.volt region
    .when (d.managed && waits) (
      match repeats with
      | 0 => .all [.volt region (mv, true, 1, half), .sendVolt region mv]
      | 1 => .all [.raise (pwrPage region) (oneBit 2), .volt region (d.vmax region, true, 2, true), .sendVolt region (d.vmax region)]
      | _ => .skip))

/-- POWER_WINDOW (R428): the estimate of a 1 us window, in 0.25 W. Above the cap the block withholds issue, until an estimate
lies below it. -/
def execPowerWindow (e power : Nat) (s : State) : Host.Outcome State Fault Refusal :=
  s.act (.powerWindow e power) (.read fun d => .when (d.up && d.blockOn e) (
    let held := (d.eng e).withheld
    let above : Bool := d.cap e < power
    .all [
      .of fun d =>
        let w := look d.se.windows e (0, 0, 0)
        { d with se := { d.se with windows := put d.se.windows e (w.1 + power, w.2.1 + 1, w.2.2 + held.toNat) (0, 0, 0) } },
      .when (above && !held) (.all [.eng e fun g => { g with withheld := true }, .raise (pwrPage (e / 8)) (oneBit 0)]),
      .when (held && power < d.cap e) (.eng e fun g => { g with withheld := false })]))

/-! ### Thermal trip (R382, R439, R441) -/

/-- What is left of the device after a trip: as after PERST#, with the telemetry, until power is removed. -/
def Device.afterTrip (d : Device) (regs : Sparse Word) : Device :=
  let p := d.afterPerst regs
  { p with
    clk := { p.clk with power := .tripped, thermTrip := true, ticks := d.clk.ticks }
    se := { p.se with sensors := d.se.sensors, raw := d.se.raw, eid := d.se.eid, events := d.se.events, sensorOff := d.se.sensorOff } }

/-- The trip. -/
def Upd.trip (die : Nat) : Upd :=
  .all [
    .record (deviceRec 0x040F (if die < 4 then die else die + 2) (detailN die)),
    ⟨fun d => d.afterTrip (d.rf.regs.filter fun p => keptByPerst p.1), fun _ h =>
      ⟨⟨List.Pairwise.nil, by simp [Device.afterTrip, Device.afterPerst]⟩, by simp [Device.afterTrip, Device.afterPerst],
        canon_filter h.regs _, ⟨List.Pairwise.nil, by simp [Device.afterTrip, Device.afterPerst]⟩,
        Nat.zero_le _, by simp [Device.afterTrip, Device.afterPerst], by simp [Device.afterTrip, Device.afterPerst]⟩,
     fun _ => Fuses.Before.refl _⟩]

/-- TEMPERATURE_SAMPLE (R382): the junctions of a die, in 1/8 degree; at 115 degrees the device trips. Dies 4 and 5 are the IO
dies. After a trip the samples go on, for the telemetry. -/
def execTemperatureSample (die : Nat) (temps : List Int) (s : State) : Host.Outcome State Fault Refusal :=
  s.act (.temperatureSample die temps) (.read fun d =>
    match temps with
    | [] => .skip
    | t :: rest =>
      let hot := rest.foldl max t
      .when (d.linkUp || d.clk.power = .tripped) (.all [
        .of fun d => { d with se := { d.se with raw := (d.se.raw.filter (·.1 ≠ die + 1)) ++ [(die + 1, hot)] } },
        .when (920 ≤ hot && d.linkUp) (.trip die)]))

/-! ### Key commands (R407, R417) -/

/-- A key command ends with a result code. -/
def Upd.keyDone (slot code : Nat) (u : Upd) : Upd :=
  .all [
    .of fun d => { d with se := { d.se with keyBusy := none } },
    .keyStatus slot (if code = 0 then 2 else 3) code,
    if code = 0 then u else .raise secPage (oneBit 1)]

/-- GENERATE (R407, R417): completes; ok is false when an entropy health test has failed. -/
def execGenerate (ok : Bool) (s : State) : Host.Outcome State Fault Refusal :=
  s.act (.generate ok) (.read fun d =>
    match d.se.keyBusy with
    | some (1, slot) => .when d.managed (.all [
        .healthTest ok,
        .keyDone slot (if slot = 0 then 1 else if d.keyGen slot ≠ 0 then 3 else if !ok || d.se.rngBad then 4 else 0) (.freshKey slot)])
    | _ => .skip)

/-- A key slot is assigned to an interface that is CONFIG_LOCKED or RUN. -/
def Device.slotLocked (d : Device) (slot : Nat) : Bool := (span 1 64).any fun fn => d.locked fn && (d.vf fn).keySlot = some slot

/-- ERASE (R417). -/
def execErase (s : State) : Host.Outcome State Fault Refusal :=
  s.act .erase (.read fun d =>
    match d.se.keyBusy with
    | some (2, slot) => .when d.managed
        (.keyDone slot (if slot = 0 then 1 else if d.keyGen slot = 0 then 3 else if d.slotLocked slot then 2 else 0) (.eraseKey slot))
    | _ => .skip)

/-! ### Debug unlock (R423, R424) -/

/-- A debug command ends with a result. -/
def Upd.dbgDone (code : Nat) (u : Upd) : Upd :=
  .all [
    .of fun d => { d with se := { d.se with dbgBusy := 0 } },
    .setReg (secPage + 0x64) (BitVec.ofNat 32 ((if code = 0 then 2 else 3) + code * 256)),
    .when (code ≠ 0 && code ≠ 3) (.raise secPage (oneBit 3)),
    .when (code = 0) u]

/-- DBG_CHALLENGE (R423 step 1): a nonce is placed in SEC.DBG_CHAL, fresh bytes of the DRBG (log 2). -/
def execDbgChallenge (s : State) : Host.Outcome State Fault Refusal :=
  s.act .dbgChallenge (.read fun d => .when (d.managed && d.se.dbgBusy = 1)
    (.draw fun n => .dbgDone 0 (.of fun d =>
      { d with se := { d.se with nonce := some ((List.range 48).map (Config.freshByte n)), draws := d.se.draws + 1 } })))

/-- The preconditions of an unlock (R423 step 3). -/
def Device.quiet (d : Device) : Bool :=
  d.q.ctxs.all (·.2.state = .free) && d.portsOff && (List.range 4).all (fun r => !d.kvOn r) && !d.wgtOn &&
    !bitOf (d.reg (dgsPage + 0x04)) 0

/-- The token body has the format of R424 and names this device and the nonce. -/
def Device.tokenFits (d : Device) (b nonce : List Byte) : Bool :=
  fieldAt b 0 4 = 0x44425537 && fieldAt b 4 2 = 1 && fieldAt b 6 2 = 0 && fieldAt b 8 8 = d.fuses.serial.toNat &&
    (b.drop 16).take 48 = nonce && fieldAt b 112 4 = 436 && (b.drop 116).take 12 = List.replicate 12 0

/-- The keys in the token hash to what the token says and to the fused values of the debug key set, and the signatures over its body
verify under them (R410, R424). -/
def tokenSigned (b : List Byte) : Bool :=
  let rsa := (b.drop 128).take 388
  let slh := (b.drop 516).take 48
  sha384 rsa = (b.drop 64).take 48 && keysFused 2 rsa slh && signaturesHold rsa slh (b.take 128) ((b.drop 564).take signatureBytes)

/-- What an unlock erases and opens (R423 steps 5 to 7). Without entropy slot 0 stays EMPTY (R407). -/
def Upd.unlock (healthy : Bool) : Upd :=
  .read fun d => .all [
    .of (fun d => { d with
      mm := { d.mm with keys := [] }
      ho := { d.ho with ide := d.ho.ide.map fun p => (p.1, { p.2 with secure := false, programmed := [], failed := p.2.failed || p.2.secure }) }
      lk := { d.lk with ports := d.lk.ports.map fun p => (p.1, { p.2 with nextKey := none, rxNext := none, txKey := {}, rxKey := {} }) }
      se := { d.se with sessions := [], attest := false, attestKeys := [], debugOpen := true } })
      (fun d h => ⟨h.mem, h.pop, h.regs, h.bells, h.keys.1, h.keys.2.1, by simp, h.keys.2.2.2⟩),
    .when (d.ho.ide.any (·.2.secure)) (.pcxError 3),
    .healthTest healthy,
    .read fun d => .when (!d.se.rngBad) (.freshKey 0)]

/-- DBG_UNLOCK (R407, R423, R424). healthy is false when an entropy health test has failed. -/
def execDbgUnlock (s : State) (healthy : Bool := true) : Host.Outcome State Fault Refusal :=
  s.act (.dbgUnlock healthy) (.read fun d => .when (d.managed && d.se.dbgBusy = 2) (
    match d.se.nonce with
    | none => .dbgDone 1 .skip
    | some nonce =>
      if !d.quiet then .dbgDone 3 .skip
      else
        let pa := d.se.dbgAddr
        let len := 17204
        let b := d.bytesAt 0 pa len
        let readable := pa % 64 = 0 && populatedRange pa len && (d.ueIn pa len).isNone
        .all [
          .of fun d => { d with se := { d.se with nonce := none } },
          .when (populatedRange pa len) (.touch pa len),
          .dbgDone
            (if !readable || !d.tokenFits b nonce then 4 else if d.fuses.revoked.getLsbD 2 then 5 else if !tokenSigned b then 2 else 0)
            (.unlock healthy)]))

end Sys2Proof.Machine
end

