-- ==== Sys2Proof/Machine/Protocols.lean ====
section
/-! DEFINITION. The responders of the management plane: SPDM (R418 to R422), MCTP and PLDM (R414, R416, R426, R427). An answer is
what the responder says, not its encoding in a DMTF message: the spec refers to those standards for it (log 74). -/

namespace Sys2Proof.Machine

/-! ### SPDM (R418 to R421) -/

/-- An SPDM answer: its response code and what it says. -/
def Upd.spdm (code : Nat) (data : List Byte) : Upd := .send (.answer 5 code data)

/-- The ERROR response with an error code. -/
def Upd.spdmError (code : Nat) : Upd := .spdm 0x7F [BitVec.ofNat 8 code]

/-- The session is established. -/
def Device.established (d : Device) (id : Nat) : Bool := d.se.sessions.any fun x => x.id = id && x.finished

/-- A request to the SPDM responder: outside a session or in an established one; in another it is dropped. It is answered with
UnexpectedRequest (0x04) until the connection has come to the state that it needs. -/
def Upd.request5 (session : Option Nat) (needs : SpdmState → Bool) (k : Upd) : Upd :=
  .read fun d => .when (d.managed && (match session with | none => true | some id => d.established id))
    (if needs d.se.spdm then k else .spdmError 0x04)

/-- The connection state changes. -/
def Upd.spdmState (st : SpdmState) : Upd := .of fun d => { d with se := { d.se with spdm := st } }

/-- The connection is negotiated. -/
def negotiated (st : SpdmState) : Bool := st = .negotiated

/-- GET_VERSION (R418): versions 1.3 and 1.2; it begins a connection. -/
def execGetVersion (session : Option Nat) (s : State) : Host.Outcome State Fault Refusal :=
  s.act (.getVersion session) (.request5 session (fun _ => session.isNone) (.all [
    .of fun d => { d with se := { d.se with spdmVersion := 0 } }, .spdmState .version, .spdm 0x04 [0x13, 0x12]]))

/-- The capabilities of R418 as the flags of a SPDM responder (PRESUMED, log 163): CERT, CHAL, MEAS with signature, MEAS_FRESH, ENCRYPT,
MAC, MUT_AUTH, KEY_EX, HBEAT, KEY_UPD. -/
def spdmCapabilities : Nat := ([1, 2, 4, 5, 6, 7, 8, 9, 13, 14].map (2 ^ ·)).sum

/-- The algorithms of R418 by their bits (PRESUMED, log 163): measurement hash SHA-384, RSAPSS_3072, SHA_384, secp384r1, AES-256-GCM, and
one extended entry, the vendor's for SLH-DSA. -/
def spdmAlgorithms : List Byte := [0x04, 0x08, 0x02, 0x10, 0x02, 1]

/-- GET_CAPABILITIES (R418): the requester has chosen a version, 1.3 or 1.2; another is answered with VersionMismatch (0x41). -/
def execGetCapabilities (session : Option Nat) (s : State) (version : Nat := 0x13) : Host.Outcome State Fault Refusal :=
  s.act (.getCapabilities session version) (.request5 session (· = .version) (
    if version = 0x13 ∨ version = 0x12 then .all [
      .of fun d => { d with se := { d.se with spdmVersion := version } }, .spdmState .capabilities, .spdm 0x61 (toBytes 4 spdmCapabilities)]
    else .spdmError 0x41))

/-- NEGOTIATE_ALGORITHMS (R418): supported tells whether the requester offers the algorithms of R418; InvalidRequest (0x01)
otherwise. -/
def execNegotiateAlgorithms (session : Option Nat) (supported : Bool) (s : State) : Host.Outcome State Fault Refusal :=
  s.act (.negotiateAlgorithms session supported) (.request5 session (· = .capabilities)
    (if supported then .all [.spdmState .negotiated, .spdm 0x63 spdmAlgorithms] else .spdmError 0x01))

/-- A certificate chain (R419): slot 0 of RSA-3072 keys, slot 1 of SLH-DSA-SHA2-192s keys; the part number is that of the grade (R1). -/
def Device.chain (d : Device) (k : Nat) : List Byte :=
  Config.rootCertificate k ++ Config.productCertificate k ++ Config.deviceCertificate k d.fuses.serial.toNat d.fuses.harvested.toNat

/-- GET_DIGESTS (R418, R419): the SHA-384 of both chains. -/
def execGetDigests (session : Option Nat) (s : State) : Host.Outcome State Fault Refusal :=
  s.act (.getDigests session) (.request5 session negotiated (.read fun d => .spdm 0x01 (sha384 (d.chain 0) ++ sha384 (d.chain 1))))

/-- GET_CERTIFICATE (R418, R419): slots 0 and 1 hold a chain; InvalidRequest for another. -/
def execGetCertificate (session : Option Nat) (chain : Nat) (s : State) : Host.Outcome State Fault Refusal :=
  s.act (.getCertificate session chain) (.request5 session negotiated
    (if chain < 2 then .read fun d => .spdm 0x02 (d.chain chain) else .spdmError 0x01))

/-- A dual signature (R420): that of the slot named, and the element with the vendor identifier, the other slot's number, three zero bytes
and its signature. The bytes depend on secrets: free values (log 2). Without attestation keys the answer is ERROR Unspecified (0x05);
a slot without a chain is an InvalidRequest (0x01). -/
def Upd.signed (slot : Nat) (k : List Byte → Upd) : Upd :=
  .read fun d =>
    let size (i : Nat) : Nat := if i = 0 then 384 else 16224
    if slot > 1 then .spdmError 0x01
    else if d.se.attest then
      .draw fun m => .draw fun n =>
        k ((List.range (size slot)).map (Config.freshByte m) ++ toBytes 2 (d.identity 0).vendor ++ [BitVec.ofNat 8 (1 - slot), 0, 0, 0] ++
          (List.range (size (1 - slot))).map (Config.freshByte n))
    else .spdmError 0x05

/-- CHALLENGE (R418, R420). -/
def execChallenge (session : Option Nat) (nonce : List Byte) (s : State) (slot : Nat := 0) : Host.Outcome State Fault Refusal :=
  s.act (.challenge session nonce slot) (.request5 session negotiated (.signed slot fun sig => .spdm 0x03 (nonce ++ sig)))

/-- The map and column maps of index 6: ENG.CELLS.map of the 32 blocks, COLMAP0 to 3 of the 128 cell positions, zero for
disabled cells (R421). -/
def Device.mapBytes (d : Device) : List Byte :=
  (List.range 32).map (fun e => BitVec.ofNat 8 (slotBits (d.cellsOf e))) ++
    (List.range 128).flatMap fun i => toBytes 16 (if d.cellOn (i / 4) (i % 4) then (d.bypassed (i / 4) (i % 4)).toNat else 0)

/-- The value of a measurement block (R421). -/
def Device.measurement (d : Device) (index : Nat) : List Byte :=
  let run := d.se.running.getD {}
  match index with
  | 4 => ([d.fuses.svn, run.svn, run.keySet, d.fuses.revoked.toNat, d.se.debugOpen.toNat, run.slot].map (BitVec.ofNat 8)) ++ List.replicate 10 0
  | 5 => (d.se.upLog ++ List.replicate 48 0).take 48
  | 6 => sha384 d.mapBytes
  | _ =>
    let known := if index = 2 then run.header else if index = 3 then run.sections else []
    if known.isEmpty then (List.range 6).flatMap fun part => toBytes 8 (Config.measured index (if index = 1 then 0 else run.gen) part).toNat else known

/-- GET_MEASUREMENTS (R418, R420, R421): index 0 asks how many blocks there are, 0xFF for all of them, 1 to 6 for one. -/
def execGetMeasurements (session : Option Nat) (index : Nat) (signed : Bool) (nonce : List Byte) (s : State) (slot : Nat := 0) :
    Host.Outcome State Fault Refusal :=
  s.act (.getMeasurements session index signed nonce slot) (.request5 session negotiated (.read fun d =>
    let blocks : Option (List Byte) :=
      if index = 0 then some [6]
      else if index = 0xFF then some ((span 1 6).flatMap d.measurement)
      else if index ≤ 6 then some (d.measurement index)
      else none
    match blocks with
    | none => .spdmError 0x01
    | some b => if signed then .signed slot fun sig => .spdm 0x60 (b ++ nonce ++ sig) else .spdm 0x60 b))

/-- The sessions change. -/
def Upd.sessions (f : List Session → List Session) : Upd := .of fun d => { d with se := { d.se with sessions := f d.se.sessions } }

/-- KEY_EXCHANGE (R407, R418, R420): a session begins; four may exist at once, SessionLimitExceeded (0x0A) beyond. healthy is false when an
entropy health test has failed: then no key is generated, and the answer is Unspecified (0x05; DESIGN CHOICE, log 162). -/
def execKeyExchange (id : Nat) (s : State) (slot : Nat := 0) (healthy : Bool := true) : Host.Outcome State Fault Refusal :=
  s.act (.keyExchange id slot healthy) (.request5 none negotiated (.all [.healthTest healthy, .read fun d =>
    if d.se.rngBad then .spdmError 0x05
    else if 4 ≤ d.se.sessions.length || d.se.sessions.any (·.id = id) then .spdmError 0x0A
    else .signed slot fun sig => .all [.sessions (· ++ [{ id := id }]), .spdm 0x64 sig]]))

/-- FINISH (R418): the session is established, or given up when its check fails (DecryptError, 0x06). -/
def execFinish (id : Nat) (ok : Bool) (s : State) : Host.Outcome State Fault Refusal :=
  s.act (.finish id ok) (.request5 none negotiated (.read fun d =>
    if !(d.se.sessions.any fun x => x.id = id && !x.finished) then .spdmError 0x04
    else if ok then .all [.sessions (·.map fun x => if x.id = id then { x with finished := true } else x), .spdm 0x65 []]
    else .all [.sessions (·.filter (·.id ≠ id)), .spdmError 0x06]))

/-- The first identifier of a link's session: port p has 0x10000 + p (R422). -/
abbrev linkSession : Nat := 0x10000

/-- KEY_UPDATE (R407, R418, R422), without entropy refused as KEY_EXCHANGE is: a session takes its next keys; in the session of a port it provides the next key of R296 for both directions. -/
def execKeyUpdate (id : Nat) (s : State) (healthy : Bool := true) : Host.Outcome State Fault Refusal :=
  s.act (.keyUpdate id healthy) (.all [.when s.dev.managed (.healthTest healthy), .read fun d =>
    if linkSession ≤ id then
      .when (d.managed && !d.se.rngBad && id < linkSession + 18 && (d.port (id - linkSession)).state ≠ .down)
        (.all [
          .draw fun n => .port (id - linkSession) fun q => { q with
            nextKey := some ⟨Config.linkKey n 0, Config.linkSalt n 0⟩, rxNext := some ⟨Config.linkKey n 1, Config.linkSalt n 1⟩ },
          .keyCheck (id - linkSession)])
    else if d.se.rngBad then .request5 (some id) negotiated (.spdmError 0x05)
    else .request5 (some id) negotiated (.all [
      .sessions (·.map fun x => if x.id = id then { x with keyGen := x.keyGen + 1 } else x), .spdm 0x69 []])])

/-- HEARTBEAT (R418). -/
def execHeartbeat (id : Nat) (s : State) : Host.Outcome State Fault Refusal :=
  s.act (.heartbeat id) (.request5 (some id) negotiated (.spdm 0x68 []))

/-- END_SESSION (R418). -/
def execEndSession (id : Nat) (s : State) : Host.Outcome State Fault Refusal :=
  s.act (.endSession id) (.request5 (some id) negotiated (.all [.sessions (·.filter (·.id ≠ id)), .spdm 0x6C []]))

/-! ### MCTP and PLDM (R414, R416, R426, R427) -/

/-- A message to the MCTP endpoint over SMBus: an injection makes it fail its PEC check, and it is dropped (MGT.smbus; log 76). In
FW_FAIL the ROM serves firmware update only (R414); after a thermal trip the telemetry is reported (R382). -/
def Upd.message (update : Bool) (k : Upd) : Upd :=
  .read fun d => .when (if update then d.managed || d.clk.power = .fwFail else d.telemetry) (.inject mgtPage 1 fun bad =>
    if bad then .raise mgtPage (oneBit 1) else k)

/-- A PLDM answer: its type * 256 + command, and what it says. -/
def Upd.pldm (code : Nat) (data : List Byte) : Upd := .send (.answer 1 code data)

/-- SET_ENDPOINT_ID (R426): the bus owner assigns the EID; 0 and 0xFF are no identifiers. -/
def execSetEndpointId (eid : Nat) (s : State) : Host.Outcome State Fault Refusal :=
  s.act (.setEndpointId eid) (.message false (
    if eid = 0 ∨ eid = 0xFF then .send (.answer 0 0x01 [2])
    else .all [.of fun d => { d with se := { d.se with eid := eid } }, .send (.answer 0 0x01 [0, BitVec.ofNat 8 eid])]))

/-- The update state changes. -/
def Upd.updState (st : UpdState) : Upd := .of fun d => { d with se := { d.se with upd := st } }

/-- The code of an update state in GetStatus. -/
def UpdState.code : UpdState → Nat
  | .idle => 0 | .learn => 1 | .readyXfer => 2 | .download => 3 | .verify => 4 | .apply => 5 | .activate => 6

/-- A command of PLDM for Firmware Update in a state that allows it; in another it is answered with a completion code (R416). -/
def Upd.update (code : Nat) (allowed : UpdState → Bool) (refused : Nat) (k : Upd) : Upd :=
  .message true (.read fun d => if allowed d.se.upd then k else .pldm (0x500 + code) [BitVec.ofNat 8 refused])

/-- QUERY_DEVICE_IDENTIFIERS (R388, R416): the vendor and device identifiers. -/
def execQueryDeviceIdentifiers (s : State) : Host.Outcome State Fault Refusal :=
  s.act .queryDeviceIdentifiers (.message true (.read fun d =>
    .pldm 0x501 (toBytes 2 (d.identity 0).vendor ++ toBytes 2 (d.identity 0).device)))

/-- The slot that an update writes: the one that is not running (R416); with none running, log 75. -/
def Device.updateSlot (d : Device) : Nat :=
  match d.se.running with
  | some r => 1 - r.slot
  | none => if Config.rescueSlotB then 1 else 0

/-- The one component of an update: its classification, firmware, and its identifier (R416). -/
abbrev fwClass : Nat := 0x000A
abbrev fwIdentifier : Nat := 0x0001

/-- GET_FIRMWARE_PARAMETERS (R416): the one component, the gen of the running image, and of the one in the other slot. -/
def execGetFirmwareParameters (s : State) : Host.Outcome State Fault Refusal :=
  s.act .getFirmwareParameters (.message true (.read fun d =>
    .pldm 0x502 (toBytes 2 fwClass ++ toBytes 2 fwIdentifier ++ toBytes 4 (d.se.running.getD {}).gen ++ toBytes 4 ((d.imageIn d.updateSlot).getD {}).gen)))

/-- REQUEST_UPDATE (R416): ALREADY_IN_UPDATE_MODE (0x81) while an update is under way. -/
def execRequestUpdate (s : State) : Host.Outcome State Fault Refusal :=
  s.act .requestUpdate (.update 0x10 (· = .idle) 0x81 (.all [.updState .learn, .pldm 0x510 [0]]))

/-- PASS_COMPONENT_TABLE (R416): an image whose gen is not above the running image's is refused with code 0x01, another component than the
device's with 0x06 (PRESUMED, log 163). -/
def execPassComponentTable (gen : Nat) (s : State) (cls : Nat := 0x000A) (identifier : Nat := 0x0001) : Host.Outcome State Fault Refusal :=
  s.act (.passComponentTable gen cls identifier) (.update 0x13 (· = .learn) 0x80 (.read fun d =>
    if cls ≠ fwClass ∨ identifier ≠ fwIdentifier then .pldm 0x513 [0, 6]
    else if d.se.running.isSome && gen ≤ (d.se.running.getD {}).gen then .pldm 0x513 [0, 1]
    else .all [.updState .readyXfer, .pldm 0x513 [0, 0]]))

/-- The flash of the update's slot takes an image, or none. -/
def Upd.flashSlot (i : Option FwImage) : Upd :=
  .of fun d => { d with se := { d.se with flash := put d.se.flash d.updateSlot i none } }

/-- UPDATE_COMPONENT (R408, R416): the download into the target slot begins, whose header is then no more valid. An image that
a slot cannot hold is refused, and another component. -/
def execUpdateComponent (len : Nat) (s : State) (cls : Nat := 0x000A) (identifier : Nat := 0x0001) : Host.Outcome State Fault Refusal :=
  s.act (.updateComponent len cls identifier) (.update 0x14 (· = .readyXfer) 0x80 (
    if cls ≠ fwClass ∨ identifier ≠ fwIdentifier then .pldm 0x514 [0, 6]
    else if len > 0x1000000 then .pldm 0x514 [0, 1]
    else .all [
      .of fun d => { d with se := { d.se with image := [], imageLen := len } },
      .flashSlot none, .updState .download, .pldm 0x514 [0, 0]]))

/-- REQUEST_FIRMWARE_DATA (R416): a part of the image arrives. -/
def execRequestFirmwareData (offset : Nat) (data : List Byte) (s : State) : Host.Outcome State Fault Refusal :=
  s.act (.requestFirmwareData offset data) (.message true (.read fun d =>
    .when (d.se.upd = .download && offset + data.length ≤ d.se.imageLen) (.of fun d =>
      let bytes := ((List.range data.length).zip data).foldl (fun m p => put m (offset + p.1) p.2 0) d.se.image
      { d with se := { d.se with image := bytes } })))

/-- TRANSFER_COMPLETE (R416): the whole image has arrived, or the transfer has failed. -/
def execTransferComplete (ok : Bool) (s : State) : Host.Outcome State Fault Refusal :=
  s.act (.transferComplete ok) (.update 0x16 (· = .download) 0x80 (.all [
    .updState (if ok then .verify else .readyXfer), .pldm 0x516 [if ok then 0 else 1]]))

/-- The image received. -/
def Device.received (d : Device) : List Byte := (List.range d.se.imageLen).map fun i => look d.se.image i 0

/-- VERIFY_COMPLETE (R411, R416): the image in flash is checked; a failure is reported with VerifyResult 0x01. -/
def execVerifyComplete (s : State) : Host.Outcome State Fault Refusal :=
  s.act .verifyComplete (.update 0x17 (· = .verify) 0x80 (.read fun d =>
    if (readFirmware d.received).any d.verifies then .all [.updState .apply, .pldm 0x517 [0]]
    else .all [.updState .readyXfer, .pldm 0x517 [1]]))

/-- APPLY_COMPLETE (R416 step 4): the header is written. -/
def execApplyComplete (s : State) : Host.Outcome State Fault Refusal :=
  s.act .applyComplete (.update 0x18 (· = .apply) 0x80 (.read fun d => .all [
    .flashSlot (readFirmware d.received), .updState .activate, .pldm 0x518 [0]]))

/-- ACTIVATE_FIRMWARE (R416 step 4): accepted with SelfContainedActivationRequest cleared, and answered with when activation takes place,
1 for the next PERST#; set, it is refused (0x8C, PRESUMED, log 163). -/
def execActivateFirmware (s : State) (selfContained : Bool := false) : Host.Outcome State Fault Refusal :=
  s.act (.activateFirmware selfContained) (.update 0x1A (· = .activate) 0x80 (
    if selfContained then .pldm 0x51A [0x8C] else .all [.updState .idle, .pldm 0x51A [0, 1]]))

/-- GET_STATUS (R416). -/
def execGetStatus (s : State) : Host.Outcome State Fault Refusal :=
  s.act .getStatus (.message true (.read fun d => .pldm 0x51B [0, BitVec.ofNat 8 d.se.upd.code]))

/-- CANCEL_UPDATE_COMPONENT (R416): the target keeps no valid header. -/
def execCancelUpdateComponent (s : State) : Host.Outcome State Fault Refusal :=
  s.act .cancelUpdateComponent (.update 0x1C (fun u => u = .download || u = .verify || u = .apply) 0x80
    (.all [.updState .readyXfer, .pldm 0x51C [0]]))

/-- CANCEL_UPDATE (R416). -/
def execCancelUpdate (s : State) : Host.Outcome State Fault Refusal :=
  s.act .cancelUpdate (.update 0x1D (· ≠ .idle) 0x80 (.all [.updState .idle, .pldm 0x51D [0]]))

/-- SET_EVENT_RECEIVER (R427): events are enabled or disabled. -/
def execSetEventReceiver (on : Bool) (s : State) : Host.Outcome State Fault Refusal :=
  s.act (.setEventReceiver on) (.message false (.all [.of fun d => { d with se := { d.se with events := on } }, .pldm 0x204 [0]]))

/-- SET_NUMERIC_SENSOR_ENABLE (R427): the events of one sensor. -/
def execSetNumericSensorEnable (sensor : Nat) (on : Bool) (s : State) : Host.Outcome State Fault Refusal :=
  s.act (.setNumericSensorEnable sensor on) (.message false (.all [
    .of fun d =>
      let rest := d.se.sensorOff.filter (· ≠ sensor)
      { d with se := { d.se with sensorOff := if on then rest else rest ++ [sensor] } },
    .pldm 0x210 [0]]))

/-- PLDM_TYPE_DISCOVERY (R427): GetPLDMTypes (0x04) answers types 0, 2 and 5; GetPLDMVersion (0x03) is answered for each; another
command with ERROR_UNSUPPORTED_PLDM_CMD (0x05). -/
def execPldmTypeDiscovery (cmd : Nat) (s : State) : Host.Outcome State Fault Refusal :=
  s.act (.pldmTypeDiscovery cmd) (.message false (
    .pldm (cmd % 256) (if cmd = 0x04 then [0, 0x25] else if 0x02 ≤ cmd ∧ cmd ≤ 0x05 then [0] else [5])))

end Sys2Proof.Machine
end

