-- ==== Sys2Proof/Machine/Dispatch.lean ====
section
/-! DEFINITION. The dispatch of commands to their meanings: one arm per command. -/

namespace Sys2Proof.Machine

/-- What a command does to everything but the queue. -/
def exec (i : Instr) (s : State) : Host.Outcome State Fault Refusal :=
  match i with
  | .nop e n => Sys2Proof.Machine.execNop e n s
  | .matmul e n rows => Sys2Proof.Machine.execMatmul e n s rows
  | .fused e n => Sys2Proof.Machine.execFused e n s
  | .attnPrefill e n => Sys2Proof.Machine.execAttnPrefill e n s
  | .attnDecode e n => Sys2Proof.Machine.execAttnDecode e n s
  | .kvAppend e n => Sys2Proof.Machine.execKvAppend e n s
  | .kvFork e n => Sys2Proof.Machine.execKvFork e n s
  | .kvFree e n => Sys2Proof.Machine.execKvFree e n s
  | .norm e n => Sys2Proof.Machine.execNorm e n s
  | .softmax e n => Sys2Proof.Machine.execSoftmax e n s
  | .sample e n => Sys2Proof.Machine.execSample e n s
  | .copy e n => Sys2Proof.Machine.execCopy e n s
  | .transpose e n => Sys2Proof.Machine.execTranspose e n s
  | .rope e n => Sys2Proof.Machine.execRope e n s
  | .microprog e n => Sys2Proof.Machine.execMicroprog e n s
  | .weightLoad e n => Sys2Proof.Machine.execWeightLoad e n s
  | .adopt e n => Sys2Proof.Machine.execAdopt e n s
  | .freeEpoch e n => Sys2Proof.Machine.execFreeEpoch e n s
  | .freeSet e n => Sys2Proof.Machine.execFreeSet e n s
  | .adapterLoad e n => Sys2Proof.Machine.execAdapterLoad e n s
  | .adapterFree e n => Sys2Proof.Machine.execAdapterFree e n s
  | .adapterBind e n => Sys2Proof.Machine.execAdapterBind e n s
  | .bellSignal e n => Sys2Proof.Machine.execBellSignal e n s
  | .bellWait e n => Sys2Proof.Machine.execBellWait e n s
  | .loadSel e n => Sys2Proof.Machine.execLoadSel e n s
  | .clearCounters e n => Sys2Proof.Machine.execClearCounters e n s
  | .marker e n => Sys2Proof.Machine.execMarker e n s
  | .matchCounter e n => Sys2Proof.Machine.execMatchCounter e n s
  | .openSession e n => Sys2Proof.Machine.execOpenSession e n s
  | .addRange e n => Sys2Proof.Machine.execAddRange e n s
  | .addSet e n => Sys2Proof.Machine.execAddSet e n s
  | .seal e n => Sys2Proof.Machine.execSeal e n s
  | .u4Gemm e n rows => Sys2Proof.Machine.execU4Gemm e n s rows
  | .u4Copy e n => Sys2Proof.Machine.execU4Copy e n s
  | .u4BellAdd e n => Sys2Proof.Machine.execU4BellAdd e n s
  | .u4BellWait e n => Sys2Proof.Machine.execU4BellWait e n s
  | .doorbell fn e data entry => Sys2Proof.Machine.execDoorbell fn e data s entry
  | .descriptorFetch e slot => Sys2Proof.Machine.execDescriptorFetch e slot s
  | .descriptorArrive e slot data tlp => Sys2Proof.Machine.execDescriptorArrive e slot data s tlp
  | .taborPrefetch e slot => Sys2Proof.Machine.execTaborPrefetch e slot s
  | .commandIssue e => Sys2Proof.Machine.execCommandIssue e s
  | .tileIssue e => Sys2Proof.Machine.execTileIssue e s
  | .tileBoundary e => Sys2Proof.Machine.execTileBoundary e s
  | .commandEnd e slot => Sys2Proof.Machine.execCommandEnd e slot s
  | .recordCheck e entry ok tlp => Sys2Proof.Machine.execRecordCheck e entry ok s tlp
  | .bind fn e slot data => Sys2Proof.Machine.execBind fn e slot data s
  | .start fn e slot => Sys2Proof.Machine.execStart fn e slot s
  | .stop fn e slot => Sys2Proof.Machine.execStop fn e slot s
  | .resume fn e slot => Sys2Proof.Machine.execResume fn e slot s
  | .flush fn e slot => Sys2Proof.Machine.execFlush fn e slot s
  | .flushDone e slot => Sys2Proof.Machine.execFlushDone e slot s
  | .unbind fn e slot => Sys2Proof.Machine.execUnbind fn e slot s
  | .shadowAck fn e data => Sys2Proof.Machine.execShadowAck fn e data s
  | .ctxKill fn data => Sys2Proof.Machine.execCtxKill fn data s
  | .ctxEnable fn data => Sys2Proof.Machine.execCtxEnable fn data s
  | .relayCredit e relay n => Sys2Proof.Machine.execRelayCredit e relay n s
  | .bellWaitTimeout e slot => Sys2Proof.Machine.execBellWaitTimeout e slot s
  | .passIssue e c rate tileK tileN rows accIn groupBase final => Sys2Proof.Machine.execPassIssue e c rate tileK tileN rows accIn groupBase s final
  | .rampStep e c => Sys2Proof.Machine.execRampStep e c s
  | .idleHoldExpiry e c => Sys2Proof.Machine.execIdleHoldExpiry e c s
  | .arrayRowEnter e c => Sys2Proof.Machine.execArrayRowEnter e c s
  | .arrayFreeze e c act shd drn => Sys2Proof.Machine.execArrayFreeze e c act shd drn s
  | .shadowLoad e c ok => Sys2Proof.Machine.execShadowLoad e c ok s
  | .redecode e c ok => Sys2Proof.Machine.execRedecode e c ok s
  | .rowCommit e c freed => Sys2Proof.Machine.execRowCommit e c s freed
  | .arrClrCounters fn e c data => Sys2Proof.Machine.execArrClrCounters fn e c data s
  | .vecClrCounters fn e c data => Sys2Proof.Machine.execVecClrCounters fn e c data s
  | .sfuClrCounters fn e c data => Sys2Proof.Machine.execSfuClrCounters fn e c data s
  | .expClrCounters fn e c data => Sys2Proof.Machine.execExpClrCounters fn e c data s
  | .engClrCounters fn e data => Sys2Proof.Machine.execEngClrCounters fn e data s
  | .belClrCounters fn region data => Sys2Proof.Machine.execBelClrCounters fn region data s
  | .dgsClrCounters fn data => Sys2Proof.Machine.execDgsClrCounters fn data s
  | .nocClrCounters fn die data => Sys2Proof.Machine.execNocClrCounters fn die data s
  | .microprogRegister => Sys2Proof.Machine.execMicroprogRegister s
  | .microprogUnregister => Sys2Proof.Machine.execMicroprogUnregister s
  | .microprogLoaded index => Sys2Proof.Machine.execMicroprogLoaded index s
  | .ustoreRewriteDone region index => Sys2Proof.Machine.execUstoreRewriteDone region index s
  | .alloc e slot => Sys2Proof.Machine.execAlloc e slot s
  | .commit e slot => Sys2Proof.Machine.execCommit e slot s
  | .lease e slot => Sys2Proof.Machine.execLease e slot s
  | .unlease e slot => Sys2Proof.Machine.execUnlease e slot s
  | .share e slot => Sys2Proof.Machine.execShare e slot s
  | .drop e slot => Sys2Proof.Machine.execDrop e slot s
  | .lookup e slot => Sys2Proof.Machine.execLookup e slot s
  | .kvpEnable fn region data => Sys2Proof.Machine.execKvpEnable fn region data s
  | .decayAdvance region => Sys2Proof.Machine.execDecayAdvance region s
  | .demotionScan region => Sys2Proof.Machine.execDemotionScan region s
  | .migrationStart region page => Sys2Proof.Machine.execMigrationStart region page s
  | .migrationExchange region page => Sys2Proof.Machine.execMigrationExchange region page s
  | .commandBoundary e => Sys2Proof.Machine.execCommandBoundary e s
  | .epochRefIncrement set slot => Sys2Proof.Machine.execEpochRefIncrement set slot s
  | .epochRefDecrement set slot => Sys2Proof.Machine.execEpochRefDecrement set slot s
  | .fetchTimeout e slot => Sys2Proof.Machine.execFetchTimeout e slot s
  | .wgtEnable fn data => Sys2Proof.Machine.execWgtEnable fn data s
  | .memoryRead pa len key => Sys2Proof.Machine.execMemoryRead pa len key s
  | .memoryWrite pa data key => Sys2Proof.Machine.execMemoryWrite pa data key s
  | .patrolScrub ctl => Sys2Proof.Machine.execPatrolScrub ctl s
  | .spareReq fn ctl data => Sys2Proof.Machine.execSpareReq fn ctl data s
  | .spareDone ctl => Sys2Proof.Machine.execSpareDone ctl s
  | .pageWalk e ctx va stream => Sys2Proof.Machine.execPageWalk e ctx va s stream
  | .walkComplete region walker => Sys2Proof.Machine.execWalkComplete region walker s
  | .invalidation fn data entry => Sys2Proof.Machine.execInvalidation fn data s entry
  | .invalidationDone => Sys2Proof.Machine.execInvalidationDone s
  | .xltFlush fn e data => Sys2Proof.Machine.execXltFlush fn e data s
  | .atsTranslationCompletion fn addr ok target log2 rd wr tlp => Sys2Proof.Machine.execAtsTranslationCompletion fn addr ok target log2 rd wr s tlp
  | .atsInvalidationRequest fn tag addr log2 => Sys2Proof.Machine.execAtsInvalidationRequest fn tag addr log2 s
  | .atsInvalidationCompletion fn tag => Sys2Proof.Machine.execAtsInvalidationCompletion fn tag s
  | .pcieCompletion id ok data tlp => Sys2Proof.Machine.execPcieCompletion id ok data s tlp
  | .completionTimeout id => Sys2Proof.Machine.execCompletionTimeout id s
  | .inCfg fn data => Sys2Proof.Machine.execInCfg fn data s
  | .faultRecord region => Sys2Proof.Machine.execFaultRecord region s
  | .fltTailWrite fn region data => Sys2Proof.Machine.execFltTailWrite fn region data s
  | .fltEnable fn region data => Sys2Proof.Machine.execFltEnable fn region data s
  | .deviceLogEntry => Sys2Proof.Machine.execDeviceLogEntry s
  | .nocRetransmit die link fails => Sys2Proof.Machine.execNocRetransmit die link fails s
  | .signal src dst fails => Sys2Proof.Machine.execSignal src dst fails s
  | .add src dst fails => Sys2Proof.Machine.execAdd src dst fails s
  | .watch src dst fails => Sys2Proof.Machine.execWatch src dst fails s
  | .unwatch src dst fails => Sys2Proof.Machine.execUnwatch src dst fails s
  | .wake src dst fails => Sys2Proof.Machine.execWake src dst fails s
  | .carillonCreditReturn e dst => Sys2Proof.Machine.execCarillonCreditReturn e dst s
  | .wakeCreditReturn src dst => Sys2Proof.Machine.execWakeCreditReturn src dst s
  | .bellReset fn region data => Sys2Proof.Machine.execBellReset fn region data s
  | .belOpSignal fn region data => Sys2Proof.Machine.execBelOpSignal fn region data s
  | .bellRestore fn region data => Sys2Proof.Machine.execBellRestore fn region data s
  | .dataFlit port head packets => Sys2Proof.Machine.execDataFlit port head packets s
  | .nak port seq head => Sys2Proof.Machine.execNak port seq s head
  | .retrainDone port => Sys2Proof.Machine.execRetrainDone port s
  | .replayExpiry port => Sys2Proof.Machine.execReplayExpiry port s
  | .macFlit port head ok counter => Sys2Proof.Machine.execMacFlit port head s ok counter
  | .keyChange port head => Sys2Proof.Machine.execKeyChange port s head
  | .writeReq port src seq window offset data => Sys2Proof.Machine.execWriteReq port src seq window offset data s
  | .readReq port src seq window offset len => Sys2Proof.Machine.execReadReq port src seq window offset len s
  | .bellReq port src seq index value => Sys2Proof.Machine.execBellReq port src seq index value s
  | .readData port src seq data => Sys2Proof.Machine.execReadData port src seq data s
  | .ack port src seq => Sys2Proof.Machine.execAck port src seq s
  | .hold port src seq => Sys2Proof.Machine.execHold port src seq s
  | .reject port src seq reason => Sys2Proof.Machine.execReject port src seq reason s
  | .e2eTimeout id => Sys2Proof.Machine.execE2eTimeout id s
  | .writeRetire id => Sys2Proof.Machine.execWriteRetire id s
  | .holdOn port src head => Sys2Proof.Machine.execHoldOn port src s head
  | .holdOff port src head => Sys2Proof.Machine.execHoldOff port src s head
  | .peerSilent peer => Sys2Proof.Machine.execPeerSilent peer s
  | .peerLost peer => Sys2Proof.Machine.execPeerLost peer s
  | .peerClear fn data => Sys2Proof.Machine.execPeerClear fn data s
  | .release fn data => Sys2Proof.Machine.execRelease fn data s
  | .portEnable fn port data => Sys2Proof.Machine.execPortEnable fn port data s
  | .portRetrain fn port data => Sys2Proof.Machine.execPortRetrain fn port data s
  | .portTrained port ok sw lanes partner healthy => Sys2Proof.Machine.execPortTrained port ok sw lanes partner s healthy
  | .counterMatch e counter => Sys2Proof.Machine.execCounterMatch e counter s
  | .matchArm fn e data => Sys2Proof.Machine.execMatchArm fn e data s
  | .cntClear fn e data => Sys2Proof.Machine.execCntClear fn e data s
  | .selectionApply e => Sys2Proof.Machine.execSelectionApply e s
  | .traceRecord region => Sys2Proof.Machine.execTraceRecord region s
  | .traceEnable fn region data => Sys2Proof.Machine.execTraceEnable fn region data s
  | .trigger fn region data => Sys2Proof.Machine.execTrigger fn region data s
  | .traceDump fn region data => Sys2Proof.Machine.execTraceDump fn region data s
  | .dumpDone region => Sys2Proof.Machine.execDumpDone region s
  | .gongRaise fn data => Sys2Proof.Machine.execGongRaise fn data s
  | .gongCut => Sys2Proof.Machine.execGongCut s
  | .gongResume fn data => Sys2Proof.Machine.execGongResume fn data s
  | .managementTick => Sys2Proof.Machine.execManagementTick s
  | .avsAck region => Sys2Proof.Machine.execAvsAck region s
  | .avsTimeout region => Sys2Proof.Machine.execAvsTimeout region s
  | .powerWindow e power => Sys2Proof.Machine.execPowerWindow e power s
  | .temperatureSample die temps => Sys2Proof.Machine.execTemperatureSample die temps s
  | .watchdog e => Sys2Proof.Machine.execWatchdog e s
  | .engineReset e failure => Sys2Proof.Machine.execEngineReset e s failure
  | .quiesceTimeout e => Sys2Proof.Machine.execQuiesceTimeout e s
  | .resetReq fn e data => Sys2Proof.Machine.execResetReq fn e data s
  | .replayStart e => Sys2Proof.Machine.execReplayStart e s
  | .replayLimit e => Sys2Proof.Machine.execReplayLimit e s
  | .devReset fn data => Sys2Proof.Machine.execDevReset fn data s
  | .deviceReset => Sys2Proof.Machine.execDeviceReset s
  | .deviceResetDone => Sys2Proof.Machine.execDeviceResetDone s
  | .flr fn => Sys2Proof.Machine.execFlr fn s
  | .vfEnableClear => Sys2Proof.Machine.execVfEnableClear s
  | .hotReset => Sys2Proof.Machine.execHotReset s
  | .clockLoss clock => Sys2Proof.Machine.execClockLoss clock s
  | .clockReturn clock => Sys2Proof.Machine.execClockReturn clock s
  | .perstAssert nanos => Sys2Proof.Machine.execPerstAssert nanos s
  | .perstRelease => Sys2Proof.Machine.execPerstRelease s
  | .bar2Read fn addr len tlp => Sys2Proof.Machine.execBar2Read fn addr len s tlp
  | .bar2Write fn addr data tlp => Sys2Proof.Machine.execBar2Write fn addr data s tlp
  | .registerWrite fn addr data tlp => Sys2Proof.Machine.execRegisterWrite fn addr data s tlp
  | .errStatusClear fn page data => Sys2Proof.Machine.execErrStatusClear fn page data s
  | .errInject fn page data => Sys2Proof.Machine.execErrInject fn page data s
  | .vfMap fn data => Sys2Proof.Machine.execVfMap fn data s
  | .msixUnmask fn vector => Sys2Proof.Machine.execMsixUnmask fn vector s
  | .keyProg stream keySet part => Sys2Proof.Machine.execKeyProg stream keySet s part
  | .kSetGo stream keySet => Sys2Proof.Machine.execKSetGo stream keySet s
  | .kSetStop stream keySet => Sys2Proof.Machine.execKSetStop stream keySet s
  | .lockInterface vf stream healthy => Sys2Proof.Machine.execLockInterface vf stream s healthy
  | .startInterface vf nonceOk => Sys2Proof.Machine.execStartInterface vf nonceOk s
  | .stopInterface vf => Sys2Proof.Machine.execStopInterface vf s
  | .getVersion session => Sys2Proof.Machine.execGetVersion session s
  | .getCapabilities session version => Sys2Proof.Machine.execGetCapabilities session s version
  | .negotiateAlgorithms session supported => Sys2Proof.Machine.execNegotiateAlgorithms session supported s
  | .getDigests session => Sys2Proof.Machine.execGetDigests session s
  | .getCertificate session chain => Sys2Proof.Machine.execGetCertificate session chain s
  | .challenge session nonce slot => Sys2Proof.Machine.execChallenge session nonce s slot
  | .getMeasurements session index signed nonce slot => Sys2Proof.Machine.execGetMeasurements session index signed nonce s slot
  | .keyExchange id slot healthy => Sys2Proof.Machine.execKeyExchange id s slot healthy
  | .finish id ok => Sys2Proof.Machine.execFinish id ok s
  | .keyUpdate id healthy => Sys2Proof.Machine.execKeyUpdate id s healthy
  | .heartbeat id => Sys2Proof.Machine.execHeartbeat id s
  | .endSession id => Sys2Proof.Machine.execEndSession id s
  | .setEndpointId eid => Sys2Proof.Machine.execSetEndpointId eid s
  | .queryDeviceIdentifiers => Sys2Proof.Machine.execQueryDeviceIdentifiers s
  | .getFirmwareParameters => Sys2Proof.Machine.execGetFirmwareParameters s
  | .requestUpdate => Sys2Proof.Machine.execRequestUpdate s
  | .passComponentTable gen cls identifier => Sys2Proof.Machine.execPassComponentTable gen s cls identifier
  | .updateComponent len cls identifier => Sys2Proof.Machine.execUpdateComponent len s cls identifier
  | .requestFirmwareData offset data => Sys2Proof.Machine.execRequestFirmwareData offset data s
  | .transferComplete ok => Sys2Proof.Machine.execTransferComplete ok s
  | .verifyComplete => Sys2Proof.Machine.execVerifyComplete s
  | .applyComplete => Sys2Proof.Machine.execApplyComplete s
  | .activateFirmware selfContained => Sys2Proof.Machine.execActivateFirmware s selfContained
  | .getStatus => Sys2Proof.Machine.execGetStatus s
  | .cancelUpdateComponent => Sys2Proof.Machine.execCancelUpdateComponent s
  | .cancelUpdate => Sys2Proof.Machine.execCancelUpdate s
  | .setEventReceiver on => Sys2Proof.Machine.execSetEventReceiver on s
  | .setNumericSensorEnable sensor on => Sys2Proof.Machine.execSetNumericSensorEnable sensor on s
  | .pldmTypeDiscovery cmd => Sys2Proof.Machine.execPldmTypeDiscovery cmd s
  | .svnCommit fn data => Sys2Proof.Machine.execSvnCommit fn data s
  | .generate ok => Sys2Proof.Machine.execGenerate ok s
  | .erase => Sys2Proof.Machine.execErase s
  | .dbgChallenge => Sys2Proof.Machine.execDbgChallenge s
  | .dbgUnlock healthy => Sys2Proof.Machine.execDbgUnlock s healthy
  | .powerOn => Sys2Proof.Machine.execPowerOn s
  | .powerOff => Sys2Proof.Machine.execPowerOff s
  | .laneDown port => Sys2Proof.Machine.execLaneDown port s
  | .idleFlit port ackSeq vc credit good => Sys2Proof.Machine.execIdleFlit port ackSeq vc credit good s
  | .holdBeacon => Sys2Proof.Machine.execHoldBeacon s
  | .dgsAnswer => Sys2Proof.Machine.execDgsAnswer s
  | .pcieLinkTrained rate width flit ats => Sys2Proof.Machine.execPcieLinkTrained rate width flit s ats
  | .vfEnable count bar2Log2 ats => Sys2Proof.Machine.execVfEnable count bar2Log2 s ats
  | .registerRead fn addr tlp => Sys2Proof.Machine.execRegisterRead fn addr s tlp

end Sys2Proof.Machine
end

