-- ==== Sys2Proof/Machine/Step.lean ====
section
/-! DEFINITION. One step: the command at the front of the queue takes effect, or, with an empty queue, time passes. -/

namespace Sys2Proof.Machine

/-- With no command waiting the block idles, and the timestamp advances one tick while the part is powered (R331;
log 1). -/
def idle (s : State) : State :=
  if s.dev.clk.power = .off then s
  else { s with dev := { s.dev with clk := { s.dev.clk with time := s.dev.clk.time + 1 } } }

/-- One step. -/
def step (s : State) : Host.Outcome State Fault Refusal :=
  match s.pending with
  | [] => .next (idle s)
  | i :: rest => exec i { s with pending := rest }

/-- The state with the command that a word spells at the front of the queue: no word spells one, so s itself. -/
def State.withFetchWord (s : State) (nbits w : Nat) : State :=
  match decodeTableWord nbits w with
  | none => s
  | some i => { s with pending := i :: s.pending }

end Sys2Proof.Machine
end

