-- ==== Sys2Proof/Safety.lean ====
section
/-! DEFINITION. What every run keeps, and the terms in which statements speak of the device. -/

namespace Sys2Proof.Machine

/-- The invariant of a state: its device keeps Wf. -/
def State.Inv (s : State) : Prop := Wf s.dev

/-- The memory is in canonical form: addresses strictly rising, and no byte listed that an unlisted address reads as
(zero, R462). -/
abbrev Memory.wf (m : Memory) : Prop := Canon (fun _ => (0 : Byte)) m.cells

/-! ### Requests from the host -/

/-- What arrives for a function passes the check of its IDE stream, and no failure of it is injected (R399, R361). -/
def Device.receives (d : Device) (fn : Nat) : Bool :=
  if (d.ide (d.streamOf fn)).secure then !d.isArmed pcxPage 3 else d.streamOf fn == 0 && !(d.ide (d.streamOf fn)).failed

/-- A register write of a function reaches its register: the link is up (R391) and the function in D0 (R384), its stream passes what
arrives (R399), and no injection of a link between dies is armed (R26). -/
def Device.accepts (d : Device) (fn : Nat) : Bool := d.linkUp && d.awake fn && d.routesClear && d.receives fn

/-- The device once it has counted the 4 bytes of a register write (PCX.RX_BYTES). -/
def Device.rx (d : Device) : Device :=
  { d with rf := { d.rf with ctrs := put d.rf.ctrs (pcxPage + 0x80) (d.ctr (pcxPage + 0x80) + 4) 0 } }

/-- An operation of a slot takes effect at once
(R257, R350, R373). -/
def Device.opsNow (d : Device) (fn e k : Nat) : Bool :=
  d.up && d.unheld && d.blockOn e && d.reachesSlot fn e k && !d.resetDue e && (d.eng e).rst == .running

/-! ### The device with one thing replaced -/

/-- A queue slot replaced. -/
def Device.withSlot (d : Device) (e k : Nat) (x : Slot) : Device :=
  { d with q := { d.q with slots := put d.q.slots (e * 8 + k) x {} } }

/-- An engine replaced. -/
def Device.withEng (d : Device) (e : Nat) (x : Engine) : Device := { d with q := { d.q with engines := put d.q.engines e x {} } }

/-- A cell's array replaced. -/
def Device.withCell (d : Device) (e c : Nat) (x : Cell) : Device := { d with q := { d.q with cells := put d.q.cells (e * 4 + c) x {} } }

/-- A context replaced. -/
def Device.withCtx (d : Device) (c : Nat) (x : Ctx) : Device := { d with q := { d.q with ctxs := put d.q.ctxs c x {} } }

/-- A stored register replaced. -/
def Device.withReg (d : Device) (a : Nat) (v : Word) : Device :=
  { d with rf := { d.rf with regs := put d.rf.regs a v (resetWord a) } }

/-- A 64-bit counter replaced. -/
def Device.withCtr (d : Device) (a : Nat) (v : Word64) : Device := { d with rf := { d.rf with ctrs := put d.rf.ctrs a v 0 } }

/-- A port of the links replaced. -/
def Device.withPort (d : Device) (p : Nat) (x : Port) : Device := { d with lk := { d.lk with ports := put d.lk.ports p x {} } }

/-- The requests that await an answer replaced. -/
def Device.withReqs (d : Device) (l : List Req) : Device := { d with lk := { d.lk with reqs := l } }

/-- A peer's state replaced, with the time at which it was entered. -/
def Device.withPeer (d : Device) (p : Nat) (st : PeerState) (t : Word64) : Device :=
  { d with lk := { d.lk with peers := put d.lk.peers p (st, t) (.normal, 0) } }

/-- An IDE stream replaced. -/
def Device.withIde (d : Device) (k : Nat) (x : Ide) : Device := { d with ho := { d.ho with ide := put d.ho.ide k x {} } }

/-- A virtual function replaced. -/
def Device.withVf (d : Device) (fn : Nat) (x : Vf) : Device := { d with ho := { d.ho with vfs := put d.ho.vfs fn x {} } }

/-- The management plane changed. -/
def Device.withSe (d : Device) (f : Security → Security) : Device := { d with se := f d.se }

/-- A response on its way to a requester, if a port leads there (R301). -/
def Device.responding (d : Device) (dst type seq len : Nat) (data : List Byte) : Device := (Upd.respond dst type seq len data).run d

/-- An answer sent to the management controller or the SPDM requester. -/
def Device.answering (d : Device) (kind code : Nat) (data : List Byte) : Device :=
  { d with ho := { d.ho with sent := .answer kind code data :: d.ho.sent } }

/-- The queues, the memory bytes, the clocks, the fuses and the units of the data plane: all that signalling, counting and
access bookkeeping leave alone. -/
def Device.core (d : Device) : Queues × Sparse Byte × Clocks × Fuses × Translation × Sfu × Sparse Pool × Weights × Bells × Links × Security :=
  (d.q, d.mm.cells, d.clk, d.fuses, d.xl, d.sfu, d.kv, d.wt, d.bl, d.lk, d.se)

/-! ### Rows of the command table that carry out tiles -/

/-- A tile function for one op of an opcode that has several (R248, R325, R337). -/
def onlyOp (op : Nat) (f : Device → Env → TileRes) (d : Device) (v : Env) : TileRes := if v.fld 32 1 = op then f d v else .wait .skip

/-- A row that carries out the tiles of an engine's running command: the command, the opcodes it serves, what a tile does,
and the units it uses. -/
structure TileRow where
  cmd : Nat → Nat → Instr
  ops : List Nat
  tile : Device → Env → TileRes
  units : Units

/-- A row whose tiles use no unit that an injection meets. -/
def plainRow (cmd : Nat → Nat → Instr) (op : Nat) (tile : Device → Env → TileRes) : TileRow := ⟨cmd, [op], tile, {}⟩

/-- The rows that carry out tiles, those of MATMUL and U4_GEMM of up to limit rows each (R79). -/
def tileRows (limit : Nat) : List TileRow := [
  plainRow .nop opNop fun _ _ => .last .skip, ⟨fun e n => .matmul e n limit, [opMatmul], tileMatmul limit, matUnits limit⟩, ⟨.fused, [opFused], tileFused, fusedUnits⟩,
  ⟨.attnPrefill, [opPrefill], tileAttn, attnUnits⟩, ⟨.attnDecode, [opDecode], tileAttn, attnUnits⟩,
  ⟨.kvAppend, [opAppend], tileAppend, appendUnits⟩, plainRow .kvFork opFork tileFork, plainRow .kvFree opFree tileFree,
  ⟨.norm, [opNorm], tileNorm, rowUnits⟩, ⟨.softmax, [opSoftmax], tileSoftmax, rowUnits⟩, ⟨.sample, [opSample], tileSample, rowUnits⟩,
  ⟨.rope, [opRope], tileRope, rowUnits⟩, ⟨.microprog, [opMicroprog], tileMicro, rowUnits⟩,
  plainRow .copy opCopy tileCopy, plainRow .transpose opTranspose tileTranspose, plainRow .weightLoad opWeight (onlyOp 1 tileLoad),
  plainRow .adopt opWeight (onlyOp 2 tileAdopt), plainRow .freeEpoch opWeight (onlyOp 3 tileFreeEpoch),
  plainRow .freeSet opWeight (onlyOp 4 tileFreeSet), plainRow .adapterLoad opWeight (onlyOp 5 tileLoad),
  plainRow .adapterFree opWeight (onlyOp 6 tileAdapterFree), plainRow .adapterBind opBind tileAdapterBind,
  plainRow .bellSignal opSignal tileSignal, plainRow .loadSel opCounter (onlyOp 1 tileLoadSel),
  plainRow .clearCounters opCounter (onlyOp 2 fun _ _ => .last .skip), plainRow .marker opCounter (onlyOp 3 tileMarker),
  plainRow .matchCounter opCounter (onlyOp 4 tileMatch), plainRow .openSession opDigest (onlyOp 1 tileDigest),
  plainRow .addRange opDigest (onlyOp 2 tileDigest), plainRow .addSet opDigest (onlyOp 3 tileDigest),
  plainRow .seal opDigest (onlyOp 4 tileDigest), ⟨fun e n => .u4Gemm e n limit, [opU4Gemm], tileMatmul limit, matUnits limit⟩, plainRow .u4Copy opU4Copy tileCopy,
  plainRow .u4BellAdd opU4Add tileAdd]

end Sys2Proof.Machine
end

