-- ==== Sys2Proof/Certificates/Slice0/Obligations.lean ====
section
/-! DEFINITION. The statements for the provers: what the commands, the step and the device do, by the numbered rules of spec/. -/

open Sys2Proof Sys2Proof.Machine

/-- A step takes the command at the front of the queue; an empty queue lets time pass. With command c at the front of the queue, step is exec of c on
the state with the rest of the queue. On an empty queue the block idles: the device timestamp counts one tick, and while the device is unpowered
nothing changes. The queue and the idle tick are the model's own (log 1). (R14, R331) -/
def Obligations.StepRunsTheFront : Prop :=
  (∀ (c : Instr) (s : State), step { s with pending := c :: s.pending } = exec c s) ∧
  (∀ s : State, s.pending = [] → s.dev.clk.power = .off → step s = .next s) ∧
  (∀ s : State, s.pending = [] → s.dev.clk.power ≠ .off →
    step s = .next { s with dev := { s.dev with clk := { s.dev.clk with time := s.dev.clk.time + 1 } } })


/-- Every command but PERST_ASSERT completes in every state. From every state and with any operands, every command other than PERST_ASSERT answers a
next state, and leaves the queue as it was: no command faults or is refused. (R439, R352) -/
def Obligations.CommandsAnswer : Prop :=
  ∀ (c : Instr) (s : State), (∀ n, c ≠ .perstAssert n) → ∃ t, exec c s = .next t ∧ t.pending = s.pending


/-- The state after reset keeps the invariant. At reset the memory is in canonical form, holds bytes only where memory is populated, and the sparse
tables of registers, bells and key generations are canonical. (R208, R209, R217) -/
def Obligations.ResetInvariant : Prop := State.reset.Inv


/-- Every step keeps the invariant of the state. From every state that keeps the invariant (not only those a run reaches), whatever command is in
front, a step that answers a next state leaves one that keeps it: the memory's canonical form, no byte outside populated memory, canonical
register, bell and key tables. (R208, R209, R217) -/
def Obligations.StepKeepsInvariant : Prop := ∀ s t : State, s.Inv → step s = .next t → t.Inv


/-- No step clears a fuse. For every step of every state: the harvest and column maps, the disabled set, the serial number and the wrapped
attestation keys are unchanged, the anti-rollback counter never falls, a revoke bit that is set stays set, and row repairs are only added. (R406) -/
def Obligations.FusesStayBlown : Prop :=
  ∀ s t : State, step s = .next t →
    t.dev.fuses.harvested = s.dev.fuses.harvested ∧ t.dev.fuses.disabled = s.dev.fuses.disabled ∧ t.dev.fuses.badMap = s.dev.fuses.badMap ∧
    t.dev.fuses.colMap = s.dev.fuses.colMap ∧ t.dev.fuses.serial = s.dev.fuses.serial ∧ t.dev.fuses.wrapped = s.dev.fuses.wrapped ∧ s.dev.fuses.svn ≤ t.dev.fuses.svn ∧
    (∀ i, s.dev.fuses.revoked.getLsbD i = true → t.dev.fuses.revoked.getLsbD i = true) ∧
    ∃ l, t.dev.fuses.repairs = s.dev.fuses.repairs ++ l


/-- PERST#: ignored, undefined or a full reset, by its duration. While power is on and the device has not tripped: an assertion shorter than 10 us
(10,000 ns) changes nothing; one from 10 us to below 100 us, which the rule calls undefined, is the fault undefinedPerst; one of at least 100 us
holds the device in PERST, with memory, keys, queues, bells, links and translation state gone, every register but those listed at its reset
value, and fuses, time and the device log kept; detected records move to the log's queue. Completes, by their own effect and under conditions on
the state and operands alone: PERST_ASSERT. (R439, R377, R413) -/
def Obligations.PerstDuration : Prop :=
  ∀ (n : Nat) (s : State), s.dev.clk.power ≠ .off → s.dev.clk.power ≠ .tripped →
    (n < 10000 → exec (.perstAssert n) s = .next s) ∧
    (10000 ≤ n → n < 100000 → exec (.perstAssert n) s = .fault .undefinedPerst) ∧
    (100000 ≤ n → ∃ t, exec (.perstAssert n) s = .next t ∧ t.pending = s.pending ∧ t.dev.clk.power = .perst ∧ t.dev.clk.time = s.dev.clk.time ∧
      t.dev.fuses = s.dev.fuses ∧ t.dev.fl.log = s.dev.fl.log ∧ t.dev.fl.toLog = s.dev.fl.toLog ++ s.dev.fl.detected ∧
      t.dev.mm.cells = [] ∧ t.dev.mm.keys = [] ∧ t.dev.q = {} ∧ t.dev.bl = {} ∧ t.dev.lk = {} ∧ t.dev.xl = {} ∧
      (∀ a, a ∉ [rstDevPage + 0x44, rstDevPage + 0x48, rstDevPage + 0x4C, rstDevPage + 0x54, timPage + 0x4C] → t.dev.reg a = resetWord a))


/-- START, STOP and RESUME change a slot state; UNBOUND refuses every operation. For a function whose operation reaches the slot at once: START makes
a STOPPED slot ACTIVE; STOP of an ACTIVE slot asks its running command to stop at the next boundary, or, with none running, makes the slot
STOPPED and forgets that it was preempted; RESUME makes a PAUSED_ERR slot ACTIVE; on an UNBOUND slot START, STOP, RESUME, FLUSH and UNBIND only
record reason 1. Nothing else changes but the received-byte count. Completes, by their own effect and under conditions on the state and operands
alone: START, STOP, RESUME. (R257, R258, R260) -/
def Obligations.SlotOperations : Prop :=
  ∀ (fn e k : Nat) (s : State), fn < 65 → e < 32 → k < 8 → s.dev.accepts fn = true → s.dev.opsNow fn e k = true →
    let d := s.dev
    let t := d.slot e k
    (t.state = .stopped → exec (.start fn e k) s = .next { s with dev := d.rx.withSlot e k { t with state := .active, reason := 0 } }) ∧
    (t.state = .active → d.runs e k = true →
      exec (.stop fn e k) s = .next { s with dev := d.rx.withSlot e k { t with stopReq := true, reason := 0 } }) ∧
    (t.state = .active → d.runs e k = false →
      exec (.stop fn e k) s = .next { s with dev := (d.rx.withSlot e k { t with state := .stopped, reason := 0 }).withEng e { d.eng e with
        pre := if (d.eng e).pre = some k then none else (d.eng e).pre } }) ∧
    (t.state = .pausedErr → exec (.resume fn e k) s = .next { s with dev := d.rx.withSlot e k { t with state := .active, reason := 0 } }) ∧
    (∀ i ∈ [Instr.start fn e k, .stop fn e k, .resume fn e k, .flush fn e k, .unbind fn e k], t.state = .unbound →
      exec i s = .next { s with dev := d.rx.withSlot e k { t with reason := 1 } })


/-- DOORBELL latches a tail or is rejected; FLUSH and UNBIND of a slot without a command. The slot is that of the written data for the physical
function, that of the map entry written for a virtual one. A doorbell of a function that reaches the slot: to an UNBOUND slot, of a function that
does not own the context, or past the ring's size it is discarded and counted; any other latches SQ_TAIL, sets the pending bit and is counted.
FLUSH of a STOPPED or PAUSED slot without a command empties its fetched descriptors and enters FLUSHING; UNBIND of a STOPPED or DEAD slot without
a command returns it to UNBOUND with its indices and last status shown. Memory, bells, pools, weights, stored registers and contexts are
unchanged. Completes, by their own effect and under conditions on the state and operands alone: DOORBELL, FLUSH, UNBIND. (R262, R256, R269, R257,
R394) -/
def Obligations.SlotRings : Prop :=
  (∀ (fn e k entry : Nat) (data : Word) (s : State), fn < 65 → e < 32 → entry < 256 → s.dev.accepts fn = true → s.dev.up = true → s.dev.blockOn e = true →
    -- a function's slot is that of the data, or, for a virtual one, of the map entry whose page is written (R394)
    ((fn = 0 ∧ k = fieldOf data 18 16) ∨ (fn ≠ 0 ∧ k < 8 ∧ ∃ t, s.dev.mapEntry fn entry = some (0, t) ∧ t % 256 = e * 8 + k)) →
    s.dev.reachesSlot fn e k = true →
    let d := s.dev
    let tail := BitVec.ofNat 16 (fieldOf data 15 0)
    let t := d.slot e k
    let ring := exec (.doorbell fn e data entry) s
    let rejected := d.rx.withReg (tabPage e + 0x44) (satInc (d.reg (tabPage e + 0x44)))
    let latched := (d.rx.withSlot e k { t with sqTail := tail, pending := true }).withCtr (tabPage e + 0x80) (d.rx.ctr (tabPage e + 0x80) + 1)
    (t.state = .unbound → ring = .next { s with dev := rejected }) ∧
    (t.state ≠ .unbound → d.ownerOf t.ctx ≠ fn → ring = .next { s with dev := rejected }) ∧
    (t.state ≠ .unbound → d.ownerOf t.ctx = fn → 2 ^ d.sqLog2 e k < (tail - t.sqHead).toNat → ring = .next { s with dev := rejected }) ∧
    (t.state ≠ .unbound → d.ownerOf t.ctx = fn → (tail - t.sqHead).toNat ≤ 2 ^ d.sqLog2 e k → ring = .next { s with dev := latched })) ∧
  (∀ (fn e k : Nat) (s : State), fn < 65 → e < 32 → k < 8 → s.dev.accepts fn = true → s.dev.opsNow fn e k = true →
    let d := s.dev
    let t := d.slot e k
    ((t.state = .stopped ∨ t.state = .pausedErr ∨ t.state = .pausedCmpl) → t.cur = none →
      ∃ u, exec (.flush fn e k) s = .next u ∧ u.pending = s.pending ∧
        u.dev.q.slots = put d.q.slots (e * 8 + k) { t with state := .flushing, fetched := [], stopReq := false, lost := false, reason := 0 } {} ∧
        u.dev.mm = d.mm ∧ u.dev.bl = d.bl ∧ u.dev.kv = d.kv ∧ u.dev.wt = d.wt ∧ u.dev.rf.regs = d.rf.regs ∧ u.dev.q.ctxs = d.q.ctxs) ∧
    ((t.state = .stopped ∨ t.state = .dead) → t.cur = none →
      ∃ u, exec (.unbind fn e k) s = .next u ∧ u.pending = s.pending ∧
        u.dev.q.slots = put d.q.slots (e * 8 + k) { ({} : Slot) with
          sqHead := t.sqHead, sqTail := t.sqTail, cqHead := t.cqHead, cqTail := t.cqTail, lastStatus := t.lastStatus, lastTag := t.lastTag } {} ∧
        u.dev.mm = d.mm ∧ u.dev.bl = d.bl ∧ u.dev.kv = d.kv ∧ u.dev.wt = d.wt ∧ u.dev.rf.regs = d.rf.regs ∧ u.dev.q.ctxs = d.q.ctxs))

/-- BIND checks the slot, the context, its owner and the rings, and binds. BIND of a slot that is not UNBOUND records reason 1; of a context not
ACTIVE, reason 3; of another function's context, reason 5; with a ring out of place, reason 4. Otherwise the slot is STOPPED on the context with
its indices zero, the context's root is latched (kept where the context has another slot bound), and no other register, memory byte, bell, pool,
weight or link state changes. Completes, by their own effect and under conditions on the state and operands alone: BIND. (R256, R257, R270, R220) -/
def Obligations.Bind : Prop :=
  ∀ (fn e k : Nat) (data : Word) (s : State), s.Inv → fn < 65 → e < 32 → k < 8 → s.dev.accepts fn = true → s.dev.opsNow fn e k = true →
    let d := s.dev
    let t := d.slot e k
    let c := fieldOf data 23 16
    let d1 := d.rx.withReg (tabPage e + 0x100 + 0x40 * k + 0x08) (data &&& 0x01FF030F)
    let root := if (d.boundSlots c).isEmpty then look d.xl.roots c {} else d.rootOf c
    let bad := d1.badRing root (d.sqBase e k) (fieldOf data 3 0) 128 || d1.badRing root (d.cqBase e k) (d.cqLog2 e k) 32
    let bound : Slot := { state := .stopped, ctx := c, after := .stopped, lastStatus := t.lastStatus, lastTag := t.lastTag }
    let refused (n : Nat) := Host.Outcome.next { s with dev := d1.withSlot e k { t with reason := n } }
    (t.state ≠ .unbound → exec (.bind fn e k data) s = .next { s with dev := d.rx.withSlot e k { t with reason := 1 } }) ∧
    (t.state = .unbound → (d.ctx c).state ≠ .active → exec (.bind fn e k data) s = refused 3) ∧
    (t.state = .unbound → (d.ctx c).state = .active → d.ownerOf c ≠ fn → exec (.bind fn e k data) s = refused 5) ∧
    (t.state = .unbound → (d.ctx c).state = .active → d.ownerOf c = fn → bad = true → exec (.bind fn e k data) s = refused 4) ∧
    (t.state = .unbound → (d.ctx c).state = .active → d.ownerOf c = fn → bad = false → (d.eng e).held = none →
      ∃ u, exec (.bind fn e k data) s = .next u ∧ u.pending = s.pending ∧
        u.dev.q = ((d.withCtx c { d.ctx c with root := some root }).withSlot e k bound).q ∧
        u.dev.reg (tabPage e + 0x100 + 0x40 * k + 0x08) = data &&& 0x01FF030F ∧ u.dev.reg (tabPage e + 0x100 + 0x40 * k + 0x20) = 0 ∧
        (∀ a, a ≠ tabPage e + 0x100 + 0x40 * k + 0x08 → a ≠ tabPage e + 0x100 + 0x40 * k + 0x20 → u.dev.reg a = d.reg a) ∧
        u.dev.mm = d.mm ∧ u.dev.bl = d.bl ∧ u.dev.kv = d.kv ∧ u.dev.wt = d.wt ∧ u.dev.lk = d.lk ∧ u.dev.fl = d.fl)


/-- CTX_KILL and CTX_ENABLE. CTX_KILL of an ACTIVE context that the function reaches marks it KILLED; each slot bound to it that is not DEAD is then
FLUSHING with no fetched descriptor and every other slot is as before, or, while the gong is active, its slots see it at the resume; any other
kill changes nothing. CTX_ENABLE, while no interface is locked for a write of the physical function: a FREE context is made ACTIVE and
replayable, owned by the function written (the physical function's choice, else its owner); with bit 31 clear a FREE context takes the owner, one
with no slot bound is FREE again, one with slots bound stays; a context that the function does not reach stays. Completes, by their own effect
and under conditions on the state and operands alone: CTX_KILL, CTX_ENABLE. (R220, R257, R270, R395) -/
def Obligations.Contexts : Prop := ∀ (fn : Nat) (data : Word) (s : State), fn < 65 → s.dev.accepts fn = true → s.dev.up = true →
    let d := s.dev
    let c := fieldOf (d.reg (ctxPage + 0x40)) 7 0
    let x := d.ctx c
    let owner := if fn = 0 then min (fieldOf data 6 0) 127 else x.owner
    let unlocked : Prop := fn = 0 → ∀ f, d.locked f = false
    ((d.reachesCtx fn c = false ∨ bitOf data 0 = false ∨ x.state ≠ .active) → exec (.ctxKill fn data) s = .next { s with dev := d.rx }) ∧
    -- CTX_KILL of an ACTIVE context: each of its slots that is not DEAD is flushed, and no other slot changes
    (d.reachesCtx fn c = true → bitOf data 0 = true → x.state = .active → d.unheld = true →
      ∃ u, exec (.ctxKill fn data) s = .next u ∧ u.pending = s.pending ∧ u.dev.q.ctxs = put d.q.ctxs c { x with state := .killed } {} ∧
        u.dev.mm = d.mm ∧ u.dev.bl = d.bl ∧ u.dev.wt = d.wt ∧
        (∀ e < 32, ∀ k < 8, (d.slot e k).state ≠ .unbound → (d.slot e k).ctx = c → (d.slot e k).state ≠ .dead →
          (u.dev.slot e k).state = .flushing ∧ (u.dev.slot e k).fetched = [] ∧ (u.dev.slot e k).ctx = c) ∧
        (∀ e < 32, ∀ k < 8, ((d.slot e k).state = .unbound ∨ (d.slot e k).ctx ≠ c ∨ (d.slot e k).state = .dead) →
          u.dev.slot e k = d.slot e k)) ∧
    -- while the gong is active its slots see it at the resume
    (d.reachesCtx fn c = true → bitOf data 0 = true → x.state = .active → d.unheld = false →
      ∃ u, exec (.ctxKill fn data) s = .next u ∧ u.pending = s.pending ∧ u.dev.q = (d.withCtx c { x with state := .killed }).q ∧
        u.dev.ob.gong.kills = d.ob.gong.kills ++ [c] ∧ u.dev.mm = d.mm ∧ u.dev.bl = d.bl ∧ u.dev.wt = d.wt) ∧
    (d.reachesCtx fn c = false → exec (.ctxEnable fn data) s = .next { s with dev := d.rx }) ∧
    (unlocked → d.reachesCtx fn c = true → bitOf data 31 = true → x.state = .free → exec (.ctxEnable fn data) s =
      .next { s with dev := d.rx.withCtx c { x with state := .active, replayable := true, owner := owner } }) ∧
    (unlocked → d.reachesCtx fn c = true → bitOf data 31 = true → x.state ≠ .free →
      exec (.ctxEnable fn data) s = .next { s with dev := d.rx }) ∧
    (unlocked → d.reachesCtx fn c = true → bitOf data 31 = false → x.state = .free →
      exec (.ctxEnable fn data) s = .next { s with dev := d.rx.withCtx c { x with owner := owner } }) ∧
    (unlocked → d.reachesCtx fn c = true → bitOf data 31 = false → x.state ≠ .free → d.boundSlots c ≠ [] →
      exec (.ctxEnable fn data) s = .next { s with dev := d.rx }) ∧
    (unlocked → d.reachesCtx fn c = true → bitOf data 31 = false → x.state ≠ .free → d.boundSlots c = [] →
      exec (.ctxEnable fn data) s = .next { s with dev := d.rx.withCtx c { state := .free, owner := owner } })


/-- DESCRIPTOR_FETCH, DESCRIPTOR_ARRIVE and TABOR_PREFETCH. With no injection armed: the tabor of a slot that may fetch starts one read at the head
and advances it, and sends it to the host where the ring lies there and no translation service is on, or ends its fetch at the tail read; one
that may not fetch does nothing. A descriptor that arrives, or fails to (a poisoned answer of host memory among them), is queued with its decode
status and the device's own number of that moment, and the tail is read again if the slot is pending; without a read outstanding, or while its
translation is asked for, nothing arrives, and while the gong is active it waits in its buffer. A prefetch marks the oldest descriptor once and
counts it, but not while a wait is the slot's command; one with the fence flag also waits while a command is there. One read at a time is the
model's choice (log 27). Completes, by their own effect and under conditions on the state and operands alone: DESCRIPTOR_FETCH,
DESCRIPTOR_ARRIVE, TABOR_PREFETCH. (R263, R265, R266, R278, R386, R397, R348) -/
def Obligations.DescriptorReads : Prop :=
  ∀ (e k : Nat) (poisoned : Bool) (data : Option (List Byte)) (s : State), e < 32 → k < 8 → (∀ l, data = some l → l.length ≤ 128) →
    s.dev.rf.armed = [] →
    let d := s.dev
    let t := d.slot e k
    let r := t.readTail
    (d.taborOn e k = true → r.fetchHeld = false → r.reads = [] → d.placeFree e k = true → (∀ tail, r.tailRead = some tail → tail ≠ r.sqHead →
      let d1 := d.withSlot e k { r with sqHead := r.sqHead + 1, reads := [r.sqHead.toNat] }
      let fn := d.ownerOf t.ctx
      (d.hostRing e k r.sqHead.toNat = false → exec (.descriptorFetch e k) s = .next { s with dev := d1 }) ∧
      -- a ring in host memory is read over PCI Express, where no translation service is on (R386, R397)
      (∀ a, d.ringTarget e k (d.sqBase e k + r.sqHead.toNat % 2 ^ d.sqLog2 e k * 128) = some (.host a) → d.xl.atsOn.contains fn = false →
        ∃ u, exec (.descriptorFetch e k) s = .next u ∧ u.pending = s.pending ∧ u.dev.core = d1.core ∧
          (d.sendWait (.hostReadReq fn d.ho.nextRead (d.hostAddr fn a) 128 false) = none →
            u.dev.ho.sent = .hostReadReq fn d.ho.nextRead (d.hostAddr fn a) 128 false :: d.ho.sent)))) ∧
    (d.taborOn e k = true → r.fetchHeld = false → r.reads = [] → d.placeFree e k = true → r.tailRead = some r.sqHead →
      exec (.descriptorFetch e k) s = .next { s with dev := d.withSlot e k { r with tailRead := none } }) ∧
    ((d.taborOn e k = false ∨ r.fetchHeld = true ∨ r.reads ≠ [] ∨ d.placeFree e k = false ∨ r.tailRead = none) → exec (.descriptorFetch e k) s = .next s) ∧
    ((t.reads = [] ∨ d.up = false ∨ d.descAsked e k = true) → exec (.descriptorArrive e k data { poisoned := poisoned }) s = .next s) ∧
    -- while the gong is active the completion waits in its buffer (R348)
    (∀ index rest, t.reads = index :: rest → d.up = true → d.descAsked e k = false → d.ho.arrived = [] → d.unheld = false →
      (d.hostRing e k index = true → d.receives (d.ownerOf t.ctx) = true) →
      exec (.descriptorArrive e k data { poisoned := poisoned }) s =
        .next { s with dev := { d with ho := { d.ho with arrived := [(e, k, data, { poisoned := poisoned })] } } }) ∧
    (∀ index rest, t.reads = index :: rest → d.up = true → d.descAsked e k = false → d.ho.arrived = [] → d.unheld = true →
      (d.hostRing e k index = true → d.receives (d.ownerOf t.ctx) = true) →
      let desc := if poisoned = true ∧ d.hostRing e k index = true then none else d.descBytes e k index data
      let status := match desc with
        | none => .descFault
        | some x => d.decodeStatus e t.ctx x
      let t1 := { t with reads := rest, fetched := t.fetched ++ [{ index := index, desc := desc, status := status, bad := false, own := d.ownId }] }
      let t2 := if rest = [] ∧ t.tailRead = some t.sqHead then
        (if t.pending then { t1 with tailRead := some t.sqTail, pending := false } else { t1 with tailRead := none }) else t1
      ∃ u, exec (.descriptorArrive e k data { poisoned := poisoned }) s = .next u ∧ u.pending = s.pending ∧ u.dev.core = (d.withSlot e k t2).core) ∧
    (∀ f rest x, t.fetched = f :: rest → f.desc = some x → f.prefetched = false → d.taborOn e k = true → (∀ c, t.cur = some c → isWait (fieldAt c.desc 0 1) = false) →
      (isFence x = true → t.cur = none →
        ∃ u, exec (.taborPrefetch e k) s = .next u ∧ u.dev.core = (d.withSlot e k { t with fetched := { f with prefetched := true } :: rest }).core ∧
          u.dev.rf.ctrs = put d.rf.ctrs (tabPage e + 0x90) (d.ctr (tabPage e + 0x90) + 1) 0) ∧
      (isFence x = true → t.cur.isSome = true → exec (.taborPrefetch e k) s = .next s) ∧
      (isFence x = false →
        ∃ u, exec (.taborPrefetch e k) s = .next u ∧ u.dev.core = (d.withSlot e k { t with fetched := { f with prefetched := true } :: rest }).core ∧
          u.dev.rf.ctrs = put d.rf.ctrs (tabPage e + 0x90) (d.ctr (tabPage e + 0x90) + 1) 0))


/-- FLUSH_DONE, RECORD_CHECK and SHADOW_ACK. A FLUSHING slot without a command becomes STOPPED, PAUSED_CMPL if a record was lost, or DEAD if its
context is killed, with its head at its tail. A record whose check succeeds is settled; one whose check fails pauses its slot. SHADOW_ACK selects
a shadow entry, and with bit 31 has a lost record written again, unless its slot is UNBOUND or DEAD or was unbound since. Other states are left
as they are. Completes, by their own effect and under conditions on the state and operands alone: FLUSH_DONE, RECORD_CHECK, SHADOW_ACK. (R269,
R270, R271, R272) -/
def Obligations.RecordsAndAcks : Prop :=
  ∀ (fn e k i : Nat) (data : Word) (s : State), fn < 65 → e < 32 → k < 8 → i < 64 → s.dev.up = true →
    let d := s.dev
    let t := d.slot e k
    let x := d.shadow e i
    let sel := fieldOf data 5 0
    let y := d.shadow e sel
    let alive : Bool := (d.slot e y.slot).state ≠ .unbound && (d.slot e y.slot).state ≠ .dead
    let d1 := d.rx.withReg (tabPage e + 0x4C) (BitVec.ofNat 32 sel)
    let stopped := { t with sqHead := t.sqTail, tailRead := none, reads := [], fetched := [], flushReq := none, after := .stopped, lost := false }
    (t.state = .flushing → t.cur = none → (d.ctx t.ctx).state ≠ .killed → t.lost = false →
      exec (.flushDone e k) s = .next { s with dev := d.withSlot e k { stopped with state := .stopped } }) ∧
    (t.state = .flushing → t.cur = none → (d.ctx t.ctx).state ≠ .killed → t.lost = true →
      exec (.flushDone e k) s = .next { s with dev := d.withSlot e k { stopped with state := .pausedCmpl } }) ∧
    (t.state = .flushing → t.cur = none → (d.ctx t.ctx).state = .killed →
      exec (.flushDone e k) s = .next { s with dev := d.withSlot e k { stopped with state := .dead } }) ∧
    ((t.state ≠ .flushing ∨ t.cur.isSome = true) → exec (.flushDone e k) s = .next s) ∧
    (x.valid = true → x.checking = true → d.receives (d.ownerOf (d.slot e x.slot).ctx) = true → exec (.recordCheck e i true) s = .next { s with dev := d.withEng e { d.eng e with
        shadow := put (d.eng e).shadow i { x with checking := false } {} } }) ∧
    (x.valid = true → x.checking = true → d.receives (d.ownerOf (d.slot e x.slot).ctx) = true →
      ∃ u, exec (.recordCheck e i false) s = .next u ∧ u.dev.q.slots = put d.q.slots (e * 8 + x.slot) (d.slot e x.slot).pauseLost {} ∧
        u.dev.mm = d.mm ∧ u.dev.bl = d.bl ∧ u.dev.q.ctxs = d.q.ctxs) ∧
    ((x.valid = false ∨ x.checking = false) → ∀ ok, exec (.recordCheck e i ok) s = .next s) ∧
    (d.accepts fn = true → bitOf data 31 = false → exec (.shadowAck fn e data) s = .next { s with dev := d1 }) ∧
    (d.accepts fn = true → bitOf data 31 = true → d.reachesSlot fn e y.slot = false → exec (.shadowAck fn e data) s = .next { s with dev := d1 }) ∧
    (d.accepts fn = true → bitOf data 31 = true → d.reachesSlot fn e y.slot = true → y.valid = true → y.lost = true →
      exec (.shadowAck fn e data) s = .next { s with dev := d1.withEng e { d.eng e with
        shadow := put (d.eng e).shadow sel { y with lost := false, rewrite := alive && !y.freed } {} } })


/-- COMMAND_ISSUE takes the next command of the most urgent ready slot. With no injection armed: an engine that may not issue, or has no ready slot,
does nothing. The picked slot's oldest descriptor becomes its command with the current time of its die: one rejected at decode carries its status
at once and does not run; one that is accepted and binds nothing (and is neither FUSED nor a U4 add) is the running command, or, where it is a
wait, holds its conditions. A command that was preempted runs again with its counts and its pause resumed. Memory is unchanged. Completes, by
their own effect and under conditions on the state and operands alone: COMMAND_ISSUE. (R259, R260, R267, R284, R172) -/
def Obligations.CommandIssue : Prop :=
  ∀ (e : Nat) (s : State), e < 32 → s.dev.rf.armed = [] →
    let d := s.dev
    let g := d.eng e
    let now := d.dieTime (e / 8)
    ((d.issues e = false ∨ d.pickSlot e = none) → exec (.commandIssue e) s = .next s) ∧
    (∀ k f rest x, d.issues e = true → d.pickSlot e = some k → (d.slot e k).cur = none → (d.slot e k).fetched = f :: rest → f.desc = some x →
      f.bad = false → f.status ≠ .ok → f.status ≠ .descFault → d.ob.clrStaged.contains e = false → d.ob.selStaged.contains e = false →
      let c : Cmd := { index := f.index, desc := x, tStart := now, tIssue := now, status := some f.status, waitTag := d.bl.nextWait, own := f.own }
      ∃ u, exec (.commandIssue e) s = .next u ∧ u.pending = s.pending ∧ u.dev.mm = d.mm ∧
        u.dev.q = ((d.withSlot e k { d.slot e k with fetched := rest, cur := some c }).withEng e
          { g with last := k, boundary := g.boundary + 1 }).q) ∧
    (∀ k f rest x, d.issues e = true → d.pickSlot e = some k → (d.slot e k).cur = none → (d.slot e k).fetched = f :: rest → f.desc = some x →
      f.bad = false → f.status = .ok → d.bindOf e (d.slot e k).ctx (flagBit x 6) x = (.ok, {}) → fieldAt x 0 1 ≠ opFused → fieldAt x 0 1 ≠ opU4Add →
      d.ob.clrStaged.contains e = false → d.ob.selStaged.contains e = false →
      (isWait (fieldAt x 0 1) = false →
        let c : Cmd := { index := f.index, desc := x, tStart := now, tIssue := now, cntBase := d.countsLess e [], waitTag := d.bl.nextWait, own := f.own }
        ∃ u, exec (.commandIssue e) s = .next u ∧ u.pending = s.pending ∧ u.dev.mm = d.mm ∧ u.dev.bl = d.bl ∧
          u.dev.q.slots = put d.q.slots (e * 8 + k) { d.slot e k with fetched := rest, cur := some c } {} ∧
          u.dev.q.engines = put d.q.engines e { g with last := k, boundary := g.boundary + 1, run := some k } {}) ∧
      (isWait (fieldAt x 0 1) = true → waitConds f.own x ≠ [] →
        let c : Cmd := { index := f.index, desc := x, tStart := now, tIssue := now, waits := waitConds f.own x, waitTag := d.bl.nextWait, own := f.own }
        ∃ u, exec (.commandIssue e) s = .next u ∧ u.pending = s.pending ∧ u.dev.mm = d.mm ∧
          u.dev.bl = { d.bl with nextWait := d.bl.nextWait + 1 } ∧
          u.dev.q.slots = put d.q.slots (e * 8 + k) { d.slot e k with fetched := rest, cur := some c } {} ∧
          u.dev.q.engines = put d.q.engines e { g with last := k, boundary := g.boundary + 1 } {})) ∧
    (∀ k c, d.issues e = true → d.pickSlot e = some k → (d.slot e k).cur = some c → c.badSave = false →
      ∃ u, exec (.commandIssue e) s = .next u ∧ u.pending = s.pending ∧
        u.dev.core = ((d.withSlot e k { d.slot e k with cur := some { c with
            cntBase := d.countsLess e c.cntBase, paused := c.paused + now, cleared := false } }).withEng e
          { g with run := some k, pre := if g.pre = some k then none else g.pre }).core)


/-- TILE_ISSUE and TILE_BOUNDARY: checks, cancellation, stop and preemption. For a running command without a status, with no injection armed:
TILE_ISSUE of a tile whose checks pass marks it issued, unless a stored program it uses awaits a rewrite; a tile that must wait does what its
wait says, and clears a suspect that replays; one that fails gives the command its status. TILE_BOUNDARY with nothing outstanding: a flush
request ends the command with its status; a stop request, with no replay under way, stores it and stops the slot; a ready Q0 slot preempts a
command of lower priority that is not FUSED, which is counted, and the arrays drop what the command had not yet entered; otherwise nothing
changes. Completes, by their own effect and under conditions on the state and operands alone: TILE_ISSUE, TILE_BOUNDARY. (R79, R80, R260, R261,
R232, R269) -/
def Obligations.TileBoundaries : Prop :=
  ∀ (e : Nat) (s : State) (v : Env), e < 32 → s.dev.rf.armed = [] → s.dev.env e = some v → v.cmd.status = none →
    let d := s.dev
    let g := d.eng e
    let now := d.dieTime (e / 8)
    let t := d.slot e v.s
    let issued := d.withSlot e v.s { t with cur := t.cur.map fun c => { c with tileIssued := true } }
    let decided (d : Device) (st : Status) (r : Option FaultRec) := (Upd.decide e v.s st r).run d
    let settled : Bool := d.up && d.unheld && !d.resetDue e && g.rst == .running && v.cmd.asked.isEmpty && v.cmd.answers.isEmpty && g.redecode.isNone
    let kept := t.cur.map fun c => { c with cntBase := d.countsLess e c.cntBase, paused := c.paused - now, looked := [], loaded := false }
    let cut := (Upd.cutArrays e).run d
    let moved := kept.map fun c => { c with preempted := true, preempts := c.preempts + 1 }
    let stored := ((unitsOf v.op).use d v).fns.all fun i => !d.awaitsRewrite e i
    let cancelled (st : Status) := cut.withSlot e v.s { t with
      cur := t.cur.map fun c => { c with status := some st, fault := none, answers := [] }, flushReq := none }
    let stopped := (cut.withSlot e v.s ({ t with cur := kept }.afterEnd false)).withEng e { g with run := none }
    (d.acts e v.s = false → exec (.tileIssue e) s = .next s) ∧
    (∀ u, d.acts e v.s = true → (tileOf d v = .part u ∨ tileOf d v = .next u ∨ tileOf d v = .last u) → stored = true →
      exec (.tileIssue e) s = .next { s with dev := issued }) ∧
    (∀ u, d.acts e v.s = true → (tileOf d v = .part u ∨ tileOf d v = .next u ∨ tileOf d v = .last u) → stored = false →
      exec (.tileIssue e) s = .next s) ∧
    (∀ u, d.acts e v.s = true → tileOf d v = .wait u → exec (.tileIssue e) s = .next { s with dev := (Upd.replayWaits e).run (u.run d) }) ∧
    (∀ st r u, d.acts e v.s = true → tileOf d v = .stop st r u → exec (.tileIssue e) s = .next { s with dev := decided (u.run d) st r }) ∧
    (settled = false → g.rst = .running → exec (.tileBoundary e) s = .next s) ∧
    (∀ st, settled = true → t.flushReq = some st → exec (.tileBoundary e) s = .next { s with dev := cancelled st }) ∧
    (settled = true → t.flushReq = none → t.stopReq = true → g.replay = none → g.suspects = [] → exec (.tileBoundary e) s = .next { s with dev := stopped }) ∧
    (settled = true → t.flushReq = none → t.stopReq = false → v.op ≠ opFused → d.prio e v.s ≠ 0 → g.withheld = false →
      (∃ k < 8, d.prio e k = 0 ∧ d.isReady e k = true) →
      ∃ u, exec (.tileBoundary e) s = .next u ∧ u.pending = s.pending ∧ u.dev.core = ((cut.withSlot e v.s { t with cur := moved }).withEng e
          { g with run := none, pre := some v.s, progress := now }).core ∧
        u.dev.rf.ctrs = put d.rf.ctrs (engPage e + 0x68) (d.ctr (engPage e + 0x68) + 1) 0) ∧
    (settled = true → t.flushReq = none → t.stopReq = false → v.op ≠ opFused → g.replay = none → (∀ k < 8, d.prio e k = 0 → d.isReady e k = false) →
      exec (.tileBoundary e) s = .next s)


/-- A command row carries out its tiles by its tile function. For each of the 34 rows of tileRows (every command that carries out tiles of an
engine's running command, but for the waits), with any number of rows from 1 to 512 for a segment of a matrix command (R79), for a running
command of the row's opcode, with no injection armed and no program it uses awaiting a rewrite: when the row's tile function gives a last tile,
the tile is issued, its writes done and the command ends OK; an inner tile leaves the command running; a part of a tile, cut short of the whole
(log 25), counts as progress; a failed check gives the command that status and record; a wait changes only what it says. Asking for n + 1 tiles
is asking for one and then for n. Completes, by their own effect and under conditions on the state and operands alone: NOP, MATMUL, FUSED,
ATTN_PREFILL, ATTN_DECODE, KV_APPEND, KV_FORK, KV_FREE, NORM, SOFTMAX, SAMPLE, ROPE, MICROPROG, COPY, TRANSPOSE, WEIGHT_LOAD, ADOPT, FREE_EPOCH,
FREE_SET, ADAPTER_LOAD, ADAPTER_FREE, ADAPTER_BIND, BELL_SIGNAL, LOAD_SEL, CLEAR, MARKER, MATCH, OPEN, ADD_RANGE, ADD_SET, SEAL, U4_GEMM,
U4_COPY, U4_BELL_ADD. (R240, R241, R231, R79, R112, R118, R132) -/
def Obligations.TileCommands : Prop :=
  ∀ limit, 1 ≤ limit → limit ≤ 512 → ∀ p ∈ tileRows limit, ∀ (e : Nat) (s : State) (v : Env), e < 32 → s.dev.env e = some v → p.ops.contains v.op = true → v.cmd.status = none →
    s.dev.acts e v.s = true → s.dev.rf.armed = [] →
    (∀ i ∈ (p.units.use s.dev v).fns, s.dev.awaitsRewrite e i = false) →
    (∀ u, p.tile s.dev v = .last u →
      exec (p.cmd e 1) s = .next { s with dev := (Upd.decide e v.s .ok none).run ((Upd.retired v).run (u.run ((Upd.storeCe v).run ((Upd.issued v).run s.dev)))) }) ∧
    (∀ u, p.tile s.dev v = .next u →
      exec (p.cmd e 1) s = .next { s with dev := (Upd.retired v).run (u.run ((Upd.storeCe v).run ((Upd.issued v).run s.dev))) }) ∧
    (∀ u, p.tile s.dev v = .part u →
      exec (p.cmd e 1) s = .next { s with dev := (Upd.partDone v).run (u.run ((Upd.storeCe v).run ((Upd.issued v).run s.dev))) }) ∧
    (∀ st r u, p.tile s.dev v = .stop st r u → exec (p.cmd e 1) s = .next { s with dev := (Upd.decide e v.s st r).run (u.run s.dev) }) ∧
    (∀ u, p.tile s.dev v = .wait u → exec (p.cmd e 1) s = .next { s with dev := u.run s.dev }) ∧
    (∀ n t, exec (p.cmd e 1) s = .next t → exec (p.cmd e (n + 1)) s = exec (p.cmd e n) t)


/-- ADAPTER_BIND, FREE_EPOCH, FREE_SET and COPY: what one command leaves. ADAPTER_BIND of 0xFFFF unbinds, of a READY adapter owned by the function
and with the bound base adds the pair, of any other ends ADAPTER_INVALID. FREE_EPOCH of a current READY epoch is WEIGHT_BUSY, of a held suspended
one makes it RETIRING; FREE_SET empties a set or does nothing. With the unit off they end WEIGHT_NOT_READY. A COPY of one tile writes the
source's bytes at the destination and nothing else. (R202, R174, R231, R250, R253) -/
def Obligations.EngineCommands : Prop :=
  ∀ (e : Nat) (s : State) (v : Env), e < 32 → s.Inv → s.dev.env e = some v → v.cmd.status = none → s.dev.acts e v.s = true → s.dev.rf.armed = [] →
    let d := s.dev
    let ends (u : State) (st : Status) : Prop := u.pending = s.pending ∧ ∃ c, (u.dev.slot e v.s).cur = some c ∧ c.status = some st
    let set := v.fld 34 2
    let half := v.fld 38 1
    let a := v.fld 32 2
    let at' := v.fld 34 1
    let x := d.adapterSlot a
    let others := (d.ctx v.ctx).adapters.filter (·.1 ≠ at')
    -- ADAPTER_BIND (R202)
    (v.op = opBind → d.setDenied v.ctx at' = false → a = 0xFFFF → (d.ctx v.ctx).state = .active →
      ∃ u, exec (.adapterBind e 1) s = .next u ∧ ends u .ok ∧ u.dev.ctx v.ctx = { d.ctx v.ctx with adapters := others } ∧ u.dev.mm = d.mm) ∧
    (v.op = opBind → d.setDenied v.ctx at' = false → a ≠ 0xFFFF → x.state = .ready → x.owner = d.ownerOf v.ctx → x.base = at' → others.length < 16 →
      ∃ u, exec (.adapterBind e 1) s = .next u ∧ ends u .ok ∧ u.dev.ctx v.ctx = { d.ctx v.ctx with adapters := others ++ [(at', a)] } ∧ u.dev.mm = d.mm) ∧
    (v.op = opBind → d.setDenied v.ctx at' = false → a ≠ 0xFFFF → x.state ≠ .ready ∨ x.owner ≠ d.ownerOf v.ctx ∨ x.base ≠ at' ∨ 16 ≤ others.length →
      ∃ u, exec (.adapterBind e 1) s = .next u ∧ ends u .adapterInvalid ∧ u.dev.q.ctxs = d.q.ctxs ∧ u.dev.mm = d.mm) ∧
    -- FREE_EPOCH, FREE_SET (R174)
    (v.op = opWeight → d.wgtOn = true → d.setDenied v.ctx set = false → v.fld 32 1 = 3 → (d.epoch set half).state = .ready →
      ∃ u, exec (.freeEpoch e 1) s = .next u ∧ ends u .weightBusy ∧ u.dev.wt = d.wt ∧ u.dev.mm = d.mm) ∧
    (v.op = opWeight → d.wgtOn = true → d.setDenied v.ctx set = false → v.fld 32 1 = 3 → (d.epoch set half).state = .suspended → d.epochHeld set half = true →
      ∃ u, exec (.freeEpoch e 1) s = .next u ∧ ends u .ok ∧ (u.dev.epoch set half).state = .retiring) ∧
    (v.op = opWeight → d.wgtOn = true → d.setDenied v.ctx set = false → v.fld 32 1 = 4 → (d.wset set).current = none →
      ∃ u, exec (.freeSet e 1) s = .next u ∧ ends u .ok ∧ u.dev.wt = d.wt ∧ u.dev.mm = d.mm) ∧
    (v.op = opWeight → d.wgtOn = true → d.setDenied v.ctx set = false → v.fld 32 1 = 4 → (d.wset set).current = some half → d.epochHeld set half = true →
      ∃ u, exec (.freeSet e 1) s = .next u ∧ ends u .ok ∧ (u.dev.epoch set half).state = .retiring) ∧
    (v.op = opWeight → d.wgtOn = false → (v.fld 32 1 = 3 → ∃ u, exec (.freeEpoch e 1) s = .next u ∧ ends u .weightNotReady ∧ u.dev.wt = d.wt) ∧
      (v.fld 32 1 = 4 → ∃ u, exec (.freeSet e 1) s = .next u ∧ ends u .weightNotReady ∧ u.dev.wt = d.wt) ∧
      (v.fld 32 1 = 2 → ∃ u, exec (.adopt e 1) s = .next u ∧ ends u .weightNotReady ∧ u.dev.wt = d.wt) ∧
      (v.fld 32 1 = 6 → ∃ u, exec (.adapterFree e 1) s = .next u ∧ ends u .weightNotReady ∧ u.dev.wt = d.wt)) ∧
    -- COPY of at most one unit of 4 KiB, from one place in device memory to another (R231, R250, R261)
    (∀ src dst ps ks pd kd ls ld, v.op = opCopy → v.cmd.done = 0 → v.cmd.piece = 0 → 0 < v.fld 48 8 → v.fld 48 8 ≤ 4096 → d.mm.lineErr = [] → d.xl.winBad = [] →
      d.rangesOf v.ctx [⟨v.fld 32 8, v.fld 48 8, if v.fld 48 8 ≤ 256 then 6 else 4, false⟩, ⟨v.fld 40 8, v.fld 48 8, if v.fld 48 8 ≤ 256 then 6 else 5, true⟩] =
        .inr [(src, [⟨v.fld 32 8, .mem ps ks, v.fld 48 8, ls⟩]), (dst, [⟨v.fld 40 8, .mem pd kd, v.fld 48 8, ld⟩])] → src.write = false → dst.write = true →
      ∃ u, exec (.copy e 1) s = .next u ∧ ends u .ok ∧ u.dev.mm.cells = ((Upd.write kd pd (d.bytesAt ks ps (v.fld 48 8))).run d).mm.cells ∧
        u.dev.q.ctxs = d.q.ctxs ∧ u.dev.wt = d.wt ∧ u.dev.bl = d.bl)


/-- DGS_ANSWER serves the oldest digest operation and answers its command. The oldest unanswered operation is served: OPEN clears the presence bits
of its session, a SEAL with an item absent below its count answers SHAPE_INVALID and writes no record, and every operation writes what the unit's
function gives and is answered. One whose command is gone is dropped; while the gong holds the device none that has not begun is served.
Completes, by their own effect and under conditions on the state and operands alone: DGS_ANSWER. (R324, R325, R326, R327, R329) -/
def Obligations.AuditAnswers : Prop :=
  ∀ (s : State) (o : DgsOp) (l k : List DgsOp), s.Inv → s.dev.rf.armed = [] →
    let d := s.dev
    let e := o.slot / 8
    let sl := o.slot % 8
    -- o is the oldest operation without an answer, and its slot's only one
    d.ob.dgs = l ++ o :: k → o.answer = none → (∀ x ∈ l, x.answer.isSome = true) → (∀ x ∈ l ++ k, x.slot ≠ o.slot) →
    let answered (a : Status × Option FaultRec) : List DgsOp := l ++ { o with answer := some a } :: k
    ((d.slot e sl).cur = none → d.up = true → exec .dgsAnswer s = .next { s with dev := { d with ob := { d.ob with dgs := l ++ k } } }) ∧
    (d.up = true → d.unheld = false → o.begun = false → (d.slot e sl).cur.isSome = true → exec .dgsAnswer s = .next s) ∧
    -- OPEN clears the presence bits of the context's session
    (∀ c, (d.slot e sl).cur = some c → d.up = true → d.unheld = true → fieldAt c.desc 32 1 = 1 → d.mm.lineErr = [] →
      ∃ u, exec .dgsAnswer s = .next u ∧ u.pending = s.pending ∧ u.dev.ob.dgs = answered (.ok, none) ∧ u.dev.q.engines = d.q.engines ∧
        u.dev.mm.cells = ((Upd.write 0 (d.presentAt (d.slot e sl).ctx 0) (List.replicate 32 0)).run d).mm.cells) ∧
    -- SEAL with an item absent below its count: SHAPE_INVALID, and no record
    (∀ c i, (d.slot e sl).cur = some c → d.up = true → d.unheld = true → fieldAt c.desc 32 1 = 4 → d.mm.lineErr = [] →
      i < 4 → 0 < fieldAt c.desc (64 + i) 1 → d.present (d.slot e sl).ctx i 0 = false → 68 ≤ c.desc.length →
      ∃ u, exec .dgsAnswer s = .next u ∧ u.pending = s.pending ∧ u.dev.ob.dgs = answered (.shapeInvalid, none) ∧ u.dev.mm.cells = d.mm.cells) ∧
    -- any operation: its answer is what the unit serves
    (∀ c u, (d.slot e sl).cur = some c → d.up = true → d.unheld = true → dgsServe d ⟨e, sl, (d.slot e sl).ctx, c⟩ = .last u →
      ∃ t, exec .dgsAnswer s = .next t ∧ t.pending = s.pending ∧ t.dev.mm.cells = (u.run d).mm.cells ∧ t.dev.q = (u.run d).q) ∧
    (∀ c st r u, (d.slot e sl).cur = some c → d.up = true → d.unheld = true → dgsServe d ⟨e, sl, (d.slot e sl).ctx, c⟩ = .stop st r u →
      (u.run d).ob.dgs = d.ob.dgs → ∃ t, exec .dgsAnswer s = .next t ∧ t.pending = s.pending ∧ t.dev.ob.dgs = answered (st, r))


/-- The guard column agrees with the data columns and catches a changed column. A residue lies in 0 to 254 and is congruent modulo 255. For every
activation row and tile of any width, the guard sum of the stored column residues equals the drain sum of the data columns' significand sums; if
one column is replaced by one whose significand sum differs modulo 255, the drain sum differs, so the check catches it. (R98, R99, R100, R102) -/
def Obligations.GuardColumn : Prop :=
  (∀ x : Int, residue x < 255 ∧ (residue x : Int) % 255 = x % 255) ∧
  (∀ (row : List FVal) (cols : List (List FVal)), (∀ c ∈ cols, c.length = row.length) →
    guardSum row (guardResidues row.length cols) = drainSum row cols) ∧
  (∀ (row : List FVal) (cols : List (List FVal)) (n : Nat) (c c' : List FVal), cols[n]? = some c → sigSum row c' % 255 ≠ sigSum row c % 255 →
    drainSum row (cols.set n c') ≠ drainSum row cols)


/-- Conversions never give negative zero, and saturate or overflow as each format does. For FP32, BF16, FP16, FP8 and FP4, no value converts to the
sign bit alone (negative zero), and every result fits the width; NaN converts to the canonical NaN; a finite value stays finite in FP8 and FP4; a
finite value converts to FP32 of its own sign or to the infinity of its sign. The worked examples of R52 and of the narrow and wide group sums
come out bit for bit. (R50, R51, R52, R57, R58) -/
def Obligations.Conversions : Prop :=
  (∀ f ∈ [Fmt.fp32, .bf16, .fp16, .e4m3, .e5m2, .e2m1], ∀ (v : FVal) (u : Option Nat), encodeElem f v u ≠ f.signBit ∧ encodeElem f v u < 2 ^ f.width) ∧
  [Fmt.fp32, .bf16, .fp16, .e4m3, .e5m2].map (fun f => encodeElem f .nan) = [0x7FC00000, 0x7FC0, 0x7E00, 0x7F, 0x7E] ∧
  (∀ f ∈ [Fmt.e4m3, .e5m2, .e2m1], ∀ (m e : Int) (u : Option Nat), (decodeElem f (encodeElem f (.fin m e) u)).isFin = true) ∧
  (∀ (m e : Int) (u : Option Nat), (∃ a b, f32 (encodeElem .fp32 (.fin m e) u) = .fin a b ∧ (0 ≤ m → 0 ≤ a) ∧ (m ≤ 0 → a ≤ 0)) ∨
    f32 (encodeElem .fp32 (.fin m e) u) = .inf (m < 0)) ∧
  -- the worked examples of R52 and R57
  encodeElem .e4m3 (f32 0xC01FFC10) = 0xC2 ∧ encodeElem .e4m3 (.fin 470 0) = 0x7E ∧ encodeElem .e4m3 (.fin 464 0) = 0x7E ∧
  (groupValue .narrow 0 ([(0x01, 0x03), (0x44, 0xB8), (0x06, 0x0A), (0x38, 0x30)].map fun p => (decodeElem .e4m3 p.1, decodeElem .e4m3 p.2))).bits32 = 0xC01FFC10 ∧
  (groupValue .wide 0 ([(0x4980, 0x3F80), (0x3E00, 0x3F80), (0x3D80, 0x3F80), (0x3581, 0xBA81)].map fun p => (decodeElem .bf16 p.1, decodeElem .bf16 p.2))).bits32 = 0x49800002


/-- A conversion to INT8 or INT4 rounds to an integer and saturates. For INT8 (width 8) and INT4 (width 4): a whole number converts to itself clamped
to -2^(w-1) .. 2^(w-1) - 1; a fraction m / 2^k converts to the clamp of the nearest integer, ties to the even one, and with a stochastic word to
the clamp of one of the two neighbours; infinity saturates the same way. (R53) -/
def Obligations.IntegerConversions : Prop :=
  ∀ p ∈ [(Fmt.int8, 8), (Fmt.int4, 4)],
    let clamp (r : Int) : Int := max (-(2 : Int) ^ (p.2 - 1)) (min ((2 : Int) ^ (p.2 - 1) - 1) r)
    let out (v : FVal) (u : Option Nat) : Int := signed p.2 (encodeElem p.1 v u)
    (∀ (m : Int) (k : Nat) (u : Option Nat), out (.fin m k) u = clamp (m * 2 ^ k)) ∧
    (∀ (m : Int) (k : Nat), ∃ r : Int, out (.fin m (-k)) none = clamp r ∧ 2 * |r * 2 ^ k - m| ≤ 2 ^ k ∧ (2 * |r * 2 ^ k - m| = 2 ^ k → r % 2 = 0)) ∧
    (∀ (m : Int) (k u : Nat), u < 2 ^ 32 → ∃ r : Int, out (.fin m (-k)) (some u) = clamp r ∧ |r * 2 ^ k - m| < 2 ^ k) ∧
    (∀ u, out (.inf false) u = 2 ^ (p.2 - 1) - 1 ∧ out (.inf true) u = -(2 : Int) ^ (p.2 - 1))


/-- A variance is never negative, and that of equal elements is zero. For every row, the variance is not minus infinity, and a finite one is not
below zero; a row of finite elements has a sum, mean and variance that are not NaN; a row of equal FP32 elements has variance +0. (R67) -/
def Obligations.VarianceNotNegative : Prop :=
  (∀ l : List FVal, rowVariance l ≠ .inf true ∧ ∀ m e, rowVariance l = .fin m e → 0 ≤ m) ∧
  (∀ l : List FVal, (∀ x ∈ l, x.isFin = true) → l ≠ [] → rowSum l ≠ .nan ∧ rowMean l ≠ .nan ∧ rowVariance l ≠ .nan) ∧
  (∀ (n m : Nat) (e : Int), 0 < n → bitLen m ≤ 24 → -149 ≤ e → e ≤ 104 → -126 ≤ leadExp m e →
    rowVariance (List.replicate n (.fin (m : Int) e)) = .zero)


/-- COMMAND_END records the status and frees the slot. A command without a status, or with a WRITE not answered, does not end. Otherwise, for one
that signals nothing and is not FUSED, its slot has no command, shows its status and tag, and its completion tail moves by one unless the command
is quiet and ended OK; the engine is no longer running it and counts a boundary; bells, clocks and contexts are unchanged, and pools too (a
KV_APPEND, KV_FORK or KV_FREE that failed gives pages back). Completes, by their own effect and under conditions on the state and operands alone:
COMMAND_END. (R254, R267, R268) -/
def Obligations.CommandEnds : Prop :=
  ∀ (e k : Nat) (s : State) (c : Cmd) (st : Status), e < 32 → k < 8 → (s.dev.slot e k).cur = some c →
    let d := s.dev
    let t := d.slot e k
    let g := d.eng e
    let flr := (d.vf (d.ownerOf t.ctx)).flrBusy && d.ownerOf t.ctx ≠ 0
    (c.status = none → exec (.commandEnd e k) s = .next s) ∧
    (c.status = some st → (d.lk.reqs.any fun r => r.slot = slotKey e k && r.kind = .write) = true → exec (.commandEnd e k) s = .next s) ∧
    (c.status = some st → d.up = true → d.unheld = true → d.blockOn e = true → g.rst = .running → d.resetDue e = false →
      (d.lk.reqs.any fun r => r.slot = slotKey e k && r.kind = .write) = false → c.endSignals = [] → c.asked = [] → fieldAt c.desc 0 1 ≠ opFused →
      flr = false → t.state ≠ .unbound → (isWait (fieldAt c.desc 0 1) = true → t.state ≠ .stopped) → t.unbindReq = false → g.suspects = [] → g.replay = none →
      ∃ u, exec (.commandEnd e k) s = .next u ∧ u.pending = s.pending ∧
        (u.dev.slot e k).cur = none ∧ (u.dev.slot e k).lastStatus = st ∧ (u.dev.slot e k).lastTag = fieldAt c.desc 4 4 ∧
        (u.dev.slot e k).cqTail = (if flagBit c.desc 7 && st = .ok then t.cqTail else t.cqTail + 1) ∧
        (u.dev.slot e k).cqHead = t.cqHead ∧
        (u.dev.eng e).run = (if g.run = some k then none else g.run) ∧ (u.dev.eng e).boundary = g.boundary + 1 ∧
        u.dev.bl.bells = d.bl.bells ∧ u.dev.clk = d.clk ∧ ((fieldAt c.desc 0 1 = opAppend ∨ fieldAt c.desc 0 1 = opFork ∨ fieldAt c.desc 0 1 = opFree → st = .ok) → u.dev.kv = d.kv) ∧ u.dev.q.ctxs = d.q.ctxs)


/-- BELL_WAIT, U4_BELL_WAIT and BELL_WAIT_TIMEOUT. A wait (of a slot that is not STOPPED) whose conditions are all met ends OK; an unmet condition of
its own region is sent once as a WATCH. A wait without a limit, or with all conditions met, does not time out; one that does ends BELL_TIMEOUT,
and withdraws a watch it sent with an UNWATCH. Completes, by their own effect and under conditions on the state and operands alone: BELL_WAIT,
U4_BELL_WAIT, BELL_WAIT_TIMEOUT. (R251, R252, R283, R284, R285) -/
def Obligations.BellWaits : Prop :=
  ∀ (e k : Nat) (s : State) (c : Cmd), e < 32 → k < 8 → (s.dev.slot e k).cur = some c → c.status = none → s.dev.acts e k = true → (s.dev.slot e k).state ≠ .stopped →
    (∀ j < 8, j ≠ k → (s.dev.slot e j).cur = none) →
    let d := s.dev
    let t := d.slot e k
    let op := fieldAt c.desc 0 1
    let msg (w : WaitCond) : CarMsg := { op := .watch, engine := e, slot := k, index := w.bell % 32768, value := w.value, tag := c.waitTag }
    let ended (st : Status) : Cmd := { c with status := some st, fault := none, answers := [] }
    let home := e / 8 * 4 + e / 8
    (∀ i ∈ [(Instr.bellWait e 1, opWait), (.u4BellWait e 1, opU4Wait)], op = i.2 →
      (c.waits ≠ [] → (∀ w ∈ c.waits, w.met = true) → exec i.1 s = .next { s with dev := d.withSlot e k { t with cur := some (ended .ok) } }) ∧
      (∀ w, c.waits = [w] → w.met = false → w.sent = false → bellRegion w.bell = e / 8 →
        ∃ u, exec i.1 s = .next u ∧ u.pending = s.pending ∧ u.dev.mm = d.mm ∧ u.dev.rf = d.rf ∧ u.dev.q.engines = d.q.engines ∧
          (u.dev.slot e k).cur = some { c with tileIssued := true, waits := [{ w with sent := true }] } ∧
          u.dev.bl = { d.bl with egress := put d.bl.egress home (d.egress (e / 8) (e / 8) ++ [msg w]) [] })) ∧
    (isWait op = true → fieldAt c.desc 100 4 = 0 → exec (.bellWaitTimeout e k) s = .next s) ∧
    (isWait op = true → fieldAt c.desc 100 4 ≠ 0 → c.waits ≠ [] → (∀ w ∈ c.waits, w.met = true) → exec (.bellWaitTimeout e k) s = .next s) ∧
    (isWait op = true → fieldAt c.desc 100 4 ≠ 0 → c.waits ≠ [] → (∀ w ∈ c.waits, w.met = false ∧ w.sent = false) →
      exec (.bellWaitTimeout e k) s = .next { s with dev := d.withSlot e k { t with cur := some (ended .bellTimeout) } }) ∧
    (∀ w, isWait op = true → fieldAt c.desc 100 4 ≠ 0 → c.waits = [w] → w.met = false → w.sent = true → bellRegion w.bell = e / 8 →
      ∃ u, exec (.bellWaitTimeout e k) s = .next u ∧ u.pending = s.pending ∧ u.dev.mm = d.mm ∧ u.dev.rf = d.rf ∧
        (u.dev.slot e k).cur = some { ended .bellTimeout with waits := [{ w with sent := false }] } ∧
        u.dev.bl = { d.bl with egress := put d.bl.egress home (d.egress (e / 8) (e / 8) ++ [{ msg w with op := .unwatch, value := 0 }]) [] })


/-- WAKE marks its condition; CARILLON_CREDIT_RETURN, WAKE_CREDIT_RETURN and RELAY_CREDIT return credits. The oldest WAKE of a path marks the
condition of the command whose wait tag it carries; a stale one only leaves the queue. A carillon or wake credit returns only if more are used
than wait; with nothing waiting that is all it does. A relay's due credits return up to the number due, and none where none is due. Completes, by
their own effect and under conditions on the state and operands alone: WAKE, CARILLON_CREDIT_RETURN, WAKE_CREDIT_RETURN, RELAY_CREDIT. (R27, R28,
R283, R284, R275) -/
def Obligations.WakesAndCredits : Prop :=
  (∀ (e src dst fails : Nat) (s : State), e < 32 → src < 4 → dst < 4 → fails < 8 → s.dev.rf.armed = [] →
    let d := s.dev
    let used := d.carUsed e dst
    let wused := look d.bl.wakeUsed (src * 4 + dst) 0
    (∀ m rest, d.up = true → d.unheld = true → d.wakes src dst = m :: rest →
      let t := d.slot m.engine m.slot
      let same (u : State) : Prop := u.pending = s.pending ∧ u.dev.bl = { d.bl with wakes := put d.bl.wakes (src * 4 + dst) rest [] } ∧
        u.dev.mm = d.mm ∧ u.dev.rf.regs = d.rf.regs ∧ u.dev.q.engines = d.q.engines
      (∀ c, t.cur = some c → c.waitTag = m.tag → c.status = none →
        let met := (c.waits.zip (List.range c.waits.length)).map fun p => if p.2 = m.cond then { p.1 with met := true } else p.1
        ∃ u, exec (.wake src dst fails) s = .next u ∧ same u ∧
          u.dev.q.slots = put d.q.slots (m.engine * 8 + m.slot) { t with cur := some { c with waits := met } } {}) ∧
      (∀ c, t.cur = some c → (c.waitTag ≠ m.tag ∨ c.status.isSome = true) →
        ∃ u, exec (.wake src dst fails) s = .next u ∧ same u ∧ u.dev.q.slots = put d.q.slots (m.engine * 8 + m.slot) t {})) ∧
    (used ≤ ((d.egress (e / 8) dst).filter (·.engine = e)).length → exec (.carillonCreditReturn e dst) s = .next s) ∧
    (((d.egress (e / 8) dst).filter (·.engine = e)).length < used → (∀ p ∈ d.bl.backlog, p.2.engine ≠ e ∨ p.1 ≠ dst) →
      exec (.carillonCreditReturn e dst) s = .next { s with dev := { d with bl := { d.bl with
        credits := put d.bl.credits (e * 4 + dst) (used - 1) 0 } } }) ∧
    (wused ≤ (d.wakes src dst).length → exec (.wakeCreditReturn src dst) s = .next s) ∧
    ((d.wakes src dst).length < wused → (∀ w ∈ d.bl.watches, w.woken = false) →
      exec (.wakeCreditReturn src dst) s = .next { s with dev := { d with bl := { d.bl with
        wakeUsed := put d.bl.wakeUsed (src * 4 + dst) (wused - 1) 0 } } })) ∧
  (∀ (e relay n key due : Nat) (s : State), e < 32 → 0 < n → n < 2 ^ 16 → relay < 6 → s.dev.up = true → s.dev.rf.armed = [] →
    let d := s.dev
    let g := d.eng e
    let due? := g.creditsDue.find? fun p => p.1 % 8 = relay && p.2 ≠ 0
    (due? = some (key, due) → exec (.relayCredit e relay n) s = .next { s with dev := d.withEng e { g with
      creditsDue := put g.creditsDue key (due - min n due) 0, credits := put g.credits key (look g.credits key 0 + min n due) 0 } }) ∧
    (due? = none → exec (.relayCredit e relay n) s = .next s))

/-- The host sets and signals bells, and restores a save image. Through BEL.OP the host sets a bell it reaches to the value written, or raises it to
the larger; a group it does not reach is left alone. A restore by the physical function loads all 32,768 counters of a valid image, or zeroes
them where the image is not valid, and touches no other region's bell. These hold while no gong is active; a bell that is watched or damaged is
left to other clauses. Completes, by their own effect and under conditions on the state and operands alone: BELL_RESET, BEL_OP_SIGNAL,
BELL_RESTORE. (R281, R282, R310, R454) -/
def Obligations.HostBells : Prop :=
  ∀ (fn r : Nat) (data : Word) (s : State), s.Inv → fn < 65 → r < 4 → s.dev.accepts fn = true → s.dev.up = true → s.dev.unheld = true → s.dev.rf.armed = [] →
    let d := s.dev
    let i := fieldOf (d.reg (belPage r + 0x48)) 14 0
    let b := r * 32768 + i
    let v := BitVec.ofNat 64 (d.pair (belPage r + 0x54))
    let old := d.bell b
    let base := d.pair (belPage r + 0x60) % 2 ^ 44
    let image : Bool := base ≠ 0 && populatedRange base 0x40040 && (d.ueIn base 0x40040).isNone && d.numAt 0 (base + 0x40000) 4 = 0x42454C37 &&
      d.numAt 0 (base + 0x40004) 2 = fieldOf (d.control (zwlPage + 0x40)) 12 0 && d.numAt 0 (base + 0x40006) 1 = r &&
      bits (d.numAt 0 (base + 0x40007) 1) 0 1 = 1
    let quietBell : Prop := (∀ p ∈ d.bl.damaged, p.1 ≠ b) ∧ ∀ w ∈ d.bl.watches, w.bell ≠ b
    (fieldOf data 1 0 = 1 → d.reachesGroup fn r (i / 64) = true → quietBell →
      exec (.bellReset fn r data) s = .next { s with dev := { d.rx with bl := { d.bl with bells := put d.bl.bells b v 0, served := put d.bl.served r 8 0 } } }) ∧
    (fieldOf data 1 0 = 2 → d.reachesGroup fn r (i / 64) = true → quietBell →
      exec (.belOpSignal fn r data) s = .next { s with dev := { d.rx.withCtr (belPage r + 0x80) (d.rx.ctr (belPage r + 0x80) + 1) with
        bl := { d.bl with bells := put d.bl.bells b (if old < v then v else old) 0, served := put d.bl.served r 8 0 } } }) ∧
    (d.reachesGroup fn r (i / 64) = false → exec (.bellReset fn r data) s = .next { s with dev := d.rx } ∧
      exec (.belOpSignal fn r data) s = .next { s with dev := d.rx }) ∧
    ((fn ≠ 0 ∨ bitOf data 0 = false) → exec (.bellRestore fn r data) s = .next { s with dev := d.rx }) ∧
    (fn = 0 → bitOf data 0 = true → image = true → ∃ u, exec (.bellRestore fn r data) s = .next u ∧ u.pending = s.pending ∧ u.dev.q = d.q ∧
      (∀ j < 32768, u.dev.bell (r * 32768 + j) = BitVec.ofNat 64 (d.numAt 0 (base + 8 * j) 8)) ∧
      (∀ x, x / 32768 ≠ r → u.dev.bell x = d.bell x) ∧ u.dev.reg (belPage r + 0x6C) = 3) ∧
    (fn = 0 → bitOf data 0 = true → image = false → ∃ u, exec (.bellRestore fn r data) s = .next u ∧ u.pending = s.pending ∧ u.dev.q = d.q ∧
      (∀ j < 32768, u.dev.bell (r * 32768 + j) = 0) ∧ (∀ x, x / 32768 ≠ r → u.dev.bell x = d.bell x) ∧ u.dev.mm.cells = d.mm.cells)


/-- SIGNAL, ADD, WATCH and UNWATCH at the bell store. The message of a carillon path that is served next reaches its bell, where that is neither
damaged nor watched: SIGNAL gives the larger of counter and value, ADD the sum modulo 2^64, WATCH of a value not reached adds one watch entry,
UNWATCH removes it. No queue, memory byte, stored register or link state changes. Completes, by their own effect and under conditions on the
state and operands alone: SIGNAL, ADD, WATCH, UNWATCH. (R27, R282, R283) -/
def Obligations.BellOperations : Prop :=
  ∀ (src dst fails : Nat) (s : State) (m : CarMsg), src < 4 → dst < 4 → s.dev.up = true → s.dev.unheld = true →
    s.dev.rf.armed = [] → fails < 8 → s.dev.nextMsg src dst = some m →
    (∀ p ∈ s.dev.bl.damaged, p.1 ≠ dst * 32768 + m.index) → (∀ w ∈ s.dev.bl.watches, w.bell ≠ dst * 32768 + m.index) →
    let b := dst * 32768 + m.index
    let base := { s.dev.bl with
      egress := put s.dev.bl.egress (src * 4 + dst) ((s.dev.egress src dst).erase m) []
      served := if src = dst then put s.dev.bl.served src (m.engine % 8) 0 else s.dev.bl.served }
    let old := s.dev.bell b
    let same (t : State) : Prop := t.pending = s.pending ∧ t.dev.q = s.dev.q ∧ t.dev.mm = s.dev.mm ∧ t.dev.rf.regs = s.dev.rf.regs ∧ t.dev.lk = s.dev.lk
    (m.op = .signal → ∃ t, exec (.signal src dst fails) s = .next t ∧ same t ∧
      t.dev.bl = { base with bells := put s.dev.bl.bells b (if old < m.value then m.value else old) 0 }) ∧
    (m.op = .add → ∃ t, exec (.add src dst fails) s = .next t ∧ same t ∧ t.dev.bl = { base with bells := put s.dev.bl.bells b (old + m.value) 0 }) ∧
    (m.op = .watch → old < m.value → ∃ t, exec (.watch src dst fails) s = .next t ∧ same t ∧
      t.dev.bl = { base with watches := s.dev.bl.watches ++
        [{ bell := b, slot := m.engine * 8 + m.slot, cond := m.cond, value := m.value, tag := m.tag }] }) ∧
    (m.op = .unwatch → ∃ t, exec (.unwatch src dst fails) s = .next t ∧ same t ∧
      t.dev.bl = { base with watches := s.dev.bl.watches.filter fun w => !(w.bell = b && w.slot = m.engine * 8 + m.slot && w.cond = m.cond) })


/-- PASS_ISSUE, RAMP_STEP and IDLE_HOLD_EXPIRY move the array through its states. A pass that fits the array and whose engine has no reset due is
queued, with its draw and with whether it is the last for its output: an array STOPPED or in RAMP_DOWN begins its way up and counts it (from
RAMP_DOWN it is the model's choice to count it, log 121), one in IDLE_HOLD runs, one RUNNING or in RAMP_UP goes on; a pass wider or deeper than
the array, or of an engine whose reset is due, changes nothing. A ramp step enables the lowest group not yet enabled, and with all eight the
array runs; going down it disables the lowest enabled one, and the last leaves it STOPPED; the end of the idle hold begins the way down.
Completes, by their own effect and under conditions on the state and operands alone: PASS_ISSUE, RAMP_STEP, IDLE_HOLD_EXPIRY. (R75, R90, R91,
R93, R95) -/
def Obligations.ArrayRamps : Prop :=
  ∀ (e c rate tileK tileN rows : Nat) (accIn : Bool) (groupBase : Nat) (final : Bool) (s : State), e < 32 → c < 4 → s.dev.arrayUp e c = true →
    let d := s.dev
    let a := d.cell e c
    -- a pass that fits the array (R75, R91)
    (d.resetDue e = false → (Instr.passIssue e c rate tileK tileN rows accIn groupBase final).wf = true →
      1 ≤ tileK → tileK ≤ 128 * rate → 1 ≤ tileN → tileN ≤ d.width e c → 1 ≤ rows → rows < 2 ^ 32 → groupBase % 32 = 0 →
      (rate = 1 ∨ rate = 2 ∨ rate = 4) →
      let a' := { a with nextPass := a.nextPass + 1, passes := a.passes ++ [⟨a.nextPass + 1, rate, tileK, tileN, rows, accIn, groupBase, d.free, false, final⟩] }
      let drawn (x : Device) : Device := { x with free := d.free + 1 }
      (a.arr = .stopped ∨ a.arr = .rampDown → ∃ t, exec (.passIssue e c rate tileK tileN rows accIn groupBase final) s = .next t ∧ t.pending = s.pending ∧
        t.dev.q = (d.withCell e c { a' with rampLen := d.rampCycles e c, groups := if a.arr = .stopped then 1 else a.groups, arr := .rampUp }).q ∧
        t.dev.rf.ctrs = put d.rf.ctrs (arrPage e c + 0x98) (d.ctr (arrPage e c + 0x98) + 1) 0 ∧ t.dev.mm = d.mm ∧ t.dev.rf.regs = d.rf.regs) ∧
      (a.arr = .idleHold →
        exec (.passIssue e c rate tileK tileN rows accIn groupBase final) s = .next { s with dev := drawn (d.withCell e c { a' with arr := .running }) }) ∧
      (a.arr = .running ∨ a.arr = .rampUp →
        exec (.passIssue e c rate tileK tileN rows accIn groupBase final) s = .next { s with dev := drawn (d.withCell e c a') })) ∧
    -- one that does not fit, or an engine whose reset is due (R93, R96)
    (d.width e c < tileN ∨ 128 * rate < tileK ∨ d.resetDue e = true → exec (.passIssue e c rate tileK tileN rows accIn groupBase final) s = .next s) ∧
    -- a ramp step (R90, R91)
    (∀ j, a.arr = .rampUp → j < 8 → (∀ i < j, a.groups.getLsbD i = true) → a.groups.getLsbD j = false →
      exec (.rampStep e c) s = .next { s with dev := d.withCell e c { a with groups := a.groups ||| BitVec.ofNat 8 (2 ^ j) } }) ∧
    (a.arr = .rampUp → a.groups = 0xFF → exec (.rampStep e c) s = .next { s with dev := d.withCell e c (Cell.prune { a with arr := .running }) }) ∧
    (∀ j, a.arr = .rampDown → j < 8 → (∀ i < j, a.groups.getLsbD i = false) → a.groups.getLsbD j = true →
      let g := a.groups &&& ~~~ BitVec.ofNat 8 (2 ^ j)
      exec (.rampStep e c) s = .next { s with dev := d.withCell e c { a with groups := g, arr := if g = 0 then .stopped else .rampDown } }) ∧
    (a.arr = .stopped ∨ a.arr = .running ∨ a.arr = .idleHold → exec (.rampStep e c) s = .next { s with dev := d.withCell e c a }) ∧
    -- the end of the idle hold (R91)
    (d.resetDue e = false → a.arr = .idleHold → a.groups = 0xFF →
      exec (.idleHoldExpiry e c) s = .next { s with dev := d.withCell e c { a with groups := 0xFE, arr := .rampDown, rampLen := d.rampCycles e c } }) ∧
    (a.arr ≠ .idleHold → exec (.idleHoldExpiry e c) s = .next s)


/-- Rows, freezes, shadow loads, row commits and a second decode. A cycle moves every row in flight one column on, into the drain at its last, and
lets the next row in with its initial accumulators; damaged words of the cell store that it reads are healed where corrected, and where one is
uncorrectable the row does not enter and a reset with cause 0x0105 is asked for; no cycle takes place where the array may not run. A freeze notes
each cause that holds and moves nothing; without a cause it is nothing. SHADOW_LOAD writes up to two columns of the tile next loaded, else waits;
a block that fails begins the load again. ROW_COMMIT takes the drained row of the oldest pass, while no drain freeze stands and a staging buffer
it needs is free: one that the guard finds right is written, to a staging buffer in a last pass, else to the cell store, and the last row of the
last pass leaves IDLE_HOLD; a wrong one stays and asks for a reset with cause 0x0101, with a fault within a group or an alignment 0x0102. A
second decode: a block that decodes now asks for a reset with cause 0x010A; one that fails again ends the command EXPAND_LEN and degrades the
READY epoch or adapter; one that meets an uncorrectable line ends it MEM_UE. Where words lie, freeze operands and the staging's order are the
model's choice (logs 43, 122, 123). Completes, by their own effect and under conditions on the state and operands alone: ARRAY_ROW_ENTER,
ARRAY_FREEZE, SHADOW_LOAD, ROW_COMMIT, REDECODE. (R76, R78, R82, R87, R89, R100, R102, R104, R105, R123, R182, R197) -/
def Obligations.ArrayRows : Prop :=
  (∀ (e c : Nat) (s : State), e < 32 → c < 4 → s.dev.arrayOn e c = true →
    let d := s.dev
    let a := d.cell e c
    let quiet (u : State) : Prop := u.pending = s.pending ∧ u.dev.mm = d.mm ∧ u.dev.bl = d.bl ∧ u.dev.wt = d.wt
    let cycled (a : Cell) : Cell := Cell.prune { a.cycle with frozen := (false, false, false, false) }
    -- the words of the cell store that the row due at column 0 reads (R75, R104)
    let read : List (Nat × Nat) := match a.due with | some p => p.reads (a.rowsIn p) | none => []
    let runs : Prop := a.arr = .running ∧ a.working = true ∧ d.shadowHeld e c a = false ∧ a.drain.length < 16
    -- ARRAY_ROW_ENTER: a cycle without a freeze (R76 to R78, R81)
    (runs → a.hurt read = [] →
      ∃ u, exec (.arrayRowEnter e c) s = .next u ∧ quiet u ∧ u.dev.rf.regs = d.rf.regs ∧ u.dev.q = (d.withCell e c (cycled a)).q ∧
        (∀ r ∈ a.flight, ∀ p, a.passOf r.pass = some p → r.col ≠ 127 →
          { r with col := r.col + 1 } ∈ (if r.col + 1 < 133 + 4 * p.rate then a.cycle.flight else a.cycle.drain)) ∧
        (∀ p, a.due = some p → { pass := p.id, row := a.rowsIn p, col := 0, acc := a.accRow p (a.rowsIn p) } ∈ a.cycle.flight ∧
          a.cycle.entered = a.rowsIn p + 1)) ∧
    -- damaged words among those it reads (R104)
    (runs → a.hurt read ≠ [] → (∀ w ∈ a.hurt read, w.2 ≠ .uncorrectable) →
      ∃ u, exec (.arrayRowEnter e c) s = .next u ∧ quiet u ∧
        u.dev.q = (d.withCell e c (cycled { a with damage := a.damage.filter fun w => !(a.hurt read).any (·.1 = w.1) })).q) ∧
    (runs → (∃ w ∈ a.hurt read, w.2 = .uncorrectable) →
      ∃ u, exec (.arrayRowEnter e c) s = .next u ∧ quiet u ∧ u.dev.fl.resets = d.fl.resets ++ [(e, 0x0105, true)] ∧
        (u.dev.cell e c).flight = a.flight ∧ (u.dev.cell e c).entered = a.entered) ∧
    -- no cycle where the array may not run, or where a cause of freeze holds
    (a.arr ≠ .running ∨ a.working = false ∨ d.shadowHeld e c a = true ∨ 16 ≤ a.drain.length → exec (.arrayRowEnter e c) s = .next s) ∧
    -- ARRAY_FREEZE (R87, R89, R123)
    (∀ act shd drn, a.arr = .running → a.working = true →
      (act = true ∧ a.due.isSome = true ∨ drn = true ∧ a.wantsBuffer = true ∨ a.drainFull = true ∨ d.shadowHeld e c a = true) →
      ∃ u, exec (.arrayFreeze e c act shd drn) s = .next u ∧ quiet u ∧ u.dev.rf.regs = d.rf.regs ∧
        u.dev.q = (d.withCell e c (Cell.prune { a with
          frozen := (true, act && a.due.isSome, d.shadowHeld e c a, drn && a.wantsBuffer || a.drainFull), segCycles := a.segCycles + 1 })).q) ∧
    (∀ act shd drn, (act = false ∨ a.due = none) → (drn = false ∨ a.wantsBuffer = false) → a.drainFull = false → d.shadowHeld e c a = false →
      exec (.arrayFreeze e c act shd drn) s = .next s)) ∧
  (∀ (e c : Nat) (s : State), e < 32 → c < 4 → s.dev.arrayOn e c = true →
    let d := s.dev
    let a := d.cell e c
    (∀ ok, a.loads = none → exec (.shadowLoad e c ok) s = .next s) ∧
    (∀ p j, a.loads = some (p, j) →
      let cols := (span j (min 2 (p.tileN - j))).map (d.physical e c)
      ((a.staging.length < 2 ∨ (a.staging.any fun q => q.1 = p.id) = true) → (∀ q ∈ cols, a.writable p q = true) →
        exec (.shadowLoad e c true) s = .next { s with dev := d.withCell e c (Cell.fillGuard { a with
          shadow := cols.foldl (fun m q => put m q p.id 0) a.shadow, loading := (p.id, j + cols.length),
          staging := a.stage p j cols.length }) }) ∧
      ((2 ≤ a.staging.length ∧ (a.staging.any fun q => q.1 = p.id) = false) ∨ (∃ q ∈ cols, a.writable p q = false) →
        exec (.shadowLoad e c true) s = .next s) ∧
      exec (.shadowLoad e c false) s = .next { s with dev := d.withCell e c { a with
        loading := (p.id, 0), shadow := a.shadow.filter (·.2 ≠ p.id), staging := a.staging.filter (·.1 ≠ p.id) } })) ∧
  (∀ (e c freed : Nat) (s : State), e < 32 → c < 4 → freed ≤ 2 → s.dev.arrayOn e c = true → s.dev.rf.armed = [] →
    let d := s.dev
    -- the vector unit has finished with that many of the staging buffers (R123)
    let a := (d.cell e c).freeBuffers freed
    let waits (u : Host.Outcome State Fault Refusal) : Prop := u = .next { s with dev := d.withCell e c a }
    let quiet (u : State) : Prop := u.pending = s.pending ∧ u.dev.mm = d.mm ∧ u.dev.bl = d.bl ∧ u.dev.wt = d.wt
    let free (r : RowFlight) : Prop := a.oldest r = true ∧ a.stands = false ∧ a.wantsBuffer = false
    -- the row written: to a staging buffer in a last pass, else as words of the cell store (R78, R123)
    let written (r : RowFlight) (p : Pass) : Cell :=
      let ws := wordsOf (p.outRow r)
      let at' := p.place 2 r.row
      if p.final then a.toBuffer r (p.outRow r)
      else { a with words := ((span at' ws.length).zip ws).foldl (fun m q => put m q.1 q.2 0) a.words,
                    damage := a.damage.filter fun w => !(at' ≤ w.1 && w.1 < at' + ws.length) }
    (a.drain = [] → waits (exec (.rowCommit e c freed) s)) ∧
    (∀ r rest, a.drain = r :: rest → (a.oldest r = false ∨ a.stands = true ∨ a.wantsBuffer = true) → waits (exec (.rowCommit e c freed) s)) ∧
    -- a row that the check finds right (R78, R91)
    (∀ r rest p, a.drain = r :: rest → free r → r.fault = none → r.sum = r.want → a.passOf r.pass = some p → r.row + 1 ≠ p.rows →
      ∃ u, exec (.rowCommit e c freed) s = .next u ∧ quiet u ∧ u.dev.rf.regs = d.rf.regs ∧
        u.dev.q = (d.withCell e c (Cell.prune { written r p with drain := rest })).q) ∧
    (∀ r rest p, a.drain = r :: rest → free r → r.fault = none → r.sum = r.want → a.passOf r.pass = some p → r.row + 1 = p.rows →
      a.arr = .running →
      ∃ u, exec (.rowCommit e c freed) s = .next u ∧ quiet u ∧ u.dev.rf.regs = d.rf.regs ∧
        (let left := a.passes.filter (·.id ≠ r.pass)
        u.dev.q = (d.withCell e c (Cell.prune { written r p with drain := rest, passes := left, arr := if left = [] then .idleHold else .running })).q)) ∧
    -- one that it finds wrong is not committed, and the engine is reset (R100 to R102)
    (∀ r rest, a.drain = r :: rest → free r → r.fault = none → r.sum ≠ r.want →
      ∃ u, exec (.rowCommit e c freed) s = .next u ∧ quiet u ∧ u.dev.fl.resets = d.fl.resets ++ [(e, 0x0101, true)] ∧ (u.dev.cell e c).drain = a.drain) ∧
    (∀ r rest f, a.drain = r :: rest → free r → r.fault = some f → f.1 ≠ 0 →
      ∃ u, exec (.rowCommit e c freed) s = .next u ∧ quiet u ∧ u.dev.fl.resets = d.fl.resets ++ [(e, 0x0102, true)] ∧ (u.dev.cell e c).drain = a.drain)) ∧
  (∀ (e c target slot tensor block : Nat) (adapter : Bool) (s : State) (v : Env), e < 32 → c < 4 → s.dev.env e = some v →
    (s.dev.eng e).redecode = some (c, adapter, target, slot, tensor, block) → s.dev.up = true → s.dev.unheld = true →
    let d := s.dev
    let g := d.eng e
    let found := d.decodesNow adapter target slot tensor block
    let x := if adapter then d.adapterSlot target else d.epoch target slot
    -- the block decodes now: a hardware fault (R197)
    (d.resetDue e = false → found.isLeft = true →
      ∃ u, exec (.redecode e c true) s = .next u ∧ u.pending = s.pending ∧ u.dev.fl.resets = d.fl.resets ++ [(e, 0x010A, true)] ∧
        (u.dev.eng e).redecode = none ∧ u.dev.q.slots = d.q.slots ∧ u.dev.mm = d.mm ∧ u.dev.wt = d.wt ∧ u.dev.bl = d.bl) ∧
    -- it fails again
    (∀ ok b, (ok = false ∧ found.isLeft = true ∨ found = .inr (.bad b)) →
      ∃ u, exec (.redecode e c ok) s = .next u ∧ u.pending = s.pending ∧ u.dev.bl = d.bl ∧ u.dev.fl.resets = d.fl.resets ∧
        u.dev.q.engines = put d.q.engines e { g with redecode := none } {} ∧
        (∃ r, (u.dev.slot e v.s).cur = some { v.cmd with status := some .expandLen, fault := some r, answers := [] } ∧
          r.code = 0x010C ∧ r.source = (e % 8) * 16 + c) ∧
        (x.state = .ready → adapter = false → u.dev.wt.epochs = put d.wt.epochs (target * 2 + slot) { x with state := .degraded } {}) ∧
        (x.state = .ready → adapter = true → u.dev.wt.adapters = put d.wt.adapters target { x with state := .degraded } {})) ∧
    -- it meets an uncorrectable line (R182)
    (∀ ok pa, found = .inr (.ue pa) →
      ∃ u, exec (.redecode e c ok) s = .next u ∧ u.pending = s.pending ∧ u.dev.bl = d.bl ∧ u.dev.wt = d.wt ∧ u.dev.fl.resets = d.fl.resets ∧
        (∃ r, (u.dev.slot e v.s).cur = some { v.cmd with status := some .memUe, fault := some r, answers := [] } ∧ r.code = 0x020B)))

/-- Trace capture, its start, host triggers and dumps. The oldest record of a source that dropped none enters the store at the write pointer (but for
triggers and mode CENTRE), and mode STOP ends capture when full. A start clears the store; CENTRE counts over 262,144 are refused. A host trigger
acts only while enabled. A dump starts only with capture off, and its end writes the captured records to memory. Completes, by their own effect
and under conditions on the state and operands alone: TRACE_RECORD, TRACE_ENABLE, TRIGGER, TRACE_DUMP, DUMP_DONE. (R339, R340, R341, R342, R343) -/
def Obligations.TraceStore : Prop :=
  ∀ (r : Nat) (data : Word) (s : State), r < 4 → s.dev.up = true → s.dev.rf.armed = [] →
    let d := s.dev
    let p := trcPage r
    let t := d.trc r
    let ctrl := d.reg (p + 0x04)
    let mode := fieldOf ctrl 2 1
    let new := if bitOf ctrl 0 || fieldOf data 2 1 = 3 then mode else fieldOf data 2 1
    let pre := fieldOf (d.reg (p + 0x4C)) 18 0
    let post := fieldOf (d.reg (p + 0x50)) 18 0
    let base := d.pair (p + 0x88) % 2 ^ 44 / 4096 * 4096
    let same (u : State) : Prop := u.pending = s.pending ∧ u.dev.q = d.q ∧ u.dev.bl = d.bl ∧ u.dev.lk = d.lk ∧ u.dev.ob.cnt = d.ob.cnt
    (t.queue = [] → exec (.traceRecord r) s = .next s) ∧
    -- modes CONTINUOUS and STOP: the oldest record goes to the next entry
    (∀ src bs rest, d.unheld = true → t.queue = (src, bs) :: rest → t.state = .capturing → mode ≠ 2 → fieldAt bs 8 1 ≠ 0x21 → look t.drops src 0 = 0 →
      ∃ u, exec (.traceRecord r) s = .next u ∧ same u ∧ u.dev.mm = d.mm ∧
        u.dev.ob.trace = put d.ob.trace (r * 262144 + t.wrPtr) bs [] ∧
        (u.dev.trc r).queue = rest ∧ (u.dev.trc r).wrPtr = (if t.wrPtr + 1 ≥ 262144 then 0 else t.wrPtr + 1) ∧
        (u.dev.trc r).count = min (t.count + 1) 262144 ∧ (u.dev.trc r).triggered = t.triggered ∧
        (u.dev.trc r).state = (if mode = 1 ∧ 262144 ≤ t.count + 1 then .done else .capturing)) ∧
    -- a start, and a start whose CENTRE counts are too large
    (d.accepts 0 = true → bitOf data 0 = true → ¬ (new = 2 ∧ 262144 < pre + post) →
      ∃ u, exec (.traceEnable 0 r data) s = .next u ∧ same u ∧ u.dev.mm = d.mm ∧
        u.dev.trc r = { state := .capturing, dumpDone := t.dumpDone, bad := t.bad } ∧
        (s.Inv → u.dev.reg (p + 0x04) = BitVec.ofNat 32 (new * 2 + 1) ∧ u.dev.reg (p + 0x60) = 0 ∧ u.dev.reg (p + 0x5C) = 0)) ∧
    (d.accepts 0 = true → bitOf data 0 = true → new = 2 ∧ 262144 < pre + post →
      ∃ u, exec (.traceEnable 0 r data) s = .next u ∧ same u ∧ u.dev.mm = d.mm ∧
        u.dev.trc r = { state := .off, cfgErr := true, dumpDone := t.dumpDone, bad := t.bad } ∧
        (s.Inv → u.dev.reg (p + 0x04) = BitVec.ofNat 32 (new * 2) ∧ u.dev.reg (p + 0x60) = 0 ∧ u.dev.reg (p + 0x5C) = 0)) ∧
    -- a host trigger while the source is enabled, and while it is not
    (d.accepts 0 = true → bitOf data 0 = true → bitOf (d.reg (p + 0x44)) 0 = false → exec (.trigger 0 r data) s = .next { s with dev := d.rx }) ∧
    (d.accepts 0 = true → bitOf data 0 = true → bitOf (d.reg (p + 0x44)) 0 = true → d.unheld = true → t.state = .capturing → t.queue = [] → t.drops = [] →
      ∃ u, exec (.trigger 0 r data) s = .next u ∧ same u ∧ u.dev.mm = d.mm ∧ u.dev.rf.regs = d.rf.regs ∧
        (u.dev.trc r) = { t with queue := [(10, traceBytes (d.dieTime r) 0x21 [1])] }) ∧
    -- a dump starts only while capture is off; its end
    (d.accepts 0 = true → bitOf data 0 = true → bitOf ctrl 0 = false →
      exec (.traceDump 0 r data) s = .next { s with dev := { d.rx with ob := { d.ob with trc := put d.ob.trc r { t with dumping := true, dumpDone := false } {} } } }) ∧
    (d.accepts 0 = true → (bitOf data 0 = false ∨ bitOf ctrl 0 = true) → exec (.traceDump 0 r data) s = .next { s with dev := d.rx }) ∧
    (t.dumping = false → exec (.dumpDone r) s = .next s) ∧
    (t.dumping = true → (∀ i ∈ d.captured r, look d.ob.trace (r * 262144 + i) [] ≠ [] ∧ t.bad.contains i = false) →
      ∃ u, exec (.dumpDone r) s = .next u ∧ same u ∧ u.dev.trc r = { t with dumping := false, dumpDone := true } ∧
        u.dev.mm = ((Upd.each ((d.captured r).zip (List.range (d.captured r).length)) fun p =>
          Upd.write 0 (base + 32 * p.2) (look d.ob.trace (r * 262144 + p.1) [])).run d).mm)


/-- Registering, loading and unregistering a microprogram. The oldest command taken from UP_CMD is carried out by the row of its kind: a built-in
index, or one in the wrong state, is refused with its code; a FREE one becomes LOADING and its image will be read; an ACTIVE one in use becomes
RETIRING, one not in use is FREE and its end extends the measurement log. An image out of place (its code is the model's choice, log 132),
unreadable, malformed or with a wrong digest is refused; one whose signatures are not there or do not verify under the running image's keys (the
two algorithms are uninterpreted, log 49) is refused, one that the store cannot hold too; any other becomes ACTIVE and extends the log. A rewrite
ends. Completes, by their own effect and under conditions on the state and operands alone: MICROPROG_REGISTER, MICROPROG_UNREGISTER,
MICROPROG_LOADED, USTORE_REWRITE_DONE. (R114, R115, R116, R117, R132) -/
def Obligations.MicroprogramStore : Prop :=
  ∀ (index region : Nat) (s : State), 64 ≤ index → index < 256 → region < 4 → s.dev.up = true →
    let d := s.dev
    let status (x : Device) (state result : Nat) := x.withReg (sfuDevPage + 0x50) (BitVec.ofNat 32 (state + result * 256))
    let withFn (x : Device) (i : Nat) (f : Fn) : Device := { x with sfu := { x.sfu with fns := put x.sfu.fns i f (builtinFn i) } }
    ((d.sfu.commands.head?.map (·.1)) ≠ some 1 → exec .microprogRegister s = .next s) ∧
    ((d.sfu.commands.head?.map (·.1)) ≠ some 2 → exec .microprogUnregister s = .next s) ∧
    (∀ op named addr len later, d.sfu.commands = (op, named, addr, len) :: later →
      let taken : Device := { d with sfu := { d.sfu with commands := later } }
      let ends (x : Device) (i : Instr) : Prop := exec i s = .next { s with dev := x }
      -- the built-in functions, and an index in the wrong state
      (op = 1 → named < 64 → ends (status taken 3 1) .microprogRegister) ∧
      (op = 2 → named < 64 → ends (status taken 3 1) .microprogUnregister) ∧
      (op = 1 → 64 ≤ named → (d.fn named).state ≠ .free → ends (status taken 3 2) .microprogRegister) ∧
      (op = 2 → 64 ≤ named → (d.fn named).state ≠ .active → ends (status taken 3 2) .microprogUnregister) ∧
      -- a FREE index is LOADING, and its image will be read
      (op = 1 → 64 ≤ named → (d.fn named).state = .free →
        let x := withFn taken named { state := .loading }
        ends (status { x with sfu := { x.sfu with loads := d.sfu.loads ++ [(named, addr, len)] } } 1 0) .microprogRegister) ∧
      -- an ACTIVE index is RETIRING while a command references it, else FREE, and its end is logged
      (op = 2 → 64 ≤ named → (d.fn named).state = .active → (d.fn named).refs ≠ 0 → (∀ p ∈ d.sfu.fns, p.2.state ≠ .retiring) →
        ∃ u, exec .microprogUnregister s = .next u ∧ u.pending = s.pending ∧ u.dev.q = d.q ∧ u.dev.mm = d.mm ∧
          (u.dev.fn named).state = .retiring ∧ (u.dev.fn named).refs = (d.fn named).refs ∧ (u.dev.fn named).steps = (d.fn named).steps ∧
          (∀ i, i ≠ named → u.dev.fn i = d.fn i) ∧ u.dev.rf.regs = (status taken 2 0).rf.regs) ∧
      (op = 2 → 64 ≤ named → (d.fn named).state = .active → (d.fn named).refs = 0 → (∀ p ∈ d.sfu.fns, p.2.state ≠ .retiring) →
        ∃ u, exec .microprogUnregister s = .next u ∧ u.pending = s.pending ∧ u.dev.q = d.q ∧ u.dev.mm = d.mm ∧
          u.dev.sfu.fns = put (put d.sfu.fns named { d.fn named with state := .retiring } (builtinFn named)) named {} (builtinFn named) ∧ u.dev.rf.regs = (status taken 2 0).rf.regs ∧
          u.dev.se.upLog = sha384 ((d.se.upLog ++ List.replicate 48 0).take 48 ++ toBytes 1 2 ++ toBytes 1 named ++ (d.fn named).digest))) ∧
    -- the image of a LOADING index is read
    (∀ addr len, d.sfu.loads.find? (·.1 = index) = some (index, addr, len) → (d.fn index).state = .loading →
      let d1 : Device := { d with sfu := { d.sfu with loads := d.sfu.loads.filter (·.1 ≠ index) } }
      let b := d.bytesAt 0 addr len
      let refused (x : Device) (code : Nat) := Host.Outcome.next ({ s with dev := status (withFn x index {}) 3 code } : State)
      (addr % 64 ≠ 0 ∨ populatedRange addr len = false → exec (.microprogLoaded index) s = refused d1 3) ∧
      let read := (Upd.touch addr len).run d1
      (addr % 64 = 0 → populatedRange addr len = true → (d.ueIn addr len).isSome = true → exec (.microprogLoaded index) s = refused read 6) ∧
      (addr % 64 = 0 → populatedRange addr len = true → d.ueIn addr len = none → readImage b = none → exec (.microprogLoaded index) s = refused read 3) ∧
      (∀ f, addr % 64 = 0 → populatedRange addr len = true → d.ueIn addr len = none → readImage b = some f →
        sha384 (b.take 16 ++ (b.drop 64).take (8 * f.steps.length)) ≠ f.digest → exec (.microprogLoaded index) s = refused read 6) ∧
      (∀ f, addr % 64 = 0 → populatedRange addr len = true → d.ueIn addr len = none → readImage b = some f →
        sha384 (b.take 16 ++ (b.drop 64).take (8 * f.steps.length)) = f.digest →
        -- its signatures are checked under the running image's keys; the two algorithms are free (log 49)
        if d.imageSigned b f.steps.length = false then exec (.microprogLoaded index) s = refused read 4
        else if 65536 < d.storeUsed + storeBytesOf f.steps.length then exec (.microprogLoaded index) s = refused read 5
        else ∃ u, exec (.microprogLoaded index) s = .next u ∧ u.pending = s.pending ∧ u.dev.q = d.q ∧
          u.dev.sfu = { d1.sfu with fns := put d.sfu.fns index f (builtinFn index) } ∧
          u.dev.se.upLog = sha384 ((d.se.upLog ++ List.replicate 48 0).take 48 ++ toBytes 1 1 ++ toBytes 1 index ++ f.digest))) ∧
    exec (.ustoreRewriteDone region index) s =
      .next { s with dev := { d with sfu := { d.sfu with rewrite := d.sfu.rewrite.filter (· ≠ (region, index)) } } }


/-- The seven census operations answer their command. The oldest operation that a command asked of the census is served by its own row only, where
none stands apart from an engine reset; a pool that is off answers KV_POOL_OFF. ALLOC pops the first allowed tier with a free frame or answers
KV_NOSPACE; COMMIT places a page in an entry of device memory, gives back the old page's reference, leaves an entry that holds the page, and
answers KV_LIST_CONFLICT where the entry holds another; an entry outside device memory is read first; LEASE and UNLEASE set and clear the flag,
LEASE waiting for a migration; SHARE and DROP count references and fill or empty the entry; LOOKUP gives the frame, with one more heat the first
time for a page of a command, or KV_PAGE_FREE. No injection is armed, no line is damaged. Completes, by their own effect and under conditions on
the state and operands alone: ALLOC, COMMIT, LEASE, UNLEASE, SHARE, DROP, LOOKUP. (R136, R137, R138, R139, R155) -/
def Obligations.CensusOperations : Prop :=
  ∀ (e k : Nat) (s : State) (c : Cmd) (op : CensusOp) (rest : List CensusOp) (pa ks : Nat), e < 32 → k < 8 → s.dev.up = true → s.dev.unheld = true →
    s.dev.rf.armed = [] → s.dev.mm.lineErr = [] → (s.dev.slot e k).cur = some c → c.asked = op :: rest →
    -- nothing stands apart from an engine reset (log 46)
    (s.dev.slot (sentEngine e) k).cur = none →
    let d := s.dev
    let i := pageIndex op.page
    let cen := d.census op.region i
    let now := d.numAt ks pa 4
    let current (r j : Nat) : Prop := (d.census r j).decayed (d.pool r).decay = d.census r j
    let answered (o : CensusOp) (a : CensusAns) (looked : Sparse Nat) (heated : List Nat := c.heated) : Queues :=
      (d.withSlot e k { d.slot e k with cur := some { c with asked := rest, answers := c.answers ++ [(o, a)], looked := looked, heated := heated } }).q
    let gives (x : Instr) (o : CensusOp) (a : CensusAns) (u : Upd) : Prop := ∃ t, exec x s = .next t ∧ t.pending = s.pending ∧
      t.dev.q = answered o a c.looked ∧ t.dev.mm.cells = (u.run d).mm.cells
    let refuses (x : Instr) (st : Status) : Prop := ∃ t, exec x s = .next t ∧ t.pending = s.pending ∧ t.dev.q = answered op { status := st } c.looked ∧ t.dev.mm = d.mm
    let rows : List (Instr × Nat) := [(.alloc e k, 1), (.commit e k, 2), (.lease e k, 3), (.unlease e k, 4), (.share e k, 5), (.drop e k, 6), (.lookup e k, 7)]
    (∀ p ∈ rows, op.kind ≠ p.2 → exec p.1 s = .next s) ∧
    (∀ p ∈ rows, op.kind = p.2 → d.kvOn op.region = false → op.page ≠ pageNone → p.2 ≠ 6 → refuses p.1 .kvPoolOff) ∧
    -- ALLOC
    (op.kind = 1 → d.kvOn op.region = true → (∀ t ∈ d.allocTiers op.region op.prefer, d.freeCount op.region t = 0) → refuses (.alloc e k) .kvNospace) ∧
    (∀ t, op.kind = 1 → d.kvOn op.region = true → (d.allocTiers op.region op.prefer).find? (fun t => d.freeCount op.region t ≠ 0) = some t →
      let off := kvpPage op.region + freeOff t
      let p := d.numAt 0 (d.ringAddr op.region t (d.regN (off + 0x8))) 4
      let free := d.census op.region (pageIndex p)
      pageRegion p = op.region → pageIndex p < d.kvLen op.region → current op.region (pageIndex p) → free.refcnt = 0 → free.flags = 0 →
      gives (.alloc e k) op { page := p, frame := d.frameAddr op.region free.frame, refcnt := 1 }
        (.putCensus op.region (pageIndex p) { free with refcnt := 1, flags := 4, owner := e, keySlot := op.keySlot })) ∧
    -- COMMIT
    (op.kind = 2 → op.entry = .mem pa ks → d.kvOn op.region = true → pageRegion op.page2 = op.region → current op.region (pageIndex op.page2) → now = op.page2 → op.page ≠ op.page2 →
      gives (.commit e k) op {} .skip) ∧
    (op.kind = 2 → op.entry = .mem pa ks → d.kvOn op.region = true → pageRegion op.page2 = op.region → current op.region (pageIndex op.page2) → now = op.page → op.page = pageNone →
      (d.census op.region (pageIndex op.page2)).refcnt ≠ 0 →
      let new := d.census op.region (pageIndex op.page2)
      gives (.commit e k) op {} (.all [.putEntry e k op op.page2, .putCensus op.region (pageIndex op.page2) { new with flags := new.flags % 4, owner := 0 }])) ∧
    (op.kind = 2 → op.entry = .mem pa ks → d.kvOn op.region = true → pageRegion op.page2 = op.region → current op.region (pageIndex op.page2) → now = op.page →
      op.page ≠ pageNone → d.kvOn (pageRegion op.page) = true → pageIndex op.page < d.kvLen (pageRegion op.page) →
      current (pageRegion op.page) (pageIndex op.page) → (d.census op.region (pageIndex op.page2)).refcnt ≠ 0 →
      2 ≤ (d.census (pageRegion op.page) (pageIndex op.page)).refcnt →
      let new := d.census op.region (pageIndex op.page2)
      let old := d.census (pageRegion op.page) (pageIndex op.page)
      gives (.commit e k) op {} (.all [.putEntry e k op op.page2, .putCensus op.region (pageIndex op.page2) { new with flags := new.flags % 4, owner := 0 },
        .putCensus (pageRegion op.page) (pageIndex op.page) { old with refcnt := old.refcnt - 1 }])) ∧
    (op.kind = 2 → op.entry = .mem pa ks → d.kvOn op.region = true → pageRegion op.page2 = op.region → current op.region (pageIndex op.page2) →
      now ≠ op.page → now ≠ op.page2 → (d.census op.region (pageIndex op.page2)).pending = false → refuses (.commit e k) .kvListConflict) ∧
    -- an entry that is not in device memory is read first
    (∀ p ∈ rows, ∀ m, op.kind = p.2 → (p.2 = 2 ∨ p.2 = 5 ∨ p.2 = 6) → d.kvOn op.region = true → (∀ a b, op.entry ≠ .mem a b) →
      d.readSegs (slotKey e k) (d.ownerOf (d.slot e k).ctx) [op.seg] = .wait m → d.entryBusy (slotKey e k) op = false →
      exec p.1 s = .next { s with dev := (Upd.issueReads (slotKey e k) m).run d }) ∧
    -- LEASE waits for a migration; UNLEASE
    (op.kind = 3 → d.kvOn op.region = true → current op.region i → cen.migrating = true →
      ∃ t, exec (.lease e k) s = .next t ∧ t.pending = s.pending ∧ t.dev.q = d.q ∧ t.dev.mm = d.mm) ∧
    (op.kind = 3 → d.kvOn op.region = true → current op.region i → cen.migrating = false →
      gives (.lease e k) op { page := op.page, frame := d.frameAddr op.region cen.frame, refcnt := cen.refcnt }
        (.putCensus op.region i { cen with flags := Nat.lor cen.flags 2, owner := e })) ∧
    (op.kind = 4 → d.kvOn op.region = true → current op.region i →
      gives (.unlease e k) op { page := op.page, frame := d.frameAddr op.region cen.frame, refcnt := cen.refcnt }
        (.putCensus op.region i { cen with flags := cen.flags - bits cen.flags 1 1 * 2, owner := 0 })) ∧
    -- SHARE
    (op.kind = 5 → op.entry = .mem pa ks → op.page = pageNone → now = pageNone → refuses (.share e k) .ok) ∧
    (op.kind = 5 → op.entry = .mem pa ks → op.page ≠ pageNone → d.kvOn op.region = true → now = op.page → refuses (.share e k) .ok) ∧
    (op.kind = 5 → op.entry = .mem pa ks → op.page ≠ pageNone → d.kvOn op.region = true → now ≠ op.page → now ≠ pageNone → refuses (.share e k) .kvListConflict) ∧
    (op.kind = 5 → op.entry = .mem pa ks → op.page ≠ pageNone → d.kvOn op.region = true → now = pageNone → d.kvLen op.region ≤ i → refuses (.share e k) .kvPageRange) ∧
    (op.kind = 5 → op.entry = .mem pa ks → op.page ≠ pageNone → d.kvOn op.region = true → now = pageNone → i < d.kvLen op.region → current op.region i → cen.refcnt ≠ 0 →
      cen.refcnt + 1 ≤ 0xFFFFFFFE →
      gives (.share e k) op {} (.all [.putEntry e k op op.page, .putCensus op.region i { cen with refcnt := cen.refcnt + 1 }])) ∧
    -- DROP
    (op.kind = 6 → op.entry = .mem pa ks → now = pageNone → gives (.drop e k) { op with page := pageNone } {} .skip) ∧
    (op.kind = 6 → op.entry = .mem pa ks → now ≠ pageNone → d.kvOn (pageRegion now) = true → pageIndex now < d.kvLen (pageRegion now) → current (pageRegion now) (pageIndex now) →
      2 ≤ (d.census (pageRegion now) (pageIndex now)).refcnt →
      let old := d.census (pageRegion now) (pageIndex now)
      gives (.drop e k) { op with page := now } {} (.all [.putCensus (pageRegion now) (pageIndex now) { old with refcnt := old.refcnt - 1 }, .putEntry e k op pageNone])) ∧
    -- LOOKUP
    (op.kind = 7 → d.kvOn op.region = true → d.kvLen op.region ≤ i → refuses (.lookup e k) .kvPageRange) ∧
    (op.kind = 7 → d.kvOn op.region = true → i < d.kvLen op.region → current op.region i → cen.refcnt = 0 → refuses (.lookup e k) .kvPageFree) ∧
    (op.kind = 7 → d.kvOn op.region = true → i < d.kvLen op.region → current op.region i → cen.refcnt ≠ 0 → c.heated.contains op.page = false →
      ∃ t, exec (.lookup e k) s = .next t ∧ t.pending = s.pending ∧
        t.dev.mm.cells = ((Upd.putCensus op.region i { cen with heat := min (cen.heat + 1) 0xFFFF }).run d).mm.cells ∧
        t.dev.q = answered op { page := op.page, frame := d.frameAddr op.region cen.frame, refcnt := cen.refcnt }
          (put c.looked op.page (d.frameAddr op.region cen.frame + 1) 0) (c.heated ++ [op.page])) ∧
    (op.kind = 7 → d.kvOn op.region = true → i < d.kvLen op.region → current op.region i → cen.refcnt ≠ 0 → c.heated.contains op.page = true →
      ∃ t, exec (.lookup e k) s = .next t ∧ t.pending = s.pending ∧ t.dev.mm = d.mm ∧
        t.dev.q = answered op { page := op.page, frame := d.frameAddr op.region cen.frame, refcnt := cen.refcnt }
          (put c.looked op.page (d.frameAddr op.region cen.frame + 1) 0))


/-- KVP_ENABLE, decay, migration and the clock hand. KVP_ENABLE turns a pool off, or on when its tables are full, with an empty queue, no migration
and its clock hand at 0 (the model's choice, log 129), else reports its error. A decay advance counts one period. A migration starts for the head
of the promotion queue, or drops and counts a page that cannot move (log 128); the exchange copies the page's bytes (their number as last
recorded, log 127), swaps the census entries and quarantines the old page. A demotion scan takes one step of the clock hand. Completes, by their
own effect and under conditions on the state and operands alone: KVP_ENABLE, DECAY_ADVANCE, DEMOTION_SCAN, MIGRATION_START, MIGRATION_EXCHANGE.
(R141, R142, R143, R144, R145) -/
def Obligations.KvPools : Prop :=
  ∀ (r page : Nat) (data : Word) (s : State), s.Inv → r < 4 → s.dev.up = true → s.dev.rf.armed = [] → s.dev.mm.lineErr = [] →
    let d := s.dev
    let p := kvpPage r
    let x := d.pool r
    let log2 := fieldOf (d.reg (p + 0x4C)) 4 0
    let full : Bool := 12 ≤ log2 && log2 ≤ 21 && d.freeCount r 0 = d.frames r 0 && d.freeCount r 1 = d.frames r 1 && d.kvLen r = d.frames r 0 + d.frames r 1
    let withPool (d : Device) (y : Pool) : Device := { d with kv := put d.kv r y {} }
    let cen := d.census r (pageIndex page)
    let current (i : Nat) : Prop := (d.census r i).decayed (d.pool r).decay = d.census r i
    let pop (tier : Nat) := d.numAt 0 (d.ringAddr r tier (d.regN (p + freeOff tier + 0x8))) 4
    let poppable (tier : Nat) : Prop := d.freeCount r tier ≠ 0 ∧ pageRegion (pop tier) = r ∧ pageIndex (pop tier) < d.kvLen r ∧ current (pageIndex (pop tier)) ∧
      (d.census r (pageIndex (pop tier))).refcnt = 0 ∧ (d.census r (pageIndex (pop tier))).flags = 0
    let starts : Bool := d.unheld && d.migrates r && x.promo.head? = some page && x.migs.length < d.migMax r
    -- KVP_ENABLE
    (d.accepts 0 = true → bitOf data 0 = false → exec (.kvpEnable 0 r data) s = .next { s with dev := d.rx.withReg (p + 0x04) 0 }) ∧
    (d.accepts 0 = true → bitOf data 0 = true → d.kvOn r = true → exec (.kvpEnable 0 r data) s = .next { s with dev := d.rx }) ∧
    (d.accepts 0 = true → bitOf data 0 = true → d.kvOn r = false → full = false → exec (.kvpEnable 0 r data) s = .next { s with dev := d.rx.withReg (p + 0x08) 4 }) ∧
    (d.accepts 0 = true → bitOf data 0 = true → d.kvOn r = false → full = true → exec (.kvpEnable 0 r data) s =
      .next { s with dev := (withPool ((d.rx.withReg (p + 0x08) 0).withReg (p + 0x04) 1) { period := fieldOf (d.reg (p + 0x94)) 23 8 }).withReg (p + 0xA8) 0 }) ∧
    -- DECAY_ADVANCE
    (d.unheld = true → d.kvOn r = true → x.period ≠ 0 → exec (.decayAdvance r) s =
      .next { s with dev := withPool d { x with decay := (x.decay + 1) % 2 ^ 24, period := fieldOf (d.reg (p + 0x94)) 23 8 } }) ∧
    ((d.kvOn r = false ∨ x.period = 0) → exec (.decayAdvance r) s = .next s) ∧
    -- MIGRATION_START
    (starts = false → exec (.migrationStart r page) s = .next s) ∧
    (starts = true → { x with promo := x.promo.drop 1 } ≠ {} → current (pageIndex page) → (cen.refcnt = 0 ∨ frameTier cen.frame = 0 ∨ cen.flags ≠ 0 ∨ d.freeCount r 0 = 0) →
      ∃ u, exec (.migrationStart r page) s = .next u ∧ u.pending = s.pending ∧ u.dev.kv = (withPool d { x with promo := x.promo.drop 1 }).kv ∧ u.dev.mm = d.mm ∧
        (d.ctr (p + 0xE8) + 1 ≠ 0 → u.dev.ctr (p + 0xE8) = d.ctr (p + 0xE8) + 1)) ∧
    (starts = true → { x with promo := x.promo.drop 1 } ≠ {} → current (pageIndex page) → cen.refcnt ≠ 0 → frameTier cen.frame = 1 → cen.flags = 0 → poppable 0 →
      ∃ u, exec (.migrationStart r page) s = .next u ∧ u.pending = s.pending ∧
        u.dev.pool r = { x with promo := x.promo.drop 1, migs := x.migs ++ [⟨pageNumber r (pageIndex page), pop 0, true⟩] } ∧
        u.dev.mm.cells = ((Upd.putCensus r (pageIndex page) { cen with flags := 1 }).run d).mm.cells ∧
        u.dev.freeCount r 0 = (BitVec.ofNat 32 (d.freeCount r 0 - 1)).toNat ∧ u.dev.q = d.q) ∧
    -- DEMOTION_SCAN: one step of the clock hand
    ((d.migrates r = false ∨ d.regN (p + 0x9C) ≤ d.freeCount r 0) → exec (.demotionScan r) s = .next s) ∧
    (∀ n, d.unheld = true → d.migrates r = true → d.freeCount r 0 < d.regN (p + 0x9C) → d.kvLen r = n + 1 → x.migs.length < d.migMax r →
      d.freeCount r 0 < d.regN (p + 0xA0) →
      let i := if d.regN (p + 0xA8) < n + 1 then d.regN (p + 0xA8) else 0
      exec (.demotionScan r) s = .next { s with dev := (Upd.all [
        .setReg (p + 0xA8) (BitVec.ofNat 32 (if i + 1 < n + 1 then i + 1 else 0)),
        .census r i .skip (fun c => .when (frameTier c.frame = 0 && c.refcnt ≠ 0 && c.heat ≤ fieldOf (d.reg (p + 0x98)) 15 0 && c.flags = 0)
          (.migrate r i c false .skip)), .scan n r]).run d }) ∧
    -- MIGRATION_EXCHANGE: the page's L bytes are copied (R135, R144); a page released meanwhile is not exchanged (log 47)
    ((∀ m ∈ x.migs, m.page ≠ page) → exec (.migrationExchange r page) s = .next s) ∧
    (∀ m, d.kvOn r = true → x.migs.find? (·.page = page) = some m → current (pageIndex m.page) → current (pageIndex m.other) →
      (d.census r (pageIndex m.page)).migrating = true → { x with migs := x.migs.erase m } ≠ {} →
      let c := d.census r (pageIndex m.page)
      let f := d.census r (pageIndex m.other)
      ∃ u, exec (.migrationExchange r page) s = .next u ∧ u.pending = s.pending ∧
        u.dev.pool r = { x with migs := x.migs.erase m, quar := x.quar ++ [⟨m.other, d.boundaries⟩] } ∧
        u.dev.mm.cells = ((Upd.all [.copyFrame c.keySlot (d.frameAddr r c.frame) (d.frameAddr r f.frame) (look x.lens (pageIndex m.page) 0),
          .putCensus r (pageIndex m.page) { c with frame := f.frame, flags := c.flags - 1 }, .putCensus r (pageIndex m.other) { f with frame := c.frame }]).run d).mm.cells ∧
        u.dev.rf.regs = d.rf.regs ∧ u.dev.q = d.q)


/-- Command boundaries free what waited; weight references, fetch timeout and WGT_ENABLE. At a command boundary, but not while the gong is active, an
engine leaves every waiting list it has passed, and a page all engines have passed returns to its free list. References rise and fall by one; the
last of a RETIRING epoch frees its slot. A fetch timeout marks the job with reads owed. WGT_ENABLE turns the unit off, or on when its tables are
in order, keeping READY epochs as the rule says, else its error is shown. Completes, by their own effect and under conditions on the state and
operands alone: COMMAND_BOUNDARY, EPOCH_REF_INCREMENT, EPOCH_REF_DECREMENT, FETCH_TIMEOUT, WGT_ENABLE. (R145, R169, R170, R172, R173, R179, R206) -/
def Obligations.BoundariesAndWeights : Prop :=
  (∀ (e r page n : Nat) (s : State), s.Inv → e < 32 → r < 4 → s.dev.up = true → s.dev.rf.armed = [] → s.dev.mm.lineErr = [] →
    let d := s.dev
    -- the units start no work while the gong is active (R348)
    (d.unheld = false → exec (.commandBoundary e) s = .next s) ∧ (d.unheld = true →
    let drop (p : Nat × Loaded) : Nat × Loaded := (p.1, { p.2 with wait := p.2.wait.filter fun q => !(q.1 = e && d.passedBoundary e q.2) })
    let quiet : Prop := ∀ p ∈ d.wt.epochs ++ d.wt.adapters, (drop p).2.done = false
    let owes : Bool := d.wt.refMsgs.any fun m => m.1 = e && m.2.2.2
    ((∀ i < 4, d.kvOn i = false) → owes = false → quiet → exec (.commandBoundary e) s =
      .next { s with dev := { d with wt := { d.wt with epochs := d.wt.epochs.map drop, adapters := d.wt.adapters.map drop } } }) ∧
    ((∀ i < 4, d.kvOn i = false) → owes = true → exec (.commandBoundary e) s = .next s) ∧
    ((∀ i < 4, d.kvOn i = (i == r)) → owes = true → (d.pool r).quar = [⟨page, [(e, n)]⟩] → d.passedBoundary e n = true →
      { d.pool r with quar := [] } ≠ {} → (d.census r (pageIndex page)).decayed (d.pool r).decay = d.census r (pageIndex page) →
      let tier := frameTier (d.census r (pageIndex page)).frame
      let tail := d.regN (kvpPage r + freeOff tier + 0xC)
      ∃ u, exec (.commandBoundary e) s = .next u ∧ u.pending = s.pending ∧ u.dev.kv = put d.kv r { d.pool r with quar := [] } {} ∧
        u.dev.mm.cells = ((Upd.writeNum 0 (d.ringAddr r tier tail) 4 page).run d).mm.cells ∧
        u.dev.freeCount r tier = (BitVec.ofNat 32 (d.freeCount r tier + 1)).toNat) ∧
    ((∀ i < 4, d.kvOn i = (i == r)) → owes = true → (d.pool r).quar = [⟨page, [(e, n)]⟩] → d.passedBoundary e n = false →
      ∃ u, exec (.commandBoundary e) s = .next u ∧ u.pending = s.pending ∧ u.dev.kv = put d.kv r (d.pool r) {} ∧ u.dev.mm = d.mm ∧ u.dev.rf = d.rf))) ∧
  (∀ (set k e q : Nat) (m : Nat × Nat × Nat × Bool) (data : Word) (s : State), set < 256 → k < 2 → e < 32 → q < 8 → s.dev.up = true → s.dev.routesClear = true →
    let d := s.dev
    let x := d.epoch set k
    let quiet : Prop := ∀ p ∈ d.wt.epochs ++ d.wt.adapters, p.2.done = false
    let next (inc : Bool) := (headMsgs d.wt.refMsgs).find? fun m => m.2 = (set, k, inc)
    let withEpoch (y : Loaded) : Device := { d with wt := { d.wt with refMsgs := d.wt.refMsgs.erase m, epochs := put d.wt.epochs (set * 2 + k) y {} } }
    let key := slotKey e q
    let owed : Bool := (d.ho.reads.any fun r => r.slot = key && !r.answered && !r.dropped) || (d.lk.reqs.any fun r => r.slot = key && r.kind = .read && !r.answered)
    (next true = none → exec (.epochRefIncrement set k) s = .next s) ∧
    (next false = none → exec (.epochRefDecrement set k) s = .next s) ∧
    (next true = some m → quiet → exec (.epochRefIncrement set k) s = .next { s with dev := withEpoch { x with refs := x.refs + 1 } }) ∧
    (next false = some m → quiet → (x.state ≠ .retiring ∨ 2 ≤ x.refs ∨ x.wait ≠ []) →
      exec (.epochRefDecrement set k) s = .next { s with dev := withEpoch { x with refs := x.refs - 1 } }) ∧
    -- the last reference of a retiring epoch frees its slot
    (next false = some m → quiet → x.state = .retiring → x.refs = 1 → x.wait = [] →
      ∃ u, exec (.epochRefDecrement set k) s = .next u ∧ u.pending = s.pending ∧ u.dev.q = d.q ∧
        u.dev.wt.epochs = put d.wt.epochs (set * 2 + k) (({ x with refs := 0 } : Loaded).emptied .free) {} ∧ u.dev.wt.refMsgs = d.wt.refMsgs.erase m) ∧
    -- FETCH_TIMEOUT
    ((d.job key = none ∨ owed = false) → exec (.fetchTimeout e q) s = .next s) ∧
    (∀ j, d.job key = some j → owed = true → d.unheld = true →
      exec (.fetchTimeout e q) s = .next { s with dev := (Upd.setJob key (some { j with timedOut := true })).run d }) ∧
    -- WGT_ENABLE
    (d.accepts 0 = true → bitOf data 0 = false → exec (.wgtEnable 0 data) s = .next { s with dev := d.rx.withReg (wgtPage + 0x04) 0 }) ∧
    (d.accepts 0 = true → bitOf data 0 = true → d.wgtOn = true → exec (.wgtEnable 0 data) s = .next { s with dev := d.rx }) ∧
    (d.accepts 0 = true → bitOf data 0 = true → d.wgtOn = false → d.rf.armed = [] → d.mm.lineErr = [] → d.tablesOk = false →
      ∃ u, exec (.wgtEnable 0 data) s = .next u ∧ u.pending = s.pending ∧ u.dev.rf.regs = (d.withReg (wgtPage + 0x08) 4).rf.regs ∧
        u.dev.mm = d.mm ∧ u.dev.q = d.q ∧ u.dev.bl = d.bl ∧ u.dev.wt = d.wt) ∧
    (s.Inv → d.accepts 0 = true → bitOf data 0 = true → d.wgtOn = false → d.rf.armed = [] → d.mm.lineErr = [] → d.tablesOk = true →
      (∀ i < 256, d.bytesAt 0 (d.setAddr i) 256 = d.setBytes i) →
      ∃ u, exec (.wgtEnable 0 data) s = .next u ∧ u.pending = s.pending ∧ u.dev.wgtOn = true ∧ u.dev.q = d.q ∧ u.dev.bl = d.bl ∧
        u.dev.wt = { d.wt with known := true, epochs := d.wt.epochs.map fun p => (p.1, p.2.enabled), adapters := [], jobs := [], refMsgs := [], mirror := [] }))

/-- The address map, and what a MEMORY_WRITE and MEMORY_READ do. Device addresses and (part, region, channel, offset) are inverse of each other and
no address lies past a part. A write stores exactly its bytes under its key slot: each reads back, every other byte reads as before, and a slot
of another key generation reads foreign bytes (log 20). An empty slot writes and reads nothing. A write of a part of an uncorrectable line writes
nothing, is counted and flagged. A read counts its bytes; a corrected line is healed and counted; an uncorrectable one is counted, recorded as
the first and left. Completes, by their own effect and under conditions on the state and operands alone: MEMORY_READ, MEMORY_WRITE. (R208, R209,
R210, R211, R212, R215, R217, R218) -/
def Obligations.MemoryReadsAndWrites : Prop :=
  ((∀ c a, c < 32 → a < partBytes c → partOf (physOf c a) = some (c / 16, c % 16 / 4, c % 4, a)) ∧
  (∀ pa x, partOf pa = some x → pa = physOf (x.1 * 16 + x.2.1 * 4 + x.2.2.1) x.2.2.2 ∧ x.2.2.2 < partBytes (x.1 * 16 + x.2.1 * 4 + x.2.2.1)) ∧
  (∀ c, c < 32 → partOf (physOf c (partBytes c)) = none)) ∧
  (∀ (pa key : Nat) (data : List Byte) (s : State), s.Inv → key < 256 → (Instr.memoryWrite pa data key).wf = true → s.dev.up = true → s.dev.keyGen key ≠ 0 →
    let d := s.dev
    let line := pa / 64
    let ctl := ctlPage (ctlOf (line * 64))
    -- a write
    (d.rf.armed = [] → d.mm.lineErr = [] → populatedRange pa data.length = true →
      ∃ u, exec (.memoryWrite pa data key) s = .next u ∧ u.pending = s.pending ∧ u.dev.q = d.q ∧ u.dev.bl = d.bl ∧ u.dev.rf.regs = d.rf.regs ∧
        u.dev.mm.keys = d.mm.keys ∧ u.dev.mm.lineErr = [] ∧
        (∀ i b, data[i]? = some b → u.dev.byteAt key (pa + i) = b) ∧
        (∀ a, (a < pa ∨ pa + data.length ≤ a) → u.dev.byteAt key a = d.byteAt key a) ∧
        (∀ a k, a / 64 ∉ linesOf pa data.length → u.dev.byteAt k a = d.byteAt k a) ∧
        (∀ i k, i < data.length → d.keyGen k ≠ d.keyGen key → ∃ l, u.dev.byteAt k (pa + i) =
          Config.foreignByte ((pa + i) / 64) l (d.keyGen key) (d.keyGen k) ((pa + i) % 64))) ∧
    -- a write under an empty slot is refused; a part of an uncorrectable line is not written, and the line is noted (R215)
    (∀ k, k < 256 → d.keyGen k = 0 → exec (.memoryWrite pa data k) s = .next s ∧ ∀ n, exec (.memoryRead pa n k) s = .next s) ∧
    (d.lineErrAt line = some .uncorrectable → data ≠ [] → pa % 64 + data.length < 64 → populated pa = true →
      ∃ u, exec (.memoryWrite pa data key) s = .next u ∧ u.pending = s.pending ∧ u.dev.mm = d.mm ∧ u.dev.q = d.q ∧
        u.dev.reg (ctl + 0x50) = satInc (d.reg (ctl + 0x50)) ∧ bitOf (u.dev.reg (ctl + 0x0C)) 1 = true) ∧
    -- a read of a whole line
    (∀ len, 0 < len → pa % 64 + len ≤ 64 → populatedRange pa len = true → d.lineErrAt line = none →
      exec (.memoryRead pa len key) s = .next { s with dev := d.withCtr (ctl + 0x80) (d.ctr (ctl + 0x80) + BitVec.ofNat 64 len) }) ∧
    (∀ len, 0 < len → pa % 64 + len ≤ 64 → populatedRange pa len = true → d.lineErrAt line = some .corrected → fieldOf (d.reg (ctl + 0x5C)) 7 0 = 0 →
      ∃ u, exec (.memoryRead pa len key) s = .next u ∧ u.pending = s.pending ∧ u.dev.mm.cells = d.mm.cells ∧ u.dev.mm.lineKey = d.mm.lineKey ∧
        u.dev.mm.lineErr = d.mm.lineErr.filter (·.1 ≠ line) ∧ u.dev.reg (ctl + 0x4C) = satInc (d.reg (ctl + 0x4C)) ∧ bitOf (u.dev.reg (ctl + 0x0C)) 0 = true) ∧
    (∀ len, 0 < len → pa % 64 + len ≤ 64 → populatedRange pa len = true → d.lineErrAt line = some .uncorrectable →
      ∃ u, exec (.memoryRead pa len key) s = .next u ∧ u.pending = s.pending ∧ u.dev.mm = d.mm ∧
        u.dev.reg (ctl + 0x50) = satInc (d.reg (ctl + 0x50)) ∧ bitOf (u.dev.reg (ctl + 0x0C)) 1 = true ∧
        (bitOf (d.reg (ctl + 0x58)) 31 = true → u.dev.reg (ctl + 0x54) = d.reg (ctl + 0x54) ∧ u.dev.reg (ctl + 0x58) = d.reg (ctl + 0x58)) ∧
        (bitOf (d.reg (ctl + 0x58)) 31 = false → u.dev.reg (ctl + 0x54) = BitVec.ofNat 32 (devAddr (line * 64)) ∧
          u.dev.reg (ctl + 0x58) = BitVec.ofNat 32 (2 ^ 31 + bits (devAddr (line * 64)) 32 12))))

/-- PATROL_SCRUB, SPARE_REQ and SPARE_DONE. Patrol moves to the next line, counts a full turn, and is off at rate 0. A spare request of a row of the
part begins its repair, or waits where the controller repairs another (each row once), or is recorded as failed where its bank has no spare left;
one beyond the part is ignored (the model's choice, log 155). A repair's end blows the fuse, clears the row's error count and begins the next
that waits. Which rows and spares exist are values of the configuration (log 22). Completes, by their own effect and under conditions on the
state and operands alone: PATROL_SCRUB, SPARE_REQ, SPARE_DONE. (R213, R214) -/
def Obligations.ScrubAndSpare : Prop :=
  ∀ (c a : Nat) (data : Word) (s : State), s.Inv → c < 32 → s.dev.up = true → s.dev.unheld = true →
    let d := s.dev
    let p := ctlPage c
    let t := d.ctl c
    let line := physOf c t.patrol / 64
    let withCtl (d : Device) (x : Ctl) : Device := { d with mm := { d.mm with ctls := put d.mm.ctls c x {} } }
    let row := d.pair (p + 0x60) % 2 ^ 44
    let used := (d.fuses.repairs.filter fun r => r.1 = c && Config.bankOf c r.2 = Config.bankOf c row).length
    let same (x : Nat) : Bool := Config.rowOf c x = Config.rowOf c row
    let asked : Bool := t.sparing.any same || t.spareDue.any fun q => same (devAddr q)
    (fieldOf (d.reg (p + 0x44)) 15 0 = 0 → exec (.patrolScrub c) s = .next s) ∧
    (fieldOf (d.reg (p + 0x44)) 15 0 ≠ 0 → d.lineErrAt line = none → t.patrol + 64 < partBytes c →
      exec (.patrolScrub c) s = .next { s with dev := withCtl d { t with patrol := t.patrol + 64 } }) ∧
    (fieldOf (d.reg (p + 0x44)) 15 0 ≠ 0 → d.lineErrAt line = none → partBytes c ≤ t.patrol + 64 →
      exec (.patrolScrub c) s = .next { s with dev := (withCtl d { t with patrol := 0, rowErrs := [] }).withReg (p + 0x48) (satInc (d.reg (p + 0x48))) }) ∧
    (d.accepts 0 = true → (bitOf data 0 = false ∨ partBytes c ≤ row) → exec (.spareReq 0 c data) s = .next { s with dev := d.rx }) ∧
    -- a controller repairs one row at a time; the others wait, each row once
    (d.accepts 0 = true → bitOf data 0 = true → row < partBytes c → t.sparing.isSome = true →
      exec (.spareReq 0 c data) s =
        .next { s with dev := if asked then d.rx else withCtl d.rx { t with spareDue := t.spareDue ++ [physOf c row] } }) ∧
    (d.accepts 0 = true → bitOf data 0 = true → row < partBytes c → t.sparing = none →
      if asked then exec (.spareReq 0 c data) s = .next { s with dev := d.rx }
      else if used < Config.spareRows c (Config.bankOf c row) then exec (.spareReq 0 c data) s = .next { s with dev := withCtl d.rx { t with sparing := some row } }
      else ∃ u, exec (.spareReq 0 c data) s = .next u ∧ u.pending = s.pending ∧ u.dev.mm = d.mm ∧ u.dev.fuses = d.fuses ∧ bitOf (u.dev.reg (p + 0x0C)) 4 = true) ∧
    (t.sparing = none → exec (.spareDone c) s = .next s) ∧
    (t.sparing = some a → t.spareDue = [] → d.mm.lineErr = [] →
      ∃ u, exec (.spareDone c) s = .next u ∧ u.pending = s.pending ∧ u.dev.q = d.q ∧ u.dev.fuses = { d.fuses with repairs := d.fuses.repairs ++ [(c, a)] } ∧
        u.dev.mm = { d.mm with ctls := put d.mm.ctls c { t with sparing := none, used := t.used + 1, rowErrs := put t.rowErrs (Config.rowOf c a) 0 0 } {} } ∧
        bitOf (u.dev.reg (p + 0x0C)) 3 = true) ∧
    (∀ pa, t.sparing = some a → t.spareDue = [pa] → ctlOf pa = c →
      let bank := Config.bankOf c (devAddr pa)
      ∃ u, exec (.spareDone c) s = .next u ∧ u.pending = s.pending ∧ u.dev.q = d.q ∧ (u.dev.ctl c).spareDue = [] ∧
        u.dev.fuses = { d.fuses with repairs := d.fuses.repairs ++ [(c, a)] } ∧
        if ((d.fuses.repairs ++ [(c, a)]).filter fun r => r.1 = c && Config.bankOf c r.2 = bank).length < Config.spareRows c bank then
          (u.dev.ctl c).sparing = some (devAddr pa)
        else (u.dev.ctl c).sparing = none ∧ bitOf (u.dev.reg (p + 0x0C)) 4 = true)


/-- Page walks, invalidations and XLT_FLUSH. With no injection armed and no entry of wrong parity: a stream with four misses outstanding stalls; a
buffer hit needs no walk; a second-level hit fills the buffer; a miss takes the lowest free walker or waits for one. A walk that ends in a leaf
fills its set of the second level (8 entries) and the buffer, one that fails fills nothing, and the walker takes the next miss. An invalidation,
of the context that INVAL_CTX names or, by a virtual function, of the map entry written, notes the walks, reads and requests it catches, waits
for them, then drops every entry of buffers, second level and walk cache that it covers (rings it covers are filled again) and, of the physical
function, shows its sequence number. XLT_FLUSH empties one buffer. Completes, by their own effect and under conditions on the state and operands
alone: PAGE_WALK, WALK_COMPLETE, INVALIDATION, INVALIDATION_DONE, XLT_FLUSH. (R223, R224, R225, R226, R227, R394) -/
def Obligations.WalksAndInvalidations : Prop :=
  ∀ (e stream ctx va r fn entry : Nat) (data : Word) (s : State), s.Inv → e < 32 → stream < 16 → ctx < 256 → va < 2 ^ 52 → r < 4 → fn < 65 → entry < 256 →
    (Instr.pageWalk e ctx va stream).wf = true → s.dev.up = true → s.dev.rf.armed = [] →
    let d := s.dev
    let x := d.xl
    let hitTlb := (look x.tlb e []).any (·.covers ctx va)
    let hitL2 := d.l2Entry (e / 8) ctx va
    let prio := d.missPrio e
    let counted (d : Device) (off : Nat) (p : Nat) := d.withCtr (p + off) (d.ctr (p + off) + 1)
    let range := max 16 (min 52 (fieldOf (d.reg (xltDevPage + 0x5C)) 5 0))
    let whole : Prop := (∀ t ∈ look x.tlb e [], t.covers ctx va = true → t.bad = false) ∧ (∀ t, hitL2 = some t → t.bad = false)
    -- PAGE_WALK: a stream with 4 misses outstanding stalls; a hit in the engine's buffer; one in the second level (R224, R225)
    (4 ≤ d.missesOf e stream → exec (.pageWalk e ctx va stream) s = .next s) ∧
    (whole → hitTlb = true → exec (.pageWalk e ctx va stream) s = .next s) ∧
    (∀ t, whole → d.missesOf e stream < 4 → hitTlb = false → hitL2 = some t →
      exec (.pageWalk e ctx va stream) s = .next { s with dev := (Upd.buffer e t).run (counted d 0x60 (xltRegionPage (e / 8))) }) ∧
    -- a miss takes the lowest free walker of its region, or waits for one
    (∀ w, whole → d.missesOf e stream < 4 → hitTlb = false → hitL2 = none → d.freeWalker (e / 8) prio = some w →
      exec (.pageWalk e ctx va stream) s = .next { s with dev := { counted d 0x68 (xltRegionPage (e / 8)) with
        xl := { x with walks := x.walks ++ [⟨e / 8, w, e, stream, prio, ctx, va⟩] } } }) ∧
    (whole → d.missesOf e stream < 4 → hitTlb = false → hitL2 = none → d.freeWalker (e / 8) prio = none →
      exec (.pageWalk e ctx va stream) s = .next { s with dev := { d with xl := { x with misses := x.misses ++ [⟨e / 8, 0, e, stream, prio, ctx, va⟩] } } }) ∧
    -- WALK_COMPLETE: the translation is filled, or the walk ends without one; the walker takes the next miss
    (∀ w, w < 8 → (x.walks.find? fun y => y.region = r && y.walker = w) = none → exec (.walkComplete r w) s = .next s) ∧
    (∀ y, y.walker < 8 → (x.walks.find? fun z => z.region = r && z.walker = y.walker) = some y → d.mm.lineErr = [] →
      ((look x.walkCache r []).any fun t => t.covers y.ctx y.va && t.bad) = false →
      let took (u : State) : Prop := u.pending = s.pending ∧ u.dev.q = d.q ∧ u.dev.mm = d.mm ∧ u.dev.rf.regs = d.rf.regs ∧
        (d.nextMiss r y.walker = none → u.dev.xl.walks = x.walks.erase y ∧ u.dev.xl.misses = x.misses) ∧
        (∀ m, d.nextMiss r y.walker = some m → u.dev.xl.walks = x.walks.erase y ++ [{ m with walker := y.walker }] ∧ u.dev.xl.misses = x.misses.erase m)
      (∀ pte log2, d.walk (d.rootOf y.ctx) y.va = .leaf pte log2 →
        let t : TlbEntry := ⟨y.ctx, y.va / 2 ^ log2 * 2 ^ log2, log2, BitVec.ofNat 64 pte, false, false⟩
        ∃ u, exec (.walkComplete r y.walker) s = .next u ∧ took u ∧
          look u.dev.xl.l2 (l2Set r t.base log2) [] = (t :: (look x.l2 (l2Set r t.base log2) []).filter fun z => !z.same t).take 8 ∧
          u.dev.xl.tlb = ((Upd.buffer y.engine t).run d).xl.tlb) ∧
      (∀ cause entry, d.walk (d.rootOf y.ctx) y.va = .fail cause entry →
        ∃ u, exec (.walkComplete r y.walker) s = .next u ∧ took u ∧ u.dev.xl.l2 = x.l2 ∧ u.dev.xl.tlb = x.tlb ∧ u.dev.xl.walkCache = x.walkCache)) ∧
    -- INVALIDATION: of the context that INVAL_CTX names, or, by a virtual function, of its map entry (R394)
    let target := if fn = 0 then d.invalTarget 0 else d.invalEntry fn entry
    (d.accepts fn = true → target = none → exec (.invalidation fn data entry) s = .next { s with dev := d.rx }) ∧
    (∀ c, d.accepts fn = true → target = some c →
      ∃ u i, exec (.invalidation fn data entry) s = .next u ∧ u.pending = s.pending ∧ u.dev.xl = { x with invals := x.invals ++ [i] } ∧ i.fn = fn ∧
        i.seq = fieldOf data 15 0 ∧ i.ctx = c ∧ i.base = d.pair (xltDevPage + 0x54) ∧ i.log2 = range ∧
        i.walks = (x.walks.map fun w => (w.region, w.walker)) ∧ u.dev.q = d.q ∧ u.dev.mm = d.mm) ∧
    -- INVALIDATION_DONE: not while something it waits for is unfinished; then no entry that it covers is left, but for rings filled again
    (x.invals = [] → exec .invalidationDone s = .next s) ∧
    (∀ i rest, x.invals = i :: rest → (i.walks ≠ [] ∨ (d.ho.reads.any fun z => i.reads.contains z.id && !z.answered) = true ∨ (d.lk.reqs.any fun z => i.reqs.contains z.id && !z.answered) = true) → exec .invalidationDone s = .next s) ∧
    (∀ i rest, x.invals = i :: rest → i.walks = [] → (∀ z ∈ d.ho.reads, z.id ∈ i.reads → z.answered = true) → (∀ z ∈ d.lk.reqs, z.id ∈ i.reqs → z.answered = true) →
      ∃ u, exec .invalidationDone s = .next u ∧ u.pending = s.pending ∧ u.dev.xl.invals = rest ∧
        (d.pinsHit i = [] → ∀ k t, t ∈ look u.dev.xl.tlb k [] → i.hits t = false) ∧ (∀ k t, t ∈ look u.dev.xl.l2 k [] → i.hits t = false) ∧
        (∀ k t, t ∈ look u.dev.xl.walkCache k [] → i.hitsPage t.ctx t.base t.log2 = false) ∧
        (i.fn = 0 → u.dev.reg (xltDevPage + 0x64) = BitVec.ofNat 32 i.seq) ∧ u.dev.q = d.q ∧ u.dev.mm = d.mm) ∧
    -- XLT_FLUSH
    (d.accepts 0 = true → bitOf data 0 = true → exec (.xltFlush 0 e data) s = .next { s with dev := { d.rx with xl := { x with tlb := put x.tlb e [] [] } } }) ∧
    (d.accepts 0 = true → bitOf data 0 = false → exec (.xltFlush 0 e data) s = .next { s with dev := d.rx })


/-- PCIe completions, their timeout, and ATS. With no injection armed: a completion answers the open read it names with its bytes, or as failed; a
poisoned one is discarded, counted as an error and answers as failed; a timeout fails it; one that names nothing is an unexpected completion and
changes nothing else. An ATS answer lets the waiting read go to its translated address, marked so, or fails it; an ATS invalidation drops the
entries it covers, and its completion is sent once the reads it caught are answered. Completes, by their own effect and under conditions on the
state and operands alone: PCIE_COMPLETION, COMPLETION_TIMEOUT, ATS_TRANSLATION_COMPLETION, ATS_INVALIDATION_REQUEST, ATS_INVALIDATION_COMPLETION.
(R228, R229, R230, R386, R387, R405) -/
def Obligations.HostReadAnswers : Prop :=
  ∀ (fn id tag addr target log2 : Nat) (ok rd wr : Bool) (bytes : List Byte) (s : State), s.Inv → fn < 65 → tag < 32 → s.dev.up = true → s.dev.rf.armed = [] →
    let d := s.dev
    let h := d.ho
    let x := d.xl
    let open' (r : HostRead) : Bool := r.id = id && !r.answered && !r.ats
    let answered (r : HostRead) (good : Bool) (bs : List Byte) : HostRead := { r with answered := true, failed := !good, data := (bs ++ List.replicate r.len 0).take r.len }
    let now (good : Bool) (bs : List Byte) : List HostRead := (h.reads.map fun r => if r.id = id then answered r good bs else r).filter fun r => !(r.dropped && r.answered)
    let size := max 12 log2
    let base := addr / 2 ^ size * 2 ^ size
    -- the engines' own accesses that wait for the page (R228, R256, R271)
    let asks := h.asks.filter fun a => a.fn = fn && !a.granted && base ≤ a.addr && a.addr < base + 2 ^ size
    let waiting := h.reads.filter fun r => r.ats && d.readFn r = fn && base ≤ r.addr && r.addr < base + 2 ^ size
    -- PCIE_COMPLETION
    -- one for no read is an Unexpected Completion (R405)
    (h.reads.find? open' = none → (∀ po, exec (.pcieCompletion id ok bytes po) s = .next { s with dev := (Upd.aer .unexpectedCompletion).run d }) ∧
      exec (.completionTimeout id) s = .next s) ∧
    (∀ r, h.reads.find? open' = some r → d.accepts (d.readFn r) = true →
      exec (.pcieCompletion id true bytes) s = .next { s with dev := { d.withCtr (pcxPage + 0x80) (d.ctr (pcxPage + 0x80) + BitVec.ofNat 64 r.len) with
        ho := { h with reads := now true bytes } } }) ∧
    (∀ r, h.reads.find? open' = some r → d.accepts (d.readFn r) = true →
      ∃ u, exec (.pcieCompletion id false bytes) s = .next u ∧ u.pending = s.pending ∧ u.dev.ho.reads = now false bytes ∧ u.dev.core = d.core ∧
        bitOf (u.dev.reg (pcxPage + 0x0C)) 1 = true) ∧
    -- a poisoned completion counts as an error (R387)
    (∀ r, h.reads.find? open' = some r → d.accepts (d.readFn r) = true →
      ∃ u, exec (.pcieCompletion id ok bytes { poisoned := true }) s = .next u ∧ u.pending = s.pending ∧ u.dev.ho.reads = now false bytes ∧ u.dev.core = d.core ∧
        bitOf (u.dev.reg (pcxPage + 0x0C)) 2 = true) ∧
    (∀ r, h.reads.find? open' = some r →
      ∃ u, exec (.completionTimeout id) s = .next u ∧ u.pending = s.pending ∧ u.dev.ho.reads = now false [] ∧ u.dev.core = d.core ∧
        bitOf (u.dev.reg (pcxPage + 0x0C)) 1 = true) ∧
    -- ATS
    ((x.atsOn.contains fn = false ∨ waiting = [] ∧ asks = []) → exec (.atsTranslationCompletion fn addr ok target log2 rd wr) s = .next s) ∧
    (∀ r, x.atsOn.contains fn = true → d.accepts fn = true → d.unheld = true → waiting = [r] → asks = [] → (∀ p ∈ h.behind, p.1 ≠ fn) → r.write = false → (d.ide (d.streamOf fn)).failed = false →
      let entry : AtcEntry := ⟨fn, base, size, target / 2 ^ size * 2 ^ size, true, wr, false⟩
      let d1 : Device := { d with xl := { x with atc := (entry :: x.atc).take 4096 } }
      let reads := h.reads.map fun z => if z.id = r.id then { z with ats := false } else z
      let sent := .hostReadReq fn r.id (d1.hostAddr fn r.addr) r.len (d1.hostMark fn r.addr) :: h.sent
      exec (.atsTranslationCompletion fn addr true target log2 true wr) s =
        .next { s with dev := { d1 with ho := { h with reads := reads, sent := sent } } }) ∧
    (∀ r, x.atsOn.contains fn = true → d.accepts fn = true → waiting = [r] → asks = [] → (∀ p ∈ h.behind, p.1 ≠ fn) → r.write = false →
      ∃ u, exec (.atsTranslationCompletion fn addr false target log2 rd wr) s = .next u ∧ u.pending = s.pending ∧ u.dev.xl.atc = x.atc ∧
        u.dev.ho.reads = (h.reads.map fun z => if z.id = r.id then { z with answered := true, failed := true, ats := false } else z) ∧
        bitOf (u.dev.reg (xltDevPage + 0x0C)) 1 = true ∧ u.dev.q = d.q ∧ u.dev.mm = d.mm) ∧
    (d.accepts fn = true →
      ∃ u, exec (.atsInvalidationRequest fn tag addr log2) s = .next u ∧ u.pending = s.pending ∧
        u.dev.xl.atc = (x.atc.filter fun y => !(y.fn = fn && y.base < base + 2 ^ size && base < y.base + 2 ^ y.log2)) ∧
        (∃ ids, u.dev.xl.atsInvals = x.atsInvals ++ [(fn, tag, ids)]) ∧ u.dev.ho = h ∧ u.dev.q = d.q ∧ u.dev.mm = d.mm) ∧
    ((x.atsInvals.find? fun y => y.1 = fn && y.2.1 = tag) = none → exec (.atsInvalidationCompletion fn tag) s = .next s) ∧
    (∀ y, (x.atsInvals.find? fun y => y.1 = fn && y.2.1 = tag) = some y → (h.reads.any fun r => y.2.2.contains r.id && !r.answered) = true →
      exec (.atsInvalidationCompletion fn tag) s = .next s) ∧
    (∀ y, (x.atsInvals.find? fun y => y.1 = fn && y.2.1 = tag) = some y → (h.reads.any fun r => y.2.2.contains r.id && !r.answered) = false →
      (d.ide (d.streamOf fn)).failed = false →
      let d1 : Device := { d with xl := { x with atsInvals := x.atsInvals.erase y } }
      exec (.atsInvalidationCompletion fn tag) s = .next { s with dev := { d1 with ho := { h with sent := .invalCpl fn tag :: h.sent } } })


/-- Inbound windows, and inbound WRITE, READ and BELL requests. IN_CFG puts the staged entry in force for the physical function only. A request acts
once its packet has been delivered by the port, and gives back its credits; while this device holds, each is answered HOLD. A request its window
or bell group permits is carried out and answered; one it refuses changes no memory, queue or bell, and the first reason is kept. The checks of a
window come in their order. Completes, by their own effect and under conditions on the state and operands alone: IN_CFG, WRITE, READ, BELL.
(R234, R235, R281, R297, R305) -/
def Obligations.InboundRequests : Prop :=
  (∀ (fn : Nat) (data : Word) (s : State), fn < 65 → s.dev.up = true →
    let d := s.dev
    let w := fieldOf (d.reg (winPage + 0x48)) 9 0
    let entry := (d.pair (winPage + 0x4C) % 2 ^ 44, fieldOf (d.reg (winPage + 0x54)) 21 0, data &&& 0xF0FF1FFF)
    (d.accepts 0 = true → exec (.inCfg 0 data) s = .next { s with dev := { d.rx with xl := { d.xl with winIn := put d.xl.winIn w entry (0, 0, 0), winBad := d.xl.winBad.filter (· ≠ 1024 + w) } } }) ∧
    (d.accepts fn = true → fn ≠ 0 → exec (.inCfg fn data) s = .next { s with dev := d.rx })) ∧
  (∀ (p src seq window offset len index : Nat) (data : List Byte) (v : Word64) (k : Packet) (s : State), s.Inv → p < 18 → src < 8192 → seq < 2 ^ 22 →
    window < 1024 → offset < 2 ^ 42 → index < 2 ^ 17 → 1 ≤ data.length → data.length ≤ 512 → 1 ≤ len → len ≤ 512 →
    let d := s.dev
    let write : Instr := .writeReq p src seq window offset data
    let read : Instr := .readReq p src seq window offset len
    let bell : Instr := .bellReq p src seq index v
    let isWrite (x : Packet) : Bool := x.type = 1 && x.src = src && x.seq = seq && x.window = window && x.offset = offset && x.data = data
    let isRead (x : Packet) : Bool := x.type = 2 && x.src = src && x.seq = seq && x.window = window && x.offset = offset && x.len + 1 = len
    let isBell (x : Packet) : Bool := x.type = 5 && x.src = src && x.seq = seq && x.offset = index && x.data = toBytes 8 v.toNat
    let page := belPage (bellRegion index)
    let got (f : Packet → Bool) : Prop := d.arrived p f = some k
    -- the packet has left the port's buffers; its credits go back (R291, R293)
    let took : Device := (Upd.port p fun q => { q.owe k.vc (· + k.units) with rx := q.rx.erase k }).run d
    let back (x : Device) : Device := (Upd.returnCredits p).run x
    let served (n : Nat) := (took.withCtr n (took.ctr n + 1)).withCtr (zwlPage + 0x88) ((took.withCtr n (took.ctr n + 1)).ctr (zwlPage + 0x88) + 1)
    let now (i : Instr) (u : Device) : Prop := exec i s = .next { s with dev := u }
    -- what the port has not delivered does not act
    (d.arrived p isWrite = none → now write d) ∧ (d.arrived p isRead = none → now read d) ∧ (d.arrived p isBell = none → now bell d) ∧
    -- while this device holds, each is answered with HOLD (R306)
    (d.lk.holdTx = true → (got isWrite → now write (back (took.responding src 6 seq 0 []))) ∧ (got isRead → now read (back (took.responding src 6 seq 0 []))) ∧
      (got isBell → now bell (back (took.responding src 6 seq 0 [])))) ∧
    -- carried out and answered (R297)
    (∀ pa key, got isWrite → d.lk.holdTx = false → d.windowCheck src window offset data.length true = .inr (pa, key) →
      now write (back (((Upd.write key pa data).run (served (winPage + 0x60))).responding src 4 seq 0 []))) ∧
    (∀ pa key, got isRead → d.lk.holdTx = false → d.windowCheck src window offset len false = .inr (pa, key) →
      now read (back (((Upd.touch pa len).run (served (winPage + 0x60))).responding src 3 seq (len - 1) (d.bytesAt key pa len)))) ∧
    (got isBell → d.lk.holdTx = false → d.groupDenies index src = 0 → d.bellWhole index = true →
      ∃ u, exec bell s = .next u ∧ u.pending = s.pending ∧ u.dev.bl.bells = ((Upd.bellSignal index v).run d).bl.bells ∧
        u.dev.q = ((Upd.bellSignal index v).run d).q ∧ u.dev.mm = d.mm) ∧
    -- refused (R234, R281): memory and bells stay, the first reason is kept
    (∀ why, got isWrite → d.lk.holdTx = false → d.windowCheck src window offset data.length true = .inl why → why < 5 →
      ∃ u, exec write s = .next u ∧ u.pending = s.pending ∧ u.dev.mm = d.mm ∧ u.dev.q = d.q ∧ u.dev.bl = d.bl ∧
        (bitOf (d.reg (winPage + 0x5C)) 31 = false → u.dev.reg (winPage + 0x5C) = BitVec.ofNat 32 (2 ^ 31 + why * 2 ^ 28 + window * 2 ^ 16 + src))) ∧
    (∀ why, got isRead → d.lk.holdTx = false → d.windowCheck src window offset len false = .inl why → why < 5 →
      ∃ u, exec read s = .next u ∧ u.pending = s.pending ∧ u.dev.mm = d.mm ∧ u.dev.q = d.q ∧ u.dev.bl = d.bl) ∧
    (got isBell → d.lk.holdTx = false → d.groupDenies index src ≠ 0 →
      ∃ u, exec bell s = .next u ∧ u.pending = s.pending ∧ u.dev.bl = d.bl ∧ u.dev.mm = d.mm ∧ u.dev.q = d.q ∧
        (bitOf (d.reg (page + 0x70)) 31 = false →
          u.dev.reg (page + 0x70) = BitVec.ofNat 32 (2 ^ 31 + d.groupDenies index src * 2 ^ 28 + src * 2 ^ 15 + index % 32768))) ∧
    -- the checks, in order
    (∀ n wr, d.rf.armed = [] → d.xl.winBad = [] →
      let w := look d.xl.winIn window (0, 0, 0)
      let cfg := w.2.2
      (bitOf cfg 31 = false → d.windowCheck src window offset n wr = .inl 1) ∧
      (bitOf cfg 31 = true → d.keyGen (fieldOf cfg 23 16) ≠ 0 → w.2.1 * 2 ^ 21 < offset + n → d.windowCheck src window offset n wr = .inl 2) ∧
      (∀ pa key, d.windowCheck src window offset n wr = .inr (pa, key) →
        bitOf cfg 31 = true ∧ offset + n ≤ w.2.1 * 2 ^ 21 ∧ bitOf cfg (if wr then 29 else 30) = true ∧
        (bitOf cfg 28 = true ∨ fieldOf cfg 12 0 = src) ∧ pa = w.1 / 2 ^ 21 * 2 ^ 21 + offset ∧ key = fieldOf cfg 23 16)))

/-- Fault records: written, counted or held, and FLT_TAIL and FLT_ENABLE. With the queue off a record is only counted. Otherwise it is written at
HEAD with the next number. With the ring full it is counted, and the engine that holds none yet holds it while the slots of its context freeze. A
tail that frees room writes the held record with its held flag and thaws; a tail out of range is ignored; FLT.CTRL takes bits 1 and 0, and
turning the queue off drops what is held. Writes of a virtual function change nothing. Completes, by their own effect and under conditions on the
state and operands alone: FAULT_RECORD, FLT_TAIL_WRITE, FLT_ENABLE. (R237, R238, R239, R357) -/
def Obligations.FaultQueues : Prop :=
  ∀ (r : Nat) (data : Word) (s : State), s.Inv → r < 4 → s.dev.up = true → s.dev.rf.armed = [] →
    let d := s.dev
    let p := fltPage r
    let head := d.regN (p + 0x48)
    let addr := d.pair (p + 0x40) % 2 ^ 44 / 65536 * 65536 + head % 1024 * 64
    let seq := (look d.fl.seq r 0 + 1) % 2 ^ 32
    let found := d.fl.detected.find? (·.region = r)
    let tail := fieldOf data 10 0
    let free := ∀ b < 8, (d.eng (r * 8 + b)).held = none
    let passed (u : State) (rec : FaultRec) (n : Nat) : Prop := u.pending = s.pending ∧ u.dev.fl.detected = d.fl.detected.erase rec ∧
      u.dev.fl.toLog = d.fl.toLog ++ [{ rec with regionSeq := n }] ∧ u.dev.bl = d.bl ∧ u.dev.wt = d.wt ∧ u.dev.q.ctxs = d.q.ctxs
    (found = none → exec (.faultRecord r) s = .next s) ∧
    -- the queue is off: only counted
    (∀ rec, found = some rec → bitOf (d.reg (p + 0x04)) 0 = false →
      ∃ u, exec (.faultRecord r) s = .next u ∧ passed u rec 0 ∧ u.dev.mm = d.mm ∧ u.dev.q = d.q ∧ u.dev.reg (p + 0x50) = satInc (d.reg (p + 0x50)) ∧
        u.dev.reg (p + 0x48) = d.reg (p + 0x48)) ∧
    -- written at HEAD, with the next number
    (∀ rec, found = some rec → bitOf (d.reg (p + 0x04)) 0 = true → d.ringUsed r < 1024 → populated addr = true →
      ∃ u, exec (.faultRecord r) s = .next u ∧ passed u rec seq ∧ u.dev.q = d.q ∧ u.dev.fl.seq = put d.fl.seq r seq 0 ∧
        u.dev.reg (p + 0x48) = BitVec.ofNat 32 ((head + 1) % 2048) ∧
        u.dev.mm.cells = ((Upd.write 0 addr (recordBytes rec seq (d.regN (p + 0x50)) (head / 1024 % 2 = 0) false)).run d).mm.cells) ∧
    -- the ring is full: the engine holds the record and the slots of its context freeze
    (∀ rec c, found = some rec → bitOf (d.reg (p + 0x04)) 0 = true → 1024 ≤ d.ringUsed r → rec.ctx = some c → rec.source / 16 < 8 →
      (d.eng (r * 8 + rec.source / 16)).held = none →
      let e := r * 8 + rec.source / 16
      ∃ u, exec (.faultRecord r) s = .next u ∧ passed u rec 0 ∧ u.dev.mm = d.mm ∧ u.dev.reg (p + 0x50) = satInc (d.reg (p + 0x50)) ∧
        u.dev.q.engines = put d.q.engines e { d.eng e with held := some rec } {} ∧
        (∀ k < 8, (d.slot e k).state ≠ .unbound → (d.slot e k).ctx = c → u.dev.slot e k = { d.slot e k with frozen := true }) ∧
        (∀ k < 8, (d.slot e k).ctx ≠ c → u.dev.slot e k = d.slot e k)) ∧
    (∀ rec, found = some rec → bitOf (d.reg (p + 0x04)) 0 = true → 1024 ≤ d.ringUsed r →
      (rec.ctx = none ∨ 8 ≤ rec.source / 16 ∨ (d.eng (r * 8 + rec.source / 16)).held ≠ none) →
      ∃ u, exec (.faultRecord r) s = .next u ∧ passed u rec 0 ∧ u.dev.mm = d.mm ∧ u.dev.q = d.q ∧ u.dev.reg (p + 0x50) = satInc (d.reg (p + 0x50))) ∧
    (∀ fn, fn ≠ 0 → fn ≤ 64 → d.accepts fn = true →
      exec (.fltTailWrite fn r data) s = .next { s with dev := d.rx } ∧ exec (.fltEnable fn r data) s = .next { s with dev := d.rx }) ∧
    -- FLT_TAIL_WRITE
    (d.accepts 0 = true → 1024 < (head + 2048 - tail) % 2048 → exec (.fltTailWrite 0 r data) s = .next { s with dev := d.rx }) ∧
    (d.accepts 0 = true → (head + 2048 - tail) % 2048 ≤ 1024 → free →
      exec (.fltTailWrite 0 r data) s = .next { s with dev := d.rx.withReg (p + 0x4C) (BitVec.ofNat 32 tail) }) ∧
    (∀ b rec, d.accepts 0 = true → (head + 2048 - tail) % 2048 < 1024 → bitOf (d.reg (p + 0x04)) 0 = true → populated addr = true → b < 8 →
      (d.eng (r * 8 + b)).held = some rec → (∀ i < 8, i ≠ b → (d.eng (r * 8 + i)).held = none) →
      ∃ u, exec (.fltTailWrite 0 r data) s = .next u ∧ u.pending = s.pending ∧ u.dev.reg (p + 0x48) = BitVec.ofNat 32 ((head + 1) % 2048) ∧
        u.dev.q.engines = put d.q.engines (r * 8 + b) { d.eng (r * 8 + b) with held := none } {} ∧
        (∀ k < 8, (d.slot (r * 8 + b) k).state ≠ .unbound → u.dev.slot (r * 8 + b) k = { d.slot (r * 8 + b) k with frozen := false }) ∧
        u.dev.mm.cells = ((Upd.write 0 addr (recordBytes rec seq (d.regN (p + 0x50)) (head / 1024 % 2 = 0) true)).run d).mm.cells) ∧
    -- FLT_ENABLE
    (d.accepts 0 = true → (bitOf data 0 = true ∨ free) → exec (.fltEnable 0 r data) s = .next { s with dev := d.rx.withReg (p + 0x04) (data &&& 3) }) ∧
    (∀ b, d.accepts 0 = true → bitOf data 0 = false → b < 8 → (d.eng (r * 8 + b)).held.isSome = true → (∀ i < 8, i ≠ b → (d.eng (r * 8 + i)).held = none) →
      ∃ u, exec (.fltEnable 0 r data) s = .next u ∧ u.pending = s.pending ∧ u.dev.mm = d.mm ∧ u.dev.fl = d.fl ∧
        u.dev.q.engines = put d.q.engines (r * 8 + b) { d.eng (r * 8 + b) with held := none } {} ∧
        (∀ k < 8, (d.slot (r * 8 + b) k).state ≠ .unbound → u.dev.slot (r * 8 + b) k = { d.slot (r * 8 + b) k with frozen := false }))


/-- Device log entries, and die-to-die retransmissions. A log entry is numbered and placed at HEAD, with the interrupt status where its error is
enabled or fatal; with the ring full it goes to the overflow entry and is counted; where a link of its route is made to fail it does not arrive
and nothing is written. A die link that ends at the die, with no injection armed, counts its retransmissions, and eight failures in a row ask for
a device reset with cause 0x0401. Completes, by their own effect and under conditions on the state and operands alone: DEVICE_LOG_ENTRY,
NOC_RETRANSMIT. (R26, R358, R359, R360, R375) -/
def Obligations.DeviceLogAndDieLinks : Prop :=
  (∀ (s : State), s.Inv →
    let d := s.dev
    let head := d.regN (rstDevPage + 0x48)
    let seq := (d.fl.logSeq + 1) % 2 ^ 32
    let ovf := d.regN (rstDevPage + 0x54)
    (d.fl.toLog = [] → exec .deviceLogEntry s = .next s) ∧
    ((d.clk.power = .off ∨ d.clk.power = .perst) → exec .deviceLogEntry s = .next s) ∧
    (∀ rec rest, d.fl.toLog = rec :: rest → d.clk.power ≠ .off → d.clk.power ≠ .perst → d.nocArmed rec.region 6 = none → d.logUsed < 256 → rec.enabled = false → rec.level ≠ 3 →
      let d1 : Device := { d with fl := { d.fl with toLog := rest, logSeq := seq, log := put d.fl.log (head % 256) (logBytes rec seq ovf) [] } }
      exec .deviceLogEntry s = .next { s with dev := d1.withReg (rstDevPage + 0x48) (BitVec.ofNat 32 ((head + 1) % 512)) }) ∧
    (∀ rec rest, d.fl.toLog = rec :: rest → d.clk.power ≠ .off → d.clk.power ≠ .perst → d.nocArmed rec.region 6 = none → d.logUsed < 256 → (rec.enabled = true ∨ rec.level = 3) →
      ∃ u, exec .deviceLogEntry s = .next u ∧ u.pending = s.pending ∧ u.dev.core = d.core ∧
        u.dev.fl = { d.fl with toLog := rest, logSeq := seq, log := put d.fl.log (head % 256) (logBytes rec seq ovf) [] } ∧
        u.dev.reg (rstDevPage + 0x48) = BitVec.ofNat 32 ((head + 1) % 512) ∧ bitOf (u.dev.reg (rstDevPage + 0x0C)) 0 = true) ∧
    -- an injected link fault on its route: the entry does not arrive
    (∀ rec rest, d.fl.toLog = rec :: rest → d.clk.power ≠ .off → d.clk.power ≠ .perst → d.nocArmed rec.region 6 ≠ none →
      ∃ u, exec .deviceLogEntry s = .next u ∧ u.pending = s.pending ∧ rest <+: u.dev.fl.toLog ∧ u.dev.fl.log = d.fl.log ∧ u.dev.reg (rstDevPage + 0x48) = d.reg (rstDevPage + 0x48)) ∧
    -- a full ring: the overflow entry
    (∀ rec rest, d.fl.toLog = rec :: rest → d.clk.power ≠ .off → d.clk.power ≠ .perst → d.nocArmed rec.region 6 = none → 256 ≤ d.logUsed →
      ∃ u, exec .deviceLogEntry s = .next u ∧ u.pending = s.pending ∧ u.dev.core = d.core ∧ u.dev.fl.log = d.fl.log ∧ u.dev.fl.toLog = rest ∧ u.dev.fl.logSeq = seq ∧
        u.dev.reg (rstDevPage + 0x48) = d.reg (rstDevPage + 0x48) ∧ u.dev.reg (rstDevPage + 0x54) = satInc (d.reg (rstDevPage + 0x54)) ∧
        u.dev.fl.ovf = logBytes rec seq (satInc (d.reg (rstDevPage + 0x54))).toNat ∧ bitOf (u.dev.reg (rstDevPage + 0x0C)) 2 = true)) ∧
  (∀ (die link fails : Nat) (s : State), (die < 4 ∨ die = 6 ∨ die = 7) → link < 8 →
    let d := s.dev
    let ctr := nocPage die + 0x60 + 8 * link
    (linkEnds die link = false → exec (.nocRetransmit die link fails) s = .next s) ∧
    (linkEnds die link = true → d.up = true → d.rf.armed = [] → fails < 8 →
      exec (.nocRetransmit die link fails) s = .next { s with dev := d.withCtr ctr (d.ctr ctr + BitVec.ofNat 64 fails) }) ∧
    (linkEnds die link = true → d.up = true → d.rf.armed = [] → 8 ≤ fails → d.fl.devReset = none →
      ∃ u, exec (.nocRetransmit die link fails) s = .next u ∧ u.pending = s.pending ∧ u.dev.core = d.core ∧
        u.dev.fl.devReset = some (causeWord 2 0x0401) ∧ u.dev.fl.resets = d.fl.resets))

/-- Flits in their turn, NAK, MAC, key change, idle flits and retraining. A good data flit in its turn joins the open group; one out of turn is
discarded and asked for once, a damaged one each time it comes. A NAK in its turn sends the kept flits again from the one named, as they were,
while the gong does not hold them back; the eighth in a row retrains the port. A key change in its turn takes the next receive key where one is
there (else nothing but its number, log 137). An idle flit has no number of its own, and its credits count. A MAC flit whose group verifies,
under the key of its phase and with the counter expected (log 158), delivers the group, and the credits of its flits count; one that fails
discards it and asks for its first flit again, the third in a row takes the port down. The replay buffer lets its oldest flit go at its expiry. A
retrain ends with numbering from zero and the free buffers made known (logs 6, 135). A port that is not on takes nothing. Completes, by their own
effect and under conditions on the state and operands alone: DATA_FLIT, NAK, REPLAY_EXPIRY, KEY_CHANGE, IDLE_FLIT, MAC_FLIT, RETRAIN_DONE. (R291,
R293, R294, R295, R296, R299) -/
def Obligations.LinkFlits : Prop :=
  (∀ (p seq : Nat) (h : FlitHead) (ps : List Packet) (s : State), p < 18 → seq < 2 ^ 16 → h.wf = true →
    let d := s.dev
    let q := d.port p
    let again := fromSeq q.replay seq
    let n := if q.nakSeq = seq then q.resends + 1 else 1
    let now (i : Instr) (u : Device) : Prop := exec i s = .next { s with dev := u }
    let same (u : State) : Prop := u.pending = s.pending ∧ u.dev.q = d.q ∧ u.dev.mm = d.mm ∧ u.dev.bl = d.bl
    -- the port once it has taken the flit that it expects, and the device with the flit's credits
    let q1 : Port := { q with rxSeq := (h.seq + 1) % 65536, nakSent := false }
    let credited (x : Device) : Device := (Upd.takeCredit p h).run x
    let mine : Bool := d.portOn p && h.good && h.seq = q.rxSeq
    let quiet : Prop := q.waiting = [] ∧ q.txOpen = 0 ∧ q.txGroup < 2 ^ 62 ∧ q.nakDue = none
    -- the credits of a flit (R291, R293)
    (h.credit = 0 → credited d = d.withPort p { q with acked := h.ack, credit := put q.credit h.vc (look q.credit h.vc 0) 0 }) ∧
    (h.credit ≠ 0 → q.state ≠ .down → quiet → d.unheld = true →
      credited d = d.withPort p { q with acked := h.ack, credit := put q.credit h.vc (look q.credit h.vc 0 + h.credit) 0 }) ∧
    -- DATA_FLIT: a flit in its turn, good, joins its group, whose tag its credits await; one out of turn is discarded and asked for
    -- once, a damaged one each time (R294)
    (mine = true → d.unheld = true → (∀ x ∈ ps, x.mark = false) →
      now (.dataFlit p h ps) (d.withPort p { q1 with group := q.group ++ [⟨h, ps⟩] })) ∧
    (d.portOn p = true → d.unheld = true → h.good = true → h.seq ≠ q.rxSeq → q.nakSent = true → now (.dataFlit p h ps) d) ∧
    (d.portOn p = true → d.unheld = true → h.good = true → h.seq ≠ q.rxSeq → q.nakSent = false →
      now (.dataFlit p h ps) ((Upd.sendFlit p (.nak q.rxSeq)).run (d.withPort p { q with nakSent := true }))) ∧
    (d.portOn p = true → d.unheld = true → h.good = false → d.rf.armed = [] →
      ∃ u, exec (.dataFlit p h ps) s = .next u ∧ same u ∧ (u.dev.port p).rxSeq = q.rxSeq ∧ (u.dev.port p).group = q.group ∧ (u.dev.port p).nakSent = true) ∧
    (d.portOn p = false → now (.dataFlit p h ps) d ∧ now (.nak p seq h) d ∧ now (.keyChange p h) d ∧ now (.idleFlit p h.ack h.vc h.credit h.good) d) ∧
    -- NAK: the flits from the one named on are sent again as they were (R294)
    (mine = true → d.unheld = true → again ≠ [] → n < 8 → h.credit = 0 →
      ∃ u, exec (.nak p seq h) s = .next u ∧ same u ∧ (u.dev.port p).resends = n ∧ (u.dev.port p).nakSeq = seq ∧ (u.dev.port p).replay = q.replay ∧
        u.dev.ho.sent = (again.map fun x => Msg.flit p x.1 true).reverse ++ d.ho.sent ∧ u.dev.fl = d.fl) ∧
    (mine = true → again ≠ [] → 8 ≤ n → h.credit = 0 →
      ∃ u, exec (.nak p seq h) s = .next u ∧ same u ∧ (u.dev.port p).state = .training ∧ (u.dev.port p).resends = 0 ∧
        (u.dev.port p).replay = q.replay ∧ (∀ r, r ≠ p → u.dev.port r = d.port r)) ∧
    (mine = true → d.unheld = false → again ≠ [] → n < 8 → h.credit = 0 →
      ∃ u, exec (.nak p seq h) s = .next u ∧ same u ∧ (u.dev.port p).nakDue = some seq ∧ u.dev.ho.sent = d.ho.sent) ∧
    (mine = true → again = [] → now (.nak p seq h) (credited (d.withPort p q1))) ∧
    -- REPLAY_EXPIRY (R299), KEY_CHANGE (R296; log 137)
    now (.replayExpiry p) (d.withPort p { q with replay := q.replay.drop 1 }) ∧
    (∀ k, mine = true → q.rxNext = some k → now (.keyChange p h) (credited (d.withPort p { q1 with rxPhase := !q.rxPhase, rxGroup := 0, rxKey := k, rxNext := none }))) ∧
    (mine = true → q.rxNext = none → now (.keyChange p h) (credited (d.withPort p q1))) ∧
    -- IDLE_FLIT: it has no number of its own
    (d.portOn p = true → h.good = true → now (.idleFlit p h.ack h.vc h.credit h.good) (credited d))) ∧
  (∀ (p : Nat) (h : FlitHead) (ok : Bool) (counter : Option Nat) (s : State), p < 18 → h.wf = true →
    let d := s.dev
    let q := d.port p
    let page := portPage p
    let now (i : Instr) (u : Device) : Prop := exec i s = .next { s with dev := u }
    let same (u : State) : Prop := u.pending = s.pending ∧ u.dev.q = d.q ∧ u.dev.mm = d.mm ∧ u.dev.bl = d.bl
    let q1 : Port := { q with rxSeq := (h.seq + 1) % 65536, nakSent := false }
    let mine : Bool := d.portOn p && h.good && h.seq = q.rxSeq
    let verifies : Bool := ok && counter.all (· = q.rxGroup) && h.phase = q.rxPhase && q.group.all (·.head.phase = q.rxPhase)
    -- MAC_FLIT: a group that verifies under the key of its phase, with the counter expected, is delivered, and its credits count (R293,
    -- R295, R296)
    (mine = true → verifies = true → now (.macFlit p h ok counter) ((Upd.takeCredit p h).run ((Upd.each q.group fun g => .takeCredit p g.head).run
      ((d.withCtr (page + 0x68) (d.ctr (page + 0x68) + BitVec.ofNat 64 q.group.length)).withPort p
        { q1 with rx := q.rx ++ q.group.flatMap (·.packets), group := [], macRun := 0, rxGroup := q.rxGroup + 1 })))) ∧
    -- a failed tag discards it, and is a NAK for its first flit
    (mine = true → verifies = false → q.macRun < 2 → d.rf.armed = [] → h.credit = 0 →
      ∃ u, exec (.macFlit p h ok counter) s = .next u ∧ same u ∧ (u.dev.port p).state = q.state ∧ (u.dev.port p).group = [] ∧ (u.dev.port p).rx = q.rx ∧
        (u.dev.port p).macRun = q.macRun + 1 ∧ (u.dev.port p).rxSeq = ((q.group.head?).map (·.head.seq)).getD h.seq ∧ (u.dev.port p).nakSent = true) ∧
    -- the third in a row takes the port down
    (mine = true → verifies = false → 2 ≤ q.macRun → d.rf.armed = [] → h.credit = 0 →
      ∃ u, exec (.macFlit p h ok counter) s = .next u ∧ same u ∧ (u.dev.port p).state = .down ∧ (u.dev.port p).replay = [] ∧ (u.dev.port p).waiting = []) ∧
    (d.portOn p = false → now (.macFlit p h ok counter) d) ∧
    -- RETRAIN_DONE: both ends number their flits anew, and the free buffers are made known (R294, R299; log 6, 135)
    (d.up = true → q.state = .training → q.lanes ≠ 0 →
      now (.retrainDone p) ((Upd.pump p).run ((Upd.advertise p).run (d.withPort p { q with
        state := if d.lk.holdTx then .holdTx else .up, replay := [], txSeq := 0, rxSeq := 0, nakSent := false, nakSeq := 0, nakDue := none })))) ∧
    (q.state ≠ .training ∨ q.lanes = 0 ∨ d.up = false → now (.retrainDone p) d))

/-- Answers to requests, rejections, and the end-to-end timeout. For a request that is the only one to answer to a source and number: a delivered
READ_DATA gives its bytes to a READ, ACK ends a BELL or a WRITE sent once and marks one sent more often as answered, REJECT ends a write's
command with TRANSLATION_FAULT or MEM_UE, keeps a read's reason and ends a BELL; what answers a READ of a command that has ended is dropped. An
answer of the wrong kind, one not delivered, or one that names nothing changes nothing but the credits. A timeout sends the request again, by the
next port if one leads there. An answered WRITE is retired. Completes, by their own effect and under conditions on the state and operands alone:
READ_DATA, ACK, REJECT, E2E_TIMEOUT, WRITE_RETIRE. (R297, R299, R300, R305) -/
def Obligations.LinkAnswers : Prop :=
  ∀ (p src seq why id : Nat) (data : List Byte) (x : Packet) (r : Req) (l k : List Req) (s : State), p < 18 → src < 8192 → seq < 2 ^ 22 → why < 8 →
    1 ≤ data.length → data.length ≤ 512 →
    let d := s.dev
    let now (i : Instr) (u : Device) : Prop := exec i s = .next { s with dev := u }
    -- the requests before r, r, those after it; only r answers to src and seq, and has its number; every other one has been sent
    d.lk.reqs = l ++ r :: k → r.dst = src → r.seq = seq → r.id = id → (∀ y ∈ l ++ k, y.id ≠ id ∧ ¬ (y.dst = src ∧ y.seq = seq) ∧ y.sends ≠ 0) →
    -- the answer's packet has left the port's buffers; its credits go back (R291, R293)
    let took : Device := (Upd.port p fun q => { q.owe x.vc (· + x.units) with rx := q.rx.erase x }).run d
    let back (y : Device) : Device := (Upd.returnCredits p).run y
    let got (t : Nat) (f : Packet → Bool) : Prop := d.arrived p (fun y => y.type = t && y.src = src && y.seq = seq && f y) = some x
    let any' (_ : Packet) : Bool := true
    let isRead : Prop := got 3 fun y => y.data = data
    let isReject : Prop := got 7 fun y => y.len = why
    (d.peer src = .normal → r.answered = false → r.kind = .read → r.orphan = false →
      (isRead → now (.readData p src seq data) (back (took.withReqs
        (l ++ { r with answered := true, answer := (data ++ List.replicate r.len 0).take r.len } :: k)))) ∧
      (got 4 any' → now (.ack p src seq) (back took)) ∧
      (isReject → now (.reject p src seq why) (back (took.withReqs (l ++ { r with answered := true, reason := why } :: k))))) ∧
    -- a read of a command that has ended is dropped (R269)
    (d.peer src = .normal → r.answered = false → r.kind = .read → r.orphan = true →
      (isRead → now (.readData p src seq data) (back (took.withReqs (l ++ k)))) ∧ (isReject → now (.reject p src seq why) (back (took.withReqs (l ++ k))))) ∧
    (d.peer src = .normal → r.answered = false → r.kind = .bell →
      (got 4 any' → now (.ack p src seq) (back (took.withReqs (l ++ k)))) ∧ (isRead → now (.readData p src seq data) (back took))) ∧
    (d.peer src = .normal → r.answered = false → r.kind = .write → r.sends = 1 → got 4 any' → now (.ack p src seq) (back (took.withReqs (l ++ k)))) ∧
    (d.peer src = .normal → r.answered = false → r.kind = .write → 1 < r.sends → r.sends ≠ 0 → got 4 any' →
      now (.ack p src seq) (back (took.withReqs (l ++ { r with answered := true } :: k)))) ∧
    (d.peer src = .hold → r.answered = false → r.kind = .bell → got 4 any' →
      now (.ack p src seq) (back ((took.withPeer src .normal 0).withReqs (l ++ k)))) ∧
    -- an answer that has not arrived, or that names no request, changes nothing else
    (∀ t, t < 2 ^ 22 → (d.arrived p fun y => y.type = 4 && y.src = src && y.seq = t && any' y) = none → now (.ack p src t) d) ∧
    (∀ t, t < 2 ^ 22 → d.peer src = .normal → (∀ y ∈ d.lk.reqs, ¬ (y.dst = src ∧ y.seq = t)) →
      (d.arrived p fun y => y.type = 4 && y.src = src && y.seq = t && any' y) = some x → now (.ack p src t) (back took)) ∧
    -- a rejected write ends its command; one sent more than once is retired later (R299)
    (d.peer src = .normal → r.answered = false → r.kind = .write → r.sends = 1 → (d.slot (r.slot / 8) (r.slot % 8)).cur = none → isReject →
      now (.reject p src seq why) (back (took.withReqs (l ++ k)))) ∧
    (∀ c, d.peer src = .normal → r.answered = false → r.kind = .write → r.sends ≠ 0 → (d.slot (r.slot / 8) (r.slot % 8)).cur = some c → c.status = none → isReject →
      ∃ u, exec (.reject p src seq why) s = .next u ∧ u.pending = s.pending ∧
        u.dev.lk.reqs = (if r.sends = 1 then l ++ k else l ++ { r with answered := true, reason := why } :: k) ∧
        ∃ c', (u.dev.slot (r.slot / 8) (r.slot % 8)).cur = some c' ∧ c'.status = some (if why = 5 then .memUe else .translationFault)) ∧
    (d.peer src = .normal → r.answered = false → r.kind = .bell → isReject →
      ∃ u, exec (.reject p src seq why) s = .next u ∧ u.pending = s.pending ∧ u.dev.lk.reqs = l ++ k ∧ u.dev.bl = d.bl ∧ u.dev.q = d.q ∧ u.dev.mm = d.mm) ∧
    -- resending (R297)
    (d.up = true → d.unheld = true → r.answered = false → 1 ≤ r.sends → d.nextPort src = none →
      now (.e2eTimeout id) ((d.withReqs (l ++ { r with sends := r.sends + 1, lastSent := d.now } :: k)).withCtr (zwlPage + 0x90) (d.ctr (zwlPage + 0x90) + 1))) ∧
    (∀ q, d.up = true → d.unheld = true → r.answered = false → 1 ≤ r.sends → d.nextPort src = some q →
      ∃ u, exec (.e2eTimeout id) s = .next u ∧ u.pending = s.pending ∧ u.dev.lk.reqs = l ++ { r with sends := r.sends + 1, lastSent := d.now } :: k ∧
        u.dev.lk.turn = put d.lk.turn src q 17 ∧ u.dev.q = d.q ∧ u.dev.mm = d.mm ∧ u.dev.bl = d.bl) ∧
    -- an answered WRITE is retired, one not yet answered stays (R299)
    (d.up = true → r.answered = true → r.kind = .write → now (.writeRetire id) (d.withReqs (l ++ k))) ∧
    (r.answered = false ∨ r.kind ≠ .write → now (.writeRetire id) d)


/-- Peer states HOLD and LOST, and this device holding its links. A NORMAL peer that answers HOLD, announces it or is silent is in HOLD; HOLD_OFF
returns it; one that stays away is LOST and the commands whose requests await it end PEER_LOST; PEER_CLEAR returns it. RELEASE ends this device's
own holding, tells the partner of a held port and sends what waited; the beacon repeats the announcement. Both are stated for one held port.
Completes, by their own effect and under conditions on the state and operands alone: HOLD, HOLD_ON, HOLD_OFF, PEER_SILENT, PEER_LOST, PEER_CLEAR,
RELEASE, HOLD_BEACON. (R305, R306, R307, R308, R309) -/
def Obligations.PeersAndHolding : Prop :=
  ∀ (p src seq : Nat) (h : FlitHead) (k : Packet) (data : Word) (s : State), p < 18 → src < 8192 → seq < 2 ^ 22 → h.wf = true →
    let d := s.dev
    let q := d.port p
    let waiting := d.lk.reqs.any fun r => r.dst = src && !r.answered
    let now (i : Instr) (u : Device) : Prop := exec i s = .next { s with dev := u }
    let mine : Bool := d.portOn p && h.good && h.seq = q.rxSeq
    let q1 : Port := { q with rxSeq := (h.seq + 1) % 65536, nakSent := false }
    let got : Option Packet := d.arrived p fun y => y.type = 6 && y.src = src && y.seq = seq && true
    let took : Device := (Upd.port p fun q => { q.owe k.vc (· + k.units) with rx := q.rx.erase k }).run d
    let same (u : State) : Prop := u.pending = s.pending ∧ u.dev.q = d.q ∧ u.dev.mm = d.mm ∧ u.dev.lk.reqs = d.lk.reqs
    -- a NORMAL peer that answers with HOLD, announces it or is silent enters HOLD
    (got = some k → d.peer src = .normal → ∃ u, exec (.hold p src seq) s = .next u ∧ same u ∧ u.dev.peer src = .hold) ∧
    (got = some k → d.peer src ≠ .normal → now (.hold p src seq) ((Upd.returnCredits p).run took)) ∧
    (got = none → now (.hold p src seq) d) ∧
    (d.up = true → d.unheld = true → waiting = true → d.peer src = .normal →
      ∃ u, exec (.peerSilent src) s = .next u ∧ same u ∧ u.dev.lk = (d.withPeer src .hold d.now).lk) ∧
    (waiting = false ∨ d.unheld = false ∨ d.peer src ≠ .normal → now (.peerSilent src) d) ∧
    (mine = true → h.credit = 0 → d.peer src = .normal → ∃ u, exec (.holdOn p src h) s = .next u ∧ same u ∧ u.dev.peer src = .hold ∧
      (u.dev.port p).state = (if q.state = .up ∧ q.partnerSwitch = false then .holdRx else q.state)) ∧
    -- HOLD_OFF
    (mine = true → now (.holdOff p src h) ((Upd.takeCredit p h).run ((if d.peer src = .hold then d.withPeer src .normal 0 else d).withPort p
      { q1 with state := if q.state = .holdRx then .up else q.state }))) ∧
    -- a held peer that stays away is LOST: the commands whose requests wait for it end (R309)
    (d.peer src ≠ .hold → now (.peerLost src) d) ∧
    (d.up = true → d.peer src = .hold → (∀ r ∈ d.lk.reqs, r.sends ≠ 0) → ∃ u, exec (.peerLost src) s = .next u ∧ u.pending = s.pending ∧
      u.dev.lk = { (d.withPeer src .lost d.now).lk with reqs := d.lk.reqs.filter fun r => !(r.dst = src && !r.answered) } ∧
      u.dev.mm = d.mm ∧ u.dev.bl = d.bl ∧ u.dev.wt = d.wt ∧
      ∀ r ∈ d.lk.reqs, r.dst = src → r.answered = false → r.kind ≠ .bell → r.orphan = false →
        ∀ c, (d.slot (r.slot / 8) (r.slot % 8)).cur = some c → c.status = none →
        ∃ c', (u.dev.slot (r.slot / 8) (r.slot % 8)).cur = some c' ∧ c'.status = some .peerLost) ∧
    -- PEER_CLEAR returns the peer that PEER_SEL shows to NORMAL
    (fieldOf (d.reg (zwlPage + 0x58)) 12 0 = src → d.accepts 0 = true → d.up = true → bitOf data 31 = true → d.peer src = .lost →
      now (.peerClear 0 data) (d.rx.withPeer src .normal 0)) ∧
    (fieldOf (d.reg (zwlPage + 0x58)) 12 0 = src → d.accepts 0 = true → bitOf data 31 = false ∨ d.peer src ≠ .lost → now (.peerClear 0 data) d.rx) ∧
    -- this device's own holding
    (d.accepts 0 = true → bitOf data 0 = false ∨ d.lk.holdTx = false → now (.release 0 data) d.rx) ∧
    (d.accepts 0 = true → d.up = true → bitOf data 0 = true → d.lk.holdTx = true → q.state = .holdTx → (∀ i < 18, i ≠ p → (d.port i).state ≠ .holdTx) →
      let d1 : Device := { d.rx with lk := { d.lk with holdTx := false } }
      now (.release 0 data) ((Upd.pump p).run ((Upd.sendFlit p .holdOff).run (d1.withPort p { q with state := .up })))) ∧
    (d.lk.holdTx = false → now .holdBeacon d) ∧
    (d.lk.holdTx = true → d.clk.power ≠ .off → d.clk.power ≠ .perst → q.state = .holdTx → (∀ i < 18, i ≠ p → (d.port i).state ≠ .holdTx) →
      now .holdBeacon ((Upd.sendFlit p .holdOn).run d))


/-- Port enable, retrain, training and lanes. The port controls wait for the next management tick and then act: enable begins training, disable takes
the port down, retrain retrains. Training that succeeds on all lanes leaves the port up (or holding) with fresh numbering, a fresh key and salt
for each direction (uninterpreted, log 160), the requester's role taken by the device of the lower number or beside a switch, and its free
buffers made known; otherwise, or without entropy, it fails. A lost lane takes the port down and out of the routes. Completes, by their own
effect and under conditions on the state and operands alone: PORT_ENABLE, PORT_RETRAIN, PORT_TRAINED, LANE_DOWN. (R38, R289, R290, R296, R407,
R422) -/
def Obligations.LinkPorts : Prop :=
  ∀ (p partner : Nat) (sw ok healthy : Bool) (lanes : Nat) (data : Word) (s : State), p < 18 → partner < 2 ^ 18 → lanes < 256 →
    let d := s.dev
    let q := d.port p
    let ctl := portPage p + 0x04
    let now (i : Instr) (u : Device) : Prop := exec i s = .next { s with dev := u }
    -- the controls wait for the next management tick
    (d.accepts 0 = true → d.up = true →
      now (.portEnable 0 p data) (d.rx.withReg ctl ((data &&& 3) ||| (d.reg ctl &&& 2))) ∧
      now (.portRetrain 0 p data) (d.rx.withReg ctl ((data &&& 3) ||| (d.reg ctl &&& 2)))) ∧
    -- then they act
    (∀ old new : Word, bitOf new 0 = true → bitOf old 0 = false → (Upd.portControl p old new).run d = (Upd.portDown p .training).run d) ∧
    (∀ old new : Word, bitOf new 0 = true → bitOf old 0 = true → bitOf new 1 = true → q.state = .up → (Upd.portControl p old new).run d = (Upd.retrain p).run d) ∧
    (∀ old new : Word, bitOf new 0 = false → bitOf old 0 = true → (Upd.portControl p old new).run d = (Upd.portDown p .down).run d) ∧
    -- partner training ends: a fresh key for each direction (opaque, log 160); the lower device, or the device beside a switch, is the requester
    (d.up = true → q.state = .training → q.lanes = 0 → d.clk.lostLink = false → d.se.rngBad = false →
      now (.portTrained p true sw 255 partner) ((Upd.pump p).run ((Upd.advertise p).run (({ d with free := d.free + 1 } : Device).withPort p { q with
        txKey := ⟨Config.linkKey d.free 0, Config.linkSalt d.free 0⟩, rxKey := ⟨Config.linkKey d.free 1, Config.linkSalt d.free 1⟩,
        requester := sw || d.devId < partner % 8192,
        state := if d.lk.holdTx then .holdTx else .up, lanes := 255, partnerSwitch := sw, partner := (partner % 8192, partner / 8192), txSeq := 0,
        rxSeq := 0, txGroup := 0, rxGroup := 0, txPhase := false, rxPhase := false, replay := [], group := [], rx := [], nakSeq := 0, acked := 0 })))) ∧
    (d.up = true → q.state = .training → q.lanes = 0 → d.clk.lostLink = false → ok = false ∨ lanes ≠ 255 ∨ healthy = false ∨ d.se.rngBad = true →
      ∃ u, exec (.portTrained p ok sw lanes partner healthy) s = .next u ∧ u.pending = s.pending ∧ (u.dev.port p).state = .failed ∧ (u.dev.port p).lanes = 0 ∧
        (∀ i, i ≠ p → u.dev.port i = d.port i) ∧ u.dev.q = d.q ∧ u.dev.mm = d.mm) ∧
    (q.state ≠ .training → now (.portTrained p ok sw lanes partner healthy) d) ∧
    -- a trained port goes down
    (d.portOn p = true → ∃ u, exec (.laneDown p) s = .next u ∧ u.pending = s.pending ∧ (u.dev.port p).state = .down ∧ (u.dev.port p).lanes = 0 ∧
      (u.dev.port p).waiting = [] ∧ (u.dev.port p).replay = [] ∧ (∀ i, i ≠ p → u.dev.port i = d.port i) ∧ u.dev.lk.reqs = d.lk.reqs ∧
      u.dev.q = d.q ∧ u.dev.mm = d.mm ∧ ∀ dst, p ∉ u.dev.portsTo dst) ∧
    (q.state = .down → now (.laneDown p) d)


/-- CLR_COUNTERS of each page clears its counters and nothing else. Bit 0 of each page's CLR register (ARR, VEC, SFU, EXP, ENG, NOC, BEL; bit 1 of
DGS.CTRL), written by the physical function, empties exactly the counters of that page's range; a write with the bit clear, or by a virtual
function, changes no counter. Completes, by their own effect and under conditions on the state and operands alone: ARR_CLR_COUNTERS,
VEC_CLR_COUNTERS, SFU_CLR_COUNTERS, EXP_CLR_COUNTERS, ENG_CLR_COUNTERS, NOC_CLR_COUNTERS, BEL_CLR_COUNTERS, DGS_CLR_COUNTERS. (R448, R454, R395) -/
def Obligations.CountersCleared : Prop :=
  (∀ (fn e c r die : Nat) (data : Word) (s : State), fn < 65 → e < 32 → c < 4 → r < 4 → (die < 4 ∨ die = 6 ∨ die = 7) →
    s.dev.accepts fn = true → s.dev.up = true → s.dev.cellOn e c = true → s.dev.blockOn e = true →
    ∀ row ∈ [(Instr.arrClrCounters fn e c data, arrPage e c, 0x97), (.vecClrCounters fn e c data, vecPage e c, 0x7F),
        (.sfuClrCounters fn e c data, sfuPage e c, 0x77), (.expClrCounters fn e c data, expPage e c, 0x87),
        (.engClrCounters fn e data, engPage e, 0x87), (.nocClrCounters fn die data, nocPage die, 0xAF)],
      let keep := s.dev.rx.rf.ctrs.filter fun p => !(row.2.1 + 0x60 ≤ p.1 && p.1 ≤ row.2.1 + row.2.2)
      (fn = 0 → bitOf data 0 = true → exec row.1 s = .next { s with dev := { s.dev.rx with rf := { s.dev.rx.rf with ctrs := keep } } }) ∧
      ((fn ≠ 0 ∨ bitOf data 0 = false) → exec row.1 s = .next { s with dev := s.dev.rx })) ∧
  (∀ (r : Nat) (data : Word) (s : State), r < 4 → s.dev.accepts 0 = true → s.dev.up = true →
    let d := s.dev.rx
    (∀ fn, fn ≠ 0 → fn ≤ 64 → s.dev.accepts fn = true →
      exec (.belClrCounters fn r data) s = .next { s with dev := d } ∧ exec (.dgsClrCounters fn data) s = .next { s with dev := d }) ∧
    let keep (base : Nat) (hi : Nat) (low : Nat) := d.rf.ctrs.filter fun p => !(base + low ≤ p.1 && p.1 ≤ base + hi)
    (bitOf data 0 = true → exec (.belClrCounters 0 r data) s = .next { s with dev := { d with rf := { d.rf with ctrs := keep (belPage r) 0x9F 0x80 } } }) ∧
    (bitOf data 0 = false → exec (.belClrCounters 0 r data) s = .next { s with dev := d }) ∧
    (bitOf data 1 = true → exec (.dgsClrCounters 0 data) s = .next { s with dev :=
      { d.withReg (dgsPage + 0x04) (data &&& 1) with rf := { (d.withReg (dgsPage + 0x04) (data &&& 1)).rf with ctrs := keep dgsPage 0x7F 0x60 } } }) ∧
    (bitOf data 1 = false → exec (.dgsClrCounters 0 data) s = .next { s with dev := d.withReg (dgsPage + 0x04) (data &&& 1) }))

/-- Counter clears and selections at a boundary, and counter matches. CNT_CLEAR of the physical function is staged once; with no command under way
SELECTION_APPLY puts what is staged in force: a clear empties all the engine's counts, a selection leaves the counts as they are and raises
CNT.GEN; with a command running or preempted it does nothing (log 161). MATCH_ARM arms the selected counter with its threshold and actions,
firing at once if the count is there, or disarms it. An armed counter below its threshold stays armed; at it, it fires once, with the interrupt
flag and the gong where its actions ask for them. Writes of a virtual function change nothing. Completes, by their own effect and under
conditions on the state and operands alone: CNT_CLEAR, SELECTION_APPLY, MATCH_ARM, COUNTER_MATCH. (R332, R336, R338) -/
def Obligations.CounterSelection : Prop :=
  ∀ (e i fn : Nat) (data : Word) (s : State), e < 32 → i < 64 → fn ≤ 64 → s.dev.accepts 0 = true → s.dev.up = true → s.dev.blockOn e = true → s.dev.unheld = true →
    let d := s.dev
    let m := e * 64 + d.matchSel e
    let thr := look d.ob.thr m (0, 0, 0)
    let wanted : Word64 := BitVec.ofNat 64 (thr.1.toNat + thr.2.1.toNat * 2 ^ 32)
    let applied (x : Observe) : Prop := x.cnt = (if d.ob.clrStaged.contains e then d.ob.cnt.filter fun p => p.1 / 64 ≠ e else d.ob.cnt) ∧
      x.clrStaged = d.ob.clrStaged.filter (· ≠ e) ∧ x.selStaged = d.ob.selStaged.filter (· ≠ e) ∧ x.armed = d.ob.armed ∧
      (d.ob.selStaged.contains e = false → x.sel = d.ob.sel)
    -- a clear is staged
    (bitOf data 0 = false → exec (.cntClear 0 e data) s = .next { s with dev := d.rx }) ∧
    (bitOf data 0 = true → d.ob.clrStaged.contains e = true → exec (.cntClear 0 e data) s = .next { s with dev := d.rx }) ∧
    (fn ≠ 0 → d.accepts fn = true → exec (.cntClear fn e data) s = .next { s with dev := d.rx } ∧ exec (.matchArm fn e data) s = .next { s with dev := d.rx }) ∧
    (bitOf data 0 = true → d.ob.clrStaged.contains e = false →
      exec (.cntClear 0 e data) s = .next { s with dev := { d.rx with ob := { d.ob with clrStaged := d.ob.clrStaged ++ [e] } } }) ∧
    -- and takes effect with no command under way (log 161)
    (d.midCommand e = true → exec (.selectionApply e) s = .next s) ∧
    (d.midCommand e = false → ∃ t, exec (.selectionApply e) s = .next t ∧ t.pending = s.pending ∧ applied t.dev.ob ∧ t.dev.q = d.q ∧ t.dev.mm = d.mm ∧
      t.dev.reg (cntPage e + 0x40) = d.reg (cntPage e + 0x40) + (if d.ob.selStaged.contains e then 1 else 0)) ∧
    (d.midCommand e = false → d.ob.clrStaged.contains e = true → d.ob.selStaged.contains e = false →
      exec (.selectionApply e) s = .next { s with dev := { d with ob := { d.ob with
        cnt := d.ob.cnt.filter fun p => p.1 / 64 ≠ e, clrStaged := d.ob.clrStaged.filter (· ≠ e) } } }) ∧
    -- a selection in force changes which events count, not the counts
    (d.midCommand e = false → d.ob.clrStaged.contains e = false → d.ob.selStaged.contains e = true →
      ∃ t, exec (.selectionApply e) s = .next t ∧ t.dev.ob.cnt = d.ob.cnt ∧ t.dev.ob.selStaged = d.ob.selStaged.filter (· ≠ e) ∧ t.dev.q = d.q ∧ t.dev.mm = d.mm) ∧
    (bitOf data 31 = false → ∃ t, exec (.matchArm 0 e data) s = .next t ∧
      t.dev.ob.armed = put d.ob.armed (e * 64 + d.matchSel e) none none ∧ t.dev.ob.cnt = d.ob.cnt ∧ t.dev.q = d.q ∧ t.dev.mm = d.mm) ∧
    (bitOf data 31 = true → ∃ t, exec (.matchArm 0 e data) s = .next t ∧ t.pending = s.pending ∧ t.dev.ob.cnt = d.ob.cnt ∧ t.dev.q = d.q ∧ t.dev.mm = d.mm ∧
      let armed := put d.ob.armed m (some { threshold := wanted, actions := fieldOf data 2 0 % 8 }) none
      t.dev.ob.armed = if wanted ≤ d.counter e (d.matchSel e) then put armed m none none else armed) ∧
    -- an armed counter below its threshold stays armed; one that reached it fires once
    (∀ a, look d.ob.armed (e * 64 + i) none = some a → d.counter e i < a.threshold → exec (.counterMatch e i) s = .next s) ∧
    (look d.ob.armed (e * 64 + i) none = none → exec (.counterMatch e i) s = .next s) ∧
    (∀ a, look d.ob.armed (e * 64 + i) none = some a → a.threshold ≤ d.counter e i →
      ∃ t, exec (.counterMatch e i) s = .next t ∧ t.pending = s.pending ∧ t.dev.ob.armed = put d.ob.armed (e * 64 + i) none none ∧ t.dev.ob.cnt = d.ob.cnt ∧
        t.dev.q = d.q ∧ t.dev.mm = d.mm ∧ (bits a.actions 2 1 = 1 → bitOf (t.dev.reg (cntPage e + 0x0C)) 0 = true) ∧
        (bits a.actions 0 1 = 1 → t.dev.ob.gong.state = .stopping ∧ t.dev.ob.gong.cause.toNat = 2 * 2 ^ 24 + i * 2 ^ 8 + e * 2 ^ 3)) ∧
    (∀ a, look d.ob.armed (e * 64 + i) none = some a → a.threshold ≤ d.counter e i → a.actions = 0 → (d.trc (e / 8)).state = .off →
      exec (.counterMatch e i) s = .next { s with dev := { d with ob := { d.ob with armed := put d.ob.armed (e * 64 + i) none none } } })


/-- The gong is raised once, stops the device, and resumes. A running gong that is raised stops and counts; raised again it counts the extra. Its cut
records the stop time and leaves queues, memory, bells and links as they are. Only a stopped gong resumes; with nothing waiting it runs again,
and the time stopped is counted. Writes of a virtual function change nothing. Completes, by their own effect and under conditions on the state
and operands alone: GONG_RAISE, GONG_CUT, GONG_RESUME. (R345, R348, R350, R351) -/
def Obligations.GongRules : Prop :=
  ∀ (data : Word) (s : State), s.dev.accepts 0 = true → s.dev.up = true →
    let d := s.dev
    (bitOf data 0 = false → exec (.gongRaise 0 data) s = .next { s with dev := d.rx }) ∧
    (bitOf data 0 = true → d.ob.gong.state = .running →
      exec (.gongRaise 0 data) s = .next { s with dev := { d.rx.withCtr (gngPage + 0x80) (d.rx.ctr (gngPage + 0x80) + 1) with
        ob := { d.ob with gong := { d.ob.gong with state := .stopping, cause := 0x01000000, raisedAt := d.now } } } }) ∧
    (bitOf data 0 = true → d.ob.gong.state ≠ .running →
      exec (.gongRaise 0 data) s = .next { s with dev := { d.rx with
        ob := { d.ob with gong := { d.ob.gong with extra := min (d.ob.gong.extra + 1) 0xFFFFFFFF } } } }) ∧
    (d.ob.gong.state ≠ .stopping → exec .gongCut s = .next s) ∧
    (d.ob.gong.state = .stopping →
      ∃ t, exec .gongCut s = .next t ∧ t.pending = s.pending ∧ t.dev.ob.gong.state = .stopped ∧ t.dev.ob.gong.stoppedAt = d.clk.time ∧ t.dev.ob.gong.cause = d.ob.gong.cause ∧
        t.dev.q = d.q ∧ t.dev.mm = d.mm ∧ t.dev.bl = d.bl ∧ t.dev.lk = d.lk) ∧
    (bitOf data 0 = false ∨ d.ob.gong.state ≠ .stopped → exec (.gongResume 0 data) s = .next { s with dev := d.rx }) ∧
    (bitOf data 0 = true → d.ob.gong.state = .stopped → (∀ p < 18, (d.port p).state = .down) → (∀ e < 32, (d.eng e).deferred = []) → d.ob.gong.kills = [] →
      d.bl.hostOps = [] → (∀ x ∈ d.ho.reads, x.queued = false) → (∀ x ∈ d.ho.asks, x.granted = false) → d.ho.arrived = [] → (∀ c < 32, (d.ctl c).spareDue = []) → (∀ x ∈ d.ho.vectors, x.2.2 = false) →
      ∃ t, exec (.gongResume 0 data) s = .next t ∧ t.pending = s.pending ∧ t.dev.ob.gong.state = .running ∧ t.dev.mm = d.mm ∧ t.dev.bl = d.bl ∧
        t.dev.q.slots = d.q.slots ∧ t.dev.q.ctxs = d.q.ctxs ∧
        t.dev.ctr (gngPage + 0x88) = d.ctr (gngPage + 0x88) + BitVec.ofNat 64 (d.now - d.ob.gong.stoppedAt).toNat) ∧
    (∀ fn, fn ≠ 0 → fn ≤ 64 → d.accepts fn = true → exec (.gongRaise fn data) s = .next { s with dev := d.rx } ∧ exec (.gongResume fn data) s = .next { s with dev := d.rx })


/-- A management tick runs its phases in order. A tick puts in force what was written to management pages, and clears the error bits that were
written to be cleared, commits a due anti-rollback counter, starts a waiting key command where none runs, takes the hottest sample of each die as
its sensor value, sets throttling at the limit and clears it 3 degrees (24 units) below, and compares the die counters. After a thermal trip only
the sensors go on; without the management clock or power nothing does. Completes, by their own effect and under conditions on the state and
operands alone: MANAGEMENT_TICK. (R38, R382, R415, R417, R425, R429) -/
def Obligations.ManagementTick : Prop :=
  ∀ (s : State), s.Inv →
    let d := s.dev
    let op := fieldOf (d.reg (secPage + 0x50)) 1 0
    let slot := fieldOf (d.reg (secPage + 0x4C)) 7 0
    (d.telemetry = false → exec .managementTick s = .next s) ∧
    -- after a thermal trip only the telemetry goes on (R382)
    (d.telemetry = true → d.managed = false → ∃ u, exec .managementTick s = .next u ∧ u.pending = s.pending ∧ u.dev.clk.ticks = d.clk.ticks + 1 ∧
      u.dev.rf.inForce = d.rf.inForce ∧ u.dev.fuses = d.fuses ∧ u.dev.q = d.q ∧ u.dev.mm = d.mm ∧ u.dev.se.keyBusy = d.se.keyBusy ∧ u.dev.se.throttled = d.se.throttled ∧
      (∀ die t, die < 6 → d.rf.armed = [] → d.se.raw.find? (·.1 = die + 1) = some (die + 1, t) → t ≠ 0 → u.dev.sensor (die + 1) = t)) ∧
    (d.managed = true → ∃ u, exec .managementTick s = .next u ∧ u.pending = s.pending ∧
      u.dev.clk.ticks = d.clk.ticks + 1 ∧ u.dev.q = d.q ∧ u.dev.mm.cells = d.mm.cells ∧ u.dev.bl = d.bl ∧ u.dev.kv = d.kv ∧
      -- phase 1: what was written to management pages is in force; bits written to be cleared are cleared
      u.dev.rf.clrNext = [] ∧
      (∀ b w, d.rf.clrNext = [(b + 0x0C, w)] → b % 4096 = 0 → onManagementPage (b + 0x0C) = true → u.dev.inForce (b + 0x0C) = d.reg (b + 0x0C) &&& ~~~w) ∧
      (∀ a, d.rf.clrNext = [] → onManagementPage a = true → (∀ p < 18, a ≠ portPage p + 0x04) → u.dev.inForce a = d.reg a) ∧
      (∀ p < 18, d.rf.clrNext = [] → u.dev.inForce (portPage p + 0x04) = d.reg (portPage p + 0x04) &&& 1) ∧
      u.dev.fuses.svn = (if d.se.svnDue then max d.fuses.svn (d.se.running.getD {}).svn else d.fuses.svn) ∧ u.dev.se.svnDue = false ∧
      (d.se.keyBusy = none → op = 1 ∨ op = 2 → u.dev.se.keyBusy = some (op, slot) ∧
        (d.rf.clrNext = [] → u.dev.reg (secPage + 0x50) = setField (d.reg (secPage + 0x50)) 1 0 0)) ∧
      (∀ k, d.se.keyBusy = some k → u.dev.se.keyBusy = some k ∧ (d.rf.clrNext = [] → u.dev.reg (secPage + 0x50) = d.reg (secPage + 0x50))) ∧
      -- phases 2 and 3: sensors, throttling and its hysteresis
      (∀ die t, die < 6 → d.rf.armed = [] → d.rf.injNext = [] → d.se.raw.find? (·.1 = die + 1) = some (die + 1, t) → t ≠ 0 → u.dev.sensor (die + 1) = t) ∧
      (∀ r < 4, u.dev.throttleAt r ≤ u.dev.sensor (1 + r) → r ∈ u.dev.se.throttled) ∧
      (∀ r < 4, u.dev.sensor (1 + r) ≤ u.dev.throttleAt r - 24 → r ∉ u.dev.se.throttled) ∧
      (∀ r < 4, u.dev.throttleAt r - 24 < u.dev.sensor (1 + r) → u.dev.sensor (1 + r) < u.dev.throttleAt r → (r ∈ u.dev.se.throttled ↔ r ∈ d.se.throttled)) ∧
      -- phase 4: every die counter is compared with the master
      (d.rf.clrNext = [] → u.dev.reg (timPage + 0x4C) = d.reg (timPage + 0x4C) + 1))


/-- Voltage requests, power windows and the thermal trip. An acknowledged voltage request stands; one not answered is repeated once and then held at
vmax with an error. A block over its cap withholds issue until a window lies below. A junction at 115 degrees trips the device: memory, keys and
queues are lost, fuses, log and sensor values kept, and the cause is recorded. Completes, by their own effect and under conditions on the state
and operands alone: AVS_ACK, AVS_TIMEOUT, POWER_WINDOW, TEMPERATURE_SAMPLE. (R382, R428, R430) -/
def Obligations.PowerAndTemperature : Prop :=
  ∀ (r e power die : Nat) (t : Int) (rest : List Int) (s : State), s.Inv → r < 4 → e < 32 → die < 6 → power < 65536 →
    let d := s.dev
    let v := d.volt r
    let withVolt (x : Nat × Bool × Nat × Bool) (y : Device) : Device := { y with se := { y.se with volt := put y.se.volt r x (750, false, 0, false) } }
    let asks (x : Nat × Bool × Nat × Bool) (y : Device) : Device :=
      (Upd.send (.avs r x.1)).run ((withVolt x y).withCtr (pwrPage r + 0x90) (y.ctr (pwrPage r + 0x90) + 1))
    let w := look d.se.windows e (0, 0, 0)
    let counted (n : Nat) (y : Device) : Device :=
      { y with se := { y.se with windows := put y.se.windows e (w.1 + power, w.2.1 + 1, w.2.2 + n) (0, 0, 0) } }
    let g := d.eng e
    let now (i : Instr) (u : Device) : Prop := exec i s = .next { s with dev := u }
    -- AVS_ACK: the request stands, the caps are whole again
    (d.managed = true → d.rf.armed = [] → v.2.1 = true → now (.avsAck r) (withVolt (v.1, false, 0, false) d)) ∧
    (v.2.1 = false → now (.avsAck r) d ∧ now (.avsTimeout r) d) ∧
    -- AVS_TIMEOUT: repeated once, then held at vmax
    (d.managed = true → v.2.1 = true → v.2.2.1 = 0 → now (.avsTimeout r) (asks (v.1, true, 1, v.2.2.2) d)) ∧
    (d.managed = true → v.2.1 = true → v.2.2.1 = 1 → ∃ u, exec (.avsTimeout r) s = .next u ∧ u.pending = s.pending ∧
      u.dev.volt r = (d.vmax r, true, 2, true) ∧ bitOf (u.dev.reg (pwrPage r + 0x0C)) 2 = true ∧ u.dev.core = { s.dev with se := u.dev.se }.core) ∧
    -- POWER_WINDOW: over its cap a block withholds issue, until it lies below
    (d.up = true → d.blockOn e = true → g.withheld = false → power ≤ d.cap e → now (.powerWindow e power) (counted 0 d)) ∧
    (d.up = true → d.blockOn e = true → g.withheld = false → d.cap e < power → ∃ u, exec (.powerWindow e power) s = .next u ∧ u.pending = s.pending ∧
      (u.dev.eng e).withheld = true ∧ u.dev.se = (counted 0 d).se ∧ u.dev.mm = d.mm ∧ u.dev.q.slots = d.q.slots ∧
      bitOf (u.dev.reg (pwrPage (e / 8) + 0x0C)) 0 = true) ∧
    (d.up = true → d.blockOn e = true → g.withheld = true → d.cap e ≤ power → now (.powerWindow e power) (counted 1 d)) ∧
    (d.up = true → d.blockOn e = true → g.withheld = true → power < d.cap e → now (.powerWindow e power) ((counted 1 d).withEng e { g with withheld := false })) ∧
    -- TEMPERATURE_SAMPLE: the hottest junction; at 115 degrees the device trips
    (d.linkUp = true → rest.foldl max t < 920 →
      now (.temperatureSample die (t :: rest)) { d with se := { d.se with raw := d.se.raw.filter (·.1 ≠ die + 1) ++ [(die + 1, rest.foldl max t)] } }) ∧
    (d.linkUp = true → 920 ≤ rest.foldl max t → ∃ u, exec (.temperatureSample die (t :: rest)) s = .next u ∧ u.pending = s.pending ∧
      u.dev.clk.power = .tripped ∧ u.dev.clk.thermTrip = true ∧ u.dev.clk.time = d.clk.time ∧ u.dev.mm.cells = [] ∧ u.dev.mm.keys = [] ∧
      u.dev.q = {} ∧ u.dev.linkUp = false ∧ u.dev.fuses = d.fuses ∧ u.dev.fl.log = d.fl.log ∧ u.dev.se.sensors = d.se.sensors ∧
      ∃ rec ∈ u.dev.fl.toLog, rec.code = 0x040F)


/-- Watchdog, host request, engine reset and its failure. With no injection armed: an expired watchdog window asks for a reset with cause 0x0201, and
a suspended one does not; the host asks with 0xFFFF and no strike, and the arrays ramp down. The reset, where every command is replayable and has
no strike, keeps each bound slot's context, tail and completion indices, drops fetched descriptors, watches and reads, marks the suspects and
strikes the running command; one whose self-check finds a mismatch or that meets an uncorrectable error, and one that takes too long, fails the
engine and asks for a device reset. Completes, by their own effect and under conditions on the state and operands alone: WATCHDOG, RESET_REQ,
ENGINE_RESET, QUIESCE_TIMEOUT. (R362, R363, R364, R365, R366, R367, R368, R371) -/
def Obligations.EngineResets : Prop :=
  ∀ (e code : Nat) (strike : Bool) (data : Word) (s : State), s.Inv → e < 32 → s.dev.rf.armed = [] →
    let d := s.dev
    let g := d.eng e
    let kept (u : State) : Prop := ∀ k < 8, (d.slot e k).state ≠ .unbound → (u.dev.slot e k).ctx = (d.slot e k).ctx ∧ (u.dev.slot e k).sqTail = (d.slot e k).sqTail ∧
      (u.dev.slot e k).cqHead = (d.slot e k).cqHead ∧ (u.dev.slot e k).cqTail = (d.slot e k).cqTail
    -- the window of the running command expires
    (∀ v, d.env e = some v → d.acts e v.s = true → d.windowSuspended v = false →
      ∃ u, exec (.watchdog e) s = .next u ∧ u.pending = s.pending ∧ u.dev.fl.resets = d.fl.resets ++ [(e, 0x0201, true)] ∧
        u.dev.eng e = { g with resetAt := d.dieTime (e / 8), pauseAt := if g.rst = .running then g.progress else g.pauseAt } ∧
        u.dev.q.slots = d.q.slots ∧ u.dev.mm = d.mm ∧ bitOf (u.dev.reg (engPage e + 0x0C)) 2 = true) ∧
    (∀ v, d.env e = some v → d.acts e v.s = false ∨ d.windowSuspended v = true → exec (.watchdog e) s = .next s) ∧
    -- the host asks for a reset: cause 0xFFFF, no strike
    (d.accepts 0 = true → d.up = true → d.blockOn e = true → bitOf data 0 = true → d.resetDue e = false → g.rst ≠ .failed →
      let d1 : Device := { d.rx with fl := { d.fl with resets := d.fl.resets ++ [(e, 0xFFFF, false)] } }
      let d2 := d1.withEng e { g with resetAt := d.dieTime (e / 8), pauseAt := if g.rst = .running then d.dieTime (e / 8) else g.pauseAt }
      let d3 := (Upd.rampDown e).run d2
      exec (.resetReq 0 e data) s = .next { s with dev := d3.withCtr (rstPage e + 0x78) (d3.ctr (rstPage e + 0x78) + 1) }) ∧
    (d.accepts 0 = true → d.resetDue e = true ∨ g.rst = .failed ∨ bitOf data 0 = false → exec (.resetReq 0 e data) s = .next { s with dev := d.rx }) ∧
    (∀ fn, fn ≠ 0 → fn ≤ 64 → d.accepts fn = true → exec (.resetReq fn e data) s = .next { s with dev := d.rx }) ∧
    -- the reset is carried out
    (d.resetDue e = false → exec (.engineReset e) s = .next s) ∧
    (d.fl.resets.find? (·.1 = e) = some (e, code, strike) → d.up = true → d.unheld = true → d.blockOn e = true → g.rst ≠ .failed → code < 2 ^ 16 →
      (∀ k < 8, ∀ c, (d.slot e k).cur = some c → (d.ctx (d.slot e k).ctx).replayable = true ∧ c.strike = none) →
      ∃ u, exec (.engineReset e) s = .next u ∧ u.pending = s.pending ∧ kept u ∧ u.dev.fl.resets = d.fl.resets.filter (·.1 ≠ e) ∧
        (u.dev.eng e).rst = .replaying ∧ (u.dev.eng e).run = none ∧ (u.dev.eng e).replay = none ∧ (u.dev.eng e).credits = [] ∧
        u.dev.reg (rstPage e + 0x48) = BitVec.ofNat 32 code ∧
        (∀ k < 8, (d.slot e k).state ≠ .unbound → (u.dev.slot e k).fetched = [] ∧ (u.dev.slot e k).reads = []) ∧
        (∀ k < 8, d.isSuspect e k = true → (u.dev.slot e k).state = .suspect) ∧
        (∀ k c, g.run = some k → k < 8 → strike = true → (d.slot e k).cur = some c → d.isSuspect e k = true →
          ∃ c', (u.dev.slot e k).cur = some c' ∧ c'.strike = some code) ∧
        (∀ w ∈ u.dev.bl.watches, w.slot / 8 ≠ e) ∧ (∀ r ∈ u.dev.ho.reads, r.slot / 8 = e → r.dropped = true)) ∧
    -- one whose steps 5 or 6 meet an error fails, and a device reset is due (R367)
    (∀ wrong : Bool, d.fl.resets.find? (·.1 = e) = some (e, code, strike) → d.up = true → d.unheld = true → d.blockOn e = true → g.rst ≠ .failed → code < 2 ^ 16 →
      (∀ k < 8, ∀ c, (d.slot e k).cur = some c → (d.ctx (d.slot e k).ctx).replayable = true ∧ c.strike = none) →
      ∃ u, exec (.engineReset e (some wrong)) s = .next u ∧ u.pending = s.pending ∧ kept u ∧ (u.dev.eng e).rst = .failed ∧
        bitOf (u.dev.reg (rstPage e + 0x0C)) (if wrong then 1 else 0) = true ∧ u.dev.fl.devReset = some (d.fl.devReset.getD (causeWord 3 0x0402))) ∧
    -- too late: the engine has failed and a device reset is due
    (d.resetDue e = false → exec (.quiesceTimeout e) s = .next s) ∧
    (d.resetDue e = true → d.up = true → d.unheld = true → d.fl.devReset = none →
      ∃ u, exec (.quiesceTimeout e) s = .next u ∧ u.pending = s.pending ∧ (u.dev.eng e).rst = .failed ∧ u.dev.fl.resets = d.fl.resets.filter (·.1 ≠ e) ∧
        u.dev.fl.devReset = some (causeWord 3 0x0402) ∧ bitOf (u.dev.reg (rstPage e + 0x0C)) 0 = true ∧ u.dev.q.slots = d.q.slots ∧ u.dev.mm = d.mm)


/-- Suspects are replayed one at a time. The most urgent suspect begins again from its start; a wait is cleared at once; with none left the engine
runs and its pause is recorded; a suspect that reaches its limit is cleared and goes on. Completes, by their own effect and under conditions on
the state and operands alone: REPLAY_START, REPLAY_LIMIT. (R369, R370, R372, R374) -/
def Obligations.Replays : Prop :=
  ∀ (e k : Nat) (s : State), s.Inv → e < 32 → k < 8 → s.dev.rf.armed = [] →
    let d := s.dev
    let g := d.eng e
    let t := d.slot e k
    let starts := d.up = true ∧ d.unheld = true ∧ d.blockOn e = true ∧ g.rst = .replaying ∧ d.resetDue e = false ∧ g.replay = none ∧ g.run = none
    -- the most urgent suspect begins again from its start
    (∀ c, starts → d.nextSuspect e = some k → t.cur = some c → isWait (fieldAt c.desc 0 1) = false → fieldAt c.desc 0 1 ≠ opFused →
      ∃ u, exec (.replayStart e) s = .next u ∧ u.pending = s.pending ∧
        u.dev.eng e = { g with suspects := g.suspects.filter (· ≠ k), replay := some k, run := some k, progress := d.dieTime (e / 8), boundary := g.boundary + 1 } ∧
        u.dev.slot e k = { t with cur := some { c.again (d.dieTime (e / 8)) with cntBase := d.countsLess e [], waitTag := d.bl.nextWait } } ∧
        (∀ i, i ≠ k → i < 8 → u.dev.slot e i = d.slot e i) ∧ u.dev.mm = d.mm ∧ u.dev.bl = d.bl) ∧
    (∀ c, starts → d.nextSuspect e = some k → t.cur = some c → fieldAt c.desc 0 1 = opFused →
      ∃ u, exec (.replayStart e) s = .next u ∧ u.pending = s.pending ∧ (u.dev.eng e).run = some k ∧ (u.dev.eng e).replay = some k ∧
        (u.dev.eng e).suspects = g.suspects.filter (· ≠ k) ∧ (u.dev.eng e).progress = d.dieTime (e / 8) ∧
        u.dev.slot e k = { t with cur := some { c.again (d.dieTime (e / 8)) with cntBase := d.countsLess e [], waitTag := d.bl.nextWait } } ∧ u.dev.mm = d.mm ∧ u.dev.bl = d.bl) ∧
    -- a wait is cleared at once
    (∀ c, starts → d.nextSuspect e = some k → t.cur = some c → isWait (fieldAt c.desc 0 1) = true → t.state = .suspect → t.lost = false → g.deferred = [] →
      ∃ u, exec (.replayStart e) s = .next u ∧ u.pending = s.pending ∧ (u.dev.slot e k).state = .active ∧ (u.dev.eng e).run = none ∧ (u.dev.eng e).replay = none ∧
        (u.dev.eng e).suspects = (if g.suspects.filter (· ≠ k) = [] then [] else g.suspects.filter (· ≠ k)) ∧
        (u.dev.eng e).rst = (if g.suspects.filter (· ≠ k) = [] then .running else .replaying)) ∧
    -- none left: the engine runs
    (starts → d.nextSuspect e = none → g.deferred = [] → 0 < g.boundary →
      let paused := BitVec.ofNat 32 (min ((d.dieTime (e / 8) - g.pauseAt).toNat / 1000) 0xFFFFFF)
      exec (.replayStart e) s = .next { s with dev := (d.withEng e { g with rst := .running, suspects := [] }).withReg (rstPage e + 0x58) paused }) ∧
    (g.rst ≠ .replaying ∨ g.replay.isSome = true ∨ g.run.isSome = true → exec (.replayStart e) s = .next s) ∧
    -- the replaying command has run for its limit: it goes on later
    (∀ c, g.replay = some k → g.run = some k → t.cur = some c → c.status = none → d.acts e k = true → t.state = .suspect → t.lost = false → g.deferred = [] → 0 < g.boundary →
      ∃ u, exec (.replayLimit e) s = .next u ∧ u.pending = s.pending ∧ (u.dev.slot e k).state = .active ∧ (u.dev.eng e).run = none ∧ (u.dev.eng e).replay = none ∧
        (u.dev.eng e).rst = (if g.suspects.filter (· ≠ k) = [] then .running else g.rst) ∧
        ∃ c', (u.dev.slot e k).cur = some c' ∧ c'.cleared = true ∧ c'.status = none ∧ c'.desc = c.desc ∧ c'.strike = c.strike) ∧
    (g.replay = none → exec (.replayLimit e) s = .next s)


/-- Device reset, function level reset and VF Enable. The host, an FLR of the physical function or a Hot Reset asks for a device reset; a second
cause is only logged. It clears queues, pools, bells, programs, observation and what the weight unit has in progress, keeps external memory and
the weight tables' mirror (but for a loss of the clock), keys, fuses, log and routes, records its cause and counts. Its end shows the device
ready. An FLR of a virtual function with nothing bound frees its contexts and vectors. VF Enable sets the number of functions, their BAR2 size
and their ATS enable; clearing it ends them. Completes, by their own effect and under conditions on the state and operands alone: DEV_RESET,
DEVICE_RESET, DEVICE_RESET_DONE, FLR, HOT_RESET, VF_ENABLE, VF_ENABLE_CLEAR. (R375, R376, R377, R379, R380, R398) -/
def Obligations.DeviceResets : Prop :=
  ∀ (data : Word) (cause : Word) (fn : Nat) (s : State), s.Inv → 1 ≤ fn → fn ≤ 64 →
    let d := s.dev
    let kind := fieldOf cause 31 24
    let noImages := ∀ r < 4, d.pair (belPage r + 0x60) % 2 ^ 44 < 4096
    let due (c : Word) (x : Device) : Device := { x with fl := { x.fl with devReset := some c } }
    let now (i : Instr) (u : Device) : Prop := exec i s = .next { s with dev := u }
    -- a device reset is asked for by the host, by an FLR of the physical function, by a Hot Reset
    (d.accepts 0 = true → d.up = true → d.fl.devReset = none → bitOf data 0 = true → now (.devReset 0 data) (due (causeWord 1 0) d.rx)) ∧
    (d.accepts fn = true → now (.devReset fn data) d.rx) ∧
    (d.up = true → d.fl.devReset = none → now (.flr 0) (due (causeWord 4 0) d) ∧ now .hotReset (due (causeWord 5 0) d)) ∧
    -- one that is due keeps its cause; the second is logged
    (∀ c, d.up = true → d.fl.devReset = some c → ∃ u, exec .hotReset s = .next u ∧ u.pending = s.pending ∧ u.dev.fl.devReset = some c ∧ u.dev.core = d.core ∧
      ∃ rec ∈ u.dev.fl.toLog, rec.code = 0x0411) ∧
    -- it is carried out
    (d.fl.devReset = none → now .deviceReset d) ∧
    (d.fl.devReset = some cause → d.up = true → ∃ u, exec .deviceReset s = .next u ∧ u.pending = s.pending ∧
      u.dev.clk.power = (if kind = 6 then .held else if d.stillBoots then .resetting else .fwFail) ∧ u.dev.clk.time = d.clk.time ∧
      (kind = 6 → u.dev.mm.cells = [] ∧ u.dev.wt = {}) ∧ (kind ≠ 6 → noImages → u.dev.mm.cells = d.mm.cells) ∧
      (kind ≠ 6 → u.dev.wt = { sets := d.wt.sets, epochs := d.wt.epochs, adapters := d.wt.adapters }) ∧ u.dev.mm.keys = d.mm.keys ∧ u.dev.fuses = d.fuses ∧ u.dev.fl.log = d.fl.log ∧
      u.dev.fl.devReset = none ∧ u.dev.fl.detected = [] ∧ u.dev.lk.holdTx = true ∧ u.dev.lk.routes = d.lk.routes ∧ u.dev.q = {} ∧ u.dev.kv = [] ∧
      u.dev.bl.bells = [] ∧ u.dev.sfu = {} ∧ u.dev.ob = {} ∧
      u.dev.reg (rstDevPage + 0x40) = cause ∧ u.dev.reg (rstDevPage + 0x44) = satInc (d.reg (rstDevPage + 0x44)) ∧ u.dev.reg (zwlPage + 0x40) = d.reg (zwlPage + 0x40) ∧
      u.dev.ho.vfEnable = (d.ho.vfEnable && kind ≠ 4 && kind ≠ 5)) ∧
    -- and ends
    (d.clk.power ≠ .resetting → now .deviceResetDone d) ∧
    (d.clk.power = .resetting → ∃ u, exec .deviceResetDone s = .next u ∧ u.pending = s.pending ∧ u.dev.up = true ∧ u.dev.q = d.q ∧ u.dev.mm = d.mm ∧
      bitOf (u.dev.reg (rstDevPage + 0x0C)) 1 = true ∧ ∃ rec ∈ u.dev.fl.toLog, rec.code = 0x0411 ∧ rec.detail = toBytes 4 (d.regN (rstDevPage + 0x40))) ∧
    -- a virtual function with nothing bound is quiescent at once
    (d.up = true → d.ho.vfEnable = true → fn ≤ d.ho.vfCount → (∀ p ∈ d.q.ctxs, d.ctx p.1 = p.2) → (∀ c, (d.ctx c).owner = fn → d.boundSlots c = []) →
      ∃ u, exec (.flr fn) s = .next u ∧ u.pending = s.pending ∧ u.dev.mm = d.mm ∧ u.dev.q.slots = d.q.slots ∧ u.dev.bl.bells = d.bl.bells ∧
        (∀ c, (d.ctx c).owner = fn → (u.dev.ctx c).state = .free) ∧ (∀ c, (d.ctx c).owner ≠ fn → u.dev.ctx c = d.ctx c) ∧
        fn ∉ u.dev.ho.msixOn ∧ (∀ p ∈ u.dev.ho.vectors, p.1 / 2048 ≠ fn) ∧ ∃ rec ∈ u.dev.fl.toLog, rec.code = 0x0412) ∧
    (d.ho.vfEnable = false → now (.flr fn) d) ∧
    (∃ u, exec .vfEnableClear s = .next u ∧ u.pending = s.pending ∧ u.dev.ho.vfEnable = false ∧ u.dev.ho.vfCount = 0 ∧
      (∀ f ∈ u.dev.xl.atsOn, f = 0 ∨ 64 < f) ∧ ∀ x ∈ u.dev.xl.atc, x.fn = 0 ∨ 64 < x.fn) ∧
    (d.ho.vfCount = 0 → ∃ u, exec .vfEnableClear s = .next u ∧ u.pending = s.pending ∧
      u.dev = { d with ho := { d.ho with vfEnable := false }, xl := u.dev.xl } ∧ u.dev.xl.l2 = d.xl.l2) ∧
    (∀ n b ats, d.ho.vfEnable = false → d.clk.power ≠ .off → d.clk.power ≠ .perst → (Instr.vfEnable n b ats).wf = true →
      ∃ u, exec (.vfEnable n b ats) s = .next u ∧ u.pending = s.pending ∧
        u.dev = { d with ho := { d.ho with vfEnable := true, vfCount := n, vfBar2Log2 := b }, xl := u.dev.xl } ∧ u.dev.xl.l2 = d.xl.l2 ∧
        (∀ f < 65, f ∈ u.dev.xl.atsOn ↔ if 1 ≤ f ∧ f ≤ n then ats = true else f ∈ d.xl.atsOn) ∧
        ∀ x ∈ u.dev.xl.atc, x ∈ d.xl.atc ∧ (ats = true ∨ x.fn = 0 ∨ n < x.fn)) ∧
    (∀ n b ats, d.ho.vfEnable = true → now (.vfEnable n b ats) d)


/-- Boot at PERST# release, the rails, and losing clocks. At PERST# release the first slot in boot order with a good image boots, with a fresh key in
slot 0, or the device enters FW_FAIL. POWER_OFF leaves fuses and flash only; POWER_ON leaves PERST# asserted. A lost REFCLK asks for a device
reset, or ends one under way in HELD with memory gone; a lost LINK_REFCLK takes every port down; a lost MGT_CLK stops the management plane, with
queues and memory as they are; a clock lost already, or of a device that does not run, changes nothing. Each returns, and ports that are enabled
train again. Completes, by their own effect and under conditions on the state and operands alone: PERST_RELEASE, POWER_ON, POWER_OFF, CLOCK_LOSS,
CLOCK_RETURN. (R412, R413, R414, R383, R434) -/
def Obligations.PowerAndClocks : Prop :=
  ∀ (n : Nat) (s : State), s.Inv →
    let d := s.dev
    let running := d.clk.power ≠ .off ∧ d.clk.power ≠ .perst ∧ d.clk.power ≠ .tripped
    let now (i : Instr) (u : Device) : Prop := exec i s = .next { s with dev := u }
    -- PERST#
    (d.clk.power = .tripped → now (.perstAssert n) d) ∧
    (∀ k i rest, d.clk.power = .perst → d.clk.lostRef = false → d.bootSlots = k :: rest → d.imageIn k = some i → d.bootOrder.head? = some k → d.fuses.badMap = [] →
      now .perstRelease (d.afterBoot k i)) ∧
    (∀ k i rest, d.clk.power = .perst → d.clk.lostRef = false → d.bootSlots = k :: rest → d.imageIn k = some i →
      ∃ u, exec .perstRelease s = .next u ∧ u.pending = s.pending ∧ u.dev.up = true ∧ u.dev.mm.cells = [] ∧ u.dev.mm.keys = [(0, d.mm.nextGen + 1)] ∧
        (u.dev.se.running.map (·.slot)) = some k ∧ (d.bootOrder.head? ≠ some k → bitOf (u.dev.reg (secPage + 0x0C)) 2 = true)) ∧
    (d.clk.power = .perst → d.clk.lostRef = false → d.bootSlots = [] → now .perstRelease { d with clk := { d.clk with power := .fwFail } }) ∧
    (d.clk.power ≠ .perst ∨ d.clk.lostRef = true → now .perstRelease d) ∧
    -- the rails: nothing is left but the fuses and the flash; they rise with PERST# asserted
    now .powerOff { clk := { power := .off }, fuses := d.fuses, se := { flash := d.se.flash }, ho := { sent := d.ho.sent }, mm := { nextGen := d.mm.nextGen }, free := d.free } ∧
    (d.clk.power = .off → now .powerOn { d with clk := { d.clk with power := .perst } }) ∧
    (d.clk.power ≠ .off → now .powerOn d) ∧
    -- REFCLK lost: a device reset is due, or one in progress ends in HELD
    (running → d.clk.lostRef = false → ∃ u, exec (.clockLoss 0) s = .next u ∧ u.pending = s.pending ∧ u.dev.clk.lostRef = true ∧
      bitOf (u.dev.reg (rstDevPage + 0x0C)) 3 = true ∧
      (d.up = true → u.dev.clk.power = d.clk.power ∧ u.dev.fl.devReset = some (causeWord 6 0x0410) ∧ u.dev.q = d.q ∧ u.dev.mm = d.mm ∧ u.dev.lk = d.lk) ∧
      (d.clk.power = .resetting → u.dev.clk.power = .held ∧ u.dev.mm.cells = [] ∧ u.dev.reg (rstDevPage + 0x40) = causeWord 6 0x0410)) ∧
    -- LINK_REFCLK lost: every port goes down, and requests wait
    (running → d.clk.lostLink = false → ∃ u, exec (.clockLoss 1) s = .next u ∧ u.pending = s.pending ∧ u.dev.clk.lostLink = true ∧
      bitOf (u.dev.reg (rstDevPage + 0x0C)) 3 = true ∧ (∀ p < 18, (u.dev.port p).state = .down) ∧ u.dev.lk.reqs = d.lk.reqs ∧ u.dev.lk.peers = d.lk.peers ∧
      u.dev.q = d.q ∧ u.dev.mm = d.mm) ∧
    -- MGT_CLK lost: the management plane stops
    (running → d.clk.lostMgt = false → ∃ u, exec (.clockLoss 2) s = .next u ∧ u.pending = s.pending ∧ u.dev.clk.lostMgt = true ∧ u.dev.managed = false ∧
      bitOf (u.dev.reg (rstDevPage + 0x0C)) 3 = true ∧ u.dev.q = d.q ∧ u.dev.mm = d.mm ∧ u.dev.lk = d.lk) ∧
    -- a clock that is lost already, or of a device that is not running
    (¬ running → n < 3 → now (.clockLoss n) d) ∧
    ((d.clk.lostRef = true → now (.clockLoss 0) d) ∧ (d.clk.lostLink = true → now (.clockLoss 1) d) ∧ (d.clk.lostMgt = true → now (.clockLoss 2) d)) ∧
    -- a clock returns: ports that are enabled train again
    now (.clockReturn 0) { d with clk := { d.clk with lostRef := false } } ∧ now (.clockReturn 2) { d with clk := { d.clk with lostMgt := false } } ∧
    (d.clk.lostLink = false → now (.clockReturn 1) d) ∧
    (d.clk.lostLink = true → d.up = false → d.clk.power ≠ .resetting → now (.clockReturn 1) { d with clk := { d.clk with lostLink := false } }) ∧
    (d.clk.lostLink = true → d.up = true ∨ d.clk.power = .resetting → ∃ u, exec (.clockReturn 1) s = .next u ∧ u.pending = s.pending ∧
      u.dev.clk = { d.clk with lostLink := false } ∧ u.dev.q = d.q ∧ u.dev.mm = d.mm ∧
      (∀ p < 18, bitOf (d.inForce (portPage p + 0x04)) 0 = true → (u.dev.port p).state = .training) ∧
      (∀ p < 18, bitOf (d.inForce (portPage p + 0x04)) 0 = false → u.dev.port p = d.port p))


/-- What a read and a write of BAR0 give. An access that is not one aligned word is an Unsupported Request; one that finds no page or a disabled part
reads zero; a device not ready reads all ones. The header reads as the rule gives it; a LO read latches its HI and a HI read shows it; every
other register reads what its page shows or what is stored; a write changes exactly the writable bits of its one register. A poisoned write is
discarded and flagged. Configuration space and the MSI-X table of BAR4 read what they hold; the power state, BAR2's size and a vector's data are
written there (their layout is the model's, log 145). Completes, by their own effect and under conditions on the state and operands alone:
REGISTER_READ, REGISTER_WRITE. (R387, R389, R390, R391, R446, R448, R453, R454, R456) -/
def Obligations.HostRegisters : Prop :=
  ∀ (addr off n : Nat) (f : ConfigField) (p : Page) (data : Word) (s : State), s.Inv → addr < 2 ^ 28 → s.dev.accepts 0 = true →
    let d := s.dev
    let read : Instr := .registerRead 0 addr
    let write : Instr := .registerWrite 0 addr data
    let answer (w : Word) : Device := (Upd.complete 0 (toBytes 4 w.toNat)).run d
    let now (i : Instr) (u : Device) : Prop := exec i s = .next { s with dev := u }
    let plain := [PageKind.sfuRegion, .sfuDevice, .snr, .xltRegion, .clk, .gngRegion, .mgt, .tim]
    -- not one aligned word
    (addr % 4 ≠ 0 ∨ n ≠ 4 →
      (∃ u, exec (.registerRead 0 addr { len := n }) s = .next u ∧ u.pending = s.pending ∧ u.dev.q = d.q ∧ u.dev.mm = d.mm ∧ bitOf (u.dev.reg (pcxPage + 0x0C)) 0 = true ∧
        ((d.ide 0).failed = false → d.streamOf 0 = 0 → u.dev.ho.sent.head? = some (.unsupported 0))) ∧
      (∃ u, exec (.registerWrite 0 addr data { len := n }) s = .next u ∧ u.pending = s.pending ∧ u.dev.q = d.q ∧ u.dev.mm = d.mm ∧ bitOf (u.dev.reg (pcxPage + 0x0C)) 0 = true)) ∧
    -- a poisoned write
    (∃ u, exec (.registerWrite 0 addr data { poisoned := true }) s = .next u ∧ u.pending = s.pending ∧ u.dev.q = d.q ∧ u.dev.mm = d.mm ∧ bitOf (u.dev.reg (pcxPage + 0x0C)) 2 = true ∧
      ∀ a, a / 4096 * 4096 ≠ pcxPage → u.dev.reg a = d.reg a) ∧
    -- no page there; a device not ready; a part disabled by harvest
    (addr % 4 = 0 → decodeAddr addr = none → now read (answer 0) ∧ now write d.rx) ∧
    (addr % 4 = 0 → decodeAddr addr = some (p, off) → d.up = false → staysOpen p.kind = false → now read (answer 0xFFFFFFFF) ∧ now write d.rx) ∧
    (addr % 4 = 0 → decodeAddr addr = some (p, off) → d.up = true → d.pagePresent p = false → now read (answer 0) ∧ now write d.rx) ∧
    -- the header of a page
    (addr % 4 = 0 → decodeAddr addr = some (p, off) → d.up = true → d.pagePresent p = true →
      (off = 0x00 → now read (answer p.id)) ∧ (off = 0x14 → now read (answer 0)) ∧
      (off = 0x0C ∨ off = 0x10 ∨ off = 0x18 ∨ off = 0x1C → now read (answer (if p.errBits.1 = 0 then 0 else d.reg (p.base + off)))) ∧
      (off = 0x10 → reconfigures p.kind = false → now write (d.rx.withReg (p.base + 0x10) (data &&& p.errBits.1))) ∧
      (off = 0x1C → reconfigures p.kind = false → isManagement p.kind = false → now write (d.rx.withReg (p.base + 0x1C) 0))) ∧
    -- a LO register latches its HI; HI reads what was latched
    (∀ v, addr % 4 = 0 → decodeAddr addr = some (p, off) → d.up = true → d.pagePresent p = true → 0x20 ≤ off → isHigh p.kind off = false →
      p.kind ≠ .bel → p.kind ≠ .trc → d.quantity p off = some v →
      let h : Device := { d with rf := { d.rf with hold := put d.rf.hold (holdKey 0 (p.base + off + 4)) (BitVec.ofNat 32 (v.toNat / 2 ^ 32)) 0 } }
      now read ((Upd.complete 0 (toBytes 4 (v.toNat % 2 ^ 32))).run h)) ∧
    (addr % 4 = 0 → decodeAddr addr = some (p, off) → d.up = true → d.pagePresent p = true → 0x20 ≤ off → isHigh p.kind off = true →
      now read (answer (look d.rf.hold (holdKey 0 (p.base + off)) 0))) ∧
    -- other registers: what the page shows, else what is stored; a write acts field by field
    (addr % 4 = 0 → decodeAddr addr = some (p, off) → d.up = true → d.pagePresent p = true → 0x20 ≤ off → isHigh p.kind off = false →
      p.kind ≠ .bel → p.kind ≠ .trc → d.quantity p off = none → now read (answer ((d.view p off).getD (d.stored p off)))) ∧
    (∀ r, addr % 4 = 0 → decodeAddr addr = some (p, off) → d.up = true → d.pagePresent p = true → 0x20 ≤ off → p.kind ∈ plain → rowOf p.kind off = some r → (isManagement p.kind && r.clears) = false →
      now write (d.rx.withReg (p.base + off) ((if r.clears then 0 else data &&& r.mask) ||| (d.reg (p.base + off) &&& ~~~r.mask)))) ∧
    (addr % 4 = 0 → decodeAddr addr = some (p, off) → 0x20 ≤ off → p.kind ∈ plain → rowOf p.kind off = none → now write d.rx) ∧
    -- configuration space and BAR4 (log 145)
    (now (.registerRead 0 addr { space := .config f }) (answer (d.configWord 0 f))) ∧
    (fieldOf data 1 0 = 3 → now (.registerWrite 0 addr data { space := .config .powerState }) { d.rx with ho := { d.ho with d3 := true } }) ∧
    (30 ≤ data.toNat → data.toNat ≤ 42 → now (.registerWrite 0 addr data { space := .config .bar2Size }) { d.rx with ho := { d.ho with bar2Log2 := data.toNat } }) ∧
    (addr % 4 = 0 → now (.registerRead 0 addr { space := .bar4 }) (answer (d.bar4Word 0 addr))) ∧
    (addr % 16 = 8 → addr < 32768 → let e := look d.ho.msixTable (addr / 16) (0, 0, 0)
      now (.registerWrite 0 addr data { space := .bar4 }) { d.rx with ho := { d.ho with msixTable := put d.ho.msixTable (addr / 16) (e.1, e.2.1, data) (0, 0, 0) } })


/-- BAR2, ERR_STATUS, ERR_INJECT, VF_MAP and MSI-X. A BAR2 read answers the bytes of the range with its key slot, or all ones or Unsupported Request;
a write stores them, a poisoned one is discarded and flagged wherever it goes. Writing ones clears ERR_STATUS bits and, with the last, ERR_FIRST,
on a management page at the next tick; ERR_INJECT arms the bits that inject, on a management page at the next tick; VF_MAP writes the entry
selected, or puts a locked interface in ERROR. A vector that is unmasked sends its pending message once, if its function sends messages, else
keeps it. Completes, by their own effect and under conditions on the state and operands alone: BAR2_READ, BAR2_WRITE, ERR_STATUS_CLEAR,
ERR_INJECT, VF_MAP, MSIX_UNMASK. (R38, R387, R392, R394, R396, R361, R404, R453, R400) -/
def Obligations.HostMemoryAndErrors : Prop :=
  ∀ (fn addr len v page : Nat) (p : Page) (bs : List Byte) (data : Word) (s : State), s.Inv → fn ≤ 64 → addr < 2 ^ 44 → page < 2 ^ 28 - 4096 →
    s.dev.accepts fn = true →
    let d := s.dev
    let pa := (d.bar2Target fn addr).1
    let key := (d.bar2Target fn addr).2
    let reaches := d.up = true ∧ (fn = 0 ∨ d.vfOn fn = true) ∧ (fn ≠ 0 ∨ d.inLockedAperture pa len = false)
    let counted := d.withCtr (pcxPage + 0x80) (d.ctr (pcxPage + 0x80) + BitVec.ofNat 64 bs.length)
    let errs := d.reg (page + 0x0C) &&& ~~~data
    let now (i : Instr) (u : Device) : Prop := exec i s = .next { s with dev := u }
    -- a BAR2 read is answered whole or not at all; a write is carried out line by line
    (d.bar2Size fn < addr + len → now (.bar2Read fn addr len) d) ∧
    (addr + len ≤ d.bar2Size fn → reaches → populatedRange pa len = true → d.ueIn pa len = none →
      now (.bar2Read fn addr len) ((Upd.complete fn (((Upd.touch pa len).run d).bytesAt key pa len)).run ((Upd.touch pa len).run d))) ∧
    (addr + len ≤ d.bar2Size 0 → fn = 0 → d.up = true → d.inLockedAperture pa len = false → populatedRange pa len = false →
      now (.bar2Read fn addr len) ((Upd.send (.unsupported 0)).run d)) ∧
    (addr + len ≤ d.bar2Size fn → d.up = false → now (.bar2Read fn addr len) ((Upd.send (.unsupported fn)).run d)) ∧
    (addr + len ≤ d.bar2Size 0 → fn = 0 → d.up = true → d.inLockedAperture pa len = true →
      now (.bar2Read fn addr len) ((Upd.complete 0 (List.replicate len 0xFF)).run d)) ∧
    (addr + bs.length ≤ d.bar2Size fn → bs.length = len → reaches → (fn = 0 ∨ populatedRange pa len = true) →
      (∀ l ∈ linesOf pa len, d.lineErrAt l ≠ some .uncorrectable) → now (.bar2Write fn addr bs) ((Upd.write key pa bs).run counted)) ∧
    (addr + bs.length ≤ d.bar2Size fn → now (.bar2Write fn addr bs { poisoned := true }) ((Upd.pcxError 2).run d)) ∧
    (addr + bs.length ≤ d.bar2Size 0 → fn = 0 → d.inLockedAperture pa bs.length = true → now (.bar2Write fn addr bs) d) ∧
    -- ERR_STATUS: the bits written 1 clear, ERR_FIRST with the last of them
    (fn = 0 → d.up = true → decodeAddr (page + 0x0C) = some (p, 0x0C) → p.base = page → page % 4096 = 0 → d.pagePresent p = true → isManagement p.kind = false → (reconfigures p.kind = false ∨ ∀ f, d.locked f = false) →
      now (.errStatusClear fn page data) (if errs = 0 then (d.rx.withReg (page + 0x0C) errs).withReg (page + 0x18) 0 else d.rx.withReg (page + 0x0C) errs)) ∧
    -- those of a management page at the next tick (R38)
    (fn = 0 → d.up = true → decodeAddr (page + 0x0C) = some (p, 0x0C) → p.base = page → page % 4096 = 0 → d.pagePresent p = true → isManagement p.kind = true →
      now (.errStatusClear fn page data) { d.rx with rf := { d.rx.rf with clrNext := put d.rf.clrNext (page + 0x0C) (look d.rf.clrNext (page + 0x0C) 0 ||| data) 0 } }) ∧
    (fn ≠ 0 → now (.errStatusClear fn page data) d.rx ∧ now (.errInject fn page data) d.rx ∧ now (.vfMap fn data) d.rx) ∧
    -- ERR_INJECT arms the bits that inject; on a management page the next tick arms them
    (fn = 0 → d.up = true → decodeAddr (page + 0x14) = some (p, 0x14) → p.base = page → page % 4096 = 0 → d.pagePresent p = true →
      (reconfigures p.kind = false ∨ ∀ f, d.locked f = false) →
      let bits := data &&& p.errBits.2.1 &&& (if p.kind = .pcx then 0x2F else 0xFFFFFFFF)
      (p.kind ∉ [PageKind.gngDevice, .zwlDevice] → isManagement p.kind = false → (p.kind = .eng → bitOf bits 2 = false) →
        now (.errInject fn page data) { d.rx with rf := { d.rx.rf with armed := put d.rf.armed page (look d.rf.armed page 0 ||| bits) 0 } }) ∧
      (isManagement p.kind = true →
        now (.errInject fn page data) { d.rx with rf := { d.rx.rf with injNext := put d.rf.injNext page bits 0 } }) ∧
      (p.kind = .gngDevice → bitOf data 0 = false → now (.errInject fn page data) d.rx) ∧
      (p.kind = .zwlDevice → bitOf data 6 = false → now (.errInject fn page data) d.rx)) ∧
    -- VF_MAP writes the entry selected, of an interface that is not locked
    (fn = 0 → d.up = true → 1 ≤ d.vfSel → d.vfSel ≤ 64 → 1 ≤ d.mapSel → (∀ f, d.locked f = false) →
      now (.vfMap fn data) { d.rx with ho := { d.ho with vfMap := put d.ho.vfMap (d.vfSel * 256 + d.mapSel) (data &&& 0xB000FFFF) 0 } }) ∧
    (fn = 0 → d.up = true → 1 ≤ d.vfSel → d.vfSel ≤ 64 → 1 ≤ d.mapSel → d.locked d.vfSel = true → (∀ f, f ≠ d.vfSel → d.locked f = false) →
      look d.ho.vfMap (d.vfSel * 256 + d.mapSel) 0 = 0 → data &&& 0xB000FFFF ≠ 0 → d.ho.vfMap = [] →
      ∃ u, exec (.vfMap fn data) s = .next u ∧ u.pending = s.pending ∧ (u.dev.vf d.vfSel).tdi = .error ∧ u.dev.ho.vfMap = [] ∧
        bitOf (u.dev.reg (pcxPage + 0x0C)) 4 = true) ∧
    -- MSI-X: an unmasked vector sends its pending message once, if its function sends messages; else it stays pending
    ((fn = 0 ∨ d.vfOn fn = true) → v < vectorsOf fn → d.unheld = true → (∀ x ∈ d.ho.vectors, x.2.1 = false) → d.msixSends fn = true → d.recordAsked fn = false →
      (look d.ho.vectors (fn * 2048 + v) (false, false)).2 = true → (d.ide (d.streamOf fn)).failed = false →
      ∃ u, exec (.msixUnmask fn v) s = .next u ∧ u.pending = s.pending ∧ u.dev.ho.sent = d.msixMsg fn v :: d.ho.sent ∧
        look u.dev.ho.vectors (fn * 2048 + v) (false, false) = (true, false) ∧ u.dev.q = d.q ∧ u.dev.mm = d.mm) ∧
    ((fn = 0 ∨ d.vfOn fn = true) → v < vectorsOf fn → (∀ x ∈ d.ho.vectors, x.2.1 = false) →
      d.msixSends fn = false ∨ (look d.ho.vectors (fn * 2048 + v) (false, false)).2 = false →
      ∃ u, exec (.msixUnmask fn v) s = .next u ∧ u.pending = s.pending ∧ u.dev.ho.sent = d.ho.sent ∧
        look u.dev.ho.vectors (fn * 2048 + v) (false, false) = (true, (look d.ho.vectors (fn * 2048 + v) (false, false)).2) ∧ u.dev.q = d.q ∧ u.dev.mm = d.mm)


/-- IDE key sets, TEE interfaces, and the PCIe link. A key of one sub-stream and direction, or a whole key set, is programmed; a set programmed whole
can be put in use, which ends a failure and sends what was blocked; stopping the one in use leaves the stream insecure with an error (log 71). An
interface is locked with one of the empty key slots (a free choice, log 2) freshly keyed, unless an entropy test has failed, started, and stopped
with its slot emptied; out of its order each changes nothing. A trained link takes its rate, width and mode and the ATS enable of the physical
function; one below full speed or width is reported. Completes, by their own effect and under conditions on the state and operands alone:
KEY_PROG, K_SET_GO, K_SET_STOP, LOCK_INTERFACE, START_INTERFACE, STOP_INTERFACE, PCIE_LINK_TRAINED. (R384, R385, R399, R400, R401, R407) -/
def Obligations.InterfaceSecurity : Prop :=
  ∀ (k set fn rate width : Nat) (part : Option (Nat × Bool)) (flit ats : Bool) (s : State), s.Inv → k < 9 → set < 2 → 1 ≤ fn → fn ≤ 64 → rate < 7 →
    let d := s.dev
    let x := d.ide k
    let v := d.vf fn
    let keyed (l : List (Nat × Nat × Bool)) : Ide := { x with programmed := l }
    let now (i : Instr) (u : Device) : Prop := exec i s = .next { s with dev := u }
    -- R399
    (d.up = true → (∀ p ∈ part, p.1 < 3) →
      let parts := match part with | some p => [(set, p)] | none => keyParts set
      now (.keyProg k set part) (d.withIde k (keyed (x.programmed ++ parts.filter fun y => !x.programmed.contains y)))) ∧
    (d.up = true → (∃ y ∈ keyParts set, y ∉ x.programmed) → now (.kSetGo k set) d) ∧
    (d.up = true → (∀ y ∈ keyParts set, y ∈ x.programmed) → ∃ u, exec (.kSetGo k set) s = .next u ∧ u.pending = s.pending ∧
      u.dev.ide k = { x with secure := true, failed := false, keySet := set } ∧ (∀ p ∈ u.dev.ho.blocked, p.1 ≠ k) ∧
      u.dev.ho.sent = ((d.ho.blocked.filter (·.1 = k)).map (·.2)).reverse ++ d.ho.sent ∧ u.dev.q = d.q ∧ u.dev.mm = d.mm) ∧
    (d.up = true → x.secure = true → x.keySet = set → ∃ u, exec (.kSetStop k set) s = .next u ∧ u.pending = s.pending ∧
      u.dev.ide k = { x with programmed := x.programmed.filter (·.1 ≠ set), secure := false, failed := true } ∧
      bitOf (u.dev.reg (pcxPage + 0x0C)) 3 = true ∧ u.dev.q = d.q ∧ u.dev.mm = d.mm) ∧
    (d.up = true → x.secure = false ∨ x.keySet ≠ set → now (.kSetStop k set) (d.withIde k (keyed (x.programmed.filter (·.1 ≠ set))))) ∧
    -- R400, R401
    (d.up = true → d.vfOn fn = true → v.tdi = .unlocked → k ≠ 0 → d.se.rngBad = false → d.emptySlots ≠ [] →
      ∃ u, exec (.lockInterface fn k) s = .next u ∧ u.pending = s.pending ∧ ∃ k' ∈ d.emptySlots, u.dev.vf fn = { v with tdi := .locked, stream := some k, keySlot := some k' } ∧
        u.dev.mm = { d.mm with nextGen := d.mm.nextGen + 1, keys := put d.mm.keys k' (d.mm.nextGen + 1) 0 } ∧ u.dev.q = d.q ∧ u.dev.locked fn = true) ∧
    (k = 0 ∨ v.tdi ≠ .unlocked ∨ d.se.rngBad = true ∨ d.emptySlots = [] → now (.lockInterface fn k) d) ∧
    (d.up = true → d.se.rngBad = false → ∃ u, exec (.lockInterface fn k false) s = .next u ∧ u.pending = s.pending ∧ u.dev.se = { d.se with rngBad := true } ∧
      u.dev.vf fn = v ∧ u.dev.mm = d.mm ∧ u.dev.q = d.q ∧ bitOf (u.dev.reg (secPage + 0x0C)) 0 = true) ∧
    (d.up = true → v.tdi = .locked → now (.startInterface fn true) (d.withVf fn { v with tdi := .run })) ∧
    (now (.startInterface fn false) d) ∧ (v.tdi ≠ .locked → now (.startInterface fn true) d) ∧
    (∀ k', d.up = true → v.tdi ≠ .unlocked → v.keySlot = some k' →
      now (.stopInterface fn) ({ d with mm := { d.mm with keys := put d.mm.keys k' 0 0 } }.withVf fn { v with tdi := .unlocked, stream := none, keySlot := none })) ∧
    (d.up = true → v.tdi ≠ .unlocked → v.keySlot = none →
      now (.stopInterface fn) (d.withVf fn { v with tdi := .unlocked, stream := none, keySlot := none })) ∧
    (v.tdi = .unlocked → now (.stopInterface fn) d) ∧
    -- R384, R385
    (d.linkUp = true → 5 ≤ rate → 16 ≤ width → ∃ u, exec (.pcieLinkTrained rate width flit ats) s = .next u ∧ u.pending = s.pending ∧
      u.dev = { d with ho := { d.ho with rate := rate, width := width, flit := flit }, xl := u.dev.xl } ∧ u.dev.xl.l2 = d.xl.l2 ∧
      (∀ f < 65, f ∈ u.dev.xl.atsOn ↔ if f = 0 then ats = true else f ∈ d.xl.atsOn) ∧ ∀ y ∈ u.dev.xl.atc, y ∈ d.xl.atc ∧ (ats = true ∨ y.fn ≠ 0)) ∧
    (d.linkUp = true → rate < 5 ∨ width < 16 → ∃ u, exec (.pcieLinkTrained rate width flit ats) s = .next u ∧ u.pending = s.pending ∧
      u.dev.ho.rate = rate ∧ u.dev.ho.width = width ∧ u.dev.ho.flit = flit ∧ bitOf (u.dev.reg (pcxPage + 0x0C)) 5 = true ∧ u.dev.q = d.q ∧ u.dev.mm = d.mm)


/-- Key slots are generated and erased; debug is unlocked. SVN_COMMIT waits for the next tick. A generate fills an empty slot with a fresh key, an
erase empties a loaded and unlocked one; each other case ends with its code and changes no key. A challenge gives a 48-byte nonce; an unlock
without one, while the device is in use, or with a token that does not fit fails with its code; with one that fits it fails where the key set is
revoked or its two signatures do not verify (the algorithms are uninterpreted, log 49), and else opens debug. An unlock leaves only a fresh slot
0 (empty without entropy, log 162), no session, no attestation key and no IDE key. Completes, by their own effect and under conditions on the
state and operands alone: SVN_COMMIT, GENERATE, ERASE, DBG_CHALLENGE, DBG_UNLOCK. (R407, R410, R415, R417, R423, R424) -/
def Obligations.KeysAndDebug : Prop :=
  ∀ (slot : Nat) (ok : Bool) (data : Word) (nonce : List Byte) (s : State), s.Inv →
    let d := s.dev
    let done (code : Nat) (x : Device) : Device := x.withSe fun e => { e with keyBusy := none, keyResult := put e.keyResult slot (if code = 0 then 2 else 3, code) (0, 0) }
    let failed (i : Instr) (code : Nat) : Prop := ∃ u, exec i s = .next u ∧ u.pending = s.pending ∧ u.dev.se = (done code d).se ∧ u.dev.mm = d.mm ∧ u.dev.q = d.q ∧
      bitOf (u.dev.reg (secPage + 0x0C)) 1 = true
    let unlockFails (code : Nat) : Prop := ∃ u, exec .dbgUnlock s = .next u ∧ u.pending = s.pending ∧ u.dev.se.dbgBusy = 0 ∧ u.dev.se.debugOpen = d.se.debugOpen ∧
      u.dev.mm.keys = d.mm.keys ∧ u.dev.reg (secPage + 0x64) = BitVec.ofNat 32 (3 + code * 256)
    let now (i : Instr) (u : Device) : Prop := exec i s = .next { s with dev := u }
    let pa := d.se.dbgAddr
    let token := d.bytesAt 0 pa 17204
    let fresh : Sparse Nat := if ok && !d.se.rngBad then [(0, d.mm.nextGen + 1)] else []
    let opened (u : Device) : Prop := u.mm.keys = fresh ∧ u.se.sessions = [] ∧ u.se.attest = false ∧ u.se.debugOpen = true ∧
      u.se.nonce = none ∧ u.se.dbgBusy = 0 ∧ u.reg (secPage + 0x64) = 2
    let closed (u : Device) (code : Nat) : Prop := u.mm.keys = d.mm.keys ∧ u.se.debugOpen = d.se.debugOpen ∧ u.se.nonce = none ∧ u.se.dbgBusy = 0 ∧
      u.reg (secPage + 0x64) = BitVec.ofNat 32 (3 + code * 256)
    -- SVN_COMMIT waits for the next management tick
    (d.accepts 0 = true → d.up = true → bitOf data 0 = true → now (.svnCommit 0 data) (d.rx.withSe fun e => { e with svnDue := true })) ∧
    (d.accepts 0 = true → bitOf data 0 = false → now (.svnCommit 0 data) d.rx) ∧
    (∀ fn, fn ≠ 0 → fn ≤ 64 → d.accepts fn = true → now (.svnCommit fn data) d.rx) ∧
    -- key commands: none runs; it ends with OK; it ends with its code
    (d.se.keyBusy = none → now (.generate ok) d ∧ now .erase d) ∧
    (d.se.keyBusy = some (1, slot) → d.managed = true → slot ≠ 0 → d.keyGen slot = 0 → d.se.rngBad = false →
      let d1 := done 0 d
      now (.generate true) { d1 with mm := { d.mm with nextGen := d.mm.nextGen + 1, keys := put d.mm.keys slot (d.mm.nextGen + 1) 0 } }) ∧
    (d.se.keyBusy = some (1, 0) → slot = 0 → d.managed = true → failed (.generate true) 1) ∧
    (d.se.keyBusy = some (1, slot) → d.managed = true → slot ≠ 0 → d.keyGen slot ≠ 0 → failed (.generate true) 3) ∧
    (d.se.keyBusy = some (1, slot) → d.managed = true → slot ≠ 0 → d.keyGen slot = 0 → d.se.rngBad = true → failed (.generate true) 4) ∧
    (d.se.keyBusy = some (1, slot) → d.managed = true → ∃ u, exec (.generate false) s = .next u ∧ u.pending = s.pending ∧ u.dev.se.rngBad = true ∧ u.dev.mm = d.mm) ∧
    (d.se.keyBusy = some (2, slot) → d.managed = true → slot ≠ 0 → d.keyGen slot ≠ 0 → d.slotLocked slot = false →
      let d1 := done 0 d
      now .erase { d1 with mm := { d.mm with keys := put d.mm.keys slot 0 0 } }) ∧
    (d.se.keyBusy = some (2, 0) → slot = 0 → d.managed = true → failed .erase 1) ∧
    (d.se.keyBusy = some (2, slot) → d.managed = true → slot ≠ 0 → d.keyGen slot = 0 → failed .erase 3) ∧
    (d.se.keyBusy = some (2, slot) → d.managed = true → slot ≠ 0 → d.keyGen slot ≠ 0 → d.slotLocked slot = true → failed .erase 2) ∧
    -- debug unlock
    (d.se.dbgBusy ≠ 1 → now .dbgChallenge d) ∧ (d.se.dbgBusy ≠ 2 → now .dbgUnlock d) ∧
    (d.managed = true → d.se.dbgBusy = 1 → ∃ u, exec .dbgChallenge s = .next u ∧ u.pending = s.pending ∧ u.dev.se.dbgBusy = 0 ∧
      (∃ b : List Byte, u.dev.se.nonce = some b ∧ b.length = 48) ∧ u.dev.reg (secPage + 0x64) = 2 ∧ u.dev.mm = d.mm ∧ u.dev.q = d.q) ∧
    (d.managed = true → d.se.dbgBusy = 2 → d.se.nonce = none → unlockFails 1) ∧
    (d.managed = true → d.se.dbgBusy = 2 → d.se.nonce = some nonce → d.quiet = false → unlockFails 3) ∧
    (d.managed = true → d.se.dbgBusy = 2 → d.se.nonce = some nonce → d.quiet = true → pa % 64 ≠ 0 → unlockFails 4) ∧
    (d.managed = true → d.se.dbgBusy = 2 → d.se.nonce = some nonce → d.quiet = true → d.tokenFits (d.bytesAt 0 pa 17204) nonce = false → unlockFails 4) ∧
    -- a token that fits opens it, unless its key set is revoked or its signatures do not verify; without entropy slot 0 stays EMPTY (log 162)
    (d.managed = true → d.se.dbgBusy = 2 → d.se.nonce = some nonce → d.quiet = true → pa % 64 = 0 → populatedRange pa 17204 = true → d.ueIn pa 17204 = none →
      d.tokenFits token nonce = true →
      ∃ u, exec (.dbgUnlock ok) s = .next u ∧ u.pending = s.pending ∧ u.dev.mm.cells = d.mm.cells ∧ u.dev.q = d.q ∧
        if d.fuses.revoked.getLsbD 2 then closed u.dev 5 else if tokenSigned token then opened u.dev else closed u.dev 2) ∧
    -- what an unlock leaves: every key slot is empty but slot 0, which is fresh; no session, no attestation key, no link key; debug open
    (∀ t, (Upd.unlock ok).run d = t → t.mm.keys = fresh ∧ t.se.sessions = [] ∧ t.se.debugOpen = true ∧ t.se.attest = false ∧ t.se.attestKeys = [] ∧
      t.mm.cells = d.mm.cells ∧ t.q = d.q ∧ ∀ p ∈ t.ho.ide, p.2.secure = false ∧ p.2.programmed = [])


/-- The SPDM responder: connection, measurements and sessions. Each step of the connection in its order, else ERROR 04; GET_CAPABILITIES agrees on
version 1.3 or 1.2, or ERROR 41, and gives the capabilities, NEGOTIATE_ALGORITHMS the algorithms. Negotiated, the responder gives digests,
certificate chains, measurement blocks, and answers signed under the slot named with the other slot's signature in a vendor element; it holds at
most four sessions, and begins, establishes, renews and ends them; without entropy it gives no key. A port's session provides its next keys. The
message codes, capability bits and the connection's states are those of DMTF DSP0274 (logs 74, 163); signatures are uninterpreted (log 49).
Completes, by their own effect and under conditions on the state and operands alone: GET_VERSION, GET_CAPABILITIES, NEGOTIATE_ALGORITHMS,
GET_DIGESTS, GET_CERTIFICATE, CHALLENGE, GET_MEASUREMENTS, KEY_EXCHANGE, FINISH, KEY_UPDATE, HEARTBEAT, END_SESSION. (R407, R418, R419, R420,
R421, R422) -/
def Obligations.SpdmResponder : Prop :=
  ∀ (id chain index slot version : Nat) (o : Option Nat) (ok : Bool) (nonce : List Byte) (s : State), id < 2 ^ 32 → chain < 8 → index < 256 → slot < 8 → version < 256 → s.dev.managed = true →
    (∀ i ∈ o, i < 2 ^ 32 ∧ s.dev.established i = true) →
    let d := s.dev
    let st (x : SpdmState) (y : Device) : Device := y.withSe fun e => { e with spdm := x }
    let tells (i : Instr) (code : Nat) (data : List Byte) : Prop := exec i s = .next { s with dev := d.answering 5 code data }
    let refused (i : Instr) (code : Nat) : Prop := exec i s = .next { s with dev := d.answering 5 0x7F [BitVec.ofNat 8 code] }
    -- two signatures: the slot's, and the other's in an element with the vendor identifier and that slot's number
    let signs (i : Instr) (code : Nat) (data : List Byte) : Prop := ∃ u b, exec i s = .next u ∧ u.pending = s.pending ∧ u.dev.ho.sent = .answer 5 code (data ++ b) :: d.ho.sent ∧
      b.length = 16614 ∧ (b.drop (if slot = 0 then 384 else 16224)).take 6 = [0x7B, 0x1D, BitVec.ofNat 8 (1 - slot), 0, 0, 0] ∧ u.dev.se = d.se ∧ u.dev.mm = d.mm ∧ u.dev.q = d.q
    let ended (x : Session) : Bool := x.id ≠ id
    -- a session that is not established is not served
    (∀ i, d.established i = false → i < 2 ^ 32 → exec (.getDigests (some i)) s = .next s) ∧
    -- the connection: each step in its order
    exec (.getVersion none) s = .next { s with dev := ((d.withSe fun e => { e with spdm := .version, spdmVersion := 0 })).answering 5 0x04 [0x13, 0x12] } ∧
    (o ≠ none → refused (.getVersion o) 0x04) ∧
    (d.se.spdm = .version → version = 0x13 ∨ version = 0x12 → 
      let d1 := d.withSe fun e => { e with spdm := .capabilities, spdmVersion := version }
      exec (.getCapabilities o version) s = .next { s with dev := d1.answering 5 0x61 (toBytes 4 spdmCapabilities) }) ∧
    (d.se.spdm = .version → version ≠ 0x13 → version ≠ 0x12 → refused (.getCapabilities o version) 0x41) ∧
    (d.se.spdm ≠ .version → refused (.getCapabilities o version) 0x04) ∧
    (d.se.spdm = .capabilities → exec (.negotiateAlgorithms o true) s = .next { s with dev := (st .negotiated d).answering 5 0x63 spdmAlgorithms }) ∧
    (d.se.spdm = .capabilities → refused (.negotiateAlgorithms o false) 0x01) ∧
    (d.se.spdm ≠ .negotiated → refused (.getDigests o) 0x04 ∧ refused (.getCertificate o chain) 0x04 ∧ refused (.challenge o nonce slot) 0x04 ∧
      refused (.getMeasurements o index ok nonce slot) 0x04 ∧ refused (.keyExchange id slot ok) 0x04 ∧ refused (.finish id ok) 0x04) ∧
    -- the connection negotiated
    (d.se.spdm = .negotiated → tells (.getDigests o) 0x01 (sha384 (d.chain 0) ++ sha384 (d.chain 1)) ∧
      (chain < 2 → tells (.getCertificate o chain) 0x02 (d.chain chain)) ∧ (2 ≤ chain → refused (.getCertificate o chain) 0x01) ∧
      (1 ≤ index → index ≤ 6 → tells (.getMeasurements o index false nonce slot) 0x60 (d.measurement index)) ∧
      tells (.getMeasurements o 0 false nonce slot) 0x60 [6] ∧ tells (.getMeasurements o 255 false nonce slot) 0x60 ((span 1 6).flatMap d.measurement) ∧ (7 ≤ index → index < 255 → refused (.getMeasurements o index ok nonce slot) 0x01)) ∧
    -- signed answers; without the attestation keys there are none
    (d.se.spdm = .negotiated → d.se.attest = true → nonce.length = 32 → slot < 2 → signs (.challenge o nonce slot) 0x03 nonce ∧
      (1 ≤ index → index ≤ 6 → signs (.getMeasurements o index true nonce slot) 0x60 (d.measurement index ++ nonce)) ∧
      signs (.getMeasurements o 0 true nonce slot) 0x60 (6 :: nonce) ∧
      signs (.getMeasurements o 255 true nonce slot) 0x60 ((span 1 6).flatMap d.measurement ++ nonce)) ∧
    (d.se.spdm = .negotiated → d.se.attest = false → nonce.length = 32 → slot < 2 → refused (.challenge o nonce slot) 0x05 ∧ refused (.getMeasurements o 255 true nonce slot) 0x05) ∧
    (d.se.spdm = .negotiated → nonce.length = 32 → 2 ≤ slot → refused (.challenge o nonce slot) 0x01 ∧ refused (.getMeasurements o 255 true nonce slot) 0x01) ∧
    -- sessions: at most four; begun, established, renewed, ended
    (d.se.spdm = .negotiated → d.se.attest = true → d.se.rngBad = false → slot < 2 → d.se.sessions.length < 4 → (∀ x ∈ d.se.sessions, x.id ≠ id) → id < linkSession →
      ∃ u, exec (.keyExchange id slot) s = .next u ∧ u.pending = s.pending ∧ u.dev.se = { d.se with sessions := d.se.sessions ++ [{ id := id }] } ∧ u.dev.mm = d.mm) ∧
    (d.se.spdm = .negotiated → d.se.rngBad = false → 4 ≤ d.se.sessions.length ∨ (∃ x ∈ d.se.sessions, x.id = id) → refused (.keyExchange id slot) 0x0A) ∧
    -- without entropy no key is generated (R407; the answer is the model's choice, log 162)
    (d.se.spdm = .negotiated → d.se.rngBad = true → refused (.keyExchange id slot ok) 0x05 ∧
      (d.established id = true → id < linkSession → refused (.keyUpdate id ok) 0x05)) ∧
    (d.se.spdm = .negotiated → (∀ x ∈ d.se.sessions, x.id = id → x.finished = true) → refused (.finish id ok) 0x04) ∧
    (d.se.spdm = .negotiated → (∃ x ∈ d.se.sessions, x.id = id ∧ x.finished = false) →
      exec (.finish id true) s = .next { s with dev := (d.withSe fun e => { e with
        sessions := e.sessions.map fun x => if x.id = id then { x with finished := true } else x }).answering 5 0x65 [] } ∧
      exec (.finish id false) s = .next { s with dev := (d.withSe fun e => { e with sessions := e.sessions.filter ended }).answering 5 0x7F [6] }) ∧
    (d.se.spdm = .negotiated → d.established id = true → id < linkSession → d.se.rngBad = false →
      tells (.heartbeat id) 0x68 [] ∧
      exec (.keyUpdate id) s = .next { s with dev := (d.withSe fun e => { e with
        sessions := e.sessions.map fun x => if x.id = id then { x with keyGen := x.keyGen + 1 } else x }).answering 5 0x69 [] } ∧
      exec (.endSession id) s = .next { s with dev := (d.withSe fun e => { e with sessions := e.sessions.filter ended }).answering 5 0x6C [] }) ∧
    -- the session of a port provides its next key
    (∀ p < 18, d.se.rngBad = false → (d.port p).state ≠ .down → (d.port p).txGroup < 2 ^ 62 →
      let d1 : Device := { d with free := d.free + 1, lk := { d.lk with ports := put d.lk.ports p { d.port p with
        nextKey := some ⟨Config.linkKey d.free 0, Config.linkSalt d.free 0⟩, rxNext := some ⟨Config.linkKey d.free 1, Config.linkSalt d.free 1⟩ } {} } }
      exec (.keyUpdate (linkSession + p)) s = .next { s with dev := d1 })


/-- PLDM firmware update, and MCTP and PLDM messages. Each step of an update in its state gives its answer and the next state, else its error: the
slot being updated is invalid from UPDATE_COMPONENT, an older generation or a component other than the firmware is not taken, an image goes on
where its format, keys and both signatures verify (the algorithms are uninterpreted, log 49) and back where not, an applied one is in its slot,
and ACTIVATE_FIRMWARE takes effect at the next PERST#. MCTP sets the endpoint; sensors and events are turned on and off; PLDM types are told.
Message codes and the update states are those of DMTF DSP0267 (logs 74, 163). Completes, by their own effect and under conditions on the state
and operands alone: QUERY_DEVICE_IDENTIFIERS, GET_FIRMWARE_PARAMETERS, GET_STATUS, REQUEST_UPDATE, PASS_COMPONENT_TABLE, UPDATE_COMPONENT,
REQUEST_FIRMWARE_DATA, TRANSFER_COMPLETE, VERIFY_COMPLETE, APPLY_COMPLETE, ACTIVATE_FIRMWARE, CANCEL_UPDATE_COMPONENT, CANCEL_UPDATE,
SET_ENDPOINT_ID, SET_EVENT_RECEIVER, SET_NUMERIC_SENSOR_ENABLE, PLDM_TYPE_DISCOVERY. (R408, R411, R416, R426, R427) -/
def Obligations.UpdatesAndMessages : Prop :=
  (∀ (gen len off cls ident : Nat) (b : List Byte) (ok : Bool) (s : State), gen < 2 ^ 32 → len < 2 ^ 32 → off < 2 ^ 32 → s.dev.managed = true ∨ s.dev.clk.power = .fwFail →
    s.dev.rf.armed = [] →
    let d := s.dev
    let enters (i : Instr) (u : UpdState) (code : Nat) (data : List Byte) : Prop :=
      exec i s = .next { s with dev := (d.withSe fun e => { e with upd := u }).answering 1 code data }
    let refused (i : Instr) (code : Nat) (why : Byte) : Prop := exec i s = .next { s with dev := d.answering 1 code [why] }
    let tells (i : Instr) (code : Nat) (data : List Byte) : Prop := exec i s = .next { s with dev := d.answering 1 code data }
    let running := (d.se.running.getD {}).gen
    -- what the device says of itself
    tells .queryDeviceIdentifiers 0x501 (toBytes 2 0x1D7B ++ toBytes 2 (if d.fuses.harvested then 0x0117 else 0x0107)) ∧
    tells .getFirmwareParameters 0x502 (toBytes 2 0x000A ++ toBytes 2 0x0001 ++ toBytes 4 running ++ toBytes 4 ((d.imageIn d.updateSlot).getD {}).gen) ∧
    tells .getStatus 0x51B [0, BitVec.ofNat 8 d.se.upd.code] ∧
    -- each step in its state
    (d.se.upd = .idle → enters .requestUpdate .learn 0x510 [0]) ∧ (d.se.upd ≠ .idle → refused .requestUpdate 0x510 0x81) ∧
    (d.se.upd = .learn → (d.se.running = none ∨ running < gen) → enters (.passComponentTable gen) .readyXfer 0x513 [0, 0]) ∧
    (d.se.upd = .learn → d.se.running.isSome = true → gen ≤ running → tells (.passComponentTable gen) 0x513 [0, 1]) ∧
    -- a component other than the firmware (its code is presumed, log 163)
    (cls ≠ 0x000A ∨ ident ≠ 0x0001 → (d.se.upd = .learn → tells (.passComponentTable gen cls ident) 0x513 [0, 6]) ∧
      (d.se.upd = .readyXfer → tells (.updateComponent len cls ident) 0x514 [0, 6])) ∧
    (d.se.upd = .readyXfer → len ≤ 0x1000000 → exec (.updateComponent len) s = .next { s with dev := (d.withSe fun e => { e with
      image := [], imageLen := len, flash := put e.flash d.updateSlot none none, upd := .download }).answering 1 0x514 [0, 0] }) ∧
    (d.se.upd = .readyXfer → 0x1000000 < len → tells (.updateComponent len) 0x514 [0, 1]) ∧
    (d.se.upd = .download → off + b.length ≤ d.se.imageLen → exec (.requestFirmwareData off b) s = .next { s with dev := d.withSe fun e => { e with
      image := ((List.range b.length).zip b).foldl (fun m p => put m (off + p.1) p.2 0) e.image } }) ∧
    (d.se.upd ≠ .download ∨ d.se.imageLen < off + b.length → exec (.requestFirmwareData off b) s = .next s) ∧
    (d.se.upd = .download → enters (.transferComplete true) .verify 0x516 [0] ∧ enters (.transferComplete false) .readyXfer 0x516 [1]) ∧
    -- an image is verified (R411): its format, its keys and both its signatures; one that is not an image or whose keys are revoked fails
    (d.se.upd = .verify →
      let good := (readFirmware d.received).any d.verifies
      enters .verifyComplete (if good then .apply else .readyXfer) 0x517 [if good then 0 else 1]) ∧
    (d.se.upd = .verify → (readFirmware d.received = none ∨ ∃ i, readFirmware d.received = some i ∧ d.fuses.revoked.getLsbD i.keySet = true) →
      enters .verifyComplete .readyXfer 0x517 [1]) ∧
    (d.se.upd = .apply → exec .applyComplete s = .next { s with dev := (d.withSe fun e => { e with
      flash := put e.flash d.updateSlot (readFirmware d.received) none, upd := .activate }).answering 1 0x518 [0] }) ∧
    (d.se.upd = .activate → enters .activateFirmware .idle 0x51A [0, 1] ∧ refused (.activateFirmware true) 0x51A 0x8C) ∧
    -- leaving it
    (d.se.upd = .download ∨ d.se.upd = .verify ∨ d.se.upd = .apply → enters .cancelUpdateComponent .readyXfer 0x51C [0]) ∧
    (d.se.upd = .idle → refused .cancelUpdateComponent 0x51C 0x80 ∧ refused .cancelUpdate 0x51D 0x80 ∧ refused (.activateFirmware ok) 0x51A 0x80 ∧
      refused .applyComplete 0x518 0x80 ∧ refused .verifyComplete 0x517 0x80 ∧ refused (.transferComplete ok) 0x516 0x80 ∧
      refused (.updateComponent len) 0x514 0x80 ∧ refused (.passComponentTable gen) 0x513 0x80) ∧
    (d.se.upd ≠ .idle → enters .cancelUpdate .idle 0x51D [0])) ∧
  (∀ (eid sensor cmd : Nat) (on : Bool) (s : State), eid < 256 → 1 ≤ sensor → sensor ≤ 78 → cmd < 256 → s.dev.telemetry = true → s.dev.rf.armed = [] →
    let d := s.dev
    let rest := d.se.sensorOff.filter (· ≠ sensor)
    (1 ≤ eid → eid < 255 → exec (.setEndpointId eid) s = .next { s with dev := (d.withSe fun e => { e with eid := eid }).answering 0 0x01 [0, BitVec.ofNat 8 eid] }) ∧
    (eid = 0 ∨ eid = 255 → exec (.setEndpointId eid) s = .next { s with dev := d.answering 0 0x01 [2] }) ∧
    exec (.setEventReceiver on) s = .next { s with dev := (d.withSe fun e => { e with events := on }).answering 1 0x204 [0] } ∧
    exec (.setNumericSensorEnable sensor on) s = .next { s with dev := (d.withSe fun e => { e with
      sensorOff := if on then rest else rest ++ [sensor] }).answering 1 0x210 [0] } ∧
    exec (.pldmTypeDiscovery cmd) s = .next { s with dev := d.answering 1 cmd (if cmd = 4 then [0, 0x25] else if 2 ≤ cmd ∧ cmd ≤ 5 then [0] else [5]) })

/-- Completion, fault, trace and log records have their fields in place. A completion record has 32 bytes with status, flags, tag, times, index,
slot, context and result at their offsets; a fault record has 64 bytes with its number, code, level, flags, time, detail and overflow count; a
trace record has 32 with time, kind and body; a log entry 64 with number, region, injected flag and overflow count. (R254, R236, R339, R359) -/
def Obligations.RecordLayouts : Prop :=
  -- the completion record of R254
  (∀ (d : Device) (e s : Nat) (c : Cmd) (st : Status) (r : Nat), e < 32 → s < 8 → c.index < 65536 → (d.slot e s).ctx < 256 → fieldAt c.desc 24 8 + r < 2 ^ 64 →
    let b := d.completionBytes e s c st r
    b.length = 32 ∧ fieldAt b 0 2 = st.code ∧ fieldAt b 2 2 = c.cflags ∧ fieldAt b 4 4 = fieldAt c.desc 4 4 ∧ fieldAt b 8 8 = c.tStart.toNat ∧
    fieldAt b 16 4 = min (d.dieTime (e / 8) - c.tStart).toNat 0xFFFFFFFF ∧ fieldAt b 20 2 = c.index ∧ fieldAt b 22 1 = e * 8 + s ∧ fieldAt b 23 1 = (d.slot e s).ctx ∧
    fieldAt b 24 8 = fieldAt c.desc 24 8 + r) ∧
  -- the fault record of R236
  (∀ (r : FaultRec) (seq ovf : Nat) (phase held : Bool), r.code < 65536 → r.level < 4 → seq < 2 ^ 32 → ovf < 2 ^ 32 → r.detail.length ≤ 16 →
    let b := recordBytes r seq ovf phase held
    b.length = 64 ∧ fieldAt b 0 4 = seq ∧ fieldAt b 4 2 = r.code ∧ fieldAt b 6 1 = r.level ∧
    fieldAt b 7 1 = phase.toNat + 2 * r.ctx.isSome.toNat + 4 * held.toNat + 8 * r.addr.isSome.toNat ∧ fieldAt b 8 8 = r.time.toNat ∧ fieldAt b 56 4 = ovf ∧
    (b.drop 40).take r.detail.length = r.detail) ∧
  -- a trace record and a log entry
  (∀ (t : Word64) (kind : Nat) (rest : List Byte), kind < 256 → rest.length ≤ 23 →
    let b := traceBytes t kind rest
    b.length = 32 ∧ fieldAt b 0 8 = t.toNat ∧ fieldAt b 8 1 = kind ∧ (b.drop 9).take rest.length = rest) ∧
  (∀ (r : FaultRec) (seq ovf : Nat), seq < 2 ^ 32 → ovf < 2 ^ 32 → r.region < 256 →
    let b := logBytes r seq ovf
    b.length = 64 ∧ fieldAt b 0 4 = seq ∧ fieldAt b 30 1 = r.region ∧ fieldAt b 31 1 = r.injected.toNat ∧ fieldAt b 56 4 = ovf)
end

