-- ==== Sys2Proof/Laws/State.lean ====
section
/-! SUPPORT. What each primitive update does to each group of the device, so that no proof unfolds a record update. -/

namespace Sys2Proof.Machine

/-! ### Combinators -/

@[simp] theorem Upd.run_of (f : Device → Device) (h : ∀ d, Wf d → Wf (f d)) (k : ∀ d : Device, d.fuses.Before (f d).fuses) (d : Device) :
    (Upd.of f h k).run d = f d := rfl
@[simp] theorem Upd.run_skip (d : Device) : Upd.skip.run d = d := rfl
@[simp] theorem Upd.run_all_nil (d : Device) : (Upd.all []).run d = d := rfl
@[simp] theorem Upd.run_all_cons (u : Upd) (r : List Upd) (d : Device) : (Upd.all (u :: r)).run d = (Upd.all r).run (u.run d) := rfl
@[simp] theorem Upd.run_read (k : Device → Upd) (d : Device) : (Upd.read k).run d = (k d).run d := rfl
@[simp] theorem Upd.when_true (u : Upd) : Upd.when true u = u := rfl
@[simp] theorem Upd.when_false (u : Upd) : Upd.when false u = Upd.skip := rfl
@[simp] theorem Upd.run_each_nil {α : Type} (f : α → Upd) (d : Device) : (Upd.each [] f).run d = d := rfl
@[simp] theorem Upd.run_each_cons {α : Type} (a : α) (l : List α) (f : α → Upd) (d : Device) :
    (Upd.each (a :: l) f).run d = (Upd.each l f).run ((f a).run d) := rfl
@[simp] theorem Upd.run_times_zero (u : Upd) (d : Device) : (Upd.times 0 u).run d = d := rfl
@[simp] theorem Upd.run_times_succ (n : Nat) (u : Upd) (d : Device) : (Upd.times (n + 1) u).run d = (Upd.times n u).run (u.run d) := rfl
@[simp] theorem Upd.run_draw (k : Nat → Upd) (d : Device) : (Upd.draw k).run d = (k d.free).run { d with free := d.free + 1 } := rfl

/-- An update made under a condition. -/
theorem Upd.run_when (c : Bool) (u : Upd) (d : Device) : (Upd.when c u).run d = if c then u.run d else d := by cases c <;> rfl

/-! ### Fields -/


@[simp] theorem Upd.setReg_clk (a : Nat) (v : Word) (d : Device) : ((Upd.setReg a v).run d).clk = d.clk := rfl
@[simp] theorem Upd.setReg_fuses (a : Nat) (v : Word) (d : Device) : ((Upd.setReg a v).run d).fuses = d.fuses := rfl
@[simp] theorem Upd.setReg_rf (a : Nat) (v : Word) (d : Device) :
    ((Upd.setReg a v).run d).rf = { d.rf with regs := put d.rf.regs a v (resetWord a) } := rfl
@[simp] theorem Upd.setReg_mm (a : Nat) (v : Word) (d : Device) : ((Upd.setReg a v).run d).mm = d.mm := rfl
@[simp] theorem Upd.setReg_xl (a : Nat) (v : Word) (d : Device) : ((Upd.setReg a v).run d).xl = d.xl := rfl
@[simp] theorem Upd.setReg_q (a : Nat) (v : Word) (d : Device) : ((Upd.setReg a v).run d).q = d.q := rfl
@[simp] theorem Upd.setReg_sfu (a : Nat) (v : Word) (d : Device) : ((Upd.setReg a v).run d).sfu = d.sfu := rfl
@[simp] theorem Upd.setReg_kv (a : Nat) (v : Word) (d : Device) : ((Upd.setReg a v).run d).kv = d.kv := rfl
@[simp] theorem Upd.setReg_wt (a : Nat) (v : Word) (d : Device) : ((Upd.setReg a v).run d).wt = d.wt := rfl
@[simp] theorem Upd.setReg_bl (a : Nat) (v : Word) (d : Device) : ((Upd.setReg a v).run d).bl = d.bl := rfl
@[simp] theorem Upd.setReg_lk (a : Nat) (v : Word) (d : Device) : ((Upd.setReg a v).run d).lk = d.lk := rfl
@[simp] theorem Upd.setReg_ob (a : Nat) (v : Word) (d : Device) : ((Upd.setReg a v).run d).ob = d.ob := rfl
@[simp] theorem Upd.setReg_fl (a : Nat) (v : Word) (d : Device) : ((Upd.setReg a v).run d).fl = d.fl := rfl
@[simp] theorem Upd.setReg_ho (a : Nat) (v : Word) (d : Device) : ((Upd.setReg a v).run d).ho = d.ho := rfl
@[simp] theorem Upd.setReg_se (a : Nat) (v : Word) (d : Device) : ((Upd.setReg a v).run d).se = d.se := rfl
@[simp] theorem Upd.setReg_free (a : Nat) (v : Word) (d : Device) : ((Upd.setReg a v).run d).free = d.free := rfl

@[simp] theorem Upd.modReg_clk (a : Nat) (f : Word → Word) (d : Device) : ((Upd.modReg a f).run d).clk = d.clk := rfl
@[simp] theorem Upd.modReg_fuses (a : Nat) (f : Word → Word) (d : Device) : ((Upd.modReg a f).run d).fuses = d.fuses := rfl
@[simp] theorem Upd.modReg_rf (a : Nat) (f : Word → Word) (d : Device) :
    ((Upd.modReg a f).run d).rf = { d.rf with regs := put d.rf.regs a (f (d.reg a)) (resetWord a) } := rfl
@[simp] theorem Upd.modReg_mm (a : Nat) (f : Word → Word) (d : Device) : ((Upd.modReg a f).run d).mm = d.mm := rfl
@[simp] theorem Upd.modReg_xl (a : Nat) (f : Word → Word) (d : Device) : ((Upd.modReg a f).run d).xl = d.xl := rfl
@[simp] theorem Upd.modReg_q (a : Nat) (f : Word → Word) (d : Device) : ((Upd.modReg a f).run d).q = d.q := rfl
@[simp] theorem Upd.modReg_sfu (a : Nat) (f : Word → Word) (d : Device) : ((Upd.modReg a f).run d).sfu = d.sfu := rfl
@[simp] theorem Upd.modReg_kv (a : Nat) (f : Word → Word) (d : Device) : ((Upd.modReg a f).run d).kv = d.kv := rfl
@[simp] theorem Upd.modReg_wt (a : Nat) (f : Word → Word) (d : Device) : ((Upd.modReg a f).run d).wt = d.wt := rfl
@[simp] theorem Upd.modReg_bl (a : Nat) (f : Word → Word) (d : Device) : ((Upd.modReg a f).run d).bl = d.bl := rfl
@[simp] theorem Upd.modReg_lk (a : Nat) (f : Word → Word) (d : Device) : ((Upd.modReg a f).run d).lk = d.lk := rfl
@[simp] theorem Upd.modReg_ob (a : Nat) (f : Word → Word) (d : Device) : ((Upd.modReg a f).run d).ob = d.ob := rfl
@[simp] theorem Upd.modReg_fl (a : Nat) (f : Word → Word) (d : Device) : ((Upd.modReg a f).run d).fl = d.fl := rfl
@[simp] theorem Upd.modReg_ho (a : Nat) (f : Word → Word) (d : Device) : ((Upd.modReg a f).run d).ho = d.ho := rfl
@[simp] theorem Upd.modReg_se (a : Nat) (f : Word → Word) (d : Device) : ((Upd.modReg a f).run d).se = d.se := rfl
@[simp] theorem Upd.modReg_free (a : Nat) (f : Word → Word) (d : Device) : ((Upd.modReg a f).run d).free = d.free := rfl

@[simp] theorem Upd.sat_clk (a : Nat) (d : Device) : ((Upd.sat a).run d).clk = d.clk := rfl
@[simp] theorem Upd.sat_fuses (a : Nat) (d : Device) : ((Upd.sat a).run d).fuses = d.fuses := rfl
@[simp] theorem Upd.sat_rf (a : Nat) (d : Device) :
    ((Upd.sat a).run d).rf = { d.rf with regs := put d.rf.regs a (satInc (d.reg a)) (resetWord a) } := rfl
@[simp] theorem Upd.sat_mm (a : Nat) (d : Device) : ((Upd.sat a).run d).mm = d.mm := rfl
@[simp] theorem Upd.sat_xl (a : Nat) (d : Device) : ((Upd.sat a).run d).xl = d.xl := rfl
@[simp] theorem Upd.sat_q (a : Nat) (d : Device) : ((Upd.sat a).run d).q = d.q := rfl
@[simp] theorem Upd.sat_sfu (a : Nat) (d : Device) : ((Upd.sat a).run d).sfu = d.sfu := rfl
@[simp] theorem Upd.sat_kv (a : Nat) (d : Device) : ((Upd.sat a).run d).kv = d.kv := rfl
@[simp] theorem Upd.sat_wt (a : Nat) (d : Device) : ((Upd.sat a).run d).wt = d.wt := rfl
@[simp] theorem Upd.sat_bl (a : Nat) (d : Device) : ((Upd.sat a).run d).bl = d.bl := rfl
@[simp] theorem Upd.sat_lk (a : Nat) (d : Device) : ((Upd.sat a).run d).lk = d.lk := rfl
@[simp] theorem Upd.sat_ob (a : Nat) (d : Device) : ((Upd.sat a).run d).ob = d.ob := rfl
@[simp] theorem Upd.sat_fl (a : Nat) (d : Device) : ((Upd.sat a).run d).fl = d.fl := rfl
@[simp] theorem Upd.sat_ho (a : Nat) (d : Device) : ((Upd.sat a).run d).ho = d.ho := rfl
@[simp] theorem Upd.sat_se (a : Nat) (d : Device) : ((Upd.sat a).run d).se = d.se := rfl
@[simp] theorem Upd.sat_free (a : Nat) (d : Device) : ((Upd.sat a).run d).free = d.free := rfl

@[simp] theorem Upd.setCtr_clk (a : Nat) (v : Word64) (d : Device) : ((Upd.setCtr a v).run d).clk = d.clk := rfl
@[simp] theorem Upd.setCtr_fuses (a : Nat) (v : Word64) (d : Device) : ((Upd.setCtr a v).run d).fuses = d.fuses := rfl
@[simp] theorem Upd.setCtr_rf (a : Nat) (v : Word64) (d : Device) :
    ((Upd.setCtr a v).run d).rf = { d.rf with ctrs := put d.rf.ctrs a v 0 } := rfl
@[simp] theorem Upd.setCtr_mm (a : Nat) (v : Word64) (d : Device) : ((Upd.setCtr a v).run d).mm = d.mm := rfl
@[simp] theorem Upd.setCtr_xl (a : Nat) (v : Word64) (d : Device) : ((Upd.setCtr a v).run d).xl = d.xl := rfl
@[simp] theorem Upd.setCtr_q (a : Nat) (v : Word64) (d : Device) : ((Upd.setCtr a v).run d).q = d.q := rfl
@[simp] theorem Upd.setCtr_sfu (a : Nat) (v : Word64) (d : Device) : ((Upd.setCtr a v).run d).sfu = d.sfu := rfl
@[simp] theorem Upd.setCtr_kv (a : Nat) (v : Word64) (d : Device) : ((Upd.setCtr a v).run d).kv = d.kv := rfl
@[simp] theorem Upd.setCtr_wt (a : Nat) (v : Word64) (d : Device) : ((Upd.setCtr a v).run d).wt = d.wt := rfl
@[simp] theorem Upd.setCtr_bl (a : Nat) (v : Word64) (d : Device) : ((Upd.setCtr a v).run d).bl = d.bl := rfl
@[simp] theorem Upd.setCtr_lk (a : Nat) (v : Word64) (d : Device) : ((Upd.setCtr a v).run d).lk = d.lk := rfl
@[simp] theorem Upd.setCtr_ob (a : Nat) (v : Word64) (d : Device) : ((Upd.setCtr a v).run d).ob = d.ob := rfl
@[simp] theorem Upd.setCtr_fl (a : Nat) (v : Word64) (d : Device) : ((Upd.setCtr a v).run d).fl = d.fl := rfl
@[simp] theorem Upd.setCtr_ho (a : Nat) (v : Word64) (d : Device) : ((Upd.setCtr a v).run d).ho = d.ho := rfl
@[simp] theorem Upd.setCtr_se (a : Nat) (v : Word64) (d : Device) : ((Upd.setCtr a v).run d).se = d.se := rfl
@[simp] theorem Upd.setCtr_free (a : Nat) (v : Word64) (d : Device) : ((Upd.setCtr a v).run d).free = d.free := rfl

@[simp] theorem Upd.count_clk (a n : Nat) (d : Device) : ((Upd.count a n).run d).clk = d.clk := rfl
@[simp] theorem Upd.count_fuses (a n : Nat) (d : Device) : ((Upd.count a n).run d).fuses = d.fuses := rfl
@[simp] theorem Upd.count_rf (a n : Nat) (d : Device) :
    ((Upd.count a n).run d).rf = { d.rf with ctrs := put d.rf.ctrs a (d.ctr a + BitVec.ofNat 64 n) 0 } := rfl
@[simp] theorem Upd.count_mm (a n : Nat) (d : Device) : ((Upd.count a n).run d).mm = d.mm := rfl
@[simp] theorem Upd.count_xl (a n : Nat) (d : Device) : ((Upd.count a n).run d).xl = d.xl := rfl
@[simp] theorem Upd.count_q (a n : Nat) (d : Device) : ((Upd.count a n).run d).q = d.q := rfl
@[simp] theorem Upd.count_sfu (a n : Nat) (d : Device) : ((Upd.count a n).run d).sfu = d.sfu := rfl
@[simp] theorem Upd.count_kv (a n : Nat) (d : Device) : ((Upd.count a n).run d).kv = d.kv := rfl
@[simp] theorem Upd.count_wt (a n : Nat) (d : Device) : ((Upd.count a n).run d).wt = d.wt := rfl
@[simp] theorem Upd.count_bl (a n : Nat) (d : Device) : ((Upd.count a n).run d).bl = d.bl := rfl
@[simp] theorem Upd.count_lk (a n : Nat) (d : Device) : ((Upd.count a n).run d).lk = d.lk := rfl
@[simp] theorem Upd.count_ob (a n : Nat) (d : Device) : ((Upd.count a n).run d).ob = d.ob := rfl
@[simp] theorem Upd.count_fl (a n : Nat) (d : Device) : ((Upd.count a n).run d).fl = d.fl := rfl
@[simp] theorem Upd.count_ho (a n : Nat) (d : Device) : ((Upd.count a n).run d).ho = d.ho := rfl
@[simp] theorem Upd.count_se (a n : Nat) (d : Device) : ((Upd.count a n).run d).se = d.se := rfl
@[simp] theorem Upd.count_free (a n : Nat) (d : Device) : ((Upd.count a n).run d).free = d.free := rfl

@[simp] theorem Upd.clearCtrs_clk (b l h : Nat) (d : Device) : ((Upd.clearCtrs b l h).run d).clk = d.clk := rfl
@[simp] theorem Upd.clearCtrs_fuses (b l h : Nat) (d : Device) : ((Upd.clearCtrs b l h).run d).fuses = d.fuses := rfl
@[simp] theorem Upd.clearCtrs_rf (b l h : Nat) (d : Device) :
    ((Upd.clearCtrs b l h).run d).rf = { d.rf with ctrs := d.rf.ctrs.filter fun p => !(b + l ≤ p.1 && p.1 ≤ b + h) } := rfl
@[simp] theorem Upd.clearCtrs_mm (b l h : Nat) (d : Device) : ((Upd.clearCtrs b l h).run d).mm = d.mm := rfl
@[simp] theorem Upd.clearCtrs_xl (b l h : Nat) (d : Device) : ((Upd.clearCtrs b l h).run d).xl = d.xl := rfl
@[simp] theorem Upd.clearCtrs_q (b l h : Nat) (d : Device) : ((Upd.clearCtrs b l h).run d).q = d.q := rfl
@[simp] theorem Upd.clearCtrs_sfu (b l h : Nat) (d : Device) : ((Upd.clearCtrs b l h).run d).sfu = d.sfu := rfl
@[simp] theorem Upd.clearCtrs_kv (b l h : Nat) (d : Device) : ((Upd.clearCtrs b l h).run d).kv = d.kv := rfl
@[simp] theorem Upd.clearCtrs_wt (b l h : Nat) (d : Device) : ((Upd.clearCtrs b l h).run d).wt = d.wt := rfl
@[simp] theorem Upd.clearCtrs_bl (b l h : Nat) (d : Device) : ((Upd.clearCtrs b l h).run d).bl = d.bl := rfl
@[simp] theorem Upd.clearCtrs_lk (b l h : Nat) (d : Device) : ((Upd.clearCtrs b l h).run d).lk = d.lk := rfl
@[simp] theorem Upd.clearCtrs_ob (b l h : Nat) (d : Device) : ((Upd.clearCtrs b l h).run d).ob = d.ob := rfl
@[simp] theorem Upd.clearCtrs_fl (b l h : Nat) (d : Device) : ((Upd.clearCtrs b l h).run d).fl = d.fl := rfl
@[simp] theorem Upd.clearCtrs_ho (b l h : Nat) (d : Device) : ((Upd.clearCtrs b l h).run d).ho = d.ho := rfl
@[simp] theorem Upd.clearCtrs_se (b l h : Nat) (d : Device) : ((Upd.clearCtrs b l h).run d).se = d.se := rfl
@[simp] theorem Upd.clearCtrs_free (b l h : Nat) (d : Device) : ((Upd.clearCtrs b l h).run d).free = d.free := rfl

@[simp] theorem Upd.slot_clk (e s : Nat) (f : Slot → Slot) (d : Device) : ((Upd.slot e s f).run d).clk = d.clk := rfl
@[simp] theorem Upd.slot_fuses (e s : Nat) (f : Slot → Slot) (d : Device) : ((Upd.slot e s f).run d).fuses = d.fuses := rfl
@[simp] theorem Upd.slot_rf (e s : Nat) (f : Slot → Slot) (d : Device) : ((Upd.slot e s f).run d).rf = d.rf := rfl
@[simp] theorem Upd.slot_mm (e s : Nat) (f : Slot → Slot) (d : Device) : ((Upd.slot e s f).run d).mm = d.mm := rfl
@[simp] theorem Upd.slot_xl (e s : Nat) (f : Slot → Slot) (d : Device) : ((Upd.slot e s f).run d).xl = d.xl := rfl
@[simp] theorem Upd.slot_q (e s : Nat) (f : Slot → Slot) (d : Device) :
    ((Upd.slot e s f).run d).q = { d.q with slots := put d.q.slots (e * 8 + s) (f (d.slot e s)) {} } := rfl
@[simp] theorem Upd.slot_sfu (e s : Nat) (f : Slot → Slot) (d : Device) : ((Upd.slot e s f).run d).sfu = d.sfu := rfl
@[simp] theorem Upd.slot_kv (e s : Nat) (f : Slot → Slot) (d : Device) : ((Upd.slot e s f).run d).kv = d.kv := rfl
@[simp] theorem Upd.slot_wt (e s : Nat) (f : Slot → Slot) (d : Device) : ((Upd.slot e s f).run d).wt = d.wt := rfl
@[simp] theorem Upd.slot_bl (e s : Nat) (f : Slot → Slot) (d : Device) : ((Upd.slot e s f).run d).bl = d.bl := rfl
@[simp] theorem Upd.slot_lk (e s : Nat) (f : Slot → Slot) (d : Device) : ((Upd.slot e s f).run d).lk = d.lk := rfl
@[simp] theorem Upd.slot_ob (e s : Nat) (f : Slot → Slot) (d : Device) : ((Upd.slot e s f).run d).ob = d.ob := rfl
@[simp] theorem Upd.slot_fl (e s : Nat) (f : Slot → Slot) (d : Device) : ((Upd.slot e s f).run d).fl = d.fl := rfl
@[simp] theorem Upd.slot_ho (e s : Nat) (f : Slot → Slot) (d : Device) : ((Upd.slot e s f).run d).ho = d.ho := rfl
@[simp] theorem Upd.slot_se (e s : Nat) (f : Slot → Slot) (d : Device) : ((Upd.slot e s f).run d).se = d.se := rfl
@[simp] theorem Upd.slot_free (e s : Nat) (f : Slot → Slot) (d : Device) : ((Upd.slot e s f).run d).free = d.free := rfl

@[simp] theorem Upd.cur_clk (e s : Nat) (f : Cmd → Cmd) (d : Device) : ((Upd.cur e s f).run d).clk = d.clk := rfl
@[simp] theorem Upd.cur_fuses (e s : Nat) (f : Cmd → Cmd) (d : Device) : ((Upd.cur e s f).run d).fuses = d.fuses := rfl
@[simp] theorem Upd.cur_rf (e s : Nat) (f : Cmd → Cmd) (d : Device) : ((Upd.cur e s f).run d).rf = d.rf := rfl
@[simp] theorem Upd.cur_mm (e s : Nat) (f : Cmd → Cmd) (d : Device) : ((Upd.cur e s f).run d).mm = d.mm := rfl
@[simp] theorem Upd.cur_xl (e s : Nat) (f : Cmd → Cmd) (d : Device) : ((Upd.cur e s f).run d).xl = d.xl := rfl
@[simp] theorem Upd.cur_q (e s : Nat) (f : Cmd → Cmd) (d : Device) :
    ((Upd.cur e s f).run d).q = { d.q with slots := put d.q.slots (e * 8 + s) { d.slot e s with cur := (d.slot e s).cur.map f } {} } := rfl
@[simp] theorem Upd.cur_sfu (e s : Nat) (f : Cmd → Cmd) (d : Device) : ((Upd.cur e s f).run d).sfu = d.sfu := rfl
@[simp] theorem Upd.cur_kv (e s : Nat) (f : Cmd → Cmd) (d : Device) : ((Upd.cur e s f).run d).kv = d.kv := rfl
@[simp] theorem Upd.cur_wt (e s : Nat) (f : Cmd → Cmd) (d : Device) : ((Upd.cur e s f).run d).wt = d.wt := rfl
@[simp] theorem Upd.cur_bl (e s : Nat) (f : Cmd → Cmd) (d : Device) : ((Upd.cur e s f).run d).bl = d.bl := rfl
@[simp] theorem Upd.cur_lk (e s : Nat) (f : Cmd → Cmd) (d : Device) : ((Upd.cur e s f).run d).lk = d.lk := rfl
@[simp] theorem Upd.cur_ob (e s : Nat) (f : Cmd → Cmd) (d : Device) : ((Upd.cur e s f).run d).ob = d.ob := rfl
@[simp] theorem Upd.cur_fl (e s : Nat) (f : Cmd → Cmd) (d : Device) : ((Upd.cur e s f).run d).fl = d.fl := rfl
@[simp] theorem Upd.cur_ho (e s : Nat) (f : Cmd → Cmd) (d : Device) : ((Upd.cur e s f).run d).ho = d.ho := rfl
@[simp] theorem Upd.cur_se (e s : Nat) (f : Cmd → Cmd) (d : Device) : ((Upd.cur e s f).run d).se = d.se := rfl
@[simp] theorem Upd.cur_free (e s : Nat) (f : Cmd → Cmd) (d : Device) : ((Upd.cur e s f).run d).free = d.free := rfl

@[simp] theorem Upd.eng_clk (e : Nat) (f : Engine → Engine) (d : Device) : ((Upd.eng e f).run d).clk = d.clk := rfl
@[simp] theorem Upd.eng_fuses (e : Nat) (f : Engine → Engine) (d : Device) : ((Upd.eng e f).run d).fuses = d.fuses := rfl
@[simp] theorem Upd.eng_rf (e : Nat) (f : Engine → Engine) (d : Device) : ((Upd.eng e f).run d).rf = d.rf := rfl
@[simp] theorem Upd.eng_mm (e : Nat) (f : Engine → Engine) (d : Device) : ((Upd.eng e f).run d).mm = d.mm := rfl
@[simp] theorem Upd.eng_xl (e : Nat) (f : Engine → Engine) (d : Device) : ((Upd.eng e f).run d).xl = d.xl := rfl
@[simp] theorem Upd.eng_q (e : Nat) (f : Engine → Engine) (d : Device) :
    ((Upd.eng e f).run d).q = { d.q with engines := put d.q.engines e (f (d.eng e)) {} } := rfl
@[simp] theorem Upd.eng_sfu (e : Nat) (f : Engine → Engine) (d : Device) : ((Upd.eng e f).run d).sfu = d.sfu := rfl
@[simp] theorem Upd.eng_kv (e : Nat) (f : Engine → Engine) (d : Device) : ((Upd.eng e f).run d).kv = d.kv := rfl
@[simp] theorem Upd.eng_wt (e : Nat) (f : Engine → Engine) (d : Device) : ((Upd.eng e f).run d).wt = d.wt := rfl
@[simp] theorem Upd.eng_bl (e : Nat) (f : Engine → Engine) (d : Device) : ((Upd.eng e f).run d).bl = d.bl := rfl
@[simp] theorem Upd.eng_lk (e : Nat) (f : Engine → Engine) (d : Device) : ((Upd.eng e f).run d).lk = d.lk := rfl
@[simp] theorem Upd.eng_ob (e : Nat) (f : Engine → Engine) (d : Device) : ((Upd.eng e f).run d).ob = d.ob := rfl
@[simp] theorem Upd.eng_fl (e : Nat) (f : Engine → Engine) (d : Device) : ((Upd.eng e f).run d).fl = d.fl := rfl
@[simp] theorem Upd.eng_ho (e : Nat) (f : Engine → Engine) (d : Device) : ((Upd.eng e f).run d).ho = d.ho := rfl
@[simp] theorem Upd.eng_se (e : Nat) (f : Engine → Engine) (d : Device) : ((Upd.eng e f).run d).se = d.se := rfl
@[simp] theorem Upd.eng_free (e : Nat) (f : Engine → Engine) (d : Device) : ((Upd.eng e f).run d).free = d.free := rfl

@[simp] theorem Upd.cell_clk (e c : Nat) (f : Cell → Cell) (d : Device) : ((Upd.cell e c f).run d).clk = d.clk := rfl
@[simp] theorem Upd.cell_fuses (e c : Nat) (f : Cell → Cell) (d : Device) : ((Upd.cell e c f).run d).fuses = d.fuses := rfl
@[simp] theorem Upd.cell_rf (e c : Nat) (f : Cell → Cell) (d : Device) : ((Upd.cell e c f).run d).rf = d.rf := rfl
@[simp] theorem Upd.cell_mm (e c : Nat) (f : Cell → Cell) (d : Device) : ((Upd.cell e c f).run d).mm = d.mm := rfl
@[simp] theorem Upd.cell_xl (e c : Nat) (f : Cell → Cell) (d : Device) : ((Upd.cell e c f).run d).xl = d.xl := rfl
@[simp] theorem Upd.cell_q (e c : Nat) (f : Cell → Cell) (d : Device) :
    ((Upd.cell e c f).run d).q = { d.q with cells := put d.q.cells (e * 4 + c) (f (d.cell e c)) {} } := rfl
@[simp] theorem Upd.cell_sfu (e c : Nat) (f : Cell → Cell) (d : Device) : ((Upd.cell e c f).run d).sfu = d.sfu := rfl
@[simp] theorem Upd.cell_kv (e c : Nat) (f : Cell → Cell) (d : Device) : ((Upd.cell e c f).run d).kv = d.kv := rfl
@[simp] theorem Upd.cell_wt (e c : Nat) (f : Cell → Cell) (d : Device) : ((Upd.cell e c f).run d).wt = d.wt := rfl
@[simp] theorem Upd.cell_bl (e c : Nat) (f : Cell → Cell) (d : Device) : ((Upd.cell e c f).run d).bl = d.bl := rfl
@[simp] theorem Upd.cell_lk (e c : Nat) (f : Cell → Cell) (d : Device) : ((Upd.cell e c f).run d).lk = d.lk := rfl
@[simp] theorem Upd.cell_ob (e c : Nat) (f : Cell → Cell) (d : Device) : ((Upd.cell e c f).run d).ob = d.ob := rfl
@[simp] theorem Upd.cell_fl (e c : Nat) (f : Cell → Cell) (d : Device) : ((Upd.cell e c f).run d).fl = d.fl := rfl
@[simp] theorem Upd.cell_ho (e c : Nat) (f : Cell → Cell) (d : Device) : ((Upd.cell e c f).run d).ho = d.ho := rfl
@[simp] theorem Upd.cell_se (e c : Nat) (f : Cell → Cell) (d : Device) : ((Upd.cell e c f).run d).se = d.se := rfl
@[simp] theorem Upd.cell_free (e c : Nat) (f : Cell → Cell) (d : Device) : ((Upd.cell e c f).run d).free = d.free := rfl

@[simp] theorem Upd.ctx_clk (c : Nat) (f : Ctx → Ctx) (d : Device) : ((Upd.ctx c f).run d).clk = d.clk := rfl
@[simp] theorem Upd.ctx_fuses (c : Nat) (f : Ctx → Ctx) (d : Device) : ((Upd.ctx c f).run d).fuses = d.fuses := rfl
@[simp] theorem Upd.ctx_rf (c : Nat) (f : Ctx → Ctx) (d : Device) : ((Upd.ctx c f).run d).rf = d.rf := rfl
@[simp] theorem Upd.ctx_mm (c : Nat) (f : Ctx → Ctx) (d : Device) : ((Upd.ctx c f).run d).mm = d.mm := rfl
@[simp] theorem Upd.ctx_xl (c : Nat) (f : Ctx → Ctx) (d : Device) : ((Upd.ctx c f).run d).xl = d.xl := rfl
@[simp] theorem Upd.ctx_q (c : Nat) (f : Ctx → Ctx) (d : Device) :
    ((Upd.ctx c f).run d).q = { d.q with ctxs := put d.q.ctxs c (f (d.ctx c)) {} } := rfl
@[simp] theorem Upd.ctx_sfu (c : Nat) (f : Ctx → Ctx) (d : Device) : ((Upd.ctx c f).run d).sfu = d.sfu := rfl
@[simp] theorem Upd.ctx_kv (c : Nat) (f : Ctx → Ctx) (d : Device) : ((Upd.ctx c f).run d).kv = d.kv := rfl
@[simp] theorem Upd.ctx_wt (c : Nat) (f : Ctx → Ctx) (d : Device) : ((Upd.ctx c f).run d).wt = d.wt := rfl
@[simp] theorem Upd.ctx_bl (c : Nat) (f : Ctx → Ctx) (d : Device) : ((Upd.ctx c f).run d).bl = d.bl := rfl
@[simp] theorem Upd.ctx_lk (c : Nat) (f : Ctx → Ctx) (d : Device) : ((Upd.ctx c f).run d).lk = d.lk := rfl
@[simp] theorem Upd.ctx_ob (c : Nat) (f : Ctx → Ctx) (d : Device) : ((Upd.ctx c f).run d).ob = d.ob := rfl
@[simp] theorem Upd.ctx_fl (c : Nat) (f : Ctx → Ctx) (d : Device) : ((Upd.ctx c f).run d).fl = d.fl := rfl
@[simp] theorem Upd.ctx_ho (c : Nat) (f : Ctx → Ctx) (d : Device) : ((Upd.ctx c f).run d).ho = d.ho := rfl
@[simp] theorem Upd.ctx_se (c : Nat) (f : Ctx → Ctx) (d : Device) : ((Upd.ctx c f).run d).se = d.se := rfl
@[simp] theorem Upd.ctx_free (c : Nat) (f : Ctx → Ctx) (d : Device) : ((Upd.ctx c f).run d).free = d.free := rfl

@[simp] theorem Upd.trc_clk (r : Nat) (f : Trc → Trc) (d : Device) : ((Upd.trc r f).run d).clk = d.clk := rfl
@[simp] theorem Upd.trc_fuses (r : Nat) (f : Trc → Trc) (d : Device) : ((Upd.trc r f).run d).fuses = d.fuses := rfl
@[simp] theorem Upd.trc_rf (r : Nat) (f : Trc → Trc) (d : Device) : ((Upd.trc r f).run d).rf = d.rf := rfl
@[simp] theorem Upd.trc_mm (r : Nat) (f : Trc → Trc) (d : Device) : ((Upd.trc r f).run d).mm = d.mm := rfl
@[simp] theorem Upd.trc_xl (r : Nat) (f : Trc → Trc) (d : Device) : ((Upd.trc r f).run d).xl = d.xl := rfl
@[simp] theorem Upd.trc_q (r : Nat) (f : Trc → Trc) (d : Device) : ((Upd.trc r f).run d).q = d.q := rfl
@[simp] theorem Upd.trc_sfu (r : Nat) (f : Trc → Trc) (d : Device) : ((Upd.trc r f).run d).sfu = d.sfu := rfl
@[simp] theorem Upd.trc_kv (r : Nat) (f : Trc → Trc) (d : Device) : ((Upd.trc r f).run d).kv = d.kv := rfl
@[simp] theorem Upd.trc_wt (r : Nat) (f : Trc → Trc) (d : Device) : ((Upd.trc r f).run d).wt = d.wt := rfl
@[simp] theorem Upd.trc_bl (r : Nat) (f : Trc → Trc) (d : Device) : ((Upd.trc r f).run d).bl = d.bl := rfl
@[simp] theorem Upd.trc_lk (r : Nat) (f : Trc → Trc) (d : Device) : ((Upd.trc r f).run d).lk = d.lk := rfl
@[simp] theorem Upd.trc_ob (r : Nat) (f : Trc → Trc) (d : Device) :
    ((Upd.trc r f).run d).ob = { d.ob with trc := put d.ob.trc r (f (d.trc r)) {} } := rfl
@[simp] theorem Upd.trc_fl (r : Nat) (f : Trc → Trc) (d : Device) : ((Upd.trc r f).run d).fl = d.fl := rfl
@[simp] theorem Upd.trc_ho (r : Nat) (f : Trc → Trc) (d : Device) : ((Upd.trc r f).run d).ho = d.ho := rfl
@[simp] theorem Upd.trc_se (r : Nat) (f : Trc → Trc) (d : Device) : ((Upd.trc r f).run d).se = d.se := rfl
@[simp] theorem Upd.trc_free (r : Nat) (f : Trc → Trc) (d : Device) : ((Upd.trc r f).run d).free = d.free := rfl

@[simp] theorem Upd.ctl_clk (c : Nat) (f : Ctl → Ctl) (d : Device) : ((Upd.ctl c f).run d).clk = d.clk := rfl
@[simp] theorem Upd.ctl_fuses (c : Nat) (f : Ctl → Ctl) (d : Device) : ((Upd.ctl c f).run d).fuses = d.fuses := rfl
@[simp] theorem Upd.ctl_rf (c : Nat) (f : Ctl → Ctl) (d : Device) : ((Upd.ctl c f).run d).rf = d.rf := rfl
@[simp] theorem Upd.ctl_mm (c : Nat) (f : Ctl → Ctl) (d : Device) :
    ((Upd.ctl c f).run d).mm = { d.mm with ctls := put d.mm.ctls c (f (d.ctl c)) {} } := rfl
@[simp] theorem Upd.ctl_xl (c : Nat) (f : Ctl → Ctl) (d : Device) : ((Upd.ctl c f).run d).xl = d.xl := rfl
@[simp] theorem Upd.ctl_q (c : Nat) (f : Ctl → Ctl) (d : Device) : ((Upd.ctl c f).run d).q = d.q := rfl
@[simp] theorem Upd.ctl_sfu (c : Nat) (f : Ctl → Ctl) (d : Device) : ((Upd.ctl c f).run d).sfu = d.sfu := rfl
@[simp] theorem Upd.ctl_kv (c : Nat) (f : Ctl → Ctl) (d : Device) : ((Upd.ctl c f).run d).kv = d.kv := rfl
@[simp] theorem Upd.ctl_wt (c : Nat) (f : Ctl → Ctl) (d : Device) : ((Upd.ctl c f).run d).wt = d.wt := rfl
@[simp] theorem Upd.ctl_bl (c : Nat) (f : Ctl → Ctl) (d : Device) : ((Upd.ctl c f).run d).bl = d.bl := rfl
@[simp] theorem Upd.ctl_lk (c : Nat) (f : Ctl → Ctl) (d : Device) : ((Upd.ctl c f).run d).lk = d.lk := rfl
@[simp] theorem Upd.ctl_ob (c : Nat) (f : Ctl → Ctl) (d : Device) : ((Upd.ctl c f).run d).ob = d.ob := rfl
@[simp] theorem Upd.ctl_fl (c : Nat) (f : Ctl → Ctl) (d : Device) : ((Upd.ctl c f).run d).fl = d.fl := rfl
@[simp] theorem Upd.ctl_ho (c : Nat) (f : Ctl → Ctl) (d : Device) : ((Upd.ctl c f).run d).ho = d.ho := rfl
@[simp] theorem Upd.ctl_se (c : Nat) (f : Ctl → Ctl) (d : Device) : ((Upd.ctl c f).run d).se = d.se := rfl
@[simp] theorem Upd.ctl_free (c : Nat) (f : Ctl → Ctl) (d : Device) : ((Upd.ctl c f).run d).free = d.free := rfl

@[simp] theorem Upd.store_clk (pa : Nat) (b : List Byte) (d : Device) : ((Upd.store pa b).run d).clk = d.clk := rfl
@[simp] theorem Upd.store_fuses (pa : Nat) (b : List Byte) (d : Device) : ((Upd.store pa b).run d).fuses = d.fuses := rfl
@[simp] theorem Upd.store_rf (pa : Nat) (b : List Byte) (d : Device) : ((Upd.store pa b).run d).rf = d.rf := rfl
@[simp] theorem Upd.store_mm (pa : Nat) (b : List Byte) (d : Device) :
    ((Upd.store pa b).run d).mm = { d.mm with cells := storeBytes d.mm.cells pa b } := rfl
@[simp] theorem Upd.store_xl (pa : Nat) (b : List Byte) (d : Device) : ((Upd.store pa b).run d).xl = d.xl := rfl
@[simp] theorem Upd.store_q (pa : Nat) (b : List Byte) (d : Device) : ((Upd.store pa b).run d).q = d.q := rfl
@[simp] theorem Upd.store_sfu (pa : Nat) (b : List Byte) (d : Device) : ((Upd.store pa b).run d).sfu = d.sfu := rfl
@[simp] theorem Upd.store_kv (pa : Nat) (b : List Byte) (d : Device) : ((Upd.store pa b).run d).kv = d.kv := rfl
@[simp] theorem Upd.store_wt (pa : Nat) (b : List Byte) (d : Device) : ((Upd.store pa b).run d).wt = d.wt := rfl
@[simp] theorem Upd.store_bl (pa : Nat) (b : List Byte) (d : Device) : ((Upd.store pa b).run d).bl = d.bl := rfl
@[simp] theorem Upd.store_lk (pa : Nat) (b : List Byte) (d : Device) : ((Upd.store pa b).run d).lk = d.lk := rfl
@[simp] theorem Upd.store_ob (pa : Nat) (b : List Byte) (d : Device) : ((Upd.store pa b).run d).ob = d.ob := rfl
@[simp] theorem Upd.store_fl (pa : Nat) (b : List Byte) (d : Device) : ((Upd.store pa b).run d).fl = d.fl := rfl
@[simp] theorem Upd.store_ho (pa : Nat) (b : List Byte) (d : Device) : ((Upd.store pa b).run d).ho = d.ho := rfl
@[simp] theorem Upd.store_se (pa : Nat) (b : List Byte) (d : Device) : ((Upd.store pa b).run d).se = d.se := rfl
@[simp] theorem Upd.store_free (pa : Nat) (b : List Byte) (d : Device) : ((Upd.store pa b).run d).free = d.free := rfl

@[simp] theorem Upd.lineErr_clk (l : Nat) (x : Option LineErr) (d : Device) : ((Upd.lineErr l x).run d).clk = d.clk := rfl
@[simp] theorem Upd.lineErr_fuses (l : Nat) (x : Option LineErr) (d : Device) : ((Upd.lineErr l x).run d).fuses = d.fuses := rfl
@[simp] theorem Upd.lineErr_rf (l : Nat) (x : Option LineErr) (d : Device) : ((Upd.lineErr l x).run d).rf = d.rf := rfl
@[simp] theorem Upd.lineErr_xl (l : Nat) (x : Option LineErr) (d : Device) : ((Upd.lineErr l x).run d).xl = d.xl := rfl
@[simp] theorem Upd.lineErr_q (l : Nat) (x : Option LineErr) (d : Device) : ((Upd.lineErr l x).run d).q = d.q := rfl
@[simp] theorem Upd.lineErr_sfu (l : Nat) (x : Option LineErr) (d : Device) : ((Upd.lineErr l x).run d).sfu = d.sfu := rfl
@[simp] theorem Upd.lineErr_kv (l : Nat) (x : Option LineErr) (d : Device) : ((Upd.lineErr l x).run d).kv = d.kv := rfl
@[simp] theorem Upd.lineErr_wt (l : Nat) (x : Option LineErr) (d : Device) : ((Upd.lineErr l x).run d).wt = d.wt := rfl
@[simp] theorem Upd.lineErr_bl (l : Nat) (x : Option LineErr) (d : Device) : ((Upd.lineErr l x).run d).bl = d.bl := rfl
@[simp] theorem Upd.lineErr_lk (l : Nat) (x : Option LineErr) (d : Device) : ((Upd.lineErr l x).run d).lk = d.lk := rfl
@[simp] theorem Upd.lineErr_ob (l : Nat) (x : Option LineErr) (d : Device) : ((Upd.lineErr l x).run d).ob = d.ob := rfl
@[simp] theorem Upd.lineErr_fl (l : Nat) (x : Option LineErr) (d : Device) : ((Upd.lineErr l x).run d).fl = d.fl := rfl
@[simp] theorem Upd.lineErr_ho (l : Nat) (x : Option LineErr) (d : Device) : ((Upd.lineErr l x).run d).ho = d.ho := rfl
@[simp] theorem Upd.lineErr_se (l : Nat) (x : Option LineErr) (d : Device) : ((Upd.lineErr l x).run d).se = d.se := rfl
@[simp] theorem Upd.lineErr_free (l : Nat) (x : Option LineErr) (d : Device) : ((Upd.lineErr l x).run d).free = d.free := rfl

@[simp] theorem Upd.send_clk (m : Msg) (d : Device) : ((Upd.send m).run d).clk = d.clk := rfl
@[simp] theorem Upd.send_fuses (m : Msg) (d : Device) : ((Upd.send m).run d).fuses = d.fuses := rfl
@[simp] theorem Upd.send_rf (m : Msg) (d : Device) : ((Upd.send m).run d).rf = d.rf := rfl
@[simp] theorem Upd.send_mm (m : Msg) (d : Device) : ((Upd.send m).run d).mm = d.mm := rfl
@[simp] theorem Upd.send_xl (m : Msg) (d : Device) : ((Upd.send m).run d).xl = d.xl := rfl
@[simp] theorem Upd.send_q (m : Msg) (d : Device) : ((Upd.send m).run d).q = d.q := rfl
@[simp] theorem Upd.send_sfu (m : Msg) (d : Device) : ((Upd.send m).run d).sfu = d.sfu := rfl
@[simp] theorem Upd.send_kv (m : Msg) (d : Device) : ((Upd.send m).run d).kv = d.kv := rfl
@[simp] theorem Upd.send_wt (m : Msg) (d : Device) : ((Upd.send m).run d).wt = d.wt := rfl
@[simp] theorem Upd.send_bl (m : Msg) (d : Device) : ((Upd.send m).run d).bl = d.bl := rfl
@[simp] theorem Upd.send_lk (m : Msg) (d : Device) : ((Upd.send m).run d).lk = d.lk := rfl
@[simp] theorem Upd.send_ob (m : Msg) (d : Device) : ((Upd.send m).run d).ob = d.ob := rfl
@[simp] theorem Upd.send_fl (m : Msg) (d : Device) : ((Upd.send m).run d).fl = d.fl := rfl
@[simp] theorem Upd.send_se (m : Msg) (d : Device) : ((Upd.send m).run d).se = d.se := rfl
@[simp] theorem Upd.send_free (m : Msg) (d : Device) : ((Upd.send m).run d).free = d.free := rfl

end Sys2Proof.Machine
end

