-- ==== Sys2Proof/Laws/Ops.lean ====
section
/-! SUPPORT. What the shared operations do, said once. -/

namespace Sys2Proof.Machine

/-! ### exec -/

/-- A command that names something the part has answers a next state: its update's. -/
theorem State.act_wf (s : State) (i : Instr) (u : Upd) (h : i.wf = true) : s.act i u = .next { s with dev := u.run s.dev } := by
  simp [State.act, h]

/-- A command that names nothing the part has changes nothing. -/
theorem State.act_ill (s : State) (i : Instr) (u : Upd) (h : i.wf = false) : s.act i u = .next s := by
  simp [State.act, h]

/-- A TLP of a function that is received passes (R399). -/
theorem Upd.run_received (fn : Nat) (u : Upd) (d : Device) (h : d.receives fn = true) : (Upd.received fn u).run d = u.run d := by
  have hb : ((d.boundStream fn).any fun x => Decidable.decide (x ≠ d.streamOf fn)) = false := by
    cases hx : d.boundStream fn with
    | none => rfl
    | some k => simp [Device.streamOf, hx]
  simp only [Upd.received, run_read, Option.getD_none, hb, Bool.false_eq_true, if_false]
  cases hs : (d.ide (d.streamOf fn)).secure
  · simp only [Device.receives, hs, Bool.false_eq_true, if_false, Bool.and_eq_true, beq_iff_eq, Bool.not_eq_true'] at h
    have hf : (d.ide 0).failed = false := h.1 ▸ h.2
    simp [h.1, hf]
  · simp only [Device.receives, hs, if_true, Bool.not_eq_true'] at h
    simp [Upd.inject, h]

/-- The die that a hop enters is one of the eight. -/
theorem linkOf_lt {a b k : Nat} (h : linkOf a b = some k) : b < 8 := by
  have hk : k < 8 := List.mem_range.1 (List.mem_of_find?_eq_some h)
  have he := List.find?_some h
  simp only [Bool.and_eq_true, linkEnds, List.contains_iff_mem] at he
  interval_cases k <;> simp [linkDies] at he <;> omega

/-- With no link injection armed no route meets one. -/
theorem Device.nocArmed_none {d : Device} (h : d.routesClear = true) (src dst : Nat) : d.nocArmed src dst = none := by
  simp only [Device.nocArmed, Option.map_eq_none_iff, List.find?_eq_none]
  intro x hx
  simp only [routeHops, List.mem_filterMap, Option.map_eq_some_iff] at hx
  obtain ⟨p, -, k, hk, rfl⟩ := hx
  have := List.all_eq_true.1 h p.2 (List.mem_range.2 (linkOf_lt hk))
  simp_all

/-- Then a packet crosses (R23, R26). -/
theorem Upd.run_cross {d : Device} (h : d.routesClear = true) (src dst : Nat) (k : Upd) : (Upd.cross src dst k).run d = k.run d := by
  simp [Upd.cross, Device.nocArmed_none h]

/-- A register write that is accepted: counted, then carried out. -/
theorem State.hostAct_eq (s : State) (i : Instr) (fn : Nat) (u : Upd) (die : Nat) (hw : i.wf = true) (h : s.dev.accepts fn = true) :
    s.hostAct i fn u die = .next { s with dev := u.run s.dev.rx } := by
  simp only [Device.accepts, Bool.and_eq_true] at h
  obtain ⟨⟨⟨hl, ha⟩, hc⟩, hr⟩ := h
  have hc' : s.dev.rx.routesClear = true := hc
  rw [State.hostAct, State.act_wf _ _ _ hw]
  simp only [Upd.run_read, hl, ha, Bool.true_or, Bool.and_self, Upd.when_true, Upd.run_received _ _ _ hr, Upd.run_all_cons, Upd.run_all_nil]
  exact congrArg (fun x => Host.Outcome.next { s with dev := x }) (Upd.run_cross hc' 6 die u)

/-! ### Tables -/

/-- A key reads as it was last written, in any table, when what was written is not the default. -/
theorem look_put_ne {α : Type} [DecidableEq α] {m : Sparse α} {k : Nat} {v d : α} (e : α) (h : v ≠ d) : look (put m k v d) k e = v := by
  induction m with
  | nil => simp [put, h, look]
  | cons q r ih =>
    obtain ⟨j, w⟩ := q
    simp only [put]
    split_ifs with h1 h2
    · simp only [look]; rw [if_neg (by omega)]; exact ih
    · simp [look]
    · simp [look]

/-- A slot reads as it was last written, when it is not the slot of an unused queue. -/
theorem Device.slot_withSlot (d : Device) (e k : Nat) (x : Slot) (h : x ≠ {}) : (d.withSlot e k x).slot e k = x := look_put_ne _ h

/-- An engine reads as it was last written, when it is not an engine at reset. -/
theorem Device.eng_withEng (d : Device) (e : Nat) (x : Engine) (h : x ≠ {}) : (d.withEng e x).eng e = x := look_put_ne _ h

/-- Another slot stays as it was. -/
theorem Device.slot_withSlot_other (d : Device) {e k i j : Nat} (x : Slot) (h : i * 8 + j ≠ e * 8 + k) :
    (d.withSlot e k x).slot i j = d.slot i j := look_put_other x {} {} h

/-- Another engine stays as it was. -/
theorem Device.eng_withEng_other (d : Device) {e i : Nat} (x : Engine) (h : i ≠ e) : (d.withEng e x).eng i = d.eng i :=
  look_put_other x {} {} h

/-! ### Primitive updates, as the device with one thing replaced -/

theorem Upd.run_slot (e k : Nat) (f : Slot → Slot) (d : Device) : (Upd.slot e k f).run d = d.withSlot e k (f (d.slot e k)) := rfl
theorem Upd.run_cur (e k : Nat) (f : Cmd → Cmd) (d : Device) :
    (Upd.cur e k f).run d = d.withSlot e k { d.slot e k with cur := (d.slot e k).cur.map f } := rfl
theorem Upd.run_eng (e : Nat) (f : Engine → Engine) (d : Device) : (Upd.eng e f).run d = d.withEng e (f (d.eng e)) := rfl
theorem Upd.run_cell (e c : Nat) (f : Cell → Cell) (d : Device) : (Upd.cell e c f).run d = d.withCell e c (f (d.cell e c)) := rfl
theorem Upd.run_ctx (c : Nat) (f : Ctx → Ctx) (d : Device) : (Upd.ctx c f).run d = d.withCtx c (f (d.ctx c)) := rfl
theorem Upd.run_setReg (a : Nat) (v : Word) (d : Device) : (Upd.setReg a v).run d = d.withReg a v := rfl
theorem Upd.run_modReg (a : Nat) (f : Word → Word) (d : Device) : (Upd.modReg a f).run d = d.withReg a (f (d.reg a)) := rfl
theorem Upd.run_setCtr (a : Nat) (v : Word64) (d : Device) : (Upd.setCtr a v).run d = d.withCtr a v := rfl
theorem Upd.run_count (a n : Nat) (d : Device) : (Upd.count a n).run d = d.withCtr a (d.ctr a + BitVec.ofNat 64 n) := rfl
theorem Upd.run_sat (a : Nat) (d : Device) : (Upd.sat a).run d = d.withReg a (satInc (d.reg a)) := rfl

/-! ### What a replaced slot, engine, cell, context or register leaves alone -/

@[simp] theorem Device.withSlot_clk (d : Device) (e k : Nat) (x : Slot) : (d.withSlot e k x).clk = d.clk := rfl
@[simp] theorem Device.withSlot_fuses (d : Device) (e k : Nat) (x : Slot) : (d.withSlot e k x).fuses = d.fuses := rfl
@[simp] theorem Device.withSlot_rf (d : Device) (e k : Nat) (x : Slot) : (d.withSlot e k x).rf = d.rf := rfl
@[simp] theorem Device.withSlot_mm (d : Device) (e k : Nat) (x : Slot) : (d.withSlot e k x).mm = d.mm := rfl
@[simp] theorem Device.withSlot_xl (d : Device) (e k : Nat) (x : Slot) : (d.withSlot e k x).xl = d.xl := rfl
@[simp] theorem Device.withSlot_sfu (d : Device) (e k : Nat) (x : Slot) : (d.withSlot e k x).sfu = d.sfu := rfl
@[simp] theorem Device.withSlot_kv (d : Device) (e k : Nat) (x : Slot) : (d.withSlot e k x).kv = d.kv := rfl
@[simp] theorem Device.withSlot_wt (d : Device) (e k : Nat) (x : Slot) : (d.withSlot e k x).wt = d.wt := rfl
@[simp] theorem Device.withSlot_bl (d : Device) (e k : Nat) (x : Slot) : (d.withSlot e k x).bl = d.bl := rfl
@[simp] theorem Device.withSlot_lk (d : Device) (e k : Nat) (x : Slot) : (d.withSlot e k x).lk = d.lk := rfl
@[simp] theorem Device.withSlot_ob (d : Device) (e k : Nat) (x : Slot) : (d.withSlot e k x).ob = d.ob := rfl
@[simp] theorem Device.withSlot_fl (d : Device) (e k : Nat) (x : Slot) : (d.withSlot e k x).fl = d.fl := rfl
@[simp] theorem Device.withSlot_ho (d : Device) (e k : Nat) (x : Slot) : (d.withSlot e k x).ho = d.ho := rfl
@[simp] theorem Device.withSlot_se (d : Device) (e k : Nat) (x : Slot) : (d.withSlot e k x).se = d.se := rfl
@[simp] theorem Device.withSlot_free (d : Device) (e k : Nat) (x : Slot) : (d.withSlot e k x).free = d.free := rfl
@[simp] theorem Device.withSlot_eng (d : Device) (e k : Nat) (x : Slot) (i : Nat) : (d.withSlot e k x).eng i = d.eng i := rfl
@[simp] theorem Device.withSlot_cell (d : Device) (e k : Nat) (x : Slot) (i j : Nat) : (d.withSlot e k x).cell i j = d.cell i j := rfl
@[simp] theorem Device.withSlot_ctx (d : Device) (e k : Nat) (x : Slot) (i : Nat) : (d.withSlot e k x).ctx i = d.ctx i := rfl
@[simp] theorem Device.withEng_clk (d : Device) (e : Nat) (x : Engine) : (d.withEng e x).clk = d.clk := rfl
@[simp] theorem Device.withEng_fuses (d : Device) (e : Nat) (x : Engine) : (d.withEng e x).fuses = d.fuses := rfl
@[simp] theorem Device.withEng_rf (d : Device) (e : Nat) (x : Engine) : (d.withEng e x).rf = d.rf := rfl
@[simp] theorem Device.withEng_mm (d : Device) (e : Nat) (x : Engine) : (d.withEng e x).mm = d.mm := rfl
@[simp] theorem Device.withEng_xl (d : Device) (e : Nat) (x : Engine) : (d.withEng e x).xl = d.xl := rfl
@[simp] theorem Device.withEng_sfu (d : Device) (e : Nat) (x : Engine) : (d.withEng e x).sfu = d.sfu := rfl
@[simp] theorem Device.withEng_kv (d : Device) (e : Nat) (x : Engine) : (d.withEng e x).kv = d.kv := rfl
@[simp] theorem Device.withEng_wt (d : Device) (e : Nat) (x : Engine) : (d.withEng e x).wt = d.wt := rfl
@[simp] theorem Device.withEng_bl (d : Device) (e : Nat) (x : Engine) : (d.withEng e x).bl = d.bl := rfl
@[simp] theorem Device.withEng_lk (d : Device) (e : Nat) (x : Engine) : (d.withEng e x).lk = d.lk := rfl
@[simp] theorem Device.withEng_ob (d : Device) (e : Nat) (x : Engine) : (d.withEng e x).ob = d.ob := rfl
@[simp] theorem Device.withEng_fl (d : Device) (e : Nat) (x : Engine) : (d.withEng e x).fl = d.fl := rfl
@[simp] theorem Device.withEng_ho (d : Device) (e : Nat) (x : Engine) : (d.withEng e x).ho = d.ho := rfl
@[simp] theorem Device.withEng_se (d : Device) (e : Nat) (x : Engine) : (d.withEng e x).se = d.se := rfl
@[simp] theorem Device.withEng_free (d : Device) (e : Nat) (x : Engine) : (d.withEng e x).free = d.free := rfl
@[simp] theorem Device.withEng_slot (d : Device) (e : Nat) (x : Engine) (i j : Nat) : (d.withEng e x).slot i j = d.slot i j := rfl
@[simp] theorem Device.withEng_cell (d : Device) (e : Nat) (x : Engine) (i j : Nat) : (d.withEng e x).cell i j = d.cell i j := rfl
@[simp] theorem Device.withEng_ctx (d : Device) (e : Nat) (x : Engine) (i : Nat) : (d.withEng e x).ctx i = d.ctx i := rfl
@[simp] theorem Device.withCell_clk (d : Device) (e c : Nat) (x : Cell) : (d.withCell e c x).clk = d.clk := rfl
@[simp] theorem Device.withCell_fuses (d : Device) (e c : Nat) (x : Cell) : (d.withCell e c x).fuses = d.fuses := rfl
@[simp] theorem Device.withCell_rf (d : Device) (e c : Nat) (x : Cell) : (d.withCell e c x).rf = d.rf := rfl
@[simp] theorem Device.withCell_mm (d : Device) (e c : Nat) (x : Cell) : (d.withCell e c x).mm = d.mm := rfl
@[simp] theorem Device.withCell_xl (d : Device) (e c : Nat) (x : Cell) : (d.withCell e c x).xl = d.xl := rfl
@[simp] theorem Device.withCell_sfu (d : Device) (e c : Nat) (x : Cell) : (d.withCell e c x).sfu = d.sfu := rfl
@[simp] theorem Device.withCell_kv (d : Device) (e c : Nat) (x : Cell) : (d.withCell e c x).kv = d.kv := rfl
@[simp] theorem Device.withCell_wt (d : Device) (e c : Nat) (x : Cell) : (d.withCell e c x).wt = d.wt := rfl
@[simp] theorem Device.withCell_bl (d : Device) (e c : Nat) (x : Cell) : (d.withCell e c x).bl = d.bl := rfl
@[simp] theorem Device.withCell_lk (d : Device) (e c : Nat) (x : Cell) : (d.withCell e c x).lk = d.lk := rfl
@[simp] theorem Device.withCell_ob (d : Device) (e c : Nat) (x : Cell) : (d.withCell e c x).ob = d.ob := rfl
@[simp] theorem Device.withCell_fl (d : Device) (e c : Nat) (x : Cell) : (d.withCell e c x).fl = d.fl := rfl
@[simp] theorem Device.withCell_ho (d : Device) (e c : Nat) (x : Cell) : (d.withCell e c x).ho = d.ho := rfl
@[simp] theorem Device.withCell_se (d : Device) (e c : Nat) (x : Cell) : (d.withCell e c x).se = d.se := rfl
@[simp] theorem Device.withCell_free (d : Device) (e c : Nat) (x : Cell) : (d.withCell e c x).free = d.free := rfl
@[simp] theorem Device.withCell_slot (d : Device) (e c : Nat) (x : Cell) (i j : Nat) : (d.withCell e c x).slot i j = d.slot i j := rfl
@[simp] theorem Device.withCell_eng (d : Device) (e c : Nat) (x : Cell) (i : Nat) : (d.withCell e c x).eng i = d.eng i := rfl
@[simp] theorem Device.withCell_ctx (d : Device) (e c : Nat) (x : Cell) (i : Nat) : (d.withCell e c x).ctx i = d.ctx i := rfl
@[simp] theorem Device.withCtx_clk (d : Device) (c : Nat) (x : Ctx) : (d.withCtx c x).clk = d.clk := rfl
@[simp] theorem Device.withCtx_fuses (d : Device) (c : Nat) (x : Ctx) : (d.withCtx c x).fuses = d.fuses := rfl
@[simp] theorem Device.withCtx_rf (d : Device) (c : Nat) (x : Ctx) : (d.withCtx c x).rf = d.rf := rfl
@[simp] theorem Device.withCtx_mm (d : Device) (c : Nat) (x : Ctx) : (d.withCtx c x).mm = d.mm := rfl
@[simp] theorem Device.withCtx_xl (d : Device) (c : Nat) (x : Ctx) : (d.withCtx c x).xl = d.xl := rfl
@[simp] theorem Device.withCtx_sfu (d : Device) (c : Nat) (x : Ctx) : (d.withCtx c x).sfu = d.sfu := rfl
@[simp] theorem Device.withCtx_kv (d : Device) (c : Nat) (x : Ctx) : (d.withCtx c x).kv = d.kv := rfl
@[simp] theorem Device.withCtx_wt (d : Device) (c : Nat) (x : Ctx) : (d.withCtx c x).wt = d.wt := rfl
@[simp] theorem Device.withCtx_bl (d : Device) (c : Nat) (x : Ctx) : (d.withCtx c x).bl = d.bl := rfl
@[simp] theorem Device.withCtx_lk (d : Device) (c : Nat) (x : Ctx) : (d.withCtx c x).lk = d.lk := rfl
@[simp] theorem Device.withCtx_ob (d : Device) (c : Nat) (x : Ctx) : (d.withCtx c x).ob = d.ob := rfl
@[simp] theorem Device.withCtx_fl (d : Device) (c : Nat) (x : Ctx) : (d.withCtx c x).fl = d.fl := rfl
@[simp] theorem Device.withCtx_ho (d : Device) (c : Nat) (x : Ctx) : (d.withCtx c x).ho = d.ho := rfl
@[simp] theorem Device.withCtx_se (d : Device) (c : Nat) (x : Ctx) : (d.withCtx c x).se = d.se := rfl
@[simp] theorem Device.withCtx_free (d : Device) (c : Nat) (x : Ctx) : (d.withCtx c x).free = d.free := rfl
@[simp] theorem Device.withCtx_slot (d : Device) (c : Nat) (x : Ctx) (i j : Nat) : (d.withCtx c x).slot i j = d.slot i j := rfl
@[simp] theorem Device.withCtx_eng (d : Device) (c : Nat) (x : Ctx) (i : Nat) : (d.withCtx c x).eng i = d.eng i := rfl
@[simp] theorem Device.withCtx_cell (d : Device) (c : Nat) (x : Ctx) (i j : Nat) : (d.withCtx c x).cell i j = d.cell i j := rfl
@[simp] theorem Device.withReg_clk (d : Device) (r : Nat) (v : Word) : (d.withReg r v).clk = d.clk := rfl
@[simp] theorem Device.withReg_fuses (d : Device) (r : Nat) (v : Word) : (d.withReg r v).fuses = d.fuses := rfl
@[simp] theorem Device.withReg_mm (d : Device) (r : Nat) (v : Word) : (d.withReg r v).mm = d.mm := rfl
@[simp] theorem Device.withReg_xl (d : Device) (r : Nat) (v : Word) : (d.withReg r v).xl = d.xl := rfl
@[simp] theorem Device.withReg_q (d : Device) (r : Nat) (v : Word) : (d.withReg r v).q = d.q := rfl
@[simp] theorem Device.withReg_sfu (d : Device) (r : Nat) (v : Word) : (d.withReg r v).sfu = d.sfu := rfl
@[simp] theorem Device.withReg_kv (d : Device) (r : Nat) (v : Word) : (d.withReg r v).kv = d.kv := rfl
@[simp] theorem Device.withReg_wt (d : Device) (r : Nat) (v : Word) : (d.withReg r v).wt = d.wt := rfl
@[simp] theorem Device.withReg_bl (d : Device) (r : Nat) (v : Word) : (d.withReg r v).bl = d.bl := rfl
@[simp] theorem Device.withReg_lk (d : Device) (r : Nat) (v : Word) : (d.withReg r v).lk = d.lk := rfl
@[simp] theorem Device.withReg_ob (d : Device) (r : Nat) (v : Word) : (d.withReg r v).ob = d.ob := rfl
@[simp] theorem Device.withReg_fl (d : Device) (r : Nat) (v : Word) : (d.withReg r v).fl = d.fl := rfl
@[simp] theorem Device.withReg_ho (d : Device) (r : Nat) (v : Word) : (d.withReg r v).ho = d.ho := rfl
@[simp] theorem Device.withReg_se (d : Device) (r : Nat) (v : Word) : (d.withReg r v).se = d.se := rfl
@[simp] theorem Device.withReg_free (d : Device) (r : Nat) (v : Word) : (d.withReg r v).free = d.free := rfl
@[simp] theorem Device.withReg_slot (d : Device) (r : Nat) (v : Word) (i j : Nat) : (d.withReg r v).slot i j = d.slot i j := rfl
@[simp] theorem Device.withReg_eng (d : Device) (r : Nat) (v : Word) (i : Nat) : (d.withReg r v).eng i = d.eng i := rfl
@[simp] theorem Device.withReg_cell (d : Device) (r : Nat) (v : Word) (i j : Nat) : (d.withReg r v).cell i j = d.cell i j := rfl
@[simp] theorem Device.withReg_ctx (d : Device) (r : Nat) (v : Word) (i : Nat) : (d.withReg r v).ctx i = d.ctx i := rfl
@[simp] theorem Device.withCtr_clk (d : Device) (r : Nat) (v : Word64) : (d.withCtr r v).clk = d.clk := rfl
@[simp] theorem Device.withCtr_fuses (d : Device) (r : Nat) (v : Word64) : (d.withCtr r v).fuses = d.fuses := rfl
@[simp] theorem Device.withCtr_mm (d : Device) (r : Nat) (v : Word64) : (d.withCtr r v).mm = d.mm := rfl
@[simp] theorem Device.withCtr_xl (d : Device) (r : Nat) (v : Word64) : (d.withCtr r v).xl = d.xl := rfl
@[simp] theorem Device.withCtr_q (d : Device) (r : Nat) (v : Word64) : (d.withCtr r v).q = d.q := rfl
@[simp] theorem Device.withCtr_sfu (d : Device) (r : Nat) (v : Word64) : (d.withCtr r v).sfu = d.sfu := rfl
@[simp] theorem Device.withCtr_kv (d : Device) (r : Nat) (v : Word64) : (d.withCtr r v).kv = d.kv := rfl
@[simp] theorem Device.withCtr_wt (d : Device) (r : Nat) (v : Word64) : (d.withCtr r v).wt = d.wt := rfl
@[simp] theorem Device.withCtr_bl (d : Device) (r : Nat) (v : Word64) : (d.withCtr r v).bl = d.bl := rfl
@[simp] theorem Device.withCtr_lk (d : Device) (r : Nat) (v : Word64) : (d.withCtr r v).lk = d.lk := rfl
@[simp] theorem Device.withCtr_ob (d : Device) (r : Nat) (v : Word64) : (d.withCtr r v).ob = d.ob := rfl
@[simp] theorem Device.withCtr_fl (d : Device) (r : Nat) (v : Word64) : (d.withCtr r v).fl = d.fl := rfl
@[simp] theorem Device.withCtr_ho (d : Device) (r : Nat) (v : Word64) : (d.withCtr r v).ho = d.ho := rfl
@[simp] theorem Device.withCtr_se (d : Device) (r : Nat) (v : Word64) : (d.withCtr r v).se = d.se := rfl
@[simp] theorem Device.withCtr_free (d : Device) (r : Nat) (v : Word64) : (d.withCtr r v).free = d.free := rfl
@[simp] theorem Device.withCtr_slot (d : Device) (r : Nat) (v : Word64) (i j : Nat) : (d.withCtr r v).slot i j = d.slot i j := rfl
@[simp] theorem Device.withCtr_eng (d : Device) (r : Nat) (v : Word64) (i : Nat) : (d.withCtr r v).eng i = d.eng i := rfl
@[simp] theorem Device.withCtr_cell (d : Device) (r : Nat) (v : Word64) (i j : Nat) : (d.withCtr r v).cell i j = d.cell i j := rfl
@[simp] theorem Device.withCtr_ctx (d : Device) (r : Nat) (v : Word64) (i : Nat) : (d.withCtr r v).ctx i = d.ctx i := rfl
@[simp] theorem Device.rx_clk (d : Device) : d.rx.clk = d.clk := rfl
@[simp] theorem Device.rx_fuses (d : Device) : d.rx.fuses = d.fuses := rfl
@[simp] theorem Device.rx_mm (d : Device) : d.rx.mm = d.mm := rfl
@[simp] theorem Device.rx_xl (d : Device) : d.rx.xl = d.xl := rfl
@[simp] theorem Device.rx_q (d : Device) : d.rx.q = d.q := rfl
@[simp] theorem Device.rx_sfu (d : Device) : d.rx.sfu = d.sfu := rfl
@[simp] theorem Device.rx_kv (d : Device) : d.rx.kv = d.kv := rfl
@[simp] theorem Device.rx_wt (d : Device) : d.rx.wt = d.wt := rfl
@[simp] theorem Device.rx_bl (d : Device) : d.rx.bl = d.bl := rfl
@[simp] theorem Device.rx_lk (d : Device) : d.rx.lk = d.lk := rfl
@[simp] theorem Device.rx_ob (d : Device) : d.rx.ob = d.ob := rfl
@[simp] theorem Device.rx_fl (d : Device) : d.rx.fl = d.fl := rfl
@[simp] theorem Device.rx_ho (d : Device) : d.rx.ho = d.ho := rfl
@[simp] theorem Device.rx_se (d : Device) : d.rx.se = d.se := rfl
@[simp] theorem Device.rx_free (d : Device) : d.rx.free = d.free := rfl
@[simp] theorem Device.rx_slot (d : Device) (i j : Nat) : d.rx.slot i j = d.slot i j := rfl
@[simp] theorem Device.rx_eng (d : Device) (i : Nat) : d.rx.eng i = d.eng i := rfl
@[simp] theorem Device.rx_cell (d : Device) (i j : Nat) : d.rx.cell i j = d.cell i j := rfl
@[simp] theorem Device.rx_ctx (d : Device) (i : Nat) : d.rx.ctx i = d.ctx i := rfl
@[simp] theorem Device.rx_reg (d : Device) (i : Nat) : d.rx.reg i = d.reg i := rfl
@[simp] theorem Device.rx_regN (d : Device) (i : Nat) : d.rx.regN i = d.regN i := rfl
@[simp] theorem Device.rx_inForce (d : Device) (i : Nat) : d.rx.inForce i = d.inForce i := rfl
@[simp] theorem Device.rx_up (d : Device) : d.rx.up = d.up := rfl
@[simp] theorem Device.rx_unheld (d : Device) : d.rx.unheld = d.unheld := rfl
@[simp] theorem Device.rx_gongOn (d : Device) : d.rx.gongOn = d.gongOn := rfl
@[simp] theorem Device.rx_linkUp (d : Device) : d.rx.linkUp = d.linkUp := rfl
@[simp] theorem Device.rx_now (d : Device) : d.rx.now = d.now := rfl
@[simp] theorem Device.rx_blockOn (d : Device) (e : Nat) : d.rx.blockOn e = d.blockOn e := rfl
@[simp] theorem Device.rx_resetDue (d : Device) (e : Nat) : d.rx.resetDue e = d.resetDue e := rfl
@[simp] theorem Device.rx_reachesSlot (d : Device) (f e k : Nat) : d.rx.reachesSlot f e k = d.reachesSlot f e k := rfl
@[simp] theorem Device.rx_reachesCtx (d : Device) (f c : Nat) : d.rx.reachesCtx f c = d.reachesCtx f c := rfl
@[simp] theorem Device.rx_runs (d : Device) (e k : Nat) : d.rx.runs e k = d.runs e k := rfl
@[simp] theorem Device.rx_isArmed (d : Device) (p b : Nat) : d.rx.isArmed p b = d.isArmed p b := rfl
@[simp] theorem Device.rx_vfOn (d : Device) (f : Nat) : d.rx.vfOn f = d.vfOn f := rfl

/-- A register reads as it was last written. -/
theorem Device.reg_withReg_self (d : Device) (h : Wf d) (a : Nat) (v : Word) : (d.withReg a v).reg a = v :=
  look_put_self h.regs a v

/-- A write of one register leaves every other. -/
theorem Device.reg_withReg_other (d : Device) {a b : Nat} (v : Word) (h : b ≠ a) : (d.withReg a v).reg b = d.reg b :=
  look_put_other v _ _ h

/-- The second of two writes of one key stands alone, when the first wrote no default. -/
theorem put_put_ne {α : Type} [DecidableEq α] {m : Sparse α} {k : Nat} {v d : α} (w : α) (h : v ≠ d) :
    put (put m k v d) k w d = put m k w d := by
  induction m with
  | nil => simp [put, h]
  | cons q r ih =>
    obtain ⟨j, x⟩ := q
    simp only [put]
    split_ifs <;> simp_all [put]

/-- A slot replaced twice. -/
theorem Device.withSlot_withSlot (d : Device) (e k : Nat) {x : Slot} (y : Slot) (h : x ≠ {}) :
    (d.withSlot e k x).withSlot e k y = d.withSlot e k y := by
  simp only [Device.withSlot, put_put_ne _ h]

/-- An engine replaced twice. -/
theorem Device.withEng_withEng (d : Device) (e : Nat) {x : Engine} (y : Engine) (h : x ≠ {}) :
    (d.withEng e x).withEng e y = d.withEng e y := by
  simp only [Device.withEng, put_put_ne _ h]

/-- A port reads as it was last written. -/
theorem Device.port_withPort (d : Device) (p : Nat) (x : Port) (h : x ≠ {}) : (d.withPort p x).port p = x := look_put_ne _ h

/-- With nothing armed no event takes the injected way (R361). -/
theorem Device.unarmed {d : Device} (h : d.rf.armed = []) (page bit : Nat) : d.isArmed page bit = false := by
  simp [Device.isArmed, h, look, bitOf]

theorem Upd.run_inject {d : Device} (h : d.rf.armed = []) (page bit : Nat) (k : Bool → Upd) :
    (Upd.inject page bit k).run d = (k false).run d := by
  simp [Upd.inject, Device.unarmed h]

/-- An answer is no TLP: it leaves at once. -/
theorem Upd.send_answer (kind code : Nat) (b : List Byte) (d : Device) : (Upd.send (.answer kind code b)).run d = d.answering kind code b := by
  simp [Upd.send, Upd.of, Device.sendWait, Msg.fn, Device.answering]

theorem Upd.run_port (p : Nat) (f : Port → Port) (d : Device) : (Upd.port p f).run d = d.withPort p (f (d.port p)) := rfl

end Sys2Proof.Machine
end

