-- ==== Sys2Proof/Laws/Frame.lean ====
section
/-! SUPPORT. What the operations that only signal (registers, counters, error flags, fault records, interrupts, trace, the gong's
raise, events) leave alone: everything but the registers, the records, the observation units and the host interface. -/

namespace Sys2Proof.Machine

/-- The device without the groups in which signals are noted. -/
def Device.unsignalled (d : Device) : Clocks × Fuses × Memory × Translation × Queues × Sfu × Sparse Pool × Weights × Bells × Links × Security :=
  (d.clk, d.fuses, d.mm, d.xl, d.q, d.sfu, d.kv, d.wt, d.bl, d.lk, d.se)

/-- The update only signals. -/
def Upd.Quiet (u : Upd) : Prop := ∀ d, (u.run d).unsignalled = d.unsignalled

theorem quiet_skip : Upd.skip.Quiet := fun _ => rfl

theorem quiet_all {l : List Upd} (h : ∀ u ∈ l, u.Quiet) : (Upd.all l).Quiet := by
  induction l with
  | nil => exact fun _ => rfl
  | cons u r ih =>
    intro d
    rw [Upd.run_all_cons, ih (fun v hv => h v (List.mem_cons_of_mem _ hv)), h u (List.mem_cons_self ..)]

theorem quiet_read {k : Device → Upd} (h : ∀ d, (k d).Quiet) : (Upd.read k).Quiet := fun d => h d d

theorem quiet_when {c : Bool} {u : Upd} (h : c = true → u.Quiet) : (Upd.when c u).Quiet := by
  cases c
  · exact quiet_skip
  · exact h rfl

theorem quiet_ite {c : Prop} [Decidable c] {u v : Upd} (h : u.Quiet) (k : v.Quiet) : (if c then u else v).Quiet := by
  split <;> assumption

theorem quiet_each {α : Type} {l : List α} {f : α → Upd} (h : ∀ a ∈ l, (f a).Quiet) : (Upd.each l f).Quiet :=
  quiet_all fun u hu => by
    obtain ⟨a, ha, rfl⟩ := List.mem_map.1 hu
    exact h a ha

theorem quiet_pair {u v : Upd} (h : u.Quiet) (k : v.Quiet) : (Upd.all [u, v]).Quiet :=
  quiet_all fun w hw => by
    simp only [List.mem_cons, List.not_mem_nil, or_false] at hw
    rcases hw with rfl | rfl
    · exact h
    · exact k

theorem quiet_three {u v w : Upd} (h : u.Quiet) (k : v.Quiet) (j : w.Quiet) : (Upd.all [u, v, w]).Quiet :=
  quiet_all fun x hx => by
    simp only [List.mem_cons, List.not_mem_nil, or_false] at hx
    rcases hx with rfl | rfl | rfl
    · exact h
    · exact k
    · exact j

theorem quiet_setReg (a : Nat) (v : Word) : (Upd.setReg a v).Quiet := fun _ => rfl
theorem quiet_modReg (a : Nat) (f : Word → Word) : (Upd.modReg a f).Quiet := fun _ => rfl
theorem quiet_sat (a : Nat) : (Upd.sat a).Quiet := fun _ => rfl
theorem quiet_setCtr (a : Nat) (v : Word64) : (Upd.setCtr a v).Quiet := fun _ => rfl
theorem quiet_count (a n : Nat) : (Upd.count a n).Quiet := fun _ => rfl
theorem quiet_setPair (a v : Nat) : (Upd.setPair a v).Quiet := fun _ => rfl
theorem quiet_send (m : Msg) : (Upd.send m).Quiet := fun _ => rfl
theorem quiet_raise (page : Nat) (w : Word) : (Upd.raise page w).Quiet := fun _ => rfl
theorem quiet_fire (page bit : Nat) : (Upd.fire page bit).Quiet := fun _ => rfl
theorem quiet_trc (r : Nat) (f : Trc → Trc) : (Upd.trc r f).Quiet := fun _ => rfl
theorem quiet_traceDrop (r : Nat) : (Upd.traceDrop r).Quiet := fun _ => rfl

theorem quiet_msix (fn v : Nat) : (Upd.msix fn v).Quiet :=
  quiet_read fun _ => quiet_ite (quiet_ite (fun _ => rfl) (quiet_send _)) fun _ => rfl

theorem quiet_traceRaw (r s : Nat) (b : List Byte) : (Upd.traceRaw r s b).Quiet :=
  quiet_read fun _ => quiet_ite (quiet_pair (quiet_trc _ _) (quiet_traceDrop _)) (quiet_trc _ _)

theorem quiet_trace (r s k : Nat) (b : List Byte) : (Upd.trace r s k b).Quiet :=
  quiet_read fun d => quiet_ite quiet_skip (by
    split
    · exact quiet_traceRaw _ _ _
    · exact quiet_when fun _ => quiet_traceDrop _
    · exact quiet_skip)

theorem quiet_triggerLate (r : Nat) : (Upd.triggerLate r).Quiet :=
  quiet_read fun _ => quiet_ite (quiet_sat _) (quiet_when fun _ => quiet_traceDrop _)

theorem quiet_trigger (r s b : Nat) : (Upd.trigger r s b).Quiet :=
  quiet_read fun _ => quiet_when fun _ => quiet_ite (quiet_triggerLate _) (quiet_trace _ _ _ _)

theorem quiet_gongRaise (c : Nat) : (Upd.gongRaise c).Quiet :=
  quiet_read fun _ => quiet_ite (quiet_pair (fun _ => rfl) (quiet_count _ _)) fun _ => rfl

theorem quiet_inject {page bit : Nat} {k : Bool → Upd} (h : ∀ b, (k b).Quiet) : (Upd.inject page bit k).Quiet :=
  quiet_read fun _ => quiet_ite (quiet_pair (quiet_fire _ _) (h _)) (h _)

theorem quiet_record (r : FaultRec) : (Upd.record r).Quiet :=
  quiet_read fun _ => quiet_pair (quiet_ite (fun _ => rfl) fun _ => rfl) (quiet_when fun _ => quiet_gongRaise _)

theorem quiet_pageVector (page bit : Nat) : (Upd.pageVector page bit).Quiet :=
  quiet_read fun d => by
    split
    · exact quiet_ite (by split <;> first | exact quiet_msix _ _ | exact quiet_skip) quiet_skip
    · exact quiet_skip

theorem quiet_flag (page bit : Nat) : (Upd.flag page bit).Quiet := quiet_pair (quiet_raise _ _) (quiet_pageVector _ _)

theorem quiet_error (page bit : Nat) (r : FaultRec) (c i : Bool) : (Upd.error page bit r c i).Quiet :=
  quiet_read fun _ => quiet_pair (quiet_flag _ _) (quiet_when fun _ => quiet_record _)

theorem quiet_event (e ev n : Nat) : (Upd.event e ev n).Quiet := quiet_read fun _ => quiet_when fun _ _ => rfl

/-- What a quiet update leaves, group by group. -/
theorem Upd.Quiet.fields {u : Upd} (h : u.Quiet) (d : Device) :
    (u.run d).clk = d.clk ∧ (u.run d).mm = d.mm ∧ (u.run d).xl = d.xl ∧ (u.run d).q = d.q ∧ (u.run d).sfu = d.sfu ∧ (u.run d).kv = d.kv ∧
      (u.run d).wt = d.wt ∧ (u.run d).bl = d.bl ∧ (u.run d).lk = d.lk ∧ (u.run d).se = d.se := by
  have := h d
  simp only [Device.unsignalled, Prod.mk.injEq] at this
  tauto

theorem Upd.Quiet.q {u : Upd} (h : u.Quiet) (d : Device) : (u.run d).q = d.q := (h.fields d).2.2.2.1
theorem Upd.Quiet.mm {u : Upd} (h : u.Quiet) (d : Device) : (u.run d).mm = d.mm := (h.fields d).2.1

/-! ### Parts of the device that an update leaves -/

/-- An update leaves what f shows of the device. -/
structure Upd.Fixes {α : Type} (f : Device → α) (u : Upd) : Prop where
  same : ∀ d, f (u.run d) = f d

section
variable {α : Type} {f : Device → α}

theorem fixes_skip : Upd.skip.Fixes f := ⟨fun _ => rfl⟩
theorem fixes_nil : (Upd.all []).Fixes f := ⟨fun _ => rfl⟩
theorem fixes_cons {u : Upd} {l : List Upd} (h : u.Fixes f) (k : (Upd.all l).Fixes f) : (Upd.all (u :: l)).Fixes f :=
  ⟨fun d => by rw [Upd.run_all_cons, k.same, h.same]⟩
theorem fixes_read {k : Device → Upd} (h : ∀ d, (k d).Fixes f) : (Upd.read k).Fixes f := ⟨fun d => (h d).same d⟩
theorem fixes_when {c : Bool} {u : Upd} (h : u.Fixes f) : (Upd.when c u).Fixes f := by
  cases c
  · exact fixes_skip
  · exact h
theorem fixes_each {β : Type} {l : List β} {g : β → Upd} (h : ∀ b, (g b).Fixes f) : (Upd.each l g).Fixes f := by
  induction l with
  | nil => exact fixes_nil
  | cons b r ih => exact fixes_cons (h b) ih
theorem fixes_times {n : Nat} {u : Upd} (h : u.Fixes f) : (Upd.times n u).Fixes f := by
  induction n with
  | zero => exact fixes_skip
  | succ n ih => exact fixes_cons h (fixes_cons ih fixes_nil)

end

/-- What only signals leaves the core. -/
theorem quiet_core {u : Upd} (h : u.Quiet) : u.Fixes Device.core := ⟨fun d => by
  have := h d
  simp only [Device.unsignalled, Prod.mk.injEq] at this
  simp only [Device.core, Prod.mk.injEq]
  exact ⟨this.2.2.2.2.1, congrArg Memory.cells this.2.2.1, this.1, this.2.1, this.2.2.2.1, this.2.2.2.2.2⟩⟩

/-! ### One tile of the running command -/

/-- With nothing armed a store of steps is read without an error (R132). -/
theorem Upd.run_readStore {d : Device} (h : d.rf.armed = []) (r index : Nat) (u blocked : Upd) :
    (Upd.readStore r index u blocked).run d = u.run d := by
  simp [Upd.readStore, Upd.run_inject h]

/-- With nothing armed no unit of the engine fails (R361). -/
theorem Device.armedUnit_none {d : Device} (h : d.rf.armed = []) (v : Env) (u : Units) : d.armedUnit v u = none := by
  simp [Device.armedUnit, Device.unarmed h]

/-- Everything one tile can do while nothing is armed and its functions' steps are at hand: what its tile
function answers decides. -/
theorem Upd.run_oneTile {d : Device} {e : Nat} {ops : List Nat} {f : Device → Env → TileRes} {w : Units} {v : Env}
    (hv : d.env e = some v) (ho : ops.contains v.op = true) (hs : v.cmd.status = none) (ha : d.acts e v.s = true) (hn : d.rf.armed = [])
    (hr : ((w.use d v).fns.any fun i => d.awaitsRewrite e i) = false) :
    (Upd.oneTile e ops f w).run d = (match f d v with
      | .wait u => u
      | .part u => Upd.all [.issued v, .storeCe v, u, .partDone v]
      | .next u => .all [.issued v, .storeCe v, u, .retired v]
      | .last u => .all [.issued v, .storeCe v, u, .retired v, .decide e v.s .ok none]
      | .stop st r u => .all [u, .decide e v.s st r]).run d := by
  have stored (u : Upd) : (if (w.use d v).fns.isEmpty then u else
      .readStore (e / 8) ((w.use d v).fns.headD 0) u (.askReset e 0x0302 false)).run d = u.run d := by
    split
    · rfl
    · exact Upd.run_readStore hn ..
  simp only [Upd.oneTile, Upd.run_read, hv, ho, hs, ha, hr, Option.isSome_none, Bool.not_true, Bool.or_self, Bool.false_eq_true,
    if_false, Device.armedUnit_none hn v w]
  cases f d v <;> first | rfl | exact stored _

end Sys2Proof.Machine
end

