-- ==== Sys2Proof/Laws/Memory.lean ====
section
/-! SUPPORT. Device memory: every operation keeps the canonical form, and what the one update that changes bytes leaves at each
address. -/

namespace Sys2Proof.Machine

/-- Memory after reset is in canonical form. -/
theorem reset_memory_wf : State.reset.dev.mm.wf := by decide

/-- Every update keeps the memory's canonical form. -/
theorem Upd.run_memory_wf (u : Upd) {d : Device} (h : Wf d) : (u.run d).mm.wf := (u.keeps d h).mem

/-- Storing bytes keeps the canonical form, whatever else the device holds. -/
theorem Upd.store_memory_wf (pa : Nat) (bs : List Byte) {d : Device} (h : d.mm.wf) : ((Upd.store pa bs).run d).mm.wf :=
  storeBytes_canon bs _ pa h

/-- A byte outside the stored range reads as before. -/
theorem look_storeBytes_out (bs : List Byte) : ∀ (m : List Host.Cell) (pa a : Nat), (a < pa ∨ pa + bs.length ≤ a) →
    look (storeBytes m pa bs) a 0 = look m a 0 := by
  induction bs with
  | nil => intro m pa a _; rfl
  | cons b r ih =>
    intro m pa a h
    simp only [List.length_cons] at h
    simp only [storeBytes]
    split
    · rw [ih _ _ _ (by omega), look_put_other _ _ _ (by omega)]
    · exact ih _ _ _ (by omega)

/-- A populated byte of the stored range reads as it was stored. -/
theorem look_storeBytes_in (bs : List Byte) : ∀ (m : List Host.Cell) (pa i : Nat) (b : Byte), Canon (fun _ => (0 : Byte)) m →
    bs[i]? = some b → populated (pa + i) = true → look (storeBytes m pa bs) (pa + i) 0 = b := by
  induction bs with
  | nil => intro m pa i b _ h; simp at h
  | cons c r ih =>
    intro m pa i b hm h hp
    cases i with
    | zero =>
      simp only [List.getElem?_cons_zero, Option.some.injEq] at h
      subst h
      simp only [Nat.add_zero] at hp ⊢
      simp only [storeBytes, hp, if_true]
      rw [look_storeBytes_out _ _ _ _ (by omega)]
      exact look_put_self (d := fun _ => (0 : Byte)) hm pa c
    | succ i =>
      have e : pa + (i + 1) = pa + 1 + i := by omega
      rw [e] at hp ⊢
      simp only [List.getElem?_cons_succ] at h
      simp only [storeBytes]
      split
      · exact ih _ _ _ _ (put_canon (d := fun _ => (0 : Byte)) hm _ _) h hp
      · exact ih _ _ _ _ hm h hp

end Sys2Proof.Machine
end

