-- ==== Sys2Proof/Tests/Slice0.lean ====
section
/-! SUPPORT. Tests: the part's commands on small states, an ill-formed command for each check of WellFormed, and for every statement
of Certificates/Slice0/Obligations.lean with hypotheses a state and operands that meet them, clause by clause. Expected values are
the spec's; helper states are built by the definitions at the start. -/

namespace Sys2Proof.Tests

open Sys2Proof.Machine

/-! ### Helper states -/

/-- The ready device: a key in slot 0, nothing else changed since reset. -/
def base : Device := { ({} : Device) with clk := { power := .ready }, mm := { keys := [(0, 1)], nextGen := 1, fillGen := 1 } }
def st (d : Device) : State := { dev := d }

/-- A descriptor with an opcode and fields, each (offset, size, value). -/
def desc (op : Nat) (l : List (Nat × Nat × Nat)) : List Byte :=
  l.foldl (fun b p => b.take p.1 ++ toBytes p.2.1 p.2.2 ++ b.drop (p.1 + p.2.1)) (toBytes 1 op ++ List.replicate 127 0)
def Device.withPairR (d : Device) (a v : Nat) : Device := (d.withReg a (BitVec.ofNat 32 v)).withReg (a + 4) (BitVec.ofNat 32 (v / 2 ^ 32))
def sl (x : Slot) : State := st (base.withSlot 0 0 x)

/-- A context whose table maps the first 16 GiB one to one. -/
def mapped (d : Device) (ctx : Nat) : Device :=
  let e := (Upd.writeNum 0 0x1000 8 0xB).run d
  { e with xl := { e.xl with roots := put e.xl.roots ctx { lo := 0x1000, cfg := 0x80000022 } {} } }
def tileU (t : TileRes) : Upd := match t with
  | .wait u => u | .part u => u | .next u => u | .last u => u | .stop _ _ u => u
def tileK (t : TileRes) : Nat := match t with
  | .wait _ => 0 | .part _ => 4 | .next _ => 1 | .last _ => 2 | .stop _ _ _ => 3
def tileS (t : TileRes) : Status × Option FaultRec := match t with
  | .stop s r _ => (s, r) | _ => (.ok, none)
def walkL (w : WalkResult) : Nat × Nat := match w with
  | .leaf a b => (a, b) | _ => (0, 0)
def wcR (x : Nat ⊕ (Nat × Nat)) : Nat × Nat := match x with | .inr y => y | _ => (0, 0)
def hostOf (t : Option Target) : Nat := match t with | some (.host a) => a | _ => 0
def wcL (x : Nat ⊕ (Nat × Nat)) : Nat := match x with | .inl y => y | _ => 99
open Sys2Proof Sys2Proof.Machine in
def ansB (l : List Msg) : List Byte := match l with
  | .answer _ _ b :: _ => b | _ => []
def thrPage' (r : Nat) : Nat := pwrPage r + 0x44
def copyState : State :=
  let d := (base.withSlot 0 0 {state := .active, ctx := 1, cur := some {desc := desc 0x0B [(32,8,0x4000),(40,8,0x200000),(48,8,64)]}}).withEng 0 {run := some 0}
  st ((Upd.write 0 0x4000 (List.replicate 64 7)).run (mapped d 1))
def image : List Byte :=
  let head := toBytes 4 0x4D555037 ++ toBytes 2 1 ++ toBytes 2 1 ++ toBytes 1 1 ++ toBytes 1 1 ++ toBytes 1 1 ++ List.replicate 5 0
  let steps := toBytes 8 (0x01 * 2 ^ 56)
  head ++ sha384 (head ++ steps) ++ steps
def imgState (good : Bool) : State :=
  let b := if good then image else image.set 20 0xEE
  st ((Upd.write 0 0x1000 b).run {base with sfu := {fns := [(255, {state := .loading})], loads := [(255, 0x1000, 72)]}})
def tensor7 : Tensor := {id := 7, k := 64, n := 64, tgtFmt := 5, extents := [0x200000]}
def decState : State :=
  st ((Upd.write 0 (tensor7.addr tensor7.sideTableAt) (toBytes 2 4096)).run {(base.withSlot 0 0 {state := .active, ctx := 1, cur := some {desc := desc 1 []}}).withEng 0 {run := some 0, redecode := some (3, false, 255, 1, 7, 0)} with wt := {epochs := [(511, {state := .ready, tensors := [tensor7]})]}})
def ueDec : State := { decState with dev := { decState.dev with mm := { decState.dev.mm with lineErr := [(tensor7.addr tensor7.sideTableAt / 64, .uncorrectable)] } } }
def wgK (x : List Byte ⊕ WGot) : Nat × Nat := match x with | .inl _ => (1, 0) | .inr (.ue p) => (2, p) | .inr (.bad b) => (3, b) | _ => (4, 0)
def gotWait : Got → List Need | .wait m => m | _ => []
def gotIsWait : Got → Bool | .wait _ => true | _ => false
def notMem : Target → Bool | .mem _ _ => false | _ => true
def walkF : WalkResult → Nat × Nat | .fail c e => (c, e) | _ => (0, 0)
def cz : Census := ⟨0, 0, 0, 0, 0, 0, 0⟩
def kvPart (on : Bool) (free : Nat) (c : Census) (d : Device) : Device :=
  let p := kvpPage 0
  let r := [(0x04, if on then 1 else 0), (0x40, 0x400000), (0x48, 16), (0x4C, 16), (0x50, 0x1000000), (0x58, 8), (0x60, 0x200), (0x64, 8), (0x68, 0x500000), (0x78, free), (0x7C, 0x600000), (0x94, 0x11)]
  let d1 := r.foldl (fun d q => d.withReg (p + q.1) (BitVec.ofNat 32 q.2)) d
  (Upd.all [.writeNum 0 0x500000 4 2, .writeNum 0 0x600000 4 3, .writeNum 0 0x300000 4 1, .writeNum 0 0x300100 4 0xFFFFFFFF, .putCensus 0 1 c]).run d1
def cenS (on : Bool) (free : Nat) (c : Census) (op : CensusOp) (looked : Sparse Nat := []) : State :=
  st (kvPart on free c (base.withSlot 0 0 {state := .active, cur := some {asked := [op], looked := looked}}))
def cenC (op : CensusOp) : Cmd := {asked := [op]}
def kvS (c : Census) (mark : Nat) (x : Pool) : State := st {(kvPart true 1 c base).withReg (kvpPage 0 + 0x9C) (BitVec.ofNat 32 mark) with kv := [(0, x)]}
def kv0 : Device := kvPart true 0 cz base
def setsState : State :=
  st ((Upd.each (List.range 256) .syncSet).run ((base.withReg (wgtPage + 0x40) 0x100000).withReg (wgtPage + 0x48) 0x200000))
def rec3 : FaultRec := {code := 0x0201, region := 3, ctx := some 5, source := 7 * 16 + 2, detail := [1,2]}
def portS (p : Nat) (q : Port) : Device := base.withPort p q

/-- The invariant, as a test that runs. -/
def good (s : State) : Bool :=
  decide (Canon (fun _ => 0) s.dev.mm.cells) && s.dev.mm.cells.all (fun p => populated p.1) && decide (Canon resetWord s.dev.rf.regs) &&
    decide (Canon (fun _ => 0) s.dev.bl.bells) && decide (s.dev.mm.fillGen ≤ s.dev.mm.nextGen) &&
    s.dev.mm.lineKey.all (fun p => p.2.gen ≤ s.dev.mm.nextGen) && s.dev.mm.keys.all (fun p => p.2 ≤ s.dev.mm.nextGen) &&
    decide (s.dev.mm.lineKey.Pairwise fun p q => p.1 < q.1)

/-- What the test accepts meets the invariant. -/
theorem good_inv {s : State} (h : good s = true) : s.Inv := by
  simp only [good, Bool.and_eq_true, decide_eq_true_eq, List.all_eq_true] at h
  obtain ⟨⟨⟨⟨⟨⟨⟨h1, h2⟩, h3⟩, h4⟩, h5⟩, h6⟩, h7⟩, h8⟩ := h
  exact ⟨h1, h2, h3, h4, h5, h6, h7, h8⟩

/-- With no virtual function listed none is locked. -/
theorem none_locked {d : Device} (h : d.ho.vfs = []) (f : Nat) : d.locked f = false := by
  simp [Device.locked, Device.vf, h, look]

/-- With one virtual function listed no other is locked. -/
theorem others_not_locked {d : Device} {n : Nat} {v : Vf} (h : d.ho.vfs = [(n, v)]) (f : Nat) (hf : f ≠ n) : d.locked f = false := by
  simp [Device.locked, Device.vf, h, look, Ne.symm hf]

/-- With no slot listed no slot is bound. -/
theorem none_bound {d : Device} (h : d.q.slots = []) (c : Nat) : d.boundSlots c = [] := by
  simp [Device.boundSlots, Device.slot, h, look]

/-! ### Commands that name what the part does not have -/

/-- An ill-formed command for each check of WellFormed, part 1. -/
theorem test_wf_refuses_1 : ∀ i ∈ ([
    .nop 32 0, .matmul 32 0 1, .matmul 0 0 0, .matmul 0 0 513, .fused 32 0, .attnPrefill 32 0, .attnDecode 32 0, .kvAppend 32 0, .kvFork 32 0,
    .kvFree 32 0, .norm 32 0, .softmax 32 0, .sample 32 0, .copy 32 0, .transpose 32 0, .rope 32 0, .microprog 32 0, .weightLoad 32 0, .adopt 32 0,
    .freeEpoch 32 0, .freeSet 32 0, .adapterLoad 32 0, .adapterFree 32 0, .adapterBind 32 0, .bellSignal 32 0, .bellWait 32 0, .loadSel 32 0,
    .clearCounters 32 0, .marker 32 0, .matchCounter 32 0, .openSession 32 0, .addRange 32 0, .addSet 32 0, .seal 32 0, .u4Gemm 32 0 1, .u4Gemm 0 0 0,
    .u4Gemm 0 0 513, .u4Copy 32 0, .u4BellAdd 32 0, .u4BellWait 32 0, .doorbell 65 0 0 0, .doorbell 0 32 0 0, .doorbell 0 0 0 256,
    .descriptorFetch 32 0, .descriptorFetch 0 8, .descriptorArrive 32 0 none {}, .descriptorArrive 0 8 none {}, .taborPrefetch 32 0] : List Instr), i.wf = false := by
  decide +kernel

/-- An ill-formed command for each check of WellFormed, part 2. -/
theorem test_wf_refuses_2 : ∀ i ∈ ([
    .taborPrefetch 0 8, .commandIssue 32, .tileIssue 32, .tileBoundary 32, .commandEnd 32 0, .commandEnd 0 8, .recordCheck 32 0 true {},
    .recordCheck 0 65 true {}, .bind 65 0 0 0, .bind 0 32 0 0, .bind 0 0 8 0, .start 65 0 0, .start 0 32 0, .start 0 0 8, .stop 65 0 0, .stop 0 32 0,
    .stop 0 0 8, .resume 65 0 0, .resume 0 32 0, .resume 0 0 8, .flush 65 0 0, .flush 0 32 0, .flush 0 0 8, .flushDone 32 0, .flushDone 0 8,
    .unbind 65 0 0, .unbind 0 32 0, .unbind 0 0 8, .shadowAck 65 0 0, .shadowAck 0 32 0, .ctxKill 65 0, .ctxEnable 65 0, .relayCredit 32 0 0,
    .relayCredit 0 6 0, .bellWaitTimeout 32 0, .bellWaitTimeout 0 8, .passIssue 32 0 1 1 1 1 true 0 true, .passIssue 0 4 1 1 1 1 true 0 true,
    .passIssue 0 0 3 1 1 1 true 0 true, .passIssue 0 0 0 1 1 1 true 0 true, .passIssue 0 0 1 0 1 1 true 0 true, .passIssue 0 0 1 513 1 1 true 0 true,
    .passIssue 0 0 1 1 0 1 true 0 true, .passIssue 0 0 1 1 129 1 true 0 true, .passIssue 0 0 1 1 1 0 true 0 true,
    .passIssue 0 0 1 1 1 4294967296 true 0 true, .rampStep 32 0, .rampStep 0 4] : List Instr), i.wf = false := by
  decide +kernel

/-- An ill-formed command for each check of WellFormed, part 3. -/
theorem test_wf_refuses_3 : ∀ i ∈ ([
    .idleHoldExpiry 32 0, .idleHoldExpiry 0 4, .arrayRowEnter 32 0, .arrayRowEnter 0 4, .arrayFreeze 32 0 true true true,
    .arrayFreeze 0 4 true true true, .shadowLoad 32 0 true, .shadowLoad 0 4 true, .redecode 32 0 true, .redecode 0 4 true, .rowCommit 32 0 0,
    .rowCommit 0 4 0, .arrClrCounters 65 0 0 0, .arrClrCounters 0 32 0 0, .arrClrCounters 0 0 4 0, .vecClrCounters 65 0 0 0, .vecClrCounters 0 32 0 0,
    .vecClrCounters 0 0 4 0, .sfuClrCounters 65 0 0 0, .sfuClrCounters 0 32 0 0, .sfuClrCounters 0 0 4 0, .expClrCounters 65 0 0 0,
    .expClrCounters 0 32 0 0, .expClrCounters 0 0 4 0, .engClrCounters 65 0 0, .engClrCounters 0 32 0, .belClrCounters 65 0 0, .belClrCounters 0 4 0,
    .dgsClrCounters 65 0, .nocClrCounters 65 1 0, .nocClrCounters 0 4 0, .nocClrCounters 0 5 0, .nocClrCounters 0 8 0, .microprogLoaded 256,
    .ustoreRewriteDone 4 0, .ustoreRewriteDone 0 256, .alloc 32 0, .alloc 0 8, .commit 32 0, .commit 0 8, .lease 32 0, .lease 0 8, .unlease 32 0,
    .unlease 0 8, .share 32 0, .share 0 8, .drop 32 0, .drop 0 8] : List Instr), i.wf = false := by
  decide +kernel

/-- An ill-formed command for each check of WellFormed, part 4. -/
theorem test_wf_refuses_4 : ∀ i ∈ ([
    .lookup 32 0, .lookup 0 8, .kvpEnable 65 0 0, .kvpEnable 0 4 0, .decayAdvance 4, .demotionScan 4, .migrationStart 4 0,
    .migrationStart 0 4294967296, .migrationExchange 4 0, .migrationExchange 0 4294967296, .commandBoundary 32, .epochRefIncrement 256 0,
    .epochRefIncrement 0 2, .epochRefDecrement 256 0, .epochRefDecrement 0 2, .fetchTimeout 32 0, .fetchTimeout 0 8, .wgtEnable 65 0,
    .memoryRead 17592186044416 0 0, .memoryRead 0 257 0, .memoryRead 0 0 256, .memoryWrite 17592186044416 [] 0, .memoryWrite 0 [] 256, .patrolScrub 32,
    .spareReq 65 0 0, .spareReq 0 32 0, .spareDone 32, .pageWalk 32 0 0 0, .pageWalk 0 0 0 8, .pageWalk 0 256 0 0, .pageWalk 0 0 4503599627370496 0,
    .walkComplete 4 0, .walkComplete 0 8, .invalidation 65 0 0, .invalidation 0 0 256, .xltFlush 65 0 0, .xltFlush 0 32 0,
    .atsTranslationCompletion 65 0 true 0 0 true true {}, .atsInvalidationRequest 65 0 0 0, .atsInvalidationRequest 0 32 0 0,
    .atsInvalidationCompletion 65 0, .atsInvalidationCompletion 0 32, .inCfg 65 0, .faultRecord 4, .fltTailWrite 65 0 0, .fltTailWrite 0 4 0,
    .fltEnable 65 0 0, .fltEnable 0 4 0] : List Instr), i.wf = false := by
  decide +kernel

/-- An ill-formed command for each check of WellFormed, part 5. -/
theorem test_wf_refuses_5 : ∀ i ∈ ([
    .nocRetransmit 1 16 0, .nocRetransmit 4 0 0, .nocRetransmit 5 0 0, .nocRetransmit 8 0 0, .signal 4 0 0, .signal 0 4 0, .add 4 0 0, .add 0 4 0,
    .watch 4 0 0, .watch 0 4 0, .unwatch 4 0 0, .unwatch 0 4 0, .wake 4 0 0, .wake 0 4 0, .carillonCreditReturn 32 0, .carillonCreditReturn 0 4,
    .wakeCreditReturn 4 0, .wakeCreditReturn 0 4, .bellReset 65 0 0, .bellReset 0 4 0, .belOpSignal 65 0 0, .belOpSignal 0 4 0, .bellRestore 65 0 0,
    .bellRestore 0 4 0, .dataFlit 0 { seq := 65536 } [], .dataFlit 0 { ack := 65536 } [], .dataFlit 0 { vc := 3 } [],
    .dataFlit 0 { credit := 16384 } [], .dataFlit 18 {} [], .nak 0 0 { seq := 65536 }, .nak 18 0 {}, .nak 0 65536 {}, .retrainDone 18,
    .replayExpiry 18, .macFlit 0 { seq := 65536 } true none, .macFlit 18 {} true none, .keyChange 0 { seq := 65536 }, .keyChange 18 {},
    .writeReq 18 0 0 0 0 [], .writeReq 0 8192 0 0 0 [], .writeReq 0 0 4194304 0 0 [], .writeReq 0 0 0 1024 0 [], .writeReq 0 0 0 0 4398046511104 [],
    .readReq 18 0 0 0 0 0, .readReq 0 8192 0 0 0 0, .readReq 0 0 4194304 0 0 0, .readReq 0 0 0 1024 0 0, .readReq 0 0 0 0 4398046511104 0] : List Instr), i.wf = false := by
  decide +kernel

/-- An ill-formed command for each check of WellFormed, part 6. -/
theorem test_wf_refuses_6 : ∀ i ∈ ([
    .bellReq 18 0 0 0 0, .bellReq 0 8192 0 0 0, .bellReq 0 0 4194304 0 0, .bellReq 0 0 0 131072 0, .readData 18 0 0 [], .readData 0 8192 0 [],
    .readData 0 0 4194304 [], .ack 18 0 0, .ack 0 8192 0, .ack 0 0 4194304, .hold 18 0 0, .hold 0 8192 0, .hold 0 0 4194304, .reject 18 0 0 0,
    .reject 0 8192 0 0, .reject 0 0 4194304 0, .reject 0 0 0 8, .holdOn 0 0 { seq := 65536 }, .holdOn 18 0 {}, .holdOn 0 8192 {},
    .holdOff 0 0 { seq := 65536 }, .holdOff 18 0 {}, .holdOff 0 8192 {}, .peerSilent 8192, .peerLost 8192, .peerClear 65 0, .release 65 0,
    .portEnable 65 0 0, .portEnable 0 18 0, .portRetrain 65 0 0, .portRetrain 0 18 0, .portTrained 18 true true 0 0 true,
    .portTrained 0 true true 256 0 true, .counterMatch 32 0, .counterMatch 0 64, .matchArm 65 0 0, .matchArm 0 32 0, .cntClear 65 0 0,
    .cntClear 0 32 0, .selectionApply 32, .traceRecord 4, .traceEnable 65 0 0, .traceEnable 0 4 0, .trigger 65 0 0, .trigger 0 4 0, .traceDump 65 0 0,
    .traceDump 0 4 0, .dumpDone 4] : List Instr), i.wf = false := by
  decide +kernel

/-- An ill-formed command for each check of WellFormed, part 7. -/
theorem test_wf_refuses_7 : ∀ i ∈ ([
    .gongRaise 65 0, .gongResume 65 0, .avsAck 4, .avsTimeout 4, .powerWindow 32 0, .powerWindow 0 65536, .temperatureSample 6 [], .watchdog 32,
    .engineReset 32 none, .quiesceTimeout 32, .resetReq 65 0 0, .resetReq 0 32 0, .replayStart 32, .replayLimit 32, .devReset 65 0, .flr 65,
    .clockLoss 3, .clockReturn 3, .bar2Read 65 0 0 {}, .bar2Write 65 0 [] {}, .registerWrite 65 0 0 {}, .registerWrite 0 268435456 0 {},
    .errStatusClear 65 0 0, .errStatusClear 0 268435456 0, .errInject 65 0 0, .errInject 0 268435456 0, .vfMap 65 0, .msixUnmask 65 0,
    .msixUnmask 0 2048, .keyProg 0 0 (some (3, true)), .keyProg 9 0 none, .keyProg 0 2 none, .kSetGo 9 0, .kSetGo 0 2, .kSetStop 9 0, .kSetStop 0 2,
    .lockInterface 0 0 true, .lockInterface 65 0 true, .lockInterface 1 9 true, .startInterface 0 true, .startInterface 65 true, .stopInterface 0,
    .stopInterface 65, .getCertificate none 8, .setEndpointId 256, .requestFirmwareData 4398046511104 [], .setNumericSensorEnable 0 true,
    .setNumericSensorEnable 79 true] : List Instr), i.wf = false := by
  decide +kernel

/-- An ill-formed command for each check of WellFormed, part 8. -/
theorem test_wf_refuses_8 : ∀ i ∈ ([
    .svnCommit 65 0, .laneDown 18, .idleFlit 18 0 0 0 true, .idleFlit 0 65536 0 0 true, .idleFlit 0 0 3 0 true, .idleFlit 0 0 0 16384 true,
    .pcieLinkTrained 7 0 true true, .vfEnable 65 0 true, .vfEnable 0 64 true, .registerRead 65 0 {}, .registerRead 0 268435456 {}] : List Instr), i.wf = false := by
  decide +kernel

/-! ### Single steps, with values from the spec -/

/-- SHA-384 of "abc" (FIPS 180-4's example), which R178 and R322 use. -/
theorem test_sha384 : (sha384 [0x61, 0x62, 0x63]).take 8 = [0xCB, 0x00, 0x75, 0x3F, 0x45, 0xA3, 0x5E, 0x8B] := by decide +kernel

/-- The worked examples of R52 and R57: a value and a saturating one in E4M3. -/
theorem test_convert : encodeElem .e4m3 (f32 0xC01FFC10) = 0xC2 ∧ encodeElem .e4m3 (.fin 470 0) = 0x7E := by decide +kernel

/-- A command waits in the queue, first in first out. -/
theorem test_queue : (match step { State.reset with pending := [.powerOn, .perstRelease] } with | .next s => s.pending | _ => []) = [.perstRelease] := by
  decide +kernel

/-- R413: PERST_RELEASE makes the part ready, with a key in slot 0 only. -/
theorem test_power_up : (match exec .perstRelease State.reset with | .next s => (s.dev.up, s.dev.mm.keys.map (·.1)) | _ => (false, [])) = (true, [0]) := by
  decide +kernel

/-- R439: PERST# between 10 and 100 us is undefined; shorter is ignored. -/
theorem test_perst : (match exec (.perstAssert 50000) (st base) with | .fault _ => true | _ => false) = true ∧
    (match exec (.perstAssert 9999) (st base) with | .next s => s == st base | _ => false) = true := by decide +kernel

/-- R210, R217: what is written under a key reads back under it, at the top of the first HBM3E window too. -/
theorem test_memory : (match exec (.memoryWrite 0x3F [0xAA, 0xBB] 0) (st base) with | .next s => s.dev.bytesAt 0 0x3E 4 | _ => []) = [0, 0xAA, 0xBB, 0] := by
  decide +kernel

/-- R282: a SIGNAL raises a bell to at least its value, and does not lower it. -/
theorem test_bell : (match exec (.belOpSignal 0 3 2) (st { (base.withReg (belPage 3 + 0x48) 7).withReg (belPage 3 + 0x54) 5 with
    bl := { bells := [(3 * 32768 + 7, 9)] } }) with | .next s => s.dev.bell (3 * 32768 + 7) | _ => 0) = 9 := by decide +kernel

/-! ### Hypotheses of the statements over all commands -/

/-- The hypotheses of StepRunsTheFront. -/
theorem test_StepRunsTheFront_hypotheses : (State.reset.pending = [] ∧ State.reset.dev.clk.power ≠ .off) ∧
    ((st { base with clk := { power := .off } }).pending = [] ∧ (st { base with clk := { power := .off } }).dev.clk.power = .off) := by decide +kernel

/-- The hypothesis of CommandsAnswer. -/
theorem test_CommandsAnswer_hypotheses : ∀ n, Instr.nop 0 1 ≠ .perstAssert n := by intro n; nofun

/-- The hypotheses of StepKeepsInvariant and FusesStayBlown. -/
theorem test_StepKeepsInvariant_hypotheses : (st base).Inv ∧ ∃ t, step { st base with pending := [.gongCut] } = .next t :=
  ⟨good_inv (by decide +kernel), _, rfl⟩

/-- A state in which engine 0 runs a command of slot 0 of context 1, with some pieces of its tile done. -/
def running (op : Nat) (l : List (Nat × Nat × Nat)) (piece : Nat := 0) : State :=
  st (mapped ((base.withSlot 0 0 { state := .active, ctx := 1, cur := some { desc := desc op l, piece := piece } }).withEng 0 { run := some 0 }) 1)
def cmdOf (s : State) : Env := ⟨0, 0, 1, (s.dev.slot 0 0).cur.getD {}⟩

/-- What TileCommands asks of such a state. -/
def tileReady (s : State) : Prop :=
  s.dev.env 0 = some (cmdOf s) ∧ (cmdOf s).cmd.status = none ∧ s.dev.acts 0 0 = true ∧ s.dev.rf.armed = [] ∧ s.dev.q.cells = []

/-- The hypotheses of TileCommands: a part of a tile, and the last of all. -/
theorem test_TileCommands_parts : (∀ p ∈ ([(0x1001, 4), (0x1000, 2)] : List (Nat × Nat)),
    let s := running opCopy [(32, 8, 0x4000), (40, 8, 0x200000), (48, 8, p.1)]
    tileReady s ∧ (cmdOf s).op = opCopy ∧ tileK (tileCopy s.dev (cmdOf s)) = p.2) := by
  simp only [tileReady]; decide +kernel

/-- The hypotheses of TileCommands: a tile with others after it, one that stops, and a row that waits for another op. -/
theorem test_TileCommands_others :
    (let s := running opSoftmax [(32, 8, 0x4000), (40, 8, 0x200000), (64, 4, 16), (68, 4, 65), (72, 4, 64), (76, 4, 64)] 63
     tileReady s ∧ tileK (tileSoftmax s.dev (cmdOf s)) = 1 ∧ ∀ i ∈ (rowUnits.use s.dev (cmdOf s)).fns, s.dev.awaitsRewrite 0 i = false) ∧
    (let s := running opCopy [(32, 8, 0x80000000000), (40, 8, 0x200000), (48, 8, 64)]
     tileReady s ∧ tileK (tileCopy s.dev (cmdOf s)) = 3) ∧
    (let s := running opCounter [(32, 8, 2)]
     tileReady s ∧ tileK (onlyOp 1 tileLoadSel s.dev (cmdOf s)) = 0) ∧
    (let s := running opMicroprog []
     tileReady s ∧ tileK (tileMicro s.dev (cmdOf s)) = 2 ∧ ∀ i ∈ (rowUnits.use s.dev (cmdOf s)).fns, s.dev.awaitsRewrite 0 i = false) := by
  simp only [tileReady]; decide +kernel

/-- The hypotheses of GuardColumn: a row, its columns, and a column changed. -/
theorem test_GuardColumn_hypotheses : (∀ c ∈ ([[.fin 3 0, .fin 5 0], [.fin 7 0, .fin 1 0]] : List (List FVal)), c.length = [FVal.fin 1 0, .fin 2 0].length) ∧
    ([[FVal.fin 3 0, .fin 5 0], [.fin 7 0, .fin 1 0]])[1]? = some [.fin 7 0, .fin 1 0] ∧
    sigSum [.fin 1 0, .fin 2 0] [.fin 8 0, .fin 1 0] % 255 ≠ sigSum [.fin 1 0, .fin 2 0] [.fin 7 0, .fin 1 0] % 255 := by decide +kernel

/-- The hypotheses of Conversions and IntegerConversions. -/
theorem test_Conversions_hypotheses : Fmt.e2m1 ∈ [Fmt.fp32, .bf16, .fp16, .e4m3, .e5m2, .e2m1] ∧ (Fmt.int4, 4) ∈ [(Fmt.int8, 8), (Fmt.int4, 4)] ∧
    0xFFFFFFFF < 2 ^ 32 := by decide +kernel

/-- The hypotheses of VarianceNotNegative, at the edges of the format. -/
theorem test_VarianceNotNegative_hypotheses : ((∀ x ∈ [FVal.fin 1 104, .fin (-1) (-149)], x.isFin = true) ∧ [FVal.fin 1 104, .fin (-1) (-149)] ≠ []) ∧
    (0 < 1 ∧ bitLen 0xFFFFFF ≤ 24 ∧ (-149 : Int) ≤ 104 ∧ (104 : Int) ≤ 104 ∧ -126 ≤ leadExp 0xFFFFFF 104) ∧
    (0 < 1 ∧ bitLen 0x800000 ≤ 24 ∧ (-149 : Int) ≤ -149 ∧ (-149 : Int) ≤ 104 ∧ -126 ≤ leadExp 0x800000 (-149)) := by decide +kernel

/-- The hypotheses of the address map (MemoryReadsAndWrites) and of RecordLayouts, at the last controller and the largest fields. -/
theorem test_AddressMap_hypotheses : (31 < 32 ∧ partBytes 31 - 1 < partBytes 31) ∧ partOf (physOf 31 0) = some (1, 3, 3, 0) ∧
    (31 < 32 ∧ 7 < 8 ∧ 65535 < 65536 ∧ ((st base).dev.slot 31 7).ctx < 256 ∧ fieldAt (desc 0 []) 24 8 + 5 < 2 ^ 64) ∧
    (rec3.code < 65536 ∧ rec3.level < 4 ∧ rec3.detail.length ≤ 16 ∧ rec3.region < 256) := by decide +kernel

/-- A running array whose next row reads a word that has damage: where the words lie is open (log 43), so the word is named by it. -/
def hurtPass : Pass := { id := 1, rate := 1, tileK := 4, tileN := 8, rows := 3, data := 5 }
def hurtCell (x : LineErr) : Cell := { arr := .running, passes := [hurtPass], shadow := [(0, 1)], damage := [(hurtPass.place 0 0, x)] }

/-- The hypotheses of ArrayRows on damaged words. -/
theorem test_ArrayRows_damage : ∀ x ∈ [LineErr.corrected, .uncorrectable],
    let d := base.withCell 0 0 (hurtCell x)
    let a := d.cell 0 0
    let read : List (Nat × Nat) := match a.due with | some p => p.reads (a.rowsIn p) | none => []
    d.arrayOn 0 0 = true ∧ (a.arr = .running ∧ a.working = true ∧ d.shadowHeld 0 0 a = false ∧ a.drain.length < 16) ∧
      a.hurt read ≠ [] ∧ ∀ w ∈ a.hurt read, w.2 = x := by
  intro x hx
  have h : (base.withCell 0 0 (hurtCell x)).cell 0 0 = hurtCell x := rfl
  have hd : (hurtCell x).due = some hurtPass := by cases x <;> rfl
  have hr : (hurtCell x).rowsIn hurtPass = 0 := rfl
  have hh : (hurtCell x).hurt (hurtPass.reads 0) = [(hurtPass.place 0 0, x)] := by
    simp [hurtCell, Cell.hurt, Pass.reads]
  refine ⟨rfl, by cases x <;> decide +kernel, ?_, ?_⟩ <;> simp [h, hd, hr, hh]

/-- Nothing is written; every set names slot 0 and has both its slots FREE, so that its entry is zeros. -/
def zeroSets : Device := { base with wt := { sets := (List.range 256).map fun i => (i, { current := some 0 }) } }

theorem zeroSets_bytes (a n : Nat) : zeroSets.bytesAt 0 a n = List.replicate n 0 := by
  have h : zeroSets.byteAt 0 = fun _ => 0 := rfl
  simp [Device.bytesAt, h, span, Function.comp_def]

theorem zeroSets_entries : ∀ i < 256, zeroSets.setBytes i = List.replicate 256 0 := by
  have hl : ∀ (l : List Nat) (i : Nat), i ∈ l → look (l.map fun i => (i, ({ current := some 0 } : WSet))) i {} = { current := some 0 } := by
    intro l i h
    induction l with
    | nil => nomatch h
    | cons j r ih =>
      by_cases e : j = i
      · simp [look, e]
      · simpa [look, e] using ih (List.mem_of_ne_of_mem (Ne.symm e) h)
  have hw : ∀ i < 256, zeroSets.wset i = { current := some 0 } := fun i hi => hl _ i (List.mem_range.mpr hi)
  have he : ∀ i k, zeroSets.epoch i k = {} := fun _ _ => rfl
  intro i hi
  simp only [Device.setBytes, hw i hi, he]
  decide +kernel

/-- The hypotheses of WeightReferences on enabling over tables that agree with the device. -/
theorem test_WeightReferences_enable : let s := st zeroSets
    s.Inv ∧ s.dev.up = true ∧ s.dev.accepts 0 = true ∧ bitOf (1 : Word) 0 = true ∧ s.dev.wgtOn = false ∧ s.dev.rf.armed = [] ∧
      s.dev.mm.lineErr = [] ∧ s.dev.tablesOk = true ∧ ∀ i < 256, s.dev.bytesAt 0 (s.dev.setAddr i) 256 = s.dev.setBytes i := by
  have h : ∀ i < 256, zeroSets.bytesAt 0 (zeroSets.setAddr i) 256 = zeroSets.setBytes i := fun i hi =>
    (zeroSets_bytes _ _).trans (zeroSets_entries i hi).symm
  refine ⟨good_inv (by decide +kernel), by decide +kernel, by decide +kernel, by decide, by decide +kernel, rfl, rfl, ?_, h⟩
  have hs : ((List.range 256).all fun i => zeroSets.entryOk i (zeroSets.bytesAt 0 (zeroSets.setAddr i) 256)) = true := by
    simp only [List.all_eq_true, List.mem_range]
    intro i hi
    simp [Device.entryOk, h i hi]
  simp only [st, Device.tablesOk, hs, Bool.and_true]
  decide +kernel

/-! ### The hypotheses of the statements: good s = true gives s.Inv (good_inv) -/

/-- The hypotheses of PerstDuration, clause by clause. -/
theorem test_PerstDuration_hypotheses :
  (let n : Nat := 9999; let s : State := (st base);
    (s.dev.clk.power ≠ .off ∧ s.dev.clk.power ≠ .tripped ∧ n < 10000)) ∧
  (let n : Nat := 10000; let s : State := (st base);
    (s.dev.clk.power ≠ .off ∧ s.dev.clk.power ≠ .tripped ∧ 10000 ≤ n ∧ n < 100000)) ∧
  (let n : Nat := 100000; let s : State := (st {base with fl := {detected := [rec3], toLog := [{rec3 with level := 1}], log := [(3, [1])]}});
    (s.dev.clk.power ≠ .off ∧ s.dev.clk.power ≠ .tripped ∧ 100000 ≤ n)) := by
  refine ⟨?_, ?_, ?_⟩ <;> decide +kernel

/-- The hypotheses of SlotOperations, clause by clause. -/
theorem test_SlotOperations_hypotheses :
  (let fn : Nat := 0; let e : Nat := 0; let k : Nat := 0; let s : State := (sl {state := .stopped, reason := 2});
    (fn < 65 ∧ e < 32 ∧ k < 8 ∧ s.dev.accepts fn = true ∧ s.dev.opsNow fn e k = true ∧ (let d := s.dev
    (let t := d.slot e k
    t.state = .stopped)))) ∧
  (let fn : Nat := 0; let e : Nat := 31; let k : Nat := 7; let s : State := (st (base.withSlot 31 7 {state := .pausedErr}));
    (fn < 65 ∧ e < 32 ∧ k < 8 ∧ s.dev.accepts fn = true ∧ s.dev.opsNow fn e k = true ∧ (let d := s.dev
    (let t := d.slot e k
    t.state = .pausedErr)))) ∧
  (let fn : Nat := 64; let e : Nat := 0; let k : Nat := 0; let s : State := (st ({base.withSlot 0 0 {state := .active} with ho := {vfEnable := true, vfCount := 64, vfMap := [(64 * 256 + 255, 0x80000000)]}} : Device));
    (fn < 65 ∧ e < 32 ∧ k < 8 ∧ s.dev.accepts fn = true ∧ s.dev.opsNow fn e k = true ∧ (let d := s.dev
    (let t := d.slot e k
    t.state = .active ∧ d.runs e k = false)))) ∧
  (let fn : Nat := 0; let e : Nat := 0; let k : Nat := 0; let s : State := (st ((base.withSlot 0 0 {state := .active}).withEng 0 {run := some 0}));
    (fn < 65 ∧ e < 32 ∧ k < 8 ∧ s.dev.accepts fn = true ∧ s.dev.opsNow fn e k = true ∧ (let d := s.dev
    (let t := d.slot e k
    t.state = .active ∧ d.runs e k = true)))) ∧
  (let fn : Nat := 0; let e : Nat := 0; let k : Nat := 0; let s : State := (sl {});
    (fn < 65 ∧ e < 32 ∧ k < 8 ∧ s.dev.accepts fn = true ∧ s.dev.opsNow fn e k = true ∧ (let d := s.dev
    (let t := d.slot e k
    (∃ i ∈ [Instr.start fn e k, .stop fn e k, .resume fn e k, .flush fn e k, .unbind fn e k], t.state = .unbound))))) := by
  refine ⟨?_, ?_, ?_, ?_, ?_⟩ <;> decide +kernel

/-- The hypotheses of SlotRings (Doorbell), clause by clause. -/
theorem test_Doorbell_hypotheses :
  (let fn : Nat := 0; let e : Nat := 0; let k : Nat := 0; let entry : Nat := 0; let data : Word := 5; let s : State := (sl {});
    (fn < 65 ∧ e < 32 ∧ entry < 256 ∧ s.dev.accepts fn = true ∧ s.dev.up = true ∧ s.dev.blockOn e = true ∧ (((fn = 0 ∧ k = fieldOf data 18 16) ∨ (fn ≠ 0 ∧ k < 8 ∧ (s.dev.mapEntry fn entry).any (fun q => q.1 = 0 && q.2 % 256 = e * 8 + k)))) ∧ s.dev.reachesSlot fn e k = true ∧ (let d := s.dev
    (let t := d.slot e k
    t.state = .unbound)))) ∧
  (let fn : Nat := 0; let e : Nat := 31; let k : Nat := 7; let entry : Nat := 0; let data : Word := 0x00078000; let s : State := (st (base.withSlot 31 7 {state := .stopped, ctx := 3}));
    (fn < 65 ∧ e < 32 ∧ entry < 256 ∧ s.dev.accepts fn = true ∧ s.dev.up = true ∧ s.dev.blockOn e = true ∧ (((fn = 0 ∧ k = fieldOf data 18 16) ∨ (fn ≠ 0 ∧ k < 8 ∧ (s.dev.mapEntry fn entry).any (fun q => q.1 = 0 && q.2 % 256 = e * 8 + k)))) ∧ s.dev.reachesSlot fn e k = true ∧ (let d := s.dev
    (let tail := BitVec.ofNat 16 (fieldOf data 15 0)
    (let t := d.slot e k
    t.state ≠ .unbound ∧ d.ownerOf t.ctx = fn ∧ 2 ^ d.sqLog2 e k < (tail - t.sqHead).toNat))))) ∧
  (let fn : Nat := 0; let e : Nat := 0; let k : Nat := 0; let entry : Nat := 0; let data : Word := 0x00000002; let s : State := (sl {state := .active});
    (fn < 65 ∧ e < 32 ∧ entry < 256 ∧ s.dev.accepts fn = true ∧ s.dev.up = true ∧ s.dev.blockOn e = true ∧ (((fn = 0 ∧ k = fieldOf data 18 16) ∨ (fn ≠ 0 ∧ k < 8 ∧ (s.dev.mapEntry fn entry).any (fun q => q.1 = 0 && q.2 % 256 = e * 8 + k)))) ∧ s.dev.reachesSlot fn e k = true ∧ (let d := s.dev
    (let tail := BitVec.ofNat 16 (fieldOf data 15 0)
    (let t := d.slot e k
    t.state ≠ .unbound ∧ d.ownerOf t.ctx = fn ∧ (tail - t.sqHead).toNat ≤ 2 ^ d.sqLog2 e k))))) ∧
  (let fn : Nat := 0; let e : Nat := 0; let k : Nat := 0; let entry : Nat := 0; let data : Word := 0x1; let s : State := (st ((base.withSlot 0 0 {state := .active, ctx := 3}).withCtx 3 {owner := 3}));
    (fn < 65 ∧ e < 32 ∧ entry < 256 ∧ s.dev.accepts fn = true ∧ s.dev.up = true ∧ s.dev.blockOn e = true ∧ (((fn = 0 ∧ k = fieldOf data 18 16) ∨ (fn ≠ 0 ∧ k < 8 ∧ (s.dev.mapEntry fn entry).any (fun q => q.1 = 0 && q.2 % 256 = e * 8 + k)))) ∧ s.dev.reachesSlot fn e k = true ∧ (let d := s.dev
    (let t := d.slot e k
    t.state ≠ .unbound ∧ d.ownerOf t.ctx ≠ fn)))) := by
  refine ⟨?_, ?_, ?_, ?_⟩ <;> decide +kernel

/-- The hypotheses of SlotRings (FlushAndUnbind), clause by clause. -/
theorem test_FlushAndUnbind_hypotheses :
  (let fn : Nat := 0; let e : Nat := 0; let k : Nat := 0; let s : State := (sl {state := .stopped, sqTail := 3, ctx := 9, fetched := [{}]});
    (fn < 65 ∧ e < 32 ∧ k < 8 ∧ s.dev.accepts fn = true ∧ s.dev.opsNow fn e k = true ∧ (let d := s.dev
    (let t := d.slot e k
    ((t.state = .stopped ∨ t.state = .pausedErr ∨ t.state = .pausedCmpl)) ∧ t.cur = none))) ∧
    (fn < 65 ∧ e < 32 ∧ k < 8 ∧ s.dev.accepts fn = true ∧ s.dev.opsNow fn e k = true ∧ (let d := s.dev
    (let t := d.slot e k
    ((t.state = .stopped ∨ t.state = .dead)) ∧ t.cur = none)))) := by
  decide +kernel

/-- The hypotheses of Bind, clause by clause. -/
theorem test_Bind_hypotheses :
  (let fn : Nat := 0; let e : Nat := 0; let k : Nat := 0; let s : State := (sl {state := .stopped, sqTail := 3, ctx := 9, fetched := [{}]});
    (good s = true ∧ fn < 65 ∧ e < 32 ∧ k < 8 ∧ s.dev.accepts fn = true ∧ s.dev.opsNow fn e k = true ∧ (let d := s.dev
    (let t := d.slot e k
    t.state ≠ .unbound)))) ∧
  (let fn : Nat := 0; let e : Nat := 0; let k : Nat := 0; let data : Word := 0x00050000; let s : State := (sl {reason := 4});
    (good s = true ∧ fn < 65 ∧ e < 32 ∧ k < 8 ∧ s.dev.accepts fn = true ∧ s.dev.opsNow fn e k = true ∧ (let d := s.dev
    (let t := d.slot e k
    (let c := fieldOf data 23 16
    t.state = .unbound ∧ (d.ctx c).state ≠ .active))))) ∧
  (let fn : Nat := 0; let e : Nat := 0; let k : Nat := 0; let data : Word := 0x00050000; let s : State := (st (base.withCtx 5 {state := .active, owner := 3}));
    (good s = true ∧ fn < 65 ∧ e < 32 ∧ k < 8 ∧ s.dev.accepts fn = true ∧ s.dev.opsNow fn e k = true ∧ (let d := s.dev
    (let t := d.slot e k
    (let c := fieldOf data 23 16
    t.state = .unbound ∧ (d.ctx c).state = .active ∧ d.ownerOf c ≠ fn))))) ∧
  (let fn : Nat := 0; let e : Nat := 0; let k : Nat := 0; let data : Word := 0x0105FFFF; let s : State := (st ((base.withCtx 5 {state := .active}).withReg (tabPage 0 + 0x100) 3));
    (good s = true ∧ fn < 65 ∧ e < 32 ∧ k < 8 ∧ s.dev.accepts fn = true ∧ s.dev.opsNow fn e k = true ∧ (let d := s.dev
    (let t := d.slot e k
    (let c := fieldOf data 23 16
    (let d1 := d.rx.withReg (tabPage e + 0x100 + 0x40 * k + 0x08) (data &&& 0x01FF030F)
    (let root := if (d.boundSlots c).isEmpty then look d.xl.roots c {} else d.rootOf c
    (let bad := d1.badRing root (d.sqBase e k) (fieldOf data 3 0) 128 || d1.badRing root (d.cqBase e k) (d.cqLog2 e k) 32
    t.state = .unbound ∧ (d.ctx c).state = .active ∧ d.ownerOf c = fn ∧ bad = true)))))))) ∧
  (let fn : Nat := 0; let e : Nat := 31; let k : Nat := 7; let data : Word := 0x01FF0304; let s : State := (st ((base.withCtx 255 {state := .active}).withReg (tabPage 31 + 0x2DC) 4));
    (good s = true ∧ fn < 65 ∧ e < 32 ∧ k < 8 ∧ s.dev.accepts fn = true ∧ s.dev.opsNow fn e k = true ∧ (let d := s.dev
    (let t := d.slot e k
    (let c := fieldOf data 23 16
    (let d1 := d.rx.withReg (tabPage e + 0x100 + 0x40 * k + 0x08) (data &&& 0x01FF030F)
    (let root := if (d.boundSlots c).isEmpty then look d.xl.roots c {} else d.rootOf c
    (let bad := d1.badRing root (d.sqBase e k) (fieldOf data 3 0) 128 || d1.badRing root (d.cqBase e k) (d.cqLog2 e k) 32
    t.state = .unbound ∧ (d.ctx c).state = .active ∧ d.ownerOf c = fn ∧ bad = false ∧ (d.eng e).held = none)))))))) := by
  refine ⟨?_, ?_, ?_, ?_, ?_⟩ <;> decide +kernel

/-- The hypotheses of Contexts, clause by clause. -/
theorem test_Contexts_hypotheses :
  (let fn : Nat := 0; let data : Word := 0; let s : State := (st base);
    (fn < 65 ∧ s.dev.accepts fn = true ∧ s.dev.up = true ∧ (let d := s.dev
    (let c := fieldOf (d.reg (ctxPage + 0x40)) 7 0
    (let x := d.ctx c
    ((d.reachesCtx fn c = false ∨ bitOf data 0 = false ∨ x.state ≠ .active)))))) ∧
    (fn < 65 ∧ s.dev.accepts fn = true ∧ s.dev.up = true ∧ (let d := s.dev
    (let c := fieldOf (d.reg (ctxPage + 0x40)) 7 0
    (let x := d.ctx c
    (let unlocked : Prop := fn = 0 → d.ho.vfs = []
    unlocked ∧ d.reachesCtx fn c = true ∧ bitOf data 31 = false ∧ x.state = .free)))))) ∧
  (let fn : Nat := 0; let data : Word := 1; let s : State := (st ((base.withReg (ctxPage + 0x40) 5).withCtx 5 {state := .active}));
    (fn < 65 ∧ s.dev.accepts fn = true ∧ s.dev.up = true ∧ (let d := s.dev
    (let c := fieldOf (d.reg (ctxPage + 0x40)) 7 0
    (let x := d.ctx c
    d.reachesCtx fn c = true ∧ bitOf data 0 = true ∧ x.state = .active ∧ d.unheld = true)))) ∧
    (fn < 65 ∧ s.dev.accepts fn = true ∧ s.dev.up = true ∧ (let d := s.dev
    (let c := fieldOf (d.reg (ctxPage + 0x40)) 7 0
    (let x := d.ctx c
    (let unlocked : Prop := fn = 0 → d.ho.vfs = []
    unlocked ∧ d.reachesCtx fn c = true ∧ bitOf data 31 = false ∧ x.state ≠ .free ∧ d.boundSlots c = [])))))) ∧
  (let fn : Nat := 0; let data : Word := 0x80000040; let s : State := (st ((base.withReg (ctxPage + 0x40) 5).withCtx 5 {root := some {}}));
    (fn < 65 ∧ s.dev.accepts fn = true ∧ s.dev.up = true ∧ (let d := s.dev
    (let c := fieldOf (d.reg (ctxPage + 0x40)) 7 0
    (let x := d.ctx c
    (let unlocked : Prop := fn = 0 → d.ho.vfs = []
    unlocked ∧ d.reachesCtx fn c = true ∧ bitOf data 31 = true ∧ x.state = .free)))))) ∧
  (let fn : Nat := 0; let data : Word := 0x80000040; let s : State := (st ((base.withReg (ctxPage + 0x40) 5).withCtx 5 {state := .killed}));
    (fn < 65 ∧ s.dev.accepts fn = true ∧ s.dev.up = true ∧ (let d := s.dev
    (let c := fieldOf (d.reg (ctxPage + 0x40)) 7 0
    (let x := d.ctx c
    (let unlocked : Prop := fn = 0 → d.ho.vfs = []
    unlocked ∧ d.reachesCtx fn c = true ∧ bitOf data 31 = true ∧ x.state ≠ .free)))))) ∧
  (let fn : Nat := 0; let data : Word := 1; let s : State := (st {(((base.withReg (ctxPage + 0x40) 255).withCtx 255 {state := .active}).withSlot 31 7 {state := .active, ctx := 255}) with ob := {gong := {state := .stopped}}});
    (fn < 65 ∧ s.dev.accepts fn = true ∧ s.dev.up = true ∧ (let d := s.dev
    (let c := fieldOf (d.reg (ctxPage + 0x40)) 7 0
    (let x := d.ctx c
    d.reachesCtx fn c = true ∧ bitOf data 0 = true ∧ x.state = .active ∧ d.unheld = false)))) ∧
    (fn < 65 ∧ s.dev.accepts fn = true ∧ s.dev.up = true ∧ (let d := s.dev
    (let c := fieldOf (d.reg (ctxPage + 0x40)) 7 0
    (let x := d.ctx c
    (let unlocked : Prop := fn = 0 → d.ho.vfs = []
    unlocked ∧ d.reachesCtx fn c = true ∧ bitOf data 31 = false ∧ x.state ≠ .free ∧ d.boundSlots c ≠ [])))))) ∧
  (let fn : Nat := 64; let s : State := (st {base with ho := {vfEnable := true, vfCount := 64}});
    (fn < 65 ∧ s.dev.accepts fn = true ∧ s.dev.up = true ∧ (let d := s.dev
    (let c := fieldOf (d.reg (ctxPage + 0x40)) 7 0
    d.reachesCtx fn c = false)))) := by
  refine ⟨?_, ?_, ?_, ?_, ?_, ?_⟩ <;> decide +kernel

/-- The hypotheses of DescriptorReads, clause by clause. -/
theorem test_DescriptorReads_hypotheses :
  (let e : Nat := 0; let k : Nat := 0; let data : Option (List Byte) := none; let s : State := (st ((Upd.writeNum 0 0x1000 8 0xD).run (mapped (base.withSlot 0 0 {state := .active, ctx := 1, tailRead := some 3, sqHead := 1}) 1)));
    (e < 32 ∧ k < 8 ∧ ((∀ l ∈ data, l.length ≤ 128)) ∧ s.dev.rf.armed = [] ∧ (let d := s.dev
    (let t := d.slot e k
    (let r := t.readTail
    d.taborOn e k = true ∧ r.fetchHeld = false ∧ r.reads = [] ∧ d.placeFree e k = true ∧ (let tail := r.tailRead.getD 0
    r.tailRead = some tail ∧ tail ≠ r.sqHead ∧ (let fn := d.ownerOf t.ctx
    (let a := hostOf (d.ringTarget e k (d.sqBase e k + r.sqHead.toNat % 2 ^ d.sqLog2 e k * 128))
    d.ringTarget e k (d.sqBase e k + r.sqHead.toNat % 2 ^ d.sqLog2 e k * 128) = some (.host a) ∧ d.xl.atsOn.contains fn = false)))))))) ∧
  (let e : Nat := 0; let k : Nat := 0; let data : Option (List Byte) := (some (desc 0 [])); let s : State := (st {(base.withSlot 0 0 {state := .active, reads := [2]}) with ob := {gong := {state := .stopped}}});
    (e < 32 ∧ k < 8 ∧ ((∀ l ∈ data, l.length ≤ 128)) ∧ s.dev.rf.armed = [] ∧ (let d := s.dev
    (let t := d.slot e k
    (let index := t.reads.headD 0
    (let rest := t.reads.tail
    t.reads = index :: rest ∧ d.up = true ∧ d.descAsked e k = false ∧ d.ho.arrived = [] ∧ d.unheld = false ∧ ((d.hostRing e k index = true → d.receives (d.ownerOf t.ctx) = true)))))))) ∧
  (let e : Nat := 0; let k : Nat := 0; let data : Option (List Byte) := none; let s : State := (sl {state := .active, tailRead := some 3, sqHead := 1});
    (e < 32 ∧ k < 8 ∧ ((∀ l ∈ data, l.length ≤ 128)) ∧ s.dev.rf.armed = [] ∧ (let d := s.dev
    (let t := d.slot e k
    (let r := t.readTail
    d.taborOn e k = true ∧ r.fetchHeld = false ∧ r.reads = [] ∧ d.placeFree e k = true ∧ (let tail := r.tailRead.getD 0
    r.tailRead = some tail ∧ tail ≠ r.sqHead ∧ d.hostRing e k r.sqHead.toNat = false)))))) ∧
  (let e : Nat := 0; let k : Nat := 0; let data : Option (List Byte) := none; let s : State := (sl {state := .active, tailRead := some 3, sqHead := 3});
    (e < 32 ∧ k < 8 ∧ ((∀ l ∈ data, l.length ≤ 128)) ∧ s.dev.rf.armed = [] ∧ (let d := s.dev
    (let t := d.slot e k
    (let r := t.readTail
    d.taborOn e k = true ∧ r.fetchHeld = false ∧ r.reads = [] ∧ d.placeFree e k = true ∧ r.tailRead = some r.sqHead))))) ∧
  (let e : Nat := 0; let k : Nat := 0; let data : Option (List Byte) := (some (desc 0 [])); let s : State := (sl {state := .active, reads := [2]});
    (e < 32 ∧ k < 8 ∧ ((∀ l ∈ data, l.length ≤ 128)) ∧ s.dev.rf.armed = [] ∧ (let d := s.dev
    (let t := d.slot e k
    (let index := t.reads.headD 0
    (let rest := t.reads.tail
    t.reads = index :: rest ∧ d.up = true ∧ d.descAsked e k = false ∧ d.ho.arrived = [] ∧ d.unheld = true ∧ ((d.hostRing e k index = true → d.receives (d.ownerOf t.ctx) = true)))))))) ∧
  (let e : Nat := 0; let k : Nat := 0; let data : Option (List Byte) := none; let s : State := (sl {state := .active, fetched := [{desc := some (desc 0 [(1, 1, 1)])}]});
    (e < 32 ∧ k < 8 ∧ ((∀ l ∈ data, l.length ≤ 128)) ∧ s.dev.rf.armed = [] ∧ (let d := s.dev
    (let t := d.slot e k
    (let r := t.readTail
    ((d.taborOn e k = false ∨ r.fetchHeld = true ∨ r.reads ≠ [] ∨ d.placeFree e k = false ∨ r.tailRead = none)))))) ∧
    (e < 32 ∧ k < 8 ∧ ((∀ l ∈ data, l.length ≤ 128)) ∧ s.dev.rf.armed = [] ∧ (let d := s.dev
    (let t := d.slot e k
    ((t.reads = [] ∨ d.up = false ∨ d.descAsked e k = true))))) ∧
    (e < 32 ∧ k < 8 ∧ ((∀ l ∈ data, l.length ≤ 128)) ∧ s.dev.rf.armed = [] ∧ (let d := s.dev
    (let t := d.slot e k
    (let f := t.fetched.headD {}
    (let rest := t.fetched.tail
    (let x := f.desc.getD []
    t.fetched = f :: rest ∧ f.desc = some x ∧ f.prefetched = false ∧ d.taborOn e k = true ∧ ((∀ c, t.cur = some c → isWait (fieldAt c.desc 0 1) = false)) ∧ isFence x = true ∧ t.cur = none))))))) ∧
  (let e : Nat := 0; let k : Nat := 0; let data : Option (List Byte) := none; let s : State := (sl {state := .active, cur := some {desc := desc 0 []}, fetched := [{desc := some (desc 0 [(1, 1, 1)])}]});
    (e < 32 ∧ k < 8 ∧ ((∀ l ∈ data, l.length ≤ 128)) ∧ s.dev.rf.armed = [] ∧ (let d := s.dev
    (let t := d.slot e k
    (let f := t.fetched.headD {}
    (let rest := t.fetched.tail
    (let x := f.desc.getD []
    t.fetched = f :: rest ∧ f.desc = some x ∧ f.prefetched = false ∧ d.taborOn e k = true ∧ ((∀ c, t.cur = some c → isWait (fieldAt c.desc 0 1) = false)) ∧ isFence x = true ∧ t.cur.isSome = true))))))) ∧
  (let e : Nat := 0; let k : Nat := 0; let data : Option (List Byte) := none; let s : State := (sl {state := .active, cur := some {desc := desc 0 []}, fetched := [{desc := some (desc 1 [])}]});
    (e < 32 ∧ k < 8 ∧ ((∀ l ∈ data, l.length ≤ 128)) ∧ s.dev.rf.armed = [] ∧ (let d := s.dev
    (let t := d.slot e k
    (let f := t.fetched.headD {}
    (let rest := t.fetched.tail
    (let x := f.desc.getD []
    t.fetched = f :: rest ∧ f.desc = some x ∧ f.prefetched = false ∧ d.taborOn e k = true ∧ ((∀ c, t.cur = some c → isWait (fieldAt c.desc 0 1) = false)) ∧ isFence x = false))))))) := by
  refine ⟨?_, ?_, ?_, ?_, ?_, ?_, ?_, ?_⟩ <;> decide +kernel

/-- The hypotheses of RecordsAndAcks, clause by clause. -/
theorem test_RecordsAndAcks_hypotheses :
  (let fn : Nat := 0; let e : Nat := 0; let k : Nat := 0; let i : Nat := 0; let data : Word := 0; let s : State := (sl {state := .flushing});
    (fn < 65 ∧ e < 32 ∧ k < 8 ∧ i < 64 ∧ s.dev.up = true ∧ (let d := s.dev
    (let t := d.slot e k
    t.state = .flushing ∧ t.cur = none ∧ (d.ctx t.ctx).state ≠ .killed ∧ t.lost = false))) ∧
    (fn < 65 ∧ e < 32 ∧ k < 8 ∧ i < 64 ∧ s.dev.up = true ∧ (let d := s.dev
    (let x := d.shadow e i
    ((x.valid = false ∨ x.checking = false)) ∧ (∃ ok : Bool, True)))) ∧
    (fn < 65 ∧ e < 32 ∧ k < 8 ∧ i < 64 ∧ s.dev.up = true ∧ (let d := s.dev
    d.accepts fn = true ∧ bitOf data 31 = false))) ∧
  (let fn : Nat := 0; let e : Nat := 0; let k : Nat := 0; let i : Nat := 0; let s : State := (sl {state := .flushing, lost := true, sqTail := 4});
    (fn < 65 ∧ e < 32 ∧ k < 8 ∧ i < 64 ∧ s.dev.up = true ∧ (let d := s.dev
    (let t := d.slot e k
    t.state = .flushing ∧ t.cur = none ∧ (d.ctx t.ctx).state ≠ .killed ∧ t.lost = true)))) ∧
  (let fn : Nat := 0; let e : Nat := 31; let k : Nat := 7; let i : Nat := 0; let s : State := (st ((base.withSlot 31 7 {state := .flushing, ctx := 9, lost := true}).withCtx 9 {state := .killed}));
    (fn < 65 ∧ e < 32 ∧ k < 8 ∧ i < 64 ∧ s.dev.up = true ∧ (let d := s.dev
    (let t := d.slot e k
    t.state = .flushing ∧ t.cur = none ∧ (d.ctx t.ctx).state = .killed)))) ∧
  (let fn : Nat := 0; let e : Nat := 0; let k : Nat := 0; let i : Nat := 63; let data : Word := 0x8000003F; let s : State := (st ((base.withSlot 0 0 {state := .active}).withEng 0 {shadow := [(63, {valid := true, checking := true, lost := true})]}));
    (fn < 65 ∧ e < 32 ∧ k < 8 ∧ i < 64 ∧ s.dev.up = true ∧ (let d := s.dev
    (let t := d.slot e k
    ((t.state ≠ .flushing ∨ t.cur.isSome = true))))) ∧
    (fn < 65 ∧ e < 32 ∧ k < 8 ∧ i < 64 ∧ s.dev.up = true ∧ (let d := s.dev
    (let x := d.shadow e i
    x.valid = true ∧ x.checking = true ∧ d.receives (d.ownerOf (d.slot e x.slot).ctx) = true))) ∧
    (fn < 65 ∧ e < 32 ∧ k < 8 ∧ i < 64 ∧ s.dev.up = true ∧ (let d := s.dev
    (let sel := fieldOf data 5 0
    (let y := d.shadow e sel
    d.accepts fn = true ∧ bitOf data 31 = true ∧ d.reachesSlot fn e y.slot = true ∧ y.valid = true ∧ y.lost = true))))) ∧
  (let fn : Nat := 3; let e : Nat := 0; let k : Nat := 0; let i : Nat := 0; let data : Word := 0x80000000; let s : State := (st {((base.withSlot 0 0 {state := .active}).withEng 0 {shadow := [(0, {valid := true, lost := true})]}) with ho := {vfEnable := true, vfCount := 3}});
    (fn < 65 ∧ e < 32 ∧ k < 8 ∧ i < 64 ∧ s.dev.up = true ∧ (let d := s.dev
    (let sel := fieldOf data 5 0
    (let y := d.shadow e sel
    d.accepts fn = true ∧ bitOf data 31 = true ∧ d.reachesSlot fn e y.slot = false))))) := by
  refine ⟨?_, ?_, ?_, ?_, ?_⟩ <;> decide +kernel

/-- The hypotheses of CommandIssue, clause by clause. -/
theorem test_CommandIssue_hypotheses :
  (let e : Nat := 0; let s : State := (st base);
    (e < 32 ∧ s.dev.rf.armed = [] ∧ (let d := s.dev
    ((d.issues e = false ∨ d.pickSlot e = none))))) ∧
  (let e : Nat := 0; let s : State := (sl {state := .active, fetched := [{desc := some (desc 0x99 []), status := .opcodeInvalid, index := 4}]});
    (e < 32 ∧ s.dev.rf.armed = [] ∧ (let d := s.dev
    (let k := (d.pickSlot e).getD 0
    (let f := (d.slot e k).fetched.headD {}
    (let rest := (d.slot e k).fetched.tail
    (let x := f.desc.getD []
    d.issues e = true ∧ d.pickSlot e = some k ∧ (d.slot e k).cur = none ∧ (d.slot e k).fetched = f :: rest ∧ f.desc = some x ∧ f.bad = false ∧ f.status ≠ .ok ∧ f.status ≠ .descFault ∧ d.ob.clrStaged.contains e = false ∧ d.ob.selStaged.contains e = false))))))) ∧
  (let e : Nat := 31; let s : State := (st (base.withSlot 31 7 {state := .active, fetched := [{desc := some (desc 0 []), index := 4}, {}]}));
    (e < 32 ∧ s.dev.rf.armed = [] ∧ (let d := s.dev
    (let k := (d.pickSlot e).getD 0
    (let f := (d.slot e k).fetched.headD {}
    (let rest := (d.slot e k).fetched.tail
    (let x := f.desc.getD []
    d.issues e = true ∧ d.pickSlot e = some k ∧ (d.slot e k).cur = none ∧ (d.slot e k).fetched = f :: rest ∧ f.desc = some x ∧ f.bad = false ∧ f.status = .ok ∧ d.bindOf e (d.slot e k).ctx (flagBit x 6) x = (.ok, {}) ∧ fieldAt x 0 1 ≠ opFused ∧ fieldAt x 0 1 ≠ opU4Add ∧ d.ob.clrStaged.contains e = false ∧ d.ob.selStaged.contains e = false ∧ isWait (fieldAt x 0 1) = false))))))) ∧
  (let e : Nat := 0; let s : State := (sl {state := .active, fetched := [{desc := some (desc 0x12 [(32,4,7),(40,8,5), (96, 1, 1)]), index := 4}]});
    (e < 32 ∧ s.dev.rf.armed = [] ∧ (let d := s.dev
    (let k := (d.pickSlot e).getD 0
    (let f := (d.slot e k).fetched.headD {}
    (let rest := (d.slot e k).fetched.tail
    (let x := f.desc.getD []
    d.issues e = true ∧ d.pickSlot e = some k ∧ (d.slot e k).cur = none ∧ (d.slot e k).fetched = f :: rest ∧ f.desc = some x ∧ f.bad = false ∧ f.status = .ok ∧ d.bindOf e (d.slot e k).ctx (flagBit x 6) x = (.ok, {}) ∧ fieldAt x 0 1 ≠ opFused ∧ fieldAt x 0 1 ≠ opU4Add ∧ d.ob.clrStaged.contains e = false ∧ d.ob.selStaged.contains e = false ∧ isWait (fieldAt x 0 1) = true ∧ waitConds f.own x ≠ []))))))) ∧
  (let e : Nat := 0; let s : State := (st ((base.withSlot 0 0 {state := .active, cur := some {desc := desc 0 [], preempted := true, paused := 9}}).withEng 0 {pre := some 0}));
    (e < 32 ∧ s.dev.rf.armed = [] ∧ (let d := s.dev
    (let k := (d.pickSlot e).getD 0
    (let c := (d.slot e k).cur.getD {}
    d.issues e = true ∧ d.pickSlot e = some k ∧ (d.slot e k).cur = some c ∧ c.badSave = false))))) := by
  refine ⟨?_, ?_, ?_, ?_, ?_⟩ <;> decide +kernel

/-- The hypotheses of TileBoundaries, clause by clause. -/
theorem test_TileBoundaries_hypotheses :
  (let e : Nat := 0; let s : State := (st (((base.withSlot 0 0 {state := .active, cur := some {desc := desc 0x14 [(32,1,1)]}}).withEng 0 {run := some 0}).withReg (dgsPage + 4) 1)); let v : Env := ⟨0, 0, 0, {desc := desc 0x14 [(32,1,1)]}⟩;
    (e < 32 ∧ s.dev.rf.armed = [] ∧ s.dev.env e = some v ∧ v.cmd.status = none ∧ (let d := s.dev
    d.acts e v.s = true ∧ tileK (tileOf d v) = 0))) ∧
  (let e : Nat := 0; let s : State := (st ((base.withSlot 0 0 {state := .active, frozen := true, cur := some {desc := desc 0 []}}).withEng 0 {run := some 0})); let v : Env := ⟨0, 0, 0, {desc := desc 0 []}⟩;
    (e < 32 ∧ s.dev.rf.armed = [] ∧ s.dev.env e = some v ∧ v.cmd.status = none ∧ (let d := s.dev
    d.acts e v.s = false)) ∧
    (e < 32 ∧ s.dev.rf.armed = [] ∧ s.dev.env e = some v ∧ v.cmd.status = none ∧ (let d := s.dev
    (let g := d.eng e
    (let t := d.slot e v.s
    (let settled : Bool := d.up && d.unheld && !d.resetDue e && g.rst == .running && v.cmd.asked.isEmpty && v.cmd.answers.isEmpty && g.redecode.isNone
    settled = true ∧ t.flushReq = none ∧ t.stopReq = false ∧ v.op ≠ opFused ∧ g.replay = none ∧ ((∀ k : Nat, k < 8 → d.prio e k = 0 → d.isReady e k = false)))))))) ∧
  (let e : Nat := 0; let s : State := (st ((base.withSlot 0 0 {state := .active, cur := some {desc := desc 0x0B [(48,8,70000)]}}).withEng 0 {run := some 0})); let v : Env := ⟨0, 0, 0, {desc := desc 0x0B [(48,8,70000)]}⟩;
    (e < 32 ∧ s.dev.rf.armed = [] ∧ s.dev.env e = some v ∧ v.cmd.status = none ∧ (let d := s.dev
    d.acts e v.s = true ∧ tileK (tileOf d v) = 3))) ∧
  (let e : Nat := 31; let s : State := (st ((base.withSlot 31 7 {state := .active, ctx := 5, cur := some {desc := desc 0 [], asked := [{}]}}).withEng 31 {run := some 7})); let v : Env := ⟨31, 7, 5, {desc := desc 0 [], asked := [{}]}⟩;
    (e < 32 ∧ s.dev.rf.armed = [] ∧ s.dev.env e = some v ∧ v.cmd.status = none ∧ (let d := s.dev
    (let stored := ((unitsOf v.op).use d v).fns.all fun i => !d.awaitsRewrite e i
    d.acts e v.s = true ∧ ((tileK (tileOf d v) = 4 ∨ tileK (tileOf d v) = 1 ∨ tileK (tileOf d v) = 2)) ∧ stored = true))) ∧
    (e < 32 ∧ s.dev.rf.armed = [] ∧ s.dev.env e = some v ∧ v.cmd.status = none ∧ (let d := s.dev
    (let g := d.eng e
    (let settled : Bool := d.up && d.unheld && !d.resetDue e && g.rst == .running && v.cmd.asked.isEmpty && v.cmd.answers.isEmpty && g.redecode.isNone
    settled = false ∧ g.rst = .running))))) ∧
  (let e : Nat := 0; let s : State := (st ((base.withSlot 0 0 {state := .flushing, flushReq := some .cancelled, cur := some {desc := desc 0 []}}).withEng 0 {run := some 0})); let v : Env := ⟨0, 0, 0, {desc := desc 0 []}⟩;
    (e < 32 ∧ s.dev.rf.armed = [] ∧ s.dev.env e = some v ∧ v.cmd.status = none ∧ (let d := s.dev
    (let g := d.eng e
    (let t := d.slot e v.s
    (let settled : Bool := d.up && d.unheld && !d.resetDue e && g.rst == .running && v.cmd.asked.isEmpty && v.cmd.answers.isEmpty && g.redecode.isNone
    (let st := t.flushReq.getD .ok
    settled = true ∧ t.flushReq = some st))))))) ∧
  (let e : Nat := 0; let s : State := (st ((base.withSlot 0 0 {state := .active, stopReq := true, cur := some {desc := desc 0 []}}).withEng 0 {run := some 0})); let v : Env := ⟨0, 0, 0, {desc := desc 0 []}⟩;
    (e < 32 ∧ s.dev.rf.armed = [] ∧ s.dev.env e = some v ∧ v.cmd.status = none ∧ (let d := s.dev
    (let g := d.eng e
    (let t := d.slot e v.s
    (let settled : Bool := d.up && d.unheld && !d.resetDue e && g.rst == .running && v.cmd.asked.isEmpty && v.cmd.answers.isEmpty && g.redecode.isNone
    settled = true ∧ t.flushReq = none ∧ t.stopReq = true ∧ g.replay = none ∧ g.suspects = [])))))) ∧
  (let e : Nat := 0; let s : State := (st ((((base.withSlot 0 0 {state := .active, cur := some {desc := desc 0 []}}).withSlot 0 1 {state := .active, fetched := [{desc := some (desc 0 [])}]}).withReg (tabPage 0 + 0x108) 0x100).withEng 0 {run := some 0})); let v : Env := ⟨0, 0, 0, {desc := desc 0 []}⟩;
    (e < 32 ∧ s.dev.rf.armed = [] ∧ s.dev.env e = some v ∧ v.cmd.status = none ∧ (let d := s.dev
    (let g := d.eng e
    (let t := d.slot e v.s
    (let settled : Bool := d.up && d.unheld && !d.resetDue e && g.rst == .running && v.cmd.asked.isEmpty && v.cmd.answers.isEmpty && g.redecode.isNone
    settled = true ∧ t.flushReq = none ∧ t.stopReq = false ∧ v.op ≠ opFused ∧ d.prio e v.s ≠ 0 ∧ g.withheld = false ∧ ((∃ k : Nat, k < 8 ∧ d.prio e k = 0 ∧ d.isReady e k = true)))))))) ∧
  (let e : Nat := 0; let s : State := (st {((base.withSlot 0 0 {state := .active, cur := some {desc := desc 0x0E [(84,1,255)]}}).withEng 0 {run := some 0}) with sfu := {rewrite := [(0, 255)]}}); let v : Env := ⟨0, 0, 0, {desc := desc 0x0E [(84,1,255)]}⟩;
    (e < 32 ∧ s.dev.rf.armed = [] ∧ s.dev.env e = some v ∧ v.cmd.status = none ∧ (let d := s.dev
    (let stored := ((unitsOf v.op).use d v).fns.all fun i => !d.awaitsRewrite e i
    d.acts e v.s = true ∧ ((tileK (tileOf d v) = 4 ∨ tileK (tileOf d v) = 1 ∨ tileK (tileOf d v) = 2)) ∧ stored = false)))) := by
  refine ⟨?_, ?_, ?_, ?_, ?_, ?_, ?_, ?_⟩ <;> decide +kernel

/-- The hypotheses of EngineCommands, clause by clause. -/
theorem test_EngineCommands_hypotheses :
  (let e : Nat := 0; let s : State := (st ((base.withSlot 0 0 {state := .active, ctx := 1, cur := some {desc := desc 0x10 [(32,2,0xFFFF),(34,1,3)]}}).withEng 0 {run := some 0} |>.withCtx 1 {state := .active, adapters := [(3,4),(5,6)]})); let v : Env := ⟨0, 0, 1, {desc := desc 0x10 [(32,2,0xFFFF),(34,1,3)]}⟩;
    (e < 32 ∧ good s = true ∧ s.dev.env e = some v ∧ v.cmd.status = none ∧ s.dev.acts e v.s = true ∧ s.dev.rf.armed = [] ∧ (let d := s.dev
    (let a := v.fld 32 2
    (let at' := v.fld 34 1
    v.op = opBind ∧ d.setDenied v.ctx at' = false ∧ a = 0xFFFF ∧ (d.ctx v.ctx).state = .active))))) ∧
  (let e : Nat := 0; let s : State := (st {((base.withSlot 0 0 {state := .active, ctx := 1, cur := some {desc := desc 0x10 [(32,2,9),(34,1,3)]}}).withEng 0 {run := some 0} |>.withCtx 1 {state := .active, adapters := [(3,4),(5,6)]}) with wt := {adapters := [(9, {state := .ready, base := 3})]}}); let v : Env := ⟨0, 0, 1, {desc := desc 0x10 [(32,2,9),(34,1,3)]}⟩;
    (e < 32 ∧ good s = true ∧ s.dev.env e = some v ∧ v.cmd.status = none ∧ s.dev.acts e v.s = true ∧ s.dev.rf.armed = [] ∧ (let d := s.dev
    (let a := v.fld 32 2
    (let at' := v.fld 34 1
    (let x := d.adapterSlot a
    (let others := (d.ctx v.ctx).adapters.filter (·.1 ≠ at')
    v.op = opBind ∧ d.setDenied v.ctx at' = false ∧ a ≠ 0xFFFF ∧ x.state = .ready ∧ x.owner = d.ownerOf v.ctx ∧ x.base = at' ∧ others.length < 16))))))) ∧
  (let e : Nat := 0; let s : State := (st {((base.withSlot 0 0 {state := .active, ctx := 1, cur := some {desc := desc 0x10 [(32,2,9),(34,1,3)]}}).withEng 0 {run := some 0} |>.withCtx 1 {state := .active, adapters := [(3,4),(5,6)]}) with wt := {adapters := [(9, {state := .ready, base := 4})]}}); let v : Env := ⟨0, 0, 1, {desc := desc 0x10 [(32,2,9),(34,1,3)]}⟩;
    (e < 32 ∧ good s = true ∧ s.dev.env e = some v ∧ v.cmd.status = none ∧ s.dev.acts e v.s = true ∧ s.dev.rf.armed = [] ∧ (let d := s.dev
    (let a := v.fld 32 2
    (let at' := v.fld 34 1
    (let x := d.adapterSlot a
    (let others := (d.ctx v.ctx).adapters.filter (·.1 ≠ at')
    v.op = opBind ∧ d.setDenied v.ctx at' = false ∧ a ≠ 0xFFFF ∧ (x.state ≠ .ready ∨ x.owner ≠ d.ownerOf v.ctx ∨ x.base ≠ at' ∨ 16 ≤ others.length)))))))) ∧
  (let e : Nat := 0; let s : State := (st {((base.withSlot 0 0 {state := .active, ctx := 1, cur := some {desc := desc 0x0F [(32,1,3),(34,2,255),(38,1,1)]}}).withEng 0 {run := some 0}).withReg (wgtPage + 4) 1 with wt := {epochs := [(511, {state := .ready})]}}); let v : Env := ⟨0, 0, 1, {desc := desc 0x0F [(32,1,3),(34,2,255),(38,1,1)]}⟩;
    (e < 32 ∧ good s = true ∧ s.dev.env e = some v ∧ v.cmd.status = none ∧ s.dev.acts e v.s = true ∧ s.dev.rf.armed = [] ∧ (let d := s.dev
    (let set := v.fld 34 2
    (let half := v.fld 38 1
    v.op = opWeight ∧ d.wgtOn = true ∧ d.setDenied v.ctx set = false ∧ v.fld 32 1 = 3 ∧ (d.epoch set half).state = .ready))))) ∧
  (let e : Nat := 0; let s : State := (st {(((base.withSlot 0 0 {state := .active, ctx := 1, cur := some {desc := desc 0x0F [(32,1,3),(34,2,255),(38,1,1)]}}).withSlot 1 0 {cur := some {epochs := [(255, 1)]}}).withEng 0 {run := some 0}).withReg (wgtPage + 4) 1 with wt := {epochs := [(511, {state := .suspended, refs := 2})]}}); let v : Env := ⟨0, 0, 1, {desc := desc 0x0F [(32,1,3),(34,2,255),(38,1,1)]}⟩;
    (e < 32 ∧ good s = true ∧ s.dev.env e = some v ∧ v.cmd.status = none ∧ s.dev.acts e v.s = true ∧ s.dev.rf.armed = [] ∧ (let d := s.dev
    (let set := v.fld 34 2
    (let half := v.fld 38 1
    v.op = opWeight ∧ d.wgtOn = true ∧ d.setDenied v.ctx set = false ∧ v.fld 32 1 = 3 ∧ (d.epoch set half).state = .suspended ∧ d.epochHeld set half = true))))) ∧
  (let e : Nat := 0; let s : State := (st {((base.withSlot 0 0 {state := .active, ctx := 1, cur := some {desc := desc 0x0F [(32,1,4),(34,2,255),(38,1,1)]}}).withEng 0 {run := some 0}).withReg (wgtPage + 4) 1 with wt := {epochs := [(511, {state := .suspended, refs := 2})]}}); let v : Env := ⟨0, 0, 1, {desc := desc 0x0F [(32,1,4),(34,2,255),(38,1,1)]}⟩;
    (e < 32 ∧ good s = true ∧ s.dev.env e = some v ∧ v.cmd.status = none ∧ s.dev.acts e v.s = true ∧ s.dev.rf.armed = [] ∧ (let d := s.dev
    (let set := v.fld 34 2
    v.op = opWeight ∧ d.wgtOn = true ∧ d.setDenied v.ctx set = false ∧ v.fld 32 1 = 4 ∧ (d.wset set).current = none)))) ∧
  (let e : Nat := 0; let s : State := (st {(((base.withSlot 0 0 {state := .active, ctx := 1, cur := some {desc := desc 0x0F [(32,1,4),(34,2,255),(38,1,1)]}}).withSlot 1 0 {cur := some {epochs := [(255, 1)]}}).withEng 0 {run := some 0}).withReg (wgtPage + 4) 1 with wt := {sets := [(255, {current := some 1})], epochs := [(511, {state := .ready, refs := 2})]}}); let v : Env := ⟨0, 0, 1, {desc := desc 0x0F [(32,1,4),(34,2,255),(38,1,1)]}⟩;
    (e < 32 ∧ good s = true ∧ s.dev.env e = some v ∧ v.cmd.status = none ∧ s.dev.acts e v.s = true ∧ s.dev.rf.armed = [] ∧ (let d := s.dev
    (let set := v.fld 34 2
    (let half := v.fld 38 1
    v.op = opWeight ∧ d.wgtOn = true ∧ d.setDenied v.ctx set = false ∧ v.fld 32 1 = 4 ∧ (d.wset set).current = some half ∧ d.epochHeld set half = true))))) ∧
  (let e : Nat := 0; let s : State := (st ((base.withSlot 0 0 {state := .active, ctx := 1, cur := some {desc := desc 0x0F [(32,1,3)]}}).withEng 0 {run := some 0})); let v : Env := ⟨0, 0, 1, {desc := desc 0x0F [(32,1,3)]}⟩;
    (e < 32 ∧ good s = true ∧ s.dev.env e = some v ∧ v.cmd.status = none ∧ s.dev.acts e v.s = true ∧ s.dev.rf.armed = [] ∧ (let d := s.dev
    v.op = opWeight ∧ d.wgtOn = false ∧ v.fld 32 1 = 3))) ∧
  (let e : Nat := 0; let s : State := (st ((base.withSlot 0 0 {state := .active, ctx := 1, cur := some {desc := desc 0x0F [(32,1,4)]}}).withEng 0 {run := some 0})); let v : Env := ⟨0, 0, 1, {desc := desc 0x0F [(32,1,4)]}⟩;
    (e < 32 ∧ good s = true ∧ s.dev.env e = some v ∧ v.cmd.status = none ∧ s.dev.acts e v.s = true ∧ s.dev.rf.armed = [] ∧ (let d := s.dev
    v.op = opWeight ∧ d.wgtOn = false ∧ v.fld 32 1 = 4))) ∧
  (let e : Nat := 0; let s : State := (st ((base.withSlot 0 0 {state := .active, ctx := 1, cur := some {desc := desc 0x0F [(32,1,2)]}}).withEng 0 {run := some 0})); let v : Env := ⟨0, 0, 1, {desc := desc 0x0F [(32,1,2)]}⟩;
    (e < 32 ∧ good s = true ∧ s.dev.env e = some v ∧ v.cmd.status = none ∧ s.dev.acts e v.s = true ∧ s.dev.rf.armed = [] ∧ (let d := s.dev
    v.op = opWeight ∧ d.wgtOn = false ∧ v.fld 32 1 = 2))) ∧
  (let e : Nat := 0; let s : State := (st ((base.withSlot 0 0 {state := .active, ctx := 1, cur := some {desc := desc 0x0F [(32,1,6)]}}).withEng 0 {run := some 0})); let v : Env := ⟨0, 0, 1, {desc := desc 0x0F [(32,1,6)]}⟩;
    (e < 32 ∧ good s = true ∧ s.dev.env e = some v ∧ v.cmd.status = none ∧ s.dev.acts e v.s = true ∧ s.dev.rf.armed = [] ∧ (let d := s.dev
    v.op = opWeight ∧ d.wgtOn = false ∧ v.fld 32 1 = 6))) ∧
  (let e : Nat := 0; let s : State := copyState; let v : Env := ⟨0, 0, 1, {desc := desc 0x0B [(32,8,0x4000),(40,8,0x200000),(48,8,64)]}⟩;
    (e < 32 ∧ good s = true ∧ s.dev.env e = some v ∧ v.cmd.status = none ∧ s.dev.acts e v.s = true ∧ s.dev.rf.armed = [] ∧ (let d := s.dev
    (let src : Rng := ⟨v.fld 32 8, v.fld 48 8, if v.fld 48 8 ≤ 256 then 6 else 4, false⟩
    (let dst : Rng := ⟨v.fld 40 8, v.fld 48 8, if v.fld 48 8 ≤ 256 then 6 else 5, true⟩
    (let ps := 0x4000
    (let ks := 0
    (let pd := 0x200000
    (let kd := 0
    (let ls := 30
    (let ld := 30
    v.op = opCopy ∧ v.cmd.done = 0 ∧ v.cmd.piece = 0 ∧ 0 < v.fld 48 8 ∧ v.fld 48 8 ≤ 4096 ∧ d.mm.lineErr = [] ∧ d.xl.winBad = [] ∧ d.rangesOf v.ctx [⟨v.fld 32 8, v.fld 48 8, if v.fld 48 8 ≤ 256 then 6 else 4, false⟩, ⟨v.fld 40 8, v.fld 48 8, if v.fld 48 8 ≤ 256 then 6 else 5, true⟩] = .inr [(src, [⟨v.fld 32 8, .mem ps ks, v.fld 48 8, ls⟩]), (dst, [⟨v.fld 40 8, .mem pd kd, v.fld 48 8, ld⟩])] ∧ src.write = false ∧ dst.write = true))))))))))) := by
  refine ⟨?_, ?_, ?_, ?_, ?_, ?_, ?_, ?_, ?_, ?_, ?_, ?_⟩ <;> decide +kernel

/-- The hypotheses of AuditAnswers, clause by clause. -/
theorem test_AuditAnswers_hypotheses :
  (let s : State := (st {base with ob := {dgs := [{slot := 0, answer := some (.ok, none)}, {slot := 255}]}}); let o : DgsOp := {slot := 255}; let l : List DgsOp := [{slot := 0, answer := some (.ok, none)}]; let k : List DgsOp := [];
    (good s = true ∧ s.dev.rf.armed = [] ∧ (let d := s.dev
    (let e := o.slot / 8
    (let sl := o.slot % 8
    d.ob.dgs = l ++ o :: k ∧ o.answer = none ∧ ((∀ x ∈ l, x.answer.isSome = true)) ∧ ((∀ x ∈ l ++ k, x.slot ≠ o.slot)) ∧ (d.slot e sl).cur = none ∧ d.up = true))))) ∧
  (let s : State := (st {base.withSlot 31 7 {state := .active, cur := some {desc := desc 0x14 [(32,1,1)]}} with ob := {gong := {state := .stopped}, dgs := [{slot := 255}]}}); let o : DgsOp := {slot := 255}; let l : List DgsOp := []; let k : List DgsOp := [];
    (good s = true ∧ s.dev.rf.armed = [] ∧ (let d := s.dev
    (let e := o.slot / 8
    (let sl := o.slot % 8
    d.ob.dgs = l ++ o :: k ∧ o.answer = none ∧ ((∀ x ∈ l, x.answer.isSome = true)) ∧ ((∀ x ∈ l ++ k, x.slot ≠ o.slot)) ∧ d.up = true ∧ d.unheld = false ∧ o.begun = false ∧ (d.slot e sl).cur.isSome = true))))) ∧
  (let s : State := (st {base.withSlot 31 7 {state := .active, cur := some {desc := desc 0x14 [(32,1,1)]}} with ob := {dgs := [{slot := 255}]}}); let o : DgsOp := {slot := 255}; let l : List DgsOp := []; let k : List DgsOp := [];
    (good s = true ∧ s.dev.rf.armed = [] ∧ (let d := s.dev
    (let e := o.slot / 8
    (let sl := o.slot % 8
    d.ob.dgs = l ++ o :: k ∧ o.answer = none ∧ ((∀ x ∈ l, x.answer.isSome = true)) ∧ ((∀ x ∈ l ++ k, x.slot ≠ o.slot)) ∧ (let c := (d.slot e sl).cur.getD {}
    (d.slot e sl).cur = some c ∧ d.up = true ∧ d.unheld = true ∧ fieldAt c.desc 32 1 = 1 ∧ d.mm.lineErr = []))))) ∧
    (good s = true ∧ s.dev.rf.armed = [] ∧ (let d := s.dev
    (let e := o.slot / 8
    (let sl := o.slot % 8
    d.ob.dgs = l ++ o :: k ∧ o.answer = none ∧ ((∀ x ∈ l, x.answer.isSome = true)) ∧ ((∀ x ∈ l ++ k, x.slot ≠ o.slot)) ∧ (let c := (d.slot e sl).cur.getD {}
    (let r0 := dgsServe d ⟨e, sl, (d.slot e sl).ctx, c⟩
    (d.slot e sl).cur = some c ∧ d.up = true ∧ d.unheld = true ∧ tileK r0 = 2))))))) ∧
  (let s : State := (st {base.withSlot 31 7 {state := .active, cur := some {desc := desc 0x14 [(32,1,4),(67,1,1)]}} with ob := {dgs := [{slot := 255}]}}); let o : DgsOp := {slot := 255}; let l : List DgsOp := []; let k : List DgsOp := [];
    (good s = true ∧ s.dev.rf.armed = [] ∧ (let d := s.dev
    (let e := o.slot / 8
    (let sl := o.slot % 8
    d.ob.dgs = l ++ o :: k ∧ o.answer = none ∧ ((∀ x ∈ l, x.answer.isSome = true)) ∧ ((∀ x ∈ l ++ k, x.slot ≠ o.slot)) ∧ (let c := (d.slot e sl).cur.getD {}
    (let i := 3
    (d.slot e sl).cur = some c ∧ d.up = true ∧ d.unheld = true ∧ fieldAt c.desc 32 1 = 4 ∧ d.mm.lineErr = [] ∧ i < 4 ∧ 0 < fieldAt c.desc (64 + i) 1 ∧ d.present (d.slot e sl).ctx i 0 = false ∧ 68 ≤ c.desc.length)))))) ∧
    (good s = true ∧ s.dev.rf.armed = [] ∧ (let d := s.dev
    (let e := o.slot / 8
    (let sl := o.slot % 8
    d.ob.dgs = l ++ o :: k ∧ o.answer = none ∧ ((∀ x ∈ l, x.answer.isSome = true)) ∧ ((∀ x ∈ l ++ k, x.slot ≠ o.slot)) ∧ (let c := (d.slot e sl).cur.getD {}
    (let r0 := dgsServe d ⟨e, sl, (d.slot e sl).ctx, c⟩
    (let u := tileU r0
    (d.slot e sl).cur = some c ∧ d.up = true ∧ d.unheld = true ∧ tileK r0 = 3 ∧ (u.run d).ob.dgs = d.ob.dgs)))))))) := by
  refine ⟨?_, ?_, ?_, ?_⟩ <;> decide +kernel

/-- The hypotheses of CommandEnds, clause by clause. -/
theorem test_CommandEnds_hypotheses :
  (let e : Nat := 0; let k : Nat := 0; let s : State := (sl {state := .active, cur := some {desc := desc 0 []}}); let c : Cmd := {desc := desc 0 []};
    (e < 32 ∧ k < 8 ∧ (s.dev.slot e k).cur = some c ∧ c.status = none)) ∧
  (let e : Nat := 31; let k : Nat := 7; let s : State := (st {base.withSlot 31 7 {state := .active, cur := some {desc := desc 0 [], status := some .ok}} with lk := {reqs := [{kind := .write, slot := 255}]}}); let c : Cmd := {desc := desc 0 [], status := some .ok}; let st : Status := .ok;
    (e < 32 ∧ k < 8 ∧ (s.dev.slot e k).cur = some c ∧ (let d := s.dev
    c.status = some st ∧ ((d.lk.reqs.any fun r => r.slot = slotKey e k && r.kind = .write) = true)))) ∧
  (let e : Nat := 31; let k : Nat := 7; let s : State := (st ((base.withSlot 31 7 {state := .active, ctx := 3, cur := some {desc := desc 0x0B [(4,4,0x1234)], status := some .ok}}).withEng 31 {run := some 7})); let c : Cmd := {desc := desc 0x0B [(4,4,0x1234)], status := some .ok}; let st : Status := .ok;
    (e < 32 ∧ k < 8 ∧ (s.dev.slot e k).cur = some c ∧ (let d := s.dev
    (let t := d.slot e k
    (let g := d.eng e
    (let flr := (d.vf (d.ownerOf t.ctx)).flrBusy && d.ownerOf t.ctx ≠ 0
    c.status = some st ∧ d.up = true ∧ d.unheld = true ∧ d.blockOn e = true ∧ g.rst = .running ∧ d.resetDue e = false ∧ ((d.lk.reqs.any fun r => r.slot = slotKey e k && r.kind = .write) = false) ∧ c.endSignals = [] ∧ c.asked = [] ∧ fieldAt c.desc 0 1 ≠ opFused ∧ flr = false ∧ t.state ≠ .unbound ∧ ((isWait (fieldAt c.desc 0 1) = true → t.state ≠ .stopped)) ∧ t.unbindReq = false ∧ g.suspects = [] ∧ g.replay = none)))))) := by
  refine ⟨?_, ?_, ?_⟩ <;> decide +kernel

/-- The hypotheses of BellWaits, clause by clause. -/
theorem test_BellWaits_hypotheses :
  (let e : Nat := 31; let k : Nat := 7; let s : State := (st ((base.withSlot 31 7 {state := .active, cur := some {desc := desc 0x12 [], waits := [{met := true}]}}))); let c : Cmd := {desc := desc 0x12 [], waits := [{met := true}]};
    (e < 32 ∧ k < 8 ∧ (s.dev.slot e k).cur = some c ∧ c.status = none ∧ s.dev.acts e k = true ∧ (s.dev.slot e k).state ≠ .stopped ∧ ((∀ j : Nat, j < 8 → j ≠ k → (s.dev.slot e j).cur = none)) ∧ (let op := fieldAt c.desc 0 1
    (∃ i ∈ [(Instr.bellWait e 1, opWait), (.u4BellWait e 1, opU4Wait)], op = i.2 ∧ c.waits ≠ [] ∧ ((∀ w ∈ c.waits, w.met = true))))) ∧
    (e < 32 ∧ k < 8 ∧ (s.dev.slot e k).cur = some c ∧ c.status = none ∧ s.dev.acts e k = true ∧ (s.dev.slot e k).state ≠ .stopped ∧ ((∀ j : Nat, j < 8 → j ≠ k → (s.dev.slot e j).cur = none)) ∧ (let op := fieldAt c.desc 0 1
    isWait op = true ∧ fieldAt c.desc 100 4 = 0))) ∧
  (let e : Nat := 0; let k : Nat := 0; let s : State := (st ((base.withSlot 0 0 {state := .active, cur := some {desc := desc 0x12 [], waits := [{bell := 5, value := 3}]}}))); let c : Cmd := {desc := desc 0x12 [], waits := [{bell := 5, value := 3}]};
    (e < 32 ∧ k < 8 ∧ (s.dev.slot e k).cur = some c ∧ c.status = none ∧ s.dev.acts e k = true ∧ (s.dev.slot e k).state ≠ .stopped ∧ ((∀ j : Nat, j < 8 → j ≠ k → (s.dev.slot e j).cur = none)) ∧ (let op := fieldAt c.desc 0 1
    (∃ i ∈ [(Instr.bellWait e 1, opWait), (.u4BellWait e 1, opU4Wait)], op = i.2 ∧ (let w := c.waits.headD {}
    c.waits = [w] ∧ w.met = false ∧ w.sent = false ∧ bellRegion w.bell = e / 8))))) ∧
  (let e : Nat := 0; let k : Nat := 0; let s : State := (st ((base.withSlot 0 0 {state := .active, cur := some {desc := desc 0x12 [(100,4,9)], waits := [{met := true},{met := true}]}}))); let c : Cmd := {desc := desc 0x12 [(100,4,9)], waits := [{met := true},{met := true}]};
    (e < 32 ∧ k < 8 ∧ (s.dev.slot e k).cur = some c ∧ c.status = none ∧ s.dev.acts e k = true ∧ (s.dev.slot e k).state ≠ .stopped ∧ ((∀ j : Nat, j < 8 → j ≠ k → (s.dev.slot e j).cur = none)) ∧ (let op := fieldAt c.desc 0 1
    isWait op = true ∧ fieldAt c.desc 100 4 ≠ 0 ∧ c.waits ≠ [] ∧ ((∀ w ∈ c.waits, w.met = true))))) ∧
  (let e : Nat := 0; let k : Nat := 0; let s : State := (st ((base.withSlot 0 0 {state := .active, cur := some {desc := desc 0x12 [(100,4,9)], waits := [{},{}]}}))); let c : Cmd := {desc := desc 0x12 [(100,4,9)], waits := [{},{}]};
    (e < 32 ∧ k < 8 ∧ (s.dev.slot e k).cur = some c ∧ c.status = none ∧ s.dev.acts e k = true ∧ (s.dev.slot e k).state ≠ .stopped ∧ ((∀ j : Nat, j < 8 → j ≠ k → (s.dev.slot e j).cur = none)) ∧ (let op := fieldAt c.desc 0 1
    isWait op = true ∧ fieldAt c.desc 100 4 ≠ 0 ∧ c.waits ≠ [] ∧ ((∀ w ∈ c.waits, w.met = false ∧ w.sent = false))))) ∧
  (let e : Nat := 0; let k : Nat := 0; let s : State := (st ((base.withSlot 0 0 {state := .active, cur := some {desc := desc 0x12 [(100,4,9)], waitTag := 3, waits := [{sent := true, bell := 7, value := 2}]}}))); let c : Cmd := {desc := desc 0x12 [(100,4,9)], waitTag := 3, waits := [{sent := true, bell := 7, value := 2}]};
    (e < 32 ∧ k < 8 ∧ (s.dev.slot e k).cur = some c ∧ c.status = none ∧ s.dev.acts e k = true ∧ (s.dev.slot e k).state ≠ .stopped ∧ ((∀ j : Nat, j < 8 → j ≠ k → (s.dev.slot e j).cur = none)) ∧ (let op := fieldAt c.desc 0 1
    (let w := c.waits.headD {}
    isWait op = true ∧ fieldAt c.desc 100 4 ≠ 0 ∧ c.waits = [w] ∧ w.met = false ∧ w.sent = true ∧ bellRegion w.bell = e / 8)))) := by
  refine ⟨?_, ?_, ?_, ?_, ?_⟩ <;> decide +kernel

/-- The hypotheses of WakesAndCredits, clause by clause. -/
theorem test_WakesAndCredits_hypotheses :
  (let e : Nat := 0; let src : Nat := 3; let dst : Nat := 0; let fails : Nat := 7; let s : State := (st {base.withSlot 31 7 {state := .active, cur := some {waitTag := 9, waits := [{},{}]}} with bl := {wakes := [(12, [{op := .wake, engine := 31, slot := 7, cond := 1, tag := 9}])]}});
    (e < 32 ∧ src < 4 ∧ dst < 4 ∧ fails < 8 ∧ s.dev.rf.armed = [] ∧ (let d := s.dev
    (let m := (d.wakes src dst).headD {op := .wake}
    (let rest := (d.wakes src dst).tail
    d.up = true ∧ d.unheld = true ∧ d.wakes src dst = m :: rest ∧ (let t := d.slot m.engine m.slot
    (let c := t.cur.getD {}
    t.cur = some c ∧ c.waitTag = m.tag ∧ c.status = none)))))) ∧
    (e < 32 ∧ src < 4 ∧ dst < 4 ∧ fails < 8 ∧ s.dev.rf.armed = [] ∧ (let d := s.dev
    (let used := d.carUsed e dst
    used ≤ ((d.egress (e / 8) dst).filter (·.engine = e)).length))) ∧
    (e < 32 ∧ src < 4 ∧ dst < 4 ∧ fails < 8 ∧ s.dev.rf.armed = [] ∧ (let d := s.dev
    (let wused := look d.bl.wakeUsed (src * 4 + dst) 0
    wused ≤ (d.wakes src dst).length)))) ∧
  (let e : Nat := 0; let src : Nat := 3; let dst : Nat := 0; let fails : Nat := 0; let s : State := (st {base.withSlot 31 7 {state := .active, cur := some {waitTag := 8, waits := [{},{}]}} with bl := {wakes := [(12, [{op := .wake, engine := 31, slot := 7, cond := 1, tag := 9}])]}});
    (e < 32 ∧ src < 4 ∧ dst < 4 ∧ fails < 8 ∧ s.dev.rf.armed = [] ∧ (let d := s.dev
    (let m := (d.wakes src dst).headD {op := .wake}
    (let rest := (d.wakes src dst).tail
    d.up = true ∧ d.unheld = true ∧ d.wakes src dst = m :: rest ∧ (let t := d.slot m.engine m.slot
    (∃ c, t.cur = some c ∧ ((c.waitTag ≠ m.tag ∨ c.status.isSome = true))))))))) ∧
  (let e : Nat := 31; let src : Nat := 3; let dst : Nat := 3; let fails : Nat := 0; let s : State := (st {base with bl := {credits := [(127, 3)], wakeUsed := [(15, 1)]}});
    (e < 32 ∧ src < 4 ∧ dst < 4 ∧ fails < 8 ∧ s.dev.rf.armed = [] ∧ (let d := s.dev
    (let used := d.carUsed e dst
    ((d.egress (e / 8) dst).filter (·.engine = e)).length < used ∧ ((∀ p ∈ d.bl.backlog, p.2.engine ≠ e ∨ p.1 ≠ dst))))) ∧
    (e < 32 ∧ src < 4 ∧ dst < 4 ∧ fails < 8 ∧ s.dev.rf.armed = [] ∧ (let d := s.dev
    (let wused := look d.bl.wakeUsed (src * 4 + dst) 0
    (d.wakes src dst).length < wused ∧ ((∀ w ∈ d.bl.watches, w.woken = false)))))) := by
  refine ⟨?_, ?_, ?_⟩ <;> decide +kernel

/-- The hypotheses of WakesAndCredits (RelayCredits), clause by clause. -/
theorem test_RelayCredits_hypotheses :
  (let e : Nat := 0; let relay : Nat := 5; let n : Nat := 65535; let key : Nat := (8 * 3 + 5); let due : Nat := 2; let s : State := (st (base.withEng 0 {creditsDue := [(29, 2)]}));
    (e < 32 ∧ 0 < n ∧ n < 2 ^ 16 ∧ relay < 6 ∧ s.dev.up = true ∧ s.dev.rf.armed = [] ∧ (let d := s.dev
    (let g := d.eng e
    (let due? := g.creditsDue.find? fun p => p.1 % 8 = relay && p.2 ≠ 0
    due? = some (key, due)))))) ∧
  (let e : Nat := 0; let relay : Nat := 5; let n : Nat := 1; let due : Nat := 0; let s : State := (st (base.withEng 0 {creditsDue := [(0, 2)]}));
    (e < 32 ∧ 0 < n ∧ n < 2 ^ 16 ∧ relay < 6 ∧ s.dev.up = true ∧ s.dev.rf.armed = [] ∧ (let d := s.dev
    (let g := d.eng e
    (let due? := g.creditsDue.find? fun p => p.1 % 8 = relay && p.2 ≠ 0
    due? = none))))) := by
  refine ⟨?_, ?_⟩ <;> decide +kernel

/-- The hypotheses of HostBells, clause by clause. -/
theorem test_HostBells_hypotheses :
  (let fn : Nat := 0; let r : Nat := 3; let data : Word := 1; let s : State := (st (base.withReg (belPage 3 + 0x48) 32767 |>.withReg (belPage 3 + 0x54) 9));
    (good s = true ∧ fn < 65 ∧ r < 4 ∧ s.dev.accepts fn = true ∧ s.dev.up = true ∧ s.dev.unheld = true ∧ s.dev.rf.armed = [] ∧ (let d := s.dev
    (let i := fieldOf (d.reg (belPage r + 0x48)) 14 0
    (let b := r * 32768 + i
    (let quietBell : Prop := (∀ p ∈ d.bl.damaged, p.1 ≠ b) ∧ ∀ w ∈ d.bl.watches, w.bell ≠ b
    fieldOf data 1 0 = 1 ∧ d.reachesGroup fn r (i / 64) = true ∧ quietBell))))) ∧
    (good s = true ∧ fn < 65 ∧ r < 4 ∧ s.dev.accepts fn = true ∧ s.dev.up = true ∧ s.dev.unheld = true ∧ s.dev.rf.armed = [] ∧ (let d := s.dev
    (let base := d.pair (belPage r + 0x60) % 2 ^ 44
    (let image : Bool := base ≠ 0 && populatedRange base 0x40040 && (d.ueIn base 0x40040).isNone && d.numAt 0 (base + 0x40000) 4 = 0x42454C37 &&
    d.numAt 0 (base + 0x40004) 2 = fieldOf (d.control (zwlPage + 0x40)) 12 0 && d.numAt 0 (base + 0x40006) 1 = r &&
    bits (d.numAt 0 (base + 0x40007) 1) 0 1 = 1
    fn = 0 ∧ bitOf data 0 = true ∧ image = false))))) ∧
  (let fn : Nat := 0; let r : Nat := 0; let data : Word := 2; let s : State := (st {base.withReg (belPage 0 + 0x48) 5 |>.withReg (belPage 0 + 0x54) 9 with bl := {bells := [(5, 3)]}});
    (good s = true ∧ fn < 65 ∧ r < 4 ∧ s.dev.accepts fn = true ∧ s.dev.up = true ∧ s.dev.unheld = true ∧ s.dev.rf.armed = [] ∧ (let d := s.dev
    (let i := fieldOf (d.reg (belPage r + 0x48)) 14 0
    (let b := r * 32768 + i
    (let quietBell : Prop := (∀ p ∈ d.bl.damaged, p.1 ≠ b) ∧ ∀ w ∈ d.bl.watches, w.bell ≠ b
    fieldOf data 1 0 = 2 ∧ d.reachesGroup fn r (i / 64) = true ∧ quietBell))))) ∧
    (good s = true ∧ fn < 65 ∧ r < 4 ∧ s.dev.accepts fn = true ∧ s.dev.up = true ∧ s.dev.unheld = true ∧ s.dev.rf.armed = [] ∧ ((fn ≠ 0 ∨ bitOf data 0 = false)))) ∧
  (let fn : Nat := 5; let r : Nat := 0; let s : State := (st (base.withReg (belPage 0 + 0x48) 5));
    (good s = true ∧ fn < 65 ∧ r < 4 ∧ s.dev.accepts fn = true ∧ s.dev.up = true ∧ s.dev.unheld = true ∧ s.dev.rf.armed = [] ∧ (let d := s.dev
    (let i := fieldOf (d.reg (belPage r + 0x48)) 14 0
    d.reachesGroup fn r (i / 64) = false)))) ∧
  (let fn : Nat := 0; let r : Nat := 3; let data : Word := 1; let s : State := (st {((Upd.writeNum 0 0x140000 4 0x42454C37).run ((Upd.writeNum 0 0x140006 1 3).run ((Upd.writeNum 0 0x140007 1 1).run ((Upd.writeNum 0 (0x100000+8*32767) 8 77).run (base.withReg (belPage 3 + 0x60) 0x100000))))) with bl := {bells := [(32768, 3), (98304, 7), (131071, 4)]}});
    (good s = true ∧ fn < 65 ∧ r < 4 ∧ s.dev.accepts fn = true ∧ s.dev.up = true ∧ s.dev.unheld = true ∧ s.dev.rf.armed = [] ∧ (let d := s.dev
    (let base := d.pair (belPage r + 0x60) % 2 ^ 44
    (let image : Bool := base ≠ 0 && populatedRange base 0x40040 && (d.ueIn base 0x40040).isNone && d.numAt 0 (base + 0x40000) 4 = 0x42454C37 &&
    d.numAt 0 (base + 0x40004) 2 = fieldOf (d.control (zwlPage + 0x40)) 12 0 && d.numAt 0 (base + 0x40006) 1 = r &&
    bits (d.numAt 0 (base + 0x40007) 1) 0 1 = 1
    fn = 0 ∧ bitOf data 0 = true ∧ image = true))))) := by
  refine ⟨?_, ?_, ?_, ?_⟩ <;> decide +kernel

/-- The hypotheses of BellOperations, clause by clause. -/
theorem test_BellOperations_hypotheses :
  (let src : Nat := 0; let dst : Nat := 3; let fails : Nat := 0; let s : State := (st {base with bl := {egress := [(3, [{op := .signal, index := 32767, value := 7}])]}}); let m : CarMsg := {op := .signal, index := 32767, value := 7};
    (src < 4 ∧ dst < 4 ∧ s.dev.up = true ∧ s.dev.unheld = true ∧ s.dev.rf.armed = [] ∧ fails < 8 ∧ s.dev.nextMsg src dst = some m ∧ ((∀ p ∈ s.dev.bl.damaged, p.1 ≠ dst * 32768 + m.index)) ∧ ((∀ w ∈ s.dev.bl.watches, w.bell ≠ dst * 32768 + m.index)) ∧ m.op = .signal)) ∧
  (let src : Nat := 0; let dst : Nat := 3; let fails : Nat := 0; let s : State := (st {base with bl := {bells := [(131071, 9)], egress := [(3, [{op := .add, index := 32767, value := 0xFFFFFFFFFFFFFFFF}])]}}); let m : CarMsg := {op := .add, index := 32767, value := 0xFFFFFFFFFFFFFFFF};
    (src < 4 ∧ dst < 4 ∧ s.dev.up = true ∧ s.dev.unheld = true ∧ s.dev.rf.armed = [] ∧ fails < 8 ∧ s.dev.nextMsg src dst = some m ∧ ((∀ p ∈ s.dev.bl.damaged, p.1 ≠ dst * 32768 + m.index)) ∧ ((∀ w ∈ s.dev.bl.watches, w.bell ≠ dst * 32768 + m.index)) ∧ m.op = .add)) ∧
  (let src : Nat := 3; let dst : Nat := 0; let fails : Nat := 0; let s : State := (st {base with bl := {egress := [(12, [{op := .watch, index := 32767, value := 1, engine := 31, slot := 7, tag := 4}])]}}); let m : CarMsg := {op := .watch, index := 32767, value := 1, engine := 31, slot := 7, tag := 4};
    (src < 4 ∧ dst < 4 ∧ s.dev.up = true ∧ s.dev.unheld = true ∧ s.dev.rf.armed = [] ∧ fails < 8 ∧ s.dev.nextMsg src dst = some m ∧ ((∀ p ∈ s.dev.bl.damaged, p.1 ≠ dst * 32768 + m.index)) ∧ ((∀ w ∈ s.dev.bl.watches, w.bell ≠ dst * 32768 + m.index)) ∧ (let b := dst * 32768 + m.index
    (let old := s.dev.bell b
    m.op = .watch ∧ old < m.value)))) ∧
  (let src : Nat := 0; let dst : Nat := 3; let fails : Nat := 0; let s : State := (st {base with bl := {egress := [(3, [{op := .unwatch, index := 32767, engine := 31, slot := 7}])]}}); let m : CarMsg := {op := .unwatch, index := 32767, engine := 31, slot := 7};
    (src < 4 ∧ dst < 4 ∧ s.dev.up = true ∧ s.dev.unheld = true ∧ s.dev.rf.armed = [] ∧ fails < 8 ∧ s.dev.nextMsg src dst = some m ∧ ((∀ p ∈ s.dev.bl.damaged, p.1 ≠ dst * 32768 + m.index)) ∧ ((∀ w ∈ s.dev.bl.watches, w.bell ≠ dst * 32768 + m.index)) ∧ m.op = .unwatch)) := by
  refine ⟨?_, ?_, ?_, ?_⟩ <;> decide +kernel

/-- The hypotheses of ArrayRamps, clause by clause. -/
theorem test_ArrayRamps_hypotheses :
  (let e : Nat := 0; let c : Nat := 0; let rate : Nat := 1; let tileK : Nat := 128; let tileN : Nat := 128; let rows : Nat := 5; let accIn : Bool := false; let groupBase : Nat := 64; let final : Bool := true; let s : State := (st base);
    (e < 32 ∧ c < 4 ∧ s.dev.arrayUp e c = true ∧ (let d := s.dev
    (let a := d.cell e c
    d.resetDue e = false ∧ (Instr.passIssue e c rate tileK tileN rows accIn groupBase final).wf = true ∧ 1 ≤ tileK ∧ tileK ≤ 128 * rate ∧ 1 ≤ tileN ∧ tileN ≤ d.width e c ∧ 1 ≤ rows ∧ rows < 2 ^ 32 ∧ groupBase % 32 = 0 ∧ ((rate = 1 ∨ rate = 2 ∨ rate = 4)) ∧ (a.arr = .stopped ∨ a.arr = .rampDown)))) ∧
    (e < 32 ∧ c < 4 ∧ s.dev.arrayUp e c = true ∧ (let d := s.dev
    (let a := d.cell e c
    (a.arr = .stopped ∨ a.arr = .running ∨ a.arr = .idleHold)))) ∧
    (e < 32 ∧ c < 4 ∧ s.dev.arrayUp e c = true ∧ (let d := s.dev
    (let a := d.cell e c
    a.arr ≠ .idleHold)))) ∧
  (let e : Nat := 0; let c : Nat := 0; let rate : Nat := 1; let tileK : Nat := 1; let tileN : Nat := 128; let s : State := (st {base with fuses := {colMap := [(0, 1)]}});
    (e < 32 ∧ c < 4 ∧ s.dev.arrayUp e c = true ∧ (let d := s.dev
    (d.width e c < tileN ∨ 128 * rate < tileK ∨ d.resetDue e = true)))) ∧
  (let e : Nat := 0; let c : Nat := 0; let rate : Nat := 1; let tileK : Nat := 1; let tileN : Nat := 128; let rows : Nat := 5; let accIn : Bool := false; let groupBase : Nat := 64; let final : Bool := true; let s : State := (st (base.withCell 0 0 {arr := .rampUp, groups := 0x7F}));
    (e < 32 ∧ c < 4 ∧ s.dev.arrayUp e c = true ∧ (let d := s.dev
    (let a := d.cell e c
    d.resetDue e = false ∧ (Instr.passIssue e c rate tileK tileN rows accIn groupBase final).wf = true ∧ 1 ≤ tileK ∧ tileK ≤ 128 * rate ∧ 1 ≤ tileN ∧ tileN ≤ d.width e c ∧ 1 ≤ rows ∧ rows < 2 ^ 32 ∧ groupBase % 32 = 0 ∧ ((rate = 1 ∨ rate = 2 ∨ rate = 4)) ∧ (a.arr = .running ∨ a.arr = .rampUp)))) ∧
    (e < 32 ∧ c < 4 ∧ s.dev.arrayUp e c = true ∧ (let d := s.dev
    (let a := d.cell e c
    (let j := 7
    a.arr = .rampUp ∧ j < 8 ∧ ((∀ i : Nat, i < j → a.groups.getLsbD i = true)) ∧ a.groups.getLsbD j = false))))) ∧
  (let e : Nat := 31; let c : Nat := 3; let s : State := (st (base.withCell 31 3 {arr := .rampUp, groups := 0xFF}));
    (e < 32 ∧ c < 4 ∧ s.dev.arrayUp e c = true ∧ (let d := s.dev
    (let a := d.cell e c
    a.arr = .rampUp ∧ a.groups = 0xFF)))) ∧
  (let e : Nat := 0; let c : Nat := 0; let s : State := (st (base.withCell 0 0 {arr := .rampDown, groups := 0x80}));
    (e < 32 ∧ c < 4 ∧ s.dev.arrayUp e c = true ∧ (let d := s.dev
    (let a := d.cell e c
    (let j := ((List.range 8).find? fun i => a.groups.getLsbD i).getD 0
    a.arr = .rampDown ∧ j < 8 ∧ ((∀ i : Nat, i < j → a.groups.getLsbD i = false)) ∧ a.groups.getLsbD j = true))))) ∧
  (let e : Nat := 0; let c : Nat := 0; let rate : Nat := 1; let tileK : Nat := 1; let tileN : Nat := 128; let rows : Nat := 5; let accIn : Bool := false; let groupBase : Nat := 64; let final : Bool := true; let s : State := (st (base.withCell 0 0 {arr := .idleHold, groups := 0xFF}));
    (e < 32 ∧ c < 4 ∧ s.dev.arrayUp e c = true ∧ (let d := s.dev
    (let a := d.cell e c
    d.resetDue e = false ∧ (Instr.passIssue e c rate tileK tileN rows accIn groupBase final).wf = true ∧ 1 ≤ tileK ∧ tileK ≤ 128 * rate ∧ 1 ≤ tileN ∧ tileN ≤ d.width e c ∧ 1 ≤ rows ∧ rows < 2 ^ 32 ∧ groupBase % 32 = 0 ∧ ((rate = 1 ∨ rate = 2 ∨ rate = 4)) ∧ a.arr = .idleHold))) ∧
    (e < 32 ∧ c < 4 ∧ s.dev.arrayUp e c = true ∧ (let d := s.dev
    (let a := d.cell e c
    d.resetDue e = false ∧ a.arr = .idleHold ∧ a.groups = 0xFF)))) := by
  refine ⟨?_, ?_, ?_, ?_, ?_, ?_⟩ <;> decide +kernel

/-- The hypotheses of ArrayRows, clause by clause. -/
theorem test_ArrayRows_hypotheses :
  (let e : Nat := 31; let c : Nat := 3; let s : State := (st (base.withCell 31 3 {arr := .running, passes := [⟨1, 1, 4, 8, 3, false, 0, 5, false, false⟩], active := [(0, 1)], entered := 1, flight := [{pass := 1, row := 0, col := 135}, {pass := 1, row := 1, col := 136}]}));
    (e < 32 ∧ c < 4 ∧ s.dev.arrayOn e c = true ∧ (let d := s.dev
    (let a := d.cell e c
    (let read : List (Nat × Nat) := match a.due with | some p => p.reads (a.rowsIn p) | none => []
    (let runs : Prop := a.arr = .running ∧ a.working = true ∧ d.shadowHeld e c a = false ∧ a.drain.length < 16
    runs ∧ a.hurt read = [])))))) ∧
  (let e : Nat := 31; let c : Nat := 3; let s : State := (st (base.withCell 31 3 {arr := .running, passes := [⟨1, 1, 4, 8, 3, false, 0, 5, false, false⟩], active := [(0, 1)], entered := 1, flight := [{pass := 1, row := 0, col := 135}, {pass := 1, row := 1, col := 136}]}));
    (e < 32 ∧ c < 4 ∧ s.dev.arrayOn e c = true ∧ (let d := s.dev
    (let a := d.cell e c
    (let act := true
    (let drn := false
    a.arr = .running ∧ a.working = true ∧ ((act = true ∧ a.due.isSome = true ∨ drn = true ∧ a.wantsBuffer = true ∨ a.drainFull = true ∨ d.shadowHeld e c a = true)))))))) ∧
  (let e : Nat := 0; let c : Nat := 0; let s : State := (st base);
    (e < 32 ∧ c < 4 ∧ s.dev.arrayOn e c = true ∧ (let d := s.dev
    (let a := d.cell e c
    (a.arr ≠ .running ∨ a.working = false ∨ d.shadowHeld e c a = true ∨ 16 ≤ a.drain.length))))) ∧
  (let e : Nat := 0; let c : Nat := 0; let s : State := (st base);
    (e < 32 ∧ c < 4 ∧ s.dev.arrayOn e c = true ∧ (let d := s.dev
    (let a := d.cell e c
    (let act := true
    (let drn := true
    ((act = false ∨ a.due = none)) ∧ ((drn = false ∨ a.wantsBuffer = false)) ∧ a.drainFull = false ∧ d.shadowHeld e c a = false)))))) := by
  refine ⟨?_, ?_, ?_, ?_⟩ <;> decide +kernel

/-- The hypotheses of ArrayRows (ShadowLoads), clause by clause. -/
theorem test_ShadowLoads_hypotheses :
  (let e : Nat := 0; let c : Nat := 0; let s : State := (st base);
    (e < 32 ∧ c < 4 ∧ s.dev.arrayOn e c = true ∧ (let d := s.dev
    (let a := d.cell e c
    (∃ ok : Bool, a.loads = none))))) ∧
  (let e : Nat := 0; let c : Nat := 0; let s : State := (st (base.withCell 0 0 {arr := .running, passes := [⟨1, 1, 4, 8, 3, false, 0, 5, false, false⟩]}));
    (e < 32 ∧ c < 4 ∧ s.dev.arrayOn e c = true ∧ (let d := s.dev
    (let a := d.cell e c
    (let p := (a.loads.getD ({}, 0)).1
    (let j := (a.loads.getD ({}, 0)).2
    a.loads = some (p, j) ∧ (let cols := (span j (min 2 (p.tileN - j))).map (d.physical e c)
    ((a.staging.length < 2 ∨ (a.staging.any fun q => q.1 = p.id) = true)) ∧ ((∀ q ∈ cols, a.writable p q = true)))))))) ∧
    (e < 32 ∧ c < 4 ∧ s.dev.arrayOn e c = true ∧ (let d := s.dev
    (let a := d.cell e c
    (let p := (a.loads.getD ({}, 0)).1
    (let j := (a.loads.getD ({}, 0)).2
    a.loads = some (p, j))))))) ∧
  (let e : Nat := 0; let c : Nat := 0; let s : State := (st (base.withCell 0 0 {arr := .running, passes := [⟨1, 1, 4, 8, 3, false, 0, 5, false, false⟩], shadow := [(1, 9)]}));
    (e < 32 ∧ c < 4 ∧ s.dev.arrayOn e c = true ∧ (let d := s.dev
    (let a := d.cell e c
    (let p := (a.loads.getD ({}, 0)).1
    (let j := (a.loads.getD ({}, 0)).2
    a.loads = some (p, j) ∧ (let cols := (span j (min 2 (p.tileN - j))).map (d.physical e c)
    ((2 ≤ a.staging.length ∧ (a.staging.any fun q => q.1 = p.id) = false) ∨ (∃ q ∈ cols, a.writable p q = false))))))))) := by
  refine ⟨?_, ?_, ?_⟩ <;> decide +kernel

/-- The hypotheses of ArrayRows (RowCommits), clause by clause. -/
theorem test_RowCommits_hypotheses :
  (let e : Nat := 0; let c : Nat := 0; let freed : Nat := 1; let s : State := (st (base.withCell 0 0 {arr := .running, passes := [⟨1, 1, 4, 1, 3, false, 0, 5, false, false⟩], drain := [{pass := 1, row := 0}]}));
    (e < 32 ∧ c < 4 ∧ freed ≤ 2 ∧ s.dev.arrayOn e c = true ∧ s.dev.rf.armed = []) ∧
    (e < 32 ∧ c < 4 ∧ freed ≤ 2 ∧ s.dev.arrayOn e c = true ∧ s.dev.rf.armed = [] ∧ (let d := s.dev
    (let a := (d.cell e c).freeBuffers freed
    (let free (r : RowFlight) : Prop := a.oldest r = true ∧ a.stands = false ∧ a.wantsBuffer = false
    (let r := a.drain.headD {}
    (let rest := a.drain.tail
    (let p := (a.passOf r.pass).getD {}
    a.drain = r :: rest ∧ free r ∧ r.fault = none ∧ r.sum = r.want ∧ a.passOf r.pass = some p ∧ r.row + 1 ≠ p.rows)))))))) ∧
  (let e : Nat := 0; let c : Nat := 0; let freed : Nat := 1; let s : State := (st (base.withCell 0 0 {arr := .running, passes := [⟨1, 1, 4, 1, 3, false, 0, 5, false, false⟩], drain := [{pass := 1, row := 2}]}));
    (e < 32 ∧ c < 4 ∧ freed ≤ 2 ∧ s.dev.arrayOn e c = true ∧ s.dev.rf.armed = [] ∧ (let d := s.dev
    (let a := (d.cell e c).freeBuffers freed
    (let free (r : RowFlight) : Prop := a.oldest r = true ∧ a.stands = false ∧ a.wantsBuffer = false
    (let r := a.drain.headD {}
    (let rest := a.drain.tail
    (let p := (a.passOf r.pass).getD {}
    a.drain = r :: rest ∧ free r ∧ r.fault = none ∧ r.sum = r.want ∧ a.passOf r.pass = some p ∧ r.row + 1 = p.rows ∧ a.arr = .running)))))))) ∧
  (let e : Nat := 0; let c : Nat := 0; let freed : Nat := 1; let s : State := (st (base.withCell 0 0 {arr := .running, passes := [⟨1, 1, 4, 1, 3, false, 0, 5, false, false⟩], drain := [{pass := 1, row := 2, sum := 4}]}));
    (e < 32 ∧ c < 4 ∧ freed ≤ 2 ∧ s.dev.arrayOn e c = true ∧ s.dev.rf.armed = [] ∧ (let d := s.dev
    (let a := (d.cell e c).freeBuffers freed
    (let free (r : RowFlight) : Prop := a.oldest r = true ∧ a.stands = false ∧ a.wantsBuffer = false
    (let r := a.drain.headD {}
    (let rest := a.drain.tail
    a.drain = r :: rest ∧ free r ∧ r.fault = none ∧ r.sum ≠ r.want))))))) ∧
  (let e : Nat := 0; let c : Nat := 0; let freed : Nat := 1; let s : State := (st (base.withCell 0 0 {arr := .running, passes := [⟨1, 1, 4, 1, 3, false, 0, 5, false, false⟩], drain := [{pass := 1, row := 2, fault := some (2, 7, 4, 5)}]}));
    (e < 32 ∧ c < 4 ∧ freed ≤ 2 ∧ s.dev.arrayOn e c = true ∧ s.dev.rf.armed = [] ∧ (let d := s.dev
    (let a := (d.cell e c).freeBuffers freed
    (let free (r : RowFlight) : Prop := a.oldest r = true ∧ a.stands = false ∧ a.wantsBuffer = false
    (let r := a.drain.headD {}
    (let rest := a.drain.tail
    (let f := r.fault.getD (0,0,0,0)
    a.drain = r :: rest ∧ free r ∧ r.fault = some f ∧ f.1 ≠ 0)))))))) ∧
  (let e : Nat := 31; let c : Nat := 3; let freed : Nat := 1; let s : State := (st (base.withCell 31 3 {arr := .running, passes := [⟨1, 1, 4, 1, 3, false, 0, 5, false, false⟩], drain := [{pass := 1, row := 2}], flight := [{pass := 1, row := 1}]}));
    (e < 32 ∧ c < 4 ∧ freed ≤ 2 ∧ s.dev.arrayOn e c = true ∧ s.dev.rf.armed = [] ∧ (let d := s.dev
    (let a := (d.cell e c).freeBuffers freed
    (let r := a.drain.headD {}
    (let rest := a.drain.tail
    a.drain = r :: rest ∧ ((a.oldest r = false ∨ a.stands = true ∨ a.wantsBuffer = true)))))))) := by
  refine ⟨?_, ?_, ?_, ?_, ?_⟩ <;> decide +kernel

/-- The hypotheses of ArrayRows (SecondDecode), clause by clause. -/
theorem test_SecondDecode_hypotheses :
  (let e : Nat := 0; let c : Nat := 3; let target : Nat := 255; let slot : Nat := 1; let tensor : Nat := 7; let block : Nat := 0; let adapter : Bool := false; let s : State := decState; let v : Env := ⟨0, 0, 1, {desc := desc 1 []}⟩;
    (e < 32 ∧ c < 4 ∧ s.dev.env e = some v ∧ (s.dev.eng e).redecode = some (c, adapter, target, slot, tensor, block) ∧ s.dev.up = true ∧ s.dev.unheld = true ∧ (let d := s.dev
    (let found := d.decodesNow adapter target slot tensor block
    d.resetDue e = false ∧ found.isLeft = true)))) ∧
  (let e : Nat := 0; let c : Nat := 3; let target : Nat := 255; let slot : Nat := 1; let tensor : Nat := 7; let block : Nat := 0; let adapter : Bool := false; let s : State := decState; let v : Env := ⟨0, 0, 1, {desc := desc 1 []}⟩;
    (e < 32 ∧ c < 4 ∧ s.dev.env e = some v ∧ (s.dev.eng e).redecode = some (c, adapter, target, slot, tensor, block) ∧ s.dev.up = true ∧ s.dev.unheld = true ∧ (let d := s.dev
    (let found := d.decodesNow adapter target slot tensor block
    (let b := 0
    (∃ ok : Bool, ((ok = false ∧ found.isLeft = true ∨ wgK found = (3, b))))))))) ∧
  (let e : Nat := 0; let c : Nat := 3; let target : Nat := 255; let slot : Nat := 1; let tensor : Nat := 7; let block : Nat := 0; let adapter : Bool := false; let s : State := ueDec; let v : Env := ⟨0, 0, 1, {desc := desc 1 []}⟩;
    (e < 32 ∧ c < 4 ∧ s.dev.env e = some v ∧ (s.dev.eng e).redecode = some (c, adapter, target, slot, tensor, block) ∧ s.dev.up = true ∧ s.dev.unheld = true ∧ (let d := s.dev
    (let found := d.decodesNow adapter target slot tensor block
    (∃ ok : Bool, (wgK found).1 = 2))))) := by
  refine ⟨?_, ?_, ?_⟩ <;> decide +kernel

/-- The hypotheses of TraceStore, clause by clause. -/
theorem test_TraceStore_hypotheses :
  (let r : Nat := 3; let data : Word := 0; let s : State := (st {base with ob := {trc := [(3, {state := .capturing, wrPtr := 262143, count := 262143, queue := [(4, traceBytes 5 3 []), (1, [])]})]}});
    (r < 4 ∧ s.dev.up = true ∧ s.dev.rf.armed = [] ∧ (let d := s.dev
    (let p := trcPage r
    (let t := d.trc r
    (let ctrl := d.reg (p + 0x04)
    (let mode := fieldOf ctrl 2 1
    (let src := (t.queue.headD (0, [])).1
    (let bs := (t.queue.headD (0, [])).2
    (let rest := t.queue.tail
    d.unheld = true ∧ t.queue = (src, bs) :: rest ∧ t.state = .capturing ∧ mode ≠ 2 ∧ fieldAt bs 8 1 ≠ 0x21 ∧ look t.drops src 0 = 0))))))))) ∧
    (r < 4 ∧ s.dev.up = true ∧ s.dev.rf.armed = [] ∧ (let d := s.dev
    (let p := trcPage r
    (let ctrl := d.reg (p + 0x04)
    d.accepts 0 = true ∧ ((bitOf data 0 = false ∨ bitOf ctrl 0 = true))))))) ∧
  (let r : Nat := 3; let data : Word := 5; let s : State := (st ((base.withReg (trcPage 3 + 0x4C) 262144).withReg (trcPage 3 + 0x50) 1));
    (r < 4 ∧ s.dev.up = true ∧ s.dev.rf.armed = [] ∧ (let d := s.dev
    (let t := d.trc r
    t.queue = []))) ∧
    (r < 4 ∧ s.dev.up = true ∧ s.dev.rf.armed = [] ∧ (let d := s.dev
    d.accepts 0 = true ∧ bitOf data 0 = true)) ∧
    (r < 4 ∧ s.dev.up = true ∧ s.dev.rf.armed = [] ∧ (let d := s.dev
    (let p := trcPage r
    (let ctrl := d.reg (p + 0x04)
    (let mode := fieldOf ctrl 2 1
    (let new := if bitOf ctrl 0 || fieldOf data 2 1 = 3 then mode else fieldOf data 2 1
    (let pre := fieldOf (d.reg (p + 0x4C)) 18 0
    (let post := fieldOf (d.reg (p + 0x50)) 18 0
    d.accepts 0 = true ∧ bitOf data 0 = true ∧ (new = 2 ∧ 262144 < pre + post))))))))) ∧
    (r < 4 ∧ s.dev.up = true ∧ s.dev.rf.armed = [] ∧ (let d := s.dev
    (let p := trcPage r
    d.accepts 0 = true ∧ bitOf data 0 = true ∧ bitOf (d.reg (p + 0x44)) 0 = false)))) ∧
  (let r : Nat := 3; let data : Word := 5; let s : State := (st ((base.withReg (trcPage 3 + 0x4C) 262144).withReg (trcPage 3 + 0x50) 1));
    (r < 4 ∧ s.dev.up = true ∧ s.dev.rf.armed = [] ∧ (let d := s.dev
    (let p := trcPage r
    (let ctrl := d.reg (p + 0x04)
    d.accepts 0 = true ∧ bitOf data 0 = true ∧ bitOf ctrl 0 = false)))) ∧
    (r < 4 ∧ s.dev.up = true ∧ s.dev.rf.armed = [] ∧ (let d := s.dev
    (let t := d.trc r
    t.dumping = false)))) ∧
  (let r : Nat := 3; let data : Word := 1; let s : State := (st {base.withReg (trcPage 3 + 0x44) 1 with ob := {trc := [(3, {state := .capturing})]}});
    (r < 4 ∧ s.dev.up = true ∧ s.dev.rf.armed = [] ∧ (let d := s.dev
    (let p := trcPage r
    (let t := d.trc r
    d.accepts 0 = true ∧ bitOf data 0 = true ∧ bitOf (d.reg (p + 0x44)) 0 = true ∧ d.unheld = true ∧ t.state = .capturing ∧ t.queue = [] ∧ t.drops = []))))) ∧
  (let r : Nat := 3; let s : State := (st {base.withReg (trcPage 3 + 0x88) 0x3000 with ob := {trc := [(3, {dumping := true, count := 1, wrPtr := 1})], trace := [(3*262144, traceBytes 5 3 [])]}});
    (r < 4 ∧ s.dev.up = true ∧ s.dev.rf.armed = [] ∧ (let d := s.dev
    (let t := d.trc r
    t.dumping = true ∧ ((∀ i ∈ d.captured r, look d.ob.trace (r * 262144 + i) [] ≠ [] ∧ t.bad.contains i = false)))))) := by
  refine ⟨?_, ?_, ?_, ?_, ?_⟩ <;> decide +kernel

/-- The hypotheses of MicroprogramStore, clause by clause. -/
theorem test_MicroprogramStore_hypotheses :
  (let index : Nat := 64; let region : Nat := 0; let s : State := (st {base with sfu := {commands := [(1, 63, 0, 0)]}});
    (64 ≤ index ∧ index < 256 ∧ region < 4 ∧ s.dev.up = true ∧ (let d := s.dev
    (let C := d.sfu.commands.headD (0,0,0,0)
    (let op := C.1
    (let named := C.2.1
    (let addr := C.2.2.1
    (let len := C.2.2.2
    (let later := d.sfu.commands.tail
    d.sfu.commands = (op, named, addr, len) :: later ∧ op = 1 ∧ named < 64))))))))) ∧
  (let index : Nat := 64; let region : Nat := 0; let s : State := (st {base with sfu := {commands := [(2, 63, 0, 0)]}});
    (64 ≤ index ∧ index < 256 ∧ region < 4 ∧ s.dev.up = true ∧ (let d := s.dev
    (let C := d.sfu.commands.headD (0,0,0,0)
    (let op := C.1
    (let named := C.2.1
    (let addr := C.2.2.1
    (let len := C.2.2.2
    (let later := d.sfu.commands.tail
    d.sfu.commands = (op, named, addr, len) :: later ∧ op = 2 ∧ named < 64))))))))) ∧
  (let index : Nat := 64; let region : Nat := 0; let s : State := (st {base with sfu := {fns := [(64, {state := .active})], commands := [(1, 64, 0, 0)]}});
    (64 ≤ index ∧ index < 256 ∧ region < 4 ∧ s.dev.up = true ∧ (let d := s.dev
    (let C := d.sfu.commands.headD (0,0,0,0)
    (let op := C.1
    (let named := C.2.1
    (let addr := C.2.2.1
    (let len := C.2.2.2
    (let later := d.sfu.commands.tail
    d.sfu.commands = (op, named, addr, len) :: later ∧ op = 1 ∧ 64 ≤ named ∧ (d.fn named).state ≠ .free))))))))) ∧
  (let index : Nat := 64; let region : Nat := 0; let s : State := (st {base with sfu := {fns := [(65, {state := .active})], commands := [(2, 64, 0, 0)]}});
    (64 ≤ index ∧ index < 256 ∧ region < 4 ∧ s.dev.up = true ∧ (let d := s.dev
    (let C := d.sfu.commands.headD (0,0,0,0)
    (let op := C.1
    (let named := C.2.1
    (let addr := C.2.2.1
    (let len := C.2.2.2
    (let later := d.sfu.commands.tail
    d.sfu.commands = (op, named, addr, len) :: later ∧ op = 2 ∧ 64 ≤ named ∧ (d.fn named).state ≠ .active))))))))) ∧
  (let index : Nat := 64; let region : Nat := 0; let s : State := (st {base with sfu := {commands := [(1, 64, 0x1000, 72), (2, 64, 0, 0)]}});
    (64 ≤ index ∧ index < 256 ∧ region < 4 ∧ s.dev.up = true ∧ (let d := s.dev
    (let C := d.sfu.commands.headD (0,0,0,0)
    (let op := C.1
    (let named := C.2.1
    (let addr := C.2.2.1
    (let len := C.2.2.2
    (let later := d.sfu.commands.tail
    d.sfu.commands = (op, named, addr, len) :: later ∧ op = 1 ∧ 64 ≤ named ∧ (d.fn named).state = .free))))))))) ∧
  (let index : Nat := 64; let region : Nat := 0; let s : State := (st {base with sfu := {fns := [(255, {state := .active, refs := 1, steps := [4]})], commands := [(2, 255, 0x1000, 72), (2, 64, 0, 0)]}});
    (64 ≤ index ∧ index < 256 ∧ region < 4 ∧ s.dev.up = true ∧ (let d := s.dev
    (let C := d.sfu.commands.headD (0,0,0,0)
    (let op := C.1
    (let named := C.2.1
    (let addr := C.2.2.1
    (let len := C.2.2.2
    (let later := d.sfu.commands.tail
    d.sfu.commands = (op, named, addr, len) :: later ∧ op = 2 ∧ 64 ≤ named ∧ (d.fn named).state = .active ∧ (d.fn named).refs ≠ 0 ∧ ((∀ p ∈ d.sfu.fns, p.2.state ≠ .retiring))))))))))) ∧
  (let index : Nat := 64; let region : Nat := 0; let s : State := (st {base with sfu := {fns := [(255, {state := .active, refs := 0, steps := [4]})], commands := [(2, 255, 0x1000, 72), (2, 64, 0, 0)]}});
    (64 ≤ index ∧ index < 256 ∧ region < 4 ∧ s.dev.up = true ∧ (let d := s.dev
    (let C := d.sfu.commands.headD (0,0,0,0)
    (let op := C.1
    (let named := C.2.1
    (let addr := C.2.2.1
    (let len := C.2.2.2
    (let later := d.sfu.commands.tail
    d.sfu.commands = (op, named, addr, len) :: later ∧ op = 2 ∧ 64 ≤ named ∧ (d.fn named).state = .active ∧ (d.fn named).refs = 0 ∧ ((∀ p ∈ d.sfu.fns, p.2.state ≠ .retiring))))))))))) ∧
  (let index : Nat := 255; let region : Nat := 3; let s : State := (st {base with sfu := {fns := [(255, {state := .loading})], loads := [(255, 0x1001, 72)], rewrite := [(3, 255)]}});
    (64 ≤ index ∧ index < 256 ∧ region < 4 ∧ s.dev.up = true ∧ (let d := s.dev
    (d.sfu.commands.head?.map (·.1)) ≠ some 1)) ∧
    (64 ≤ index ∧ index < 256 ∧ region < 4 ∧ s.dev.up = true ∧ (let d := s.dev
    (d.sfu.commands.head?.map (·.1)) ≠ some 2)) ∧
    (64 ≤ index ∧ index < 256 ∧ region < 4 ∧ s.dev.up = true ∧ (let d := s.dev
    (let addr := ((d.sfu.loads.find? (·.1 = index)).getD (0,0,0)).2.1
    (let len := ((d.sfu.loads.find? (·.1 = index)).getD (0,0,0)).2.2
    d.sfu.loads.find? (·.1 = index) = some (index, addr, len) ∧ (d.fn index).state = .loading ∧ (addr % 64 ≠ 0 ∨ populatedRange addr len = false))))) ∧
    (64 ≤ index ∧ index < 256 ∧ region < 4 ∧ s.dev.up = true)) ∧
  (let index : Nat := 255; let region : Nat := 3; let s : State := (st {base with mm := {base.mm with lineErr := [(64, .uncorrectable)]}, sfu := {fns := [(255, {state := .loading})], loads := [(255, 0x1000, 72)]}});
    (64 ≤ index ∧ index < 256 ∧ region < 4 ∧ s.dev.up = true ∧ (let d := s.dev
    (let addr := ((d.sfu.loads.find? (·.1 = index)).getD (0,0,0)).2.1
    (let len := ((d.sfu.loads.find? (·.1 = index)).getD (0,0,0)).2.2
    d.sfu.loads.find? (·.1 = index) = some (index, addr, len) ∧ (d.fn index).state = .loading ∧ addr % 64 = 0 ∧ populatedRange addr len = true ∧ (d.ueIn addr len).isSome = true))))) ∧
  (let index : Nat := 255; let region : Nat := 3; let s : State := (st {base with sfu := {fns := [(255, {state := .loading})], loads := [(255, 0x1000, 72)]}});
    (64 ≤ index ∧ index < 256 ∧ region < 4 ∧ s.dev.up = true ∧ (let d := s.dev
    (let addr := ((d.sfu.loads.find? (·.1 = index)).getD (0,0,0)).2.1
    (let len := ((d.sfu.loads.find? (·.1 = index)).getD (0,0,0)).2.2
    d.sfu.loads.find? (·.1 = index) = some (index, addr, len) ∧ (d.fn index).state = .loading ∧ (let b := d.bytesAt 0 addr len
    addr % 64 = 0 ∧ populatedRange addr len = true ∧ d.ueIn addr len = none ∧ readImage b = none)))))) ∧
  (let index : Nat := 255; let region : Nat := 3; let s : State := (imgState false);
    (64 ≤ index ∧ index < 256 ∧ region < 4 ∧ s.dev.up = true ∧ (let d := s.dev
    (let addr := ((d.sfu.loads.find? (·.1 = index)).getD (0,0,0)).2.1
    (let len := ((d.sfu.loads.find? (·.1 = index)).getD (0,0,0)).2.2
    d.sfu.loads.find? (·.1 = index) = some (index, addr, len) ∧ (d.fn index).state = .loading ∧ (let b := d.bytesAt 0 addr len
    (let f := (readImage b).getD {}
    addr % 64 = 0 ∧ populatedRange addr len = true ∧ d.ueIn addr len = none ∧ readImage b = some f ∧ sha384 (b.take 16 ++ (b.drop 64).take (8 * f.steps.length)) ≠ f.digest))))))) ∧
  (let index : Nat := 255; let region : Nat := 3; let s : State := (imgState true);
    (64 ≤ index ∧ index < 256 ∧ region < 4 ∧ s.dev.up = true ∧ (let d := s.dev
    (let addr := ((d.sfu.loads.find? (·.1 = index)).getD (0,0,0)).2.1
    (let len := ((d.sfu.loads.find? (·.1 = index)).getD (0,0,0)).2.2
    d.sfu.loads.find? (·.1 = index) = some (index, addr, len) ∧ (d.fn index).state = .loading ∧ (let b := d.bytesAt 0 addr len
    (let f := (readImage b).getD {}
    addr % 64 = 0 ∧ populatedRange addr len = true ∧ d.ueIn addr len = none ∧ readImage b = some f ∧ sha384 (b.take 16 ++ (b.drop 64).take (8 * f.steps.length)) = f.digest))))))) := by
  refine ⟨?_, ?_, ?_, ?_, ?_, ?_, ?_, ?_, ?_, ?_, ?_, ?_⟩ <;> decide +kernel

/-- The hypotheses of CensusOperations, clause by clause. -/
theorem test_CensusOperations_hypotheses :
  (let e : Nat := 0; let k : Nat := 0; let s : State := (cenS false 0 cz {kind := 1} ); let c : Cmd := (cenC {kind := 1}); let op : CensusOp := {kind := 1}; let rest : List CensusOp := [];
    (e < 32 ∧ k < 8 ∧ s.dev.up = true ∧ s.dev.unheld = true ∧ s.dev.rf.armed = [] ∧ s.dev.mm.lineErr = [] ∧ (s.dev.slot e k).cur = some c ∧ c.asked = op :: rest ∧ (s.dev.slot (sentEngine e) k).cur = none ∧ (let rows : List (Instr × Nat) := [(.alloc e k, 1), (.commit e k, 2), (.lease e k, 3), (.unlease e k, 4), (.share e k, 5), (.drop e k, 6), (.lookup e k, 7)]
    (∃ p ∈ rows, op.kind ≠ p.2))) ∧
    (e < 32 ∧ k < 8 ∧ s.dev.up = true ∧ s.dev.unheld = true ∧ s.dev.rf.armed = [] ∧ s.dev.mm.lineErr = [] ∧ (s.dev.slot e k).cur = some c ∧ c.asked = op :: rest ∧ (s.dev.slot (sentEngine e) k).cur = none ∧ (let d := s.dev
    (let rows : List (Instr × Nat) := [(.alloc e k, 1), (.commit e k, 2), (.lease e k, 3), (.unlease e k, 4), (.share e k, 5), (.drop e k, 6), (.lookup e k, 7)]
    (∃ p ∈ rows, op.kind = p.2 ∧ d.kvOn op.region = false ∧ op.page ≠ pageNone ∧ p.2 ≠ 6))))) ∧
  (let e : Nat := 0; let k : Nat := 0; let s : State := (cenS true 0 cz {kind := 1} ); let c : Cmd := (cenC {kind := 1}); let op : CensusOp := {kind := 1}; let rest : List CensusOp := [];
    (e < 32 ∧ k < 8 ∧ s.dev.up = true ∧ s.dev.unheld = true ∧ s.dev.rf.armed = [] ∧ s.dev.mm.lineErr = [] ∧ (s.dev.slot e k).cur = some c ∧ c.asked = op :: rest ∧ (s.dev.slot (sentEngine e) k).cur = none ∧ (let d := s.dev
    op.kind = 1 ∧ d.kvOn op.region = true ∧ ((∀ t ∈ d.allocTiers op.region op.prefer, d.freeCount op.region t = 0))))) ∧
  (let e : Nat := 0; let k : Nat := 0; let s : State := (cenS true 1 cz {kind := 1, keySlot := 9} ); let c : Cmd := (cenC {kind := 1, keySlot := 9}); let op : CensusOp := {kind := 1, keySlot := 9}; let rest : List CensusOp := [];
    (e < 32 ∧ k < 8 ∧ s.dev.up = true ∧ s.dev.unheld = true ∧ s.dev.rf.armed = [] ∧ s.dev.mm.lineErr = [] ∧ (s.dev.slot e k).cur = some c ∧ c.asked = op :: rest ∧ (s.dev.slot (sentEngine e) k).cur = none ∧ (let d := s.dev
    (let current (r j : Nat) : Prop := (d.census r j).decayed (d.pool r).decay = d.census r j
    (let t := ((d.allocTiers op.region op.prefer).find? (fun t => d.freeCount op.region t ≠ 0)).getD 0
    op.kind = 1 ∧ d.kvOn op.region = true ∧ ((d.allocTiers op.region op.prefer).find? (fun t => d.freeCount op.region t ≠ 0) = some t) ∧ (let off := kvpPage op.region + freeOff t
    (let p := d.numAt 0 (d.ringAddr op.region t (d.regN (off + 0x8))) 4
    (let free := d.census op.region (pageIndex p)
    pageRegion p = op.region ∧ pageIndex p < d.kvLen op.region ∧ current op.region (pageIndex p) ∧ free.refcnt = 0 ∧ free.flags = 0)))))))) ∧
  (let e : Nat := 0; let k : Nat := 0; let s : State := (cenS true 0 cz {kind := 2, page := 5, page2 := 1, entry := .mem 0x300000 0} ); let c : Cmd := (cenC {kind := 2, page := 5, page2 := 1, entry := .mem 0x300000 0}); let op : CensusOp := {kind := 2, page := 5, page2 := 1, entry := .mem 0x300000 0}; let rest : List CensusOp := []; let pa : Nat := 0x300000; let ks : Nat := 0;
    (e < 32 ∧ k < 8 ∧ s.dev.up = true ∧ s.dev.unheld = true ∧ s.dev.rf.armed = [] ∧ s.dev.mm.lineErr = [] ∧ (s.dev.slot e k).cur = some c ∧ c.asked = op :: rest ∧ (s.dev.slot (sentEngine e) k).cur = none ∧ (let d := s.dev
    (let now := d.numAt ks pa 4
    (let current (r j : Nat) : Prop := (d.census r j).decayed (d.pool r).decay = d.census r j
    op.kind = 2 ∧ op.entry = .mem pa ks ∧ d.kvOn op.region = true ∧ pageRegion op.page2 = op.region ∧ current op.region (pageIndex op.page2) ∧ now = op.page2 ∧ op.page ≠ op.page2))))) ∧
  (let e : Nat := 0; let k : Nat := 0; let s : State := (cenS true 0 {cz with refcnt := 1, flags := 4, owner := 3} {kind := 2, page := 0xFFFFFFFF, page2 := 1, entry := .mem 0x300100 0} ); let c : Cmd := (cenC {kind := 2, page := 0xFFFFFFFF, page2 := 1, entry := .mem 0x300100 0}); let op : CensusOp := {kind := 2, page := 0xFFFFFFFF, page2 := 1, entry := .mem 0x300100 0}; let rest : List CensusOp := []; let pa : Nat := 0x300100; let ks : Nat := 0;
    (e < 32 ∧ k < 8 ∧ s.dev.up = true ∧ s.dev.unheld = true ∧ s.dev.rf.armed = [] ∧ s.dev.mm.lineErr = [] ∧ (s.dev.slot e k).cur = some c ∧ c.asked = op :: rest ∧ (s.dev.slot (sentEngine e) k).cur = none ∧ (let d := s.dev
    (let now := d.numAt ks pa 4
    (let current (r j : Nat) : Prop := (d.census r j).decayed (d.pool r).decay = d.census r j
    op.kind = 2 ∧ op.entry = .mem pa ks ∧ d.kvOn op.region = true ∧ pageRegion op.page2 = op.region ∧ current op.region (pageIndex op.page2) ∧ now = op.page ∧ op.page = pageNone ∧ (d.census op.region (pageIndex op.page2)).refcnt ≠ 0))))) ∧
  (let e : Nat := 0; let k : Nat := 0; let s : State := (cenS true 0 {cz with refcnt := 1, flags := 1} {kind := 3, page := 1} ); let c : Cmd := (cenC {kind := 3, page := 1}); let op : CensusOp := {kind := 3, page := 1}; let rest : List CensusOp := [];
    (e < 32 ∧ k < 8 ∧ s.dev.up = true ∧ s.dev.unheld = true ∧ s.dev.rf.armed = [] ∧ s.dev.mm.lineErr = [] ∧ (s.dev.slot e k).cur = some c ∧ c.asked = op :: rest ∧ (s.dev.slot (sentEngine e) k).cur = none ∧ (let d := s.dev
    (let i := pageIndex op.page
    (let cen := d.census op.region i
    (let current (r j : Nat) : Prop := (d.census r j).decayed (d.pool r).decay = d.census r j
    op.kind = 3 ∧ d.kvOn op.region = true ∧ current op.region i ∧ cen.migrating = true)))))) ∧
  (let e : Nat := 0; let k : Nat := 0; let s : State := (cenS true 0 {cz with refcnt := 1, flags := 0} {kind := 3, page := 1} ); let c : Cmd := (cenC {kind := 3, page := 1}); let op : CensusOp := {kind := 3, page := 1}; let rest : List CensusOp := [];
    (e < 32 ∧ k < 8 ∧ s.dev.up = true ∧ s.dev.unheld = true ∧ s.dev.rf.armed = [] ∧ s.dev.mm.lineErr = [] ∧ (s.dev.slot e k).cur = some c ∧ c.asked = op :: rest ∧ (s.dev.slot (sentEngine e) k).cur = none ∧ (let d := s.dev
    (let i := pageIndex op.page
    (let cen := d.census op.region i
    (let current (r j : Nat) : Prop := (d.census r j).decayed (d.pool r).decay = d.census r j
    op.kind = 3 ∧ d.kvOn op.region = true ∧ current op.region i ∧ cen.migrating = false)))))) ∧
  (let e : Nat := 0; let k : Nat := 0; let s : State := (cenS true 0 {cz with refcnt := 1, flags := 2, owner := 4} {kind := 4, page := 1} ); let c : Cmd := (cenC {kind := 4, page := 1}); let op : CensusOp := {kind := 4, page := 1}; let rest : List CensusOp := [];
    (e < 32 ∧ k < 8 ∧ s.dev.up = true ∧ s.dev.unheld = true ∧ s.dev.rf.armed = [] ∧ s.dev.mm.lineErr = [] ∧ (s.dev.slot e k).cur = some c ∧ c.asked = op :: rest ∧ (s.dev.slot (sentEngine e) k).cur = none ∧ (let d := s.dev
    (let i := pageIndex op.page
    (let current (r j : Nat) : Prop := (d.census r j).decayed (d.pool r).decay = d.census r j
    op.kind = 4 ∧ d.kvOn op.region = true ∧ current op.region i))))) ∧
  (let e : Nat := 0; let k : Nat := 0; let s : State := (cenS true 0 {cz with refcnt := 1} {kind := 5, page := 0xFFFFFFFF, entry := .mem 0x300100 0} ); let c : Cmd := (cenC {kind := 5, page := 0xFFFFFFFF, entry := .mem 0x300100 0}); let op : CensusOp := {kind := 5, page := 0xFFFFFFFF, entry := .mem 0x300100 0}; let rest : List CensusOp := []; let pa : Nat := 0x300100; let ks : Nat := 0;
    (e < 32 ∧ k < 8 ∧ s.dev.up = true ∧ s.dev.unheld = true ∧ s.dev.rf.armed = [] ∧ s.dev.mm.lineErr = [] ∧ (s.dev.slot e k).cur = some c ∧ c.asked = op :: rest ∧ (s.dev.slot (sentEngine e) k).cur = none ∧ (let d := s.dev
    (let now := d.numAt ks pa 4
    op.kind = 5 ∧ op.entry = .mem pa ks ∧ op.page = pageNone ∧ now = pageNone)))) ∧
  (let e : Nat := 0; let k : Nat := 0; let s : State := (cenS true 0 {cz with refcnt := 1} {kind := 5, page := 1, entry := .mem 0x300000 0} ); let c : Cmd := (cenC {kind := 5, page := 1, entry := .mem 0x300000 0}); let op : CensusOp := {kind := 5, page := 1, entry := .mem 0x300000 0}; let rest : List CensusOp := []; let pa : Nat := 0x300000; let ks : Nat := 0;
    (e < 32 ∧ k < 8 ∧ s.dev.up = true ∧ s.dev.unheld = true ∧ s.dev.rf.armed = [] ∧ s.dev.mm.lineErr = [] ∧ (s.dev.slot e k).cur = some c ∧ c.asked = op :: rest ∧ (s.dev.slot (sentEngine e) k).cur = none ∧ (let d := s.dev
    (let now := d.numAt ks pa 4
    op.kind = 5 ∧ op.entry = .mem pa ks ∧ op.page ≠ pageNone ∧ d.kvOn op.region = true ∧ now = op.page)))) ∧
  (let e : Nat := 0; let k : Nat := 0; let s : State := (cenS true 0 {cz with refcnt := 1} {kind := 5, page := 2, entry := .mem 0x300000 0} ); let c : Cmd := (cenC {kind := 5, page := 2, entry := .mem 0x300000 0}); let op : CensusOp := {kind := 5, page := 2, entry := .mem 0x300000 0}; let rest : List CensusOp := []; let pa : Nat := 0x300000; let ks : Nat := 0;
    (e < 32 ∧ k < 8 ∧ s.dev.up = true ∧ s.dev.unheld = true ∧ s.dev.rf.armed = [] ∧ s.dev.mm.lineErr = [] ∧ (s.dev.slot e k).cur = some c ∧ c.asked = op :: rest ∧ (s.dev.slot (sentEngine e) k).cur = none ∧ (let d := s.dev
    (let now := d.numAt ks pa 4
    op.kind = 5 ∧ op.entry = .mem pa ks ∧ op.page ≠ pageNone ∧ d.kvOn op.region = true ∧ now ≠ op.page ∧ now ≠ pageNone)))) ∧
  (let e : Nat := 0; let k : Nat := 0; let s : State := (cenS true 0 {cz with refcnt := 1} {kind := 5, page := 16, entry := .mem 0x300100 0} ); let c : Cmd := (cenC {kind := 5, page := 16, entry := .mem 0x300100 0}); let op : CensusOp := {kind := 5, page := 16, entry := .mem 0x300100 0}; let rest : List CensusOp := []; let pa : Nat := 0x300100; let ks : Nat := 0;
    (e < 32 ∧ k < 8 ∧ s.dev.up = true ∧ s.dev.unheld = true ∧ s.dev.rf.armed = [] ∧ s.dev.mm.lineErr = [] ∧ (s.dev.slot e k).cur = some c ∧ c.asked = op :: rest ∧ (s.dev.slot (sentEngine e) k).cur = none ∧ (let d := s.dev
    (let i := pageIndex op.page
    (let now := d.numAt ks pa 4
    op.kind = 5 ∧ op.entry = .mem pa ks ∧ op.page ≠ pageNone ∧ d.kvOn op.region = true ∧ now = pageNone ∧ d.kvLen op.region ≤ i))))) ∧
  (let e : Nat := 0; let k : Nat := 0; let s : State := (cenS true 0 {cz with refcnt := 0xFFFFFFFD} {kind := 5, page := 1, entry := .mem 0x300100 0} ); let c : Cmd := (cenC {kind := 5, page := 1, entry := .mem 0x300100 0}); let op : CensusOp := {kind := 5, page := 1, entry := .mem 0x300100 0}; let rest : List CensusOp := []; let pa : Nat := 0x300100; let ks : Nat := 0;
    (e < 32 ∧ k < 8 ∧ s.dev.up = true ∧ s.dev.unheld = true ∧ s.dev.rf.armed = [] ∧ s.dev.mm.lineErr = [] ∧ (s.dev.slot e k).cur = some c ∧ c.asked = op :: rest ∧ (s.dev.slot (sentEngine e) k).cur = none ∧ (let d := s.dev
    (let i := pageIndex op.page
    (let cen := d.census op.region i
    (let now := d.numAt ks pa 4
    (let current (r j : Nat) : Prop := (d.census r j).decayed (d.pool r).decay = d.census r j
    op.kind = 5 ∧ op.entry = .mem pa ks ∧ op.page ≠ pageNone ∧ d.kvOn op.region = true ∧ now = pageNone ∧ i < d.kvLen op.region ∧ current op.region i ∧ cen.refcnt ≠ 0 ∧ cen.refcnt + 1 ≤ 0xFFFFFFFE))))))) ∧
  (let e : Nat := 0; let k : Nat := 0; let s : State := (cenS true 0 {cz with refcnt := 1} {kind := 6, entry := .mem 0x300100 0} ); let c : Cmd := (cenC {kind := 6, entry := .mem 0x300100 0}); let op : CensusOp := {kind := 6, entry := .mem 0x300100 0}; let rest : List CensusOp := []; let pa : Nat := 0x300100; let ks : Nat := 0;
    (e < 32 ∧ k < 8 ∧ s.dev.up = true ∧ s.dev.unheld = true ∧ s.dev.rf.armed = [] ∧ s.dev.mm.lineErr = [] ∧ (s.dev.slot e k).cur = some c ∧ c.asked = op :: rest ∧ (s.dev.slot (sentEngine e) k).cur = none ∧ (let d := s.dev
    (let now := d.numAt ks pa 4
    op.kind = 6 ∧ op.entry = .mem pa ks ∧ now = pageNone)))) ∧
  (let e : Nat := 0; let k : Nat := 0; let s : State := (cenS true 0 {cz with refcnt := 2} {kind := 6, entry := .mem 0x300000 0} ); let c : Cmd := (cenC {kind := 6, entry := .mem 0x300000 0}); let op : CensusOp := {kind := 6, entry := .mem 0x300000 0}; let rest : List CensusOp := []; let pa : Nat := 0x300000; let ks : Nat := 0;
    (e < 32 ∧ k < 8 ∧ s.dev.up = true ∧ s.dev.unheld = true ∧ s.dev.rf.armed = [] ∧ s.dev.mm.lineErr = [] ∧ (s.dev.slot e k).cur = some c ∧ c.asked = op :: rest ∧ (s.dev.slot (sentEngine e) k).cur = none ∧ (let d := s.dev
    (let now := d.numAt ks pa 4
    (let current (r j : Nat) : Prop := (d.census r j).decayed (d.pool r).decay = d.census r j
    op.kind = 6 ∧ op.entry = .mem pa ks ∧ now ≠ pageNone ∧ d.kvOn (pageRegion now) = true ∧ pageIndex now < d.kvLen (pageRegion now) ∧ current (pageRegion now) (pageIndex now) ∧ 2 ≤ (d.census (pageRegion now) (pageIndex now)).refcnt))))) ∧
  (let e : Nat := 0; let k : Nat := 0; let s : State := (cenS true 0 {cz with refcnt := 2} {kind := 7, page := 16} ); let c : Cmd := (cenC {kind := 7, page := 16}); let op : CensusOp := {kind := 7, page := 16}; let rest : List CensusOp := [];
    (e < 32 ∧ k < 8 ∧ s.dev.up = true ∧ s.dev.unheld = true ∧ s.dev.rf.armed = [] ∧ s.dev.mm.lineErr = [] ∧ (s.dev.slot e k).cur = some c ∧ c.asked = op :: rest ∧ (s.dev.slot (sentEngine e) k).cur = none ∧ (let d := s.dev
    (let i := pageIndex op.page
    op.kind = 7 ∧ d.kvOn op.region = true ∧ d.kvLen op.region ≤ i)))) ∧
  (let e : Nat := 0; let k : Nat := 0; let s : State := (cenS true 0 {cz with refcnt := 2} {kind := 7, page := 1} [(1, 9)]); let c : Cmd := {(cenC {kind := 7, page := 1}) with looked := [(1, 9)]}; let op : CensusOp := {kind := 7, page := 1}; let rest : List CensusOp := [];
    (e < 32 ∧ k < 8 ∧ s.dev.up = true ∧ s.dev.unheld = true ∧ s.dev.rf.armed = [] ∧ s.dev.mm.lineErr = [] ∧ (s.dev.slot e k).cur = some c ∧ c.asked = op :: rest ∧ (s.dev.slot (sentEngine e) k).cur = none ∧ (let d := s.dev
    (let i := pageIndex op.page
    (let cen := d.census op.region i
    (let current (r j : Nat) : Prop := (d.census r j).decayed (d.pool r).decay = d.census r j
    op.kind = 7 ∧ d.kvOn op.region = true ∧ i < d.kvLen op.region ∧ current op.region i ∧ cen.refcnt ≠ 0 ∧ c.heated.contains op.page = false)))))) ∧
  (let e : Nat := 0; let k : Nat := 0; let s : State := (cenS true 0 {cz with refcnt := 2} {kind := 2, page := 1, page2 := 1, entry := .mem 0x300000 0} ); let c : Cmd := (cenC {kind := 2, page := 1, page2 := 1, entry := .mem 0x300000 0}); let op : CensusOp := {kind := 2, page := 1, page2 := 1, entry := .mem 0x300000 0}; let rest : List CensusOp := []; let pa : Nat := 0x300000; let ks : Nat := 0;
    (e < 32 ∧ k < 8 ∧ s.dev.up = true ∧ s.dev.unheld = true ∧ s.dev.rf.armed = [] ∧ s.dev.mm.lineErr = [] ∧ (s.dev.slot e k).cur = some c ∧ c.asked = op :: rest ∧ (s.dev.slot (sentEngine e) k).cur = none ∧ (let d := s.dev
    (let now := d.numAt ks pa 4
    (let current (r j : Nat) : Prop := (d.census r j).decayed (d.pool r).decay = d.census r j
    op.kind = 2 ∧ op.entry = .mem pa ks ∧ d.kvOn op.region = true ∧ pageRegion op.page2 = op.region ∧ current op.region (pageIndex op.page2) ∧ now = op.page ∧ op.page ≠ pageNone ∧ d.kvOn (pageRegion op.page) = true ∧ pageIndex op.page < d.kvLen (pageRegion op.page) ∧ current (pageRegion op.page) (pageIndex op.page) ∧ (d.census op.region (pageIndex op.page2)).refcnt ≠ 0 ∧ 2 ≤ (d.census (pageRegion op.page) (pageIndex op.page)).refcnt))))) ∧
  (let e : Nat := 0; let k : Nat := 0; let s : State := (cenS true 0 {cz with refcnt := 2} {kind := 2, page := 5, page2 := 7, entry := .mem 0x300000 0} ); let c : Cmd := (cenC {kind := 2, page := 5, page2 := 7, entry := .mem 0x300000 0}); let op : CensusOp := {kind := 2, page := 5, page2 := 7, entry := .mem 0x300000 0}; let rest : List CensusOp := []; let pa : Nat := 0x300000; let ks : Nat := 0;
    (e < 32 ∧ k < 8 ∧ s.dev.up = true ∧ s.dev.unheld = true ∧ s.dev.rf.armed = [] ∧ s.dev.mm.lineErr = [] ∧ (s.dev.slot e k).cur = some c ∧ c.asked = op :: rest ∧ (s.dev.slot (sentEngine e) k).cur = none ∧ (let d := s.dev
    (let now := d.numAt ks pa 4
    (let current (r j : Nat) : Prop := (d.census r j).decayed (d.pool r).decay = d.census r j
    op.kind = 2 ∧ op.entry = .mem pa ks ∧ d.kvOn op.region = true ∧ pageRegion op.page2 = op.region ∧ current op.region (pageIndex op.page2) ∧ now ≠ op.page ∧ now ≠ op.page2 ∧ (d.census op.region (pageIndex op.page2)).pending = false))))) ∧
  (let e : Nat := 0; let k : Nat := 0; let s : State := (cenS true 0 {cz with refcnt := 2} {kind := 6, page := 5, page2 := 7, entry := .host 0x3000} ); let c : Cmd := (cenC {kind := 6, page := 5, page2 := 7, entry := .host 0x3000}); let op : CensusOp := {kind := 6, page := 5, page2 := 7, entry := .host 0x3000}; let rest : List CensusOp := [];
    (e < 32 ∧ k < 8 ∧ s.dev.up = true ∧ s.dev.unheld = true ∧ s.dev.rf.armed = [] ∧ s.dev.mm.lineErr = [] ∧ (s.dev.slot e k).cur = some c ∧ c.asked = op :: rest ∧ (s.dev.slot (sentEngine e) k).cur = none ∧ (let d := s.dev
    (let rows : List (Instr × Nat) := [(.alloc e k, 1), (.commit e k, 2), (.lease e k, 3), (.unlease e k, 4), (.share e k, 5), (.drop e k, 6), (.lookup e k, 7)]
    (∃ p ∈ rows, op.kind = p.2 ∧ ((p.2 = 2 ∨ p.2 = 5 ∨ p.2 = 6)) ∧ d.kvOn op.region = true ∧ notMem op.entry = true ∧ (gotIsWait (d.readSegs (slotKey e k) (d.ownerOf (d.slot e k).ctx) [op.seg]) = true) ∧ d.entryBusy (slotKey e k) op = false))))) ∧
  (let e : Nat := 0; let k : Nat := 0; let s : State := (st (kvPart true 0 {cz with refcnt := 2} (base.withSlot 0 0 {state := .active, cur := some {asked := [{kind := 7, page := 1}], heated := [1]}}))); let c : Cmd := {asked := [{kind := 7, page := 1}], heated := [1]}; let op : CensusOp := {kind := 7, page := 1}; let rest : List CensusOp := [];
    (e < 32 ∧ k < 8 ∧ s.dev.up = true ∧ s.dev.unheld = true ∧ s.dev.rf.armed = [] ∧ s.dev.mm.lineErr = [] ∧ (s.dev.slot e k).cur = some c ∧ c.asked = op :: rest ∧ (s.dev.slot (sentEngine e) k).cur = none ∧ (let d := s.dev
    (let i := pageIndex op.page
    (let cen := d.census op.region i
    (let current (r j : Nat) : Prop := (d.census r j).decayed (d.pool r).decay = d.census r j
    op.kind = 7 ∧ d.kvOn op.region = true ∧ i < d.kvLen op.region ∧ current op.region i ∧ cen.refcnt ≠ 0 ∧ c.heated.contains op.page = true)))))) ∧
  (let e : Nat := 0; let k : Nat := 0; let s : State := (cenS true 0 cz {kind := 7, page := 1} ); let c : Cmd := (cenC {kind := 7, page := 1}); let op : CensusOp := {kind := 7, page := 1}; let rest : List CensusOp := [];
    (e < 32 ∧ k < 8 ∧ s.dev.up = true ∧ s.dev.unheld = true ∧ s.dev.rf.armed = [] ∧ s.dev.mm.lineErr = [] ∧ (s.dev.slot e k).cur = some c ∧ c.asked = op :: rest ∧ (s.dev.slot (sentEngine e) k).cur = none ∧ (let d := s.dev
    (let i := pageIndex op.page
    (let cen := d.census op.region i
    (let current (r j : Nat) : Prop := (d.census r j).decayed (d.pool r).decay = d.census r j
    op.kind = 7 ∧ d.kvOn op.region = true ∧ i < d.kvLen op.region ∧ current op.region i ∧ cen.refcnt = 0)))))) := by
  refine ⟨?_, ?_, ?_, ?_, ?_, ?_, ?_, ?_, ?_, ?_, ?_, ?_, ?_, ?_, ?_, ?_, ?_, ?_, ?_, ?_, ?_, ?_⟩ <;> decide +kernel

/-- The hypotheses of KvPools, clause by clause. -/
theorem test_KvPools_hypotheses :
  (let r : Nat := 3; let page : Nat := 0; let data : Word := 1; let s : State := (st (base.withReg (kvpPage 3 + 0x78) 1));
    (good s = true ∧ r < 4 ∧ s.dev.up = true ∧ s.dev.rf.armed = [] ∧ s.dev.mm.lineErr = [] ∧ (let d := s.dev
    (let p := kvpPage r
    (let log2 := fieldOf (d.reg (p + 0x4C)) 4 0
    (let full : Bool := 12 ≤ log2 && log2 ≤ 21 && d.freeCount r 0 = d.frames r 0 && d.freeCount r 1 = d.frames r 1 && d.kvLen r = d.frames r 0 + d.frames r 1
    d.accepts 0 = true ∧ bitOf data 0 = true ∧ d.kvOn r = false ∧ full = false))))) ∧
    (good s = true ∧ r < 4 ∧ s.dev.up = true ∧ s.dev.rf.armed = [] ∧ s.dev.mm.lineErr = [] ∧ (let d := s.dev
    (let x := d.pool r
    ((d.kvOn r = false ∨ x.period = 0))))) ∧
    (good s = true ∧ r < 4 ∧ s.dev.up = true ∧ s.dev.rf.armed = [] ∧ s.dev.mm.lineErr = [] ∧ (let d := s.dev
    (let x := d.pool r
    (let starts : Bool := d.unheld && d.migrates r && x.promo.head? = some page && x.migs.length < d.migMax r
    starts = false)))) ∧
    (good s = true ∧ r < 4 ∧ s.dev.up = true ∧ s.dev.rf.armed = [] ∧ s.dev.mm.lineErr = [] ∧ (let d := s.dev
    (let p := kvpPage r
    ((d.migrates r = false ∨ d.regN (p + 0x9C) ≤ d.freeCount r 0)))))) ∧
  (let r : Nat := 3; let page : Nat := 0; let s : State := (st (base.withReg (kvpPage 3 + 0x78) 1));
    (good s = true ∧ r < 4 ∧ s.dev.up = true ∧ s.dev.rf.armed = [] ∧ s.dev.mm.lineErr = [] ∧ (let d := s.dev
    (let x := d.pool r
    ((∀ m ∈ x.migs, m.page ≠ page)))))) ∧
  (let r : Nat := 3; let data : Word := 1; let s : State := (st (base.withReg (kvpPage 3 + 4) 1));
    (good s = true ∧ r < 4 ∧ s.dev.up = true ∧ s.dev.rf.armed = [] ∧ s.dev.mm.lineErr = [] ∧ (let d := s.dev
    d.accepts 0 = true ∧ bitOf data 0 = true ∧ d.kvOn r = true))) ∧
  (let r : Nat := 3; let data : Word := 1; let s : State := (st (base.withReg (kvpPage 3 + 8) 7));
    (good s = true ∧ r < 4 ∧ s.dev.up = true ∧ s.dev.rf.armed = [] ∧ s.dev.mm.lineErr = [] ∧ (let d := s.dev
    (let p := kvpPage r
    (let log2 := fieldOf (d.reg (p + 0x4C)) 4 0
    (let full : Bool := 12 ≤ log2 && log2 ≤ 21 && d.freeCount r 0 = d.frames r 0 && d.freeCount r 1 = d.frames r 1 && d.kvLen r = d.frames r 0 + d.frames r 1
    d.accepts 0 = true ∧ bitOf data 0 = true ∧ d.kvOn r = false ∧ full = true)))))) ∧
  (let r : Nat := 0; let page : Nat := 1; let data : Word := 0; let s : State := (kvS {cz with refcnt := 1, frame := 0} 0x10 {promo := [1], period := 3});
    (good s = true ∧ r < 4 ∧ s.dev.up = true ∧ s.dev.rf.armed = [] ∧ s.dev.mm.lineErr = [] ∧ (let d := s.dev
    d.accepts 0 = true ∧ bitOf data 0 = false)) ∧
    (good s = true ∧ r < 4 ∧ s.dev.up = true ∧ s.dev.rf.armed = [] ∧ s.dev.mm.lineErr = [] ∧ (let d := s.dev
    (let x := d.pool r
    d.unheld = true ∧ d.kvOn r = true ∧ x.period ≠ 0))) ∧
    (good s = true ∧ r < 4 ∧ s.dev.up = true ∧ s.dev.rf.armed = [] ∧ s.dev.mm.lineErr = [] ∧ (let d := s.dev
    (let x := d.pool r
    (let cen := d.census r (pageIndex page)
    (let current (i : Nat) : Prop := (d.census r i).decayed (d.pool r).decay = d.census r i
    (let starts : Bool := d.unheld && d.migrates r && x.promo.head? = some page && x.migs.length < d.migMax r
    starts = true ∧ { x with promo := x.promo.drop 1 } ≠ {} ∧ current (pageIndex page) ∧ ((cen.refcnt = 0 ∨ frameTier cen.frame = 0 ∨ cen.flags ≠ 0 ∨ d.freeCount r 0 = 0))))))))) ∧
  (let r : Nat := 0; let page : Nat := 1; let s : State := (kvS {cz with refcnt := 1, frame := 0x80000000} 0x10 {promo := [1], period := 3});
    (good s = true ∧ r < 4 ∧ s.dev.up = true ∧ s.dev.rf.armed = [] ∧ s.dev.mm.lineErr = [] ∧ (let d := s.dev
    (let p := kvpPage r
    (let x := d.pool r
    (let cen := d.census r (pageIndex page)
    (let current (i : Nat) : Prop := (d.census r i).decayed (d.pool r).decay = d.census r i
    (let pop (tier : Nat) := d.numAt 0 (d.ringAddr r tier (d.regN (p + freeOff tier + 0x8))) 4
    (let poppable (tier : Nat) : Prop := d.freeCount r tier ≠ 0 ∧ pageRegion (pop tier) = r ∧ pageIndex (pop tier) < d.kvLen r ∧ current (pageIndex (pop tier)) ∧
    (d.census r (pageIndex (pop tier))).refcnt = 0 ∧ (d.census r (pageIndex (pop tier))).flags = 0
    (let starts : Bool := d.unheld && d.migrates r && x.promo.head? = some page && x.migs.length < d.migMax r
    starts = true ∧ { x with promo := x.promo.drop 1 } ≠ {} ∧ current (pageIndex page) ∧ cen.refcnt ≠ 0 ∧ frameTier cen.frame = 1 ∧ cen.flags = 0 ∧ poppable 0)))))))))) ∧
  (let r : Nat := 0; let s : State := (st ((kvS {cz with refcnt := 1, frame := 0} 0x10 {period := 3}).dev.withReg (kvpPage 0 + 0xA0) 0x10));
    (good s = true ∧ r < 4 ∧ s.dev.up = true ∧ s.dev.rf.armed = [] ∧ s.dev.mm.lineErr = [] ∧ (let d := s.dev
    (let p := kvpPage r
    (let x := d.pool r
    (let n := d.kvLen r - 1
    d.unheld = true ∧ d.migrates r = true ∧ d.freeCount r 0 < d.regN (p + 0x9C) ∧ d.kvLen r = n + 1 ∧ x.migs.length < d.migMax r ∧ d.freeCount r 0 < d.regN (p + 0xA0))))))) ∧
  (let r : Nat := 0; let page : Nat := 1; let s : State := (kvS {cz with refcnt := 1, frame := 0x80000000, flags := 1} 0x10 {migs := [⟨1, 3, true⟩], period := 3, lens := [(1, 128)]});
    (good s = true ∧ r < 4 ∧ s.dev.up = true ∧ s.dev.rf.armed = [] ∧ s.dev.mm.lineErr = [] ∧ (let d := s.dev
    (let x := d.pool r
    (let current (i : Nat) : Prop := (d.census r i).decayed (d.pool r).decay = d.census r i
    (let m := (x.migs.find? (·.page = page)).getD {}
    d.kvOn r = true ∧ x.migs.find? (·.page = page) = some m ∧ current (pageIndex m.page) ∧ current (pageIndex m.other) ∧ (d.census r (pageIndex m.page)).migrating = true ∧ { x with migs := x.migs.erase m } ≠ {})))))) := by
  refine ⟨?_, ?_, ?_, ?_, ?_, ?_, ?_, ?_⟩ <;> decide +kernel

/-- The hypotheses of BoundariesAndWeights (CommandBoundaries), clause by clause. -/
theorem test_CommandBoundaries_hypotheses :
  (let e : Nat := 31; let r : Nat := 3; let s : State := (st {base with ob := {gong := {state := .stopped}}});
    (good s = true ∧ e < 32 ∧ r < 4 ∧ s.dev.up = true ∧ s.dev.rf.armed = [] ∧ s.dev.mm.lineErr = [] ∧ (let d := s.dev
    d.unheld = false))) ∧
  (let e : Nat := 31; let r : Nat := 3; let s : State := (st {base with wt := {epochs := [(3, {state := .ready, wait := [(31, 0), (2, 5)]})], adapters := [(4095, {wait := [(31, 0), (1, 1)]})]}});
    (good s = true ∧ e < 32 ∧ r < 4 ∧ s.dev.up = true ∧ s.dev.rf.armed = [] ∧ s.dev.mm.lineErr = [] ∧ (let d := s.dev
    d.unheld = true ∧ (let drop (p : Nat × Loaded) : Nat × Loaded := (p.1, { p.2 with wait := p.2.wait.filter fun q => !(q.1 = e && d.passedBoundary e q.2) })
    (let quiet : Prop := ∀ p ∈ d.wt.epochs ++ d.wt.adapters, (drop p).2.done = false
    (let owes : Bool := d.wt.refMsgs.any fun m => m.1 = e && m.2.2.2
    ((∀ i : Nat, i < 4 → d.kvOn i = false)) ∧ owes = false ∧ quiet)))))) ∧
  (let e : Nat := 31; let r : Nat := 3; let s : State := (st {base with wt := {refMsgs := [(31, 1, 1, true)]}});
    (good s = true ∧ e < 32 ∧ r < 4 ∧ s.dev.up = true ∧ s.dev.rf.armed = [] ∧ s.dev.mm.lineErr = [] ∧ (let d := s.dev
    d.unheld = true ∧ (let owes : Bool := d.wt.refMsgs.any fun m => m.1 = e && m.2.2.2
    ((∀ i : Nat, i < 4 → d.kvOn i = false)) ∧ owes = true)))) ∧
  (let e : Nat := 31; let r : Nat := 0; let page : Nat := 1; let n : Nat := 4; let s : State := (st {((kvS {cz with refcnt := 0} 0 {quar := [⟨1, [(31, 4)]⟩], period := 3}).dev.withEng 31 {boundary := 5}) with wt := {refMsgs := [(31, 1, 1, true)]}});
    (good s = true ∧ e < 32 ∧ r < 4 ∧ s.dev.up = true ∧ s.dev.rf.armed = [] ∧ s.dev.mm.lineErr = [] ∧ (let d := s.dev
    d.unheld = true ∧ (let owes : Bool := d.wt.refMsgs.any fun m => m.1 = e && m.2.2.2
    ((∀ i : Nat, i < 4 → d.kvOn i = (i == r))) ∧ owes = true ∧ (d.pool r).quar = [⟨page, [(e, n)]⟩] ∧ d.passedBoundary e n = true ∧ { d.pool r with quar := [] } ≠ {} ∧ (d.census r (pageIndex page)).decayed (d.pool r).decay = d.census r (pageIndex page))))) ∧
  (let e : Nat := 31; let r : Nat := 0; let page : Nat := 1; let n : Nat := 4; let s : State := (st {((kvS {cz with refcnt := 0} 0 {quar := [⟨1, [(31, 4)]⟩], period := 3}).dev.withEng 31 {boundary := 4, run := some 0}) with wt := {refMsgs := [(31, 1, 1, true)]}});
    (good s = true ∧ e < 32 ∧ r < 4 ∧ s.dev.up = true ∧ s.dev.rf.armed = [] ∧ s.dev.mm.lineErr = [] ∧ (let d := s.dev
    d.unheld = true ∧ (let owes : Bool := d.wt.refMsgs.any fun m => m.1 = e && m.2.2.2
    ((∀ i : Nat, i < 4 → d.kvOn i = (i == r))) ∧ owes = true ∧ (d.pool r).quar = [⟨page, [(e, n)]⟩] ∧ d.passedBoundary e n = false)))) := by
  refine ⟨?_, ?_, ?_, ?_, ?_⟩ <;> decide +kernel

/-- The hypotheses of BoundariesAndWeights (WeightReferences), clause by clause. -/
theorem test_WeightReferences_hypotheses :
  (let set : Nat := 255; let k : Nat := 1; let e : Nat := 31; let q : Nat := 7; let m : Nat × Nat × Nat × Bool := (0,0,0,false); let data : Word := 0; let s : State := (st (base.withReg (wgtPage + 4) 1));
    (set < 256 ∧ k < 2 ∧ e < 32 ∧ q < 8 ∧ s.dev.up = true ∧ s.dev.routesClear = true ∧ (let d := s.dev
    (let next (inc : Bool) := (headMsgs d.wt.refMsgs).find? fun m => m.2 = (set, k, inc)
    next true = none))) ∧
    (set < 256 ∧ k < 2 ∧ e < 32 ∧ q < 8 ∧ s.dev.up = true ∧ s.dev.routesClear = true ∧ (let d := s.dev
    (let next (inc : Bool) := (headMsgs d.wt.refMsgs).find? fun m => m.2 = (set, k, inc)
    next false = none))) ∧
    (set < 256 ∧ k < 2 ∧ e < 32 ∧ q < 8 ∧ s.dev.up = true ∧ s.dev.routesClear = true ∧ (let d := s.dev
    (let key := slotKey e q
    (let owed : Bool := (d.ho.reads.any fun r => r.slot = key && !r.answered && !r.dropped) || (d.lk.reqs.any fun r => r.slot = key && r.kind = .read && !r.answered)
    ((d.job key = none ∨ owed = false)))))) ∧
    (set < 256 ∧ k < 2 ∧ e < 32 ∧ q < 8 ∧ s.dev.up = true ∧ s.dev.routesClear = true ∧ (let d := s.dev
    d.accepts 0 = true ∧ bitOf data 0 = false))) ∧
  (let set : Nat := 255; let k : Nat := 1; let e : Nat := 31; let q : Nat := 7; let m : Nat × Nat × Nat × Bool := (5,255,1,true); let data : Word := 1; let s : State := (st {base.withReg (wgtPage + 4) 1 with wt := {refMsgs := [(5,255,1,true),(5,255,1,false)]}});
    (set < 256 ∧ k < 2 ∧ e < 32 ∧ q < 8 ∧ s.dev.up = true ∧ s.dev.routesClear = true ∧ (let d := s.dev
    (let quiet : Prop := ∀ p ∈ d.wt.epochs ++ d.wt.adapters, p.2.done = false
    (let next (inc : Bool) := (headMsgs d.wt.refMsgs).find? fun m => m.2 = (set, k, inc)
    next true = some m ∧ quiet)))) ∧
    (set < 256 ∧ k < 2 ∧ e < 32 ∧ q < 8 ∧ s.dev.up = true ∧ s.dev.routesClear = true ∧ (let d := s.dev
    d.accepts 0 = true ∧ bitOf data 0 = true ∧ d.wgtOn = true))) ∧
  (let set : Nat := 255; let k : Nat := 1; let e : Nat := 31; let q : Nat := 7; let m : Nat × Nat × Nat × Bool := (5,255,1,false); let s : State := (st {base with wt := {refMsgs := [(5,255,1,false)], epochs := [(511, {state := .retiring, refs := 2})]}});
    (set < 256 ∧ k < 2 ∧ e < 32 ∧ q < 8 ∧ s.dev.up = true ∧ s.dev.routesClear = true ∧ (let d := s.dev
    (let x := d.epoch set k
    (let quiet : Prop := ∀ p ∈ d.wt.epochs ++ d.wt.adapters, p.2.done = false
    (let next (inc : Bool) := (headMsgs d.wt.refMsgs).find? fun m => m.2 = (set, k, inc)
    next false = some m ∧ quiet ∧ ((x.state ≠ .retiring ∨ 2 ≤ x.refs ∨ x.wait ≠ [])))))))) ∧
  (let set : Nat := 255; let k : Nat := 1; let e : Nat := 31; let q : Nat := 7; let m : Nat × Nat × Nat × Bool := (5,255,1,false); let s : State := (st {base with wt := {refMsgs := [(5,255,1,false)], epochs := [(511, {state := .retiring, refs := 1})]}});
    (set < 256 ∧ k < 2 ∧ e < 32 ∧ q < 8 ∧ s.dev.up = true ∧ s.dev.routesClear = true ∧ (let d := s.dev
    (let x := d.epoch set k
    (let quiet : Prop := ∀ p ∈ d.wt.epochs ++ d.wt.adapters, p.2.done = false
    (let next (inc : Bool) := (headMsgs d.wt.refMsgs).find? fun m => m.2 = (set, k, inc)
    next false = some m ∧ quiet ∧ x.state = .retiring ∧ x.refs = 1 ∧ x.wait = [])))))) ∧
  (let set : Nat := 255; let k : Nat := 1; let e : Nat := 31; let q : Nat := 7; let s : State := (st {base with wt := {jobs := [(255, {})]}, ho := {reads := [{slot := 255}]}});
    (set < 256 ∧ k < 2 ∧ e < 32 ∧ q < 8 ∧ s.dev.up = true ∧ s.dev.routesClear = true ∧ (let d := s.dev
    (let key := slotKey e q
    (let owed : Bool := (d.ho.reads.any fun r => r.slot = key && !r.answered && !r.dropped) || (d.lk.reqs.any fun r => r.slot = key && r.kind = .read && !r.answered)
    (let j := (d.job key).getD {}
    d.job key = some j ∧ owed = true ∧ d.unheld = true)))))) ∧
  (let set : Nat := 0; let k : Nat := 0; let e : Nat := 0; let q : Nat := 0; let data : Word := 1; let s : State := (st (base.withReg (wgtPage + 0x40) 1));
    (set < 256 ∧ k < 2 ∧ e < 32 ∧ q < 8 ∧ s.dev.up = true ∧ s.dev.routesClear = true ∧ (let d := s.dev
    d.accepts 0 = true ∧ bitOf data 0 = true ∧ d.wgtOn = false ∧ d.rf.armed = [] ∧ d.mm.lineErr = [] ∧ d.tablesOk = false))) := by
  refine ⟨?_, ?_, ?_, ?_, ?_, ?_⟩ <;> decide +kernel

/-- The hypotheses of MemoryReadsAndWrites, clause by clause. -/
theorem test_MemoryReadsAndWrites_hypotheses :
  (let pa : Nat := 0x1010; let key : Nat := 0; let data : List Byte := [1,2,0,4]; let s : State := (st {base.withReg (ctlPage 1 + 0x5C) 0 with mm := {base.mm with lineErr := [(63, .uncorrectable), (64, .corrected)]}});
    (good s = true ∧ key < 256 ∧ (Instr.memoryWrite pa data key).wf = true ∧ s.dev.up = true ∧ s.dev.keyGen key ≠ 0 ∧ (let d := s.dev
    (let line := pa / 64
    (let ctl := ctlPage (ctlOf (line * 64))
    (let len := 64 - pa % 64
    0 < len ∧ pa % 64 + len ≤ 64 ∧ populatedRange pa len = true ∧ d.lineErrAt line = some .corrected ∧ fieldOf (d.reg (ctl + 0x5C)) 7 0 = 0)))))) ∧
  (let pa : Nat := 0x1010; let key : Nat := 0; let data : List Byte := [1,2,0,4]; let s : State := (st {base with mm := {base.mm with cells := [(0x1000, 5), (0x1012, 9), (0x1040, 7)], keys := [(0,1),(1,1)]}});
    (good s = true ∧ key < 256 ∧ (Instr.memoryWrite pa data key).wf = true ∧ s.dev.up = true ∧ s.dev.keyGen key ≠ 0 ∧ (let d := s.dev
    d.rf.armed = [] ∧ d.mm.lineErr = [] ∧ populatedRange pa data.length = true)) ∧
    (good s = true ∧ key < 256 ∧ (Instr.memoryWrite pa data key).wf = true ∧ s.dev.up = true ∧ s.dev.keyGen key ≠ 0 ∧ (let d := s.dev
    (let k := 255
    k < 256 ∧ d.keyGen k = 0))) ∧
    (good s = true ∧ key < 256 ∧ (Instr.memoryWrite pa data key).wf = true ∧ s.dev.up = true ∧ s.dev.keyGen key ≠ 0 ∧ (let d := s.dev
    (let line := pa / 64
    (let len := 64 - pa % 64
    0 < len ∧ pa % 64 + len ≤ 64 ∧ populatedRange pa len = true ∧ d.lineErrAt line = none))))) ∧
  (let pa : Nat := 0x1010; let key : Nat := 0; let data : List Byte := [1,2,0,4]; let s : State := (st {base with mm := {base.mm with lineErr := [(64, .uncorrectable)]}});
    (good s = true ∧ key < 256 ∧ (Instr.memoryWrite pa data key).wf = true ∧ s.dev.up = true ∧ s.dev.keyGen key ≠ 0 ∧ (let d := s.dev
    (let line := pa / 64
    d.lineErrAt line = some .uncorrectable ∧ data ≠ [] ∧ pa % 64 + data.length < 64 ∧ populated pa = true))) ∧
    (good s = true ∧ key < 256 ∧ (Instr.memoryWrite pa data key).wf = true ∧ s.dev.up = true ∧ s.dev.keyGen key ≠ 0 ∧ (let d := s.dev
    (let line := pa / 64
    (let len := 64 - pa % 64
    0 < len ∧ pa % 64 + len ≤ 64 ∧ populatedRange pa len = true ∧ d.lineErrAt line = some .uncorrectable))))) := by
  refine ⟨?_, ?_, ?_⟩ <;> decide +kernel

/-- The hypotheses of ScrubAndSpare, clause by clause. -/
theorem test_ScrubAndSpare_hypotheses :
  (let c : Nat := 0; let data : Word := 0; let s : State := (st (base.withReg (ctlPage 0 + 0x44) 0));
    (good s = true ∧ c < 32 ∧ s.dev.up = true ∧ s.dev.unheld = true ∧ (let d := s.dev
    (let p := ctlPage c
    fieldOf (d.reg (p + 0x44)) 15 0 = 0))) ∧
    (good s = true ∧ c < 32 ∧ s.dev.up = true ∧ s.dev.unheld = true ∧ (let d := s.dev
    (let p := ctlPage c
    (let row := d.pair (p + 0x60) % 2 ^ 44
    d.accepts 0 = true ∧ ((bitOf data 0 = false ∨ partBytes c ≤ row)))))) ∧
    (good s = true ∧ c < 32 ∧ s.dev.up = true ∧ s.dev.unheld = true ∧ (let d := s.dev
    (let t := d.ctl c
    t.sparing = none)))) ∧
  (let c : Nat := 31; let data : Word := 1; let s : State := (st {base.withReg (ctlPage 31 + 0x44) 1 with mm := {base.mm with ctls := [(31, {patrol := 127999672256, rowErrs := [(1,1)]})]}});
    (good s = true ∧ c < 32 ∧ s.dev.up = true ∧ s.dev.unheld = true ∧ (let d := s.dev
    (let p := ctlPage c
    (let t := d.ctl c
    (let line := physOf c t.patrol / 64
    fieldOf (d.reg (p + 0x44)) 15 0 ≠ 0 ∧ d.lineErrAt line = none ∧ partBytes c ≤ t.patrol + 64))))) ∧
    (good s = true ∧ c < 32 ∧ s.dev.up = true ∧ s.dev.unheld = true ∧ (let d := s.dev
    (let p := ctlPage c
    (let t := d.ctl c
    (let row := d.pair (p + 0x60) % 2 ^ 44
    d.accepts 0 = true ∧ bitOf data 0 = true ∧ row < partBytes c ∧ t.sparing = none)))))) ∧
  (let c : Nat := 31; let a : Nat := 0x5000; let s : State := (st {base with mm := {base.mm with ctls := [(31, {sparing := some 0x5000, spareDue := [physOf 31 0x9000]})]}});
    (good s = true ∧ c < 32 ∧ s.dev.up = true ∧ s.dev.unheld = true ∧ (let d := s.dev
    (let t := d.ctl c
    (let pa := t.spareDue.headD 0
    t.sparing = some a ∧ t.spareDue = [pa] ∧ ctlOf pa = c))))) ∧
  (let c : Nat := 31; let a : Nat := 0x5000; let data : Word := 1; let s : State := (st {base with mm := {base.mm with ctls := [(31, {sparing := some 0x5000, rowErrs := [(0, 3), (5,1)]})]}});
    (good s = true ∧ c < 32 ∧ s.dev.up = true ∧ s.dev.unheld = true ∧ (let d := s.dev
    (let p := ctlPage c
    (let t := d.ctl c
    (let line := physOf c t.patrol / 64
    fieldOf (d.reg (p + 0x44)) 15 0 ≠ 0 ∧ d.lineErrAt line = none ∧ t.patrol + 64 < partBytes c))))) ∧
    (good s = true ∧ c < 32 ∧ s.dev.up = true ∧ s.dev.unheld = true ∧ (let d := s.dev
    (let p := ctlPage c
    (let t := d.ctl c
    (let row := d.pair (p + 0x60) % 2 ^ 44
    d.accepts 0 = true ∧ bitOf data 0 = true ∧ row < partBytes c ∧ t.sparing.isSome = true))))) ∧
    (good s = true ∧ c < 32 ∧ s.dev.up = true ∧ s.dev.unheld = true ∧ (let d := s.dev
    (let t := d.ctl c
    t.sparing = some a ∧ t.spareDue = [] ∧ d.mm.lineErr = [])))) := by
  refine ⟨?_, ?_, ?_, ?_⟩ <;> decide +kernel

/-- The hypotheses of WalksAndInvalidations, clause by clause. -/
theorem test_WalksAndInvalidations_hypotheses :
  (let e : Nat := 0; let stream : Nat := 1; let ctx : Nat := 5; let va : Nat := 0x4000; let r : Nat := 3; let fn : Nat := 0; let entry : Nat := 9; let s : State := (st {base with xl := {walks := (List.range 4).map fun i => ⟨3, i, 0, 1, 0, 5, 0⟩}});
    (good s = true ∧ e < 32 ∧ stream < 16 ∧ ctx < 256 ∧ va < 2 ^ 52 ∧ r < 4 ∧ fn < 65 ∧ entry < 256 ∧ (Instr.pageWalk e ctx va stream).wf = true ∧ s.dev.up = true ∧ s.dev.rf.armed = [] ∧ (let d := s.dev
    4 ≤ d.missesOf e stream))) ∧
  (let e : Nat := 0; let stream : Nat := 1; let ctx : Nat := 5; let va : Nat := 0x4000; let r : Nat := 3; let fn : Nat := 0; let entry : Nat := 9; let s : State := (st {base with xl := {walks := (List.range 4).map fun i => ⟨3, i, 0, 1, 0, 5, 0⟩}});
    (good s = true ∧ e < 32 ∧ stream < 16 ∧ ctx < 256 ∧ va < 2 ^ 52 ∧ r < 4 ∧ fn < 65 ∧ entry < 256 ∧ (Instr.pageWalk e ctx va stream).wf = true ∧ s.dev.up = true ∧ s.dev.rf.armed = [] ∧ (let d := s.dev
    (let x := d.xl
    (let w := 7
    w < 8 ∧ ((x.walks.find? fun y => y.region = r && y.walker = w) = none)))))) ∧
  (let e : Nat := 0; let stream : Nat := 1; let ctx : Nat := 5; let va : Nat := 0x4000; let r : Nat := 3; let fn : Nat := 0; let entry : Nat := 9; let s : State := (st {base with xl := {walks := (List.range 4).map fun i => ⟨3, i, 0, 1, 0, 5, 0⟩}});
    (good s = true ∧ e < 32 ∧ stream < 16 ∧ ctx < 256 ∧ va < 2 ^ 52 ∧ r < 4 ∧ fn < 65 ∧ entry < 256 ∧ (Instr.pageWalk e ctx va stream).wf = true ∧ s.dev.up = true ∧ s.dev.rf.armed = [] ∧ (let d := s.dev
    (let x := d.xl
    (let y := x.walks.headD {}
    y.walker < 8 ∧ ((x.walks.find? fun z => z.region = r && z.walker = y.walker) = some y) ∧ d.mm.lineErr = [] ∧ (((look x.walkCache r []).any fun t => t.covers y.ctx y.va && t.bad) = false) ∧ (let cause := (walkF (d.walk (d.rootOf y.ctx) y.va)).1
    (let entry := (walkF (d.walk (d.rootOf y.ctx) y.va)).2
    d.walk (d.rootOf y.ctx) y.va = .fail cause entry))))))) ∧
  (let e : Nat := 0; let stream : Nat := 1; let ctx : Nat := 5; let va : Nat := 0x4000; let r : Nat := 3; let fn : Nat := 0; let entry : Nat := 9; let s : State := (st {base with xl := {walks := (List.range 4).map fun i => ⟨3, i, 0, 1, 0, 5, 0⟩}});
    (good s = true ∧ e < 32 ∧ stream < 16 ∧ ctx < 256 ∧ va < 2 ^ 52 ∧ r < 4 ∧ fn < 65 ∧ entry < 256 ∧ (Instr.pageWalk e ctx va stream).wf = true ∧ s.dev.up = true ∧ s.dev.rf.armed = [] ∧ (let d := s.dev
    (let target := if fn = 0 then d.invalTarget 0 else d.invalEntry fn entry
    (let c := target.getD none
    d.accepts fn = true ∧ target = some c))))) ∧
  (let e : Nat := 0; let stream : Nat := 1; let ctx : Nat := 5; let va : Nat := 0x4000; let r : Nat := 3; let fn : Nat := 0; let entry : Nat := 9; let s : State := (st {base with xl := {walks := (List.range 4).map fun i => ⟨3, i, 0, 1, 0, 5, 0⟩}});
    (good s = true ∧ e < 32 ∧ stream < 16 ∧ ctx < 256 ∧ va < 2 ^ 52 ∧ r < 4 ∧ fn < 65 ∧ entry < 256 ∧ (Instr.pageWalk e ctx va stream).wf = true ∧ s.dev.up = true ∧ s.dev.rf.armed = [] ∧ (let d := s.dev
    (let x := d.xl
    x.invals = [])))) ∧
  (let e : Nat := 0; let stream : Nat := 1; let ctx : Nat := 5; let va : Nat := 0x4000; let r : Nat := 3; let fn : Nat := 0; let entry : Nat := 9; let data : Word := 0; let s : State := (st {base with xl := {walks := (List.range 4).map fun i => ⟨3, i, 0, 1, 0, 5, 0⟩}});
    (good s = true ∧ e < 32 ∧ stream < 16 ∧ ctx < 256 ∧ va < 2 ^ 52 ∧ r < 4 ∧ fn < 65 ∧ entry < 256 ∧ (Instr.pageWalk e ctx va stream).wf = true ∧ s.dev.up = true ∧ s.dev.rf.armed = [] ∧ (let d := s.dev
    d.accepts 0 = true ∧ bitOf data 0 = false))) ∧
  (let e : Nat := 31; let stream : Nat := 1; let ctx : Nat := 5; let va : Nat := 0x4000; let r : Nat := 3; let fn : Nat := 0; let entry : Nat := 9; let s : State := (st {base with xl := {tlb := [(31, [{ctx := 5, base := 0, log2 := 16, pte := 11}])]}});
    (good s = true ∧ e < 32 ∧ stream < 16 ∧ ctx < 256 ∧ va < 2 ^ 52 ∧ r < 4 ∧ fn < 65 ∧ entry < 256 ∧ (Instr.pageWalk e ctx va stream).wf = true ∧ s.dev.up = true ∧ s.dev.rf.armed = [] ∧ (let d := s.dev
    (let x := d.xl
    (let hitTlb := (look x.tlb e []).any (·.covers ctx va)
    (let hitL2 := d.l2Entry (e / 8) ctx va
    (let whole : Prop := (∀ t ∈ look x.tlb e [], t.covers ctx va = true → t.bad = false) ∧ (((hitL2.map fun t => t.bad).getD false) = false)
    whole ∧ hitTlb = true))))))) ∧
  (let e : Nat := 31; let stream : Nat := 1; let ctx : Nat := 5; let va : Nat := 0x4000; let r : Nat := 3; let fn : Nat := 0; let entry : Nat := 9; let s : State := (st {base with xl := {l2 := [(3 * 2048, [{ctx := 5, base := 0, log2 := 16, pte := 11}])]}});
    (good s = true ∧ e < 32 ∧ stream < 16 ∧ ctx < 256 ∧ va < 2 ^ 52 ∧ r < 4 ∧ fn < 65 ∧ entry < 256 ∧ (Instr.pageWalk e ctx va stream).wf = true ∧ s.dev.up = true ∧ s.dev.rf.armed = [] ∧ (let d := s.dev
    (let x := d.xl
    (let hitTlb := (look x.tlb e []).any (·.covers ctx va)
    (let hitL2 := d.l2Entry (e / 8) ctx va
    (let whole : Prop := (∀ t ∈ look x.tlb e [], t.covers ctx va = true → t.bad = false) ∧ (((hitL2.map fun t => t.bad).getD false) = false)
    (let t := hitL2.getD {}
    whole ∧ d.missesOf e stream < 4 ∧ hitTlb = false ∧ hitL2 = some t)))))))) ∧
  (let e : Nat := 31; let stream : Nat := 1; let ctx : Nat := 5; let va : Nat := 0x4000; let r : Nat := 3; let fn : Nat := 0; let entry : Nat := 9; let s : State := (st {base with xl := {walks := (List.range 8).map fun i => ⟨3, i, 24, i, 0, 5, 0⟩}});
    (good s = true ∧ e < 32 ∧ stream < 16 ∧ ctx < 256 ∧ va < 2 ^ 52 ∧ r < 4 ∧ fn < 65 ∧ entry < 256 ∧ (Instr.pageWalk e ctx va stream).wf = true ∧ s.dev.up = true ∧ s.dev.rf.armed = [] ∧ (let d := s.dev
    (let x := d.xl
    (let hitTlb := (look x.tlb e []).any (·.covers ctx va)
    (let hitL2 := d.l2Entry (e / 8) ctx va
    (let prio := d.missPrio e
    (let whole : Prop := (∀ t ∈ look x.tlb e [], t.covers ctx va = true → t.bad = false) ∧ (((hitL2.map fun t => t.bad).getD false) = false)
    whole ∧ d.missesOf e stream < 4 ∧ hitTlb = false ∧ hitL2 = none ∧ d.freeWalker (e / 8) prio = none)))))))) ∧
  (let e : Nat := 31; let stream : Nat := 1; let ctx : Nat := 5; let va : Nat := 0x4000; let r : Nat := 3; let fn : Nat := 0; let entry : Nat := 9; let s : State := (st ({mapped base 5 with xl := {(mapped base 5).xl with walks := [⟨3, 7, 31, 2, 0, 5, 0x4000⟩], tlb := [(31, [{ctx := 6}])]}}));
    (good s = true ∧ e < 32 ∧ stream < 16 ∧ ctx < 256 ∧ va < 2 ^ 52 ∧ r < 4 ∧ fn < 65 ∧ entry < 256 ∧ (Instr.pageWalk e ctx va stream).wf = true ∧ s.dev.up = true ∧ s.dev.rf.armed = [] ∧ (let d := s.dev
    (let x := d.xl
    (let hitTlb := (look x.tlb e []).any (·.covers ctx va)
    (let hitL2 := d.l2Entry (e / 8) ctx va
    (let prio := d.missPrio e
    (let whole : Prop := (∀ t ∈ look x.tlb e [], t.covers ctx va = true → t.bad = false) ∧ (((hitL2.map fun t => t.bad).getD false) = false)
    (let w := (d.freeWalker (e / 8) prio).getD 0
    whole ∧ d.missesOf e stream < 4 ∧ hitTlb = false ∧ hitL2 = none ∧ d.freeWalker (e / 8) prio = some w))))))))) ∧
  (let e : Nat := 31; let stream : Nat := 1; let ctx : Nat := 5; let va : Nat := 0x4000; let r : Nat := 3; let fn : Nat := 0; let entry : Nat := 9; let s : State := (st ({mapped base 5 with xl := {(mapped base 5).xl with walks := [⟨3, 7, 31, 2, 0, 5, 0x4000⟩], tlb := [(31, [{ctx := 6}])]}}));
    (good s = true ∧ e < 32 ∧ stream < 16 ∧ ctx < 256 ∧ va < 2 ^ 52 ∧ r < 4 ∧ fn < 65 ∧ entry < 256 ∧ (Instr.pageWalk e ctx va stream).wf = true ∧ s.dev.up = true ∧ s.dev.rf.armed = [] ∧ (let d := s.dev
    (let x := d.xl
    (let y := x.walks.headD {}
    y.walker < 8 ∧ ((x.walks.find? fun z => z.region = r && z.walker = y.walker) = some y) ∧ d.mm.lineErr = [] ∧ (((look x.walkCache r []).any fun t => t.covers y.ctx y.va && t.bad) = false) ∧ (let pte := (walkL (d.walk (d.rootOf y.ctx) y.va)).1
    (let log2 := (walkL (d.walk (d.rootOf y.ctx) y.va)).2
    d.walk (d.rootOf y.ctx) y.va = .leaf pte log2))))))) ∧
  (let e : Nat := 31; let stream : Nat := 1; let ctx : Nat := 5; let va : Nat := 0x4000; let r : Nat := 3; let fn : Nat := 0; let entry : Nat := 9; let data : Word := 7; let s : State := (st ({mapped base 5 with xl := {(mapped base 5).xl with walks := [⟨3, 7, 31, 2, 0, 5, 0x4000⟩], tlb := [(31, [{ctx := 6}])]}}));
    (good s = true ∧ e < 32 ∧ stream < 16 ∧ ctx < 256 ∧ va < 2 ^ 52 ∧ r < 4 ∧ fn < 65 ∧ entry < 256 ∧ (Instr.pageWalk e ctx va stream).wf = true ∧ s.dev.up = true ∧ s.dev.rf.armed = [] ∧ (let d := s.dev
    d.accepts 0 = true ∧ bitOf data 0 = true))) ∧
  (let e : Nat := 0; let stream : Nat := 1; let ctx : Nat := 5; let va : Nat := 0x4000; let r : Nat := 3; let fn : Nat := 64; let entry : Nat := 9; let s : State := (st {base with ho := {vfEnable := true, vfCount := 64}});
    (good s = true ∧ e < 32 ∧ stream < 16 ∧ ctx < 256 ∧ va < 2 ^ 52 ∧ r < 4 ∧ fn < 65 ∧ entry < 256 ∧ (Instr.pageWalk e ctx va stream).wf = true ∧ s.dev.up = true ∧ s.dev.rf.armed = [] ∧ (let d := s.dev
    (let target := if fn = 0 then d.invalTarget 0 else d.invalEntry fn entry
    d.accepts fn = true ∧ target = none)))) ∧
  (let e : Nat := 0; let stream : Nat := 1; let ctx : Nat := 5; let va : Nat := 0x4000; let r : Nat := 3; let fn : Nat := 0; let entry : Nat := 9; let s : State := (st {base with xl := {invals := [{walks := [(1,1)]}]}});
    (good s = true ∧ e < 32 ∧ stream < 16 ∧ ctx < 256 ∧ va < 2 ^ 52 ∧ r < 4 ∧ fn < 65 ∧ entry < 256 ∧ (Instr.pageWalk e ctx va stream).wf = true ∧ s.dev.up = true ∧ s.dev.rf.armed = [] ∧ (let d := s.dev
    (let x := d.xl
    (let i := x.invals.headD {}
    (let rest := x.invals.tail
    x.invals = i :: rest ∧ ((i.walks ≠ [] ∨ (d.ho.reads.any fun z => i.reads.contains z.id && !z.answered) = true ∨ (d.lk.reqs.any fun z => i.reqs.contains z.id && !z.answered) = true)))))))) ∧
  (let e : Nat := 0; let stream : Nat := 1; let ctx : Nat := 5; let va : Nat := 0x4000; let r : Nat := 3; let fn : Nat := 0; let entry : Nat := 9; let s : State := (st {base with xl := {invals := [{seq := 7, ctx := some 5, base := 0, log2 := 20, reads := [4]}], walkCache := [(0, [{ctx := 5, log2 := 21}])], tlb := [(0, [{ctx := 5}, {ctx := 6}]), (3, [{ctx := 5, base := 0x200000}])], l2 := [(0, [{ctx := 5}, {ctx := 6}])]}});
    (good s = true ∧ e < 32 ∧ stream < 16 ∧ ctx < 256 ∧ va < 2 ^ 52 ∧ r < 4 ∧ fn < 65 ∧ entry < 256 ∧ (Instr.pageWalk e ctx va stream).wf = true ∧ s.dev.up = true ∧ s.dev.rf.armed = [] ∧ (let d := s.dev
    (let x := d.xl
    (let i := x.invals.headD {}
    (let rest := x.invals.tail
    x.invals = i :: rest ∧ i.walks = [] ∧ ((∀ z ∈ d.ho.reads, z.id ∈ i.reads → z.answered = true)) ∧ ((∀ z ∈ d.lk.reqs, z.id ∈ i.reqs → z.answered = true)))))))) := by
  refine ⟨?_, ?_, ?_, ?_, ?_, ?_, ?_, ?_, ?_, ?_, ?_, ?_, ?_, ?_, ?_⟩ <;> decide +kernel

/-- The hypotheses of HostReadAnswers, clause by clause. -/
theorem test_HostReadAnswers_hypotheses :
  (let fn : Nat := 0; let id : Nat := 5; let tag : Nat := 31; let addr : Nat := 0x1000; let log2 : Nat := 12; let s : State := (st {base with ho := {reads := [{id := 5, len := 4}, {id := 6}]}});
    (good s = true ∧ fn < 65 ∧ tag < 32 ∧ s.dev.up = true ∧ s.dev.rf.armed = [] ∧ (let d := s.dev
    (let h := d.ho
    (let open' (r : HostRead) : Bool := r.id = id && !r.answered && !r.ats
    (let r := (h.reads.find? open').getD {}
    h.reads.find? open' = some r ∧ d.accepts (d.readFn r) = true))))) ∧
    (good s = true ∧ fn < 65 ∧ tag < 32 ∧ s.dev.up = true ∧ s.dev.rf.armed = [] ∧ (let d := s.dev
    (let h := d.ho
    (let open' (r : HostRead) : Bool := r.id = id && !r.answered && !r.ats
    (let r := (h.reads.find? open').getD {}
    h.reads.find? open' = some r))))) ∧
    (good s = true ∧ fn < 65 ∧ tag < 32 ∧ s.dev.up = true ∧ s.dev.rf.armed = [] ∧ (let d := s.dev
    (let h := d.ho
    (let x := d.xl
    (let size := max 12 log2
    (let base := addr / 2 ^ size * 2 ^ size
    (let asks := h.asks.filter fun a => a.fn = fn && !a.granted && base ≤ a.addr && a.addr < base + 2 ^ size
    (let waiting := h.reads.filter fun r => r.ats && d.readFn r = fn && base ≤ r.addr && r.addr < base + 2 ^ size
    ((x.atsOn.contains fn = false ∨ waiting = [] ∧ asks = [])))))))))) ∧
    (good s = true ∧ fn < 65 ∧ tag < 32 ∧ s.dev.up = true ∧ s.dev.rf.armed = [] ∧ (let d := s.dev
    d.accepts fn = true))) ∧
  (let fn : Nat := 0; let tag : Nat := 31; let s : State := (st {base with ho := {reads := [{id := 5, len := 4}, {id := 6}]}});
    (good s = true ∧ fn < 65 ∧ tag < 32 ∧ s.dev.up = true ∧ s.dev.rf.armed = [] ∧ (let d := s.dev
    (let x := d.xl
    ((x.atsInvals.find? fun y => y.1 = fn && y.2.1 = tag) = none))))) ∧
  (let fn : Nat := 0; let id : Nat := 5; let tag : Nat := 31; let addr : Nat := 0x1000; let log2 : Nat := 12; let s : State := (st {base with xl := {atsOn := [0]}, ho := {reads := [{id := 5, len := 4, ats := true, addr := 0x1800}, {id := 6}]}});
    (good s = true ∧ fn < 65 ∧ tag < 32 ∧ s.dev.up = true ∧ s.dev.rf.armed = [] ∧ (let d := s.dev
    (let h := d.ho
    (let open' (r : HostRead) : Bool := r.id = id && !r.answered && !r.ats
    h.reads.find? open' = none)))) ∧
    (good s = true ∧ fn < 65 ∧ tag < 32 ∧ s.dev.up = true ∧ s.dev.rf.armed = [] ∧ (let d := s.dev
    (let h := d.ho
    (let x := d.xl
    (let size := max 12 log2
    (let base := addr / 2 ^ size * 2 ^ size
    (let asks := h.asks.filter fun a => a.fn = fn && !a.granted && base ≤ a.addr && a.addr < base + 2 ^ size
    (let waiting := h.reads.filter fun r => r.ats && d.readFn r = fn && base ≤ r.addr && r.addr < base + 2 ^ size
    (let r := waiting.headD {}
    x.atsOn.contains fn = true ∧ d.accepts fn = true ∧ d.unheld = true ∧ waiting = [r] ∧ asks = [] ∧ ((∀ p ∈ h.behind, p.1 ≠ fn)) ∧ r.write = false ∧ (d.ide (d.streamOf fn)).failed = false))))))))) ∧
    (good s = true ∧ fn < 65 ∧ tag < 32 ∧ s.dev.up = true ∧ s.dev.rf.armed = [] ∧ (let d := s.dev
    (let h := d.ho
    (let x := d.xl
    (let size := max 12 log2
    (let base := addr / 2 ^ size * 2 ^ size
    (let asks := h.asks.filter fun a => a.fn = fn && !a.granted && base ≤ a.addr && a.addr < base + 2 ^ size
    (let waiting := h.reads.filter fun r => r.ats && d.readFn r = fn && base ≤ r.addr && r.addr < base + 2 ^ size
    (let r := waiting.headD {}
    x.atsOn.contains fn = true ∧ d.accepts fn = true ∧ waiting = [r] ∧ asks = [] ∧ ((∀ p ∈ h.behind, p.1 ≠ fn)) ∧ r.write = false)))))))))) ∧
  (let fn : Nat := 0; let tag : Nat := 31; let s : State := (st {base with xl := {atsInvals := [(0, 31, [6])], atc := [⟨0, 0x1000, 12, 5, true, true, false⟩, ⟨0, 0x2000, 12, 5, true, true, false⟩]}, ho := {reads := [{id := 5, len := 4, ats := true, addr := 0x1800}, {id := 6}]}});
    (good s = true ∧ fn < 65 ∧ tag < 32 ∧ s.dev.up = true ∧ s.dev.rf.armed = [] ∧ (let d := s.dev
    (let h := d.ho
    (let x := d.xl
    (let y := (x.atsInvals.find? fun y => y.1 = fn && y.2.1 = tag).getD (0, 0, [])
    ((x.atsInvals.find? fun y => y.1 = fn && y.2.1 = tag) = some y) ∧ ((h.reads.any fun r => y.2.2.contains r.id && !r.answered) = true))))))) ∧
  (let fn : Nat := 0; let tag : Nat := 31; let s : State := (st {base with xl := {atsInvals := [(0, 31, [6])], atc := [⟨0, 0x1000, 12, 5, true, true, false⟩, ⟨0, 0x2000, 12, 5, true, true, false⟩]}, ho := {reads := [{id := 5, len := 4, ats := true, addr := 0x1800}, {id := 6, answered := true}]}});
    (good s = true ∧ fn < 65 ∧ tag < 32 ∧ s.dev.up = true ∧ s.dev.rf.armed = [] ∧ (let d := s.dev
    (let h := d.ho
    (let x := d.xl
    (let y := (x.atsInvals.find? fun y => y.1 = fn && y.2.1 = tag).getD (0, 0, [])
    ((x.atsInvals.find? fun y => y.1 = fn && y.2.1 = tag) = some y) ∧ ((h.reads.any fun r => y.2.2.contains r.id && !r.answered) = false) ∧ (d.ide (d.streamOf fn)).failed = false)))))) := by
  refine ⟨?_, ?_, ?_, ?_, ?_⟩ <;> decide +kernel

/-- The hypotheses of InboundRequests (InboundWindows), clause by clause. -/
theorem test_InboundWindows_hypotheses :
  (let fn : Nat := 64; let s : State := (st base);
    (fn < 65 ∧ s.dev.up = true ∧ (let d := s.dev
    d.accepts 0 = true)) ∧
    (fn < 65 ∧ s.dev.up = true ∧ (let d := s.dev
    d.accepts fn = true ∧ fn ≠ 0))) := by
  decide +kernel

/-- The hypotheses of InboundRequests, clause by clause. -/
theorem test_InboundRequests_hypotheses :
  (let p : Nat := 17; let src : Nat := 8191; let seq : Nat := 5; let window : Nat := 1023; let offset : Nat := 0; let len : Nat := 512; let index : Nat := 131071; let data : List Byte := [1,2]; let s : State := (st base);
    (good s = true ∧ p < 18 ∧ src < 8192 ∧ seq < 2 ^ 22 ∧ window < 1024 ∧ offset < 2 ^ 42 ∧ index < 2 ^ 17 ∧ 1 ≤ data.length ∧ data.length ≤ 512 ∧ 1 ≤ len ∧ len ≤ 512 ∧ (let d := s.dev
    (let isWrite (x : Packet) : Bool := x.type = 1 && x.src = src && x.seq = seq && x.window = window && x.offset = offset && x.data = data
    d.arrived p isWrite = none)))) ∧
  (let p : Nat := 17; let src : Nat := 8191; let seq : Nat := 5; let window : Nat := 1023; let offset : Nat := 0; let len : Nat := 512; let index : Nat := 131071; let data : List Byte := [1,2]; let s : State := (st base);
    (good s = true ∧ p < 18 ∧ src < 8192 ∧ seq < 2 ^ 22 ∧ window < 1024 ∧ offset < 2 ^ 42 ∧ index < 2 ^ 17 ∧ 1 ≤ data.length ∧ data.length ≤ 512 ∧ 1 ≤ len ∧ len ≤ 512 ∧ (let d := s.dev
    (let isRead (x : Packet) : Bool := x.type = 2 && x.src = src && x.seq = seq && x.window = window && x.offset = offset && x.len + 1 = len
    d.arrived p isRead = none)))) ∧
  (let p : Nat := 17; let src : Nat := 8191; let seq : Nat := 5; let window : Nat := 1023; let offset : Nat := 0; let len : Nat := 512; let index : Nat := 131071; let data : List Byte := [1,2]; let v : Word64 := 9; let s : State := (st base);
    (good s = true ∧ p < 18 ∧ src < 8192 ∧ seq < 2 ^ 22 ∧ window < 1024 ∧ offset < 2 ^ 42 ∧ index < 2 ^ 17 ∧ 1 ≤ data.length ∧ data.length ≤ 512 ∧ 1 ≤ len ∧ len ≤ 512 ∧ (let d := s.dev
    (let isBell (x : Packet) : Bool := x.type = 5 && x.src = src && x.seq = seq && x.offset = index && x.data = toBytes 8 v.toNat
    d.arrived p isBell = none)))) ∧
  (let p : Nat := 17; let src : Nat := 8191; let seq : Nat := 5; let window : Nat := 1023; let offset : Nat := 0; let len : Nat := 512; let index : Nat := 131071; let data : List Byte := [1,2]; let s : State := (st base);
    (good s = true ∧ p < 18 ∧ src < 8192 ∧ seq < 2 ^ 22 ∧ window < 1024 ∧ offset < 2 ^ 42 ∧ index < 2 ^ 17 ∧ 1 ≤ data.length ∧ data.length ≤ 512 ∧ 1 ≤ len ∧ len ≤ 512 ∧ (let d := s.dev
    d.rf.armed = [] ∧ d.xl.winBad = [] ∧ (let w := look d.xl.winIn window (0, 0, 0)
    (let cfg := w.2.2
    bitOf cfg 31 = false))))) ∧
  (let p : Nat := 17; let src : Nat := 8191; let seq : Nat := 5; let window : Nat := 1023; let offset : Nat := 0x1000; let len : Nat := 512; let index : Nat := 131071; let data : List Byte := [1,2]; let k : Packet := {type := 1, src := 8191, seq := 5, window := 1023, offset := 0x1000, len := 1, data := [1, 2]}; let s : State := (st {portS 17 {state := .holdTx, rx := [{type := 1, src := 8191, seq := 5, window := 1023, offset := 0x1000, len := 1, data := [1, 2]}]} with lk := {(portS 17 {state := .holdTx, rx := [{type := 1, src := 8191, seq := 5, window := 1023, offset := 0x1000, len := 1, data := [1, 2]}]}).lk with holdTx := true}});
    (good s = true ∧ p < 18 ∧ src < 8192 ∧ seq < 2 ^ 22 ∧ window < 1024 ∧ offset < 2 ^ 42 ∧ index < 2 ^ 17 ∧ 1 ≤ data.length ∧ data.length ≤ 512 ∧ 1 ≤ len ∧ len ≤ 512 ∧ (let d := s.dev
    (let isWrite (x : Packet) : Bool := x.type = 1 && x.src = src && x.seq = seq && x.window = window && x.offset = offset && x.data = data
    (let got (f : Packet → Bool) : Prop := d.arrived p f = some k
    d.lk.holdTx = true ∧ got isWrite))))) ∧
  (let p : Nat := 17; let src : Nat := 8191; let seq : Nat := 5; let window : Nat := 1023; let offset : Nat := 0x1000; let len : Nat := 512; let index : Nat := 131071; let data : List Byte := [1,2]; let k : Packet := {type := 2, src := 8191, seq := 5, window := 1023, offset := 0x1000, len := 511}; let s : State := (st {portS 17 {state := .holdTx, rx := [{type := 2, src := 8191, seq := 5, window := 1023, offset := 0x1000, len := 511}]} with lk := {(portS 17 {state := .holdTx, rx := [{type := 2, src := 8191, seq := 5, window := 1023, offset := 0x1000, len := 511}]}).lk with holdTx := true}});
    (good s = true ∧ p < 18 ∧ src < 8192 ∧ seq < 2 ^ 22 ∧ window < 1024 ∧ offset < 2 ^ 42 ∧ index < 2 ^ 17 ∧ 1 ≤ data.length ∧ data.length ≤ 512 ∧ 1 ≤ len ∧ len ≤ 512 ∧ (let d := s.dev
    (let isRead (x : Packet) : Bool := x.type = 2 && x.src = src && x.seq = seq && x.window = window && x.offset = offset && x.len + 1 = len
    (let got (f : Packet → Bool) : Prop := d.arrived p f = some k
    d.lk.holdTx = true ∧ got isRead))))) ∧
  (let p : Nat := 17; let src : Nat := 8191; let seq : Nat := 5; let window : Nat := 1023; let offset : Nat := 0x1000; let len : Nat := 512; let index : Nat := 131071; let data : List Byte := [1,2]; let v : Word64 := 9; let k : Packet := {type := 5, src := 8191, seq := 5, offset := 131071, data := toBytes 8 9}; let s : State := (st {portS 17 {state := .holdTx, rx := [{type := 5, src := 8191, seq := 5, offset := 131071, data := toBytes 8 9}]} with lk := {(portS 17 {state := .holdTx, rx := [{type := 5, src := 8191, seq := 5, offset := 131071, data := toBytes 8 9}]}).lk with holdTx := true}});
    (good s = true ∧ p < 18 ∧ src < 8192 ∧ seq < 2 ^ 22 ∧ window < 1024 ∧ offset < 2 ^ 42 ∧ index < 2 ^ 17 ∧ 1 ≤ data.length ∧ data.length ≤ 512 ∧ 1 ≤ len ∧ len ≤ 512 ∧ (let d := s.dev
    (let isBell (x : Packet) : Bool := x.type = 5 && x.src = src && x.seq = seq && x.offset = index && x.data = toBytes 8 v.toNat
    (let got (f : Packet → Bool) : Prop := d.arrived p f = some k
    d.lk.holdTx = true ∧ got isBell))))) ∧
  (let p : Nat := 17; let src : Nat := 8191; let seq : Nat := 5; let window : Nat := 1023; let offset : Nat := 0x1000; let len : Nat := 512; let index : Nat := 131071; let data : List Byte := [1,2]; let k : Packet := {type := 1, src := 8191, seq := 5, window := 1023, offset := 0x1000, len := 1, data := [1, 2]}; let s : State := (st {portS 17 {state := .up, rx := [{type := 1, src := 8191, seq := 5, window := 1023, offset := 0x1000, len := 1, data := [1, 2]}]} with xl := {winIn := [(1023, 0x400000, 1, 0xF0000000)]}, bl := {groups := [(2047, 0xFFFFFFFF)]}});
    (good s = true ∧ p < 18 ∧ src < 8192 ∧ seq < 2 ^ 22 ∧ window < 1024 ∧ offset < 2 ^ 42 ∧ index < 2 ^ 17 ∧ 1 ≤ data.length ∧ data.length ≤ 512 ∧ 1 ≤ len ∧ len ≤ 512 ∧ (let d := s.dev
    (let isWrite (x : Packet) : Bool := x.type = 1 && x.src = src && x.seq = seq && x.window = window && x.offset = offset && x.data = data
    (let got (f : Packet → Bool) : Prop := d.arrived p f = some k
    (let pa := (wcR (d.windowCheck src window offset data.length true)).1
    (let key := (wcR (d.windowCheck src window offset data.length true)).2
    got isWrite ∧ d.lk.holdTx = false ∧ d.windowCheck src window offset data.length true = .inr (pa, key)))))))) ∧
  (let p : Nat := 17; let src : Nat := 8191; let seq : Nat := 5; let window : Nat := 1023; let offset : Nat := 0x1000; let len : Nat := 512; let index : Nat := 131071; let data : List Byte := [1,2]; let s : State := (st {portS 17 {state := .up, rx := [{type := 1, src := 8191, seq := 5, window := 1023, offset := 0x1000, len := 1, data := [1, 2]}]} with xl := {winIn := [(1023, 0x400000, 1, 0xF0000000)]}, bl := {groups := [(2047, 0xFFFFFFFF)]}});
    (good s = true ∧ p < 18 ∧ src < 8192 ∧ seq < 2 ^ 22 ∧ window < 1024 ∧ offset < 2 ^ 42 ∧ index < 2 ^ 17 ∧ 1 ≤ data.length ∧ data.length ≤ 512 ∧ 1 ≤ len ∧ len ≤ 512 ∧ (let d := s.dev
    (let n := len
    (let wr := true
    d.rf.armed = [] ∧ d.xl.winBad = [] ∧ (let pa := (wcR (d.windowCheck src window offset n wr)).1
    (let key := (wcR (d.windowCheck src window offset n wr)).2
    d.windowCheck src window offset n wr = .inr (pa, key)))))))) ∧
  (let p : Nat := 17; let src : Nat := 8191; let seq : Nat := 5; let window : Nat := 1023; let offset : Nat := 0x1000; let len : Nat := 512; let index : Nat := 131071; let data : List Byte := [1,2]; let k : Packet := {type := 2, src := 8191, seq := 5, window := 1023, offset := 0x1000, len := 511}; let s : State := (st {portS 17 {state := .up, rx := [{type := 2, src := 8191, seq := 5, window := 1023, offset := 0x1000, len := 511}]} with xl := {winIn := [(1023, 0x400000, 1, 0xF0000000)]}, bl := {groups := [(2047, 0xFFFFFFFF)]}});
    (good s = true ∧ p < 18 ∧ src < 8192 ∧ seq < 2 ^ 22 ∧ window < 1024 ∧ offset < 2 ^ 42 ∧ index < 2 ^ 17 ∧ 1 ≤ data.length ∧ data.length ≤ 512 ∧ 1 ≤ len ∧ len ≤ 512 ∧ (let d := s.dev
    (let isRead (x : Packet) : Bool := x.type = 2 && x.src = src && x.seq = seq && x.window = window && x.offset = offset && x.len + 1 = len
    (let got (f : Packet → Bool) : Prop := d.arrived p f = some k
    (let pa := (wcR (d.windowCheck src window offset len false)).1
    (let key := (wcR (d.windowCheck src window offset len false)).2
    got isRead ∧ d.lk.holdTx = false ∧ d.windowCheck src window offset len false = .inr (pa, key)))))))) ∧
  (let p : Nat := 17; let src : Nat := 8191; let seq : Nat := 5; let window : Nat := 1023; let offset : Nat := 0x1000; let len : Nat := 512; let index : Nat := 131071; let data : List Byte := [1,2]; let v : Word64 := 9; let k : Packet := {type := 5, src := 8191, seq := 5, offset := 131071, data := toBytes 8 9}; let s : State := (st {portS 17 {state := .up, rx := [{type := 5, src := 8191, seq := 5, offset := 131071, data := toBytes 8 9}]} with xl := {winIn := [(1023, 0x400000, 1, 0xF0000000)]}, bl := {groups := [(2047, 0xFFFFFFFF)]}});
    (good s = true ∧ p < 18 ∧ src < 8192 ∧ seq < 2 ^ 22 ∧ window < 1024 ∧ offset < 2 ^ 42 ∧ index < 2 ^ 17 ∧ 1 ≤ data.length ∧ data.length ≤ 512 ∧ 1 ≤ len ∧ len ≤ 512 ∧ (let d := s.dev
    (let isBell (x : Packet) : Bool := x.type = 5 && x.src = src && x.seq = seq && x.offset = index && x.data = toBytes 8 v.toNat
    (let got (f : Packet → Bool) : Prop := d.arrived p f = some k
    got isBell ∧ d.lk.holdTx = false ∧ d.groupDenies index src = 0 ∧ d.bellWhole index = true))))) ∧
  (let p : Nat := 17; let src : Nat := 8191; let seq : Nat := 5; let window : Nat := 1023; let offset : Nat := 0x1FFFFF; let len : Nat := 512; let index : Nat := 131071; let data : List Byte := [1,2]; let k : Packet := {type := 1, src := 8191, seq := 5, window := 1023, offset := 0x1FFFFF, len := 1, data := [1, 2]}; let s : State := (st {portS 17 {state := .up, rx := [{type := 1, src := 8191, seq := 5, window := 1023, offset := 0x1FFFFF, len := 1, data := [1, 2]}]} with xl := {winIn := [(1023, 0x400000, 1, 0xE0001FFF)]}});
    (good s = true ∧ p < 18 ∧ src < 8192 ∧ seq < 2 ^ 22 ∧ window < 1024 ∧ offset < 2 ^ 42 ∧ index < 2 ^ 17 ∧ 1 ≤ data.length ∧ data.length ≤ 512 ∧ 1 ≤ len ∧ len ≤ 512 ∧ (let d := s.dev
    (let isWrite (x : Packet) : Bool := x.type = 1 && x.src = src && x.seq = seq && x.window = window && x.offset = offset && x.data = data
    (let got (f : Packet → Bool) : Prop := d.arrived p f = some k
    (let why := wcL (d.windowCheck src window offset data.length true)
    got isWrite ∧ d.lk.holdTx = false ∧ d.windowCheck src window offset data.length true = .inl why ∧ why < 5)))))) ∧
  (let p : Nat := 17; let src : Nat := 8191; let seq : Nat := 5; let window : Nat := 1023; let offset : Nat := 0x1FFFFF; let len : Nat := 512; let index : Nat := 131071; let data : List Byte := [1,2]; let s : State := (st {portS 17 {state := .up, rx := [{type := 1, src := 8191, seq := 5, window := 1023, offset := 0x1FFFFF, len := 1, data := [1, 2]}]} with xl := {winIn := [(1023, 0x400000, 1, 0xE0001FFF)]}});
    (good s = true ∧ p < 18 ∧ src < 8192 ∧ seq < 2 ^ 22 ∧ window < 1024 ∧ offset < 2 ^ 42 ∧ index < 2 ^ 17 ∧ 1 ≤ data.length ∧ data.length ≤ 512 ∧ 1 ≤ len ∧ len ≤ 512 ∧ (let d := s.dev
    (let n := len
    d.rf.armed = [] ∧ d.xl.winBad = [] ∧ (let w := look d.xl.winIn window (0, 0, 0)
    (let cfg := w.2.2
    bitOf cfg 31 = true ∧ d.keyGen (fieldOf cfg 23 16) ≠ 0 ∧ w.2.1 * 2 ^ 21 < offset + n)))))) ∧
  (let p : Nat := 17; let src : Nat := 8191; let seq : Nat := 5; let window : Nat := 1023; let offset : Nat := 0x1FFFFF; let len : Nat := 512; let index : Nat := 131071; let data : List Byte := [1,2]; let k : Packet := {type := 2, src := 8191, seq := 5, window := 1023, offset := 0x1FFFFF, len := 511}; let s : State := (st {portS 17 {state := .up, rx := [{type := 2, src := 8191, seq := 5, window := 1023, offset := 0x1FFFFF, len := 511}]} with xl := {winIn := [(1023, 0x400000, 1, 0xE0001FFF)]}});
    (good s = true ∧ p < 18 ∧ src < 8192 ∧ seq < 2 ^ 22 ∧ window < 1024 ∧ offset < 2 ^ 42 ∧ index < 2 ^ 17 ∧ 1 ≤ data.length ∧ data.length ≤ 512 ∧ 1 ≤ len ∧ len ≤ 512 ∧ (let d := s.dev
    (let isRead (x : Packet) : Bool := x.type = 2 && x.src = src && x.seq = seq && x.window = window && x.offset = offset && x.len + 1 = len
    (let got (f : Packet → Bool) : Prop := d.arrived p f = some k
    (let why := wcL (d.windowCheck src window offset len false)
    got isRead ∧ d.lk.holdTx = false ∧ d.windowCheck src window offset len false = .inl why ∧ why < 5)))))) ∧
  (let p : Nat := 17; let src : Nat := 8191; let seq : Nat := 5; let window : Nat := 1023; let offset : Nat := 0x1FFFFF; let len : Nat := 512; let index : Nat := 131071; let data : List Byte := [1,2]; let v : Word64 := 9; let k : Packet := {type := 5, src := 8191, seq := 5, offset := 131071, data := toBytes 8 9}; let s : State := (st (portS 17 {state := .up, rx := [{type := 5, src := 8191, seq := 5, offset := 131071, data := toBytes 8 9}]}));
    (good s = true ∧ p < 18 ∧ src < 8192 ∧ seq < 2 ^ 22 ∧ window < 1024 ∧ offset < 2 ^ 42 ∧ index < 2 ^ 17 ∧ 1 ≤ data.length ∧ data.length ≤ 512 ∧ 1 ≤ len ∧ len ≤ 512 ∧ (let d := s.dev
    (let isBell (x : Packet) : Bool := x.type = 5 && x.src = src && x.seq = seq && x.offset = index && x.data = toBytes 8 v.toNat
    (let got (f : Packet → Bool) : Prop := d.arrived p f = some k
    got isBell ∧ d.lk.holdTx = false ∧ d.groupDenies index src ≠ 0))))) := by
  refine ⟨?_, ?_, ?_, ?_, ?_, ?_, ?_, ?_, ?_, ?_, ?_, ?_, ?_, ?_, ?_⟩ <;> decide +kernel

/-- The hypotheses of FaultQueues, clause by clause. -/
theorem test_FaultQueues_hypotheses :
  (let r : Nat := 3; let data : Word := 0; let s : State := (st {((base.withReg (fltPage 3 + 4) 1).withReg (fltPage 3 + 0x48) 1024 |>.withSlot 31 0 {state := .active, ctx := 5} |>.withSlot 31 1 {state := .active, ctx := 6}) with fl := {detected := [{region := 1}, {rec3 with ctx := none}]}});
    (good s = true ∧ r < 4 ∧ s.dev.up = true ∧ s.dev.rf.armed = [] ∧ (let d := s.dev
    (let p := fltPage r
    (let found := d.fl.detected.find? (·.region = r)
    (let rcd := found.getD {}
    found = some rcd ∧ bitOf (d.reg (p + 0x04)) 0 = true ∧ 1024 ≤ d.ringUsed r ∧ ((rcd.ctx = none ∨ 8 ≤ rcd.source / 16 ∨ (d.eng (r * 8 + rcd.source / 16)).held ≠ none))))))) ∧
    (good s = true ∧ r < 4 ∧ s.dev.up = true ∧ s.dev.rf.armed = [] ∧ (let d := s.dev
    (let fn := 3
    fn ≠ 0 ∧ fn ≤ 64 ∧ d.accepts fn = true))) ∧
    (good s = true ∧ r < 4 ∧ s.dev.up = true ∧ s.dev.rf.armed = [] ∧ (let d := s.dev
    (let p := fltPage r
    (let head := d.regN (p + 0x48)
    (let tail := fieldOf data 10 0
    (let free := ∀ b : Nat, b < 8 → (d.eng (r * 8 + b)).held = none
    d.accepts 0 = true ∧ (head + 2048 - tail) % 2048 ≤ 1024 ∧ free)))))) ∧
    (good s = true ∧ r < 4 ∧ s.dev.up = true ∧ s.dev.rf.armed = [] ∧ (let d := s.dev
    (let free := ∀ b : Nat, b < 8 → (d.eng (r * 8 + b)).held = none
    d.accepts 0 = true ∧ ((bitOf data 0 = true ∨ free)))))) ∧
  (let r : Nat := 3; let s : State := (st {base.withReg (fltPage 3 + 4) 0 with fl := {detected := [{region := 1}, rec3]}});
    (good s = true ∧ r < 4 ∧ s.dev.up = true ∧ s.dev.rf.armed = [] ∧ (let d := s.dev
    (let p := fltPage r
    (let found := d.fl.detected.find? (·.region = r)
    (let rcd := found.getD {}
    found = some rcd ∧ bitOf (d.reg (p + 0x04)) 0 = false)))))) ∧
  (let r : Nat := 3; let data : Word := 0; let s : State := (st {(base.withReg (fltPage 3 + 4) 1).withReg (fltPage 3 + 0x48) 2047 |>.withReg (fltPage 3 + 0x4C) 1024 with fl := {detected := [{region := 1}, rec3]}});
    (good s = true ∧ r < 4 ∧ s.dev.up = true ∧ s.dev.rf.armed = [] ∧ (let d := s.dev
    (let p := fltPage r
    (let head := d.regN (p + 0x48)
    (let addr := d.pair (p + 0x40) % 2 ^ 44 / 65536 * 65536 + head % 1024 * 64
    (let found := d.fl.detected.find? (·.region = r)
    (let rcd := found.getD {}
    found = some rcd ∧ bitOf (d.reg (p + 0x04)) 0 = true ∧ d.ringUsed r < 1024 ∧ populated addr = true))))))) ∧
    (good s = true ∧ r < 4 ∧ s.dev.up = true ∧ s.dev.rf.armed = [] ∧ (let d := s.dev
    (let p := fltPage r
    (let head := d.regN (p + 0x48)
    (let tail := fieldOf data 10 0
    d.accepts 0 = true ∧ 1024 < (head + 2048 - tail) % 2048)))))) ∧
  (let r : Nat := 3; let s : State := (st {((base.withReg (fltPage 3 + 4) 1).withReg (fltPage 3 + 0x48) 1024 |>.withSlot 31 0 {state := .active, ctx := 5} |>.withSlot 31 1 {state := .active, ctx := 6}) with fl := {detected := [{region := 1}, rec3]}});
    (good s = true ∧ r < 4 ∧ s.dev.up = true ∧ s.dev.rf.armed = [] ∧ (let d := s.dev
    (let p := fltPage r
    (let found := d.fl.detected.find? (·.region = r)
    (let rcd := found.getD {}
    (let c := rcd.ctx.getD 0
    found = some rcd ∧ bitOf (d.reg (p + 0x04)) 0 = true ∧ 1024 ≤ d.ringUsed r ∧ rcd.ctx = some c ∧ rcd.source / 16 < 8 ∧ (d.eng (r * 8 + rcd.source / 16)).held = none))))))) ∧
  (let r : Nat := 3; let data : Word := 2; let s : State := (st ((base.withReg (fltPage 3 + 4) 1).withReg (fltPage 3 + 0x48) 1024 |>.withEng 31 {held := some rec3} |>.withSlot 31 0 {state := .active, ctx := 5, frozen := true}));
    (good s = true ∧ r < 4 ∧ s.dev.up = true ∧ s.dev.rf.armed = [] ∧ (let d := s.dev
    (let found := d.fl.detected.find? (·.region = r)
    found = none))) ∧
    (good s = true ∧ r < 4 ∧ s.dev.up = true ∧ s.dev.rf.armed = [] ∧ (let d := s.dev
    (let p := fltPage r
    (let head := d.regN (p + 0x48)
    (let addr := d.pair (p + 0x40) % 2 ^ 44 / 65536 * 65536 + head % 1024 * 64
    (let tail := fieldOf data 10 0
    (let b := 7
    (let rcd := ((d.eng (r * 8 + 7)).held).getD {}
    d.accepts 0 = true ∧ (head + 2048 - tail) % 2048 < 1024 ∧ bitOf (d.reg (p + 0x04)) 0 = true ∧ populated addr = true ∧ b < 8 ∧ (d.eng (r * 8 + b)).held = some rcd ∧ ((∀ i : Nat, i < 8 → i ≠ b → (d.eng (r * 8 + i)).held = none)))))))))) ∧
    (good s = true ∧ r < 4 ∧ s.dev.up = true ∧ s.dev.rf.armed = [] ∧ (let d := s.dev
    (let b := 7
    d.accepts 0 = true ∧ bitOf data 0 = false ∧ b < 8 ∧ (d.eng (r * 8 + b)).held.isSome = true ∧ ((∀ i : Nat, i < 8 → i ≠ b → (d.eng (r * 8 + i)).held = none)))))) := by
  refine ⟨?_, ?_, ?_, ?_, ?_⟩ <;> decide +kernel

/-- The hypotheses of DeviceLogAndDieLinks (DeviceLog), clause by clause. -/
theorem test_DeviceLog_hypotheses :
  (let s : State := (st base);
    (good s = true ∧ (let d := s.dev
    d.fl.toLog = []))) ∧
  (let s : State := (st {base with rf := {armed := (List.range 8).map fun i => (nocPage i, 2)}, fl := {toLog := [rec3]}});
    (good s = true ∧ (let d := s.dev
    (let rcd := d.fl.toLog.headD {}
    (let rest := d.fl.toLog.tail
    d.fl.toLog = rcd :: rest ∧ d.clk.power ≠ .off ∧ d.clk.power ≠ .perst ∧ d.nocArmed rcd.region 6 ≠ none))))) ∧
  (let s : State := (st {base with clk := {power := .perst}, fl := {toLog := [rec3]}});
    (good s = true ∧ (let d := s.dev
    ((d.clk.power = .off ∨ d.clk.power = .perst))))) ∧
  (let s : State := (st {base.withReg (rstDevPage + 0x48) 511 |>.withReg (rstDevPage + 0x4C) 256 with fl := {toLog := [{rec3 with level := 2}, rec3], logSeq := 4294967295}});
    (good s = true ∧ (let d := s.dev
    (let rcd := d.fl.toLog.headD {}
    (let rest := d.fl.toLog.tail
    d.fl.toLog = rcd :: rest ∧ d.clk.power ≠ .off ∧ d.clk.power ≠ .perst ∧ d.nocArmed rcd.region 6 = none ∧ d.logUsed < 256 ∧ rcd.enabled = false ∧ rcd.level ≠ 3))))) ∧
  (let s : State := (st {base.withReg (rstDevPage + 0x48) 511 |>.withReg (rstDevPage + 0x4C) 300 with fl := {toLog := [{rec3 with level := 3}, rec3]}});
    (good s = true ∧ (let d := s.dev
    (let rcd := d.fl.toLog.headD {}
    (let rest := d.fl.toLog.tail
    d.fl.toLog = rcd :: rest ∧ d.clk.power ≠ .off ∧ d.clk.power ≠ .perst ∧ d.nocArmed rcd.region 6 = none ∧ d.logUsed < 256 ∧ ((rcd.enabled = true ∨ rcd.level = 3))))))) ∧
  (let s : State := (st {base.withReg (rstDevPage + 0x48) 256 with fl := {toLog := [{rec3 with level := 3}, rec3]}});
    (good s = true ∧ (let d := s.dev
    (let rcd := d.fl.toLog.headD {}
    (let rest := d.fl.toLog.tail
    d.fl.toLog = rcd :: rest ∧ d.clk.power ≠ .off ∧ d.clk.power ≠ .perst ∧ d.nocArmed rcd.region 6 = none ∧ 256 ≤ d.logUsed))))) := by
  refine ⟨?_, ?_, ?_, ?_, ?_, ?_⟩ <;> decide +kernel

/-- The hypotheses of DeviceLogAndDieLinks (DieLinks), clause by clause. -/
theorem test_DieLinks_hypotheses :
  (let die : Nat := 0; let link : Nat := 7;
    (((die < 4 ∨ die = 6 ∨ die = 7)) ∧ link < 8 ∧ linkEnds die link = false)) ∧
  (let die : Nat := 7; let link : Nat := 7; let fails : Nat := 0; let s : State := (st base);
    (((die < 4 ∨ die = 6 ∨ die = 7)) ∧ link < 8 ∧ (let d := s.dev
    linkEnds die link = true ∧ d.up = true ∧ d.rf.armed = [] ∧ fails < 8))) ∧
  (let die : Nat := 0; let link : Nat := 0; let fails : Nat := 8; let s : State := (st base);
    (((die < 4 ∨ die = 6 ∨ die = 7)) ∧ link < 8 ∧ (let d := s.dev
    linkEnds die link = true ∧ d.up = true ∧ d.rf.armed = [] ∧ 8 ≤ fails ∧ d.fl.devReset = none))) := by
  refine ⟨?_, ?_, ?_⟩ <;> decide +kernel

/-- The hypotheses of LinkFlits, clause by clause. -/
theorem test_LinkFlits_hypotheses :
  (let p : Nat := 17; let seq : Nat := 4; let h : FlitHead := {seq := 9}; let ps : List Packet := [{type := 1}]; let s : State := (st (portS 17 {state := .up, rxSeq := 9, group := [⟨{seq := 3}, []⟩]}));
    (p < 18 ∧ seq < 2 ^ 16 ∧ h.wf = true ∧ h.credit = 0) ∧
    (p < 18 ∧ seq < 2 ^ 16 ∧ h.wf = true ∧ (let d := s.dev
    (let q := d.port p
    (let mine : Bool := d.portOn p && h.good && h.seq = q.rxSeq
    mine = true ∧ d.unheld = true ∧ ((∀ x ∈ ps, x.mark = false)))))) ∧
    (p < 18 ∧ seq < 2 ^ 16 ∧ h.wf = true ∧ (let d := s.dev
    (let q := d.port p
    (let again := fromSeq q.replay seq
    (let mine : Bool := d.portOn p && h.good && h.seq = q.rxSeq
    mine = true ∧ again = []))))) ∧
    (p < 18 ∧ seq < 2 ^ 16 ∧ h.wf = true)) ∧
  (let p : Nat := 17; let seq : Nat := 4; let h : FlitHead := {seq := 9}; let s : State := (st (portS 17 {state := .up, rxSeq := 9, group := [⟨{seq := 3}, []⟩]}));
    (p < 18 ∧ seq < 2 ^ 16 ∧ h.wf = true ∧ (let d := s.dev
    (let q := d.port p
    (let mine : Bool := d.portOn p && h.good && h.seq = q.rxSeq
    mine = true ∧ q.rxNext = none)))) ∧
    (p < 18 ∧ seq < 2 ^ 16 ∧ h.wf = true ∧ (let d := s.dev
    d.portOn p = true ∧ h.good = true))) ∧
  (let p : Nat := 17; let seq : Nat := 4; let h : FlitHead := {seq := 9}; let s : State := (st (portS 17 {state := .up, rxSeq := 8, nakSent := true}));
    (p < 18 ∧ seq < 2 ^ 16 ∧ h.wf = true ∧ (let d := s.dev
    (let q := d.port p
    d.portOn p = true ∧ d.unheld = true ∧ h.good = true ∧ h.seq ≠ q.rxSeq ∧ q.nakSent = true)))) ∧
  (let p : Nat := 17; let seq : Nat := 4; let h : FlitHead := {seq := 9}; let s : State := (st (portS 17 {state := .up, rxSeq := 8}));
    (p < 18 ∧ seq < 2 ^ 16 ∧ h.wf = true ∧ (let d := s.dev
    (let q := d.port p
    d.portOn p = true ∧ d.unheld = true ∧ h.good = true ∧ h.seq ≠ q.rxSeq ∧ q.nakSent = false)))) ∧
  (let p : Nat := 17; let seq : Nat := 4; let h : FlitHead := {seq := 9}; let s : State := (st (portS 17 {state := .up, rxSeq := 9, nakSeq := 4, resends := 6, replay := [({seq := 3, body := .idle}, 0), ({seq := 4, body := .idle}, 0), ({seq := 5, body := .keyChange}, 1)]}));
    (p < 18 ∧ seq < 2 ^ 16 ∧ h.wf = true ∧ (let d := s.dev
    (let q := d.port p
    (let again := fromSeq q.replay seq
    (let n := if q.nakSeq = seq then q.resends + 1 else 1
    (let mine : Bool := d.portOn p && h.good && h.seq = q.rxSeq
    mine = true ∧ d.unheld = true ∧ again ≠ [] ∧ n < 8 ∧ h.credit = 0))))))) ∧
  (let p : Nat := 17; let seq : Nat := 4; let h : FlitHead := {seq := 9}; let s : State := (st (portS 17 {state := .up, rxSeq := 9, nakSeq := 4, resends := 7, replay := [({seq := 3, body := .idle}, 0), ({seq := 4, body := .idle}, 0), ({seq := 5, body := .keyChange}, 1)]}));
    (p < 18 ∧ seq < 2 ^ 16 ∧ h.wf = true ∧ (let d := s.dev
    (let q := d.port p
    (let again := fromSeq q.replay seq
    (let n := if q.nakSeq = seq then q.resends + 1 else 1
    (let mine : Bool := d.portOn p && h.good && h.seq = q.rxSeq
    mine = true ∧ again ≠ [] ∧ 8 ≤ n ∧ h.credit = 0))))))) ∧
  (let p : Nat := 17; let seq : Nat := 4; let h : FlitHead := {seq := 9}; let s : State := (st (portS 17 {state := .up, rxSeq := 9, rxNext := some ⟨1, 2⟩}));
    (p < 18 ∧ seq < 2 ^ 16 ∧ h.wf = true ∧ (let d := s.dev
    (let q := d.port p
    (let mine : Bool := d.portOn p && h.good && h.seq = q.rxSeq
    (let k := q.rxNext.getD {}
    mine = true ∧ q.rxNext = some k)))))) ∧
  (let p : Nat := 17; let seq : Nat := 4; let h : FlitHead := {seq := 9, good := false}; let s : State := (st (portS 17 {state := .up, rxSeq := 9}));
    (p < 18 ∧ seq < 2 ^ 16 ∧ h.wf = true ∧ (let d := s.dev
    d.portOn p = true ∧ d.unheld = true ∧ h.good = false ∧ d.rf.armed = []))) ∧
  (let p : Nat := 17; let seq : Nat := 4; let h : FlitHead := {seq := 9, credit := 3, vc := 2}; let s : State := (st (portS 17 {state := .up, rxSeq := 9}));
    (p < 18 ∧ seq < 2 ^ 16 ∧ h.wf = true ∧ (let d := s.dev
    (let q := d.port p
    (let quiet : Prop := q.waiting = [] ∧ q.txOpen = 0 ∧ q.txGroup < 2 ^ 62 ∧ q.nakDue = none
    h.credit ≠ 0 ∧ q.state ≠ .down ∧ quiet ∧ d.unheld = true))))) ∧
  (let p : Nat := 17; let seq : Nat := 4; let h : FlitHead := {seq := 9}; let s : State := (st {portS 17 {state := .up, rxSeq := 9, replay := [({seq := 4, body := .idle}, 0)]} with ob := {gong := {state := .stopped}}});
    (p < 18 ∧ seq < 2 ^ 16 ∧ h.wf = true ∧ (let d := s.dev
    (let q := d.port p
    (let again := fromSeq q.replay seq
    (let n := if q.nakSeq = seq then q.resends + 1 else 1
    (let mine : Bool := d.portOn p && h.good && h.seq = q.rxSeq
    mine = true ∧ d.unheld = false ∧ again ≠ [] ∧ n < 8 ∧ h.credit = 0))))))) ∧
  (let p : Nat := 17; let seq : Nat := 4; let h : FlitHead := {seq := 9}; let s : State := (st base);
    (p < 18 ∧ seq < 2 ^ 16 ∧ h.wf = true ∧ (let d := s.dev
    d.portOn p = false))) := by
  refine ⟨?_, ?_, ?_, ?_, ?_, ?_, ?_, ?_, ?_, ?_, ?_⟩ <;> decide +kernel

/-- The hypotheses of LinkFlits (LinkGroups), clause by clause. -/
theorem test_LinkGroups_hypotheses :
  (let p : Nat := 17; let h : FlitHead := {seq := 9}; let ok : Bool := true; let counter : Option Nat := none; let s : State := (st (portS 17 {state := .up, rxSeq := 9, group := [⟨{seq := 3, credit := 2, vc := 1}, [{type := 1}]⟩, ⟨{seq := 4, credit := 2}, [{type := 2}]⟩]}));
    (p < 18 ∧ h.wf = true ∧ (let d := s.dev
    (let q := d.port p
    (let mine : Bool := d.portOn p && h.good && h.seq = q.rxSeq
    (let verifies : Bool := ok && counter.all (· = q.rxGroup) && h.phase = q.rxPhase && q.group.all (·.head.phase = q.rxPhase)
    mine = true ∧ verifies = true))))) ∧
    (p < 18 ∧ h.wf = true ∧ (let d := s.dev
    (let q := d.port p
    (q.state ≠ .training ∨ q.lanes = 0 ∨ d.up = false))))) ∧
  (let p : Nat := 17; let h : FlitHead := {seq := 9}; let ok : Bool := true; let counter : Option Nat := (some 5); let s : State := (st (portS 17 {state := .up, rxGroup := 4, rxSeq := 9, group := [⟨{seq := 3, credit := 2, vc := 1}, [{type := 1}]⟩]}));
    (p < 18 ∧ h.wf = true ∧ (let d := s.dev
    (let q := d.port p
    (let mine : Bool := d.portOn p && h.good && h.seq = q.rxSeq
    (let verifies : Bool := ok && counter.all (· = q.rxGroup) && h.phase = q.rxPhase && q.group.all (·.head.phase = q.rxPhase)
    mine = true ∧ verifies = false ∧ q.macRun < 2 ∧ d.rf.armed = [] ∧ h.credit = 0)))))) ∧
  (let p : Nat := 17; let h : FlitHead := {seq := 9}; let ok : Bool := false; let counter : Option Nat := none; let s : State := (st (portS 17 {state := .up, rxSeq := 9, macRun := 2, group := [⟨{seq := 3}, [{type := 1}]⟩]}));
    (p < 18 ∧ h.wf = true ∧ (let d := s.dev
    (let q := d.port p
    (let mine : Bool := d.portOn p && h.good && h.seq = q.rxSeq
    (let verifies : Bool := ok && counter.all (· = q.rxGroup) && h.phase = q.rxPhase && q.group.all (·.head.phase = q.rxPhase)
    mine = true ∧ verifies = false ∧ 2 ≤ q.macRun ∧ d.rf.armed = [] ∧ h.credit = 0)))))) ∧
  (let p : Nat := 17; let h : FlitHead := {seq := 9}; let s : State := (st (portS 17 {state := .training, lanes := 255, rxSeq := 9, replay := [({seq := 3, body := .idle}, 0)]}));
    (p < 18 ∧ h.wf = true ∧ (let d := s.dev
    d.portOn p = false)) ∧
    (p < 18 ∧ h.wf = true ∧ (let d := s.dev
    (let q := d.port p
    d.up = true ∧ q.state = .training ∧ q.lanes ≠ 0)))) := by
  refine ⟨?_, ?_, ?_, ?_⟩ <;> decide +kernel

/-- The hypotheses of LinkAnswers, clause by clause. -/
theorem test_LinkAnswers_hypotheses :
  (let p : Nat := 17; let src : Nat := 8191; let seq : Nat := 7; let why : Nat := 5; let id : Nat := 3; let data : List Byte := [1,2]; let x : Packet := {type := 3, src := 8191, seq := 7, data := [1, 2]}; let r : Req := {kind := .read, dst := 8191, seq := 7, id := 3, len := 4, slot := 255, orphan := true, sends := 1}; let l : List Req := [{kind := .read, id := 1, sends := 1}]; let k : List Req := [{kind := .bell, id := 9, sends := 2}]; let s : State := (st {base with lk := {((portS 17 {state := .up, rx := [{type := 3, src := 8191, seq := 7, data := [1, 2]}]}).lk) with reqs := [{kind := .read, id := 1, sends := 1}, {kind := .read, dst := 8191, seq := 7, id := 3, len := 4, slot := 255, orphan := true, sends := 1}, {kind := .bell, id := 9, sends := 2}]}});
    (p < 18 ∧ src < 8192 ∧ seq < 2 ^ 22 ∧ why < 8 ∧ 1 ≤ data.length ∧ data.length ≤ 512 ∧ (let d := s.dev
    d.lk.reqs = l ++ r :: k ∧ r.dst = src ∧ r.seq = seq ∧ r.id = id ∧ ((∀ y ∈ l ++ k, y.id ≠ id ∧ ¬ (y.dst = src ∧ y.seq = seq) ∧ y.sends ≠ 0)) ∧ (let got (t : Nat) (f : Packet → Bool) : Prop := d.arrived p (fun y => y.type = t && y.src = src && y.seq = seq && f y) = some x
    (let isRead : Prop := got 3 fun y => y.data = data
    d.peer src = .normal ∧ r.answered = false ∧ r.kind = .read ∧ r.orphan = true ∧ isRead))))) ∧
  (let p : Nat := 17; let src : Nat := 8191; let seq : Nat := 7; let why : Nat := 5; let id : Nat := 3; let data : List Byte := [1,2]; let r : Req := {kind := .read, dst := 8191, seq := 7, id := 3, len := 4, slot := 255, orphan := true, sends := 1}; let l : List Req := [{kind := .read, id := 1, sends := 1}]; let k : List Req := [{kind := .bell, id := 9, sends := 2}]; let s : State := (st {base with lk := {((portS 17 {state := .up, rx := [{type := 3, src := 8191, seq := 7, data := [1, 2]}]}).lk) with reqs := [{kind := .read, id := 1, sends := 1}, {kind := .read, dst := 8191, seq := 7, id := 3, len := 4, slot := 255, orphan := true, sends := 1}, {kind := .bell, id := 9, sends := 2}]}});
    (p < 18 ∧ src < 8192 ∧ seq < 2 ^ 22 ∧ why < 8 ∧ 1 ≤ data.length ∧ data.length ≤ 512 ∧ (let d := s.dev
    d.lk.reqs = l ++ r :: k ∧ r.dst = src ∧ r.seq = seq ∧ r.id = id ∧ ((∀ y ∈ l ++ k, y.id ≠ id ∧ ¬ (y.dst = src ∧ y.seq = seq) ∧ y.sends ≠ 0)) ∧ (let any' (_ : Packet) : Bool := true
    (let t := 9
    t < 2 ^ 22 ∧ ((d.arrived p fun y => y.type = 4 && y.src = src && y.seq = t && any' y) = none)))))) ∧
  (let p : Nat := 17; let src : Nat := 8191; let seq : Nat := 7; let why : Nat := 5; let id : Nat := 3; let data : List Byte := [1,2]; let r : Req := {kind := .read, dst := 8191, seq := 7, id := 3, len := 4, slot := 255, orphan := true, sends := 1}; let l : List Req := [{kind := .read, id := 1, sends := 1}]; let k : List Req := [{kind := .bell, id := 9, sends := 2}]; let s : State := (st {base with lk := {((portS 17 {state := .up, rx := [{type := 3, src := 8191, seq := 7, data := [1, 2]}]}).lk) with reqs := [{kind := .read, id := 1, sends := 1}, {kind := .read, dst := 8191, seq := 7, id := 3, len := 4, slot := 255, orphan := true, sends := 1}, {kind := .bell, id := 9, sends := 2}]}});
    (p < 18 ∧ src < 8192 ∧ seq < 2 ^ 22 ∧ why < 8 ∧ 1 ≤ data.length ∧ data.length ≤ 512 ∧ (let d := s.dev
    d.lk.reqs = l ++ r :: k ∧ r.dst = src ∧ r.seq = seq ∧ r.id = id ∧ ((∀ y ∈ l ++ k, y.id ≠ id ∧ ¬ (y.dst = src ∧ y.seq = seq) ∧ y.sends ≠ 0)) ∧ (let q := (d.nextPort src).getD 0
    d.up = true ∧ d.unheld = true ∧ r.answered = false ∧ 1 ≤ r.sends ∧ d.nextPort src = some q)))) ∧
  (let p : Nat := 17; let src : Nat := 8191; let seq : Nat := 7; let why : Nat := 5; let id : Nat := 3; let data : List Byte := [1,2]; let r : Req := {kind := .read, dst := 8191, seq := 7, id := 3, len := 4, slot := 255, orphan := true, sends := 1}; let l : List Req := [{kind := .read, id := 1, sends := 1}]; let k : List Req := [{kind := .bell, id := 9, sends := 2}]; let s : State := (st {base with lk := {((portS 17 {state := .up, rx := [{type := 3, src := 8191, seq := 7, data := [1, 2]}]}).lk) with reqs := [{kind := .read, id := 1, sends := 1}, {kind := .read, dst := 8191, seq := 7, id := 3, len := 4, slot := 255, orphan := true, sends := 1}, {kind := .bell, id := 9, sends := 2}]}});
    (p < 18 ∧ src < 8192 ∧ seq < 2 ^ 22 ∧ why < 8 ∧ 1 ≤ data.length ∧ data.length ≤ 512 ∧ (let d := s.dev
    d.lk.reqs = l ++ r :: k ∧ r.dst = src ∧ r.seq = seq ∧ r.id = id ∧ ((∀ y ∈ l ++ k, y.id ≠ id ∧ ¬ (y.dst = src ∧ y.seq = seq) ∧ y.sends ≠ 0)) ∧ (r.answered = false ∨ r.kind ≠ .write)))) ∧
  (let p : Nat := 17; let src : Nat := 8191; let seq : Nat := 7; let why : Nat := 5; let id : Nat := 3; let data : List Byte := [1,2]; let x : Packet := {type := 7, src := 8191, seq := 7, len := 5}; let r : Req := {kind := .read, dst := 8191, seq := 7, id := 3, len := 4, slot := 255, orphan := true, sends := 1}; let l : List Req := [{kind := .read, id := 1, sends := 1}]; let k : List Req := [{kind := .bell, id := 9, sends := 2}]; let s : State := (st {base with lk := {((portS 17 {state := .up, rx := [{type := 7, src := 8191, seq := 7, len := 5}]}).lk) with reqs := [{kind := .read, id := 1, sends := 1}, {kind := .read, dst := 8191, seq := 7, id := 3, len := 4, slot := 255, orphan := true, sends := 1}, {kind := .bell, id := 9, sends := 2}]}});
    (p < 18 ∧ src < 8192 ∧ seq < 2 ^ 22 ∧ why < 8 ∧ 1 ≤ data.length ∧ data.length ≤ 512 ∧ (let d := s.dev
    d.lk.reqs = l ++ r :: k ∧ r.dst = src ∧ r.seq = seq ∧ r.id = id ∧ ((∀ y ∈ l ++ k, y.id ≠ id ∧ ¬ (y.dst = src ∧ y.seq = seq) ∧ y.sends ≠ 0)) ∧ (let got (t : Nat) (f : Packet → Bool) : Prop := d.arrived p (fun y => y.type = t && y.src = src && y.seq = seq && f y) = some x
    (let isReject : Prop := got 7 fun y => y.len = why
    d.peer src = .normal ∧ r.answered = false ∧ r.kind = .read ∧ r.orphan = true ∧ isReject))))) ∧
  (let p : Nat := 17; let src : Nat := 8191; let seq : Nat := 7; let why : Nat := 5; let id : Nat := 3; let data : List Byte := [1,2]; let x : Packet := {type := 3, src := 8191, seq := 7, data := [1, 2]}; let r : Req := {kind := .read, dst := 8191, seq := 7, id := 3, len := 4, slot := 255, sends := 1}; let l : List Req := [{kind := .read, id := 1, sends := 1}]; let k : List Req := [{kind := .bell, id := 9, sends := 2}]; let s : State := (st {base with lk := {((portS 17 {state := .up, rx := [{type := 3, src := 8191, seq := 7, data := [1, 2]}]}).lk) with reqs := [{kind := .read, id := 1, sends := 1}, {kind := .read, dst := 8191, seq := 7, id := 3, len := 4, slot := 255, sends := 1}, {kind := .bell, id := 9, sends := 2}]}});
    (p < 18 ∧ src < 8192 ∧ seq < 2 ^ 22 ∧ why < 8 ∧ 1 ≤ data.length ∧ data.length ≤ 512 ∧ (let d := s.dev
    d.lk.reqs = l ++ r :: k ∧ r.dst = src ∧ r.seq = seq ∧ r.id = id ∧ ((∀ y ∈ l ++ k, y.id ≠ id ∧ ¬ (y.dst = src ∧ y.seq = seq) ∧ y.sends ≠ 0)) ∧ (let got (t : Nat) (f : Packet → Bool) : Prop := d.arrived p (fun y => y.type = t && y.src = src && y.seq = seq && f y) = some x
    (let isRead : Prop := got 3 fun y => y.data = data
    d.peer src = .normal ∧ r.answered = false ∧ r.kind = .read ∧ r.orphan = false ∧ isRead))))) ∧
  (let p : Nat := 17; let src : Nat := 8191; let seq : Nat := 7; let why : Nat := 5; let id : Nat := 3; let data : List Byte := [1,2]; let x : Packet := {type := 4, src := 8191, seq := 7}; let r : Req := {kind := .read, dst := 8191, seq := 7, id := 3, len := 4, slot := 255, sends := 1}; let l : List Req := [{kind := .read, id := 1, sends := 1}]; let k : List Req := [{kind := .bell, id := 9, sends := 2}]; let s : State := (st {base with lk := {((portS 17 {state := .up, rx := [{type := 4, src := 8191, seq := 7}]}).lk) with reqs := [{kind := .read, id := 1, sends := 1}, {kind := .read, dst := 8191, seq := 7, id := 3, len := 4, slot := 255, sends := 1}, {kind := .bell, id := 9, sends := 2}]}});
    (p < 18 ∧ src < 8192 ∧ seq < 2 ^ 22 ∧ why < 8 ∧ 1 ≤ data.length ∧ data.length ≤ 512 ∧ (let d := s.dev
    d.lk.reqs = l ++ r :: k ∧ r.dst = src ∧ r.seq = seq ∧ r.id = id ∧ ((∀ y ∈ l ++ k, y.id ≠ id ∧ ¬ (y.dst = src ∧ y.seq = seq) ∧ y.sends ≠ 0)) ∧ (let got (t : Nat) (f : Packet → Bool) : Prop := d.arrived p (fun y => y.type = t && y.src = src && y.seq = seq && f y) = some x
    (let any' (_ : Packet) : Bool := true
    d.peer src = .normal ∧ r.answered = false ∧ r.kind = .read ∧ r.orphan = false ∧ got 4 any'))))) ∧
  (let p : Nat := 17; let src : Nat := 8191; let seq : Nat := 7; let why : Nat := 5; let id : Nat := 3; let data : List Byte := [1,2]; let x : Packet := {type := 7, src := 8191, seq := 7, len := 5}; let r : Req := {kind := .read, dst := 8191, seq := 7, id := 3, len := 4, slot := 255, sends := 1}; let l : List Req := [{kind := .read, id := 1, sends := 1}]; let k : List Req := [{kind := .bell, id := 9, sends := 2}]; let s : State := (st {base with lk := {((portS 17 {state := .up, rx := [{type := 7, src := 8191, seq := 7, len := 5}]}).lk) with reqs := [{kind := .read, id := 1, sends := 1}, {kind := .read, dst := 8191, seq := 7, id := 3, len := 4, slot := 255, sends := 1}, {kind := .bell, id := 9, sends := 2}]}});
    (p < 18 ∧ src < 8192 ∧ seq < 2 ^ 22 ∧ why < 8 ∧ 1 ≤ data.length ∧ data.length ≤ 512 ∧ (let d := s.dev
    d.lk.reqs = l ++ r :: k ∧ r.dst = src ∧ r.seq = seq ∧ r.id = id ∧ ((∀ y ∈ l ++ k, y.id ≠ id ∧ ¬ (y.dst = src ∧ y.seq = seq) ∧ y.sends ≠ 0)) ∧ (let got (t : Nat) (f : Packet → Bool) : Prop := d.arrived p (fun y => y.type = t && y.src = src && y.seq = seq && f y) = some x
    (let isReject : Prop := got 7 fun y => y.len = why
    d.peer src = .normal ∧ r.answered = false ∧ r.kind = .read ∧ r.orphan = false ∧ isReject))))) ∧
  (let p : Nat := 17; let src : Nat := 8191; let seq : Nat := 7; let why : Nat := 5; let id : Nat := 3; let data : List Byte := [1,2]; let x : Packet := {type := 3, src := 8191, seq := 7, data := [1, 2]}; let r : Req := {kind := .bell, dst := 8191, seq := 7, id := 3, len := 4, slot := 255, sends := 1}; let l : List Req := [{kind := .read, id := 1, sends := 1}]; let k : List Req := [{kind := .bell, id := 9, sends := 2}]; let s : State := (st {base with lk := {((portS 17 {state := .up, rx := [{type := 3, src := 8191, seq := 7, data := [1, 2]}]}).lk) with reqs := [{kind := .read, id := 1, sends := 1}, {kind := .bell, dst := 8191, seq := 7, id := 3, len := 4, slot := 255, sends := 1}, {kind := .bell, id := 9, sends := 2}]}});
    (p < 18 ∧ src < 8192 ∧ seq < 2 ^ 22 ∧ why < 8 ∧ 1 ≤ data.length ∧ data.length ≤ 512 ∧ (let d := s.dev
    d.lk.reqs = l ++ r :: k ∧ r.dst = src ∧ r.seq = seq ∧ r.id = id ∧ ((∀ y ∈ l ++ k, y.id ≠ id ∧ ¬ (y.dst = src ∧ y.seq = seq) ∧ y.sends ≠ 0)) ∧ (let got (t : Nat) (f : Packet → Bool) : Prop := d.arrived p (fun y => y.type = t && y.src = src && y.seq = seq && f y) = some x
    (let isRead : Prop := got 3 fun y => y.data = data
    d.peer src = .normal ∧ r.answered = false ∧ r.kind = .bell ∧ isRead))))) ∧
  (let p : Nat := 17; let src : Nat := 8191; let seq : Nat := 7; let why : Nat := 5; let id : Nat := 3; let data : List Byte := [1,2]; let x : Packet := {type := 4, src := 8191, seq := 7}; let r : Req := {kind := .bell, dst := 8191, seq := 7, id := 3, len := 4, slot := 255, sends := 1}; let l : List Req := [{kind := .read, id := 1, sends := 1}]; let k : List Req := [{kind := .bell, id := 9, sends := 2}]; let s : State := (st {base with lk := {((portS 17 {state := .up, rx := [{type := 4, src := 8191, seq := 7}]}).lk) with reqs := [{kind := .read, id := 1, sends := 1}, {kind := .bell, dst := 8191, seq := 7, id := 3, len := 4, slot := 255, sends := 1}, {kind := .bell, id := 9, sends := 2}]}});
    (p < 18 ∧ src < 8192 ∧ seq < 2 ^ 22 ∧ why < 8 ∧ 1 ≤ data.length ∧ data.length ≤ 512 ∧ (let d := s.dev
    d.lk.reqs = l ++ r :: k ∧ r.dst = src ∧ r.seq = seq ∧ r.id = id ∧ ((∀ y ∈ l ++ k, y.id ≠ id ∧ ¬ (y.dst = src ∧ y.seq = seq) ∧ y.sends ≠ 0)) ∧ (let got (t : Nat) (f : Packet → Bool) : Prop := d.arrived p (fun y => y.type = t && y.src = src && y.seq = seq && f y) = some x
    (let any' (_ : Packet) : Bool := true
    d.peer src = .normal ∧ r.answered = false ∧ r.kind = .bell ∧ got 4 any'))))) ∧
  (let p : Nat := 17; let src : Nat := 8191; let seq : Nat := 7; let why : Nat := 5; let id : Nat := 3; let data : List Byte := [1,2]; let x : Packet := {type := 7, src := 8191, seq := 7, len := 5}; let r : Req := {kind := .bell, dst := 8191, seq := 7, id := 3, len := 4, slot := 255, sends := 1}; let l : List Req := [{kind := .read, id := 1, sends := 1}]; let k : List Req := [{kind := .bell, id := 9, sends := 2}]; let s : State := (st {base with lk := {((portS 17 {state := .up, rx := [{type := 7, src := 8191, seq := 7, len := 5}]}).lk) with reqs := [{kind := .read, id := 1, sends := 1}, {kind := .bell, dst := 8191, seq := 7, id := 3, len := 4, slot := 255, sends := 1}, {kind := .bell, id := 9, sends := 2}]}});
    (p < 18 ∧ src < 8192 ∧ seq < 2 ^ 22 ∧ why < 8 ∧ 1 ≤ data.length ∧ data.length ≤ 512 ∧ (let d := s.dev
    d.lk.reqs = l ++ r :: k ∧ r.dst = src ∧ r.seq = seq ∧ r.id = id ∧ ((∀ y ∈ l ++ k, y.id ≠ id ∧ ¬ (y.dst = src ∧ y.seq = seq) ∧ y.sends ≠ 0)) ∧ (let got (t : Nat) (f : Packet → Bool) : Prop := d.arrived p (fun y => y.type = t && y.src = src && y.seq = seq && f y) = some x
    (let isReject : Prop := got 7 fun y => y.len = why
    d.peer src = .normal ∧ r.answered = false ∧ r.kind = .bell ∧ isReject))))) ∧
  (let p : Nat := 17; let src : Nat := 8191; let seq : Nat := 7; let why : Nat := 5; let id : Nat := 3; let data : List Byte := [1,2]; let x : Packet := {type := 4, src := 8191, seq := 7}; let r : Req := {kind := .write, dst := 8191, seq := 7, id := 3, len := 4, slot := 255, sends := 1}; let l : List Req := [{kind := .read, id := 1, sends := 1}]; let k : List Req := [{kind := .bell, id := 9, sends := 2}]; let s : State := (st {base with lk := {((portS 17 {state := .up, rx := [{type := 4, src := 8191, seq := 7}]}).lk) with reqs := [{kind := .read, id := 1, sends := 1}, {kind := .write, dst := 8191, seq := 7, id := 3, len := 4, slot := 255, sends := 1}, {kind := .bell, id := 9, sends := 2}]}});
    (p < 18 ∧ src < 8192 ∧ seq < 2 ^ 22 ∧ why < 8 ∧ 1 ≤ data.length ∧ data.length ≤ 512 ∧ (let d := s.dev
    d.lk.reqs = l ++ r :: k ∧ r.dst = src ∧ r.seq = seq ∧ r.id = id ∧ ((∀ y ∈ l ++ k, y.id ≠ id ∧ ¬ (y.dst = src ∧ y.seq = seq) ∧ y.sends ≠ 0)) ∧ (let got (t : Nat) (f : Packet → Bool) : Prop := d.arrived p (fun y => y.type = t && y.src = src && y.seq = seq && f y) = some x
    (let any' (_ : Packet) : Bool := true
    d.peer src = .normal ∧ r.answered = false ∧ r.kind = .write ∧ r.sends = 1 ∧ got 4 any'))))) ∧
  (let p : Nat := 17; let src : Nat := 8191; let seq : Nat := 7; let why : Nat := 5; let id : Nat := 3; let data : List Byte := [1,2]; let x : Packet := {type := 4, src := 8191, seq := 7}; let r : Req := {kind := .write, dst := 8191, seq := 7, id := 3, len := 4, slot := 255, sends := 2}; let l : List Req := [{kind := .read, id := 1, sends := 1}]; let k : List Req := [{kind := .bell, id := 9, sends := 2}]; let s : State := (st {base with lk := {((portS 17 {state := .up, rx := [{type := 4, src := 8191, seq := 7}]}).lk) with reqs := [{kind := .read, id := 1, sends := 1}, {kind := .write, dst := 8191, seq := 7, id := 3, len := 4, slot := 255, sends := 2}, {kind := .bell, id := 9, sends := 2}]}});
    (p < 18 ∧ src < 8192 ∧ seq < 2 ^ 22 ∧ why < 8 ∧ 1 ≤ data.length ∧ data.length ≤ 512 ∧ (let d := s.dev
    d.lk.reqs = l ++ r :: k ∧ r.dst = src ∧ r.seq = seq ∧ r.id = id ∧ ((∀ y ∈ l ++ k, y.id ≠ id ∧ ¬ (y.dst = src ∧ y.seq = seq) ∧ y.sends ≠ 0)) ∧ (let got (t : Nat) (f : Packet → Bool) : Prop := d.arrived p (fun y => y.type = t && y.src = src && y.seq = seq && f y) = some x
    (let any' (_ : Packet) : Bool := true
    d.peer src = .normal ∧ r.answered = false ∧ r.kind = .write ∧ 1 < r.sends ∧ r.sends ≠ 0 ∧ got 4 any'))))) ∧
  (let p : Nat := 17; let src : Nat := 8191; let seq : Nat := 7; let why : Nat := 5; let id : Nat := 3; let data : List Byte := [1,2]; let x : Packet := {type := 4, src := 8191, seq := 7}; let r : Req := {kind := .bell, dst := 8191, seq := 7, id := 3, len := 4, slot := 255, sends := 1}; let l : List Req := [{kind := .read, id := 1, sends := 1}]; let k : List Req := [{kind := .bell, id := 9, sends := 2}]; let s : State := (st {base with lk := {((portS 17 {state := .up, rx := [{type := 4, src := 8191, seq := 7}]}).lk) with reqs := [{kind := .read, id := 1, sends := 1}, {kind := .bell, dst := 8191, seq := 7, id := 3, len := 4, slot := 255, sends := 1}, {kind := .bell, id := 9, sends := 2}], peers := [(8191, (.hold, 3))]}});
    (p < 18 ∧ src < 8192 ∧ seq < 2 ^ 22 ∧ why < 8 ∧ 1 ≤ data.length ∧ data.length ≤ 512 ∧ (let d := s.dev
    d.lk.reqs = l ++ r :: k ∧ r.dst = src ∧ r.seq = seq ∧ r.id = id ∧ ((∀ y ∈ l ++ k, y.id ≠ id ∧ ¬ (y.dst = src ∧ y.seq = seq) ∧ y.sends ≠ 0)) ∧ (let got (t : Nat) (f : Packet → Bool) : Prop := d.arrived p (fun y => y.type = t && y.src = src && y.seq = seq && f y) = some x
    (let any' (_ : Packet) : Bool := true
    d.peer src = .hold ∧ r.answered = false ∧ r.kind = .bell ∧ got 4 any'))))) ∧
  (let p : Nat := 17; let src : Nat := 8191; let seq : Nat := 7; let why : Nat := 5; let id : Nat := 3; let data : List Byte := [1,2]; let x : Packet := {type := 4, src := 8191, seq := 9}; let r : Req := {kind := .bell, dst := 8191, seq := 7, id := 3, len := 4, slot := 255, sends := 1}; let l : List Req := [{kind := .read, id := 1, sends := 1}]; let k : List Req := [{kind := .bell, id := 9, sends := 2}]; let s : State := (st {base with lk := {((portS 17 {state := .up, rx := [{type := 4, src := 8191, seq := 9}]}).lk) with reqs := [{kind := .read, id := 1, sends := 1}, {kind := .bell, dst := 8191, seq := 7, id := 3, len := 4, slot := 255, sends := 1}, {kind := .bell, id := 9, sends := 2}]}});
    (p < 18 ∧ src < 8192 ∧ seq < 2 ^ 22 ∧ why < 8 ∧ 1 ≤ data.length ∧ data.length ≤ 512 ∧ (let d := s.dev
    d.lk.reqs = l ++ r :: k ∧ r.dst = src ∧ r.seq = seq ∧ r.id = id ∧ ((∀ y ∈ l ++ k, y.id ≠ id ∧ ¬ (y.dst = src ∧ y.seq = seq) ∧ y.sends ≠ 0)) ∧ (let any' (_ : Packet) : Bool := true
    (let t := 9
    t < 2 ^ 22 ∧ d.peer src = .normal ∧ ((∀ y ∈ d.lk.reqs, ¬ (y.dst = src ∧ y.seq = t))) ∧ ((d.arrived p fun y => y.type = 4 && y.src = src && y.seq = t && any' y) = some x)))))) ∧
  (let p : Nat := 17; let src : Nat := 8191; let seq : Nat := 7; let why : Nat := 5; let id : Nat := 3; let data : List Byte := [1,2]; let x : Packet := {type := 7, src := 8191, seq := 7, len := 5}; let r : Req := {kind := .write, dst := 8191, seq := 7, id := 3, len := 4, slot := 255, sends := 1}; let l : List Req := [{kind := .read, id := 1, sends := 1}]; let k : List Req := [{kind := .bell, id := 9, sends := 2}]; let s : State := (st {base with lk := {((portS 17 {state := .up, rx := [{type := 7, src := 8191, seq := 7, len := 5}]}).lk) with reqs := [{kind := .read, id := 1, sends := 1}, {kind := .write, dst := 8191, seq := 7, id := 3, len := 4, slot := 255, sends := 1}, {kind := .bell, id := 9, sends := 2}]}});
    (p < 18 ∧ src < 8192 ∧ seq < 2 ^ 22 ∧ why < 8 ∧ 1 ≤ data.length ∧ data.length ≤ 512 ∧ (let d := s.dev
    d.lk.reqs = l ++ r :: k ∧ r.dst = src ∧ r.seq = seq ∧ r.id = id ∧ ((∀ y ∈ l ++ k, y.id ≠ id ∧ ¬ (y.dst = src ∧ y.seq = seq) ∧ y.sends ≠ 0)) ∧ (let got (t : Nat) (f : Packet → Bool) : Prop := d.arrived p (fun y => y.type = t && y.src = src && y.seq = seq && f y) = some x
    (let isReject : Prop := got 7 fun y => y.len = why
    d.peer src = .normal ∧ r.answered = false ∧ r.kind = .write ∧ r.sends = 1 ∧ (d.slot (r.slot / 8) (r.slot % 8)).cur = none ∧ isReject))))) ∧
  (let p : Nat := 17; let src : Nat := 8191; let seq : Nat := 7; let why : Nat := 5; let id : Nat := 3; let data : List Byte := [1,2]; let x : Packet := {type := 7, src := 8191, seq := 7, len := 5}; let r : Req := {kind := .write, dst := 8191, seq := 7, id := 3, len := 4, slot := 255, sends := 1}; let l : List Req := [{kind := .read, id := 1, sends := 1}]; let k : List Req := [{kind := .bell, id := 9, sends := 2}]; let s : State := (st {(base.withSlot 31 7 {cur := some {}}) with lk := {((portS 17 {state := .up, rx := [{type := 7, src := 8191, seq := 7, len := 5}]}).lk) with reqs := [{kind := .read, id := 1, sends := 1}, {kind := .write, dst := 8191, seq := 7, id := 3, len := 4, slot := 255, sends := 1}, {kind := .bell, id := 9, sends := 2}]}});
    (p < 18 ∧ src < 8192 ∧ seq < 2 ^ 22 ∧ why < 8 ∧ 1 ≤ data.length ∧ data.length ≤ 512 ∧ (let d := s.dev
    d.lk.reqs = l ++ r :: k ∧ r.dst = src ∧ r.seq = seq ∧ r.id = id ∧ ((∀ y ∈ l ++ k, y.id ≠ id ∧ ¬ (y.dst = src ∧ y.seq = seq) ∧ y.sends ≠ 0)) ∧ (let got (t : Nat) (f : Packet → Bool) : Prop := d.arrived p (fun y => y.type = t && y.src = src && y.seq = seq && f y) = some x
    (let isReject : Prop := got 7 fun y => y.len = why
    (let c := (d.slot (r.slot / 8) (r.slot % 8)).cur.getD {}
    d.peer src = .normal ∧ r.answered = false ∧ r.kind = .write ∧ r.sends ≠ 0 ∧ (d.slot (r.slot / 8) (r.slot % 8)).cur = some c ∧ c.status = none ∧ isReject)))))) ∧
  (let p : Nat := 17; let src : Nat := 8191; let seq : Nat := 7; let why : Nat := 5; let id : Nat := 3; let data : List Byte := [1,2]; let r : Req := {kind := .write, dst := 8191, seq := 7, id := 3, len := 4, slot := 255, sends := 2}; let l : List Req := [{kind := .read, id := 1, sends := 1}]; let k : List Req := [{kind := .bell, id := 9, sends := 2}]; let s : State := (st {base with lk := {((portS 17 {state := .up, rx := [{type := 7, src := 8191, seq := 7, len := 5}]}).lk) with reqs := [{kind := .read, id := 1, sends := 1}, {kind := .write, dst := 8191, seq := 7, id := 3, len := 4, slot := 255, sends := 2}, {kind := .bell, id := 9, sends := 2}], routes := [(8191, 0x10000)]}});
    (p < 18 ∧ src < 8192 ∧ seq < 2 ^ 22 ∧ why < 8 ∧ 1 ≤ data.length ∧ data.length ≤ 512 ∧ (let d := s.dev
    d.lk.reqs = l ++ r :: k ∧ r.dst = src ∧ r.seq = seq ∧ r.id = id ∧ ((∀ y ∈ l ++ k, y.id ≠ id ∧ ¬ (y.dst = src ∧ y.seq = seq) ∧ y.sends ≠ 0)) ∧ d.up = true ∧ d.unheld = true ∧ r.answered = false ∧ 1 ≤ r.sends ∧ d.nextPort src = none))) ∧
  (let p : Nat := 17; let src : Nat := 8191; let seq : Nat := 7; let why : Nat := 5; let id : Nat := 3; let data : List Byte := [1,2]; let r : Req := {kind := .write, dst := 8191, seq := 7, id := 3, len := 4, slot := 255, sends := 2, answered := true}; let l : List Req := [{kind := .read, id := 1, sends := 1}]; let k : List Req := [{kind := .bell, id := 9, sends := 2}]; let s : State := (st {base with lk := {((portS 17 {state := .up, rx := [{type := 7, src := 8191, seq := 7, len := 5}]}).lk) with reqs := [{kind := .read, id := 1, sends := 1}, {kind := .write, dst := 8191, seq := 7, id := 3, len := 4, slot := 255, sends := 2, answered := true}, {kind := .bell, id := 9, sends := 2}]}});
    (p < 18 ∧ src < 8192 ∧ seq < 2 ^ 22 ∧ why < 8 ∧ 1 ≤ data.length ∧ data.length ≤ 512 ∧ (let d := s.dev
    d.lk.reqs = l ++ r :: k ∧ r.dst = src ∧ r.seq = seq ∧ r.id = id ∧ ((∀ y ∈ l ++ k, y.id ≠ id ∧ ¬ (y.dst = src ∧ y.seq = seq) ∧ y.sends ≠ 0)) ∧ d.up = true ∧ r.answered = true ∧ r.kind = .write))) := by
  refine ⟨?_, ?_, ?_, ?_, ?_, ?_, ?_, ?_, ?_, ?_, ?_, ?_, ?_, ?_, ?_, ?_, ?_, ?_, ?_⟩ <;> decide +kernel

/-- The hypotheses of PeersAndHolding, clause by clause. -/
theorem test_PeersAndHolding_hypotheses :
  (let p : Nat := 17; let src : Nat := 8191; let seq : Nat := 5; let h : FlitHead := {seq := 9}; let k : Packet := {type := 6, src := 8191, seq := 5}; let s : State := (st {portS 17 {state := .up, rxSeq := 9, rx := [{type := 6, src := 8191, seq := 5}]} with lk := {(portS 17 {state := .up, rxSeq := 9, rx := [{type := 6, src := 8191, seq := 5}]}).lk with holdTx := false}});
    (p < 18 ∧ src < 8192 ∧ seq < 2 ^ 22 ∧ h.wf = true ∧ (let d := s.dev
    (let got : Option Packet := d.arrived p fun y => y.type = 6 && y.src = src && y.seq = seq && true
    got = some k ∧ d.peer src = .normal))) ∧
    (p < 18 ∧ src < 8192 ∧ seq < 2 ^ 22 ∧ h.wf = true ∧ (let d := s.dev
    (let waiting := d.lk.reqs.any fun r => r.dst = src && !r.answered
    (waiting = false ∨ d.unheld = false ∨ d.peer src ≠ .normal)))) ∧
    (p < 18 ∧ src < 8192 ∧ seq < 2 ^ 22 ∧ h.wf = true ∧ (let d := s.dev
    (let q := d.port p
    (let mine : Bool := d.portOn p && h.good && h.seq = q.rxSeq
    mine = true ∧ h.credit = 0 ∧ d.peer src = .normal)))) ∧
    (p < 18 ∧ src < 8192 ∧ seq < 2 ^ 22 ∧ h.wf = true ∧ (let d := s.dev
    (let q := d.port p
    (let mine : Bool := d.portOn p && h.good && h.seq = q.rxSeq
    mine = true))))) ∧
  (let p : Nat := 17; let src : Nat := 8191; let seq : Nat := 5; let h : FlitHead := {seq := 9}; let data : Word := 0; let s : State := (st {portS 17 {state := .up, rxSeq := 9, rx := [{type := 6, src := 8191, seq := 5}]} with lk := {(portS 17 {state := .up, rxSeq := 9, rx := [{type := 6, src := 8191, seq := 5}]}).lk with holdTx := false}});
    (p < 18 ∧ src < 8192 ∧ seq < 2 ^ 22 ∧ h.wf = true ∧ (let d := s.dev
    d.peer src ≠ .hold)) ∧
    (p < 18 ∧ src < 8192 ∧ seq < 2 ^ 22 ∧ h.wf = true ∧ (let d := s.dev
    d.accepts 0 = true ∧ (bitOf data 0 = false ∨ d.lk.holdTx = false))) ∧
    (p < 18 ∧ src < 8192 ∧ seq < 2 ^ 22 ∧ h.wf = true ∧ (let d := s.dev
    d.lk.holdTx = false))) ∧
  (let p : Nat := 17; let src : Nat := 8191; let seq : Nat := 5; let h : FlitHead := {seq := 9}; let k : Packet := {type := 6, src := 8191, seq := 5}; let s : State := (st {portS 17 {state := .up, rxSeq := 9, rx := [{type := 6, src := 8191, seq := 5}]} with lk := {(portS 17 {state := .up, rxSeq := 9, rx := [{type := 6, src := 8191, seq := 5}]}).lk with peers := [(8191, (.hold, 3))]}});
    (p < 18 ∧ src < 8192 ∧ seq < 2 ^ 22 ∧ h.wf = true ∧ (let d := s.dev
    (let got : Option Packet := d.arrived p fun y => y.type = 6 && y.src = src && y.seq = seq && true
    got = some k ∧ d.peer src ≠ .normal)))) ∧
  (let p : Nat := 17; let src : Nat := 8191; let seq : Nat := 5; let h : FlitHead := {seq := 9}; let s : State := (st {portS 17 {state := .up, rxSeq := 9} with lk := {(portS 17 {state := .up, rxSeq := 9}).lk with reqs := [{kind := .read, dst := 8191}]}});
    (p < 18 ∧ src < 8192 ∧ seq < 2 ^ 22 ∧ h.wf = true ∧ (let d := s.dev
    (let waiting := d.lk.reqs.any fun r => r.dst = src && !r.answered
    d.up = true ∧ d.unheld = true ∧ waiting = true ∧ d.peer src = .normal)))) ∧
  (let p : Nat := 17; let src : Nat := 8191; let seq : Nat := 5; let h : FlitHead := {seq := 9}; let data : Word := 0x80000000; let s : State := (st {base.withReg (zwlPage + 0x58) 8191 with lk := {(base.withReg (zwlPage + 0x58) 8191).lk with peers := [(8191, (.lost, 3))]}});
    (p < 18 ∧ src < 8192 ∧ seq < 2 ^ 22 ∧ h.wf = true ∧ (let d := s.dev
    fieldOf (d.reg (zwlPage + 0x58)) 12 0 = src ∧ d.accepts 0 = true ∧ d.up = true ∧ bitOf data 31 = true ∧ d.peer src = .lost))) ∧
  (let p : Nat := 17; let src : Nat := 8191; let seq : Nat := 5; let h : FlitHead := {seq := 9}; let data : Word := 0x80000000; let s : State := (st {base.withReg (zwlPage + 0x58) 8191 with lk := {(base.withReg (zwlPage + 0x58) 8191).lk with peers := [(8191, (.hold, 3))]}});
    (p < 18 ∧ src < 8192 ∧ seq < 2 ^ 22 ∧ h.wf = true ∧ (let d := s.dev
    (let got : Option Packet := d.arrived p fun y => y.type = 6 && y.src = src && y.seq = seq && true
    got = none))) ∧
    (p < 18 ∧ src < 8192 ∧ seq < 2 ^ 22 ∧ h.wf = true ∧ (let d := s.dev
    d.up = true ∧ d.peer src = .hold ∧ ((∀ r ∈ d.lk.reqs, r.sends ≠ 0)))) ∧
    (p < 18 ∧ src < 8192 ∧ seq < 2 ^ 22 ∧ h.wf = true ∧ (let d := s.dev
    fieldOf (d.reg (zwlPage + 0x58)) 12 0 = src ∧ d.accepts 0 = true ∧ (bitOf data 31 = false ∨ d.peer src ≠ .lost)))) ∧
  (let p : Nat := 17; let src : Nat := 8191; let seq : Nat := 5; let h : FlitHead := {seq := 9}; let data : Word := 1; let s : State := (st {portS 17 {state := .holdTx} with lk := {(portS 17 {state := .holdTx}).lk with holdTx := true}});
    (p < 18 ∧ src < 8192 ∧ seq < 2 ^ 22 ∧ h.wf = true ∧ (let d := s.dev
    (let q := d.port p
    d.accepts 0 = true ∧ d.up = true ∧ bitOf data 0 = true ∧ d.lk.holdTx = true ∧ q.state = .holdTx ∧ ((∀ i : Nat, i < 18 → i ≠ p → (d.port i).state ≠ .holdTx))))) ∧
    (p < 18 ∧ src < 8192 ∧ seq < 2 ^ 22 ∧ h.wf = true ∧ (let d := s.dev
    (let q := d.port p
    d.lk.holdTx = true ∧ d.clk.power ≠ .off ∧ d.clk.power ≠ .perst ∧ q.state = .holdTx ∧ ((∀ i : Nat, i < 18 → i ≠ p → (d.port i).state ≠ .holdTx)))))) := by
  refine ⟨?_, ?_, ?_, ?_, ?_, ?_, ?_⟩ <;> decide +kernel

/-- The hypotheses of LinkPorts, clause by clause. -/
theorem test_LinkPorts_hypotheses :
  (let p : Nat := 17; let partner : Nat := 0; let lanes : Nat := 255; let s : State := (st base);
    (p < 18 ∧ partner < 2 ^ 18 ∧ lanes < 256 ∧ (let d := s.dev
    (let q := d.port p
    q.state = .down)))) ∧
  (let p : Nat := 17; let partner : Nat := 0; let ok : Bool := false; let healthy : Bool := true; let lanes : Nat := 255; let s : State := (st (portS 17 {state := .training}));
    (p < 18 ∧ partner < 2 ^ 18 ∧ lanes < 256 ∧ (let d := s.dev
    (let q := d.port p
    d.up = true ∧ q.state = .training ∧ q.lanes = 0 ∧ d.clk.lostLink = false ∧ d.se.rngBad = false))) ∧
    (p < 18 ∧ partner < 2 ^ 18 ∧ lanes < 256 ∧ (let d := s.dev
    (let q := d.port p
    d.up = true ∧ q.state = .training ∧ q.lanes = 0 ∧ d.clk.lostLink = false ∧ (ok = false ∨ lanes ≠ 255 ∨ healthy = false ∨ d.se.rngBad = true))))) ∧
  (let p : Nat := 17; let partner : Nat := 0; let lanes : Nat := 255; let s : State := (st (portS 17 {state := .up, lanes := 255, replay := [({seq := 1, body := .idle}, 1)]}));
    (p < 18 ∧ partner < 2 ^ 18 ∧ lanes < 256 ∧ (let d := s.dev
    d.accepts 0 = true ∧ d.up = true)) ∧
    (p < 18 ∧ partner < 2 ^ 18 ∧ lanes < 256 ∧ (let old : Word := 2
    (let new : Word := 3
    bitOf new 0 = true ∧ bitOf old 0 = false))) ∧
    (p < 18 ∧ partner < 2 ^ 18 ∧ lanes < 256 ∧ (let d := s.dev
    (let q := d.port p
    (let old : Word := 1
    (let new : Word := 3
    bitOf new 0 = true ∧ bitOf old 0 = true ∧ bitOf new 1 = true ∧ q.state = .up))))) ∧
    (p < 18 ∧ partner < 2 ^ 18 ∧ lanes < 256 ∧ (let old : Word := 3
    (let new : Word := 2
    bitOf new 0 = false ∧ bitOf old 0 = true)))) ∧
  (let p : Nat := 17; let partner : Nat := 0; let lanes : Nat := 255; let s : State := (st (portS 17 {state := .up, lanes := 255, replay := [({seq := 1, body := .idle}, 1)]}));
    (p < 18 ∧ partner < 2 ^ 18 ∧ lanes < 256 ∧ (let d := s.dev
    (let q := d.port p
    q.state ≠ .training))) ∧
    (p < 18 ∧ partner < 2 ^ 18 ∧ lanes < 256 ∧ (let d := s.dev
    d.portOn p = true))) := by
  refine ⟨?_, ?_, ?_, ?_⟩ <;> decide +kernel

/-- The hypotheses of CountersCleared, clause by clause. -/
theorem test_CountersCleared_hypotheses :
  (let fn : Nat := 0; let e : Nat := 31; let c : Nat := 3; let r : Nat := 3; let die : Nat := 7; let data : Word := 1; let s : State := (st {base with rf := {ctrs := [(0x1003060, 5)]}});
    (fn < 65 ∧ e < 32 ∧ c < 4 ∧ r < 4 ∧ ((die < 4 ∨ die = 6 ∨ die = 7)) ∧ s.dev.accepts fn = true ∧ s.dev.up = true ∧ s.dev.cellOn e c = true ∧ s.dev.blockOn e = true ∧ (∃ row ∈ [(Instr.arrClrCounters fn e c data, arrPage e c, 0x97), (.vecClrCounters fn e c data, vecPage e c, 0x7F),
    (.sfuClrCounters fn e c data, sfuPage e c, 0x77), (.expClrCounters fn e c data, expPage e c, 0x87),
    (.engClrCounters fn e data, engPage e, 0x87), (.nocClrCounters fn die data, nocPage die, 0xAF)], fn = 0 ∧ bitOf data 0 = true))) ∧
  (let fn : Nat := 0; let e : Nat := 0; let c : Nat := 0; let r : Nat := 3; let die : Nat := 0; let data : Word := 2; let s : State := (st {base with rf := {ctrs := [(arrPage 0 0 + 0x60, 5)]}});
    (fn < 65 ∧ e < 32 ∧ c < 4 ∧ r < 4 ∧ ((die < 4 ∨ die = 6 ∨ die = 7)) ∧ s.dev.accepts fn = true ∧ s.dev.up = true ∧ s.dev.cellOn e c = true ∧ s.dev.blockOn e = true ∧ (∃ row ∈ [(Instr.arrClrCounters fn e c data, arrPage e c, 0x97), (.vecClrCounters fn e c data, vecPage e c, 0x7F),
    (.sfuClrCounters fn e c data, sfuPage e c, 0x77), (.expClrCounters fn e c data, expPage e c, 0x87),
    (.engClrCounters fn e data, engPage e, 0x87), (.nocClrCounters fn die data, nocPage die, 0xAF)], ((fn ≠ 0 ∨ bitOf data 0 = false))))) := by
  refine ⟨?_, ?_⟩ <;> decide +kernel

/-- The hypotheses of CountersCleared (UnitCountersCleared), clause by clause. -/
theorem test_UnitCountersCleared_hypotheses :
  (let r : Nat := 3; let data : Word := 3; let s : State := (st {base with rf := {ctrs := [(belPage 3 + 0x80, 5)]}});
    (r < 4 ∧ s.dev.accepts 0 = true ∧ s.dev.up = true ∧ (let fn := 3
    fn ≠ 0 ∧ fn ≤ 64 ∧ s.dev.accepts fn = true)) ∧
    (r < 4 ∧ s.dev.accepts 0 = true ∧ s.dev.up = true ∧ bitOf data 0 = true) ∧
    (r < 4 ∧ s.dev.accepts 0 = true ∧ s.dev.up = true ∧ bitOf data 1 = true)) ∧
  (let r : Nat := 0; let data : Word := 0; let s : State := (st base);
    (r < 4 ∧ s.dev.accepts 0 = true ∧ s.dev.up = true ∧ bitOf data 0 = false) ∧
    (r < 4 ∧ s.dev.accepts 0 = true ∧ s.dev.up = true ∧ bitOf data 1 = false)) := by
  refine ⟨?_, ?_⟩ <;> decide +kernel

/-- The hypotheses of CounterSelection, clause by clause. -/
theorem test_CounterSelection_hypotheses :
  (let e : Nat := 31; let i : Nat := 63; let fn : Nat := 0; let data : Word := 0; let s : State := (st {base with ob := {clrStaged := [31, 3], cnt := [(31 * 64 + 63, 9), (7, 2)]}});
    (e < 32 ∧ i < 64 ∧ fn ≤ 64 ∧ s.dev.accepts 0 = true ∧ s.dev.up = true ∧ s.dev.blockOn e = true ∧ s.dev.unheld = true ∧ bitOf data 0 = false) ∧
    (e < 32 ∧ i < 64 ∧ fn ≤ 64 ∧ s.dev.accepts 0 = true ∧ s.dev.up = true ∧ s.dev.blockOn e = true ∧ s.dev.unheld = true ∧ (let d := s.dev
    d.midCommand e = false)) ∧
    (e < 32 ∧ i < 64 ∧ fn ≤ 64 ∧ s.dev.accepts 0 = true ∧ s.dev.up = true ∧ s.dev.blockOn e = true ∧ s.dev.unheld = true ∧ (let d := s.dev
    d.midCommand e = false ∧ d.ob.clrStaged.contains e = true ∧ d.ob.selStaged.contains e = false)) ∧
    (e < 32 ∧ i < 64 ∧ fn ≤ 64 ∧ s.dev.accepts 0 = true ∧ s.dev.up = true ∧ s.dev.blockOn e = true ∧ s.dev.unheld = true ∧ bitOf data 31 = false)) ∧
  (let e : Nat := 31; let i : Nat := 63; let fn : Nat := 0; let s : State := (st {base with ob := {clrStaged := [31, 3], cnt := [(31 * 64 + 63, 9), (7, 2)]}});
    (e < 32 ∧ i < 64 ∧ fn ≤ 64 ∧ s.dev.accepts 0 = true ∧ s.dev.up = true ∧ s.dev.blockOn e = true ∧ s.dev.unheld = true ∧ (let d := s.dev
    look d.ob.armed (e * 64 + i) none = none))) ∧
  (let e : Nat := 31; let i : Nat := 63; let fn : Nat := 0; let s : State := (st {base with ob := {selStaged := [31, 3], cnt := [(31 * 64 + 63, 9)]}});
    (e < 32 ∧ i < 64 ∧ fn ≤ 64 ∧ s.dev.accepts 0 = true ∧ s.dev.up = true ∧ s.dev.blockOn e = true ∧ s.dev.unheld = true ∧ (let d := s.dev
    d.midCommand e = false ∧ d.ob.clrStaged.contains e = false ∧ d.ob.selStaged.contains e = true))) ∧
  (let e : Nat := 31; let i : Nat := 63; let fn : Nat := 0; let s : State := (st {base with ob := {armed := [(31 * 64 + 63, some {threshold := 9, actions := 0})], cnt := [(31 * 64 + 63, 8)]}});
    (e < 32 ∧ i < 64 ∧ fn ≤ 64 ∧ s.dev.accepts 0 = true ∧ s.dev.up = true ∧ s.dev.blockOn e = true ∧ s.dev.unheld = true ∧ (let d := s.dev
    (let a := (look d.ob.armed (e * 64 + i) none).getD {}
    look d.ob.armed (e * 64 + i) none = some a ∧ d.counter e i < a.threshold)))) ∧
  (let e : Nat := 31; let i : Nat := 63; let fn : Nat := 0; let s : State := (st {base with ob := {armed := [(31 * 64 + 63, some {threshold := 9, actions := 0})], cnt := [(31 * 64 + 63, 9)]}});
    (e < 32 ∧ i < 64 ∧ fn ≤ 64 ∧ s.dev.accepts 0 = true ∧ s.dev.up = true ∧ s.dev.blockOn e = true ∧ s.dev.unheld = true ∧ (let d := s.dev
    (let a := (look d.ob.armed (e * 64 + i) none).getD {}
    look d.ob.armed (e * 64 + i) none = some a ∧ a.threshold ≤ d.counter e i ∧ a.actions = 0 ∧ (d.trc (e / 8)).state = .off)))) ∧
  (let e : Nat := 31; let i : Nat := 63; let fn : Nat := 3; let data : Word := 0x80000007; let s : State := (st {(base.withReg (cntPage 31 + 0x4C) 63) with ob := {thr := [(31 * 64 + 63, (9, 0, 0))], armed := [(31 * 64 + 63, some {threshold := 9, actions := 7})], cnt := [(31 * 64 + 63, 9)]}});
    (e < 32 ∧ i < 64 ∧ fn ≤ 64 ∧ s.dev.accepts 0 = true ∧ s.dev.up = true ∧ s.dev.blockOn e = true ∧ s.dev.unheld = true ∧ (let d := s.dev
    fn ≠ 0 ∧ d.accepts fn = true)) ∧
    (e < 32 ∧ i < 64 ∧ fn ≤ 64 ∧ s.dev.accepts 0 = true ∧ s.dev.up = true ∧ s.dev.blockOn e = true ∧ s.dev.unheld = true ∧ (let d := s.dev
    bitOf data 0 = true ∧ d.ob.clrStaged.contains e = false)) ∧
    (e < 32 ∧ i < 64 ∧ fn ≤ 64 ∧ s.dev.accepts 0 = true ∧ s.dev.up = true ∧ s.dev.blockOn e = true ∧ s.dev.unheld = true ∧ bitOf data 31 = true) ∧
    (e < 32 ∧ i < 64 ∧ fn ≤ 64 ∧ s.dev.accepts 0 = true ∧ s.dev.up = true ∧ s.dev.blockOn e = true ∧ s.dev.unheld = true ∧ (let d := s.dev
    (let a := (look d.ob.armed (e * 64 + i) none).getD {}
    look d.ob.armed (e * 64 + i) none = some a ∧ a.threshold ≤ d.counter e i)))) ∧
  (let e : Nat := 31; let i : Nat := 63; let fn : Nat := 3; let data : Word := 1; let s : State := (st {base.withEng 31 {run := some 3} with ob := {clrStaged := [31]}});
    (e < 32 ∧ i < 64 ∧ fn ≤ 64 ∧ s.dev.accepts 0 = true ∧ s.dev.up = true ∧ s.dev.blockOn e = true ∧ s.dev.unheld = true ∧ (let d := s.dev
    bitOf data 0 = true ∧ d.ob.clrStaged.contains e = true)) ∧
    (e < 32 ∧ i < 64 ∧ fn ≤ 64 ∧ s.dev.accepts 0 = true ∧ s.dev.up = true ∧ s.dev.blockOn e = true ∧ s.dev.unheld = true ∧ (let d := s.dev
    d.midCommand e = true))) := by
  refine ⟨?_, ?_, ?_, ?_, ?_, ?_, ?_⟩ <;> decide +kernel

/-- The hypotheses of GongRules, clause by clause. -/
theorem test_GongRules_hypotheses :
  (let data : Word := 1; let s : State := (st base);
    (s.dev.accepts 0 = true ∧ s.dev.up = true ∧ (let d := s.dev
    bitOf data 0 = true ∧ d.ob.gong.state = .running)) ∧
    (s.dev.accepts 0 = true ∧ s.dev.up = true ∧ (let d := s.dev
    d.ob.gong.state ≠ .stopping)) ∧
    (s.dev.accepts 0 = true ∧ s.dev.up = true ∧ (let d := s.dev
    (bitOf data 0 = false ∨ d.ob.gong.state ≠ .stopped))) ∧
    (s.dev.accepts 0 = true ∧ s.dev.up = true ∧ (let d := s.dev
    (let fn := 3
    fn ≠ 0 ∧ fn ≤ 64 ∧ d.accepts fn = true)))) ∧
  (let data : Word := 1; let s : State := (st {base with ob := {gong := {state := .stopping, cause := 5, extra := 0xFFFFFFFF}}});
    (s.dev.accepts 0 = true ∧ s.dev.up = true ∧ (let d := s.dev
    bitOf data 0 = true ∧ d.ob.gong.state ≠ .running)) ∧
    (s.dev.accepts 0 = true ∧ s.dev.up = true ∧ (let d := s.dev
    d.ob.gong.state = .stopping))) ∧
  (let data : Word := 1; let s : State := (st {base with ob := {gong := {state := .stopped, cause := 5}}});
    (s.dev.accepts 0 = true ∧ s.dev.up = true ∧ (let d := s.dev
    bitOf data 0 = true ∧ d.ob.gong.state = .stopped ∧ ((∀ p : Nat, p < 18 → (d.port p).state = .down)) ∧ ((∀ e : Nat, e < 32 → (d.eng e).deferred = [])) ∧ d.ob.gong.kills = [] ∧ d.bl.hostOps = [] ∧ ((∀ x ∈ d.ho.reads, x.queued = false)) ∧ ((∀ x ∈ d.ho.asks, x.granted = false)) ∧ d.ho.arrived = [] ∧ ((∀ c : Nat, c < 32 → (d.ctl c).spareDue = [])) ∧ ((∀ x ∈ d.ho.vectors, x.2.2 = false))))) ∧
  (let data : Word := 0; let s : State := (st base);
    (s.dev.accepts 0 = true ∧ s.dev.up = true ∧ bitOf data 0 = false)) := by
  refine ⟨?_, ?_, ?_, ?_⟩ <;> decide +kernel

/-- The hypotheses of ManagementTick, clause by clause. -/
theorem test_ManagementTick_hypotheses :
  (let s : State := (st base);
    (good s = true ∧ (let d := s.dev
    d.managed = true))) ∧
  (let s : State := (st {base with clk := {power := .tripped}, se := {raw := [(6, 950), (1, 900)]}});
    (good s = true ∧ (let d := s.dev
    d.telemetry = true ∧ d.managed = false))) ∧
  (let s : State := (st {base with clk := {power := .ready, lostMgt := true}});
    (good s = true ∧ (let d := s.dev
    d.telemetry = false))) := by
  refine ⟨?_, ?_, ?_⟩ <;> decide +kernel

/-- The hypotheses of PowerAndTemperature, clause by clause. -/
theorem test_PowerAndTemperature_hypotheses :
  (let r : Nat := 3; let e : Nat := 31; let power : Nat := 100; let die : Nat := 5; let t : Int := 7; let rest : List Int := [9]; let s : State := (st {base with se := {volt := [(3, (800, true, 0, false))]}});
    (good s = true ∧ r < 4 ∧ e < 32 ∧ die < 6 ∧ power < 65536 ∧ (let d := s.dev
    (let v := d.volt r
    d.managed = true ∧ d.rf.armed = [] ∧ v.2.1 = true))) ∧
    (good s = true ∧ r < 4 ∧ e < 32 ∧ die < 6 ∧ power < 65536 ∧ (let d := s.dev
    (let v := d.volt r
    d.managed = true ∧ v.2.1 = true ∧ v.2.2.1 = 0))) ∧
    (good s = true ∧ r < 4 ∧ e < 32 ∧ die < 6 ∧ power < 65536 ∧ (let d := s.dev
    (let g := d.eng e
    d.up = true ∧ d.blockOn e = true ∧ g.withheld = false ∧ power ≤ d.cap e))) ∧
    (good s = true ∧ r < 4 ∧ e < 32 ∧ die < 6 ∧ power < 65536 ∧ (let d := s.dev
    d.linkUp = true ∧ rest.foldl max t < 920))) ∧
  (let r : Nat := 3; let e : Nat := 31; let power : Nat := 65535; let die : Nat := 5; let s : State := (st {base with se := {volt := [(3, (800, true, 1, false))]}});
    (good s = true ∧ r < 4 ∧ e < 32 ∧ die < 6 ∧ power < 65536 ∧ (let d := s.dev
    (let v := d.volt r
    d.managed = true ∧ v.2.1 = true ∧ v.2.2.1 = 1))) ∧
    (good s = true ∧ r < 4 ∧ e < 32 ∧ die < 6 ∧ power < 65536 ∧ (let d := s.dev
    (let g := d.eng e
    d.up = true ∧ d.blockOn e = true ∧ g.withheld = false ∧ d.cap e < power)))) ∧
  (let r : Nat := 3; let e : Nat := 31; let power : Nat := 65535; let die : Nat := 5; let t : Int := 7; let rest : List Int := [920]; let s : State := (st (base.withEng 31 {withheld := true}));
    (good s = true ∧ r < 4 ∧ e < 32 ∧ die < 6 ∧ power < 65536 ∧ (let d := s.dev
    (let v := d.volt r
    v.2.1 = false))) ∧
    (good s = true ∧ r < 4 ∧ e < 32 ∧ die < 6 ∧ power < 65536 ∧ (let d := s.dev
    (let g := d.eng e
    d.up = true ∧ d.blockOn e = true ∧ g.withheld = true ∧ d.cap e ≤ power))) ∧
    (good s = true ∧ r < 4 ∧ e < 32 ∧ die < 6 ∧ power < 65536 ∧ (let d := s.dev
    d.linkUp = true ∧ 920 ≤ rest.foldl max t))) ∧
  (let r : Nat := 3; let e : Nat := 31; let power : Nat := 0; let die : Nat := 5; let s : State := (st (base.withEng 31 {withheld := true}));
    (good s = true ∧ r < 4 ∧ e < 32 ∧ die < 6 ∧ power < 65536 ∧ (let d := s.dev
    (let g := d.eng e
    d.up = true ∧ d.blockOn e = true ∧ g.withheld = true ∧ power < d.cap e)))) := by
  refine ⟨?_, ?_, ?_, ?_⟩ <;> decide +kernel

/-- The hypotheses of EngineResets, clause by clause. -/
theorem test_EngineResets_hypotheses :
  (let e : Nat := 31; let data : Word := 1; let s : State := (st ((base.withSlot 31 7 {state := .active, ctx := 5, cur := some {desc := desc 0x0B []}}).withEng 31 {run := some 7}));
    (good s = true ∧ e < 32 ∧ s.dev.rf.armed = [] ∧ (let d := s.dev
    (let v : Env := ⟨e, 7, (d.slot e 7).ctx, (d.slot e 7).cur.getD {}⟩
    d.env e = some v ∧ d.acts e v.s = true ∧ d.windowSuspended v = false))) ∧
    (good s = true ∧ e < 32 ∧ s.dev.rf.armed = [] ∧ (let d := s.dev
    (let g := d.eng e
    d.accepts 0 = true ∧ d.up = true ∧ d.blockOn e = true ∧ bitOf data 0 = true ∧ d.resetDue e = false ∧ g.rst ≠ .failed))) ∧
    (good s = true ∧ e < 32 ∧ s.dev.rf.armed = [] ∧ (let d := s.dev
    d.resetDue e = false))) ∧
  (let e : Nat := 31; let code : Nat := 0x201; let strike : Bool := true; let data : Word := 1; let s : State := (st {(base.withSlot 31 7 {state := .active, ctx := 5, cur := some {desc := desc 0x0B []}}).withEng 31 {run := some 7} with q := {((base.withSlot 31 7 {state := .active, ctx := 5, cur := some {desc := desc 0x0B []}}).withEng 31 {run := some 7}).q with ctxs := [(5, {state := .active, replayable := true})]}, fl := {resets := [(31, 0x201, true), (3, 1, false)]}});
    (good s = true ∧ e < 32 ∧ s.dev.rf.armed = [] ∧ (let d := s.dev
    (let v : Env := ⟨e, 7, (d.slot e 7).ctx, (d.slot e 7).cur.getD {}⟩
    d.env e = some v ∧ (d.acts e v.s = false ∨ d.windowSuspended v = true)))) ∧
    (good s = true ∧ e < 32 ∧ s.dev.rf.armed = [] ∧ (let d := s.dev
    (let g := d.eng e
    d.accepts 0 = true ∧ (d.resetDue e = true ∨ g.rst = .failed ∨ bitOf data 0 = false)))) ∧
    (good s = true ∧ e < 32 ∧ s.dev.rf.armed = [] ∧ (let d := s.dev
    (let fn := 3
    fn ≠ 0 ∧ fn ≤ 64 ∧ d.accepts fn = true))) ∧
    (good s = true ∧ e < 32 ∧ s.dev.rf.armed = [] ∧ (let d := s.dev
    (let g := d.eng e
    d.fl.resets.find? (·.1 = e) = some (e, code, strike) ∧ d.up = true ∧ d.unheld = true ∧ d.blockOn e = true ∧ g.rst ≠ .failed ∧ code < 2 ^ 16 ∧ (((List.range 8).all fun k => ((d.slot e k).cur.isNone || ((d.ctx (d.slot e k).ctx).replayable && ((d.slot e k).cur.getD {}).strike = none)))))))) ∧
  (let e : Nat := 31; let s : State := (st {(base.withSlot 31 7 {state := .active, ctx := 5, cur := some {desc := desc 0x0B []}}).withEng 31 {run := some 7} with q := {((base.withSlot 31 7 {state := .active, ctx := 5, cur := some {desc := desc 0x0B []}}).withEng 31 {run := some 7}).q with ctxs := [(5, {state := .active, replayable := true})]}, fl := {resets := [(31, 0x201, true), (3, 1, false)]}});
    (good s = true ∧ e < 32 ∧ s.dev.rf.armed = [] ∧ (let d := s.dev
    d.resetDue e = true ∧ d.up = true ∧ d.unheld = true ∧ d.fl.devReset = none))) := by
  refine ⟨?_, ?_, ?_⟩ <;> decide +kernel

/-- The hypotheses of Replays, clause by clause. -/
theorem test_Replays_hypotheses :
  (let e : Nat := 31; let k : Nat := 7; let s : State := (st ((base.withSlot 31 7 {state := .suspect, ctx := 5, cur := some {desc := desc 0x0B []}}).withEng 31 {rst := .replaying, suspects := [7], boundary := 1}));
    (good s = true ∧ e < 32 ∧ k < 8 ∧ s.dev.rf.armed = [] ∧ (let d := s.dev
    (let g := d.eng e
    (let t := d.slot e k
    (let starts := d.up = true ∧ d.unheld = true ∧ d.blockOn e = true ∧ g.rst = .replaying ∧ d.resetDue e = false ∧ g.replay = none ∧ g.run = none
    (let c := t.cur.getD {}
    starts ∧ d.nextSuspect e = some k ∧ t.cur = some c ∧ isWait (fieldAt c.desc 0 1) = false ∧ fieldAt c.desc 0 1 ≠ opFused)))))) ∧
    (good s = true ∧ e < 32 ∧ k < 8 ∧ s.dev.rf.armed = [] ∧ (let d := s.dev
    (let g := d.eng e
    g.replay = none)))) ∧
  (let e : Nat := 31; let k : Nat := 7; let s : State := (st ((base.withSlot 31 7 {state := .suspect, ctx := 5, cur := some {desc := desc 0x12 []}}).withEng 31 {rst := .replaying, suspects := [7], boundary := 1}));
    (good s = true ∧ e < 32 ∧ k < 8 ∧ s.dev.rf.armed = [] ∧ (let d := s.dev
    (let g := d.eng e
    (let t := d.slot e k
    (let starts := d.up = true ∧ d.unheld = true ∧ d.blockOn e = true ∧ g.rst = .replaying ∧ d.resetDue e = false ∧ g.replay = none ∧ g.run = none
    (let c := t.cur.getD {}
    starts ∧ d.nextSuspect e = some k ∧ t.cur = some c ∧ isWait (fieldAt c.desc 0 1) = true ∧ t.state = .suspect ∧ t.lost = false ∧ g.deferred = []))))))) ∧
  (let e : Nat := 31; let k : Nat := 7; let s : State := (st (base.withEng 31 {rst := .replaying, boundary := 1}));
    (good s = true ∧ e < 32 ∧ k < 8 ∧ s.dev.rf.armed = [] ∧ (let d := s.dev
    (let g := d.eng e
    (let starts := d.up = true ∧ d.unheld = true ∧ d.blockOn e = true ∧ g.rst = .replaying ∧ d.resetDue e = false ∧ g.replay = none ∧ g.run = none
    starts ∧ d.nextSuspect e = none ∧ g.deferred = [] ∧ 0 < g.boundary))))) ∧
  (let e : Nat := 31; let k : Nat := 7; let s : State := (st (((base.withSlot 31 7 {state := .suspect, ctx := 5, cur := some {desc := desc 0x0B []}}).withEng 31 {rst := .replaying, suspects := [7], boundary := 1, replay := some 7, run := some 7})));
    (good s = true ∧ e < 32 ∧ k < 8 ∧ s.dev.rf.armed = [] ∧ (let d := s.dev
    (let g := d.eng e
    (g.rst ≠ .replaying ∨ g.replay.isSome = true ∨ g.run.isSome = true)))) ∧
    (good s = true ∧ e < 32 ∧ k < 8 ∧ s.dev.rf.armed = [] ∧ (let d := s.dev
    (let g := d.eng e
    (let t := d.slot e k
    (let c := t.cur.getD {}
    g.replay = some k ∧ g.run = some k ∧ t.cur = some c ∧ c.status = none ∧ d.acts e k = true ∧ t.state = .suspect ∧ t.lost = false ∧ g.deferred = [] ∧ 0 < g.boundary)))))) ∧
  (let e : Nat := 31; let k : Nat := 7; let s : State := (st ((base.withSlot 31 7 {state := .suspect, ctx := 5, cur := some {desc := desc 0x02 []}}).withEng 31 {rst := .replaying, suspects := [7], boundary := 1}));
    (good s = true ∧ e < 32 ∧ k < 8 ∧ s.dev.rf.armed = [] ∧ (let d := s.dev
    (let g := d.eng e
    (let t := d.slot e k
    (let starts := d.up = true ∧ d.unheld = true ∧ d.blockOn e = true ∧ g.rst = .replaying ∧ d.resetDue e = false ∧ g.replay = none ∧ g.run = none
    (let c := t.cur.getD {}
    starts ∧ d.nextSuspect e = some k ∧ t.cur = some c ∧ fieldAt c.desc 0 1 = opFused))))))) := by
  refine ⟨?_, ?_, ?_, ?_, ?_⟩ <;> decide +kernel

/-- The hypotheses of DeviceResets, clause by clause. -/
theorem test_DeviceResets_hypotheses :
  (let data : Word := 1; let fn : Nat := 64; let s : State := (st base);
    (good s = true ∧ 1 ≤ fn ∧ fn ≤ 64 ∧ (let d := s.dev
    d.accepts 0 = true ∧ d.up = true ∧ d.fl.devReset = none ∧ bitOf data 0 = true)) ∧
    (good s = true ∧ 1 ≤ fn ∧ fn ≤ 64 ∧ (let d := s.dev
    d.accepts fn = true)) ∧
    (good s = true ∧ 1 ≤ fn ∧ fn ≤ 64 ∧ (let d := s.dev
    d.up = true ∧ d.fl.devReset = none)) ∧
    (good s = true ∧ 1 ≤ fn ∧ fn ≤ 64 ∧ (let d := s.dev
    d.fl.devReset = none))) ∧
  (let fn : Nat := 64; let s : State := (st base);
    (good s = true ∧ 1 ≤ fn ∧ fn ≤ 64 ∧ (let d := s.dev
    d.clk.power ≠ .resetting)) ∧
    (good s = true ∧ 1 ≤ fn ∧ fn ≤ 64 ∧ (let d := s.dev
    d.ho.vfEnable = false)) ∧
    (good s = true ∧ 1 ≤ fn ∧ fn ≤ 64) ∧
    (good s = true ∧ 1 ≤ fn ∧ fn ≤ 64 ∧ (let d := s.dev
    d.ho.vfCount = 0))) ∧
  (let fn : Nat := 64; let s : State := (st base);
    (good s = true ∧ 1 ≤ fn ∧ fn ≤ 64 ∧ (let d := s.dev
    (let n := 63
    (let b := 30
    (let ats := fn != 0
    d.ho.vfEnable = false ∧ d.clk.power ≠ .off ∧ d.clk.power ≠ .perst ∧ (Instr.vfEnable n b ats).wf = true)))))) ∧
  (let cause : Word := (causeWord 5 0); let fn : Nat := 64; let s : State := (st {base with fl := {devReset := some (causeWord 5 0)}, lk := {routes := [(5, 0x20000)]}, ho := {vfEnable := true, vfCount := 64}});
    (good s = true ∧ 1 ≤ fn ∧ fn ≤ 64 ∧ (let d := s.dev
    (let c := d.fl.devReset.getD 0
    d.up = true ∧ d.fl.devReset = some c))) ∧
    (good s = true ∧ 1 ≤ fn ∧ fn ≤ 64 ∧ (let d := s.dev
    d.fl.devReset = some cause ∧ d.up = true)) ∧
    (good s = true ∧ 1 ≤ fn ∧ fn ≤ 64 ∧ (let d := s.dev
    d.up = true ∧ d.ho.vfEnable = true ∧ fn ≤ d.ho.vfCount ∧ ((∀ p ∈ d.q.ctxs, d.ctx p.1 = p.2)) ∧ d.q.slots = [])) ∧
    (good s = true ∧ 1 ≤ fn ∧ fn ≤ 64 ∧ (let d := s.dev
    d.ho.vfEnable = true))) ∧
  (let fn : Nat := 64; let s : State := (st {base with clk := {power := .resetting}});
    (good s = true ∧ 1 ≤ fn ∧ fn ≤ 64 ∧ (let d := s.dev
    d.clk.power = .resetting))) := by
  refine ⟨?_, ?_, ?_, ?_, ?_⟩ <;> decide +kernel

/-- The hypotheses of PowerAndClocks, clause by clause. -/
theorem test_PowerAndClocks_hypotheses :
  (let s : State := State.reset;
    (good s = true ∧ (let d := s.dev
    (let k := d.bootSlots.headD 0
    (let i := (d.imageIn k).getD {}
    (let rest := d.bootSlots.tail
    d.clk.power = .perst ∧ d.clk.lostRef = false ∧ d.bootSlots = k :: rest ∧ d.imageIn k = some i ∧ d.bootOrder.head? = some k ∧ d.fuses.badMap = []))))) ∧
    (good s = true ∧ (let d := s.dev
    (let k := d.bootSlots.headD 0
    (let i := (d.imageIn k).getD {}
    (let rest := d.bootSlots.tail
    d.clk.power = .perst ∧ d.clk.lostRef = false ∧ d.bootSlots = k :: rest ∧ d.imageIn k = some i)))))) ∧
  (let s : State := (st base);
    (good s = true ∧ (let d := s.dev
    (d.clk.power ≠ .perst ∨ d.clk.lostRef = true))) ∧
    (good s = true) ∧
    (good s = true ∧ (let d := s.dev
    d.clk.power ≠ .off)) ∧
    (good s = true ∧ (let d := s.dev
    (let running := d.clk.power ≠ .off ∧ d.clk.power ≠ .perst ∧ d.clk.power ≠ .tripped
    running ∧ d.clk.lostRef = false)))) ∧
  (let s : State := (st base);
    (good s = true ∧ (let d := s.dev
    (let running := d.clk.power ≠ .off ∧ d.clk.power ≠ .perst ∧ d.clk.power ≠ .tripped
    running ∧ d.clk.lostLink = false))) ∧
    (good s = true ∧ (let d := s.dev
    (let running := d.clk.power ≠ .off ∧ d.clk.power ≠ .perst ∧ d.clk.power ≠ .tripped
    running ∧ d.clk.lostMgt = false))) ∧
    (good s = true ∧ (let d := s.dev
    d.clk.lostLink = false))) ∧
  (let s : State := (st {base with clk := {power := .tripped}});
    (good s = true ∧ (let d := s.dev
    d.clk.power = .tripped))) ∧
  (let s : State := (st {base with clk := {power := .perst}, se := {flash := []}});
    (good s = true ∧ (let d := s.dev
    d.clk.power = .perst ∧ d.clk.lostRef = false ∧ d.bootSlots = []))) ∧
  (let s : State := (st {base with clk := {power := .off}});
    (good s = true ∧ (let d := s.dev
    d.clk.power = .off))) ∧
  (let s : State := (st {base with clk := {power := .held, lostRef := true, lostLink := true, lostMgt := true}});
    (good s = true ∧ (let d := s.dev
    d.clk.lostRef = true)) ∧
    (good s = true ∧ (let d := s.dev
    d.clk.lostLink = true)) ∧
    (good s = true ∧ (let d := s.dev
    d.clk.lostMgt = true)) ∧
    (good s = true ∧ (let d := s.dev
    d.clk.lostLink = true ∧ d.up = false ∧ d.clk.power ≠ .resetting))) ∧
  (let s : State := (st {base with clk := {power := .resetting, lostLink := true}});
    (good s = true ∧ (let d := s.dev
    d.clk.lostLink = true ∧ (d.up = true ∨ d.clk.power = .resetting)))) := by
  refine ⟨?_, ?_, ?_, ?_, ?_, ?_, ?_, ?_⟩ <;> decide +kernel

/-- The hypotheses of HostRegisters, clause by clause. -/
theorem test_HostRegisters_hypotheses :
  (let addr : Nat := (8); let data : Word := 35; let s : State := (st base);
    (good s = true ∧ addr < 2 ^ 28 ∧ s.dev.accepts 0 = true ∧ 30 ≤ data.toNat ∧ data.toNat ≤ 42)) ∧
  (let addr : Nat := (0x7FF8); let n : Nat := 8; let data : Word := 3; let s : State := (st base);
    (good s = true ∧ addr < 2 ^ 28 ∧ s.dev.accepts 0 = true ∧ (addr % 4 ≠ 0 ∨ n ≠ 4)) ∧
    (good s = true ∧ addr < 2 ^ 28 ∧ s.dev.accepts 0 = true) ∧
    (good s = true ∧ addr < 2 ^ 28 ∧ s.dev.accepts 0 = true ∧ addr % 4 = 0 ∧ decodeAddr addr = none) ∧
    (good s = true ∧ addr < 2 ^ 28 ∧ s.dev.accepts 0 = true ∧ fieldOf data 1 0 = 3)) ∧
  (let addr : Nat := (0x7FF8); let s : State := (st base);
    (good s = true ∧ addr < 2 ^ 28 ∧ s.dev.accepts 0 = true ∧ addr % 4 = 0) ∧
    (good s = true ∧ addr < 2 ^ 28 ∧ s.dev.accepts 0 = true ∧ addr % 16 = 8 ∧ addr < 32768)) ∧
  (let addr : Nat := (clkPage 0 + 0x40); let off : Nat := ((decodeAddr (clkPage 0 + 0x40)).getD (⟨.clk, 0, 0, 0⟩, 0)).2; let p : Page := (((decodeAddr (clkPage 0 + 0x40)).getD (⟨.clk, 0, 0, 0⟩, 0)).1); let s : State := (st {base with clk := {power := .fwFail}});
    (good s = true ∧ addr < 2 ^ 28 ∧ s.dev.accepts 0 = true ∧ (let d := s.dev
    addr % 4 = 0 ∧ decodeAddr addr = some (p, off) ∧ d.up = false ∧ staysOpen p.kind = false))) ∧
  (let addr : Nat := (engPage 31); let off : Nat := ((decodeAddr (engPage 31)).getD (⟨.clk, 0, 0, 0⟩, 0)).2; let p : Page := (((decodeAddr (engPage 31)).getD (⟨.clk, 0, 0, 0⟩, 0)).1); let s : State := (st base);
    (good s = true ∧ addr < 2 ^ 28 ∧ s.dev.accepts 0 = true ∧ (let d := s.dev
    addr % 4 = 0 ∧ decodeAddr addr = some (p, off) ∧ d.up = true ∧ d.pagePresent p = true ∧ off = 0x00))) ∧
  (let addr : Nat := (engPage 31 + 0x14); let off : Nat := ((decodeAddr (engPage 31 + 0x14)).getD (⟨.clk, 0, 0, 0⟩, 0)).2; let p : Page := (((decodeAddr (engPage 31 + 0x14)).getD (⟨.clk, 0, 0, 0⟩, 0)).1); let s : State := (st base);
    (good s = true ∧ addr < 2 ^ 28 ∧ s.dev.accepts 0 = true ∧ (let d := s.dev
    addr % 4 = 0 ∧ decodeAddr addr = some (p, off) ∧ d.up = true ∧ d.pagePresent p = true ∧ off = 0x14))) ∧
  (let addr : Nat := (engPage 31 + 0x10); let off : Nat := ((decodeAddr (engPage 31 + 0x10)).getD (⟨.clk, 0, 0, 0⟩, 0)).2; let p : Page := (((decodeAddr (engPage 31 + 0x10)).getD (⟨.clk, 0, 0, 0⟩, 0)).1); let s : State := (st base);
    (good s = true ∧ addr < 2 ^ 28 ∧ s.dev.accepts 0 = true ∧ (let d := s.dev
    addr % 4 = 0 ∧ decodeAddr addr = some (p, off) ∧ d.up = true ∧ d.pagePresent p = true ∧ (off = 0x0C ∨ off = 0x10 ∨ off = 0x18 ∨ off = 0x1C))) ∧
    (good s = true ∧ addr < 2 ^ 28 ∧ s.dev.accepts 0 = true ∧ (let d := s.dev
    addr % 4 = 0 ∧ decodeAddr addr = some (p, off) ∧ d.up = true ∧ d.pagePresent p = true ∧ off = 0x10 ∧ reconfigures p.kind = false))) ∧
  (let addr : Nat := (engPage 31 + 0x1C); let off : Nat := ((decodeAddr (engPage 31 + 0x1C)).getD (⟨.clk, 0, 0, 0⟩, 0)).2; let p : Page := (((decodeAddr (engPage 31 + 0x1C)).getD (⟨.clk, 0, 0, 0⟩, 0)).1); let s : State := (st base);
    (good s = true ∧ addr < 2 ^ 28 ∧ s.dev.accepts 0 = true ∧ (let d := s.dev
    addr % 4 = 0 ∧ decodeAddr addr = some (p, off) ∧ d.up = true ∧ d.pagePresent p = true ∧ off = 0x1C ∧ reconfigures p.kind = false ∧ isManagement p.kind = false))) ∧
  (let addr : Nat := (timPage + 0x40); let off : Nat := ((decodeAddr (timPage + 0x40)).getD (⟨.clk, 0, 0, 0⟩, 0)).2; let p : Page := (((decodeAddr (timPage + 0x40)).getD (⟨.clk, 0, 0, 0⟩, 0)).1); let s : State := (st base);
    (good s = true ∧ addr < 2 ^ 28 ∧ s.dev.accepts 0 = true ∧ (let d := s.dev
    (let v := (d.quantity p off).getD 0
    addr % 4 = 0 ∧ decodeAddr addr = some (p, off) ∧ d.up = true ∧ d.pagePresent p = true ∧ 0x20 ≤ off ∧ isHigh p.kind off = false ∧ p.kind ≠ .bel ∧ p.kind ≠ .trc ∧ d.quantity p off = some v))) ∧
    (good s = true ∧ addr < 2 ^ 28 ∧ s.dev.accepts 0 = true ∧ (let d := s.dev
    (let plain := [PageKind.sfuRegion, .sfuDevice, .snr, .xltRegion, .clk, .gngRegion, .mgt, .tim]
    (let r := (rowOf p.kind off).getD ⟨0, default, 0, false, 0⟩
    addr % 4 = 0 ∧ decodeAddr addr = some (p, off) ∧ d.up = true ∧ d.pagePresent p = true ∧ 0x20 ≤ off ∧ p.kind ∈ plain ∧ rowOf p.kind off = some r ∧ (isManagement p.kind && r.clears) = false))))) ∧
  (let addr : Nat := (timPage + 0x44); let off : Nat := ((decodeAddr (timPage + 0x44)).getD (⟨.clk, 0, 0, 0⟩, 0)).2; let p : Page := (((decodeAddr (timPage + 0x44)).getD (⟨.clk, 0, 0, 0⟩, 0)).1); let s : State := (st {base with rf := {hold := [(holdKey 0 (timPage + 0x44), 9)]}});
    (good s = true ∧ addr < 2 ^ 28 ∧ s.dev.accepts 0 = true ∧ (let d := s.dev
    addr % 4 = 0 ∧ decodeAddr addr = some (p, off) ∧ d.up = true ∧ d.pagePresent p = true ∧ 0x20 ≤ off ∧ isHigh p.kind off = true))) ∧
  (let addr : Nat := (mgtPage + 0xFF0); let off : Nat := ((decodeAddr (mgtPage + 0xFF0)).getD (⟨.clk, 0, 0, 0⟩, 0)).2; let p : Page := (((decodeAddr (mgtPage + 0xFF0)).getD (⟨.clk, 0, 0, 0⟩, 0)).1); let s : State := (st base);
    (good s = true ∧ addr < 2 ^ 28 ∧ s.dev.accepts 0 = true ∧ (let d := s.dev
    addr % 4 = 0 ∧ decodeAddr addr = some (p, off) ∧ d.up = true ∧ d.pagePresent p = true ∧ 0x20 ≤ off ∧ isHigh p.kind off = false ∧ p.kind ≠ .bel ∧ p.kind ≠ .trc ∧ d.quantity p off = none)) ∧
    (good s = true ∧ addr < 2 ^ 28 ∧ s.dev.accepts 0 = true ∧ (let plain := [PageKind.sfuRegion, .sfuDevice, .snr, .xltRegion, .clk, .gngRegion, .mgt, .tim]
    addr % 4 = 0 ∧ decodeAddr addr = some (p, off) ∧ 0x20 ≤ off ∧ p.kind ∈ plain ∧ rowOf p.kind off = none))) ∧
  (let addr : Nat := (arrPage 31 3 + 0x04); let off : Nat := ((decodeAddr (arrPage 31 3 + 0x04)).getD (⟨.clk, 0, 0, 0⟩, 0)).2; let p : Page := (((decodeAddr (arrPage 31 3 + 0x04)).getD (⟨.clk, 0, 0, 0⟩, 0)).1); let s : State := (st {base with fuses := {harvested := true, disabled := [127]}});
    (good s = true ∧ addr < 2 ^ 28 ∧ s.dev.accepts 0 = true ∧ (let d := s.dev
    addr % 4 = 0 ∧ decodeAddr addr = some (p, off) ∧ d.up = true ∧ d.pagePresent p = false))) := by
  refine ⟨?_, ?_, ?_, ?_, ?_, ?_, ?_, ?_, ?_, ?_, ?_, ?_⟩ <;> decide +kernel

/-- The hypotheses of HostMemoryAndErrors, clause by clause. -/
theorem test_HostMemoryAndErrors_hypotheses :
  (let fn : Nat := 0; let addr : Nat := (0x1000); let len : Nat := 3; let page : Nat := (pwrPage 2); let s : State := (st base);
    (good s = true ∧ fn ≤ 64 ∧ addr < 2 ^ 44 ∧ page < 2 ^ 28 - 4096 ∧ s.dev.accepts fn = true ∧ (let d := s.dev
    (let pa := (d.bar2Target fn addr).1
    (let reaches := d.up = true ∧ (fn = 0 ∨ d.vfOn fn = true) ∧ (fn ≠ 0 ∨ d.inLockedAperture pa len = false)
    addr + len ≤ d.bar2Size fn ∧ reaches ∧ populatedRange pa len = true ∧ d.ueIn pa len = none))))) ∧
  (let fn : Nat := 0; let addr : Nat := (0x1000); let len : Nat := 3; let page : Nat := (pwrPage 2); let bs : List Byte := [1,2,3]; let s : State := (st base);
    (good s = true ∧ fn ≤ 64 ∧ addr < 2 ^ 44 ∧ page < 2 ^ 28 - 4096 ∧ s.dev.accepts fn = true ∧ (let d := s.dev
    (let pa := (d.bar2Target fn addr).1
    (let reaches := d.up = true ∧ (fn = 0 ∨ d.vfOn fn = true) ∧ (fn ≠ 0 ∨ d.inLockedAperture pa len = false)
    addr + bs.length ≤ d.bar2Size fn ∧ bs.length = len ∧ reaches ∧ ((fn = 0 ∨ populatedRange pa len = true)) ∧ ((∀ l ∈ linesOf pa len, d.lineErrAt l ≠ some .uncorrectable))))))) ∧
  (let fn : Nat := 0; let addr : Nat := (0x1000); let page : Nat := (pwrPage 2); let bs : List Byte := [1,2,3]; let s : State := (st base);
    (good s = true ∧ fn ≤ 64 ∧ addr < 2 ^ 44 ∧ page < 2 ^ 28 - 4096 ∧ s.dev.accepts fn = true ∧ (let d := s.dev
    addr + bs.length ≤ d.bar2Size fn))) ∧
  (let fn : Nat := 0; let addr : Nat := (0x1000); let page : Nat := (pwrPage 2); let p : Page := ⟨.pwr, 2, 15, 15⟩; let s : State := (st base);
    (good s = true ∧ fn ≤ 64 ∧ addr < 2 ^ 44 ∧ page < 2 ^ 28 - 4096 ∧ s.dev.accepts fn = true ∧ (let d := s.dev
    fn = 0 ∧ d.up = true ∧ decodeAddr (page + 0x0C) = some (p, 0x0C) ∧ p.base = page ∧ page % 4096 = 0 ∧ d.pagePresent p = true ∧ isManagement p.kind = true))) ∧
  (let fn : Nat := 0; let addr : Nat := (0x1000); let page : Nat := (pwrPage 2); let p : Page := ⟨.pwr, 2, 15, 15⟩; let s : State := (st base);
    (good s = true ∧ fn ≤ 64 ∧ addr < 2 ^ 44 ∧ page < 2 ^ 28 - 4096 ∧ s.dev.accepts fn = true ∧ (let d := s.dev
    fn = 0 ∧ d.up = true ∧ decodeAddr (page + 0x14) = some (p, 0x14) ∧ p.base = page ∧ page % 4096 = 0 ∧ d.pagePresent p = true ∧ ((reconfigures p.kind = false ∨ d.ho.vfs = [])) ∧ isManagement p.kind = true))) ∧
  (let fn : Nat := 0; let addr : Nat := (0x1000); let page : Nat := (pwrPage 2); let s : State := (st base);
    (good s = true ∧ fn ≤ 64 ∧ addr < 2 ^ 44 ∧ page < 2 ^ 28 - 4096 ∧ s.dev.accepts fn = true ∧ (let d := s.dev
    fn = 0 ∧ d.up = true ∧ 1 ≤ d.vfSel ∧ d.vfSel ≤ 64 ∧ 1 ≤ d.mapSel ∧ (d.ho.vfs = [])))) ∧
  (let fn : Nat := 0; let addr : Nat := (0x1000); let v : Nat := 2047; let page : Nat := (pwrPage 2); let s : State := (st base);
    (good s = true ∧ fn ≤ 64 ∧ addr < 2 ^ 44 ∧ page < 2 ^ 28 - 4096 ∧ s.dev.accepts fn = true ∧ (let d := s.dev
    ((fn = 0 ∨ d.vfOn fn = true)) ∧ v < vectorsOf fn ∧ ((∀ x ∈ d.ho.vectors, x.2.1 = false)) ∧ (d.msixSends fn = false ∨ (look d.ho.vectors (fn * 2048 + v) (false, false)).2 = false)))) ∧
  (let fn : Nat := 0; let addr : Nat := (0x1000); let page : Nat := (gngPage); let p : Page := ⟨.gngDevice, 6, 15, 15⟩; let data : Word := 0xFFFFFFFE; let s : State := (st base);
    (good s = true ∧ fn ≤ 64 ∧ addr < 2 ^ 44 ∧ page < 2 ^ 28 - 4096 ∧ s.dev.accepts fn = true ∧ (let d := s.dev
    fn = 0 ∧ d.up = true ∧ decodeAddr (page + 0x14) = some (p, 0x14) ∧ p.base = page ∧ page % 4096 = 0 ∧ d.pagePresent p = true ∧ ((reconfigures p.kind = false ∨ d.ho.vfs = [])) ∧ p.kind = .gngDevice ∧ bitOf data 0 = false))) ∧
  (let fn : Nat := 0; let addr : Nat := (0x1000); let page : Nat := (zwlPage); let p : Page := ⟨.zwlDevice, 7, 15, 15⟩; let data : Word := 0xFFFFFFBF; let s : State := (st base);
    (good s = true ∧ fn ≤ 64 ∧ addr < 2 ^ 44 ∧ page < 2 ^ 28 - 4096 ∧ s.dev.accepts fn = true ∧ (let d := s.dev
    fn = 0 ∧ d.up = true ∧ decodeAddr (page + 0x14) = some (p, 0x14) ∧ p.base = page ∧ page % 4096 = 0 ∧ d.pagePresent p = true ∧ ((reconfigures p.kind = false ∨ d.ho.vfs = [])) ∧ p.kind = .zwlDevice ∧ bitOf data 6 = false))) ∧
  (let fn : Nat := 0; let addr : Nat := (2^28-1); let len : Nat := 3; let page : Nat := (sfuPage 31 3); let s : State := (st {base with clk := {power := .fwFail}});
    (good s = true ∧ fn ≤ 64 ∧ addr < 2 ^ 44 ∧ page < 2 ^ 28 - 4096 ∧ s.dev.accepts fn = true ∧ (let d := s.dev
    addr + len ≤ d.bar2Size fn ∧ d.up = false))) ∧
  (let fn : Nat := 0; let addr : Nat := (2^42-3); let len : Nat := 3; let page : Nat := (sfuPage 31 3); let s : State := (st base);
    (good s = true ∧ fn ≤ 64 ∧ addr < 2 ^ 44 ∧ page < 2 ^ 28 - 4096 ∧ s.dev.accepts fn = true ∧ (let d := s.dev
    (let pa := (d.bar2Target fn addr).1
    addr + len ≤ d.bar2Size 0 ∧ fn = 0 ∧ d.up = true ∧ d.inLockedAperture pa len = false ∧ populatedRange pa len = false)))) ∧
  (let fn : Nat := 0; let addr : Nat := (2^30-1); let len : Nat := 3; let page : Nat := (sfuPage 31 3); let s : State := (st {base with ho := {vfBar2Log2 := 30, vfs := [(64, {aptLo := 0x40000000, tdi := .run})]}});
    (good s = true ∧ fn ≤ 64 ∧ addr < 2 ^ 44 ∧ page < 2 ^ 28 - 4096 ∧ s.dev.accepts fn = true ∧ (let d := s.dev
    (let pa := (d.bar2Target fn addr).1
    addr + len ≤ d.bar2Size 0 ∧ fn = 0 ∧ d.up = true ∧ d.inLockedAperture pa len = true)))) ∧
  (let fn : Nat := 0; let addr : Nat := (2^30-1); let page : Nat := (sfuPage 31 3); let bs : List Byte := [1,2,3]; let s : State := (st {base with ho := {vfBar2Log2 := 30, vfs := [(64, {aptLo := 0x40000000, tdi := .run})]}});
    (good s = true ∧ fn ≤ 64 ∧ addr < 2 ^ 44 ∧ page < 2 ^ 28 - 4096 ∧ s.dev.accepts fn = true ∧ (let d := s.dev
    (let pa := (d.bar2Target fn addr).1
    addr + bs.length ≤ d.bar2Size 0 ∧ fn = 0 ∧ d.inLockedAperture pa bs.length = true)))) ∧
  (let fn : Nat := 0; let addr : Nat := (2^30-1); let page : Nat := (sfuPage 31 3); let p : Page := ⟨.sfuCell, 3, 7, 3⟩; let s : State := (st {base with ho := {vfBar2Log2 := 30, vfs := [(64, {aptLo := 0x40000000, tdi := .run})]}});
    (good s = true ∧ fn ≤ 64 ∧ addr < 2 ^ 44 ∧ page < 2 ^ 28 - 4096 ∧ s.dev.accepts fn = true ∧ (let d := s.dev
    fn = 0 ∧ d.up = true ∧ decodeAddr (page + 0x0C) = some (p, 0x0C) ∧ p.base = page ∧ page % 4096 = 0 ∧ d.pagePresent p = true ∧ isManagement p.kind = false ∧ ((reconfigures p.kind = false ∨ d.ho.vfs = []))))) ∧
  (let fn : Nat := 0; let addr : Nat := (2^30-1); let page : Nat := (sfuPage 31 3); let p : Page := ⟨.sfuCell, 3, 7, 3⟩; let data : Word := 1; let s : State := (st {base with ho := {vfBar2Log2 := 30, vfs := [(64, {aptLo := 0x40000000, tdi := .run})]}});
    (good s = true ∧ fn ≤ 64 ∧ addr < 2 ^ 44 ∧ page < 2 ^ 28 - 4096 ∧ s.dev.accepts fn = true ∧ (let d := s.dev
    fn = 0 ∧ d.up = true ∧ decodeAddr (page + 0x14) = some (p, 0x14) ∧ p.base = page ∧ page % 4096 = 0 ∧ d.pagePresent p = true ∧ ((reconfigures p.kind = false ∨ d.ho.vfs = [])) ∧ (let bits := data &&& p.errBits.2.1 &&& (if p.kind = .pcx then 0x2F else 0xFFFFFFFF)
    p.kind ∉ [PageKind.gngDevice, .zwlDevice] ∧ isManagement p.kind = false ∧ ((p.kind = .eng → bitOf bits 2 = false)))))) ∧
  (let fn : Nat := 0; let addr : Nat := (0x1000); let len : Nat := 3; let page : Nat := (vecPage 31 3); let s : State := (st {base with ho := {bar2Log2 := 10}});
    (good s = true ∧ fn ≤ 64 ∧ addr < 2 ^ 44 ∧ page < 2 ^ 28 - 4096 ∧ s.dev.accepts fn = true ∧ (let d := s.dev
    d.bar2Size fn < addr + len))) ∧
  (let fn : Nat := 0; let addr : Nat := (0x1000); let page : Nat := (vecPage 31 3); let data : Word := 0xF000FFFF; let s : State := (st {(base.withVf 1 {tdi := .locked}) with ho := {(base.withVf 1 {tdi := .locked}).ho with vfEnable := true, vfCount := 64}});
    (good s = true ∧ fn ≤ 64 ∧ addr < 2 ^ 44 ∧ page < 2 ^ 28 - 4096 ∧ s.dev.accepts fn = true ∧ (let d := s.dev
    fn = 0 ∧ d.up = true ∧ 1 ≤ d.vfSel ∧ d.vfSel ≤ 64 ∧ 1 ≤ d.mapSel ∧ d.locked d.vfSel = true ∧ d.ho.vfs = [(d.vfSel, d.vf d.vfSel)] ∧ look d.ho.vfMap (d.vfSel * 256 + d.mapSel) 0 = 0 ∧ data &&& 0xB000FFFF ≠ 0 ∧ d.ho.vfMap = []))) ∧
  (let fn : Nat := 64; let addr : Nat := (0x1000); let page : Nat := (vecPage 31 3); let s : State := (st {base with ho := {vfEnable := true, vfCount := 64, vfBar2Log2 := 30, vectors := [(64 * 2048 + 5, (false, true))]}});
    (good s = true ∧ fn ≤ 64 ∧ addr < 2 ^ 44 ∧ page < 2 ^ 28 - 4096 ∧ s.dev.accepts fn = true ∧ fn ≠ 0)) ∧
  (let fn : Nat := 0; let addr : Nat := (0x1000); let v : Nat := 2047; let page : Nat := (vecPage 31 3); let s : State := (st {base with ho := {msixOn := [0], vectors := [(2047, (false, true))]}});
    (good s = true ∧ fn ≤ 64 ∧ addr < 2 ^ 44 ∧ page < 2 ^ 28 - 4096 ∧ s.dev.accepts fn = true ∧ (let d := s.dev
    ((fn = 0 ∨ d.vfOn fn = true)) ∧ v < vectorsOf fn ∧ d.unheld = true ∧ ((∀ x ∈ d.ho.vectors, x.2.1 = false)) ∧ d.msixSends fn = true ∧ d.recordAsked fn = false ∧ (look d.ho.vectors (fn * 2048 + v) (false, false)).2 = true ∧ (d.ide (d.streamOf fn)).failed = false))) := by
  refine ⟨?_, ?_, ?_, ?_, ?_, ?_, ?_, ?_, ?_, ?_, ?_, ?_, ?_, ?_, ?_, ?_, ?_, ?_, ?_⟩ <;> decide +kernel

/-- The hypotheses of InterfaceSecurity, clause by clause. -/
theorem test_InterfaceSecurity_hypotheses :
  (let k : Nat := 0; let set : Nat := 1; let fn : Nat := 64; let rate : Nat := 4; let part : Option (Nat × Bool) := none; let s : State := (st {base with ho := {vfs := [(64, {tdi := .error})], vfEnable := true, vfCount := 64}});
    (good s = true ∧ k < 9 ∧ set < 2 ∧ 1 ≤ fn ∧ fn ≤ 64 ∧ rate < 7 ∧ (let d := s.dev
    d.up = true ∧ ((∀ p ∈ part, p.1 < 3))))) ∧
  (let k : Nat := 0; let set : Nat := 1; let fn : Nat := 64; let rate : Nat := 4; let s : State := (st {base with ho := {vfs := [(64, {tdi := .error})], vfEnable := true, vfCount := 64}});
    (good s = true ∧ k < 9 ∧ set < 2 ∧ 1 ≤ fn ∧ fn ≤ 64 ∧ rate < 7 ∧ (let d := s.dev
    (let x := d.ide k
    d.up = true ∧ ((∃ y ∈ keyParts set, y ∉ x.programmed)))))) ∧
  (let k : Nat := 0; let set : Nat := 1; let fn : Nat := 64; let rate : Nat := 4; let s : State := (st {base with ho := {vfs := [(64, {tdi := .error})], vfEnable := true, vfCount := 64}});
    (good s = true ∧ k < 9 ∧ set < 2 ∧ 1 ≤ fn ∧ fn ≤ 64 ∧ rate < 7 ∧ (let d := s.dev
    (let x := d.ide k
    d.up = true ∧ (x.secure = false ∨ x.keySet ≠ set))))) ∧
  (let k : Nat := 0; let set : Nat := 1; let fn : Nat := 64; let rate : Nat := 4; let s : State := (st {base with ho := {vfs := [(64, {tdi := .error})], vfEnable := true, vfCount := 64}});
    (good s = true ∧ k < 9 ∧ set < 2 ∧ 1 ≤ fn ∧ fn ≤ 64 ∧ rate < 7 ∧ (let d := s.dev
    (let v := d.vf fn
    (k = 0 ∨ v.tdi ≠ .unlocked ∨ d.se.rngBad = true ∨ d.emptySlots = []))))) ∧
  (let k : Nat := 0; let set : Nat := 1; let fn : Nat := 64; let rate : Nat := 4; let s : State := (st {base with ho := {vfs := [(64, {tdi := .error})], vfEnable := true, vfCount := 64}});
    (good s = true ∧ k < 9 ∧ set < 2 ∧ 1 ≤ fn ∧ fn ≤ 64 ∧ rate < 7 ∧ (let d := s.dev
    d.up = true ∧ d.se.rngBad = false))) ∧
  (let k : Nat := 0; let set : Nat := 1; let fn : Nat := 64; let rate : Nat := 4; let s : State := (st {base with ho := {vfs := [(64, {tdi := .error})], vfEnable := true, vfCount := 64}});
    (good s = true ∧ k < 9 ∧ set < 2 ∧ 1 ≤ fn ∧ fn ≤ 64 ∧ rate < 7)) ∧
  (let k : Nat := 0; let set : Nat := 1; let fn : Nat := 64; let rate : Nat := 4; let s : State := (st {base with ho := {vfs := [(64, {tdi := .error})], vfEnable := true, vfCount := 64}});
    (good s = true ∧ k < 9 ∧ set < 2 ∧ 1 ≤ fn ∧ fn ≤ 64 ∧ rate < 7 ∧ (let d := s.dev
    (let v := d.vf fn
    v.tdi ≠ .locked)))) ∧
  (let k : Nat := 0; let set : Nat := 1; let fn : Nat := 64; let rate : Nat := 4; let s : State := (st {base with ho := {vfs := [(64, {tdi := .error})], vfEnable := true, vfCount := 64}});
    (good s = true ∧ k < 9 ∧ set < 2 ∧ 1 ≤ fn ∧ fn ≤ 64 ∧ rate < 7 ∧ (let d := s.dev
    (let v := d.vf fn
    d.up = true ∧ v.tdi ≠ .unlocked ∧ v.keySlot = none)))) ∧
  (let k : Nat := 0; let set : Nat := 1; let fn : Nat := 64; let rate : Nat := 4; let width : Nat := 15; let s : State := (st {base with ho := {vfs := [(64, {tdi := .error})], vfEnable := true, vfCount := 64}});
    (good s = true ∧ k < 9 ∧ set < 2 ∧ 1 ≤ fn ∧ fn ≤ 64 ∧ rate < 7 ∧ (let d := s.dev
    d.linkUp = true ∧ (rate < 5 ∨ width < 16)))) ∧
  (let k : Nat := 8; let set : Nat := 1; let fn : Nat := 64; let rate : Nat := 6; let s : State := (st {base with ho := {vfEnable := true, vfCount := 64}, xl := {atsOn := [0, 3], atc := [{fn := 0}, {fn := 2}]}, mm := {keys := (List.range 255).map (fun i => (i, 1)), nextGen := 2, fillGen := 1}});
    (good s = true ∧ k < 9 ∧ set < 2 ∧ 1 ≤ fn ∧ fn ≤ 64 ∧ rate < 7 ∧ (let d := s.dev
    (let v := d.vf fn
    d.up = true ∧ d.vfOn fn = true ∧ v.tdi = .unlocked ∧ k ≠ 0 ∧ d.se.rngBad = false ∧ d.emptySlots ≠ [])))) ∧
  (let k : Nat := 8; let set : Nat := 1; let fn : Nat := 64; let rate : Nat := 6; let s : State := (st {base with ho := {ide := [(8, {programmed := keyParts 0 ++ keyParts 1, secure := true, keySet := 1})]}});
    (good s = true ∧ k < 9 ∧ set < 2 ∧ 1 ≤ fn ∧ fn ≤ 64 ∧ rate < 7 ∧ (let d := s.dev
    (let x := d.ide k
    d.up = true ∧ ((∀ y ∈ keyParts set, y ∈ x.programmed)))))) ∧
  (let k : Nat := 8; let set : Nat := 1; let fn : Nat := 64; let rate : Nat := 6; let s : State := (st {base with ho := {ide := [(8, {programmed := keyParts 0 ++ keyParts 1, secure := true, keySet := 1})]}});
    (good s = true ∧ k < 9 ∧ set < 2 ∧ 1 ≤ fn ∧ fn ≤ 64 ∧ rate < 7 ∧ (let d := s.dev
    (let x := d.ide k
    d.up = true ∧ x.secure = true ∧ x.keySet = set)))) ∧
  (let k : Nat := 8; let set : Nat := 1; let fn : Nat := 64; let rate : Nat := 6; let s : State := (st {base with ho := {ide := [(8, {programmed := keyParts 0 ++ keyParts 1, secure := true, keySet := 1})]}});
    (good s = true ∧ k < 9 ∧ set < 2 ∧ 1 ≤ fn ∧ fn ≤ 64 ∧ rate < 7 ∧ (let d := s.dev
    (let v := d.vf fn
    v.tdi = .unlocked)))) ∧
  (let k : Nat := 8; let set : Nat := 1; let fn : Nat := 64; let rate : Nat := 6; let width : Nat := 16; let s : State := (st {base with ho := {ide := [(8, {programmed := keyParts 0 ++ keyParts 1, secure := true, keySet := 1})]}});
    (good s = true ∧ k < 9 ∧ set < 2 ∧ 1 ≤ fn ∧ fn ≤ 64 ∧ rate < 7 ∧ (let d := s.dev
    d.linkUp = true ∧ 5 ≤ rate ∧ 16 ≤ width))) ∧
  (let k : Nat := 0; let set : Nat := 1; let fn : Nat := 64; let rate : Nat := 6; let s : State := (st {base with ho := {vfs := [(64, {tdi := .locked, keySlot := some 9, stream := some 8})], vfEnable := true, vfCount := 64}, mm := {keys := [(0,1),(9,1)], nextGen := 2, fillGen := 1}});
    (good s = true ∧ k < 9 ∧ set < 2 ∧ 1 ≤ fn ∧ fn ≤ 64 ∧ rate < 7 ∧ (let d := s.dev
    (let v := d.vf fn
    d.up = true ∧ v.tdi = .locked)))) ∧
  (let k : Nat := 0; let set : Nat := 1; let fn : Nat := 64; let rate : Nat := 6; let s : State := (st {base with ho := {vfs := [(64, {tdi := .locked, keySlot := some 9, stream := some 8})], vfEnable := true, vfCount := 64}, mm := {keys := [(0,1),(9,1)], nextGen := 2, fillGen := 1}});
    (good s = true ∧ k < 9 ∧ set < 2 ∧ 1 ≤ fn ∧ fn ≤ 64 ∧ rate < 7 ∧ (let d := s.dev
    (let v := d.vf fn
    (let k' := v.keySlot.getD 0
    d.up = true ∧ v.tdi ≠ .unlocked ∧ v.keySlot = some k'))))) := by
  refine ⟨?_, ?_, ?_, ?_, ?_, ?_, ?_, ?_, ?_, ?_, ?_, ?_, ?_, ?_, ?_, ?_⟩ <;> decide +kernel

/-- The hypotheses of KeysAndDebug, clause by clause. -/
theorem test_KeysAndDebug_hypotheses :
  (let data : Word := 0; let s : State := (st base);
    (good s = true ∧ (let d := s.dev
    d.accepts 0 = true ∧ bitOf data 0 = false))) ∧
  (let slot : Nat := 9; let data : Word := 1; let s : State := (st {base with se := {keyBusy := some (1, 9)}});
    (good s = true ∧ (let d := s.dev
    d.accepts 0 = true ∧ d.up = true ∧ bitOf data 0 = true)) ∧
    (good s = true ∧ (let d := s.dev
    (let fn := 3
    fn ≠ 0 ∧ fn ≤ 64 ∧ d.accepts fn = true))) ∧
    (good s = true ∧ (let d := s.dev
    d.se.keyBusy = some (1, slot) ∧ d.managed = true ∧ slot ≠ 0 ∧ d.keyGen slot = 0 ∧ d.se.rngBad = false)) ∧
    (good s = true ∧ (let d := s.dev
    d.se.keyBusy = some (1, slot) ∧ d.managed = true))) ∧
  (let s : State := (st {base with se := {keyBusy := some (1, 9)}});
    (good s = true ∧ (let d := s.dev
    d.se.dbgBusy ≠ 1)) ∧
    (good s = true ∧ (let d := s.dev
    d.se.dbgBusy ≠ 2)) ∧
    (good s = true)) ∧
  (let slot : Nat := 0; let s : State := (st {base with se := {keyBusy := some (1, 0)}});
    (good s = true ∧ (let d := s.dev
    d.se.keyBusy = some (1, 0) ∧ slot = 0 ∧ d.managed = true))) ∧
  (let slot : Nat := 9; let s : State := (st {base with se := {keyBusy := some (1, 9)}, mm := {keys := [(0,1),(9,2)], nextGen := 3, fillGen := 1}});
    (good s = true ∧ (let d := s.dev
    d.se.keyBusy = some (1, slot) ∧ d.managed = true ∧ slot ≠ 0 ∧ d.keyGen slot ≠ 0))) ∧
  (let slot : Nat := 9; let s : State := (st {base with se := {keyBusy := some (1, 9), rngBad := true}});
    (good s = true ∧ (let d := s.dev
    d.se.keyBusy = some (1, slot) ∧ d.managed = true ∧ slot ≠ 0 ∧ d.keyGen slot = 0 ∧ d.se.rngBad = true))) ∧
  (let slot : Nat := 9; let s : State := (st {base with se := {keyBusy := some (2, 9)}, mm := {keys := [(0,1),(9,2)], nextGen := 3, fillGen := 1}});
    (good s = true ∧ (let d := s.dev
    d.se.keyBusy = some (2, slot) ∧ d.managed = true ∧ slot ≠ 0 ∧ d.keyGen slot ≠ 0 ∧ d.slotLocked slot = false))) ∧
  (let slot : Nat := 9; let s : State := (st {base with se := {keyBusy := some (2, 9)}});
    (good s = true ∧ (let d := s.dev
    d.se.keyBusy = some (2, slot) ∧ d.managed = true ∧ slot ≠ 0 ∧ d.keyGen slot = 0))) ∧
  (let slot : Nat := 9; let s : State := (st {base with se := {keyBusy := some (2, 9)}, mm := {keys := [(0,1),(9,2)], nextGen := 3, fillGen := 1}, ho := {vfs := [(64, {tdi := .locked, keySlot := some 9})]}});
    (good s = true ∧ (let d := s.dev
    d.se.keyBusy = some (2, slot) ∧ d.managed = true ∧ slot ≠ 0 ∧ d.keyGen slot ≠ 0 ∧ d.slotLocked slot = true))) ∧
  (let s : State := (st {base with se := {dbgBusy := 1}});
    (good s = true ∧ (let d := s.dev
    d.managed = true ∧ d.se.dbgBusy = 1))) ∧
  (let s : State := (st {base with se := {dbgBusy := 2}});
    (good s = true ∧ (let d := s.dev
    d.managed = true ∧ d.se.dbgBusy = 2 ∧ d.se.nonce = none))) ∧
  (let nonce : List Byte := []; let s : State := (st {base with se := {dbgBusy := 2, dbgAddr := 64, nonce := some []}, q := {ctxs := [(5,{state := .active})]}});
    (good s = true ∧ (let d := s.dev
    d.managed = true ∧ d.se.dbgBusy = 2 ∧ d.se.nonce = some nonce ∧ d.quiet = false))) ∧
  (let nonce : List Byte := []; let s : State := (st {base with se := {dbgBusy := 2, dbgAddr := 63, nonce := some []}});
    (good s = true ∧ (let d := s.dev
    d.se.keyBusy = none)) ∧
    (good s = true ∧ (let d := s.dev
    (let pa := d.se.dbgAddr
    d.managed = true ∧ d.se.dbgBusy = 2 ∧ d.se.nonce = some nonce ∧ d.quiet = true ∧ pa % 64 ≠ 0))) ∧
    (good s = true ∧ (let d := s.dev
    (let pa := d.se.dbgAddr
    d.managed = true ∧ d.se.dbgBusy = 2 ∧ d.se.nonce = some nonce ∧ d.quiet = true ∧ d.tokenFits (d.bytesAt 0 pa 17204) nonce = false)))) ∧
  (let ok : Bool := true; let s : State := (st {base with se := {sessions := [{id := 4}]}, ho := {ide := [(8, {programmed := keyParts 0 ++ keyParts 1, secure := true, keySet := 0})]}});
    (good s = true ∧ (let d := s.dev
    (let t := (Upd.unlock ok).run d
    (∃ p ∈ t.ho.ide, True))))) ∧
  (let nonce : List Byte := (List.replicate 48 0); let s : State := (st {base with se := {dbgBusy := 2, dbgAddr := 0x1000, nonce := some (List.replicate 48 0)}, mm := {cells := [(0x1000, 0x37), (0x1001, 0x55), (0x1002, 0x42), (0x1003, 0x44), (0x1004, 1), (0x1070, 0xB4), (0x1071, 1)]}});
    (good s = true ∧ (let d := s.dev
    (let pa := d.se.dbgAddr
    (let token := d.bytesAt 0 pa 17204
    d.managed = true ∧ d.se.dbgBusy = 2 ∧ d.se.nonce = some nonce ∧ d.quiet = true ∧ pa % 64 = 0 ∧ populatedRange pa 17204 = true ∧ d.ueIn pa 17204 = none ∧ d.tokenFits token nonce = true))))) ∧
  (let slot : Nat := 0; let s : State := (st {base with se := {keyBusy := some (2, 0)}});
    (good s = true ∧ (let d := s.dev
    d.se.keyBusy = some (2, 0) ∧ slot = 0 ∧ d.managed = true))) := by
  refine ⟨?_, ?_, ?_, ?_, ?_, ?_, ?_, ?_, ?_, ?_, ?_, ?_, ?_, ?_, ?_, ?_⟩ <;> decide +kernel

/-- The hypotheses of SpdmResponder, clause by clause. -/
theorem test_SpdmResponder_hypotheses :
  (let id : Nat := 9; let chain : Nat := 7; let index : Nat := 6; let slot : Nat := 1; let version : Nat := 19; let o : Option Nat := none; let s : State := (st {base with se := {spdm := .version}});
    (id < 2 ^ 32 ∧ chain < 8 ∧ index < 256 ∧ slot < 8 ∧ version < 256 ∧ s.dev.managed = true ∧ ((∀ i ∈ o, i < 2 ^ 32 ∧ s.dev.established i = true)) ∧ (let d := s.dev
    d.se.spdm = .version ∧ (version = 0x13 ∨ version = 0x12)))) ∧
  (let id : Nat := 9; let chain : Nat := 7; let index : Nat := 6; let slot : Nat := 1; let version : Nat := 19; let o : Option Nat := none; let s : State := (st {base with se := {spdm := .version}});
    (id < 2 ^ 32 ∧ chain < 8 ∧ index < 256 ∧ slot < 8 ∧ version < 256 ∧ s.dev.managed = true ∧ ((∀ i ∈ o, i < 2 ^ 32 ∧ s.dev.established i = true)) ∧ (let d := s.dev
    d.se.spdm ≠ .negotiated))) ∧
  (let id : Nat := 9; let chain : Nat := 7; let index : Nat := 6; let slot : Nat := 1; let version : Nat := 19; let o : Option Nat := none; let s : State := (st {base with se := {spdm := .capabilities}});
    (id < 2 ^ 32 ∧ chain < 8 ∧ index < 256 ∧ slot < 8 ∧ version < 256 ∧ s.dev.managed = true ∧ ((∀ i ∈ o, i < 2 ^ 32 ∧ s.dev.established i = true)) ∧ (let d := s.dev
    d.se.spdm = .capabilities))) ∧
  (let id : Nat := 9; let chain : Nat := 1; let index : Nat := 6; let slot : Nat := 1; let version : Nat := 19; let o : Option Nat := none; let s : State := (st {base with se := {spdm := .negotiated, attest := true}});
    (id < 2 ^ 32 ∧ chain < 8 ∧ index < 256 ∧ slot < 8 ∧ version < 256 ∧ s.dev.managed = true ∧ ((∀ i ∈ o, i < 2 ^ 32 ∧ s.dev.established i = true)) ∧ (let d := s.dev
    d.se.spdm = .negotiated ∧ chain < 2))) ∧
  (let id : Nat := 9; let chain : Nat := 1; let index : Nat := 6; let slot : Nat := 1; let version : Nat := 19; let o : Option Nat := none; let s : State := (st {base with se := {spdm := .negotiated, attest := true}});
    (id < 2 ^ 32 ∧ chain < 8 ∧ index < 256 ∧ slot < 8 ∧ version < 256 ∧ s.dev.managed = true ∧ ((∀ i ∈ o, i < 2 ^ 32 ∧ s.dev.established i = true)) ∧ (let d := s.dev
    d.se.spdm = .negotiated ∧ 1 ≤ index ∧ index ≤ 6))) ∧
  (let id : Nat := 9; let chain : Nat := 1; let index : Nat := 6; let slot : Nat := 1; let version : Nat := 19; let o : Option Nat := none; let nonce : List Byte := (List.replicate 32 7); let s : State := (st {base with se := {spdm := .negotiated, attest := true}});
    (id < 2 ^ 32 ∧ chain < 8 ∧ index < 256 ∧ slot < 8 ∧ version < 256 ∧ s.dev.managed = true ∧ ((∀ i ∈ o, i < 2 ^ 32 ∧ s.dev.established i = true)) ∧ (let d := s.dev
    d.se.spdm = .negotiated ∧ d.se.attest = true ∧ nonce.length = 32 ∧ slot < 2))) ∧
  (let id : Nat := 9; let chain : Nat := 1; let index : Nat := 6; let slot : Nat := 1; let version : Nat := 19; let o : Option Nat := none; let nonce : List Byte := (List.replicate 32 7); let s : State := (st {base with se := {spdm := .negotiated, attest := true}});
    (id < 2 ^ 32 ∧ chain < 8 ∧ index < 256 ∧ slot < 8 ∧ version < 256 ∧ s.dev.managed = true ∧ ((∀ i ∈ o, i < 2 ^ 32 ∧ s.dev.established i = true)) ∧ (let d := s.dev
    d.se.spdm = .negotiated ∧ d.se.attest = true ∧ nonce.length = 32 ∧ slot < 2 ∧ 1 ≤ index ∧ index ≤ 6))) ∧
  (let id : Nat := 9; let chain : Nat := 1; let index : Nat := 6; let slot : Nat := 1; let version : Nat := 19; let o : Option Nat := none; let s : State := (st {base with se := {spdm := .negotiated, attest := true}});
    (id < 2 ^ 32 ∧ chain < 8 ∧ index < 256 ∧ slot < 8 ∧ version < 256 ∧ s.dev.managed = true ∧ ((∀ i ∈ o, i < 2 ^ 32 ∧ s.dev.established i = true)) ∧ (let d := s.dev
    d.se.spdm = .negotiated ∧ d.se.attest = true ∧ d.se.rngBad = false ∧ slot < 2 ∧ d.se.sessions.length < 4 ∧ ((∀ x ∈ d.se.sessions, x.id ≠ id)) ∧ id < linkSession))) ∧
  (let id : Nat := 9; let chain : Nat := 2; let index : Nat := 254; let slot : Nat := 0; let version : Nat := 17; let o : Option Nat := (some 9); let s : State := (st {base with se := {spdm := .negotiated, attest := false, sessions := [{id := 9, finished := true}, {id := 3}]}});
    (id < 2 ^ 32 ∧ chain < 8 ∧ index < 256 ∧ slot < 8 ∧ version < 256 ∧ s.dev.managed = true ∧ ((∀ i ∈ o, i < 2 ^ 32 ∧ s.dev.established i = true)))) ∧
  (let id : Nat := 9; let chain : Nat := 2; let index : Nat := 254; let slot : Nat := 0; let version : Nat := 17; let o : Option Nat := (some 9); let s : State := (st {base with se := {spdm := .negotiated, attest := false, sessions := [{id := 9, finished := true}, {id := 3}]}});
    (id < 2 ^ 32 ∧ chain < 8 ∧ index < 256 ∧ slot < 8 ∧ version < 256 ∧ s.dev.managed = true ∧ ((∀ i ∈ o, i < 2 ^ 32 ∧ s.dev.established i = true)) ∧ o ≠ none)) ∧
  (let id : Nat := 9; let chain : Nat := 2; let index : Nat := 254; let slot : Nat := 0; let version : Nat := 17; let o : Option Nat := (some 9); let s : State := (st {base with se := {spdm := .negotiated, attest := false, sessions := [{id := 9, finished := true}, {id := 3}]}});
    (id < 2 ^ 32 ∧ chain < 8 ∧ index < 256 ∧ slot < 8 ∧ version < 256 ∧ s.dev.managed = true ∧ ((∀ i ∈ o, i < 2 ^ 32 ∧ s.dev.established i = true)) ∧ (let d := s.dev
    d.se.spdm ≠ .version))) ∧
  (let id : Nat := 9; let chain : Nat := 2; let index : Nat := 254; let slot : Nat := 0; let version : Nat := 17; let o : Option Nat := (some 9); let s : State := (st {base with se := {spdm := .negotiated, attest := false, sessions := [{id := 9, finished := true}, {id := 3}]}});
    (id < 2 ^ 32 ∧ chain < 8 ∧ index < 256 ∧ slot < 8 ∧ version < 256 ∧ s.dev.managed = true ∧ ((∀ i ∈ o, i < 2 ^ 32 ∧ s.dev.established i = true)) ∧ (let d := s.dev
    d.se.spdm = .negotiated))) ∧
  (let id : Nat := 9; let chain : Nat := 2; let index : Nat := 254; let slot : Nat := 0; let version : Nat := 17; let o : Option Nat := (some 9); let s : State := (st {base with se := {spdm := .negotiated, attest := false, sessions := [{id := 9, finished := true}, {id := 3}]}});
    (id < 2 ^ 32 ∧ chain < 8 ∧ index < 256 ∧ slot < 8 ∧ version < 256 ∧ s.dev.managed = true ∧ ((∀ i ∈ o, i < 2 ^ 32 ∧ s.dev.established i = true)) ∧ (let d := s.dev
    d.se.spdm = .negotiated ∧ 2 ≤ chain))) ∧
  (let id : Nat := 9; let chain : Nat := 2; let index : Nat := 254; let slot : Nat := 0; let version : Nat := 17; let o : Option Nat := (some 9); let s : State := (st {base with se := {spdm := .negotiated, attest := false, sessions := [{id := 9, finished := true}, {id := 3}]}});
    (id < 2 ^ 32 ∧ chain < 8 ∧ index < 256 ∧ slot < 8 ∧ version < 256 ∧ s.dev.managed = true ∧ ((∀ i ∈ o, i < 2 ^ 32 ∧ s.dev.established i = true)) ∧ (let d := s.dev
    d.se.spdm = .negotiated ∧ 7 ≤ index ∧ index < 255))) ∧
  (let id : Nat := 9; let chain : Nat := 2; let index : Nat := 254; let slot : Nat := 0; let version : Nat := 17; let o : Option Nat := (some 9); let nonce : List Byte := (List.replicate 32 7); let s : State := (st {base with se := {spdm := .negotiated, attest := false, sessions := [{id := 9, finished := true}, {id := 3}]}});
    (id < 2 ^ 32 ∧ chain < 8 ∧ index < 256 ∧ slot < 8 ∧ version < 256 ∧ s.dev.managed = true ∧ ((∀ i ∈ o, i < 2 ^ 32 ∧ s.dev.established i = true)) ∧ (let d := s.dev
    d.se.spdm = .negotiated ∧ d.se.attest = false ∧ nonce.length = 32 ∧ slot < 2))) ∧
  (let id : Nat := 9; let chain : Nat := 2; let index : Nat := 254; let slot : Nat := 0; let version : Nat := 17; let o : Option Nat := (some 9); let s : State := (st {base with se := {spdm := .negotiated, attest := false, sessions := [{id := 9, finished := true}, {id := 3}]}});
    (id < 2 ^ 32 ∧ chain < 8 ∧ index < 256 ∧ slot < 8 ∧ version < 256 ∧ s.dev.managed = true ∧ ((∀ i ∈ o, i < 2 ^ 32 ∧ s.dev.established i = true)) ∧ (let d := s.dev
    d.se.spdm = .negotiated ∧ d.se.rngBad = false ∧ (4 ≤ d.se.sessions.length ∨ (∃ x ∈ d.se.sessions, x.id = id))))) ∧
  (let id : Nat := 9; let chain : Nat := 2; let index : Nat := 254; let slot : Nat := 0; let version : Nat := 17; let o : Option Nat := (some 9); let s : State := (st {base with se := {spdm := .negotiated, attest := false, sessions := [{id := 9, finished := true}, {id := 3}]}});
    (id < 2 ^ 32 ∧ chain < 8 ∧ index < 256 ∧ slot < 8 ∧ version < 256 ∧ s.dev.managed = true ∧ ((∀ i ∈ o, i < 2 ^ 32 ∧ s.dev.established i = true)) ∧ (let d := s.dev
    d.se.spdm = .negotiated ∧ ((∀ x ∈ d.se.sessions, x.id = id → x.finished = true))))) ∧
  (let id : Nat := 9; let chain : Nat := 2; let index : Nat := 254; let slot : Nat := 0; let version : Nat := 17; let o : Option Nat := (some 9); let s : State := (st {base with se := {spdm := .negotiated, attest := false, sessions := [{id := 9, finished := true}, {id := 3}]}});
    (id < 2 ^ 32 ∧ chain < 8 ∧ index < 256 ∧ slot < 8 ∧ version < 256 ∧ s.dev.managed = true ∧ ((∀ i ∈ o, i < 2 ^ 32 ∧ s.dev.established i = true)) ∧ (let d := s.dev
    d.se.spdm = .negotiated ∧ d.established id = true ∧ id < linkSession ∧ d.se.rngBad = false))) ∧
  (let id : Nat := 3; let chain : Nat := 2; let index : Nat := 254; let slot : Nat := 0; let version : Nat := 17; let o : Option Nat := (some 9); let s : State := (st {base with se := {spdm := .negotiated, attest := false, sessions := [{id := 9, finished := true}, {id := 3}, {id := 4}, {id := 5}]}});
    (id < 2 ^ 32 ∧ chain < 8 ∧ index < 256 ∧ slot < 8 ∧ version < 256 ∧ s.dev.managed = true ∧ ((∀ i ∈ o, i < 2 ^ 32 ∧ s.dev.established i = true)) ∧ (let d := s.dev
    d.se.spdm = .negotiated ∧ ((∃ x ∈ d.se.sessions, x.id = id ∧ x.finished = false))))) ∧
  (let id : Nat := 9; let chain : Nat := 0; let index : Nat := 1; let slot : Nat := 5; let version : Nat := 0x12; let o : Option Nat := none; let nonce : List Byte := (List.replicate 32 7); let s : State := (st {base with se := {spdm := .negotiated, attest := true}});
    (id < 2 ^ 32 ∧ chain < 8 ∧ index < 256 ∧ slot < 8 ∧ version < 256 ∧ s.dev.managed = true ∧ ((∀ i ∈ o, i < 2 ^ 32 ∧ s.dev.established i = true)) ∧ (let d := s.dev
    d.se.spdm = .negotiated ∧ nonce.length = 32 ∧ 2 ≤ slot))) ∧
  (let id : Nat := 9; let chain : Nat := 0; let index : Nat := 1; let slot : Nat := 0; let version : Nat := 0x11; let o : Option Nat := none; let s : State := (st {base with se := {spdm := .version}});
    (id < 2 ^ 32 ∧ chain < 8 ∧ index < 256 ∧ slot < 8 ∧ version < 256 ∧ s.dev.managed = true ∧ ((∀ i ∈ o, i < 2 ^ 32 ∧ s.dev.established i = true)) ∧ (let d := s.dev
    d.se.spdm = .version ∧ version ≠ 0x13 ∧ version ≠ 0x12))) ∧
  (let id : Nat := 9; let chain : Nat := 0; let index : Nat := 1; let slot : Nat := 0; let version : Nat := 0x12; let o : Option Nat := none; let s : State := (st {base with se := {spdm := .negotiated, rngBad := true, sessions := [{id := 9, finished := true}]}});
    (id < 2 ^ 32 ∧ chain < 8 ∧ index < 256 ∧ slot < 8 ∧ version < 256 ∧ s.dev.managed = true ∧ ((∀ i ∈ o, i < 2 ^ 32 ∧ s.dev.established i = true)) ∧ (let d := s.dev
    d.se.spdm = .negotiated ∧ d.se.rngBad = true))) ∧
  (let id : Nat := 9; let chain : Nat := 0; let index : Nat := 1; let slot : Nat := 0; let version : Nat := 0x12; let o : Option Nat := none; let s : State := (st {base with se := {spdm := .negotiated, rngBad := true, sessions := [{id := 9, finished := true}]}});
    (id < 2 ^ 32 ∧ chain < 8 ∧ index < 256 ∧ slot < 8 ∧ version < 256 ∧ s.dev.managed = true ∧ ((∀ i ∈ o, i < 2 ^ 32 ∧ s.dev.established i = true)) ∧ (let d := s.dev
    d.se.spdm = .negotiated ∧ d.se.rngBad = true ∧ d.established id = true ∧ id < linkSession))) ∧
  (let id : Nat := 9; let chain : Nat := 0; let index : Nat := 1; let slot : Nat := 1; let version : Nat := 0x12; let o : Option Nat := none; let s : State := (st (portS 17 {state := .up}));
    (id < 2 ^ 32 ∧ chain < 8 ∧ index < 256 ∧ slot < 8 ∧ version < 256 ∧ s.dev.managed = true ∧ ((∀ i ∈ o, i < 2 ^ 32 ∧ s.dev.established i = true)) ∧ (let d := s.dev
    (∃ p < 18, d.se.rngBad = false ∧ (d.port p).state ≠ .down ∧ (d.port p).txGroup < 2 ^ 62)))) := by
  refine ⟨?_, ?_, ?_, ?_, ?_, ?_, ?_, ?_, ?_, ?_, ?_, ?_, ?_, ?_, ?_, ?_, ?_, ?_, ?_, ?_, ?_, ?_, ?_, ?_⟩ <;> decide +kernel

/-- The hypotheses of UpdatesAndMessages (FirmwareUpdate), clause by clause. -/
theorem test_FirmwareUpdate_hypotheses :
  (let gen : Nat := 6; let len : Nat := 16777216; let off : Nat := 0; let s : State := (st {base with se := {upd := .idle, running := some {gen := 5}}});
    (gen < 2 ^ 32 ∧ len < 2 ^ 32 ∧ off < 2 ^ 32 ∧ (s.dev.managed = true ∨ s.dev.clk.power = .fwFail) ∧ s.dev.rf.armed = [] ∧ (let d := s.dev
    d.se.upd = .idle))) ∧
  (let gen : Nat := 6; let len : Nat := 16777216; let off : Nat := 0; let cls : Nat := 10; let ident : Nat := 2; let s : State := (st {base with se := {upd := .learn, running := some {gen := 5}}});
    (gen < 2 ^ 32 ∧ len < 2 ^ 32 ∧ off < 2 ^ 32 ∧ (s.dev.managed = true ∨ s.dev.clk.power = .fwFail) ∧ s.dev.rf.armed = [] ∧ (let d := s.dev
    (let running := (d.se.running.getD {}).gen
    d.se.upd = .learn ∧ ((d.se.running = none ∨ running < gen))))) ∧
    (gen < 2 ^ 32 ∧ len < 2 ^ 32 ∧ off < 2 ^ 32 ∧ (s.dev.managed = true ∨ s.dev.clk.power = .fwFail) ∧ s.dev.rf.armed = [] ∧ (let d := s.dev
    (cls ≠ 0x000A ∨ ident ≠ 0x0001) ∧ d.se.upd = .learn))) ∧
  (let gen : Nat := 5; let len : Nat := 16777216; let off : Nat := 0; let s : State := (st {base with se := {upd := .learn, running := some {gen := 5}}});
    (gen < 2 ^ 32 ∧ len < 2 ^ 32 ∧ off < 2 ^ 32 ∧ (s.dev.managed = true ∨ s.dev.clk.power = .fwFail) ∧ s.dev.rf.armed = [] ∧ (let d := s.dev
    (let running := (d.se.running.getD {}).gen
    d.se.upd = .learn ∧ d.se.running.isSome = true ∧ gen ≤ running)))) ∧
  (let gen : Nat := 6; let len : Nat := 16777216; let off : Nat := 0; let cls : Nat := 10; let ident : Nat := 2; let s : State := (st {base with se := {upd := .readyXfer, running := some {gen := 5}}});
    (gen < 2 ^ 32 ∧ len < 2 ^ 32 ∧ off < 2 ^ 32 ∧ (s.dev.managed = true ∨ s.dev.clk.power = .fwFail) ∧ s.dev.rf.armed = [] ∧ (let d := s.dev
    (cls ≠ 0x000A ∨ ident ≠ 0x0001) ∧ d.se.upd = .readyXfer)) ∧
    (gen < 2 ^ 32 ∧ len < 2 ^ 32 ∧ off < 2 ^ 32 ∧ (s.dev.managed = true ∨ s.dev.clk.power = .fwFail) ∧ s.dev.rf.armed = [] ∧ (let d := s.dev
    d.se.upd = .readyXfer ∧ len ≤ 0x1000000))) ∧
  (let gen : Nat := 6; let len : Nat := 16777217; let off : Nat := 0; let s : State := (st {base with se := {upd := .readyXfer, running := some {gen := 5}}});
    (gen < 2 ^ 32 ∧ len < 2 ^ 32 ∧ off < 2 ^ 32 ∧ (s.dev.managed = true ∨ s.dev.clk.power = .fwFail) ∧ s.dev.rf.armed = [] ∧ (let d := s.dev
    d.se.upd = .readyXfer ∧ 0x1000000 < len))) ∧
  (let gen : Nat := 6; let len : Nat := 1; let off : Nat := 98; let b : List Byte := [1,2]; let s : State := (st {base with se := {upd := .download, running := some {gen := 5}, imageLen := 100}});
    (gen < 2 ^ 32 ∧ len < 2 ^ 32 ∧ off < 2 ^ 32 ∧ (s.dev.managed = true ∨ s.dev.clk.power = .fwFail) ∧ s.dev.rf.armed = [] ∧ (let d := s.dev
    d.se.upd = .download ∧ off + b.length ≤ d.se.imageLen)) ∧
    (gen < 2 ^ 32 ∧ len < 2 ^ 32 ∧ off < 2 ^ 32 ∧ (s.dev.managed = true ∨ s.dev.clk.power = .fwFail) ∧ s.dev.rf.armed = [] ∧ (let d := s.dev
    d.se.upd = .download))) ∧
  (let gen : Nat := 6; let len : Nat := 1; let off : Nat := 98; let b : List Byte := [1,2]; let s : State := (st {base with se := {upd := .verify, running := some {gen := 5}, imageLen := 100}});
    (gen < 2 ^ 32 ∧ len < 2 ^ 32 ∧ off < 2 ^ 32 ∧ (s.dev.managed = true ∨ s.dev.clk.power = .fwFail) ∧ s.dev.rf.armed = []) ∧
    (gen < 2 ^ 32 ∧ len < 2 ^ 32 ∧ off < 2 ^ 32 ∧ (s.dev.managed = true ∨ s.dev.clk.power = .fwFail) ∧ s.dev.rf.armed = [] ∧ (let d := s.dev
    d.se.upd ≠ .idle)) ∧
    (gen < 2 ^ 32 ∧ len < 2 ^ 32 ∧ off < 2 ^ 32 ∧ (s.dev.managed = true ∨ s.dev.clk.power = .fwFail) ∧ s.dev.rf.armed = [] ∧ (let d := s.dev
    (d.se.upd ≠ .download ∨ d.se.imageLen < off + b.length))) ∧
    (gen < 2 ^ 32 ∧ len < 2 ^ 32 ∧ off < 2 ^ 32 ∧ (s.dev.managed = true ∨ s.dev.clk.power = .fwFail) ∧ s.dev.rf.armed = [] ∧ (let d := s.dev
    d.se.upd = .verify))) ∧
  (let gen : Nat := 6; let len : Nat := 1; let off : Nat := 98; let s : State := (st {base with se := {upd := .verify, running := some {gen := 5}, imageLen := 100}});
    (gen < 2 ^ 32 ∧ len < 2 ^ 32 ∧ off < 2 ^ 32 ∧ (s.dev.managed = true ∨ s.dev.clk.power = .fwFail) ∧ s.dev.rf.armed = [] ∧ (let d := s.dev
    d.se.upd = .verify ∧ readFirmware d.received = none)) ∧
    (gen < 2 ^ 32 ∧ len < 2 ^ 32 ∧ off < 2 ^ 32 ∧ (s.dev.managed = true ∨ s.dev.clk.power = .fwFail) ∧ s.dev.rf.armed = [] ∧ (let d := s.dev
    (d.se.upd = .download ∨ d.se.upd = .verify ∨ d.se.upd = .apply)))) ∧
  (let gen : Nat := 6; let len : Nat := 1; let off : Nat := 98; let s : State := (st {base with se := {upd := .apply, running := some {gen := 5}, imageLen := 100}});
    (gen < 2 ^ 32 ∧ len < 2 ^ 32 ∧ off < 2 ^ 32 ∧ (s.dev.managed = true ∨ s.dev.clk.power = .fwFail) ∧ s.dev.rf.armed = [] ∧ (let d := s.dev
    d.se.upd = .apply))) ∧
  (let gen : Nat := 6; let len : Nat := 1; let off : Nat := 98; let s : State := (st {base with se := {upd := .activate, running := some {gen := 5}, imageLen := 100}});
    (gen < 2 ^ 32 ∧ len < 2 ^ 32 ∧ off < 2 ^ 32 ∧ (s.dev.managed = true ∨ s.dev.clk.power = .fwFail) ∧ s.dev.rf.armed = [] ∧ (let d := s.dev
    d.se.upd = .activate))) := by
  refine ⟨?_, ?_, ?_, ?_, ?_, ?_, ?_, ?_, ?_, ?_⟩ <;> decide +kernel

/-- The hypotheses of UpdatesAndMessages (ManagementMessages), clause by clause. -/
theorem test_ManagementMessages_hypotheses :
  (let eid : Nat := 9; let sensor : Nat := 78; let cmd : Nat := 4; let s : State := (st {base with clk := {power := .tripped}});
    (eid < 256 ∧ 1 ≤ sensor ∧ sensor ≤ 78 ∧ cmd < 256 ∧ s.dev.telemetry = true ∧ s.dev.rf.armed = [] ∧ 1 ≤ eid ∧ eid < 255) ∧
    (eid < 256 ∧ 1 ≤ sensor ∧ sensor ≤ 78 ∧ cmd < 256 ∧ s.dev.telemetry = true ∧ s.dev.rf.armed = [])) ∧
  (let eid : Nat := 255; let sensor : Nat := 1; let cmd : Nat := 4; let s : State := (st {base with se := {sensorOff := [1, 5]}});
    (eid < 256 ∧ 1 ≤ sensor ∧ sensor ≤ 78 ∧ cmd < 256 ∧ s.dev.telemetry = true ∧ s.dev.rf.armed = [] ∧ (eid = 0 ∨ eid = 255))) := by
  refine ⟨?_, ?_⟩ <;> decide +kernel

end Sys2Proof.Tests
end

