-- ==== Sys2Proof/Proofs/Step.lean ====
section
/-! One step, case by case: the command in front of the queue, or the idle tick of an empty queue (R331, log 1). -/

namespace Sys2Proof.Machine

theorem step_of_pending_cons {s : State} {c : Instr} {rest : List Instr} (h : s.pending = c :: rest) :
    step s = exec c { s with pending := rest } := by
  rw [step, h]

theorem step_of_pending_nil {s : State} (h : s.pending = []) : step s = .next (idle s) := by
  rw [step, h]

theorem idle_of_power_off {s : State} (h : s.dev.clk.power = .off) : idle s = s :=
  if_pos h

theorem idle_of_power_ne_off {s : State} (h : s.dev.clk.power ≠ .off) :
    idle s = { s with dev := { s.dev with clk := { s.dev.clk with time := s.dev.clk.time + 1 } } } :=
  if_neg h

/-- Settles O1: the three clauses are the cases of `step` and, on an empty queue, of `idle`. -/
theorem stepRunsTheFront : Obligations.StepRunsTheFront := by
  refine ⟨fun c s => ?front, fun s hq hoff => ?unpowered, fun s hq hon => ?powered⟩
  case front => exact step_of_pending_cons rfl
  case unpowered => rw [step_of_pending_nil hq, idle_of_power_off hoff]
  case powered => rw [step_of_pending_nil hq, idle_of_power_ne_off hon]

end Sys2Proof.Machine
end

