-- ==== Sys2Proof/Proofs/Carillon.lean ====
section
/-! Commands whose whole effect is an update (`State.act`), and messages that cross the carillon (R26 to R28, R288). -/

namespace Sys2Proof.Machine

/-- With nothing armed and fewer than 8 failed checks, what comes over the carillon counts its retries and arrives (R26, R27). -/
theorem Upd.run_carRetries {d : Device} (h : d.rf.armed = []) (src dst : Nat) {fails : Nat} (hf : fails < 8) (k : Upd) :
    (Upd.carRetries src dst fails k).run d =
      k.run (d.withCtr (nocPage dst + 0xA0) (d.ctr (nocPage dst + 0xA0) + BitVec.ofNat 64 fails)) := by
  have quiet (c : Prop) [Decidable c] (u : Bool → Upd) : (if c then Upd.inject (nocPage dst) 0 u else u false).run d = (u false).run d := by
    split
    · exact Upd.run_inject h _ _ u
    · rfl
  have hn : ¬ fails ≥ 8 := by omega
  refine (quiet _ _).trans ?_
  simp only [Bool.false_eq_true, if_false, Nat.min_eq_left hf.le, if_neg hn, Upd.run_all_cons, Upd.run_all_nil, Upd.run_count]

/-- What arrives from the region itself or over the carillon is carried out on a device of which at most a retry count has changed. -/
theorem Upd.run_arrival {d : Device} (h : d.rf.armed = []) (src dst : Nat) {fails : Nat} (hf : fails < 8) (k : Upd) :
    ∃ c, (if src = dst then k else Upd.carRetries src dst fails k).run d = k.run { d with rf := { d.rf with ctrs := c } } := by
  split
  · exact ⟨d.rf.ctrs, rfl⟩
  · exact ⟨_, Upd.run_carRetries h src dst hf k⟩

/-! ### Credits and wakes -/

/-- With none of its messages to a region waiting, an engine has none to put in the egress queue. -/
theorem Upd.run_pumpCar_none {d : Device} {e dst : Nat} (h : ∀ p ∈ d.bl.backlog, p.2.engine ≠ e ∨ p.1 ≠ dst) :
    (Upd.pumpCar e dst).run d = d := by
  have hnone : (d.bl.backlog.find? fun p => p.2.engine = e && p.1 = dst) = none := by
    simp only [List.find?_eq_none, Bool.and_eq_true, decide_eq_true_eq, not_and]
    exact fun p hp he hd => (h p hp).elim (· he) (· hd)
  simp only [Upd.pumpCar, Upd.run_read, hnone, Upd.run_skip]

/-- An update that leaves a device leaves it any number of times. -/
theorem Upd.run_times_of_fixed {u : Upd} {d : Device} (h : u.run d = d) (n : Nat) : (Upd.times n u).run d = d := by
  induction n with
  | zero => rfl
  | succ n ih => rw [Upd.run_times_succ, h, ih]

/-- A CARILLON_CREDIT_RETURN with no more used than wait has nothing to return (R28). -/
theorem exec_carillonCreditReturn_none {e dst : Nat} {s : State} (he : e < 32) (hd : dst < 4)
    (h : s.dev.carUsed e dst ≤ ((s.dev.egress (e / 8) dst).filter (·.engine = e)).length) : exec (.carillonCreditReturn e dst) s = .next s := by
  refine (State.act_wf s _ _ (by simp [Instr.wf, he, hd])).trans ?_
  simp only [Upd.run_read, not_lt.2 h, decide_false, Upd.when_false, Upd.run_skip]

/-- One with a credit to return, and nothing of the engine waiting for it, returns it (R28). -/
theorem exec_carillonCreditReturn_one {e dst : Nat} {s : State} (he : e < 32) (hd : dst < 4)
    (h : ((s.dev.egress (e / 8) dst).filter (·.engine = e)).length < s.dev.carUsed e dst)
    (hb : ∀ p ∈ s.dev.bl.backlog, p.2.engine ≠ e ∨ p.1 ≠ dst) :
    exec (.carillonCreditReturn e dst) s = .next { s with dev := { s.dev with bl := { s.dev.bl with
      credits := put s.dev.bl.credits (e * 4 + dst) (s.dev.carUsed e dst - 1) 0 } } } := by
  refine (State.act_wf s _ _ (by simp [Instr.wf, he, hd])).trans ?_
  simp only [Upd.run_read, h, decide_true, Upd.when_true, Upd.run_all_cons, Upd.run_all_nil, Upd.run_of]
  rw [Upd.run_times_of_fixed (Upd.run_pumpCar_none (by exact hb))]

/-- A WAKE_CREDIT_RETURN with no more used than wait has nothing to return (R28). -/
theorem exec_wakeCreditReturn_none {src dst : Nat} {s : State} (hs : src < 4) (hd : dst < 4)
    (h : look s.dev.bl.wakeUsed (src * 4 + dst) 0 ≤ (s.dev.wakes src dst).length) : exec (.wakeCreditReturn src dst) s = .next s := by
  refine (State.act_wf s _ _ (by simp [Instr.wf, hs, hd])).trans ?_
  simp only [Upd.run_read, not_lt.2 h, decide_false, Upd.when_false, Upd.run_skip]

/-- One with a credit to return, and no woken watch waiting for it, returns it (R28). -/
theorem exec_wakeCreditReturn_one {src dst : Nat} {s : State} (hs : src < 4) (hd : dst < 4)
    (h : (s.dev.wakes src dst).length < look s.dev.bl.wakeUsed (src * 4 + dst) 0) (hw : ∀ w ∈ s.dev.bl.watches, w.woken = false) :
    exec (.wakeCreditReturn src dst) s = .next { s with dev := { s.dev with bl := { s.dev.bl with
      wakeUsed := put s.dev.bl.wakeUsed (src * 4 + dst) (look s.dev.bl.wakeUsed (src * 4 + dst) 0 - 1) 0 } } } := by
  have hnone : (s.dev.bl.watches.find? fun w => w.woken && bellRegion w.bell = src && w.slot / 64 = dst) = none :=
    List.find?_eq_none.2 fun w hm => by simp [hw w hm]
  refine (State.act_wf s _ _ (by simp [Instr.wf, hs, hd])).trans ?_
  simp only [Upd.run_read, h, decide_true, Upd.when_true, Upd.run_all_cons, Upd.run_all_nil, Upd.run_of, hnone, Upd.run_skip]

/-- The oldest WAKE of a path leaves the queue and is taken by the slot that it names (R27, R284). -/
theorem exec_wake_eq {src dst fails : Nat} {s : State} {m : CarMsg} {rest : List CarMsg} (hs : src < 4) (hd : dst < 4) (hf : fails < 8)
    (harm : s.dev.rf.armed = []) (hup : s.dev.up = true) (hun : s.dev.unheld = true) (hm : s.dev.wakes src dst = m :: rest) :
    ∃ c, exec (.wake src dst fails) s = .next { s with dev := (Upd.takeWake m).run { s.dev with
      rf := { s.dev.rf with ctrs := c }, bl := { s.dev.bl with wakes := put s.dev.bl.wakes (src * 4 + dst) rest [] } } } := by
  obtain ⟨c, hc⟩ := Upd.run_arrival harm src dst hf (.all [.wakes src dst fun _ => rest, .takeWake m])
  refine ⟨c, (State.act_wf s _ _ (by simp [Instr.wf, hs, hd])).trans ?_⟩
  simp only [Upd.run_read, hm, hup, hun, Bool.not_true, Bool.or_self, Bool.false_eq_true, if_false, hc]
  rfl

/-- The WAKE of a wait that goes on meets the condition that it names (R284). -/
theorem Upd.run_takeWake_live {m : CarMsg} {d : Device} {c : Cmd} (hc : (d.slot m.engine m.slot).cur = some c) (htag : c.waitTag = m.tag)
    (hst : c.status = none) :
    (Upd.takeWake m).run d = d.withSlot m.engine m.slot { d.slot m.engine m.slot with cur := some { c with
      waits := (c.waits.zip (List.range c.waits.length)).map fun p => if p.2 = m.cond then { p.1 with met := true } else p.1 } } := by
  rw [Upd.takeWake, Upd.run_cur, hc, Option.map_some, if_pos ⟨htag, by rw [hst]; rfl⟩]

/-- The WAKE of a wait that is over is ignored (R284). -/
theorem Upd.run_takeWake_stale {m : CarMsg} {d : Device} {c : Cmd} (hc : (d.slot m.engine m.slot).cur = some c)
    (hover : c.waitTag ≠ m.tag ∨ c.status.isSome = true) :
    (Upd.takeWake m).run d = d.withSlot m.engine m.slot (d.slot m.engine m.slot) := by
  have hno : ¬ (c.waitTag = m.tag ∧ c.status.isNone = true) := by
    rintro ⟨htag, hst⟩
    rcases hover with h | h
    · exact h htag
    · simp_all
  rw [Upd.takeWake, Upd.run_cur, hc, Option.map_some, if_neg hno, ← hc]

/-- RELAY_CREDIT returns the credits that are due to a relay, up to n (R275). -/
theorem exec_relayCredit_eq {e relay n : Nat} {s : State} (he : e < 32) (hr : relay < 6) (hup : s.dev.up = true) (harm : s.dev.rf.armed = []) :
    exec (.relayCredit e relay n) s =
      match (s.dev.eng e).creditsDue.find? fun p => p.1 % 8 = relay && p.2 ≠ 0 with
      | none => .next s
      | some (k, due) => .next { s with dev := s.dev.withEng e { s.dev.eng e with
          creditsDue := put (s.dev.eng e).creditsDue k (due - min n due) 0
          credits := put (s.dev.eng e).credits k (look (s.dev.eng e).credits k 0 + min n due) 0 } } := by
  refine (State.act_wf s _ _ (by simp [Instr.wf, he, hr])).trans ?_
  simp only [Upd.relayCredit, Upd.run_read]
  cases (s.dev.eng e).creditsDue.find? fun p => p.1 % 8 = relay && p.2 ≠ 0 with
  | none => rfl
  | some q =>
    simp only [hup, Upd.when_true, Upd.run_inject harm, Upd.run_read, Bool.false_eq_true, if_false]
    rfl

/-- Settles O24: each clause is the equation of its command above, in the case the clause names. -/
theorem wakesAndCredits : Obligations.WakesAndCredits := by
  refine ⟨fun e src dst fails s he hs hd hf harm => ⟨fun m rest hup hun hm => ⟨?live, ?stale⟩, exec_carillonCreditReturn_none he hd,
    exec_carillonCreditReturn_one he hd, exec_wakeCreditReturn_none hs hd, exec_wakeCreditReturn_one hs hd⟩,
    fun e relay n key due s he _ _ hr hup harm => ⟨fun hdue => ?due, fun hdue => ?noneDue⟩⟩
  case live =>
    intro c hc htag hst
    obtain ⟨ctrs, h⟩ := exec_wake_eq hs hd hf harm hup hun hm
    rw [Upd.run_takeWake_live (by exact hc) htag hst] at h
    exact ⟨_, h, ⟨rfl, rfl, rfl, rfl, rfl⟩, rfl⟩
  case stale =>
    intro c hc hover
    obtain ⟨ctrs, h⟩ := exec_wake_eq hs hd hf harm hup hun hm
    rw [Upd.run_takeWake_stale (by exact hc) hover] at h
    exact ⟨_, h, ⟨rfl, rfl, rfl, rfl, rfl⟩, rfl⟩
  case due => rw [exec_relayCredit_eq he hr hup harm, hdue]
  case noneDue => rw [exec_relayCredit_eq he hr hup harm, hdue]

end Sys2Proof.Machine
end

