-- ==== Sys2Proof/Proofs/BellStore.lean ====
section
/-! The bell stores: what one operation does to a bell that is neither damaged nor watched, and the delivery of the messages of a
carillon path (R27, R282, R283). -/

namespace Sys2Proof.Machine

/-! ### One bell -/

/-- A bell that is not damaged is read without an error (R287). -/
theorem Upd.run_bellAccess_whole {d : Device} {b : Nat} (h : ∀ p ∈ d.bl.damaged, p.1 ≠ b) (k : Upd) : (Upd.bellAccess b k).run d = k.run d := by
  have hnone : d.bl.damaged.find? (·.1 = b) = none := List.find?_eq_none.2 fun p hp => by simpa using h p hp
  simp only [Upd.bellAccess, Upd.run_read, hnone]

/-- With no watch of the bell met, none is woken (R283). -/
theorem Upd.run_checkWatches_none {d : Device} {b : Nat} (h : ∀ w ∈ d.bl.watches, w.bell = b → d.bell b < w.value) :
    (Upd.checkWatches b).run d = d := by
  have hnone : (d.bl.watches.filter fun w => w.bell = b && !w.woken && w.value ≤ d.bell b) = [] :=
    List.filter_eq_nil_iff.2 fun w hw hyes => by
      simp only [Bool.and_eq_true, decide_eq_true_eq] at hyes
      exact absurd (h w hw hyes.1.1) (by simpa using hyes.2)
  simp only [Upd.checkWatches, Upd.run_read, hnone, Upd.run_each_nil]

/-- With nothing armed, a bell that is not watched takes its value and nothing else happens. -/
theorem Upd.run_bellWrite_unwatched {d : Device} (harm : d.rf.armed = []) {b : Nat} (hw : ∀ w ∈ d.bl.watches, w.bell ≠ b) (v : Word64) :
    (Upd.bellWrite b v).run d = { d with bl := { d.bl with bells := put d.bl.bells b v 0 } } := by
  have hset : ((Upd.setBell b v).run d).rf.armed = [] := harm
  simp only [Upd.bellWrite, Upd.run_all_cons, Upd.run_all_nil, Upd.run_inject hset, Upd.when_false, Upd.run_skip]
  exact Upd.run_checkWatches_none fun w hm hb => absurd hb (hw w hm)

/-! ### Delivery -/

/-- What the store of a region does with a message that has arrived (R282 to R284). -/
def CarMsg.applied (m : CarMsg) (dst : Nat) : Upd :=
  let b := dst * 32768 + m.index
  match m.op with
  | .signal => .bellSignal b m.value
  | .add => .bellAdd b m.value
  | .watch => .register { bell := b, slot := m.engine * 8 + m.slot, cond := m.cond, value := m.value, tag := m.tag }
  | .unwatch => .of fun d => { d with bl := { d.bl with watches := d.bl.watches.filter fun w =>
      !(w.bell = b && w.slot = m.engine * 8 + m.slot && w.cond = m.cond) } }
  | .wake => .skip

/-- The bells once a message of a path has left its queue (R34, R286). -/
def Device.departed (d : Device) (src dst : Nat) (m : CarMsg) : Bells :=
  { d.bl with
    egress := put d.bl.egress (src * 4 + dst) ((d.egress src dst).erase m) []
    served := if src = dst then put d.bl.served src (m.engine % 8) 0 else d.bl.served }

/-- The device then, with its counters as the way of the message has left them. -/
def Device.departing (d : Device) (src dst : Nat) (m : CarMsg) (c : Sparse Word64) : Device :=
  { d with rf := { d.rf with ctrs := c }, bl := d.departed src dst m }

/-- The message of a path that is served next leaves its queue and is carried out at its store, when it is of the kind that
arrives. -/
theorem Upd.run_deliver {d : Device} {src dst fails : Nat} {m : CarMsg} (harm : d.rf.armed = []) (hf : fails < 8) (hup : d.up = true)
    (hun : d.unheld = true) (hm : d.nextMsg src dst = some m) :
    ∃ c, (Upd.deliver src dst fails m.op).run d =
      (m.applied dst).run (d.departing src dst m c) := by
  obtain ⟨c, hc⟩ := Upd.run_arrival harm src dst hf
    (.all [.egress src dst (·.erase m), .when (src = dst) (.serve src (m.engine % 8)), m.applied dst])
  refine ⟨c, ?_⟩
  simp only [Upd.deliver, Upd.run_read, hm, hup, hun, ne_eq, not_true_eq_false, decide_false, Bool.not_true, Bool.or_self, Bool.false_eq_true,
    if_false]
  refine hc.trans ?_
  by_cases h : src = dst
  · simp only [Upd.run_all_cons, Upd.run_all_nil, h, decide_true, Upd.when_true, Device.departing, Device.departed, if_true]
    rfl
  · simp only [Upd.run_all_cons, Upd.run_all_nil, h, decide_false, Upd.when_false, Device.departing, Device.departed, if_false]
    rfl

section
variable {d : Device} {dst : Nat} {m : CarMsg}

/-- SIGNAL and ADD of a bell that is neither damaged nor watched change its counter and a count (R282). -/
theorem CarMsg.run_applied_write (harm : d.rf.armed = []) (hd : ∀ p ∈ d.bl.damaged, p.1 ≠ dst * 32768 + m.index)
    (hw : ∀ w ∈ d.bl.watches, w.bell ≠ dst * 32768 + m.index) {v : Word64}
    (hv : (m.op = .signal ∧ v = if d.bell (dst * 32768 + m.index) < m.value then m.value else d.bell (dst * 32768 + m.index)) ∨
      (m.op = .add ∧ v = d.bell (dst * 32768 + m.index) + m.value)) :
    ∃ c, (m.applied dst).run d = { d with
      rf := { d.rf with ctrs := c }, bl := { d.bl with bells := put d.bl.bells (dst * 32768 + m.index) v 0 } } := by
  rcases hv with ⟨hop, rfl⟩ | ⟨hop, rfl⟩ <;>
  · simp only [CarMsg.applied, hop, Upd.bellSignal, Upd.bellAdd, Upd.run_bellAccess_whole hd, Upd.run_read, Upd.run_all_cons, Upd.run_all_nil,
      Upd.run_bellWrite_unwatched harm hw]
    exact ⟨_, rfl⟩

/-- WATCH of a value that the counter has not reached adds its entry and a count (R283). -/
theorem CarMsg.run_applied_watch (hop : m.op = .watch) (hd : ∀ p ∈ d.bl.damaged, p.1 ≠ dst * 32768 + m.index)
    (hw : ∀ w ∈ d.bl.watches, w.bell ≠ dst * 32768 + m.index) (hv : d.bell (dst * 32768 + m.index) < m.value) :
    ∃ c, (m.applied dst).run d = { d with
      rf := { d.rf with ctrs := c }
      bl := { d.bl with watches := d.bl.watches ++
        [{ bell := dst * 32768 + m.index, slot := m.engine * 8 + m.slot, cond := m.cond, value := m.value, tag := m.tag }] } } := by
  simp only [CarMsg.applied, hop, Upd.register, Upd.run_bellAccess_whole hd, Upd.run_all_cons, Upd.run_all_nil]
  refine ⟨_, Upd.run_checkWatches_none fun w hm hb => ?_⟩
  rcases List.mem_append.1 hm with hm | hm
  · exact absurd hb (hw w hm)
  · obtain rfl := List.mem_singleton.1 hm
    exact hv

end

/-- A command that delivers a kind of message carries it out (R27). -/
theorem exec_deliver {s : State} {src dst fails : Nat} {m : CarMsg} {i : Instr} {op : CarOp} (hi : exec i s = s.act i (.deliver src dst fails op))
    (hwf : i.wf = true) (hop : m.op = op) (harm : s.dev.rf.armed = []) (hf : fails < 8) (hup : s.dev.up = true) (hun : s.dev.unheld = true)
    (hm : s.dev.nextMsg src dst = some m) :
    ∃ c, exec i s = .next { s with dev := (m.applied dst).run (s.dev.departing src dst m c) } := by
  obtain ⟨c, hc⟩ := Upd.run_deliver harm hf hup hun hm
  exact ⟨c, by rw [hi, State.act_wf _ _ _ hwf, ← hop, hc]⟩

/-- Settles O26: each message is delivered, and what its store does with it is the rule of its kind. -/
theorem bellOperations : Obligations.BellOperations := by
  intro src dst fails s m hs hd hup hun harm hf hm hdam hwat
  have wf : ∀ i ∈ [Instr.signal src dst fails, .add src dst fails, .watch src dst fails, .unwatch src dst fails], i.wf = true := by
    simp [Instr.wf, hs, hd]
  refine ⟨fun hop => ?signal, fun hop => ?add, fun hop hv => ?watch, fun hop => ?unwatch⟩
  case signal =>
    obtain ⟨c, hc⟩ := exec_deliver (i := .signal src dst fails) rfl (wf _ (by simp)) hop harm hf hup hun hm
    obtain ⟨c', h⟩ := CarMsg.run_applied_write (d := s.dev.departing src dst m c) harm hdam hwat (.inl ⟨hop, rfl⟩)
    rw [h] at hc
    exact ⟨_, hc, ⟨rfl, rfl, rfl, rfl, rfl⟩, rfl⟩
  case add =>
    obtain ⟨c, hc⟩ := exec_deliver (i := .add src dst fails) rfl (wf _ (by simp)) hop harm hf hup hun hm
    obtain ⟨c', h⟩ := CarMsg.run_applied_write (d := s.dev.departing src dst m c) harm hdam hwat (.inr ⟨hop, rfl⟩)
    rw [h] at hc
    exact ⟨_, hc, ⟨rfl, rfl, rfl, rfl, rfl⟩, rfl⟩
  case watch =>
    obtain ⟨c, hc⟩ := exec_deliver (i := .watch src dst fails) rfl (wf _ (by simp)) hop harm hf hup hun hm
    obtain ⟨c', h⟩ := CarMsg.run_applied_watch (d := s.dev.departing src dst m c) hop hdam hwat hv
    rw [h] at hc
    exact ⟨_, hc, ⟨rfl, rfl, rfl, rfl, rfl⟩, rfl⟩
  case unwatch =>
    obtain ⟨c, hc⟩ := exec_deliver (i := .unwatch src dst fails) rfl (wf _ (by simp)) hop harm hf hup hun hm
    simp only [CarMsg.applied, hop] at hc
    exact ⟨_, hc, ⟨rfl, rfl, rfl, rfl, rfl⟩, rfl⟩

end Sys2Proof.Machine
end

