-- ==== Sys2Proof/Proofs/Signals.lean ====
section
/-! What a signal changes, said once: an interrupt the host interface, an error bit its page's header, a record the list of the records on
their way, the observation units and counters (R345, R353 to R357, R402, R451). -/

namespace Sys2Proof.Machine

/-- The device with other 64-bit counters, observation units, records and host interface: all that a signal changes, but for the
header of an error's page. -/
def Device.signalled (d : Device) (c : Sparse Word64) (o : Observe) (f : Faults) (h : HostIf) : Device :=
  { d with rf := { d.rf with ctrs := c }, ob := o, fl := f, ho := h }

section
variable (d : Device) (c : Sparse Word64) (o : Observe) (f : Faults) (h : HostIf)

@[simp] theorem Device.signalled_reg (a : Nat) : (d.signalled c o f h).reg a = d.reg a := rfl
@[simp] theorem Device.signalled_core : (d.signalled c o f h).core = d.core := rfl
@[simp] theorem Device.signalled_fl : (d.signalled c o f h).fl = f := rfl

end

/-- Two updates in order. -/
theorem Upd.run_pair (u v : Upd) (d : Device) : (Upd.all [u, v]).run d = v.run (u.run d) := rfl

/-! ### Interrupts and the gong -/

/-- An interrupt changes the host interface only (R404). -/
theorem Upd.run_msix (fn v : Nat) (d : Device) : ∃ h, (Upd.msix fn v).run d = d.signalled d.rf.ctrs d.ob d.fl h := by
  simp only [Upd.msix, Upd.run_read]
  split_ifs <;> exact ⟨_, rfl⟩

/-- So does an interrupt that is raised under a condition. -/
theorem Upd.run_when_msix (b : Bool) (fn v : Nat) (d : Device) : ∃ h, (Upd.when b (.msix fn v)).run d = d.signalled d.rf.ctrs d.ob d.fl h := by
  cases b
  · exact ⟨d.ho, rfl⟩
  · exact Upd.run_msix fn v d

theorem Upd.run_pageVector (page bit : Nat) (d : Device) : ∃ h, (Upd.pageVector page bit).run d = d.signalled d.rf.ctrs d.ob d.fl h := by
  have skip : ∃ h, Upd.skip.run d = d.signalled d.rf.ctrs d.ob d.fl h := ⟨d.ho, rfl⟩
  simp only [Upd.pageVector, Upd.run_read]
  split
  · split_ifs
    · split
      case h_5 => exact skip
      all_goals exact Upd.run_msix ..
    · exact skip
  · exact skip

/-- A raise of the gong changes the observation units and a counter (R345). -/
theorem Upd.run_gongRaise (cause : Nat) (d : Device) : ∃ c o, (Upd.gongRaise cause).run d = d.signalled c o d.fl d.ho := by
  simp only [Upd.gongRaise, Upd.run_read]
  split_ifs
  · exact ⟨_, _, rfl⟩
  · exact ⟨d.rf.ctrs, _, rfl⟩

/-! ### Records -/

/-- The records once one more is on its way: to the device log, or to its region's queue (R355). -/
def Faults.recorded (f : Faults) (r : FaultRec) : Faults :=
  if r.level = 3 then { f with toLog := f.toLog ++ [r] } else { f with detected := f.detected ++ [r] }

/-- A record is on its way with the time of its die, and may raise the gong. -/
theorem Upd.run_record (r : FaultRec) (d : Device) :
    ∃ c o x, x.level = r.level ∧ (Upd.record r).run d = d.signalled c o (d.fl.recorded x) d.ho := by
  have gong (b : Bool) (n : Nat) (x : Device) : ∃ c o, (Upd.when b (.gongRaise n)).run x = x.signalled c o x.fl x.ho := by
    cases b
    · exact ⟨x.rf.ctrs, x.ob, rfl⟩
    · exact Upd.run_gongRaise n x
  have stamped : ∃ c o, (Upd.record r).run d = d.signalled c o (d.fl.recorded { r with time := d.dieTime r.region }) d.ho := by
    simp only [Upd.record, Upd.run_read, Upd.run_all_cons, Upd.run_all_nil, Faults.recorded]
    split_ifs <;> exact gong _ _ _
  obtain ⟨c, o, h⟩ := stamped
  exact ⟨c, o, { r with time := d.dieTime r.region }, rfl, h⟩

/-! ### Error bits of a page -/

/-- The device once an error bit of a page is set in its header (R451). -/
def Device.raised (d : Device) (page bit : Nat) : Device := (Upd.raise page (oneBit bit)).run d

section
variable (d : Device) (page bit : Nat)

@[simp] theorem Device.raised_core : (d.raised page bit).core = d.core := rfl

end

/-- Counters play no part in it. -/
theorem Device.raised_withCtr (d : Device) (a : Nat) (v : Word64) (page bit : Nat) (c : Sparse Word64) (o : Observe) (f : Faults) (h : HostIf) :
    ((d.withCtr a v).raised page bit).signalled c o f h = (d.raised page bit).signalled c o f h := rfl

/-- The registers of the header after the error. -/
theorem Device.raised_eq (d : Device) (page bit : Nat) :
    d.raised page bit = ((d.withReg (page + 0x18) (firstAfter (d.reg (page + 0x0C)) (d.reg (page + 0x18)) (oneBit bit))).withReg (page + 0x0C)
      (d.reg (page + 0x0C) ||| oneBit bit)).withReg (page + 0x1C) (satAdd (d.reg (page + 0x1C)) (popCount (oneBit bit))) := by
  have h : ((d.withReg (page + 0x18) (firstAfter (d.reg (page + 0x0C)) (d.reg (page + 0x18)) (oneBit bit))).withReg (page + 0x0C)
      (d.reg (page + 0x0C) ||| oneBit bit)).reg (page + 0x1C) = d.reg (page + 0x1C) := by
    rw [Device.reg_withReg_other _ _ (by omega), Device.reg_withReg_other _ _ (by omega)]
  rw [← h]
  rfl

/-- Only ERR_STATUS, ERR_FIRST and ERR_COUNT of the page change. -/
theorem Device.raised_reg_other (d : Device) {page bit a : Nat} (h1 : a ≠ page + 0x0C) (h2 : a ≠ page + 0x18) (h3 : a ≠ page + 0x1C) :
    (d.raised page bit).reg a = d.reg a := by
  rw [Device.raised_eq, Device.reg_withReg_other _ _ h3, Device.reg_withReg_other _ _ h1, Device.reg_withReg_other _ _ h2]

/-- The device with other records. -/
def Device.withFl (d : Device) (f : Faults) : Device := { d with fl := f }

@[simp] theorem Device.withFl_reg (d : Device) (f : Faults) (a : Nat) : (d.withFl f).reg a = d.reg a := rfl
@[simp] theorem Device.withFl_core (d : Device) (f : Faults) : (d.withFl f).core = d.core := rfl
@[simp] theorem Device.withFl_fl (d : Device) (f : Faults) : (d.withFl f).fl = f := rfl

@[simp] theorem Device.signalled_withFl (d : Device) (c : Sparse Word64) (o : Observe) (f f' : Faults) (h : HostIf) :
    (d.signalled c o f h).withFl f' = d.signalled c o f' h := rfl

/-- Records are no part of the device's form. -/
theorem Wf.withFl {d : Device} (h : Wf d) (f : Faults) : Wf (d.withFl f) := ⟨h.mem, h.pop, h.regs, h.bells, h.keys⟩

/-- Nor are counters, observation units and the host interface. -/
theorem Wf.signalled {d : Device} (h : Wf d) (c : Sparse Word64) (o : Observe) (f : Faults) (i : HostIf) : Wf (d.signalled c o f i) :=
  ⟨h.mem, h.pop, h.regs, h.bells, h.keys⟩

/-- A write of a register keeps the device's form. -/
theorem Wf.withReg {d : Device} (h : Wf d) (a : Nat) (v : Word) : Wf (d.withReg a v) := (Upd.setReg a v).keeps d h

/-- An error bit keeps it, too. -/
theorem Wf.raised {d : Device} (h : Wf d) (page bit : Nat) : Wf (d.raised page bit) := (Upd.raise page (oneBit bit)).keeps d h

/-- The bit is set in ERR_STATUS. -/
theorem Device.raised_status {d : Device} (h : Wf d) (page bit : Nat) : (d.raised page bit).reg (page + 0x0C) = d.reg (page + 0x0C) ||| oneBit bit := by
  rw [Device.raised_eq, Device.reg_withReg_other _ _ (by omega), Device.reg_withReg_self _ (h.withReg ..)]

/-- The bit that is set in a word is set there. -/
theorem bitOf_or_oneBit (w : Word) {b : Nat} (h : b < 32) : bitOf (w ||| oneBit b) b = true := by
  simp only [bitOf, oneBit, BitVec.getLsbD_or, BitVec.getLsbD_ofNat, Nat.testBit_two_pow_self, h, decide_true, Bool.and_self, Bool.or_true]

/-- One that was set stays set. -/
theorem bitOf_or_left {w : Word} {b : Nat} (h : bitOf w b = true) (v : Word) : bitOf (w ||| v) b = true := by
  simp only [bitOf, BitVec.getLsbD_or, Bool.or_eq_true] at h ⊢
  exact .inl h

/-- An error with a record: its page's header, the record, and what they signal. -/
theorem Upd.run_error (page bit : Nat) (r : FaultRec) (injected : Bool) (d : Device) :
    ∃ c o h x, x.level = r.level ∧ (Upd.error page bit r false injected).run d = (d.raised page bit).signalled c o (d.fl.recorded x) h := by
  obtain ⟨h, hv⟩ := Upd.run_pageVector page bit (d.raised page bit)
  obtain ⟨c, o, x, hx, hr⟩ := Upd.run_record { r with enabled := d.enabled page bit, injected := injected }
    ((Upd.pageVector page bit).run (d.raised page bit))
  rw [hv] at hr
  refine ⟨c, o, h, x, hx, Eq.trans ?_ hr⟩
  rw [← hv]
  rfl

/-- A device reset is asked for where none is due or under way (R375). -/
theorem Upd.run_askDevice {d : Device} (kind code : Nat) (h : d.fl.devReset = none) (hp : d.clk.power ≠ .resetting) :
    (Upd.askDevice kind code).run d = d.withFl { d.fl with devReset := some (causeWord kind code) } := by
  simp only [Upd.askDevice, Upd.run_read, h, hp, Option.isSome_none, Bool.false_eq_true, or_self, if_false, Upd.run_of]
  rfl

/-- An error that asks for a device reset changes at most what is due (R375). -/
theorem Upd.run_askDevice_error (code : Nat) (d : Device) :
    ∃ r, (Upd.askDevice 2 code).run d = d.withFl { d.fl with devReset := r } := by
  simp only [Upd.askDevice, Upd.run_read]
  split_ifs
  · exact ⟨d.fl.devReset, rfl⟩
  · exact ⟨_, rfl⟩

end Sys2Proof.Machine
end

