-- ==== Sys2Proof/Proofs/DeviceLog.lean ====
section
/-! The device fault log and the links between the dies (R26, R358 to R360, R375). -/

namespace Sys2Proof.Machine

/-! ### A link between dies that fails -/

/-- Fewer than 8 failures of a flit are only counted (R26). -/
theorem Upd.run_flitFails_few {n : Nat} (h : n < 8) (die link : Nat) (inj : Bool) (d : Device) :
    (Upd.flitFails die link n inj).run d = (Upd.count (nocPage die + 0x60 + 8 * link) n).run d := by
  have hn : ¬ n ≥ 8 := by omega
  simp only [Upd.flitFails, hn, decide_false, Upd.when_false, Upd.run_all_cons, Upd.run_all_nil, Upd.run_skip]

theorem Upd.flitFails_eight (die link : Nat) (inj : Bool) : Upd.flitFails die link 8 inj =
    .all [.count (nocPage die + 0x60 + 8 * link) 8, .deviceError (nocPage die) 1 (deviceRec 0x0401 die (detailN link)) inj] := rfl

/-- The eighth is an error of the die's network page, on its way to the device log, and asks for a device reset (R26, R375). -/
theorem Upd.run_flitFails_eight (die link : Nat) (inj : Bool) (d : Device) :
    ∃ c o h x, (Upd.flitFails die link 8 inj).run d =
      (Upd.askDevice 2 0x0401).run ((d.raised (nocPage die) 1).signalled c o { d.fl with toLog := d.fl.toLog ++ [x] } h) := by
  have hcode : (deviceRec 0x0401 die (detailN link)).code = 0x0401 := rfl
  obtain ⟨c, o, h, x, hx, he⟩ := Upd.run_error (nocPage die) 1 (deviceRec 0x0401 die (detailN link)) inj
    ((Upd.count (nocPage die + 0x60 + 8 * link) 8).run d)
  replace hx : x.level = 3 := hx
  refine ⟨c, o, h, x, ?_⟩
  rw [Upd.flitFails_eight, Upd.run_pair, Upd.deviceError, Upd.run_pair, hcode, he, Faults.recorded, if_pos hx, Upd.run_count,
    Device.raised_withCtr, Device.withCtr_fl]

/-- Whatever was asked for before, the records, a request for a reset, counters, interrupts and the page's header are all that changes. -/
theorem Upd.run_flitFails_eight_any (die link : Nat) (inj : Bool) (d : Device) :
    ∃ c o h x r, (Upd.flitFails die link 8 inj).run d =
      (d.raised (nocPage die) 1).signalled c o { d.fl with toLog := d.fl.toLog ++ [x], devReset := r } h := by
  obtain ⟨c, o, h, x, he⟩ := Upd.run_flitFails_eight die link inj d
  obtain ⟨r, hr⟩ := Upd.run_askDevice_error 0x0401 ((d.raised (nocPage die) 1).signalled c o { d.fl with toLog := d.fl.toLog ++ [x] } h)
  rw [Device.signalled_withFl, Device.signalled_fl] at hr
  exact ⟨c, o, h, x, r, he.trans hr⟩

/-- A packet over a route with an injection fails 8 times, and does not arrive (R26). -/
theorem Upd.run_cross_armed {src dst die : Nat} {d : Device} (h : d.nocArmed src dst = some die) (k : Upd) :
    (Upd.cross src dst k).run d = (Upd.flitFails die (lowestLink die) 8 true).run ((Upd.fire (nocPage die) 1).run d) := by
  rw [Upd.cross, Upd.run_read, h]
  exact Upd.run_pair ..

/-! ### One entry of the log -/

/-- The interrupt status of an entry of the log, or of its overflow, with the interrupt where it is enabled (R358). -/
def Upd.logSignal (bit : Nat) (on : Bool) : Upd := .all [.raise rstDevPage (oneBit bit), .when on .faultVector]

theorem Upd.run_logSignal (bit : Nat) (on : Bool) (d : Device) :
    ∃ h, (Upd.logSignal bit on).run d = (d.raised rstDevPage bit).signalled d.rf.ctrs d.ob d.fl h := Upd.run_when_msix on 0 0 (d.raised rstDevPage bit)

/-- Where an entry calls for it or not, records, core and all but the page's header stay, and no bit of its ERR_STATUS is lost. -/
theorem Upd.run_when_logSignal {d : Device} (hwf : Wf d) (b : Bool) (bit : Nat) (on : Bool) :
    ((Upd.when b (.logSignal bit on)).run d).fl = d.fl ∧ ((Upd.when b (.logSignal bit on)).run d).core = d.core ∧
      (∀ a, a ≠ rstDevPage + 0x0C → a ≠ rstDevPage + 0x18 → a ≠ rstDevPage + 0x1C → ((Upd.when b (.logSignal bit on)).run d).reg a = d.reg a) ∧
      ∀ i, bitOf (d.reg (rstDevPage + 0x0C)) i = true → bitOf (((Upd.when b (.logSignal bit on)).run d).reg (rstDevPage + 0x0C)) i = true := by
  cases b
  · exact ⟨rfl, rfl, fun _ _ _ _ => rfl, fun _ h => h⟩
  · obtain ⟨i, hi⟩ := Upd.run_logSignal bit on d
    rw [Upd.when_true, hi]
    refine ⟨rfl, rfl, fun a h1 h2 h3 => Device.raised_reg_other d h1 h2 h3, fun j hj => ?_⟩
    rw [Device.signalled_reg, Device.raised_status hwf]
    exact bitOf_or_left hj _

/-- The device with a log entry placed at HEAD (R358, R359). -/
def Device.logged (d : Device) (rec : FaultRec) (rest : List FaultRec) : Device :=
  let head := d.regN (rstDevPage + 0x48)
  let seq := (d.fl.logSeq + 1) % 2 ^ 32
  (d.withFl { d.fl with
      toLog := rest, logSeq := seq,
      log := put d.fl.log (head % 256) (logBytes rec seq (d.regN (rstDevPage + 0x54))) [] }).withReg (rstDevPage + 0x48)
    (BitVec.ofNat 32 ((head + 1) % 512))

/-- The device with the overflow counted and its own entry still to be written (R360). -/
def Device.overflowing (d : Device) (rest : List FaultRec) : Device :=
  (d.withFl { d.fl with toLog := rest, logSeq := (d.fl.logSeq + 1) % 2 ^ 32 }).withReg (rstDevPage + 0x54) (satInc (d.reg (rstDevPage + 0x54)))

/-- HEAD reads as it was advanced. -/
theorem Device.logged_head {d : Device} (h : Wf d) (rec : FaultRec) (rest : List FaultRec) :
    (d.logged rec rest).reg (rstDevPage + 0x48) = BitVec.ofNat 32 ((d.regN (rstDevPage + 0x48) + 1) % 512) :=
  Device.reg_withReg_self _ (h.withFl _) _ _

theorem Wf.logged {d : Device} (h : Wf d) (rec : FaultRec) (rest : List FaultRec) : Wf (d.logged rec rest) :=
  (h.withFl _).withReg _ _

/-- The overflow is counted, and HEAD stays. -/
theorem Device.overflowing_count {d : Device} (h : Wf d) (rest : List FaultRec) :
    (d.overflowing rest).reg (rstDevPage + 0x54) = satInc (d.reg (rstDevPage + 0x54)) :=
  Device.reg_withReg_self _ (h.withFl _) _ _

theorem Device.overflowing_head (d : Device) (rest : List FaultRec) :
    (d.overflowing rest).reg (rstDevPage + 0x48) = d.reg (rstDevPage + 0x48) :=
  Device.reg_withReg_other (d.withFl _) _ (by decide)

@[simp] theorem Device.overflowing_core (d : Device) (rest : List FaultRec) : (d.overflowing rest).core = d.core := rfl
@[simp] theorem Device.overflowing_fl (d : Device) (rest : List FaultRec) :
    (d.overflowing rest).fl = { d.fl with toLog := rest, logSeq := (d.fl.logSeq + 1) % 2 ^ 32 } := rfl

theorem Wf.overflowing {d : Device} (h : Wf d) (rest : List FaultRec) : Wf (d.overflowing rest) :=
  (h.withFl _).withReg _ _

section
variable {s : State} {rec : FaultRec} {rest : List FaultRec}

/-- With nothing on its way, or without power, no entry is written. -/
theorem exec_deviceLogEntry_none (h : s.dev.fl.toLog = [] ∨ s.dev.clk.power = .off ∨ s.dev.clk.power = .perst) :
    exec .deviceLogEntry s = .next s := by
  refine (State.act_wf s _ _ rfl).trans ?_
  cases hl : s.dev.fl.toLog with
  | nil => simp only [Upd.run_read, hl, Upd.run_skip]
  | cons rec rest =>
    have hoff : (Decidable.decide (s.dev.clk.power ≠ .off) && Decidable.decide (s.dev.clk.power ≠ .perst)) = false := by
      rcases h with h | h | h <;> simp_all
    simp only [Upd.run_read, hl, hoff, Upd.when_false, Upd.run_skip]

/-- The oldest record crosses to IO die A and is entered there (R23, R358). -/
theorem exec_deviceLogEntry_some (hl : s.dev.fl.toLog = rec :: rest) (hoff : s.dev.clk.power ≠ .off) (hperst : s.dev.clk.power ≠ .perst) :
    exec .deviceLogEntry s = .next { s with dev :=
      (Upd.cross rec.region 6 (.logEntry rec)).run (s.dev.withFl { s.dev.fl with toLog := rest }) } := by
  refine (State.act_wf s _ _ rfl).trans ?_
  simp only [Upd.run_read, hl, hoff, hperst, ne_eq, not_false_eq_true, decide_true, Bool.and_self, Upd.when_true, Upd.run_all_cons, Upd.run_all_nil,
    Upd.run_of]
  rfl

/-- On a route without an injection it arrives. -/
theorem exec_deviceLogEntry_arrives (hl : s.dev.fl.toLog = rec :: rest) (hoff : s.dev.clk.power ≠ .off) (hperst : s.dev.clk.power ≠ .perst)
    (hroute : s.dev.nocArmed rec.region 6 = none) :
    exec .deviceLogEntry s = .next { s with dev := (Upd.logEntry rec).run (s.dev.withFl { s.dev.fl with toLog := rest }) } := by
  have hroute' : Device.nocArmed (s.dev.withFl { s.dev.fl with toLog := rest }) rec.region 6 = none := hroute
  rw [exec_deviceLogEntry_some hl hoff hperst]
  simp only [Upd.cross, Upd.run_read, hroute']

/-- An injection on its route fails its flit 8 times, and it does not arrive (R26, log 82). -/
theorem exec_deviceLogEntry_fails (hl : s.dev.fl.toLog = rec :: rest) (hoff : s.dev.clk.power ≠ .off) (hperst : s.dev.clk.power ≠ .perst)
    {die : Nat} (hroute : s.dev.nocArmed rec.region 6 = some die) :
    exec .deviceLogEntry s = .next { s with dev :=
      (Upd.flitFails die (lowestLink die) 8 true).run ((Upd.fire (nocPage die) 1).run (s.dev.withFl { s.dev.fl with toLog := rest })) } := by
  have hroute' : Device.nocArmed (s.dev.withFl { s.dev.fl with toLog := rest }) rec.region 6 = some die := hroute
  rw [exec_deviceLogEntry_some hl hoff hperst, Upd.run_cross_armed hroute']

/-- An injection that takes effect keeps the records, and is counted beside LOG_HEAD (R361). -/
theorem Device.fire_fl (d : Device) (page bit : Nat) : ((Upd.fire page bit).run d).fl = d.fl := rfl

theorem Device.fire_logHead (d : Device) (page bit : Nat) :
    ((Upd.fire page bit).run d).reg (rstDevPage + 0x48) = d.reg (rstDevPage + 0x48) :=
  look_put_other _ _ _ (by decide)

end

/-- An entry that finds room is placed at HEAD, with the interrupt status where it calls for one (R358). -/
theorem Upd.run_logEntry_room {d : Device} {rec : FaultRec} {rest : List FaultRec} (h : d.logUsed < 256) :
    ∃ on, (Upd.logEntry rec).run (d.withFl { d.fl with toLog := rest }) =
      (Upd.when (rec.enabled || rec.level = 3) (.logSignal 0 on)).run (d.logged rec rest) := by
  have h' : Device.logUsed (d.withFl { d.fl with toLog := rest }) < 256 := h
  simp only [Upd.logEntry, Upd.run_read, if_pos h', Upd.run_all_cons, Upd.run_all_nil, Upd.run_of]
  exact ⟨_, rfl⟩

/-- With the ring full the entry goes to the overflow entry and is counted (R360). -/
theorem Upd.run_logEntry_full {d : Device} {rec : FaultRec} {rest : List FaultRec} (h : 256 ≤ d.logUsed) :
    ∃ on on' x, x = (Upd.logSignal 2 on').run (d.overflowing rest) ∧ (Upd.logEntry rec).run (d.withFl { d.fl with toLog := rest }) =
      (Upd.when (rec.enabled || rec.level = 3) (.logSignal 0 on)).run
        (x.withFl { x.fl with ovf := logBytes rec ((d.fl.logSeq + 1) % 2 ^ 32) (x.regN (rstDevPage + 0x54)) }) := by
  have h' : ¬ Device.logUsed (d.withFl { d.fl with toLog := rest }) < 256 := not_lt.2 h
  simp only [Upd.logEntry, Upd.run_read, if_neg h', Upd.run_all_cons, Upd.run_all_nil, Upd.run_of]
  exact ⟨_, _, _, rfl, rfl⟩

/-! ### NOC_RETRANSMIT -/

/-- What is received over a link that does not end at the die changes nothing. -/
theorem exec_nocRetransmit_elsewhere {die link : Nat} {s : State} (hd : die < 4 ∨ die = 6 ∨ die = 7) (hl : link < 8)
    (h : linkEnds die link = false) (fails : Nat) : exec (.nocRetransmit die link fails) s = .next s := by
  refine (State.act_wf s _ _ (by simp [Instr.wf, hd]; omega)).trans ?_
  simp only [Upd.run_read, h, Bool.and_false, Upd.when_false, Upd.run_skip]

/-- With nothing armed, the failures of a flit over a link of the die count, 8 at most (R26). -/
theorem exec_nocRetransmit_eq {die link : Nat} {s : State} (hd : die < 4 ∨ die = 6 ∨ die = 7) (hl : link < 8)
    (h : linkEnds die link = true) (hup : s.dev.up = true) (harm : s.dev.rf.armed = []) (fails : Nat) :
    exec (.nocRetransmit die link fails) s = .next { s with dev := (Upd.flitFails die link (min fails 8) false).run s.dev } := by
  refine (State.act_wf s _ _ (by simp [Instr.wf, hd]; omega)).trans ?_
  simp only [Upd.run_read, h, hup, Bool.and_self, Upd.when_true, Upd.run_inject harm, Bool.false_eq_true, if_false]

/-! ### The statement -/

/-- The header of a die's network page lies apart from LOG_HEAD. -/
theorem logHead_ne_nocPage (die : Nat) {off : Nat} (h : off < 4096) : rstDevPage + 0x48 ≠ nocPage die + off := by
  simp only [rstDevPage, nocPage, regionPage, pageBase]
  omega

/-- Settles O40: an entry is placed, or overflows, or its packet does not arrive; failures of a die link count, and the eighth is a
device error. -/
theorem deviceLogAndDieLinks : Obligations.DeviceLogAndDieLinks := by
  refine ⟨fun s hs => ⟨fun h => exec_deviceLogEntry_none (.inl h), fun h => exec_deviceLogEntry_none (.inr h),
    fun rec rest hl hoff hperst hroute hroom hen hlev => ?silent, fun rec rest hl hoff hperst hroute hroom halarm => ?alarm,
    fun rec rest hl hoff hperst hroute => ?lost, fun rec rest hl hoff hperst hroute hfull => ?full⟩,
    fun die link fails s hd hl => ⟨fun h => exec_nocRetransmit_elsewhere hd hl h fails, fun h hup harm hf => ?few, fun h hup harm hf hnone => ?eight⟩⟩
  case silent =>
    obtain ⟨on, h⟩ := Upd.run_logEntry_room (rec := rec) (rest := rest) hroom
    rw [exec_deviceLogEntry_arrives hl hoff hperst hroute, h]
    simp only [hen, hlev, decide_false, Bool.or_self, Upd.when_false, Upd.run_skip]
    rfl
  case alarm =>
    obtain ⟨on, h⟩ := Upd.run_logEntry_room (rec := rec) (rest := rest) hroom
    obtain ⟨i, hi⟩ := Upd.run_logSignal 0 on (s.dev.logged rec rest)
    have hon : (rec.enabled || Decidable.decide (rec.level = 3)) = true := by simpa using halarm
    have hex := exec_deviceLogEntry_arrives hl hoff hperst hroute
    rw [h, hon, Upd.when_true, hi] at hex
    refine ⟨_, hex, rfl, rfl, rfl, ?_, ?_⟩
    · rw [Device.signalled_reg, Device.raised_reg_other _ (by decide) (by decide) (by decide), Device.logged_head hs]
    · rw [Device.signalled_reg, Device.raised_status (Wf.logged hs rec rest)]
      exact bitOf_or_oneBit _ (by decide)
  case lost =>
    obtain ⟨die, hdie⟩ := Option.ne_none_iff_exists'.1 hroute
    have hex := exec_deviceLogEntry_fails hl hoff hperst hdie
    obtain ⟨c, o, i, x, r, he⟩ := Upd.run_flitFails_eight_any die (lowestLink die) true
      ((Upd.fire (nocPage die) 1).run (s.dev.withFl { s.dev.fl with toLog := rest }))
    rw [he, Device.fire_fl, Device.withFl_fl] at hex
    refine ⟨_, hex, rfl, List.prefix_append rest [x], rfl, ?_⟩
    rw [Device.signalled_reg]
    exact (Device.raised_reg_other _ (logHead_ne_nocPage die (by decide)) (logHead_ne_nocPage die (by decide))
      (logHead_ne_nocPage die (by decide))).trans (Device.fire_logHead ..)
  case full =>
    obtain ⟨on, on', x, hx, h⟩ := Upd.run_logEntry_full (rec := rec) (rest := rest) hfull
    obtain ⟨i, hi⟩ := Upd.run_logSignal 2 on' (s.dev.overflowing rest)
    rw [hi] at hx
    have hex := exec_deviceLogEntry_arrives hl hoff hperst hroute
    rw [h] at hex
    have hwf : Wf x := by
      rw [hx]
      exact ((Wf.overflowing hs rest).raised _ _).signalled _ _ _ _
    have other : ∀ a, a ≠ rstDevPage + 0x0C → a ≠ rstDevPage + 0x18 → a ≠ rstDevPage + 0x1C → x.reg a = (s.dev.overflowing rest).reg a := by
      intro a h1 h2 h3
      rw [hx, Device.signalled_reg, Device.raised_reg_other _ h1 h2 h3]
    have hcount : x.reg (rstDevPage + 0x54) = satInc (s.dev.reg (rstDevPage + 0x54)) := by
      rw [other _ (by decide) (by decide) (by decide), Device.overflowing_count hs]
    have hbit : bitOf (x.reg (rstDevPage + 0x0C)) 2 = true := by
      rw [hx, Device.signalled_reg, Device.raised_status (Wf.overflowing hs rest)]
      exact bitOf_or_oneBit _ (by decide)
    have hhead : x.reg (rstDevPage + 0x48) = s.dev.reg (rstDevPage + 0x48) := by
      rw [other _ (by decide) (by decide) (by decide), Device.overflowing_head]
    have hfl : x.fl = { s.dev.fl with toLog := rest, logSeq := (s.dev.fl.logSeq + 1) % 2 ^ 32 } := by
      rw [hx, Device.signalled_fl, Device.overflowing_fl]
    have hcore : x.core = s.dev.core := by
      rw [hx, Device.signalled_core, Device.raised_core, Device.overflowing_core]
    obtain ⟨hfl', hcore', hreg, hkeep⟩ := Upd.run_when_logSignal (hwf.withFl { x.fl with
      ovf := logBytes rec ((s.dev.fl.logSeq + 1) % 2 ^ 32) (x.regN (rstDevPage + 0x54)) }) (rec.enabled || rec.level = 3) 0 on
    simp only [Device.withFl_reg, Device.withFl_core, Device.withFl_fl] at hfl' hcore' hreg hkeep
    clear hx hi
    refine ⟨_, hex, rfl, hcore'.trans hcore, ?_, ?_, ?_, ?_, ?_, ?_, hkeep 2 hbit⟩ <;> dsimp only
    · rw [hfl', hfl]
    · rw [hfl', hfl]
    · rw [hfl', hfl]
    · rw [hreg _ (by decide) (by decide) (by decide), hhead]
    · rw [hreg _ (by decide) (by decide) (by decide), hcount]
    · rw [hfl', Device.regN, hcount]
  case few =>
    rw [exec_nocRetransmit_eq hd hl h hup harm, Nat.min_eq_left hf.le, Upd.run_flitFails_few hf, Upd.run_count]
  case eight =>
    obtain ⟨c, o, i, x, he⟩ := Upd.run_flitFails_eight die link false s.dev
    have hp : s.dev.clk.power ≠ .resetting := by
      have : s.dev.clk.power = .ready := by simpa [Device.up] using hup
      rw [this]
      decide
    have hex := exec_nocRetransmit_eq hd hl h hup harm fails
    rw [Nat.min_eq_right hf, he, Upd.run_askDevice _ _ (by exact hnone) (by exact hp)] at hex
    exact ⟨_, hex, rfl, rfl, rfl, rfl⟩

end Sys2Proof.Machine
end

