-- ==== Sys2Proof/Proofs/LinkPorts.lean ====
section
/-! The ports of the Zwirid links: their controls, training, and the loss of a lane (R289, R290, R296, R301, R407, R422). -/

namespace Sys2Proof.Machine

/-- A port as it goes out of use (R295, R301). -/
def Port.wentDown (q : Port) (st : PortState) : Port :=
  { q with
    state := st, lanes := 0, partnerSwitch := false, partner := (0, 0), replay := [], waiting := [], group := [], rx := [], credit := [],
    owed := (0, 0, 0), txOpen := 0, macRun := 0, resends := 0, nakSent := false, nakDue := none, nextKey := none, rxNext := none, txKey := {},
    rxKey := {}, requester := false }

theorem Upd.run_portDown (p : Nat) (st : PortState) (d : Device) :
    (Upd.portDown p st).run d = d.withPort p ((d.port p).wentDown st) := rfl

/-- The other ports do not change with one of them. -/
theorem Device.port_withPort_other (d : Device) {p i : Nat} (x : Port) (h : i ≠ p) : (d.withPort p x).port i = d.port i :=
  look_put_other _ _ _ h

section
variable (d : Device) (c : Sparse Word64) (o : Observe) (f : Faults) (h : HostIf) (page bit p : Nat)

@[simp] theorem Device.signalled_port : (d.signalled c o f h).port p = d.port p := rfl
@[simp] theorem Device.raised_port : (d.raised page bit).port p = d.port p := rfl
@[simp] theorem Device.signalled_withPort (x : Port) :
    (d.signalled c o f h).withPort p x = (d.withPort p x).signalled c o f h := rfl

end

/-- A port that has counted one more error. -/
def Port.erred (q : Port) : Port := { q with faults := q.faults + 1 }

/-- Such a port is not as after a reset, nor is it once it is out of use. -/
theorem Port.ne_reset {q : Port} (h : q.faults ≠ 0) : q ≠ {} := fun e => h (by rw [e])

theorem Port.erred_ne (q : Port) : q.erred ≠ {} := Port.ne_reset (Nat.succ_ne_zero q.faults)
theorem Port.erred_wentDown_ne (q : Port) (st : PortState) : q.erred.wentDown st ≠ {} := Port.ne_reset (Nat.succ_ne_zero q.faults)

/-- The record of a port's error (R354 format L). -/
def Device.linkRec (d : Device) (p code : Nat) : FaultRec :=
  deviceRec code (if p < 9 then 6 else 7) (detailL p (d.port p).partner.1 (d.port p).faults)

theorem Upd.linkError_eq (p bit code : Nat) : Upd.linkError p bit code =
    .all [.port p Port.erred, .read fun d => .error (portPage p) bit (d.linkRec p code)] := rfl

/-- A link error is counted in its port; its page's header, a record and what they signal are all that changes besides. -/
theorem Upd.run_linkError (p bit code : Nat) (d : Device) : ∃ c o f h, (Upd.linkError p bit code).run d =
    ((d.withPort p (d.port p).erred).raised (portPage p) bit).signalled c o f h := by
  rw [Upd.linkError_eq, Upd.run_pair, Upd.run_port, Upd.run_read]
  obtain ⟨c, o, h, x, -, he⟩ := Upd.run_error (portPage p) bit ((d.withPort p (d.port p).erred).linkRec p code) false
    (d.withPort p (d.port p).erred)
  exact ⟨c, o, _, h, he⟩

/-- A port's link error, and the port out of use. -/
def Upd.linkLost (p : Nat) (st : PortState) : Upd := .all [.linkError p 3 0x0408, .portDown p st]

theorem Upd.run_linkLost (p : Nat) (st : PortState) (d : Device) : ∃ c o f h, (Upd.linkLost p st).run d =
    (((d.withPort p (d.port p).erred).raised (portPage p) 3).withPort p ((d.port p).erred.wentDown st)).signalled c o f h := by
  obtain ⟨c, o, f, h, he⟩ := Upd.run_linkError p 3 0x0408 d
  refine ⟨c, o, f, h, ?_⟩
  rw [Upd.linkLost, Upd.run_pair, he, Upd.run_portDown, Device.signalled_port, Device.raised_port,
    Device.port_withPort _ _ _ (Port.erred_ne _), Device.signalled_withPort]

/-- It leaves the port out of use and everything but the port as it was: the other ports, the requests, the queues and the memory. -/
theorem Upd.linkLost_spec (p : Nat) (st : PortState) (d : Device) : ((Upd.linkLost p st).run d).port p = (d.port p).erred.wentDown st ∧
    (∀ i, i ≠ p → ((Upd.linkLost p st).run d).port i = d.port i) ∧ ((Upd.linkLost p st).run d).lk.reqs = d.lk.reqs ∧
      ((Upd.linkLost p st).run d).q = d.q ∧ ((Upd.linkLost p st).run d).mm = d.mm := by
  obtain ⟨c, o, f, h, he⟩ := Upd.run_linkLost p st d
  rw [he]
  refine ⟨?_, fun i hi => ?_, rfl, rfl, rfl⟩
  · rw [Device.signalled_port, Device.port_withPort _ _ _ (Port.erred_wentDown_ne _ _)]
  · rw [Device.signalled_port, Device.port_withPort_other _ _ hi, Device.raised_port, Device.port_withPort_other _ _ hi]

/-- A port that is down carries no packets. -/
theorem Device.not_mem_portsTo {d : Device} {p : Nat} (h : (d.port p).state = .down) (dst : Nat) : p ∉ d.portsTo dst := by
  simp [Device.portsTo, h]

/-! ### The controls -/

section
variable {s : State} {p : Nat} (h : s.dev.accepts 0 = true) (hup : s.dev.up = true) (data : Word)
include h hup

/-- A write of a port's controls by the physical function is staged, whatever it asks for (R38). -/
theorem State.hostAct_portWrite (i : Instr) (hw : i.wf = true) :
    s.hostAct i 0 (.read fun d => .when (d.up && (0 : Nat) = 0) (.portWrite p data)) (portDie p) =
      .next { s with dev := s.dev.rx.withReg (portPage p + 0x04) ((data &&& 3) ||| (s.dev.reg (portPage p + 0x04) &&& 2)) } := by
  have hup' : s.dev.rx.up = true := hup
  rw [State.hostAct_eq s i 0 _ _ hw h]
  simp only [Upd.run_read, hup', decide_true, Bool.and_self, Upd.when_true, Upd.portWrite, Upd.run_modReg]
  rfl

theorem exec_portEnable_eq (hp : p < 18) : exec (.portEnable 0 p data) s =
    .next { s with dev := s.dev.rx.withReg (portPage p + 0x04) ((data &&& 3) ||| (s.dev.reg (portPage p + 0x04) &&& 2)) } :=
  State.hostAct_portWrite h hup data (.portEnable 0 p data) (by simp [Instr.wf, hp])

theorem exec_portRetrain_eq (hp : p < 18) : exec (.portRetrain 0 p data) s =
    .next { s with dev := s.dev.rx.withReg (portPage p + 0x04) ((data &&& 3) ||| (s.dev.reg (portPage p + 0x04) &&& 2)) } :=
  State.hostAct_portWrite h hup data (.portRetrain 0 p data) (by simp [Instr.wf, hp])

end

section
variable {old new : Word} {p : Nat} {d : Device}

/-- Enabling a port begins its training (R422). -/
theorem Upd.run_portControl_enable (hn : bitOf new 0 = true) (ho : bitOf old 0 = false) :
    (Upd.portControl p old new).run d = (Upd.portDown p .training).run d := by
  simp only [Upd.portControl, Upd.run_read, hn, ho, Bool.not_true, Bool.not_false, Bool.false_eq_true, if_false, if_true, Upd.run_all_cons,
    Upd.run_all_nil]

/-- Retrain trains a port again that is up (R294). -/
theorem Upd.run_portControl_retrain (hn : bitOf new 0 = true) (ho : bitOf old 0 = true) (hr : bitOf new 1 = true) (hst : (d.port p).state = .up) :
    (Upd.portControl p old new).run d = (Upd.retrain p).run d := by
  simp [Upd.portControl, Upd.run_read, hn, ho, hr, hst]

/-- Disabling it takes it out of use (R301). -/
theorem Upd.run_portControl_disable (hn : bitOf new 0 = false) (ho : bitOf old 0 = true) :
    (Upd.portControl p old new).run d = (Upd.portDown p .down).run d := by
  simp only [Upd.portControl, Upd.run_read, hn, ho, Bool.not_false, if_true, Bool.true_or, Upd.when_true]

end

/-! ### Training and the loss of a lane -/

/-- A port with the keys and the state that its training brings: n is the draw of its keys (R289, R296, R422). -/
def Port.trained (q : Port) (d : Device) (sw : Bool) (lanes partner n : Nat) : Port :=
  { q with
    txKey := ⟨Config.linkKey n 0, Config.linkSalt n 0⟩, rxKey := ⟨Config.linkKey n 1, Config.linkSalt n 1⟩,
    requester := sw || d.devId < partner % 8192,
    state := if d.lk.holdTx then .holdTx else .up, lanes := BitVec.ofNat 8 lanes, partnerSwitch := sw,
    partner := (partner % 8192, partner / 8192 % 32), txSeq := 0, rxSeq := 0, txGroup := 0, rxGroup := 0, txPhase := false,
    rxPhase := false, replay := [], group := [], rx := [], nakSeq := 0, acked := 0 }

/-- A port that trained is up, and its buffers are known (R289, log 135). -/
def Upd.trainUp (p : Nat) (sw : Bool) (lanes partner : Nat) (d : Device) : Upd :=
  .all [.draw fun n => .port p fun q => q.trained d sw lanes partner n, .advertise p, .pump p]

/-- The end of a port's training: it is up with keys, or has failed (R407, R422). -/
def Upd.trainEnd (p : Nat) (ok sw : Bool) (lanes partner : Nat) : Upd :=
  .read fun d => if ok && lanes = 255 && !d.se.rngBad then .trainUp p sw lanes partner d else .linkLost p .failed

theorem Upd.run_trainUp (p : Nat) (sw : Bool) (lanes partner : Nat) (d e : Device) : (Upd.trainUp p sw lanes partner e).run d =
    (Upd.pump p).run ((Upd.advertise p).run
      (({ d with free := d.free + 1 } : Device).withPort p ((d.port p).trained e sw lanes partner d.free))) := by
  have hport : ({ d with free := d.free + 1 } : Device).port p = d.port p := rfl
  rw [Upd.trainUp, Upd.run_all_cons, Upd.run_pair, Upd.run_draw, Upd.run_port, hport]

theorem execPortTrained_eq (p : Nat) (ok sw : Bool) (lanes partner : Nat) (s : State) (healthy : Bool) :
    execPortTrained p ok sw lanes partner s healthy = s.act (.portTrained p ok sw lanes partner healthy) (.read fun d =>
      .when (d.up && (d.port p).state = .training && (d.port p).lanes = 0 && !d.clk.lostLink)
        (.all [.healthTest healthy, .trainEnd p ok sw lanes partner])) := rfl

/-- A health test that passes changes nothing; one that fails shows, and no key is generated any more (R407). -/
theorem Upd.run_healthTest_true (d : Device) : (Upd.healthTest true).run d = d := rfl

theorem Upd.run_healthTest (healthy : Bool) (d : Device) :
    ((Upd.healthTest healthy).run d).se.rngBad = (!healthy || d.se.rngBad) ∧ ((Upd.healthTest healthy).run d).lk = d.lk ∧
      ((Upd.healthTest healthy).run d).q = d.q ∧ ((Upd.healthTest healthy).run d).mm = d.mm := by
  cases healthy <;> cases hb : d.se.rngBad <;> simp [Upd.healthTest, hb]
  exact ⟨rfl, rfl, rfl, rfl⟩

section
variable {s : State} {p : Nat} (hp : p < 18)
include hp

theorem exec_portTrained_idle {ok sw healthy : Bool} {lanes partner : Nat} (hl : lanes < 256) (hst : (s.dev.port p).state ≠ .training) :
    exec (.portTrained p ok sw lanes partner healthy) s = .next s := by
  refine (State.act_wf s _ _ (by simp [Instr.wf, hp, hl])).trans ?_
  simp only [Upd.run_read, hst, decide_false, Bool.and_false, Bool.false_and, Upd.when_false, Upd.run_skip]

/-- Training that ends while the port trains draws the keys, or fails (R407, R422). -/
theorem exec_portTrained_eq {ok sw healthy : Bool} {lanes partner : Nat} (hl : lanes < 256) (hup : s.dev.up = true)
    (hst : (s.dev.port p).state = .training) (hlanes : (s.dev.port p).lanes = 0) (hlink : s.dev.clk.lostLink = false) :
    exec (.portTrained p ok sw lanes partner healthy) s =
      .next { s with dev := (Upd.trainEnd p ok sw lanes partner).run ((Upd.healthTest healthy).run s.dev) } := by
  refine (execPortTrained_eq ..).trans ((State.act_wf s _ _ (by simp [Instr.wf, hp, hl])).trans ?_)
  simp only [Upd.run_read, hup, hst, hlanes, hlink, decide_true, Bool.and_self, Bool.not_false, Upd.when_true, Upd.run_pair]

/-- A lane lost takes a port down that receives (R301). -/
theorem exec_laneDown_on (h : s.dev.portOn p = true) : exec (.laneDown p) s = .next { s with dev := (Upd.linkLost p .down).run s.dev } := by
  refine (State.act_wf s _ _ (by simp [Instr.wf, hp])).trans ?_
  simp only [Upd.run_read, h, Bool.true_or, Upd.when_true]
  rfl

theorem exec_laneDown_down (h : (s.dev.port p).state = .down) : exec (.laneDown p) s = .next s := by
  have hoff : s.dev.portOn p = false := by simp [Device.portOn, h]
  have htr : ¬ (s.dev.port p).state = .training := by simp [h]
  refine (State.act_wf s _ _ (by simp [Instr.wf, hp])).trans ?_
  simp only [Upd.run_read, hoff, htr, decide_false, Bool.and_false, Bool.false_and, Bool.or_self, Upd.when_false, Upd.run_skip]

end

/-- Settles O44: the controls are staged and then act, training brings keys or fails, and a lost lane takes the port down. -/
theorem linkPorts : Obligations.LinkPorts := by
  intro p partner sw ok healthy lanes data s hp hpartner hl
  refine ⟨fun h hup => ⟨exec_portEnable_eq h hup data hp, exec_portRetrain_eq h hup data hp⟩,
    fun old new hn ho => Upd.run_portControl_enable hn ho, fun old new hn ho hr hst => Upd.run_portControl_retrain hn ho hr hst,
    fun old new hn ho => Upd.run_portControl_disable hn ho, fun hup hst hlanes hlink hrng => ?trains, fun hup hst hlanes hlink hbad => ?fails,
    exec_portTrained_idle hp hl, fun hon => ?lost, exec_laneDown_down hp⟩
  case trains =>
    have hport : partner / 8192 % 32 = partner / 8192 := Nat.mod_eq_of_lt (by omega)
    refine (exec_portTrained_eq hp (by decide) hup hst hlanes hlink).trans ?_
    rw [Upd.run_healthTest_true, Upd.trainEnd, Upd.run_read, hrng, if_pos (by decide), Upd.run_trainUp, Port.trained, hport, BitVec.ofNat_eq_ofNat]
  case fails =>
    obtain ⟨hrng, hlk, hq, hmm⟩ := Upd.run_healthTest healthy s.dev
    have hno : (ok && Decidable.decide (lanes = 255) && !((Upd.healthTest healthy).run s.dev).se.rngBad) = false := by
      rw [hrng]
      rcases hbad with h | h | h | h <;> simp [h]
    have hex := exec_portTrained_eq (ok := ok) (sw := sw) (healthy := healthy) (partner := partner) hp hl hup hst hlanes hlink
    rw [Upd.trainEnd, Upd.run_read, hno, if_neg Bool.false_ne_true] at hex
    obtain ⟨hport, hother, -, hq', hmm'⟩ := Upd.linkLost_spec p .failed ((Upd.healthTest healthy).run s.dev)
    refine ⟨_, hex, rfl, ?_, ?_, fun i hi => (hother i hi).trans (by rw [Device.port, hlk, Device.port]), hq'.trans hq, hmm'.trans hmm⟩ <;>
      rw [hport] <;> rfl
  case lost =>
    obtain ⟨hport, hother, hreqs, hq, hmm⟩ := Upd.linkLost_spec p .down s.dev
    have hdown : (((Upd.linkLost p .down).run s.dev).port p).state = .down := by rw [hport]; rfl
    exact ⟨_, exec_laneDown_on hp hon, rfl, hdown, by rw [hport]; rfl, by rw [hport]; rfl, by rw [hport]; rfl, hother, hreqs, hq, hmm,
      Device.not_mem_portsTo hdown⟩

end Sys2Proof.Machine
end

