-- ==== Sys2Proof/Proofs/ManagementTick.lean ====
section
/-! A management tick whose waiting clears take a key command away (R38, R417, log 105): the clears act before the commands. -/

namespace Sys2Proof.Machine

/-- The key command under way (R417). -/
def Device.keyCommand (d : Device) : Option (Nat × Nat) := d.se.keyBusy

/-- What only signals leaves it. -/
theorem fixesKey_quiet {u : Upd} (h : u.Quiet) : u.Fixes Device.keyCommand :=
  ⟨fun d => congrArg Security.keyBusy (h.fields d).2.2.2.2.2.2.2.2.2⟩

/-! ### The phases after the key commands leave the key command -/

theorem fixesKey_latch (id : Nat) (v : Int) : (Upd.latch id v).Fixes Device.keyCommand :=
  fixes_read fun _ => fixes_cons ⟨fun _ => rfl⟩ (fixes_cons (fixes_when (fixes_each fun _ => fixesKey_quiet (quiet_send _))) fixes_nil)

/-- An event that an injection can turn leaves what both its ways leave. -/
theorem fixesKey_inject {page bit : Nat} {k : Bool → Upd} (h : ∀ b, (k b).Fixes Device.keyCommand) :
    (Upd.inject page bit k).Fixes Device.keyCommand :=
  fixes_read fun d => by
    split
    · exact fixes_cons (fixesKey_quiet (quiet_fire _ _)) (fixes_cons (h true) fixes_nil)
    · exact h false

theorem fixesKey_tested (id : Nat) (v : Int) : (Upd.tested id v).Fixes Device.keyCommand :=
  fixesKey_inject fun b => by
    cases b
    · exact fixesKey_latch id v
    · exact fixesKey_quiet (quiet_raise _ _)

theorem fixesKey_draw {k : Nat → Upd} (h : ∀ n, (k n).Fixes Device.keyCommand) : (Upd.draw k).Fixes Device.keyCommand :=
  fixes_read fun _ => fixes_cons ⟨fun _ => rfl⟩ (fixes_cons (h _) fixes_nil)

theorem fixesKey_junction (id : Nat) {k : Int → Upd} (h : ∀ t, (k t).Fixes Device.keyCommand) : (Upd.junction id k).Fixes Device.keyCommand :=
  fixes_read fun d => by
    split
    · exact h _
    · exact fixesKey_draw fun _ => h _

/-- Sampling the sensors (R427). -/
theorem fixesKey_sampleSensors : Upd.sampleSensors.Fixes Device.keyCommand :=
  fixes_cons (fixes_each fun _ => fixesKey_junction _ fun _ => fixesKey_tested ..) <|
  fixes_cons (fixes_read fun _ => fixesKey_tested ..) <|
  fixes_cons (fixes_each fun _ => fixesKey_draw fun _ => fixesKey_tested ..) <|
  fixes_cons (fixes_each fun _ => fixes_read fun _ => fixesKey_tested ..) <|
  fixes_cons (fixesKey_draw fun _ => fixesKey_tested ..) <|
  fixes_cons (fixes_each fun _ => fixes_read fun _ => fixes_cons (fixesKey_tested ..) <|
    fixes_cons (fixesKey_quiet (quiet_count _ _)) fixes_nil) <|
  fixes_cons (fixes_read fun _ => fixesKey_tested ..) <|
  fixes_cons (fixes_read fun _ => fixesKey_tested ..) <|
  fixes_cons ⟨fun _ => rfl⟩ fixes_nil

/-- The thermal rules (R429). -/
theorem fixesKey_thermal (r : Nat) : (Upd.thermal r).Fixes Device.keyCommand :=
  fixes_read fun _ =>
    fixes_cons (fixes_when (fixes_cons ⟨fun _ => rfl⟩ (fixes_cons (fixesKey_quiet (quiet_raise _ _)) fixes_nil))) <|
    fixes_cons (fixes_when ⟨fun _ => rfl⟩) <|
    fixes_cons (fixes_read fun _ => fixes_when (fixesKey_quiet (quiet_count _ _))) fixes_nil

/-- The voltage loops (R430). -/
theorem fixesKey_adapt (r : Nat) : (Upd.adapt r).Fixes Device.keyCommand :=
  fixesKey_draw fun _ => fixes_read fun _ => fixes_when <|
    fixes_cons ⟨fun _ => rfl⟩ <| fixes_cons (fixes_cons (fixesKey_quiet (quiet_count _ _)) <|
      fixes_cons (fixesKey_quiet (quiet_send _)) fixes_nil) fixes_nil

/-- The check of the time (R331). -/
theorem fixesKey_timeSync : Upd.timeSync.Fixes Device.keyCommand :=
  fixes_cons (fixesKey_inject fun _ => fixes_when ⟨fun _ => rfl⟩) <|
  fixes_cons (fixesKey_quiet (quiet_modReg _ _)) <|
  fixes_cons (fixes_each fun _ => fixes_read fun _ => fixes_cons (fixesKey_quiet (quiet_modReg _ _)) <|
    fixes_cons (fixes_when <| fixes_cons (fixesKey_quiet (quiet_error _ _ _ _ _)) <| fixes_cons (fixesKey_quiet (quiet_sat _)) <|
      fixes_cons ⟨fun _ => rfl⟩ fixes_nil) fixes_nil) fixes_nil

/-! ### The commands of phase 1 -/

/-- With no op in KEY_CMD no key command is begun, whatever else is. -/
theorem Upd.run_applyCommands_keyCommand {d : Device} (h : fieldOf (d.reg (secPage + 0x50)) 1 0 = 0) :
    (Upd.applyCommands.run d).keyCommand = d.keyCommand := by
  rw [Upd.applyCommands, Upd.run_all_cons, Upd.run_read, Upd.takeOp, Upd.run_read, h]
  simp only [ne_eq, not_true_eq_false, decide_false, Bool.false_and, Upd.when_false, Upd.run_skip]
  refine (fixes_cons ?svn (fixes_cons ?debug (fixes_cons ?microprogram fixes_nil))).same d
  case svn => exact fixes_read fun _ => fixes_when ⟨fun _ => rfl⟩
  case debug =>
    refine fixes_read fun _ => fixes_read fun _ => fixes_when <| fixes_cons (fixesKey_quiet (quiet_modReg _ _)) <| fixes_cons ?_ fixes_nil
    exact fixes_when <| fixes_cons ⟨fun _ => rfl⟩ <| fixes_cons (fixesKey_quiet (quiet_setReg _ _)) fixes_nil
  case microprogram =>
    exact fixes_read fun _ => fixes_cons (fixesKey_quiet (quiet_setReg _ _)) (fixes_cons (fixes_when ⟨fun _ => rfl⟩) fixes_nil)

/-! ### The controls -/

/-- The key command, and a register. -/
def Device.keyAnd (a : Nat) (d : Device) : Option (Nat × Nat) × Word := (d.se.keyBusy, d.reg a)

/-- After the clears, the controls of phase 1 leave the key command and every register but those of the ports. -/
theorem Upd.run_applyControls_keyAnd {a : Nat} (h : a % 4096 ≠ 4) (d : Device) :
    (Upd.applyControls.run d).keyAnd a = (Upd.applyClears.run d).keyAnd a := by
  have port (p : Nat) (old new : Word) : (Upd.portControl p old new).Fixes (Device.keyAnd a) := by
    refine fixes_read fun x => ?_
    dsimp only
    split_ifs
    · exact fixes_when ⟨fun _ => rfl⟩
    · exact fixes_cons ⟨fun _ => rfl⟩ fixes_nil
    · exact fixes_skip
    · exact ⟨fun _ => rfl⟩
    · exact ⟨fun _ => rfl⟩
  have ctrl (p : Nat) : (Upd.modReg (portPage p + 0x04) (· &&& 1)).Fixes (Device.keyAnd a) :=
    ⟨fun x => by
      have hne : a ≠ portPage p + 0x04 := by
        simp only [portPage, pageBase]
        omega
      rw [Device.keyAnd, Upd.run_modReg, Device.reg_withReg_other _ _ hne]
      rfl⟩
  rw [Upd.applyControls, Upd.run_all_cons]
  refine (fixes_cons (fixes_each fun p => fixes_read fun x => ?_) (fixes_cons ?_ fixes_nil)).same _
  · exact fixes_cons (port ..) (fixes_cons (ctrl p) fixes_nil)
  · exact ⟨fun _ => rfl⟩

/-- One waiting clear of a register other than ERR_STATUS clears its bits (R38, log 105). -/
theorem Upd.run_applyClears_one {d : Device} {a : Nat} {w : Word} (h : d.rf.clrNext = [(a, w)]) (ha : a % 4096 ≠ 0x0C) :
    Upd.applyClears.run d = ({ d with rf := { d.rf with clrNext := [] } } : Device).withReg a (d.reg a &&& ~~~w) := by
  rw [Upd.applyClears, Upd.run_read, h]
  simp only [Upd.each, List.map_cons, List.map_nil, if_neg ha, Upd.run_all_cons, Upd.run_all_nil, Upd.run_of, Upd.run_modReg]
  rfl

/-- The device as a tick begins. -/
def Device.ticked (d : Device) : Device := { d with clk := { d.clk with ticks := d.clk.ticks + 1 } }

/-- A tick of a managed device in its phases (R425). -/
theorem exec_managementTick_managed {s : State} (h : s.dev.managed = true) : exec .managementTick s = .next { s with
  dev := (Upd.all [.applyControls, .applyCommands, .sampleSensors, .each (List.range 4) .thermal, .each (List.range 4) .adapt,
    .timeSync]).run s.dev.ticked } := by
  have ht : s.dev.telemetry = true := by
    simp only [Device.managed, Bool.and_eq_true] at h
    simp [Device.telemetry, h.1, h.2]
  refine (State.act_wf s _ _ rfl).trans ?_
  simp only [Upd.run_read, ht, h, Upd.when_true, Upd.run_all_cons, Upd.run_all_nil, Upd.run_of, Device.ticked]

/-- A tick of a managed device whose KEY_CMD a waiting clear leaves without an op begins no key command (log 105). -/
theorem exec_managementTick_keyBusy {s : State} (hm : s.dev.managed = true) {w : Word} (hclr : s.dev.rf.clrNext = [(secPage + 0x50, w)])
    (hwf : s.Inv) (hop : fieldOf (s.dev.reg (secPage + 0x50) &&& ~~~w) 1 0 = 0) {u : State} (hu : exec .managementTick s = .next u) :
    u.dev.se.keyBusy = s.dev.se.keyBusy := by
  have hwf' : Wf { s.dev.ticked with rf := { s.dev.ticked.rf with clrNext := [] } } := ⟨hwf.mem, hwf.pop, hwf.regs, hwf.bells, hwf.keys⟩
  have hkey : (Upd.applyControls.run s.dev.ticked).keyAnd (secPage + 0x50) = (s.dev.se.keyBusy, s.dev.reg (secPage + 0x50) &&& ~~~w) := by
    rw [Upd.run_applyControls_keyAnd (by decide), Upd.run_applyClears_one (d := s.dev.ticked) hclr (by decide), Device.keyAnd,
      Device.reg_withReg_self _ hwf']
    rfl
  obtain ⟨hbusy, hreg⟩ := Prod.mk.inj hkey
  have later : (Upd.all [.sampleSensors, .each (List.range 4) .thermal, .each (List.range 4) .adapt, .timeSync]).Fixes Device.keyCommand :=
    fixes_cons fixesKey_sampleSensors <| fixes_cons (fixes_each fixesKey_thermal) <| fixes_cons (fixes_each fixesKey_adapt) <|
      fixes_cons fixesKey_timeSync fixes_nil
  rw [exec_managementTick_managed hm, Upd.run_all_cons, Upd.run_all_cons] at hu
  have hdev := congrArg (fun x : State => x.dev.keyCommand) (Host.Outcome.next.inj hu)
  dsimp only at hdev
  rw [later.same] at hdev
  calc u.dev.keyCommand
    _ = (Upd.applyCommands.run (Upd.applyControls.run s.dev.ticked)).keyCommand := hdev.symm
    _ = (Upd.applyControls.run s.dev.ticked).keyCommand := Upd.run_applyCommands_keyCommand (by rw [hreg, hop])
    _ = s.dev.se.keyBusy := hbusy

/-- The reset device, ready, with the op of a key command in KEY_CMD, and a write waiting that clears it. -/
def clearedKeyCommand : State :=
  { dev := ({ clk := { power := .ready }, rf := { clrNext := [(secPage + 0x50, 1)] } } : Device).withReg (secPage + 0x50) 1 }

theorem clearedKeyCommand_inv : clearedKeyCommand.Inv := by
  refine Wf.withReg ⟨⟨.nil, ?_⟩, ?_, ⟨.nil, ?_⟩, ⟨.nil, ?_⟩, ?_⟩ _ _
  · exact fun _ h => nomatch h
  · exact fun _ h => nomatch h
  · exact fun _ h => nomatch h
  · exact fun _ h => nomatch h
  · unfold Memory.KeysKnown
    decide

/-- Its KEY_CMD. -/
theorem clearedKeyCommand_reg : clearedKeyCommand.dev.reg (secPage + 0x50) = 1 := by
  decide

theorem clearedKeyCommand_managed : clearedKeyCommand.dev.managed = true := by
  decide

/-- Refutes O48: a tick carries out the clears that wait before it takes a key command, so one that clears KEY_CMD takes the command away
(log 105). -/
theorem not_managementTick : ¬ Obligations.ManagementTick := by
  intro h
  obtain ⟨-, -, htick⟩ := h clearedKeyCommand clearedKeyCommand_inv
  obtain ⟨u, hu, -, -, -, -, -, -, -, -, -, -, -, -, hkey, -⟩ := htick clearedKeyCommand_managed
  obtain ⟨hbegun, -⟩ := hkey rfl (.inl (by rw [clearedKeyCommand_reg]; decide))
  have hnone : u.dev.se.keyBusy = none :=
    exec_managementTick_keyBusy clearedKeyCommand_managed rfl clearedKeyCommand_inv (by rw [clearedKeyCommand_reg]; decide) hu
  rw [hnone] at hbegun
  cases hbegun

end Sys2Proof.Machine
end

