-- ==== Sys2Proof/Proofs/PcxView.lean ====
section
/-! What the controllers of the device memory leave of the PCI Express unit: the virtual functions and their map, its ERR_STATUS, and, when a range
is only read, the injections armed. -/

namespace Sys2Proof.Machine

/-- The virtual functions' own state and map, and the ERR_STATUS of the PCX page. -/
def Device.pcxView (d : Device) : Sparse Vf × Sparse Word × Word := (d.ho.vfs, d.ho.vfMap, d.reg (pcxPage + 0x0C))

/-- The same with the injections armed. -/
def Device.armedView (d : Device) : (Sparse Vf × Sparse Word × Word) × Sparse Word := (d.pcxView, d.rf.armed)

/-- Another register is no part of it. -/
theorem Device.armedView_withReg (d : Device) {a : Nat} (h : pcxPage + 0x0C ≠ a) (v : Word) : (d.withReg a v).armedView = d.armedView :=
  Prod.ext (Prod.ext rfl (Prod.ext rfl (Device.reg_withReg_other d v h))) rfl

theorem fixes_pcxView_of_armedView {u : Upd} (h : u.Fixes Device.armedView) : u.Fixes Device.pcxView :=
  ⟨fun d => congrArg Prod.fst (h.same d)⟩

/-- The registers of a controller's page lie apart from the PCX page. -/
theorem pcxStatus_ne_ctlPage (c : Nat) {off : Nat} (h : off < 4096) : pcxPage + 0x0C ≠ ctlPage c + off := by
  simp only [pcxPage, ctlPage, regionPage, pageBase]
  split_ifs <;> omega

section
variable (c : Nat)

theorem fixesArmed_setReg {off : Nat} (h : off < 4096) (v : Word) : (Upd.setReg (ctlPage c + off) v).Fixes Device.armedView :=
  ⟨fun d => Device.armedView_withReg d (pcxStatus_ne_ctlPage c h) v⟩

theorem fixesArmed_modReg {off : Nat} (h : off < 4096) (f : Word → Word) : (Upd.modReg (ctlPage c + off) f).Fixes Device.armedView :=
  ⟨fun d => Device.armedView_withReg d (pcxStatus_ne_ctlPage c h) (f (d.reg (ctlPage c + off)))⟩

theorem fixesArmed_sat {off : Nat} (h : off < 4096) : (Upd.sat (ctlPage c + off)).Fixes Device.armedView := fixesArmed_modReg c h satInc

theorem fixesArmed_raise (w : Word) : (Upd.raise (ctlPage c) w).Fixes Device.armedView :=
  fixes_read fun _ => fixes_cons (fixesArmed_setReg c (by decide) _) <| fixes_cons (fixesArmed_setReg c (by decide) _) <|
    fixes_cons (fixesArmed_modReg c (by decide) _) fixes_nil

end

/-! ### Signals -/

theorem fixesArmed_send (m : Msg) : (Upd.send m).Fixes Device.armedView := ⟨fun _ => rfl⟩

theorem fixesArmed_msix (fn v : Nat) : (Upd.msix fn v).Fixes Device.armedView :=
  fixes_read fun d => by
    dsimp only
    split_ifs
    · exact ⟨fun _ => rfl⟩
    · exact fixesArmed_send _
    · exact ⟨fun _ => rfl⟩

theorem fixesArmed_pageVector (page bit : Nat) : (Upd.pageVector page bit).Fixes Device.armedView :=
  fixes_read fun d => by
    split
    · split_ifs
      · split
        case h_5 => exact fixes_skip
        all_goals exact fixesArmed_msix _ _
      · exact fixes_skip
    · exact fixes_skip

theorem fixesArmed_gongRaise (cause : Nat) : (Upd.gongRaise cause).Fixes Device.armedView :=
  fixes_read fun d => by
    split_ifs
    · exact fixes_cons ⟨fun _ => rfl⟩ (fixes_cons ⟨fun _ => rfl⟩ fixes_nil)
    · exact ⟨fun _ => rfl⟩

theorem fixesArmed_record (r : FaultRec) : (Upd.record r).Fixes Device.armedView :=
  fixes_read fun d => by
    refine fixes_cons ?_ (fixes_cons (fixes_when (fixesArmed_gongRaise _)) fixes_nil)
    split_ifs <;> exact ⟨fun _ => rfl⟩

/-! ### Controllers -/

theorem fixesArmed_error (c bit : Nat) (r : FaultRec) (count injected : Bool) :
    (Upd.error (ctlPage c) bit r count injected).Fixes Device.armedView :=
  fixes_read fun _ => fixes_cons (fixes_cons (fixesArmed_raise c _) (fixes_cons (fixesArmed_pageVector ..) fixes_nil)) <|
    fixes_cons (fixes_when (fixesArmed_record _)) fixes_nil

theorem fixesArmed_startSpare (pa : Nat) : (Upd.startSpare pa).Fixes Device.armedView :=
  fixes_read fun d => by
    dsimp only
    split_ifs
    · exact fixes_skip
    · exact ⟨fun _ => rfl⟩
    · exact fixesArmed_error ..
    · exact ⟨fun _ => rfl⟩

theorem fixesArmed_corrected (line : Nat) : (Upd.corrected line).Fixes Device.armedView :=
  fixes_read fun _ => fixes_cons ⟨fun _ => rfl⟩ <| fixes_cons (fixesArmed_sat _ (by decide)) <| fixes_cons (fixesArmed_error ..) <|
    fixes_cons ⟨fun _ => rfl⟩ <| fixes_cons (fixes_when (fixesArmed_startSpare _)) fixes_nil

theorem fixesArmed_uncorrectable (pa : Nat) (scrub : Bool) : (Upd.uncorrectable pa scrub).Fixes Device.armedView :=
  fixes_read fun _ => fixes_cons (fixes_when (fixesArmed_sat _ (by decide))) <|
    fixes_cons (fixes_when (fixes_cons (fixesArmed_setReg _ (by decide) _) (fixes_cons (fixesArmed_setReg _ (by decide) _) fixes_nil))) <|
    fixes_cons (by
      cases scrub
      · exact fixesArmed_raise _ _
      · exact fixesArmed_error ..) fixes_nil

/-- Reading a range. -/
theorem fixesArmed_touch (pa len : Nat) : (Upd.touch pa len).Fixes Device.armedView :=
  fixes_each fun l => fixes_read fun d => fixes_cons ⟨fun _ => rfl⟩ <| fixes_cons (by
    split
    · exact fixes_skip
    · exact fixesArmed_corrected l
    · exact fixesArmed_uncorrectable _ _) fixes_nil

/-- An injection that a controller's event meets. -/
theorem fixesPcx_inject (page bit : Nat) {k : Bool → Upd} (h : ∀ b, (k b).Fixes Device.pcxView)
    (hp : pcxPage + 0x0C ≠ rstDevPage + 0x60) : (Upd.inject page bit k).Fixes Device.pcxView :=
  fixes_read fun d => by
    split
    · refine fixes_cons ⟨fun x => ?_⟩ (fixes_cons (h true) fixes_nil)
      exact Prod.ext rfl (Prod.ext rfl (look_put_other _ _ _ hp))
    · exact h false

theorem fixesPcx_writeLine (slot pa : Nat) (bs : List Byte) : (Upd.writeLine slot pa bs).Fixes Device.pcxView := by
  have armed {u : Upd} (h : u.Fixes Device.armedView) := fixes_pcxView_of_armedView h
  have hp : pcxPage + 0x0C ≠ rstDevPage + 0x60 := by decide
  refine fixes_read fun d => ?_
  dsimp only
  split_ifs
  · exact armed (fixesArmed_uncorrectable _ _)
  · exact fixes_cons (fixes_when (armed (fixesArmed_corrected _))) <| fixes_cons (fixes_when ⟨fun _ => rfl⟩) <| fixes_cons ⟨fun _ => rfl⟩ <|
      fixes_cons ⟨fun _ => rfl⟩ <| fixes_cons ⟨fun _ => rfl⟩ <| fixes_cons ⟨fun _ => rfl⟩ <| fixes_cons (fixes_when ⟨fun _ => rfl⟩) <|
      fixes_cons (fixesPcx_inject _ _ (fun _ => fixes_when ⟨fun _ => rfl⟩) hp) <|
      fixes_cons (fixesPcx_inject _ _ (fun _ => fixes_when ⟨fun _ => rfl⟩) hp) <|
      fixes_cons (fixesPcx_inject _ _ (fun _ => fixes_when (armed (fixesArmed_error ..))) hp) fixes_nil

/-- Writing a range. -/
theorem fixesPcx_write (slot pa : Nat) (bs : List Byte) : (Upd.write slot pa bs).Fixes Device.pcxView :=
  fixes_each fun _ => fixes_when (fixesPcx_writeLine ..)

/-! ### A function that is quiesced (R379) -/

/-- A slot of it. -/
theorem fixesPcx_quiesceSlot (e s : Nat) : (Upd.quiesceSlot e s).Fixes Device.pcxView :=
  fixes_read fun d => fixes_cons ⟨fun _ => rfl⟩ <| fixes_cons ⟨fun _ => rfl⟩ <| fixes_cons ⟨fun _ => rfl⟩ <| fixes_cons ⟨fun _ => rfl⟩ <|
    fixes_cons ⟨fun _ => rfl⟩ <| fixes_cons ⟨fun _ => rfl⟩ <| fixes_cons (by
      split_ifs
      · refine fixes_read fun x => ?_
        split
        · exact fixes_skip
        · split_ifs
          · exact fixes_skip
          · exact ⟨fun _ => rfl⟩
          · exact ⟨fun _ => rfl⟩
      · exact fixes_cons ⟨fun _ => rfl⟩ <| fixes_cons ⟨fun _ => rfl⟩ <| fixes_cons ⟨fun _ => rfl⟩ fixes_nil) fixes_nil

theorem fixesPcx_syncSet (s : Nat) : (Upd.syncSet s).Fixes Device.pcxView := fixes_read fun _ => fixesPcx_write ..

/-- Its weights. -/
theorem fixesPcx_freeWeights (fn : Nat) : (Upd.freeWeights fn).Fixes Device.pcxView := by
  have epoch (s k : Nat) : (Upd.read fun d =>
      let st := (d.epoch s k).state
      if st = .free ∨ st = .retiring then .skip
      else if d.epochHeld s k then .retire s k else .epoch s k (·.emptied .free)).Fixes Device.pcxView := by
    refine fixes_read fun d => ?_
    dsimp only
    split_ifs
    · exact fixes_skip
    · exact fixes_read fun _ => fixes_cons ⟨fun _ => rfl⟩ (fixes_cons (fixesPcx_syncSet s) fixes_nil)
    · exact ⟨fun _ => rfl⟩
  refine fixes_read fun d => fixes_cons (fixes_each fun _ => ⟨fun _ => rfl⟩) <| fixes_cons (fixes_each fun s => ?_) <|
    fixes_cons (fixes_each fun p => fixes_read fun x => ?_) fixes_nil
  · refine fixes_cons (fixes_each fun k => epoch s k) (fixes_cons ?_ fixes_nil)
    exact fixes_cons ⟨fun _ => rfl⟩ <| fixes_cons ⟨fun _ => rfl⟩ <| fixes_cons (fixesPcx_syncSet s) fixes_nil
  · split_ifs <;> exact ⟨fun _ => rfl⟩

/-- A virtual function whose interface is in ERROR, with the map and the ERR_STATUS of the PCX page. -/
def Device.InError (d : Device) (fn : Nat) (m : Sparse Word) (w : Word) : Prop :=
  (d.vf fn).tdi = .error ∧ d.ho.vfMap = m ∧ d.reg (pcxPage + 0x0C) = w

section
variable {fn : Nat} {m : Sparse Word} {w : Word} {d : Device}

theorem Device.InError.of_pcxView (h : d.InError fn m w) {u : Device} (hu : u.pcxView = d.pcxView) : u.InError fn m w := by
  obtain ⟨hvfs, hrest⟩ := Prod.mk.inj hu
  obtain ⟨hmap, hreg⟩ := Prod.mk.inj hrest
  obtain ⟨htdi, hm, hw⟩ := h
  exact ⟨by rw [Device.vf, hvfs]; exact htdi, hmap.trans hm, hreg.trans hw⟩

/-- Whether it is quiescent makes no difference. -/
theorem Device.InError.busy (h : d.InError fn m w) (b : Bool) :
    ({ d with ho := { d.ho with vfs := put d.ho.vfs fn { d.vf fn with flrBusy := b } {} } } : Device).InError fn m w := by
  obtain ⟨htdi, hm, hw⟩ := h
  refine ⟨?_, hm, hw⟩
  have hne : ({ d.vf fn with flrBusy := b } : Vf) ≠ {} := fun e => by
    have : (d.vf fn).tdi = .unlocked := congrArg Vf.tdi e
    rw [htdi] at this
    cases this
  exact (congrArg Vf.tdi (look_put_ne _ hne)).trans htdi

theorem Device.InError.flrDone (h : d.InError fn m w) : ((Upd.flrDone fn).run d).InError fn m w := by
  rw [Upd.flrDone, Upd.run_read, Upd.run_when]
  split_ifs
  · rw [Upd.run_pair]
    refine Device.InError.busy (h.of_pcxView ?_) false
    exact (fixes_each fun _ => ⟨fun _ => rfl⟩ : Upd.Fixes Device.pcxView _).same d
  · exact h

/-- Quiescing it leaves it in ERROR (R400, R401). -/
theorem Device.InError.quiesce (h : d.InError fn m w) : ((Upd.quiesce fn).run d).InError fn m w := by
  rw [Upd.quiesce, Upd.run_read]
  simp only [Upd.run_all_cons, Upd.run_all_nil]
  refine Device.InError.flrDone (Device.InError.of_pcxView (h.busy true) ?_)
  rw [(fixesPcx_freeWeights fn).same]
  exact (fixes_each fun _ => fixesPcx_quiesceSlot .. : Upd.Fixes Device.pcxView _).same _

end

end Sys2Proof.Machine
end

