-- ==== Sys2Proof/Proofs/Bar2.lean ====
section
/-! Host accesses through BAR2 (R387, R392, R396, R400). -/

namespace Sys2Proof.Machine

/-- A TLP on the stream that carries the function's TLPs, whose integrity check passes, is received (R399). -/
theorem Upd.run_received_tlp {fn : Nat} {d : Device} (h : d.receives fn = true) {tlp : Tlp} (hs : tlp.stream = none) (hi : tlp.intact = true)
    (u : Upd) : (Upd.received fn u tlp).run d = u.run d := by
  obtain ⟨poisoned, len, space, stream, intact⟩ := tlp
  subst hs hi
  exact Upd.run_received fn u d h

/-- A request beyond the end of BAR2 changes nothing (R390). -/
theorem Upd.run_bar2_beyond {fn addr len : Nat} {d : Device} (h : d.bar2Size fn < addr + len) (tlp : Tlp) (locked refuse : Upd)
    (k : Nat → Nat → Upd) : (Upd.bar2 fn addr len tlp locked refuse k).run d = d := by
  simp only [Upd.bar2, Upd.run_read, not_le.2 h, decide_false, Bool.and_false, Upd.when_false, Upd.run_skip]

section
variable {fn addr len : Nat} {d : Device} (h : d.accepts fn = true) (hlen : addr + len ≤ d.bar2Size fn)
include h hlen

/-- What becomes of a request within BAR2. -/
theorem Upd.run_bar2 {tlp : Tlp} (hs : tlp.stream = none) (hi : tlp.intact = true) (locked refuse : Upd) (k : Nat → Nat → Upd) :
    (Upd.bar2 fn addr len tlp locked refuse k).run d =
      (if tlp.poisoned then .pcxError 2
      else if !d.up || (fn ≠ 0 && !d.vfOn fn) then refuse
      else if fn = 0 && d.inLockedAperture (d.bar2Target fn addr).1 len then locked
      else k (d.bar2Target fn addr).1 (d.bar2Target fn addr).2).run d := by
  simp only [Device.accepts, Bool.and_eq_true] at h
  obtain ⟨⟨⟨hl, ha⟩, hc⟩, hr⟩ := h
  simp only [Upd.bar2, Upd.run_read, hl, hlen, decide_true, Bool.and_self, Upd.when_true, Upd.run_received_tlp hr hs hi, ha, Bool.not_true,
    Bool.false_eq_true, if_false]
  split_ifs
  · rfl
  · rfl
  · rfl
  · exact Upd.run_cross hc ..

end

/-- The routes between the dies depend on the injections armed alone (R26). -/
theorem Device.routesClear_of_armed {d u : Device} (h : u.rf.armed = d.rf.armed) : u.routesClear = d.routesClear := by
  simp only [Device.routesClear, Device.isArmed, h]

/-- A range without an uncorrectable line is read whole (R215, R392). -/
theorem Upd.run_bar2Read {fn pa len key : Nat} {d : Device} (hc : d.routesClear = true) (hp : populatedRange pa len = true)
    (hu : d.ueIn pa len = none) : (Upd.bar2Read fn pa len key).run d =
      (Upd.complete fn (((Upd.touch pa len).run d).bytesAt key pa len)).run ((Upd.touch pa len).run d) := by
  have harmed : ((Upd.touch pa len).run d).rf.armed = d.rf.armed := congrArg Prod.snd ((fixesArmed_touch pa len).same d)
  have hc' : ((Upd.touch pa len).run d).routesClear = true := (Device.routesClear_of_armed harmed).trans hc
  simp only [Upd.bar2Read, Upd.run_read, hp, hu, Bool.not_true, Bool.false_eq_true, if_false, Upd.run_pair]
  exact Upd.run_cross hc' ..

/-- One that is not populated is an Unsupported Request of the physical function (R392). -/
theorem Upd.run_bar2Read_unpopulated {pa len key : Nat} {d : Device} (hp : populatedRange pa len = false) :
    (Upd.bar2Read 0 pa len key).run d = (Upd.send (.unsupported 0)).run d := by
  simp only [Upd.bar2Read, Upd.run_read, hp, Bool.not_false, if_true, Upd.run_pair, ne_eq, not_true_eq_false, decide_false, Upd.when_false,
    Upd.run_skip]

/-- A range without an uncorrectable line is written (R215, R392). -/
theorem Upd.run_bar2Write {fn pa key : Nat} {data : List Byte} {d : Device} (hp : fn = 0 ∨ populatedRange pa data.length = true)
    (hu : ∀ l ∈ linesOf pa data.length, d.lineErrAt l ≠ some .uncorrectable) :
    (Upd.bar2Write fn pa data key).run d = (Upd.write key pa data).run d := by
  have hstuck : ((linesOf pa data.length).filter fun l => Decidable.decide (d.lineErrAt l = some .uncorrectable) &&
      !(Decidable.decide (pa ≤ l * 64) && Decidable.decide (l * 64 + 64 ≤ pa + data.length))) = [] :=
    List.filter_eq_nil_iff.2 fun l hl => by simp [hu l hl]
  have hnone : (Decidable.decide (fn ≠ 0) && !populatedRange pa data.length) = false := by
    rcases hp with h | h <;> simp [h]
  simp only [Upd.bar2Write, Upd.run_read, hstuck, hnone, Upd.when_false, Upd.run_all_cons, Upd.run_all_nil, Upd.run_skip, Upd.each, List.map_nil]

/-! ### The two commands -/

section
variable {fn addr len : Nat} {s : State} (hfn : fn ≤ 64)
include hfn

theorem exec_bar2Read_beyond (h : s.dev.bar2Size fn < addr + len) : exec (.bar2Read fn addr len) s = .next s := by
  refine (State.act_wf s _ _ (by simp [Instr.wf]; omega)).trans ?_
  rw [Upd.run_bar2_beyond h]

variable (h : s.dev.accepts fn = true)
include h

/-- A read within BAR2. -/
theorem exec_bar2Read_eq (hlen : addr + len ≤ s.dev.bar2Size fn) : exec (.bar2Read fn addr len) s = .next { s with
  dev := (if !s.dev.up || (Decidable.decide (fn ≠ 0) && !s.dev.vfOn fn) then Upd.send (.unsupported fn)
    else if Decidable.decide (fn = 0) && s.dev.inLockedAperture (s.dev.bar2Target fn addr).1 len then .complete fn (List.replicate len 0xFF)
    else .bar2Read fn (s.dev.bar2Target fn addr).1 len (s.dev.bar2Target fn addr).2).run s.dev } := by
  refine (State.act_wf s _ _ (by simp [Instr.wf]; omega)).trans ?_
  rw [Upd.run_bar2 h hlen rfl rfl]
  rfl

/-- A write within BAR2; a poisoned one is discarded, and flagged (R387). -/
theorem exec_bar2Write_eq {bs : List Byte} (hlen : addr + bs.length ≤ s.dev.bar2Size fn) : exec (.bar2Write fn addr bs) s = .next { s with
  dev := (if !s.dev.up || (Decidable.decide (fn ≠ 0) && !s.dev.vfOn fn) then Upd.skip
    else if Decidable.decide (fn = 0) && s.dev.inLockedAperture (s.dev.bar2Target fn addr).1 bs.length then .skip
    else .all [.count (pcxPage + 0x80) bs.length, .bar2Write fn (s.dev.bar2Target fn addr).1 bs (s.dev.bar2Target fn addr).2]).run s.dev } := by
  refine (State.act_wf s _ _ (by simp [Instr.wf]; omega)).trans ?_
  rw [Upd.run_bar2 h hlen rfl rfl]
  rfl

theorem exec_bar2Write_poisoned {bs : List Byte} (hlen : addr + bs.length ≤ s.dev.bar2Size fn) :
    exec (.bar2Write fn addr bs { poisoned := true }) s = .next { s with dev := (Upd.pcxError 2).run s.dev } := by
  refine (State.act_wf s _ _ (by simp [Instr.wf]; omega)).trans ?_
  rw [Upd.run_bar2 h hlen rfl rfl]
  rfl

end

end Sys2Proof.Machine
end

