-- ==== Sys2Proof/Proofs/PageWrites.lean ====
section
/-! Writes of BAR0 by the physical function: ERR_STATUS, ERR_INJECT and the map of the virtual functions (R361, R394, R396, R400, R448). -/

namespace Sys2Proof.Machine

/-- No page whose controls wait for a tick can change the configuration of an interface. -/
theorem reconfigures_of_management {k : PageKind} (h : isManagement k = true) : reconfigures k = false := by
  cases k <;> simp [isManagement, reconfigures] at h ⊢

/-- Where no interface is locked a write is not held back (R400). -/
theorem Upd.run_guarded {d : Device} (h : ∀ f, d.locked f = false) (u : Upd) : (Upd.guarded u).run d = u.run d := by
  have hnone : ((span 1 64).find? fun fn => d.locked fn && d.reconfigures fn u) = none := List.find?_eq_none.2 fun fn _ => by simp [h fn]
  simp only [Upd.guarded, Upd.run_read, hnone]

/-- Where one is locked that a write would reconfigure, it is in ERROR instead (R400). -/
theorem Upd.run_guarded_locked {d : Device} {fn : Nat} {u : Upd} (hfn : fn ∈ span 1 64) (hl : d.locked fn = true)
    (hother : ∀ f, f ≠ fn → d.locked f = false) (hr : d.reconfigures fn u = true) : (Upd.guarded u).run d = (Upd.tdiError fn).run d := by
  have hsome : ((span 1 64).find? fun fn => d.locked fn && d.reconfigures fn u) = some fn := by
    cases hf : (span 1 64).find? fun fn => d.locked fn && d.reconfigures fn u with
    | none =>
      have := List.find?_eq_none.1 hf fn hfn
      simp [hl, hr] at this
    | some g =>
      have hg := List.find?_some hf
      have : g = fn := by
        by_contra hne
        simp [hother g hne] at hg
      rw [this]
  simp only [Upd.guarded, Upd.run_read, hsome]

section
variable {d : Device} {addr off : Nat} {p : Page} (hdec : decodeAddr addr = some (p, off)) (haddr : addr % 4 = 0) (hup : d.up = true)
  (hp : d.pagePresent p = true) (hc : d.routesClear = true)
include hdec haddr hup hp hc

/-- A word of a page that is present is written (R391, R446). -/
theorem Upd.run_writeBar0 (data : Word) : (Upd.writeBar0 addr data).run d =
    (if reconfigures p.kind then Upd.guarded (.writePage p off data) else .writePage p off data).run d := by
  have hone : oneWord addr 4 = true := by simp [oneWord, haddr]
  simp only [Upd.writeBar0, Upd.run_read, hone, hdec, hup, hp, Bool.true_or, Bool.and_self, Upd.when_true, Bool.not_true, Bool.false_eq_true,
    if_false, Upd.run_cross hc]

/-- Nothing holds it back where the page configures no interface, or none is locked. -/
theorem Upd.run_writeBar0_free (hfree : reconfigures p.kind = false ∨ ∀ f, d.locked f = false) (data : Word) :
    (Upd.writeBar0 addr data).run d = (Upd.writePage p off data).run d := by
  rw [Upd.run_writeBar0 hdec haddr hup hp hc]
  split_ifs with h
  · exact Upd.run_guarded (hfree.resolve_left (by simp [h])) _
  · rfl

end

/-! ### ERR_STATUS and ERR_INJECT -/

/-- ERR_STATUS of a page loses the bits written 1, and ERR_FIRST goes with the last of them (R451). -/
theorem Upd.run_errClear (page : Nat) (data : Word) (d : Device) : (Upd.errClear page data).run d =
    (if d.reg (page + 0x0C) &&& ~~~data = 0 then (d.withReg (page + 0x0C) (d.reg (page + 0x0C) &&& ~~~data)).withReg (page + 0x18) 0
    else d.withReg (page + 0x0C) (d.reg (page + 0x0C) &&& ~~~data)) := by
  rw [Upd.errClear, Upd.run_read, Upd.run_pair, Upd.run_when]
  simp only [decide_eq_true_eq]
  rfl

theorem Upd.run_writePage_errStatus {p : Page} (h : isManagement p.kind = false) (data : Word) (d : Device) :
    (Upd.writePage p 0x0C data).run d = (Upd.errClear p.base data).run d := by
  simp only [Upd.writePage, Upd.clears, h, Bool.false_eq_true, if_false]

/-- On a management page the clear waits for the tick (R38). -/
theorem Upd.run_writePage_errStatus_later {p : Page} (h : isManagement p.kind = true) (data : Word) (d : Device) :
    (Upd.writePage p 0x0C data).run d = { d with rf := { d.rf with
      clrNext := put d.rf.clrNext (p.base + 0x0C) (look d.rf.clrNext (p.base + 0x0C) 0 ||| data) 0 } } := by
  simp only [Upd.writePage, Upd.clears, h, if_true, Upd.run_of]

theorem Upd.run_writePage_inject {p : Page} (h : isManagement p.kind = false) (data : Word) (d : Device) :
    (Upd.writePage p 0x14 data).run d = (Upd.arm p data).run d := by
  simp only [Upd.writePage, h, Bool.false_eq_true, if_false]

/-- The bits that a write of ERR_INJECT arms: those of access WO, on the PCX page without the one that waits for no event (R361). -/
def Page.injects (p : Page) (data : Word) : Word := data &&& p.errBits.2.1 &&& (if p.kind = .pcx then 0x2F else 0xFFFFFFFF)

theorem Page.injects_of_ne {p : Page} (h : p.kind ≠ .pcx) (data : Word) : p.injects data = data &&& p.errBits.2.1 := by
  rw [Page.injects, if_neg h]
  exact BitVec.and_allOnes

/-- On a management page injections wait for the tick (R38). -/
theorem Upd.run_writePage_inject_later {p : Page} (h : isManagement p.kind = true) (data : Word) (d : Device) :
    (Upd.writePage p 0x14 data).run d = { d with rf := { d.rf with injNext := put d.rf.injNext p.base (p.injects data) 0 } } := by
  have hne : p.kind ≠ .pcx := fun hk => by simp [hk, isManagement] at h
  simp only [Upd.writePage, h, if_true, Upd.run_of, Page.injects_of_ne hne]

/-- A bit that is written 0 is 0 in any part of the word. -/
theorem bitOf_and_left {w : Word} {i : Nat} (h : bitOf w i = false) (v : Word) : bitOf (w &&& v) i = false := by
  simp only [bitOf, BitVec.getLsbD_and] at h ⊢
  rw [h, Bool.false_and]

/-- An injection without an event that is there at once is armed (R361). -/
theorem Upd.run_arm {p : Page} {data : Word} {d : Device} (hk : p.kind ∉ [PageKind.gngDevice, .zwlDevice])
    (heng : p.kind = .eng → bitOf (p.injects data) 2 = false) (hpcx : p.kind = .pcx → ∀ f, d.locked f = false) :
    (Upd.arm p data).run d = { d with rf := { d.rf with armed := put d.rf.armed p.base (look d.rf.armed p.base 0 ||| p.injects data) 0 } } := by
  simp only [Upd.arm, Upd.run_read]
  split
  case h_1 h => simp [h] at hk
  case h_2 h => simp [h] at hk
  case h_3 h =>
    rw [Upd.run_pair, hpcx h, Bool.and_false, Upd.when_false, Upd.run_skip, Page.injects, if_pos h]
    rfl
  case h_4 h =>
    have hne : p.kind ≠ .pcx := by simp [h]
    have hbit := heng h
    rw [Page.injects_of_ne hne] at hbit ⊢
    rw [Upd.run_pair, hbit, Upd.when_false, Upd.run_skip]
    rfl
  case h_5 _ _ h _ =>
    rw [Page.injects_of_ne h]
    rfl

/-- On the pages of the gong and of the links, a write without their bits arms nothing. -/
theorem Upd.run_arm_gong {p : Page} {data : Word} (hk : p.kind = .gngDevice) (h : bitOf data 0 = false) (d : Device) :
    (Upd.arm p data).run d = d := by
  simp only [Upd.arm, Upd.run_read, hk, bitOf_and_left h, Upd.when_false, Upd.run_skip]

theorem Upd.run_arm_links {p : Page} {data : Word} (hk : p.kind = .zwlDevice) (h : bitOf data 6 = false) (d : Device) :
    (Upd.arm p data).run d = d := by
  simp only [Upd.arm, Upd.run_read, hk, bitOf_and_left h, Upd.when_false, Upd.run_skip]

/-! ### The map of the virtual functions -/

/-- The page of the PCI Express unit. -/
def pcxDevicePage : Page := ⟨.pcx, 6, 15, 15⟩

theorem decodeAddr_vfMap : decodeAddr (pcxPage + 0x54) = some (pcxDevicePage, 0x54) := by
  decide

/-- The device with the selected entry of the map written (R396). -/
def Device.mapped (d : Device) (data : Word) : Device :=
  { d with ho := { d.ho with vfMap := put d.ho.vfMap (d.vfSel * 256 + d.mapSel) (data &&& 0xB000FFFF) 0 } }

section
variable {d : Device} (h1 : 1 ≤ d.vfSel) (h64 : d.vfSel ≤ 64) (hsel : 1 ≤ d.mapSel)
include h1 h64 hsel

theorem Upd.run_writePage_vfMap (data : Word) : (Upd.writePage pcxDevicePage 0x54 data).run d = d.mapped data := by
  have : (Upd.writePage pcxDevicePage 0x54 data).run d = (Upd.mapEntry data).run d := rfl
  rw [this]
  simp only [Upd.mapEntry, Upd.run_read, h1, h64, hsel, decide_true, Bool.and_self, Upd.when_true, Upd.run_of]
  rfl

/-- An entry that comes into an empty map changes the configuration of its function (R400). -/
theorem Device.reconfigures_vfMap {data : Word} (hdata : data &&& 0xB000FFFF ≠ 0) (hmap : d.ho.vfMap = []) :
    d.reconfigures d.vfSel (.writePage pcxDevicePage 0x54 data) = true := by
  have hm : d.mapSel < 256 := Nat.mod_lt _ (by decide)
  have hkey : (d.vfSel * 256 + d.mapSel) / 256 = d.vfSel := by omega
  rw [Device.reconfigures, Upd.run_writePage_vfMap h1 h64 hsel, bne_iff_ne]
  intro he
  have hlist := congrArg Prod.fst he
  exact hdata (by simpa [Device.tdiConfig, Device.mapped, hmap, put, hkey] using hlist)

end

/-! ### An interface in ERROR -/

/-- An error of any page leaves the virtual functions and the injections armed, and the PCX page but for what it raises there. -/
theorem Upd.error_armedView (page bit : Nat) (r : FaultRec) (count injected : Bool) (d : Device) :
    ((Upd.error page bit r count injected).run d).armedView = (d.raised page bit).armedView := by
  rw [Upd.error, Upd.run_read, Upd.run_pair, (fixes_when (fixesArmed_record _)).same, Upd.flag, Upd.run_pair, (fixesArmed_pageVector ..).same]
  rfl

/-- The interface enters ERROR with the PCX page's error bit 4; the map stays (R400). -/
theorem Upd.run_tdiError {d : Device} (h : Wf d) (fn : Nat) :
    ((Upd.tdiError fn).run d).InError fn d.ho.vfMap (d.reg (pcxPage + 0x0C) ||| oneBit 4) := by
  have hwf : Wf { d with ho := { d.ho with vfs := put d.ho.vfs fn { d.vf fn with tdi := .error } {} } } := ⟨h.mem, h.pop, h.regs, h.bells, h.keys⟩
  have hne : ({ d.vf fn with tdi := .error } : Vf) ≠ {} := fun e => by
    have : Tdi.error = .unlocked := congrArg Vf.tdi e
    cases this
  rw [Upd.tdiError, Upd.run_all_cons, Upd.run_pair, Upd.run_of]
  refine Device.InError.quiesce (Device.InError.of_pcxView ?_ (congrArg Prod.fst (Upd.error_armedView ..)))
  refine ⟨?_, rfl, Device.raised_status hwf pcxPage 4⟩
  exact congrArg Vf.tdi (look_put_ne _ hne)

/-! ### The three commands -/

section
variable {s : State} {page : Nat} {data : Word}

section
variable (h : s.dev.accepts 0 = true)
include h

theorem exec_errStatusClear_eq (hp : page < 2 ^ 28 - 4096) (h4 : page % 4096 = 0) :
    exec (.errStatusClear 0 page data) s = .next { s with dev := (Upd.writeBar0 (page + 0x0C) data).run s.dev.rx } := by
  refine (State.hostAct_eq s _ 0 _ _ (by simp [Instr.wf]; omega) h).trans ?_
  simp only [h4, decide_true, Bool.and_self, Upd.when_true]

theorem exec_errInject_eq (hp : page < 2 ^ 28 - 4096) (h4 : page % 4096 = 0) :
    exec (.errInject 0 page data) s = .next { s with dev := (Upd.writeBar0 (page + 0x14) data).run s.dev.rx } := by
  refine (State.hostAct_eq s _ 0 _ _ (by simp [Instr.wf]; omega) h).trans ?_
  simp only [h4, decide_true, Bool.and_self, Upd.when_true]

theorem exec_vfMap_eq : exec (.vfMap 0 data) s = .next { s with dev := (Upd.writeBar0 (pcxPage + 0x54) data).run s.dev.rx } := by
  refine (State.hostAct_eq s _ 0 _ _ (by simp [Instr.wf]) h).trans ?_
  simp only [decide_true, Upd.when_true]

end

/-- A virtual function has none of these registers (R395). -/
theorem exec_pageWrite_virtual {fn : Nat} (hfn : fn ≤ 64) (h0 : fn ≠ 0) (h : s.dev.accepts fn = true) (hp : page < 2 ^ 28 - 4096) :
    exec (.errStatusClear fn page data) s = .next { s with dev := s.dev.rx } ∧ exec (.errInject fn page data) s = .next { s with dev := s.dev.rx } ∧
      exec (.vfMap fn data) s = .next { s with dev := s.dev.rx } := by
  refine ⟨(State.hostAct_eq s _ fn _ _ (by simp [Instr.wf]; omega) h).trans ?_, (State.hostAct_eq s _ fn _ _ (by simp [Instr.wf]; omega) h).trans ?_,
    (State.hostAct_eq s _ fn _ _ (by simp [Instr.wf]; omega) h).trans ?_⟩ <;>
  simp only [h0, decide_false, Bool.false_and, Upd.when_false, Upd.run_skip]

end

end Sys2Proof.Machine
end

