-- ==== Sys2Proof/Proofs/Vectors.lean ====
section
/-! MSI-X vectors that are unmasked (R404). -/

namespace Sys2Proof.Machine

/-! ### Tables -/

section
variable {α : Type} {m : Sparse α} {k : Nat} {v d : α}

/-- Of a table in which nothing is picked, a value written is all that can be. -/
theorem filter_put [DecidableEq α] {q : Nat × α → Bool} (h : ∀ p ∈ m, q p = false) (hv : v ≠ d) :
    (put m k v d).filter q = if q (k, v) then [(k, v)] else [] := by
  induction m with
  | nil => simp [put, hv, List.filter_cons]
  | cons p r ih =>
    have hp := h p (List.mem_cons_self ..)
    have hr : ∀ x ∈ r, q x = false := fun x hx => h x (List.mem_cons_of_mem _ hx)
    have hnil : r.filter q = [] := List.filter_eq_nil_iff.2 fun x hx => by simp [hr x hx]
    obtain ⟨j, w⟩ := p
    simp only [put]
    split_ifs <;> simp_all

/-- What a key holds in a table whose values are changed in place. -/
theorem look_map {g : Nat × α → Nat × α} (hg : ∀ p, (g p).1 = p.1) (hv : look m k d = v) (hne : v ≠ d) : look (m.map g) k d = (g (k, v)).2 := by
  induction m with
  | nil => exact absurd hv.symm hne
  | cons p r ih =>
    obtain ⟨j, w⟩ := p
    have hj := hg (j, w)
    simp only [look] at hv
    simp only [List.map_cons, look, hj]
    split_ifs at hv ⊢ with hk
    · rw [← hv, ← hk]
    · exact ih hv

end

/-! ### Pending messages -/

/-- A vector that is unmasked and pending, of a function whose messages leave (R348, R404). -/
def Device.vectorReady (d : Device) (p : Nat × Bool × Bool) : Bool :=
  p.2.1 && p.2.2 && d.msixSends (p.1 / 2048) && d.unheld && !d.recordAsked (p.1 / 2048)

/-- Such a vector is pending no more. -/
def Device.vectorSent (d : Device) (p : Nat × Bool × Bool) : Nat × Bool × Bool := if d.vectorReady p then (p.1, true, false) else p

theorem Device.vectorSent_key (d : Device) (p : Nat × Bool × Bool) : (d.vectorSent p).1 = p.1 := by
  rw [Device.vectorSent]
  split_ifs <;> rfl

/-- The device with other vectors. -/
def Device.withVectors (d : Device) (l : Sparse (Bool × Bool)) : Device := { d with ho := { d.ho with vectors := l } }

theorem Upd.run_sendPending (d : Device) : Upd.sendPending.run d =
    ((Upd.each (d.ho.vectors.filter d.vectorReady) fun p => .send (d.msixMsg (p.1 / 2048) (p.1 % 2048))).run d).withVectors
      (((Upd.each (d.ho.vectors.filter d.vectorReady) fun p => .send (d.msixMsg (p.1 / 2048) (p.1 % 2048))).run d).ho.vectors.map d.vectorSent) := rfl

/-- The device once a message has left. -/
def Device.withSent (d : Device) (m : Msg) : Device := { d with ho := { d.ho with sent := m :: d.ho.sent } }

/-- A message of a function in D0 leaves on a stream that has not failed (R384, R399). -/
theorem Upd.run_send_msix {d : Device} {fn : Nat} (hf : (d.ide (d.streamOf fn)).failed = false) (ha : d.awake fn = true) (v : Nat) :
    (Upd.send (d.msixMsg fn v)).run d = d.withSent (d.msixMsg fn v) := by
  have hw : d.sendWait (d.msixMsg fn v) = none := by simp [Device.sendWait, Device.msixMsg, Msg.fn, hf, ha]
  simp only [Upd.send, Upd.run_of, hw, Option.map_none, Option.toList_none, List.append_nil, Option.isNone_none, if_true,
    Device.withSent]

/-- The device with a vector unmasked. -/
def Device.unmasked (d : Device) (fn v : Nat) : Device :=
  d.withVectors (put d.ho.vectors (fn * 2048 + v) (true, (look d.ho.vectors (fn * 2048 + v) (false, false)).2) (false, false))

theorem Device.look_unmasked (d : Device) (fn v : Nat) : look (d.unmasked fn v).ho.vectors (fn * 2048 + v) (false, false) =
    (true, (look d.ho.vectors (fn * 2048 + v) (false, false)).2) := look_put_ne _ (by simp)

theorem Upd.run_maskVector_false (fn v : Nat) (d : Device) : (Upd.maskVector fn v false).run d = Upd.sendPending.run (d.unmasked fn v) := by
  rw [Upd.maskVector, Upd.run_pair]
  rfl

/-- The key of a vector names its function and its number. -/
theorem vectorKey {fn v : Nat} (h : v < vectorsOf fn) : v < 2048 ∧ (fn * 2048 + v) / 2048 = fn ∧ (fn * 2048 + v) % 2048 = v := by
  have hlt : v < 2048 := by
    rw [vectorsOf] at h
    split_ifs at h <;> omega
  omega

section
variable {fn v : Nat} {d : Device} (hmask : ∀ x ∈ d.ho.vectors, x.2.1 = false) (hv : v < vectorsOf fn)
include hmask hv

/-- A vector that alone is unmasked is alone ready. -/
theorem Device.ready_unmasked (pend : Bool) : (put d.ho.vectors (fn * 2048 + v) (true, pend) (false, false)).filter d.vectorReady =
    if pend && d.msixSends fn && d.unheld && !d.recordAsked fn then [(fn * 2048 + v, true, pend)] else [] := by
  rw [filter_put (fun p hp => by simp [Device.vectorReady, hmask p hp]) (by simp)]
  simp only [Device.vectorReady, (vectorKey hv).2.1, Bool.true_and]

/-- Its message that is pending leaves, and is pending no more (R404). -/
theorem Upd.run_maskVector_sends (hp : (look d.ho.vectors (fn * 2048 + v) (false, false)).2 = true) (hs : d.msixSends fn = true)
    (hu : d.unheld = true) (ha : d.recordAsked fn = false) (hf : (d.ide (d.streamOf fn)).failed = false) (hawake : d.awake fn = true) :
    ∃ l, (Upd.maskVector fn v false).run d = (d.withSent (d.msixMsg fn v)).withVectors l ∧
      look l (fn * 2048 + v) (false, false) = (true, false) := by
  obtain ⟨-, hfn, hvec⟩ := vectorKey hv
  have hready : (d.unmasked fn v).ho.vectors.filter (d.unmasked fn v).vectorReady = [(fn * 2048 + v, true, true)] := by
    refine (Device.ready_unmasked hmask hv _).trans ?_
    simp only [hp, hs, hu, ha, Bool.and_self, Bool.not_false, if_true]
  have hsent : (Upd.send ((d.unmasked fn v).msixMsg fn v)).run (d.unmasked fn v) =
      (d.unmasked fn v).withSent (d.msixMsg fn v) := Upd.run_send_msix (d := d.unmasked fn v) hf hawake v
  refine ⟨(d.unmasked fn v).ho.vectors.map (d.unmasked fn v).vectorSent, ?_, ?_⟩
  · rw [Upd.run_maskVector_false, Upd.run_sendPending, hready]
    simp only [Upd.each, List.map_cons, List.map_nil, Upd.run_all_cons, Upd.run_all_nil, hfn, hvec, hsent]
    rfl
  · have hlook : look (d.unmasked fn v).ho.vectors (fn * 2048 + v) (false, false) = (true, true) := by
      rw [Device.look_unmasked, hp]
    have hone : (d.unmasked fn v).vectorReady (fn * 2048 + v, true, true) = true :=
      List.of_mem_filter (hready.symm ▸ List.mem_singleton_self _)
    rw [look_map (d.unmasked fn v).vectorSent_key hlook (show (true, true) ≠ (false, false) by decide), Device.vectorSent, if_pos hone]

/-- Without a message pending, or where its function sends none, nothing leaves and the pending bit stays. -/
theorem Upd.run_maskVector_silent (h : d.msixSends fn = false ∨ (look d.ho.vectors (fn * 2048 + v) (false, false)).2 = false) :
    ∃ l, (Upd.maskVector fn v false).run d = d.withVectors l ∧
      look l (fn * 2048 + v) (false, false) = (true, (look d.ho.vectors (fn * 2048 + v) (false, false)).2) := by
  have hready : (d.unmasked fn v).ho.vectors.filter (d.unmasked fn v).vectorReady = [] := by
    refine (Device.ready_unmasked hmask hv _).trans (if_neg ?_)
    rcases h with h | h <;> simp [h]
  refine ⟨(d.unmasked fn v).ho.vectors.map (d.unmasked fn v).vectorSent, ?_, ?_⟩
  · rw [Upd.run_maskVector_false, Upd.run_sendPending, hready]
    rfl
  · have hone : (d.unmasked fn v).vectorReady (fn * 2048 + v, true, (look d.ho.vectors (fn * 2048 + v) (false, false)).2) = false := by
      have hfn : (fn * 2048 + v) / 2048 = fn := (vectorKey hv).2.1
      have hs : (d.unmasked fn v).msixSends fn = d.msixSends fn := rfl
      rcases h with h | h <;> simp [Device.vectorReady, hfn, hs, h]
    have hne : (true, (look d.ho.vectors (fn * 2048 + v) (false, false)).2) ≠ (false, false) := by simp
    rw [look_map (d.unmasked fn v).vectorSent_key (Device.look_unmasked ..) hne, Device.vectorSent, hone, if_neg Bool.false_ne_true]

end

/-- MSIX_UNMASK of a vector that the function has (R404). -/
theorem exec_msixUnmask_eq {fn v : Nat} {s : State} (hfn : fn ≤ 64) (h : s.dev.accepts fn = true) (hon : fn = 0 ∨ s.dev.vfOn fn = true)
    (hv : v < vectorsOf fn) : exec (.msixUnmask fn v) s = .next { s with dev := (Upd.maskVector fn v false).run s.dev.rx } := by
  have hlt : v < 2048 := (vectorKey hv).1
  refine (State.hostAct_eq s _ fn _ _ (by simp [Instr.wf, hlt]; omega) h).trans ?_
  have hc : (Decidable.decide (v < vectorsOf fn) && (Decidable.decide (fn = 0) || s.dev.rx.vfOn fn)) = true := by
    have hon' : fn = 0 ∨ s.dev.rx.vfOn fn = true := hon
    rw [decide_eq_true hv, Bool.true_and]
    rcases hon' with h | h <;> simp [h]
  simp only [Upd.run_read, hc, Upd.when_true]

end Sys2Proof.Machine
end

