-- ==== Sys2Proof/Proofs/HostMemory.lean ====
section
/-! Host memory, the error registers, the map of the virtual functions and MSI-X, put together (R387 to R404). -/

namespace Sys2Proof.Machine

/-- The routes are clear where a command is accepted (R26). -/
theorem Device.routesClear_of_accepts {d : Device} {fn : Nat} (h : d.accepts fn = true) : d.routesClear = true := by
  simp only [Device.accepts, Bool.and_eq_true] at h
  exact h.1.2

/-- The function is in D0, too (R384). -/
theorem Device.awake_of_accepts {d : Device} {fn : Nat} (h : d.accepts fn = true) : d.awake fn = true := by
  simp only [Device.accepts, Bool.and_eq_true] at h
  exact h.1.1.2

section
variable {fn addr len : Nat} {s : State} (hfn : fn ≤ 64) (h : s.dev.accepts fn = true)
include hfn h

/-- A read that reaches populated memory without an uncorrectable line is answered. -/
theorem exec_bar2Read_answers (hlen : addr + len ≤ s.dev.bar2Size fn) (hup : s.dev.up = true) (hon : fn = 0 ∨ s.dev.vfOn fn = true)
    (hopen : fn ≠ 0 ∨ s.dev.inLockedAperture (s.dev.bar2Target fn addr).1 len = false)
    (hp : populatedRange (s.dev.bar2Target fn addr).1 len = true) (hu : s.dev.ueIn (s.dev.bar2Target fn addr).1 len = none) :
    exec (.bar2Read fn addr len) s = .next { s with dev := (Upd.complete fn (((Upd.touch (s.dev.bar2Target fn addr).1 len).run s.dev).bytesAt
      (s.dev.bar2Target fn addr).2 (s.dev.bar2Target fn addr).1 len)).run ((Upd.touch (s.dev.bar2Target fn addr).1 len).run s.dev) } := by
  have hrefuse : (!s.dev.up || (Decidable.decide (fn ≠ 0) && !s.dev.vfOn fn)) = false := by
    rcases hon with h | h <;> simp [hup, h]
  have hlocked : (Decidable.decide (fn = 0) && s.dev.inLockedAperture (s.dev.bar2Target fn addr).1 len) = false := by
    rcases hopen with h | h <;> simp [h]
  rw [exec_bar2Read_eq hfn h hlen, hrefuse, hlocked, if_neg Bool.false_ne_true, if_neg Bool.false_ne_true,
    Upd.run_bar2Read (Device.routesClear_of_accepts h) hp hu]

/-- A write that reaches memory without an uncorrectable line is carried out. -/
theorem exec_bar2Write_writes {bs : List Byte} (hlen : addr + bs.length ≤ s.dev.bar2Size fn) (hup : s.dev.up = true)
    (hon : fn = 0 ∨ s.dev.vfOn fn = true) (hopen : fn ≠ 0 ∨ s.dev.inLockedAperture (s.dev.bar2Target fn addr).1 bs.length = false)
    (hp : fn = 0 ∨ populatedRange (s.dev.bar2Target fn addr).1 bs.length = true)
    (hu : ∀ l ∈ linesOf (s.dev.bar2Target fn addr).1 bs.length, s.dev.lineErrAt l ≠ some .uncorrectable) :
    exec (.bar2Write fn addr bs) s = .next { s with
      dev := (Upd.write (s.dev.bar2Target fn addr).2 (s.dev.bar2Target fn addr).1 bs).run
        (s.dev.withCtr (pcxPage + 0x80) (s.dev.ctr (pcxPage + 0x80) + BitVec.ofNat 64 bs.length)) } := by
  have hrefuse : (!s.dev.up || (Decidable.decide (fn ≠ 0) && !s.dev.vfOn fn)) = false := by
    rcases hon with h | h <;> simp [hup, h]
  have hlocked : (Decidable.decide (fn = 0) && s.dev.inLockedAperture (s.dev.bar2Target fn addr).1 bs.length) = false := by
    rcases hopen with h | h <;> simp [h]
  rw [exec_bar2Write_eq hfn h hlen, hrefuse, hlocked, if_neg Bool.false_ne_true, if_neg Bool.false_ne_true, Upd.run_pair, Upd.run_count]
  exact congrArg (fun d => Host.Outcome.next { s with dev := d }) (Upd.run_bar2Write (d := s.dev.withCtr _ _) hp hu)

end

/-- A write of VF_MAP that would change the map of the only locked interface puts it in ERROR (R400). -/
theorem exec_vfMap_locked {s : State} {data : Word} (hs : s.Inv) (h : s.dev.accepts 0 = true) (hup : s.dev.up = true) (h1 : 1 ≤ s.dev.vfSel)
    (h64 : s.dev.vfSel ≤ 64) (hsel : 1 ≤ s.dev.mapSel) (hl : s.dev.locked s.dev.vfSel = true)
    (hother : ∀ f, f ≠ s.dev.vfSel → s.dev.locked f = false) (hdata : data &&& 0xB000FFFF ≠ 0) (hmap : s.dev.ho.vfMap = []) :
    ∃ u, exec (.vfMap 0 data) s = .next { s with dev := u } ∧ u.InError s.dev.vfSel [] (s.dev.reg (pcxPage + 0x0C) ||| oneBit 4) := by
  have hin : s.dev.vfSel ∈ span 1 64 := List.mem_map.2 ⟨s.dev.vfSel - 1, List.mem_range.2 (by omega), by omega⟩
  have hrec : s.dev.rx.reconfigures s.dev.vfSel (.writePage pcxDevicePage 0x54 data) = true :=
    Device.reconfigures_vfMap (d := s.dev.rx) h1 h64 hsel hdata hmap
  have hwf : Wf s.dev.rx := ⟨hs.mem, hs.pop, hs.regs, hs.bells, hs.keys⟩
  have herr := Upd.run_tdiError hwf s.dev.vfSel
  rw [show s.dev.rx.ho.vfMap = [] from hmap] at herr
  refine ⟨_, ?_, herr⟩
  rw [exec_vfMap_eq h, Upd.run_writeBar0 (d := s.dev.rx) decodeAddr_vfMap (by decide) hup rfl (Device.routesClear_of_accepts h), if_pos (by rfl),
    Upd.run_guarded_locked (d := s.dev.rx) hin hl hother hrec]

/-- Settles O55: what becomes of a BAR2 request, of writes of ERR_STATUS, ERR_INJECT and VF_MAP, and of a vector that is unmasked. -/
theorem hostMemoryAndErrors : Obligations.HostMemoryAndErrors := by
  intro fn addr len v page p bs data s hs hfn haddr hpage h
  have hroutes : s.dev.rx.routesClear = true := Device.routesClear_of_accepts h
  refine ⟨exec_bar2Read_beyond hfn, fun hlen hreach hp hu => ?read, fun hlen h0 hup hopen hp => ?unpopulated, fun hlen hdown => ?down,
    fun hlen h0 hup hlock => ?locked, fun hlen hbs hreach hp hu => ?write, exec_bar2Write_poisoned hfn h, fun hlen h0 hlock => ?discarded,
    fun h0 hup hdec hbase h4 hpres hmgt hfree => ?clear, fun h0 hup hdec hbase h4 hpres hmgt => ?clearLater,
    fun h0 => exec_pageWrite_virtual hfn h0 h hpage, fun h0 hup hdec hbase h4 hpres hfree => ?inject,
    fun h0 hup h1 h64 hsel hfree => ?map, fun h0 hup h1 h64 hsel hl hother hlook hdata hmap => ?mapLocked,
    fun hon hv hu hmask hsends hask hp hf => ?sends, fun hon hv hmask hq => ?silent⟩
  case read =>
    obtain ⟨hup, hon, hopen⟩ := hreach
    exact exec_bar2Read_answers hfn h hlen hup hon hopen hp hu
  case unpopulated =>
    subst h0
    refine (exec_bar2Read_eq hfn h hlen).trans ?_
    rw [hup, hopen]
    exact congrArg (fun d => Host.Outcome.next { s with dev := d }) (Upd.run_bar2Read_unpopulated hp)
  case down =>
    refine (exec_bar2Read_eq hfn h hlen).trans ?_
    rw [hdown]
    rfl
  case locked =>
    subst h0
    refine (exec_bar2Read_eq hfn h hlen).trans ?_
    rw [hup, hlock]
    rfl
  case write =>
    subst hbs
    obtain ⟨hup, hon, hopen⟩ := hreach
    exact exec_bar2Write_writes hfn h hlen hup hon hopen hp hu
  case discarded =>
    subst h0
    refine (exec_bar2Write_eq hfn h hlen).trans ?_
    rw [hlock]
    cases s.dev.up <;> rfl
  case clear =>
    subst h0 hbase
    rw [exec_errStatusClear_eq h hpage h4, Upd.run_writeBar0_free (d := s.dev.rx) hdec (by omega) hup hpres hroutes hfree,
      Upd.run_writePage_errStatus hmgt, Upd.run_errClear]
    rfl
  case clearLater =>
    subst h0 hbase
    rw [exec_errStatusClear_eq h hpage h4, Upd.run_writeBar0_free (d := s.dev.rx) hdec (by omega) hup hpres hroutes (.inl (reconfigures_of_management hmgt)),
      Upd.run_writePage_errStatus_later hmgt]
    rfl
  case inject =>
    subst h0 hbase
    have hex : exec (.errInject 0 p.base data) s = .next { s with dev := (Upd.writePage p 0x14 data).run s.dev.rx } := by
      rw [exec_errInject_eq h hpage h4, Upd.run_writeBar0_free (d := s.dev.rx) hdec (by omega) hup hpres hroutes hfree]
    have hpcx (hk : p.kind = .pcx) : ∀ f, s.dev.rx.locked f = false := hfree.resolve_left (by simp [hk, reconfigures])
    refine ⟨fun hk hmgt heng => ?_, fun hmgt => ?_, fun hk hbit => ?_, fun hk hbit => ?_⟩
    · refine hex.trans ?_
      rw [Upd.run_writePage_inject hmgt, Upd.run_arm hk heng hpcx]
      rfl
    · refine hex.trans ?_
      rw [Upd.run_writePage_inject_later hmgt]
      rfl
    · refine hex.trans ?_
      rw [Upd.run_writePage_inject (by rw [hk]; rfl), Upd.run_arm_gong hk hbit]
    · refine hex.trans ?_
      rw [Upd.run_writePage_inject (by rw [hk]; rfl), Upd.run_arm_links hk hbit]
  case map =>
    subst h0
    rw [exec_vfMap_eq h, Upd.run_writeBar0_free (d := s.dev.rx) decodeAddr_vfMap (by decide) hup rfl hroutes (.inr hfree),
      Upd.run_writePage_vfMap (d := s.dev.rx) h1 h64 hsel]
    rfl
  case mapLocked =>
    subst h0
    obtain ⟨u, hex, htdi, hm, hw⟩ := exec_vfMap_locked hs h hup h1 h64 hsel hl hother hdata hmap
    refine ⟨_, hex, rfl, htdi, hm, ?_⟩
    dsimp only
    rw [hw]
    exact bitOf_or_oneBit _ (by decide)
  case sends =>
    obtain ⟨l, hrun, hl⟩ := Upd.run_maskVector_sends (d := s.dev.rx) hmask hv hp hsends hu hask hf (Device.awake_of_accepts h)
    have hex := exec_msixUnmask_eq hfn h hon hv
    rw [hrun] at hex
    exact ⟨_, hex, rfl, rfl, hl, rfl, rfl⟩
  case silent =>
    obtain ⟨l, hrun, hl⟩ := Upd.run_maskVector_silent (d := s.dev.rx) hmask hv hq
    have hex := exec_msixUnmask_eq hfn h hon hv
    rw [hrun] at hex
    exact ⟨_, hex, rfl, rfl, hl, rfl, rfl⟩

end Sys2Proof.Machine
end

