-- ==== Sys2Proof/Proofs/Rounding.lean ====
section
/-! Bit lengths, shifts and the rounding of a magnitude to a multiple of a power of two (R52 step 1, R69). -/

namespace Sys2Proof.Machine

/-! ### Bit lengths -/

theorem bitLen_le {m n : Nat} : bitLen m ≤ n ↔ m < 2 ^ n := by
  rw [bitLen]
  split
  case isTrue h => simp [h]
  case isFalse h => exact Nat.log2_lt h

theorem lt_bitLen {m n : Nat} : n < bitLen m ↔ 2 ^ n ≤ m := by
  rw [← not_le, bitLen_le, not_lt]

theorem bitLen_pos {m : Nat} (h : m ≠ 0) : 0 < bitLen m :=
  lt_bitLen.2 (Nat.pos_of_ne_zero h)

theorem bitLen_mono {m n : Nat} (h : m ≤ n) : bitLen m ≤ bitLen n :=
  bitLen_le.2 (h.trans_lt (bitLen_le.1 le_rfl))

/-- Doubling a nonzero number k times adds k bits. -/
theorem bitLen_mul_two_pow {m : Nat} (h : m ≠ 0) (k : Nat) : bitLen (m * 2 ^ k) = bitLen m + k := by
  have hpos := bitLen_pos h
  apply le_antisymm
  · rw [bitLen_le, pow_add]
    exact Nat.mul_lt_mul_of_pos_right (bitLen_le.1 le_rfl) (by positivity)
  · have hlow : 2 ^ (bitLen m - 1) ≤ m := lt_bitLen.1 (by omega)
    have hscaled : bitLen m - 1 + k < bitLen (m * 2 ^ k) := by
      rw [lt_bitLen, pow_add]
      exact Nat.mul_le_mul_right _ hlow
    omega

/-- The leading bit of m * 2^k, in units of 2^e, is that of m in units of 2^(e + k). -/
theorem leadExp_mul_two_pow {m : Nat} (h : m ≠ 0) (k : Nat) (e : Int) : leadExp (m * 2 ^ k) e = leadExp m (e + k) := by
  simp only [leadExp, bitLen_mul_two_pow h]
  omega

/-! ### Magnitudes in units of two powers of two, compared -/

section
variable {r b : Nat} {lsb g : Int} (h : r * 2 ^ (lsb - min g lsb).toNat ≤ b * 2 ^ (g - min g lsb).toNat)
include h

/-- The smaller magnitude does not lead the larger one. -/
theorem leadExp_le_of_le (hr : r ≠ 0) (hb : b ≠ 0) : leadExp r lsb ≤ leadExp b g := by
  have hlen := bitLen_mono h
  rw [bitLen_mul_two_pow hr, bitLen_mul_two_pow hb] at hlen
  simp only [leadExp]
  omega

/-- The smaller magnitude, taken to the unit of the larger one and truncated, is at most the larger one. -/
theorem shiftNat_le_of_le : shiftNat r (lsb - g) ≤ b := by
  rw [shiftNat]
  split
  case isTrue hle =>
    rw [min_eq_left (by omega)] at h
    simpa using h
  case isFalse hlt =>
    rw [min_eq_right (by omega)] at h
    rw [neg_sub]
    exact Nat.div_le_of_le_mul (by simpa [mul_comm] using h)

end

/-- A number shifted to n bits has at most n bits. -/
theorem shiftNat_lt {r n : Nat} : shiftNat r (n - bitLen r) < 2 ^ n := by
  have hr : r < 2 ^ bitLen r := bitLen_le.1 le_rfl
  rw [shiftNat]
  split
  case isTrue h =>
    calc r * 2 ^ ((n : Int) - bitLen r).toNat < 2 ^ bitLen r * 2 ^ ((n : Int) - bitLen r).toNat :=
          Nat.mul_lt_mul_of_pos_right hr (by positivity)
      _ = 2 ^ n := by rw [← pow_add]; congr 1; omega
  case isFalse h =>
    rw [Nat.div_lt_iff_lt_mul (by positivity), ← pow_add]
    exact hr.trans_eq (by congr 1; omega)

/-! ### Rounding -/

theorem roundAt_of_le {lsb e : Int} (h : lsb ≤ e) (m : Nat) (u : Option Nat) : roundAt m e lsb u = m * 2 ^ (e - lsb).toNat :=
  if_pos h

/-- To nearest even, in units of 2^d. -/
theorem roundAt_nearest {e lsb : Int} (h : e < lsb) (m : Nat) :
    roundAt m e lsb none = m / 2 ^ (lsb - e).toNat + if 2 * (m % 2 ^ (lsb - e).toNat) > 2 ^ (lsb - e).toNat ∨
      (2 * (m % 2 ^ (lsb - e).toNat) = 2 ^ (lsb - e).toNat ∧ m / 2 ^ (lsb - e).toNat % 2 = 1) then 1 else 0 := by
  rw [roundAt, if_neg (by omega)]
  dsimp only
  split <;> rfl

/-- A magnitude that is a multiple of the unit it is rounded to is kept. -/
theorem roundAt_exact {e lsb : Int} (h : lsb ≤ e) (m j : Nat) : roundAt (m * 2 ^ j) (e - j) lsb none = m * 2 ^ (e - lsb).toNat := by
  rcases le_or_gt lsb (e - j) with hle | hlt
  · rw [roundAt_of_le hle, mul_assoc, ← pow_add]
    congr 2
    omega
  · obtain ⟨d, hd⟩ : ∃ d, d = (lsb - (e - j)).toNat := ⟨_, rfl⟩
    have hsplit : m * 2 ^ j = m * 2 ^ (e - lsb).toNat * 2 ^ d := by
      rw [mul_assoc, ← pow_add]
      congr 2
      omega
    have hpos : 0 < 2 ^ d := by positivity
    rw [roundAt_nearest hlt, ← hd, hsplit, Nat.mul_mod_left, Nat.mul_div_cancel _ hpos, if_neg (by omega), add_zero]

/-- Rounding to nearest even is off by at most half a unit, and by half a unit only at an even multiple (R52 step 1). -/
theorem roundAt_nearest_close (m k : Nat) :
    2 * |(roundAt m (-k) 0 none : Int) * 2 ^ k - m| ≤ 2 ^ k ∧
      (2 * |(roundAt m (-k) 0 none : Int) * 2 ^ k - m| = 2 ^ k → roundAt m (-k) 0 none % 2 = 0) := by
  rcases Nat.eq_zero_or_pos k with rfl | hk
  · simp [roundAt_of_le]
  · have hunit : (2 : Int) ^ k = ((2 ^ k : Nat) : Int) := by push_cast; rfl
    have hdiv := Nat.div_add_mod m (2 ^ k)
    have hmod : m % 2 ^ k < 2 ^ k := Nat.mod_lt _ (by positivity)
    rw [roundAt_nearest (by omega), hunit]
    simp only [sub_neg_eq_add, zero_add, Int.toNat_natCast]
    generalize 2 ^ k = p at *
    generalize m / p = q at *
    generalize m % p = f at *
    subst hdiv
    split
    case isTrue hup =>
      have herr : ((q + 1 : Nat) : Int) * p - (p * q + f : Nat) = p - f := by push_cast; ring
      rw [herr, abs_of_nonneg (by omega)]
      omega
    case isFalse hdown =>
      have herr : ((q + 0 : Nat) : Int) * p - (p * q + f : Nat) = -f := by push_cast; ring
      rw [herr, abs_neg, abs_of_nonneg (by omega)]
      omega

/-- The random word never rounds up a magnitude that has nothing below the unit (R69 step 4). -/
theorem stochastic_up_pos {f d' s u : Nat} (hu : u < 2 ^ 32) (hd : d' ≤ 32) (hup : f / s + u / 2 ^ (32 - d') ≥ 2 ^ d') : 0 < f := by
  by_contra hf
  have hword : u / 2 ^ (32 - d') < 2 ^ d' := by
    rw [Nat.div_lt_iff_lt_mul (by positivity), ← pow_add, Nat.add_sub_of_le hd]
    exact hu
  simp only [Nat.eq_zero_of_not_pos hf, Nat.zero_div, zero_add] at hup
  omega

/-- Stochastic rounding truncates, or adds one unit to what has something below it (R69 step 4). -/
theorem roundAt_stochastic {e lsb : Int} (h : e < lsb) (m : Nat) {u : Nat} (hu : u < 2 ^ 32) :
    roundAt m e lsb (some u) = m / 2 ^ (lsb - e).toNat ∨
      (roundAt m e lsb (some u) = m / 2 ^ (lsb - e).toNat + 1 ∧ 0 < m % 2 ^ (lsb - e).toNat) := by
  rw [roundAt, if_neg (by omega)]
  dsimp only
  split
  case isTrue hup => exact .inr ⟨rfl, stochastic_up_pos hu (min_le_right _ 32) hup⟩
  case isFalse => exact .inl rfl

/-- Stochastic rounding gives one of the two neighbours. -/
theorem roundAt_stochastic_close (m k : Nat) {u : Nat} (hu : u < 2 ^ 32) : |(roundAt m (-k) 0 (some u) : Int) * 2 ^ k - m| < 2 ^ k := by
  rcases Nat.eq_zero_or_pos k with rfl | hk
  · simp [roundAt_of_le]
  · have hunit : (2 : Int) ^ k = ((2 ^ k : Nat) : Int) := by push_cast; rfl
    have hdiv := Nat.div_add_mod m (2 ^ k)
    have hmod : m % 2 ^ k < 2 ^ k := Nat.mod_lt _ (by positivity)
    have hnear := roundAt_stochastic (e := -k) (lsb := 0) (by omega) m hu
    simp only [sub_neg_eq_add, zero_add, Int.toNat_natCast] at hnear
    generalize roundAt m (-k) 0 (some u) = r at *
    rw [hunit]
    generalize 2 ^ k = p at *
    generalize m / p = q at *
    generalize m % p = f at *
    subst hdiv
    rcases hnear with rfl | ⟨rfl, hpos⟩
    · have herr : (r : Int) * p - (p * r + f : Nat) = -f := by push_cast; ring
      rw [herr, abs_neg, abs_of_nonneg (by omega)]
      omega
    · have herr : ((q + 1 : Nat) : Int) * p - (p * q + f : Nat) = p - f := by push_cast; ring
      rw [herr, abs_of_nonneg (by omega)]
      omega

end Sys2Proof.Machine
end

