-- ==== Sys2Proof/Proofs/Conversions.lean ====
section
/-! Conversions to the float formats (R50 to R52): the pattern of a magnitude stays at or below the format's largest one, and the sign is put
on nothing but a nonzero pattern. -/

namespace Sys2Proof.Machine

/-- The float formats of an element (R41). -/
def Fmt.floats : List Fmt := [.fp32, .bf16, .fp16, .e4m3, .e5m2, .e2m1]

/-- The pattern above which no magnitude is encoded: infinity, or the largest finite value of FP8 and FP4 (R52 step 3). -/
def Fmt.topPattern (f : Fmt) : Nat := if f.width ≥ 16 then f.infPattern else f.maxPattern

/-- The unit that the magnitude m * 2^e is rounded to; FP8 and FP4 have a least one, that of their subnormals (R52 step 1). -/
def Fmt.unit (f : Fmt) (m : Nat) (e : Int) : Int :=
  if f.width ≥ 16 then leadExp m e - f.params.2.1 else max (leadExp m e - f.params.2.1) (1 - f.params.2.2 - f.params.2.1)

/-- The pattern of r * 2^lsb, as a magnitude in normal range (R41). -/
def Fmt.normalPattern (f : Fmt) (r : Nat) (lsb : Int) : Nat :=
  (leadExp r lsb + f.params.2.2).toNat * 2 ^ f.params.2.1 + (shiftNat r (lsb - (leadExp r lsb - f.params.2.1)) - 2 ^ f.params.2.1)

/-- A magnitude's pattern with its sign, which zero does not take (R50). -/
def Fmt.withSign (f : Fmt) (neg : Bool) (p : Nat) : Nat := if p = 0 then 0 else p + if neg then f.signBit else 0

/-! ### The formats' constants -/

/-- The largest magnitude has the format's significand width, and its pattern is that of a normal value (R41). -/
theorem Fmt.largest_normal {f : Fmt} (hf : f ∈ Fmt.floats) :
    bitLen f.largest.1 = f.params.2.1 + 1 ∧ f.normalPattern f.largest.1 f.largest.2 = f.maxPattern := by
  revert f; decide

theorem Fmt.maxPattern_le_top {f : Fmt} (hf : f ∈ Fmt.floats) : f.maxPattern ≤ f.topPattern := by
  revert f; decide

theorem Fmt.subnormal_lt_top {f : Fmt} (hf : f ∈ Fmt.floats) : 2 ^ f.params.2.1 ≤ f.topPattern := by
  revert f; decide

/-- Every pattern of a magnitude, infinity and NaN lies below the sign bit, and the sign bit is the format's last. -/
theorem Fmt.patterns_lt_signBit {f : Fmt} (hf : f ∈ Fmt.floats) :
    f.topPattern < f.signBit ∧ f.infPattern < f.signBit ∧ f.nanPattern < f.signBit ∧ 2 ^ f.width = 2 * f.signBit := by
  revert f; decide

theorem Fmt.infPattern_ne_zero {f : Fmt} (hf : f ∈ Fmt.floats) : f.infPattern ≠ 0 := by
  revert f; decide

/-! ### The pattern of a magnitude -/

/-- What a magnitude becomes, r being its rounded significand (R52 steps 1 to 3). -/
theorem encodeMag_eq (f : Fmt) (m : Nat) (e : Int) (u : Option Nat) {r : Nat} (h : roundAt m e (f.unit m e) u = r) :
    encodeMag f m e u =
      if r = 0 then 0
      else if leadExp r (f.unit m e) < 1 - f.params.2.2 then (if f.width ≥ 16 then 0 else r)
      else if f.largest.1 * 2 ^ (f.largest.2 - min f.largest.2 (f.unit m e)).toNat < r * 2 ^ (f.unit m e - min f.largest.2 (f.unit m e)).toNat
      then f.topPattern
      else f.normalPattern r (f.unit m e) := by
  subst h
  by_cases hwide : f.width ≥ 16 <;> simp [encodeMag, Fmt.unit, Fmt.topPattern, Fmt.normalPattern, hwide]

/-- The pattern of a normal magnitude grows with the magnitude, up to a significand of full width. -/
theorem Fmt.normalPattern_le {f : Fmt} {b r : Nat} {g lsb : Int} (hb : bitLen b = f.params.2.1 + 1) (hr : r ≠ 0)
    (hlow : 1 - f.params.2.2 ≤ leadExp r lsb) (hle : r * 2 ^ (lsb - min g lsb).toNat ≤ b * 2 ^ (g - min g lsb).toNat) :
    f.normalPattern r lsb ≤ f.normalPattern b g := by
  have hb0 : b ≠ 0 := by
    rintro rfl
    cases hb
  have hsig : shiftNat r (lsb - (leadExp r lsb - f.params.2.1)) < 2 ^ (f.params.2.1 + 1) := by
    have hunit : lsb - (leadExp r lsb - f.params.2.1) = (f.params.2.1 + 1 : Nat) - bitLen r := by
      simp only [leadExp]
      omega
    rw [hunit]
    exact shiftNat_lt
  have hfull : g - (leadExp b g - f.params.2.1) = 0 := by
    simp only [leadExp]
    omega
  simp only [Fmt.normalPattern]
  rcases (leadExp_le_of_le hle hr hb0).lt_or_eq with hlt | heq
  · have hstep : (leadExp r lsb + f.params.2.2).toNat + 1 ≤ (leadExp b g + f.params.2.2).toNat := by omega
    have hmul := Nat.mul_le_mul_right (2 ^ f.params.2.1) hstep
    rw [add_mul] at hmul
    omega
  · have hunit : lsb - (leadExp b g - f.params.2.1) = lsb - g := by omega
    have htrunc : shiftNat r (lsb - g) ≤ shiftNat b 0 := by simpa [shiftNat] using shiftNat_le_of_le hle
    rw [heq, hunit, hfull]
    omega

/-- In FP8 and FP4, a magnitude below normal range has fewer bits than the significand. -/
theorem Fmt.lt_of_subnormal {f : Fmt} {m r : Nat} {e : Int} (hwide : ¬ f.width ≥ 16) (hlow : leadExp r (f.unit m e) < 1 - f.params.2.2) :
    r < 2 ^ f.params.2.1 := by
  simp only [leadExp, Fmt.unit, hwide, if_false] at hlow
  exact bitLen_le.1 (by omega)

/-- The cases of R52 steps 2 and 3 all end at or below the top pattern. -/
theorem encodeMag_le_top {f : Fmt} (hf : f ∈ Fmt.floats) (m : Nat) (e : Int) (u : Option Nat) : encodeMag f m e u ≤ f.topPattern := by
  obtain ⟨hlen, hmax⟩ := Fmt.largest_normal hf
  rw [encodeMag_eq f m e u rfl]
  split_ifs with hzero hlow hwide hbig
  · exact Nat.zero_le _
  · exact Nat.zero_le _
  · exact (Fmt.lt_of_subnormal hwide hlow).le.trans (Fmt.subnormal_lt_top hf)
  · exact le_rfl
  · calc f.normalPattern _ (f.unit m e) ≤ f.normalPattern f.largest.1 f.largest.2 :=
          Fmt.normalPattern_le hlen hzero (not_lt.1 hlow) (not_lt.1 hbig)
      _ = f.maxPattern := hmax
      _ ≤ f.topPattern := Fmt.maxPattern_le_top hf

/-! ### Patterns with a sign -/

theorem Fmt.withSign_ne_signBit {f : Fmt} {p : Nat} (neg : Bool) (h : p < f.signBit) : f.withSign neg p ≠ f.signBit := by
  rw [Fmt.withSign]
  cases neg <;> split <;> simp <;> omega

theorem Fmt.withSign_lt {f : Fmt} {p : Nat} (neg : Bool) (h : p < f.signBit) : f.withSign neg p < 2 * f.signBit := by
  rw [Fmt.withSign]
  cases neg <;> split <;> simp <;> omega

/-- A float format's conversion by the kind of value (R51, R52 step 4). -/
theorem encodeElem_float {f : Fmt} (hf : f ∈ Fmt.floats) (u : Option Nat) :
    encodeElem f .nan u = f.nanPattern ∧ (∀ neg, encodeElem f (.inf neg) u = f.infPattern + if neg then f.signBit else 0) ∧
      ∀ m e, encodeElem f (.fin m e) u =
        if m = 0 then 0 else if encodeMag f m.natAbs e u = 0 then 0 else encodeMag f m.natAbs e u + if m < 0 then f.signBit else 0 := by
  simp only [Fmt.floats, List.mem_cons, List.not_mem_nil, or_false] at hf
  rcases hf with rfl | rfl | rfl | rfl | rfl | rfl <;> exact ⟨rfl, fun _ => rfl, fun _ _ => rfl⟩

theorem encodeElem_nan {f : Fmt} (hf : f ∈ Fmt.floats) (u : Option Nat) : encodeElem f .nan u = f.withSign false f.nanPattern := by
  rw [(encodeElem_float hf u).1, Fmt.withSign]
  split
  case isTrue h => exact h
  case isFalse => rfl

theorem encodeElem_inf {f : Fmt} (hf : f ∈ Fmt.floats) (neg : Bool) (u : Option Nat) :
    encodeElem f (.inf neg) u = f.withSign neg f.infPattern := by
  rw [(encodeElem_float hf u).2.1, Fmt.withSign, if_neg (Fmt.infPattern_ne_zero hf)]

/-- A finite value converts to the pattern of its magnitude with its own sign. -/
theorem encodeElem_fin {f : Fmt} (hf : f ∈ Fmt.floats) {m : Int} (hm : m ≠ 0) (e : Int) (u : Option Nat) :
    encodeElem f (.fin m e) u = f.withSign (m < 0) (encodeMag f m.natAbs e u) := by
  rw [(encodeElem_float hf u).2.2, if_neg hm, Fmt.withSign]
  simp only [decide_eq_true_eq]

theorem encodeElem_fin_zero {f : Fmt} (hf : f ∈ Fmt.floats) (e : Int) (u : Option Nat) : encodeElem f (.fin 0 e) u = 0 := by
  rw [(encodeElem_float hf u).2.2, if_pos rfl]

/-- Whatever the finite value, its pattern is one at or below the top with a sign. -/
theorem encodeElem_fin_withSign {f : Fmt} (hf : f ∈ Fmt.floats) (m e : Int) (u : Option Nat) :
    ∃ p ≤ f.topPattern, encodeElem f (.fin m e) u = f.withSign (m < 0) p := by
  by_cases hm : m = 0
  · subst hm
    exact ⟨0, Nat.zero_le _, encodeElem_fin_zero hf e u⟩
  · exact ⟨_, encodeMag_le_top hf m.natAbs e u, encodeElem_fin hf hm e u⟩

/-- Every conversion gives a pattern below the sign bit, with a sign. -/
theorem encodeElem_withSign {f : Fmt} (hf : f ∈ Fmt.floats) (v : FVal) (u : Option Nat) :
    ∃ neg, ∃ p < f.signBit, encodeElem f v u = f.withSign neg p := by
  obtain ⟨htop, hinf, hnan, -⟩ := Fmt.patterns_lt_signBit hf
  cases v with
  | nan => exact ⟨false, _, hnan, encodeElem_nan hf u⟩
  | inf neg => exact ⟨neg, _, hinf, encodeElem_inf hf neg u⟩
  | fin m e =>
    obtain ⟨p, hp, h⟩ := encodeElem_fin_withSign hf m e u
    exact ⟨_, p, hp.trans_lt htop, h⟩

/-! ### Reading a pattern back -/

/-- In FP8 and FP4 every pattern up to the top one is a finite value, with either sign. -/
theorem decodeElem_withSign_isFin {f : Fmt} (hf : f ∈ [Fmt.e4m3, .e5m2, .e2m1]) (neg : Bool) {p : Nat} (hp : p ≤ f.topPattern) :
    (decodeElem f (f.withSign neg p)).isFin = true := by
  have hall : ∀ f ∈ [Fmt.e4m3, .e5m2, .e2m1], ∀ neg : Bool, ∀ p < f.topPattern + 1, (decodeElem f (f.withSign neg p)).isFin = true := by decide
  exact hall f hf neg p (Nat.lt_succ_of_le hp)

/-- The fields of an FP32 pattern with a sign. -/
theorem bits_withSign_fp32 {p : Nat} (hp : p < 2 ^ 31) (h0 : p ≠ 0) (neg : Bool) :
    bits (Fmt.fp32.withSign neg p) 31 1 = (if neg then 1 else 0) ∧ bits (Fmt.fp32.withSign neg p) 23 8 = p / 2 ^ 23 := by
  have hs : Fmt.fp32.signBit = 2 ^ 31 := rfl
  simp only [Fmt.withSign, h0, if_false, hs, bits]
  cases neg
  · simp only [Bool.false_eq_true, if_false]
    omega
  · simp only [if_true]
    omega

theorem f32_withSign_inf (neg : Bool) : f32 (Fmt.fp32.withSign neg Fmt.fp32.infPattern) = .inf neg := by
  cases neg <;> rfl

/-- The value of an FP32 pattern by its exponent, mantissa and sign (R41, R49). -/
theorem f32_eq (n : Nat) : f32 n = if bits n 23 8 = 2 ^ 8 - 1 then (if bits n 0 23 = 0 then .inf (bits n 31 1 = 1) else .nan)
    else if bits n 23 8 = 0 then .zero
    else .fin (if bits n 31 1 = 1 then -((2 ^ 23 + bits n 0 23 : Nat) : Int) else (2 ^ 23 + bits n 0 23 : Nat)) (bits n 23 8 - 127 - 23) :=
  rfl

/-- An FP32 pattern below that of infinity is a finite value of its sign. -/
theorem f32_withSign_fin {p : Nat} (hp : p < Fmt.fp32.infPattern) (neg : Bool) :
    ∃ (a : Nat) (b : Int), f32 (Fmt.fp32.withSign neg p) = .fin (if neg then -(a : Int) else a) b := by
  by_cases h0 : p = 0
  · subst h0
    exact ⟨0, 0, by cases neg <;> rfl⟩
  · have hinf : Fmt.fp32.infPattern = 255 * 2 ^ 23 := rfl
    rw [hinf] at hp
    obtain ⟨hsign, hex⟩ := bits_withSign_fp32 (by omega) h0 neg
    have hfin : p / 2 ^ 23 ≠ 2 ^ 8 - 1 := by omega
    generalize Fmt.fp32.withSign neg p = n at *
    rw [f32_eq, hex, if_neg hfin, hsign]
    split
    · exact ⟨0, 0, by cases neg <;> rfl⟩
    · exact ⟨_, _, by cases neg <;> rfl⟩

/-- A finite value converts to FP32 of its own sign, or to the infinity of its sign (R52 step 3). -/
theorem f32_encodeElem_fin (m e : Int) (u : Option Nat) :
    (∃ a b, f32 (encodeElem .fp32 (.fin m e) u) = .fin a b ∧ (0 ≤ m → 0 ≤ a) ∧ (m ≤ 0 → a ≤ 0)) ∨
      f32 (encodeElem .fp32 (.fin m e) u) = .inf (m < 0) := by
  have hf : Fmt.fp32 ∈ Fmt.floats := by decide
  by_cases hm : m = 0
  · subst hm
    exact .inl ⟨0, 0, congrArg f32 (encodeElem_fin_zero hf e u), fun _ => le_rfl, fun _ => le_rfl⟩
  · rw [encodeElem_fin hf hm]
    have htop : encodeMag .fp32 m.natAbs e u ≤ Fmt.fp32.infPattern := encodeMag_le_top hf m.natAbs e u
    rcases htop.lt_or_eq with hlt | heq
    · obtain ⟨a, b, h⟩ := f32_withSign_fin hlt (m < 0)
      refine .inl ⟨_, b, h, fun h0 => ?_, fun h0 => ?_⟩
      · simp [not_lt.2 h0]
      · simp [lt_of_le_of_ne h0 hm]
    · rw [heq]
      exact .inr (f32_withSign_inf _)

/-- Settles O19: a magnitude's pattern is at most the top one, below the sign bit, and takes the sign only when it is not zero; the worked
examples are evaluated. -/
theorem conversions : Obligations.Conversions := by
  refine ⟨fun f hf v u => ?noNegativeZero, ?canonicalNaN, fun f hf m e u => ?staysFinite, f32_encodeElem_fin, ?examples⟩
  case canonicalNaN => rfl
  case examples => decide
  case noNegativeZero =>
    obtain ⟨neg, p, hp, h⟩ := encodeElem_withSign hf v u
    obtain ⟨-, -, -, hwidth⟩ := Fmt.patterns_lt_signBit hf
    rw [h, hwidth]
    exact ⟨Fmt.withSign_ne_signBit neg hp, Fmt.withSign_lt neg hp⟩
  case staysFinite =>
    have hfloat : f ∈ Fmt.floats := by
      revert f; decide
    obtain ⟨p, hp, h⟩ := encodeElem_fin_withSign hfloat m e u
    rw [h]
    exact decodeElem_withSign_isFin hf _ hp

end Sys2Proof.Machine
end

