-- ==== Sys2Proof/Proofs/IntegerConversions.lean ====
section
/-! Conversions to INT8 and INT4 (R53): the rounded integer, clamped to the format's range, in two's complement. -/

namespace Sys2Proof.Machine

/-- An integer limited to w bits of two's complement (R53). -/
def clampInt (w : Nat) (r : Int) : Int := max (-(2 : Int) ^ (w - 1)) (min ((2 : Int) ^ (w - 1) - 1) r)

/-- The value m * 2^e rounded to an integer (R52 step 1, R69). -/
def roundInt (m e : Int) (u : Option Nat) : Int := if m < 0 then -(roundAt m.natAbs e 0 u : Int) else roundAt m.natAbs e 0 u

/-! ### Two's complement -/

/-- An integer in the range of w bits comes back from its two's complement. -/
theorem signed_emod {w : Nat} (hw : 0 < w) {c : Int} (hlo : -(2 : Int) ^ (w - 1) ≤ c) (hhi : c < 2 ^ (w - 1)) :
    signed w (c % 2 ^ w).toNat = c := by
  have htwice : (2 : Int) ^ w = 2 * 2 ^ (w - 1) := by rw [← pow_succ', Nat.sub_add_cancel hw]
  have hcast : ((2 ^ w : Nat) : Int) = 2 ^ w := by push_cast; rfl
  have hhalf : ((2 ^ (w - 1) : Nat) : Int) = 2 ^ (w - 1) := by push_cast; rfl
  have hres : c % 2 ^ w = if 0 ≤ c then c else c + 2 ^ w := by
    split
    case isTrue h => exact Int.emod_eq_of_lt h (by omega)
    case isFalse h =>
      rw [← Int.add_emod_right]
      exact Int.emod_eq_of_lt (by omega) (by omega)
  rw [signed, hres, Nat.mod_eq_of_lt (by split <;> omega)]
  split <;> split <;> omega

theorem signed_clampInt {w : Nat} (hw : 0 < w) (r : Int) : signed w (clampInt w r % 2 ^ w).toNat = clampInt w r := by
  have hpos : (0 : Int) < 2 ^ (w - 1) := by positivity
  exact signed_emod hw (le_max_left _ _) (by rw [clampInt]; omega)

/-! ### What a conversion gives -/

theorem encodeInt_fin (w : Nat) (m e : Int) (u : Option Nat) : encodeInt w (.fin m e) u = (clampInt w (roundInt m e u) % 2 ^ w).toNat := by
  have hlow : -((2 : Int) ^ (w - 1) - 1) - 1 = -2 ^ (w - 1) := by ring
  simp only [encodeInt, clampInt, roundInt, hlow]

theorem encodeInt_inf (w : Nat) (neg : Bool) (u : Option Nat) :
    encodeInt w (.inf neg) u = (clampInt w (if neg then -(2 : Int) ^ (w - 1) else 2 ^ (w - 1) - 1) % 2 ^ w).toNat := by
  have hlow : -((2 : Int) ^ (w - 1) - 1) - 1 = -2 ^ (w - 1) := by ring
  simp only [encodeInt, clampInt, hlow]

theorem signed_encodeInt_fin {w : Nat} (hw : 0 < w) (m e : Int) (u : Option Nat) :
    signed w (encodeInt w (.fin m e) u) = clampInt w (roundInt m e u) := by
  rw [encodeInt_fin, signed_clampInt hw]

/-- Infinity gives the end of the range on its side. -/
theorem signed_encodeInt_inf {w : Nat} (hw : 0 < w) (neg : Bool) (u : Option Nat) :
    signed w (encodeInt w (.inf neg) u) = if neg then -(2 : Int) ^ (w - 1) else 2 ^ (w - 1) - 1 := by
  have hpos : (0 : Int) < 2 ^ (w - 1) := by positivity
  rw [encodeInt_inf, signed_clampInt hw, clampInt]
  split <;> omega

/-! ### The rounded integer -/

theorem roundInt_whole (m : Int) (k : Nat) (u : Option Nat) : roundInt m k u = m * 2 ^ k := by
  rw [roundInt, roundAt_of_le (by omega), sub_zero, Int.toNat_natCast]
  push_cast
  split
  case isTrue h => rw [abs_of_neg h, neg_mul, neg_neg]
  case isFalse h => rw [abs_of_nonneg (not_lt.1 h)]

/-- Rounding acts on the magnitude, so its error is that of the magnitude. -/
theorem abs_roundInt_sub (m e s : Int) (u : Option Nat) :
    |roundInt m e u * s - m| = |(roundAt m.natAbs e 0 u : Int) * s - m.natAbs| := by
  rw [roundInt]
  split
  case isTrue h =>
    rw [Int.natCast_natAbs, abs_of_neg h, ← abs_neg]
    congr 1
    ring
  case isFalse h => rw [Int.natCast_natAbs, abs_of_nonneg (not_lt.1 h)]

theorem roundInt_even_iff (m e : Int) (u : Option Nat) : roundInt m e u % 2 = 0 ↔ roundAt m.natAbs e 0 u % 2 = 0 := by
  rw [roundInt]
  split <;> omega

/-- The integer formats' conversion (R53). -/
theorem encodeElem_integer {p : Fmt × Nat} (hp : p ∈ [(Fmt.int8, 8), (Fmt.int4, 4)]) (v : FVal) (u : Option Nat) :
    0 < p.2 ∧ encodeElem p.1 v u = encodeInt p.2 v u := by
  simp only [List.mem_cons, List.not_mem_nil, or_false] at hp
  rcases hp with rfl | rfl <;> exact ⟨by decide, rfl⟩

/-- Settles O20: the conversion clamps the rounded integer, and rounding is exact for a whole number and close for a fraction. -/
theorem integerConversions : Obligations.IntegerConversions := by
  intro p hp clamp out
  obtain ⟨hw, -⟩ := encodeElem_integer hp .nan none
  have hout (v : FVal) (u : Option Nat) : out v u = signed p.2 (encodeInt p.2 v u) := congrArg (signed p.2) (encodeElem_integer hp v u).2
  have hfin (m e : Int) (u : Option Nat) : out (.fin m e) u = clamp (roundInt m e u) := (hout _ u).trans (signed_encodeInt_fin hw m e u)
  have hinf (neg : Bool) (u : Option Nat) := (hout (.inf neg) u).trans (signed_encodeInt_inf hw neg u)
  refine ⟨fun m k u => ?whole, fun m k => ⟨roundInt m (-k) none, hfin _ _ _, ?nearest⟩,
    fun m k u hu => ⟨roundInt m (-k) (some u), hfin _ _ _, ?stochastic⟩, fun u => ⟨hinf false u, hinf true u⟩⟩
  case whole => rw [hfin, roundInt_whole]
  case nearest =>
    rw [abs_roundInt_sub, roundInt_even_iff]
    exact roundAt_nearest_close m.natAbs k
  case stochastic =>
    rw [abs_roundInt_sub]
    exact roundAt_stochastic_close m.natAbs k hu

end Sys2Proof.Machine
end

