-- ==== Sys2Proof/Proofs/RowStatistics.lean ====
section
/-! Row statistics (R64 to R68): what an exact sum, a rounded value and a quotient keep of their operands, and the row of equal elements. -/

namespace Sys2Proof.Machine

/-- Neither minus infinity nor a finite value below zero. -/
def FVal.NotNeg : FVal → Prop
  | .nan => True
  | .inf neg => neg = false
  | .fin m _ => 0 ≤ m

/-! ### A value rounded, divided and squared -/

theorem isFin_ne_nan {v : FVal} (h : v.isFin = true) : v ≠ .nan := by
  rintro rfl
  cases h

/-- What a finite value rounds to: zero, the infinity of its sign, or a finite value of its sign (R52). -/
theorem round_fin_cases (m e : Int) :
    (FVal.fin m e).round = .zero ∨ (FVal.fin m e).round = .inf (m < 0) ∨
      ∃ (r : Nat) (l : Int), (FVal.fin m e).round = .fin (if m < 0 then -(r : Int) else r) l := by
  rw [FVal.round]
  dsimp only
  split
  case isTrue => exact .inl rfl
  case isFalse =>
    split
    case isTrue => exact .inl rfl
    case isFalse =>
      split
      case isTrue => exact .inr (.inl rfl)
      case isFalse => exact .inr (.inr ⟨_, _, rfl⟩)

theorem round_ne_nan {v : FVal} (h : v ≠ .nan) : v.round ≠ .nan := by
  cases v with
  | nan => exact absurd rfl h
  | inf neg => exact h
  | fin m e => rcases round_fin_cases m e with h | h | ⟨r, l, h⟩ <;> simp [h, FVal.zero]

theorem round_notNeg {v : FVal} (h : v.NotNeg) : v.round.NotNeg := by
  cases v with
  | nan => trivial
  | inf neg => exact h
  | fin m e =>
    have hm : ¬ m < 0 := not_lt.2 h
    rcases round_fin_cases m e with hr | hr | ⟨r, l, hr⟩ <;> simp [hr, hm, FVal.zero, FVal.NotNeg]

/-- The quotient of a finite value is a rounded finite value of its sign (R65). -/
theorem divNat_fin {n : Nat} (hn : n ≠ 0) (m e : Int) :
    ∃ (q : Nat) (l : Int), (FVal.fin m e).divNat n = (FVal.fin (if m < 0 then -(q : Int) else q) l).round := by
  rw [FVal.divNat]
  dsimp only
  rw [if_neg hn]
  exact ⟨_, _, rfl⟩

theorem divNat_ne_nan {v : FVal} {n : Nat} (hn : n ≠ 0) (h : v ≠ .nan) : v.divNat n ≠ .nan := by
  cases v with
  | nan => exact absurd rfl h
  | inf neg => exact h
  | fin m e =>
    obtain ⟨q, l, hq⟩ := divNat_fin hn m e
    rw [hq]
    exact round_ne_nan (by simp)

theorem divNat_notNeg {v : FVal} (h : v.NotNeg) (n : Nat) : (v.divNat n).NotNeg := by
  cases v with
  | nan => trivial
  | inf neg => exact h
  | fin m e =>
    by_cases hn : n = 0
    · simp [FVal.divNat, hn, FVal.NotNeg]
    · obtain ⟨q, l, hq⟩ := divNat_fin hn m e
      rw [hq]
      exact round_notNeg (by simp [FVal.NotNeg, not_lt.2 h])

theorem mul_self_notNeg (v : FVal) : (v.mul v).NotNeg := by
  cases v with
  | nan => trivial
  | inf neg => simp [FVal.mul, FVal.NotNeg]
  | fin m e =>
    rw [FVal.mul]
    split
    · exact le_refl (0 : Int)
    · exact mul_self_nonneg m

theorem mul_self_ne_nan {v : FVal} (h : v ≠ .nan) : v.mul v ≠ .nan := by
  cases v with
  | nan => exact absurd rfl h
  | inf neg => simp [FVal.mul]
  | fin m e =>
    rw [FVal.mul]
    split <;> simp [FVal.zero]

/-! ### Exact sums -/

/-- The exact sum of two values in one unit. -/
theorem add_same_unit (m n e : Int) : (FVal.fin m e).add (.fin n e) = .fin (m + n) e := by
  rw [FVal.add]
  split_ifs with hm hn
  · rw [hm, zero_add]
  · rw [hn, add_zero]
  · simp

/-- Finite values add to a finite one, and values that are not below zero to one that is not. -/
theorem add_fin_fin (m e n f : Int) : ∃ s g, (FVal.fin m e).add (.fin n f) = .fin s g ∧ (0 ≤ m → 0 ≤ n → 0 ≤ s) := by
  rw [FVal.add]
  split_ifs
  · exact ⟨n, f, rfl, fun _ h => h⟩
  · exact ⟨m, e, rfl, fun h _ => h⟩
  · exact ⟨_, _, rfl, fun _ _ => by positivity⟩

theorem add_isFin {a b : FVal} (ha : a.isFin = true) (hb : b.isFin = true) : (a.add b).isFin = true := by
  cases a <;> cases b <;> simp only [FVal.isFin, Bool.false_eq_true] at ha hb
  next m e n f =>
    obtain ⟨s, g, h, -⟩ := add_fin_fin m e n f
    rw [h]
    rfl

/-- A finite value plus one that is not NaN is not NaN (R60). -/
theorem add_ne_nan_of_isFin {a b : FVal} (ha : a.isFin = true) (hb : b ≠ .nan) : a.add b ≠ .nan := by
  cases a <;> simp only [FVal.isFin, Bool.false_eq_true] at ha
  cases b with
  | nan => exact absurd rfl hb
  | inf neg => simp [FVal.add]
  | fin n f => exact isFin_ne_nan (add_isFin rfl rfl)

theorem add_notNeg {a b : FVal} (ha : a.NotNeg) (hb : b.NotNeg) : (a.add b).NotNeg := by
  cases a <;> cases b <;> simp only [FVal.NotNeg] at ha hb
  case fin.fin m e n f =>
    obtain ⟨s, g, h, hs⟩ := add_fin_fin m e n f
    rw [h]
    exact hs ha hb
  all_goals simp [FVal.add, FVal.NotNeg, ha, hb]

/-- Without minus infinity, values that are not NaN do not add to NaN (R60). -/
theorem add_ne_nan_of_notNeg {a b : FVal} (ha : a.NotNeg) (hb : b.NotNeg) (ha' : a ≠ .nan) (hb' : b ≠ .nan) : a.add b ≠ .nan := by
  cases a with
  | nan => exact absurd rfl ha'
  | fin m e => exact add_ne_nan_of_isFin rfl hb'
  | inf neg =>
    cases b with
    | nan => exact absurd rfl hb'
    | inf neg' =>
      rw [show neg = false from ha, show neg' = false from hb]
      simp [FVal.add]
    | fin n f => simp [FVal.add]

/-- What zero has and addition keeps, the sum of a row has. -/
theorem exactSum_of_add {P : FVal → Prop} (h0 : P .zero) (hadd : ∀ a b, P a → P b → P (a.add b)) {l : List FVal} (hl : ∀ x ∈ l, P x) :
    P (exactSum l) :=
  List.foldlRecOn (motive := P) l FVal.add h0 fun a ha x hx => hadd a x ha (hl x hx)

theorem exactSum_isFin {l : List FVal} (hl : ∀ x ∈ l, x.isFin = true) : (exactSum l).isFin = true :=
  exactSum_of_add (P := fun v => v.isFin = true) rfl (fun _ _ => add_isFin) hl

theorem exactSum_notNeg {l : List FVal} (hl : ∀ x ∈ l, x.NotNeg) : (exactSum l).NotNeg :=
  exactSum_of_add (le_refl (0 : Int)) (fun _ _ => add_notNeg) hl

theorem exactSum_ne_nan {l : List FVal} (hl : ∀ x ∈ l, x.NotNeg ∧ x ≠ .nan) : exactSum l ≠ .nan :=
  (exactSum_of_add (P := fun v => v.NotNeg ∧ v ≠ .nan) ⟨le_refl (0 : Int), by simp [FVal.zero]⟩
    (fun _ _ ha hb => ⟨add_notNeg ha.1 hb.1, add_ne_nan_of_notNeg ha.1 hb.1 ha.2 hb.2⟩) hl).2

/-! ### Squares of deviations -/

theorem fmul_self_notNeg (v : FVal) : (fmul v v).NotNeg := round_notNeg (mul_self_notNeg v)

theorem neg_ne_nan {v : FVal} (h : v ≠ .nan) : v.neg ≠ .nan := by
  cases v with
  | nan => exact absurd rfl h
  | inf neg => simp [FVal.neg]
  | fin m e => simp [FVal.neg]

/-- The squares of a row are not negative (R67). -/
theorem rowSquares_notNeg {l : List FVal} {mean : FVal} : ∀ q ∈ rowSquares l mean, q.NotNeg := by
  intro q hq
  obtain ⟨x, -, rfl⟩ := List.mem_map.1 hq
  exact fmul_self_notNeg _

/-- Finite elements have squares that are not NaN, whatever the mean overflows to (R68). -/
theorem rowSquares_ne_nan {l : List FVal} (hl : ∀ x ∈ l, x.isFin = true) {mean : FVal} (hmean : mean ≠ .nan) :
    ∀ q ∈ rowSquares l mean, q ≠ .nan := by
  intro q hq
  obtain ⟨x, hx, rfl⟩ := List.mem_map.1 hq
  have hdev : fsub x mean ≠ .nan := round_ne_nan (add_ne_nan_of_isFin (hl x hx) (neg_ne_nan hmean))
  exact round_ne_nan (mul_self_ne_nan hdev)

/-! ### A row's variance -/

theorem rowVariance_of_isFin {l : List FVal} (h : (exactSum l).isFin = true) :
    rowVariance l = (exactSum (rowSquares l (rowMean l))).divNat l.length := by
  simp [rowVariance, h]

theorem rowVariance_notNeg (l : List FVal) : (rowVariance l).NotNeg := by
  by_cases h : (exactSum l).isFin = true
  · rw [rowVariance_of_isFin h]
    exact divNat_notNeg (exactSum_notNeg rowSquares_notNeg) _
  · simp [rowVariance, h, FVal.NotNeg]

section
variable {l : List FVal} (hl : ∀ x ∈ l, x.isFin = true)
include hl

theorem rowSum_ne_nan : rowSum l ≠ .nan := round_ne_nan (isFin_ne_nan (exactSum_isFin hl))

variable (hne : l ≠ [])
include hne

theorem rowMean_ne_nan : rowMean l ≠ .nan :=
  divNat_ne_nan (by simpa using hne) (isFin_ne_nan (exactSum_isFin hl))

theorem rowVariance_ne_nan : rowVariance l ≠ .nan := by
  rw [rowVariance_of_isFin (exactSum_isFin hl)]
  exact divNat_ne_nan (by simpa using hne)
    (exactSum_ne_nan fun q hq => ⟨rowSquares_notNeg q hq, rowSquares_ne_nan hl (rowMean_ne_nan hl hne) q hq⟩)

end

/-! ### A row of equal elements -/

theorem round_zero (e : Int) : (FVal.fin 0 e).round = .zero := by
  simp [FVal.round]

/-- A value of FP32 is kept by rounding, whatever unit it is written in. -/
theorem round_exact {m : Nat} {e : Int} (hm : m ≠ 0) (hbits : bitLen m ≤ 24) (hlow : -126 ≤ leadExp m e) (hhigh : leadExp m e < 128) (j : Nat) :
    (FVal.fin (m * 2 ^ j) (e - j)).round = .fin (m * 2 ^ (e - (leadExp m e - 23)).toNat) (leadExp m e - 23) := by
  have hunit : leadExp m e - 23 ≤ e := by
    simp only [leadExp]
    omega
  have hcast (k : Nat) : (m : Int) * 2 ^ k = ((m * 2 ^ k : Nat) : Int) := by push_cast; rfl
  have hpos : m * 2 ^ j ≠ 0 := by positivity
  have hlead : leadExp (m * 2 ^ j) (e - j) = leadExp m e := by rw [leadExp_mul_two_pow hm, sub_add_cancel]
  have hlead' : leadExp (m * 2 ^ (e - (leadExp m e - 23)).toNat) (leadExp m e - 23) = leadExp m e := by
    rw [leadExp_mul_two_pow hm]
    congr 1
    omega
  rw [hcast, hcast, FVal.round]
  dsimp only
  rw [Int.natAbs_natCast, hlead, roundAt_exact hunit, hlead', if_neg (by exact_mod_cast hpos), if_neg (not_lt.2 hlow),
    if_neg (not_le.2 hhigh), if_neg (by omega)]

theorem foldl_add_replicate (a m e : Int) (n : Nat) : (List.replicate n (FVal.fin m e)).foldl FVal.add (.fin a e) = .fin (a + n * m) e := by
  induction n generalizing a with
  | zero => simp
  | succ n ih =>
    rw [List.replicate_succ, List.foldl_cons, add_same_unit, ih]
    congr 1
    push_cast
    ring

theorem exactSum_replicate {n : Nat} (hn : n ≠ 0) (m e : Int) : exactSum (List.replicate n (.fin m e)) = .fin (n * m) e := by
  obtain ⟨k, rfl⟩ := Nat.exists_eq_succ_of_ne_zero hn
  have hfirst : FVal.zero.add (.fin m e) = .fin m e := by simp [FVal.add, FVal.zero]
  rw [exactSum, List.replicate_succ, List.foldl_cons, hfirst, foldl_add_replicate]
  congr 1
  push_cast
  ring

/-- n equal elements divided by n give the element, written in a finer unit, rounded (R65). -/
theorem divNat_mul {n : Nat} (hn : n ≠ 0) (m : Nat) (e : Int) :
    ∃ j : Nat, (FVal.fin (n * m) e).divNat n = (FVal.fin (m * 2 ^ j) (e - j)).round := by
  refine ⟨30 + bitLen n + 1, ?_⟩
  have habs : ((n : Int) * m).natAbs * 2 ^ (30 + bitLen n) = n * (m * 2 ^ (30 + bitLen n)) := by
    rw [← Nat.cast_mul, Int.natAbs_natCast, mul_assoc]
  have hpos : ¬ (n : Int) * m < 0 := not_lt.2 (by positivity)
  rw [FVal.divNat]
  dsimp only
  rw [if_neg hn, habs, Nat.mul_mod_right, Nat.mul_div_cancel_left _ (Nat.pos_of_ne_zero hn), if_pos rfl, if_neg hpos]
  congr 2
  · push_cast
    ring
  · push_cast
    ring

/-- A value and its negation, written in a finer unit, cancel. -/
theorem add_neg_finer_unit {e l : Int} (h : l ≤ e) (m : Int) : ∃ g, (FVal.fin m e).add (.fin (-(m * 2 ^ (e - l).toNat)) l) = .fin 0 g := by
  rw [FVal.add]
  split_ifs with hm hn
  · exact ⟨l, by rw [hm, zero_mul, neg_zero]⟩
  · have hzero : m = 0 := by simpa using hn
    exact absurd hzero hm
  · refine ⟨l, ?_⟩
    simp only [min_eq_right h, sub_self, Int.toNat_zero, pow_zero, mul_one, add_neg_cancel]

/-- An FP32 element minus the mean of a row of such elements is zero (R67). -/
theorem fsub_mean_replicate {n m : Nat} {e : Int} (hn : n ≠ 0) (hbits : bitLen m ≤ 24) (hlow : -126 ≤ leadExp m e) (hhigh : e ≤ 104) :
    fsub (.fin m e) (rowMean (List.replicate n (.fin m e))) = .zero := by
  obtain ⟨j, hj⟩ := divNat_mul hn m e
  rw [rowMean, exactSum_replicate hn, List.length_replicate, hj]
  by_cases hm : m = 0
  · subst hm
    simp [round_zero, fsub, FVal.neg, FVal.zero, FVal.add]
  · have hrange : leadExp m e - 23 ≤ e ∧ leadExp m e < 128 := by
      simp only [leadExp]
      omega
    obtain ⟨hunit, hmax⟩ := hrange
    obtain ⟨g, hg⟩ := add_neg_finer_unit hunit m
    rw [round_exact hm hbits hlow hmax, fsub, FVal.neg, hg, round_zero]

theorem fmul_zero_zero : fmul .zero .zero = .zero := by
  simp [fmul, FVal.mul, FVal.zero, round_zero]

/-- A row of equal FP32 elements has squares and a variance of +0 (R67). -/
theorem rowVariance_replicate {n m : Nat} {e : Int} (hn : n ≠ 0) (hbits : bitLen m ≤ 24) (hlow : -126 ≤ leadExp m e) (hhigh : e ≤ 104) :
    rowVariance (List.replicate n (.fin m e)) = .zero := by
  have hsquares : rowSquares (List.replicate n (.fin m e)) (rowMean (List.replicate n (.fin m e))) = List.replicate n (.fin (0 : Nat) 0) := by
    simp only [rowSquares, List.map_replicate, fsub_mean_replicate hn hbits hlow hhigh, fmul_zero_zero]
    rfl
  obtain ⟨j, hj⟩ := divNat_mul hn 0 0
  rw [rowVariance_of_isFin (by rw [exactSum_replicate hn]; rfl), hsquares, exactSum_replicate hn, List.length_replicate, hj]
  simp [round_zero]

/-- Settles O21: the squares are not negative and a sum and a quotient keep that; deviations of finite elements are never NaN, and those of
equal elements are +0. -/
theorem varianceNotNegative : Obligations.VarianceNotNegative := by
  refine ⟨fun l => ?notNeg, fun l hl hne => ⟨rowSum_ne_nan hl, rowMean_ne_nan hl hne, rowVariance_ne_nan hl hne⟩,
    fun n m e hn hbits _ hhigh hlow => rowVariance_replicate hn.ne' hbits hlow hhigh⟩
  case notNeg =>
    have h := rowVariance_notNeg l
    exact ⟨fun hinf => by simp [hinf, FVal.NotNeg] at h, fun m e hfin => by rwa [hfin] at h⟩

end Sys2Proof.Machine
end

