-- ==== Sys2Proof/Proofs/GuardColumn.lean ====
section
/-! The residue check of the arrays (R98 to R102): residues are the integers modulo 255, and the sum over columns and the sum over K
indices of a tile exchange. -/

namespace Sys2Proof.Machine

/-! ### Residues -/

theorem residue_cast (x : Int) : (residue x : Int) = x % 255 :=
  Int.toNat_of_nonneg (Int.emod_nonneg x (by decide))

theorem residue_modEq (x : Int) : (residue x : Int) ≡ x [ZMOD 255] := by
  rw [residue_cast]
  exact Int.mod_modEq x 255

theorem residue_eq_iff {x y : Int} : residue x = residue y ↔ x ≡ y [ZMOD 255] := by
  rw [← Int.natCast_inj, residue_cast, residue_cast, Int.ModEq]

theorem residue_lt (x : Int) : residue x < 255 := by
  have := Int.emod_lt_of_pos x (show (0 : Int) < 255 by decide)
  have := residue_cast x
  omega

theorem sum_modEq {α : Type} {l : List α} {f g : α → Int} {n : Int} (h : ∀ a, f a ≡ g a [ZMOD n]) :
    (l.map f).sum ≡ (l.map g).sum [ZMOD n] := by
  induction l with
  | nil => rfl
  | cons a l ih =>
    rw [List.map_cons, List.map_cons, List.sum_cons, List.sum_cons]
    exact (h a).add ih

/-! ### A row of activations against weights by K index -/

/-- The sum of the products of a row's significands with an integer at each K index. -/
def weighted (row : List FVal) (w : Nat → Int) : Int :=
  ((List.range row.length).map fun k => (row.getD k .zero).sig * w k).sum

theorem map_getD_range {α : Type} (l : List α) (d : α) {n : Nat} (h : l.length = n) : (List.range n).map (fun k => l.getD k d) = l := by
  subst h
  exact List.ext_getElem (by simp) fun k h _ => by
    have hk : k < l.length := by simpa using h
    simp [hk]

/-- The significand sum of a column as long as the row. -/
theorem sigSum_eq_weighted {row col : List FVal} (h : col.length = row.length) : sigSum row col = weighted row fun k => (col.getD k .zero).sig := by
  conv_lhs => rw [sigSum, ← map_getD_range row .zero rfl, ← map_getD_range col .zero h, List.zip_map', List.map_map]
  rfl

/-- The guard column's sum, whatever its residues. -/
theorem guardSum_map_range (row : List FVal) (g : Nat → Nat) :
    guardSum row ((List.range row.length).map g) = residue (weighted row fun k => (g k : Int)) := by
  conv_lhs => rw [guardSum, ← map_getD_range row .zero rfl, List.length_map, List.length_range, List.zip_map', List.map_map]
  rfl

theorem weighted_modEq (row : List FVal) {v w : Nat → Int} {n : Int} (h : ∀ k, v k ≡ w k [ZMOD n]) : weighted row v ≡ weighted row w [ZMOD n] :=
  sum_modEq fun k => (h k).mul_left _

theorem weighted_zero (row : List FVal) : (weighted row fun _ => 0) = 0 := by
  simp [weighted]

theorem weighted_add (row : List FVal) (v w : Nat → Int) : (weighted row fun k => v k + w k) = weighted row v + weighted row w := by
  simp only [weighted, mul_add, List.sum_map_add]

/-- The weights of several columns, summed, give the sum of what each gives. -/
theorem weighted_sum (row : List FVal) (cols : List (List FVal)) :
    (weighted row fun k => (cols.map fun c => (c.getD k .zero).sig).sum) = (cols.map fun c => weighted row fun k => (c.getD k .zero).sig).sum := by
  induction cols with
  | nil => exact weighted_zero row
  | cons c cols ih =>
    simp only [List.map_cons, List.sum_cons, weighted_add, ih]

/-! ### The two sums of the check -/

/-- The drain's sum is the residue of the sum of all columns' significand sums (R100). -/
theorem drainSum_eq (row : List FVal) (cols : List (List FVal)) : drainSum row cols = residue (cols.map (sigSum row)).sum :=
  residue_eq_iff.2 (sum_modEq fun c => residue_modEq (sigSum row c))

/-- So is the guard column's, formed from the residues at each K index (R99). -/
theorem guardSum_eq (row : List FVal) (cols : List (List FVal)) (h : ∀ c ∈ cols, c.length = row.length) :
    guardSum row (guardResidues row.length cols) = residue (cols.map (sigSum row)).sum := by
  have hcols : (cols.map fun c => weighted row fun k => (c.getD k .zero).sig).sum = (cols.map (sigSum row)).sum :=
    congrArg List.sum (List.map_congr_left fun c hc => (sigSum_eq_weighted (h c hc)).symm)
  rw [guardResidues, guardSum_map_range, residue_eq_iff, ← hcols, ← weighted_sum]
  exact weighted_modEq row fun k => residue_modEq _

/-- One column replaced changes the sum of the columns by the difference of their significand sums. -/
theorem sum_sigSum_set {row c : List FVal} {cols : List (List FVal)} {n : Nat} (h : cols[n]? = some c) (c' : List FVal) :
    ((cols.set n c').map (sigSum row)).sum = (cols.map (sigSum row)).sum + (sigSum row c' - sigSum row c) := by
  induction cols generalizing n with
  | nil => simp at h
  | cons b cols ih =>
    cases n with
    | zero =>
      obtain rfl : b = c := by simpa using h
      simp only [List.set_cons_zero, List.map_cons, List.sum_cons]
      ring
    | succ n =>
      simp only [List.set_cons_succ, List.map_cons, List.sum_cons, ih (by simpa using h)]
      ring

/-- Settles O18: both sums are the residue of one double sum over columns and K indices, and a residue tells integers apart modulo 255. -/
theorem guardColumn : Obligations.GuardColumn := by
  refine ⟨fun x => ⟨residue_lt x, residue_modEq x⟩, fun row cols h => (guardSum_eq row cols h).trans (drainSum_eq row cols).symm,
    fun row cols n c c' hc hne heq => hne ?_⟩
  rw [drainSum_eq, drainSum_eq, residue_eq_iff, sum_sigSum_set hc] at heq
  rw [Int.ModEq] at heq
  omega

end Sys2Proof.Machine
end

