-- ==== Sys2Proof/Proofs/ArrayRamps.lean ====
section
/-! The arrays' drumroll: passes that are issued, steps of a ramp, and the end of the idle hold (R75, R90 to R93). -/

namespace Sys2Proof.Machine

/-! ### One step of a ramp -/

theorem lowestGroup_eq_some {g : BitVec 8} {on : Bool} {j : Nat} (hj : j < 8) (hlow : ∀ i < j, g.getLsbD i = !on) (h : g.getLsbD j = on) :
    lowestGroup g on = some j :=
  List.find?_range_eq_some.2 ⟨by simpa using h, List.mem_range.2 hj, fun i hi => by simp [hlow i hi]⟩

theorem Cell.ramp_up {a : Cell} (h : a.arr = .rampUp) {j : Nat} (hj : lowestGroup a.groups false = some j) :
    a.ramp = { a with groups := a.groups ||| BitVec.ofNat 8 (2 ^ j) } := by
  simp only [Cell.ramp, h, hj]

theorem Cell.ramp_up_end {a : Cell} (h : a.arr = .rampUp) (hg : a.groups = 0xFF) : a.ramp = Cell.prune { a with arr := .running } := by
  have hnone : lowestGroup a.groups false = none := by rw [hg]; decide
  simp only [Cell.ramp, h, hnone]

theorem Cell.ramp_down {a : Cell} (h : a.arr = .rampDown) {j : Nat} (hj : lowestGroup a.groups true = some j) :
    a.ramp = { a with
      groups := a.groups &&& ~~~ BitVec.ofNat 8 (2 ^ j)
      arr := if a.groups &&& ~~~ BitVec.ofNat 8 (2 ^ j) = 0 then .stopped else .rampDown } := by
  simp only [Cell.ramp, h, hj]

theorem Cell.ramp_other {a : Cell} (h : a.arr = .stopped ∨ a.arr = .running ∨ a.arr = .idleHold) : a.ramp = a := by
  rcases h with h | h | h <;> simp only [Cell.ramp, h]

/-! ### A pass issued -/

/-- An event counts in the observation units only (R332). -/
theorem Upd.run_event (e ev n : Nat) (d : Device) : ∃ o, (Upd.event e ev n).run d = d.signalled d.rf.ctrs o d.fl d.ho := by
  simp only [Upd.event, Upd.run_read, Upd.run_when]
  split_ifs
  · exact ⟨_, rfl⟩
  · exact ⟨d.ob, rfl⟩

/-- The array with a pass issued (R91): one that is STOPPED or going down begins its way up, one in IDLE_HOLD runs. -/
def Cell.taking (a : Cell) (cycles : Nat) (p : Pass) : Cell := { a with
  nextPass := a.nextPass + 1
  passes := a.passes ++ [p]
  rampLen := if a.arr = .stopped ∨ a.arr = .rampDown then cycles else a.rampLen
  groups := if a.arr = .stopped then 1 else a.groups
  arr := match a.arr with
    | .stopped | .rampDown => .rampUp
    | .idleHold => .running
    | x => x }

theorem Cell.taking_ramps {a : Cell} (h : a.arr = .stopped ∨ a.arr = .rampDown) (cycles : Nat) (p : Pass) :
    a.taking cycles p = { a with
      nextPass := a.nextPass + 1, passes := a.passes ++ [p], rampLen := cycles,
      groups := if a.arr = .stopped then 1 else a.groups, arr := .rampUp } := by
  rcases h with h | h <;> simp only [Cell.taking, h, true_or, or_true, if_true]

theorem Cell.taking_held {a : Cell} (h : a.arr = .idleHold) (cycles : Nat) (p : Pass) :
    a.taking cycles p = { a with nextPass := a.nextPass + 1, passes := a.passes ++ [p], arr := .running } := by
  simp [Cell.taking, h]

theorem Cell.taking_busy {a : Cell} (h : a.arr = .running ∨ a.arr = .rampUp) (cycles : Nat) (p : Pass) :
    a.taking cycles p = { a with nextPass := a.nextPass + 1, passes := a.passes ++ [p] } := by
  rcases h with h | h <;> simp [Cell.taking, h]

/-- The device with a pass issued, whose operands the next free value names (log 43). -/
def Device.taking (d : Device) (e c : Nat) (p : Pass) : Device :=
  { d.withCell e c ((d.cell e c).taking (d.rampCycles e c) p) with free := d.free + 1 }

/-! ### The three commands -/

section
variable {e c : Nat} {s : State} (he : e < 32) (hc : c < 4)
include he hc

theorem exec_rampStep_eq (hup : s.dev.arrayUp e c = true) :
    exec (.rampStep e c) s = .next { s with dev := s.dev.withCell e c (s.dev.cell e c).ramp } := by
  refine (State.act_wf s _ _ (by simp [Instr.wf, he, hc])).trans ?_
  simp only [Upd.run_read, hup, Upd.when_true, Upd.run_cell]

theorem exec_idleHoldExpiry_eq (hon : s.dev.arrayOn e c = true) (h : (s.dev.cell e c).arr = .idleHold) :
    exec (.idleHoldExpiry e c) s = .next { s with
      dev := s.dev.withCell e c (Cell.ramp { s.dev.cell e c with arr := .rampDown, rampLen := s.dev.rampCycles e c }) } := by
  refine (State.act_wf s _ _ (by simp [Instr.wf, he, hc])).trans ?_
  simp only [Upd.run_read, hon, h, decide_true, Bool.and_self, Upd.when_true, Upd.run_cell]

theorem exec_idleHoldExpiry_none (h : (s.dev.cell e c).arr ≠ .idleHold) : exec (.idleHoldExpiry e c) s = .next s := by
  refine (State.act_wf s _ _ (by simp [Instr.wf, he, hc])).trans ?_
  simp only [Upd.run_read, h, decide_false, Bool.and_false, Upd.when_false, Upd.run_skip]

end

section
variable {e c rate tileK tileN rows : Nat} {accIn : Bool} {groupBase : Nat} {final : Bool} {s : State}

/-- A pass that does not fit, or of an engine whose reset is due, changes nothing (R93, R96). -/
theorem exec_passIssue_none (h : s.dev.width e c < tileN ∨ 128 * rate < tileK ∨ s.dev.resetDue e = true) :
    exec (.passIssue e c rate tileK tileN rows accIn groupBase final) s = .next s := by
  cases hwf : (Instr.passIssue e c rate tileK tileN rows accIn groupBase final).wf
  case false => exact State.act_ill s _ _ hwf
  case true =>
    refine (State.act_wf s _ _ hwf).trans ?_
    rw [Upd.run_read, Upd.run_when, if_neg]
    simp only [Device.arrayOn, outside, Bool.and_eq_true, Bool.not_eq_true', Bool.or_eq_false_iff, decide_eq_true_eq,
      decide_eq_false_iff_not, not_lt]
    rintro ⟨⟨⟨⟨⟨⟨-, hdue⟩, -⟩, hk⟩, hn⟩, -⟩, -⟩
    rcases h with h | h | h
    · omega
    · omega
    · simp [hdue] at h

/-- One that fits is queued; a ramp that begins is counted (R75, R91, log 121). -/
theorem exec_passIssue_eq (hwf : (Instr.passIssue e c rate tileK tileN rows accIn groupBase final).wf = true)
    (hon : s.dev.arrayOn e c = true) (hrate : rate = 1 ∨ rate = 2 ∨ rate = 4) (hk : 1 ≤ tileK ∧ tileK ≤ 128 * rate)
    (hn : 1 ≤ tileN ∧ tileN ≤ s.dev.width e c) (hrows : 1 ≤ rows ∧ rows < 2 ^ 32) (hbase : groupBase % 32 = 0) :
    exec (.passIssue e c rate tileK tileN rows accIn groupBase final) s = .next { s with
      dev := (Upd.when ((s.dev.cell e c).arr = .stopped || (s.dev.cell e c).arr = .rampDown)
        (.all [.count (arrPage e c + 0x98), .cellEvent e c 0x07 1])).run
        (s.dev.taking e c ⟨(s.dev.cell e c).nextPass + 1, rate, tileK, tileN, rows, accIn, groupBase, s.dev.free, false, final⟩) } := by
  refine (State.act_wf s _ _ hwf).trans ?_
  have hfits : (s.dev.arrayOn e c && (rate = 1 || rate = 2 || rate = 4) && !outside tileK 1 (128 * rate) && !outside tileN 1 (s.dev.width e c) &&
      !outside rows 1 (2 ^ 32 - 1) && groupBase % 32 = 0) = true := by
    simp [outside, hon, hbase]
    omega
  rw [Upd.run_read, Upd.run_when, if_pos hfits]
  rfl

end

/-- Settles O27: PASS_ISSUE queues the pass with the array's next state, and the two others are steps of a ramp, which the lowest group decides. -/
theorem arrayRamps : Obligations.ArrayRamps := by
  intro e c rate tileK tileN rows accIn groupBase final s he hc hup
  have hon (hdue : s.dev.resetDue e = false) : s.dev.arrayOn e c = true := by simp [Device.arrayOn, hup, hdue]
  refine ⟨fun hdue hwf hk1 hk hn1 hn hr1 hr hbase hrate => ?issue, exec_passIssue_none, fun j harr hj hlow hbit => ?up, fun harr hg => ?upEnd,
    fun j harr hj hlow hbit => ?down, fun harr => ?other, fun hdue harr hg => ?expiry, exec_idleHoldExpiry_none he hc⟩
  case issue =>
    have hex := exec_passIssue_eq hwf (hon hdue) hrate ⟨hk1, hk⟩ ⟨hn1, hn⟩ ⟨hr1, hr⟩ hbase
    refine ⟨fun harr => ?ramps, fun harr => ?held, fun harr => ?busy⟩
    case ramps =>
      have hcounts : (Decidable.decide ((s.dev.cell e c).arr = .stopped) || Decidable.decide ((s.dev.cell e c).arr = .rampDown)) = true := by
        simpa using harr
      rw [hcounts, Upd.when_true, Upd.run_pair, Upd.run_count, Device.taking, Cell.taking_ramps harr] at hex
      obtain ⟨o, hevent⟩ := Upd.run_event ..
      rw [Upd.cellEvent, hevent] at hex
      exact ⟨_, hex, rfl, rfl, rfl, rfl, rfl⟩
    case held =>
      simpa only [harr, reduceCtorEq, decide_false, Bool.or_self, Upd.when_false, Upd.run_skip, Device.taking, Cell.taking_held harr] using hex
    case busy =>
      have hquiet : (Decidable.decide ((s.dev.cell e c).arr = .stopped) || Decidable.decide ((s.dev.cell e c).arr = .rampDown)) = false := by
        rcases harr with h | h <;> simp [h]
      rwa [hquiet, Upd.when_false, Upd.run_skip, Device.taking, Cell.taking_busy harr] at hex
  case up => rw [exec_rampStep_eq he hc hup, Cell.ramp_up harr (lowestGroup_eq_some hj hlow hbit)]
  case upEnd => rw [exec_rampStep_eq he hc hup, Cell.ramp_up_end harr hg]
  case down => rw [exec_rampStep_eq he hc hup, Cell.ramp_down harr (lowestGroup_eq_some hj hlow hbit)]
  case other => rw [exec_rampStep_eq he hc hup, Cell.ramp_other harr]
  case expiry =>
    rw [exec_idleHoldExpiry_eq he hc (hon hdue) harr, Cell.ramp_down rfl (j := 0) (by simp only [hg]; decide)]
    simp [hg]

end Sys2Proof.Machine
end

