-- ==== Sys2Proof/Proofs/RepeatedKeys.lean ====
section
/-! States whose tables list a key twice. Writing a reset value takes the first entry of its key out of a table (`put`), so that a read then
finds the second entry and not what was written. `put` makes no such table (`put_sorted`), and none stands in a reset state; but the invariant
of the model says nothing of the tables of engines and cells, and a statement over every state speaks of these, too. -/

namespace Sys2Proof.Machine

/-- What is seen of the device in a next state. -/
def seenNext {α : Type} (f : Device → α) : Host.Outcome State Fault Refusal → Option α
  | .next u => some (f u.dev)
  | _ => none

/-! ### An engine listed twice -/

/-- A ready device whose engine 0 runs a command of slot 0 that is to stop. Behind the engine's entry, which is that of an engine at reset but for
what it runs, stands a second one, where slot 0 is a suspect. -/
def engineTwice : State :=
  { dev := { clk := { power := .ready }, q := {
      slots := [(0, { state := .active, cur := some {}, stopReq := true })]
      engines := [(0, { run := some 0 }), (0, { suspects := [0] })] } } }

/-- The command is parked, which uncovers the second entry; the suspect that is found there is cleared (R369). -/
theorem engineTwice_stop : seenNext (fun d => (d.eng 0).suspects) (exec (.tileBoundary 0) engineTwice) = some [] := by
  decide

/-- Refutes O14: a stop leaves more than the engine's first entry without its command; in a table that lists the engine twice the suspect of
the second entry is cleared as well. -/
theorem not_tileBoundaries : ¬ Obligations.TileBoundaries := by
  intro h
  obtain ⟨-, -, -, -, -, -, -, hstop, -, -⟩ := h 0 engineTwice ⟨0, 0, 0, {}⟩ (by decide) rfl rfl rfl
  have hseen := congrArg (seenNext fun d => (d.eng 0).suspects) (hstop (by decide) rfl rfl rfl rfl)
  have hkept : some [] = some [0] := engineTwice_stop.symm.trans hseen
  cases hkept

/-! ### A cell listed twice -/

/-- A ready device that lists its first cell twice: an array at reset, and behind it one with a row in its drain buffer. -/
def cellTwice : State :=
  { dev := { clk := { power := .ready }, q := { cells := [(0, {}), (0, { drain := [{}] })] } } }

/-- No staging buffer is freed, which uncovers the second entry; the row that is found there is committed (R78). -/
theorem cellTwice_commit : seenNext (fun d => (d.cell 0 0).drain) (exec (.rowCommit 0 0 0) cellTwice) = some [] := by
  decide

/-- Refutes O28: a ROW_COMMIT of a cell whose drain buffer is empty does more than free staging buffers; in a table that lists the cell twice
the row of the second entry is committed. -/
theorem not_arrayRows : ¬ Obligations.ArrayRows := by
  rintro ⟨-, -, hcommit, -⟩
  obtain ⟨hempty, -⟩ := hcommit 0 0 0 cellTwice (by decide) (by decide) (by decide) (by decide) rfl
  have hseen := congrArg (seenNext fun d => (d.cell 0 0).drain) (hempty rfl)
  have hkept : some [] = some [({} : RowFlight)] := cellTwice_commit.symm.trans hseen
  cases hkept

end Sys2Proof.Machine
end

