-- ==== Sys2Proof/Proofs/Microprograms.lean ====
section
/-! The function table: a command of UP_CMD carried out, the image of a LOADING index read and checked, and the end of a rewrite (R114 to R117,
R132, R421). -/

namespace Sys2Proof.Machine

/-! ### Reading a range leaves all but the controllers and what signals -/

theorem fixesCore_startSpare (pa : Nat) : (Upd.startSpare pa).Fixes Device.core :=
  fixes_read fun d => by
    dsimp only
    split_ifs
    · exact fixes_skip
    · exact ⟨fun _ => rfl⟩
    · exact quiet_core (quiet_error _ _ _ _ _)
    · exact ⟨fun _ => rfl⟩

theorem fixesCore_corrected (line : Nat) : (Upd.corrected line).Fixes Device.core :=
  fixes_read fun _ => fixes_cons ⟨fun _ => rfl⟩ <| fixes_cons (quiet_core (quiet_sat _)) <| fixes_cons (quiet_core (quiet_error _ _ _ _ _)) <|
    fixes_cons ⟨fun _ => rfl⟩ <| fixes_cons (fixes_when (fixesCore_startSpare _)) fixes_nil

theorem quiet_uncorrectable (pa : Nat) (scrub : Bool) : (Upd.uncorrectable pa scrub).Quiet :=
  quiet_read fun _ => quiet_three (quiet_when fun _ => quiet_sat _) (quiet_when fun _ => quiet_pair (quiet_setReg _ _) (quiet_setReg _ _))
    (quiet_ite (quiet_error _ _ _ _ _) (quiet_raise _ _))

theorem fixesCore_touch (pa len : Nat) : (Upd.touch pa len).Fixes Device.core :=
  fixes_each fun l => fixes_read fun d => fixes_cons (quiet_core (quiet_count _ _)) <| fixes_cons (by
    split
    · exact fixes_skip
    · exact fixesCore_corrected l
    · exact quiet_core (quiet_uncorrectable _ _)) fixes_nil

/-- The queues, the function table and the measurement log are as before the range was read. -/
theorem Upd.touch_units (pa len : Nat) (d : Device) :
    ((Upd.touch pa len).run d).q = d.q ∧ ((Upd.touch pa len).run d).sfu = d.sfu ∧ ((Upd.touch pa len).run d).se = d.se := by
  have hcore := (fixesCore_touch pa len).same d
  simp only [Device.core, Prod.mk.injEq] at hcore
  tauto

/-! ### The function table -/

/-- The function table with an index replaced. -/
def Sfu.withFn (u : Sfu) (i : Nat) (f : Fn) : Sfu := { u with fns := put u.fns i f (builtinFn i) }

/-- An index of the function table replaced. -/
def Device.withFn (d : Device) (i : Nat) (f : Fn) : Device := { d with sfu := d.sfu.withFn i f }

/-- A function that is RETIRING and else unchanged (R117). -/
def Fn.retired (f : Fn) : Fn := { f with state := .retiring }

/-- The commands taken that are not carried out yet, replaced. -/
def Device.withCommands (d : Device) (l : List (Nat × Nat × Nat × Nat)) : Device := { d with sfu := { d.sfu with commands := l } }

/-- The images that are to be read, replaced. -/
def Device.withLoads (d : Device) (l : List (Nat × Nat × Nat)) : Device := { d with sfu := { d.sfu with loads := l } }

/-- UP_STATUS with a state and a result. -/
def Device.withUpStatus (d : Device) (state result : Nat) : Device := d.withReg (sfuDevPage + 0x50) (BitVec.ofNat 32 (state + result * 256))

/-- A log of measurement index 5 with one entry more (R421). -/
def extendUpLog (log : List Byte) (op index : Nat) (digest : List Byte) : List Byte :=
  sha384 ((log ++ List.replicate 48 0).take 48 ++ toBytes 1 op ++ toBytes 1 index ++ digest)

/-- The log extended. -/
def Device.withUpLog (d : Device) (op index : Nat) (digest : List Byte) : Device :=
  { d with se := { d.se with upLog := extendUpLog d.se.upLog op index digest } }

theorem Device.withUpLog_upLog (d : Device) (op i : Nat) (digest : List Byte) :
    (d.withUpLog op i digest).se.upLog = extendUpLog d.se.upLog op i digest := by rw [Device.withUpLog]

theorem Upd.run_fn (i : Nat) (g : Fn → Fn) (d : Device) : (Upd.fn i g).run d = d.withFn i (g (d.fn i)) := rfl
theorem Upd.run_upStatus (state result : Nat) (d : Device) : (Upd.upStatus state result).run d = d.withUpStatus state result := rfl
theorem Upd.run_upLog (op i : Nat) (digest : List Byte) (d : Device) : (Upd.upLog op i digest).run d = d.withUpLog op i digest := rfl

/-- No index is RETIRING from boot on (R114, R116). -/
theorem builtinFn_state (i : Nat) : (builtinFn i).state ≠ .retiring := by
  unfold builtinFn
  split
  · exact FnState.noConfusion
  · split_ifs <;> decide

theorem ne_builtinFn {f : Fn} (h : f.state = .retiring) (i : Nat) : f ≠ builtinFn i := fun e => builtinFn_state i (e ▸ h)

/-- An index reads as it was last written, when it was made RETIRING. -/
theorem Device.fn_withFn (d : Device) {i : Nat} {f : Fn} (h : f.state = .retiring) : (d.withFn i f).fn i = f := look_put_ne _ (ne_builtinFn h i)

/-- Another index stays as it was. -/
theorem Device.fn_withFn_other (d : Device) {i j : Nat} (f : Fn) (h : j ≠ i) : (d.withFn i f).fn j = d.fn j := look_put_other f _ _ h

/-- Where one index alone is RETIRING, it becomes FREE and its end is logged as soon as no command references it (R117, R421). -/
theorem Upd.run_freeFns_one {d : Device} {m : Sparse Fn} {i : Nat} {f : Fn} (hm : ∀ p ∈ m, p.2.state ≠ .retiring) (hf : f.state = .retiring)
    (hfns : d.sfu.fns = put m i f (builtinFn i)) :
    Upd.freeFns.run d = if f.refs = 0 then (d.withFn i {}).withUpLog 2 i f.digest else d := by
  have hpick : (d.sfu.fns.filter fun p => p.2.state = .retiring && p.2.refs = 0) = if f.refs = 0 then [(i, f)] else [] := by
    rw [hfns, filter_put (fun p hp => by simp [hm p hp]) (ne_builtinFn hf i)]
    simp [hf]
  rw [Upd.freeFns, Upd.run_read, hpick]
  split_ifs <;> rfl

/-! ### A command of UP_CMD -/

theorem exec_microprogRegister_eq (s : State) : exec .microprogRegister s = .next { s with dev := (Upd.upCommand 1).run s.dev } :=
  State.act_wf s _ _ rfl

theorem exec_microprogUnregister_eq (s : State) : exec .microprogUnregister s = .next { s with dev := (Upd.upCommand 2).run s.dev } :=
  State.act_wf s _ _ rfl

/-- The oldest command taken is of another kind, or there is none. -/
theorem Upd.run_upCommand_other {op : Nat} {d : Device} (h : d.sfu.commands.head?.map (·.1) ≠ some op) : (Upd.upCommand op).run d = d := by
  rw [Upd.upCommand, Upd.run_read]
  cases hc : d.sfu.commands with
  | nil => rfl
  | cons c later =>
    have hop : c.1 ≠ op := by simpa [hc] using h
    simp only [hop, decide_false, Bool.and_false, Upd.when_false, Upd.run_skip]

section
variable {d : Device} {op named addr len : Nat} {later : List (Nat × Nat × Nat × Nat)} (hup : d.up = true)
  (hc : d.sfu.commands = (op, named, addr, len) :: later)
include hup hc

/-- A built-in function is neither registered nor unregistered. -/
theorem Upd.run_upCommand_builtin (h : named < 64) : (Upd.upCommand op).run d = (d.withCommands later).withUpStatus 3 1 := by
  simp only [Upd.upCommand, Upd.run_read, hc, hup, h, decide_true, Bool.and_self, Upd.when_true, if_true, Upd.run_pair, Upd.run_upStatus]
  rfl

/-- An index in the wrong state is not registered (R116), nor unregistered (R117). -/
theorem Upd.run_upCommand_wrongState (h : 64 ≤ named) (hst : op = 1 ∧ (d.fn named).state ≠ .free ∨ op = 2 ∧ (d.fn named).state ≠ .active) :
    (Upd.upCommand op).run d = (d.withCommands later).withUpStatus 3 2 := by
  rcases hst with ⟨rfl, hst⟩ | ⟨rfl, hst⟩ <;>
    simp only [Upd.upCommand, Upd.run_read, hc, hup, h.not_gt, hst, decide_true, Bool.and_self, Upd.when_true, if_true, if_false, Upd.run_pair,
      Upd.run_upStatus, ne_eq, not_false_eq_true, OfNat.ofNat_ne_one] <;> rfl

/-- A FREE index that is registered is LOADING, and its image will be read (R116). -/
theorem Upd.run_upCommand_register (h : 64 ≤ named) (hop : op = 1) (hst : (d.fn named).state = .free) :
    (Upd.upCommand op).run d = (((d.withCommands later).withFn named { state := .loading }).withLoads
      (d.sfu.loads ++ [(named, addr, len)])).withUpStatus 1 0 := by
  simp only [Upd.upCommand, Upd.run_read, hc, hup, h.not_gt, hop, hst, decide_true, Bool.and_self, Upd.when_true, if_true, if_false, ne_eq,
    not_true_eq_false, Upd.run_all_cons, Upd.run_all_nil]
  rfl

/-- An ACTIVE index that is unregistered is RETIRING (R117), which UP_STATUS reports as done (log 147). -/
theorem Upd.run_upCommand_unregister (h : 64 ≤ named) (hop : op = 2) (hst : (d.fn named).state = .active) :
    (Upd.upCommand op).run d =
      Upd.freeFns.run (((d.withCommands later).withFn named (d.fn named).retired).withUpStatus 2 0) := by
  simp only [Upd.upCommand, Upd.run_read, hc, hup, h.not_gt, hop, hst, decide_true, Bool.and_self, Upd.when_true, if_false, ne_eq, not_true_eq_false,
    OfNat.ofNat_ne_one, Upd.run_all_cons, Upd.run_all_nil]
  rfl

/-- With no other index RETIRING it stays so while a command references it; else it is FREE and its end is logged. -/
theorem Upd.run_upCommand_retire (h : 64 ≤ named) (hop : op = 2) (hst : (d.fn named).state = .active)
    (hm : ∀ p ∈ d.sfu.fns, p.2.state ≠ .retiring) :
    (Upd.upCommand op).run d =
      let x := ((d.withCommands later).withFn named (d.fn named).retired).withUpStatus 2 0
      if (d.fn named).refs = 0 then (x.withFn named {}).withUpLog 2 named (d.fn named).digest else x :=
  (Upd.run_upCommand_unregister hup hc h hop hst).trans (Upd.run_freeFns_one (f := (d.fn named).retired) hm rfl rfl)

end

/-! ### The image of a LOADING index -/

/-- The image is refused: its index is FREE again, and UP_STATUS says why (R115, R116). -/
def Upd.refuseImage (index code : Nat) : Upd := .all [.fn index fun _ => {}, .upStatus 3 code]

theorem Upd.run_refuseImage (index code : Nat) (d : Device) :
    (Upd.refuseImage index code).run d = (d.withFn index {}).withUpStatus 3 code := rfl

/-- A function whose image was read whole takes its index, and the log is extended (R115, R421). -/
def Upd.activate (index : Nat) (f : Fn) : Upd := .all [.fn index fun _ => f, .upStatus 2 0, .upLog 1 index f.digest]

theorem Upd.run_activate (index : Nat) (f : Fn) (d : Device) :
    (Upd.activate index f).run d = ((d.withFn index f).withUpStatus 2 0).withUpLog 1 index f.digest := rfl

theorem Upd.activate_units (index : Nat) (f : Fn) (d : Device) :
    ((Upd.activate index f).run d).q = d.q ∧ ((Upd.activate index f).run d).sfu = d.sfu.withFn index f ∧
      ((Upd.activate index f).run d).se.upLog = extendUpLog d.se.upLog 1 index f.digest := by
  rw [Upd.run_activate]
  exact ⟨rfl, rfl, Device.withUpLog_upLog ..⟩

/-- The digest that an image of n steps must have (R109). -/
def imageDigest (b : List Byte) (n : Nat) : List Byte := sha384 (b.take 16 ++ (b.drop 64).take (8 * n))

/-- The checks of an image that the layout checks passed: its digest, its signatures, and that the store holds it (R114, R115, R410). -/
def Upd.checkFn (d : Device) (index : Nat) (b : List Byte) (f : Fn) : Upd :=
  if imageDigest b f.steps.length ≠ f.digest then .refuseImage index 6
  else if !d.imageSigned b f.steps.length then .refuseImage index 4
  else if d.storeUsed + storeBytesOf f.steps.length > 65536 then .refuseImage index 5
  else .activate index f

/-- The checks of an image that was read (R115). -/
def Upd.checkImage (d : Device) (index addr len : Nat) : Upd :=
  if (d.ueIn addr len).isSome then .refuseImage index 6
  else match readImage (d.bytesAt 0 addr len) with
    | none => .refuseImage index 3
    | some f => .checkFn d index (d.bytesAt 0 addr len) f

section
variable {s : State} {index addr len : Nat} (hi : index < 256) (hup : s.dev.up = true)
  (hfind : s.dev.sfu.loads.find? (·.1 = index) = some (index, addr, len)) (hst : (s.dev.fn index).state = .loading)
include hi hup hfind hst

/-- The image that the index waits for is read, when it lies where an image can, and checked (R115, log 132). -/
theorem exec_microprogLoaded_eq : exec (.microprogLoaded index) s = .next { s with
    dev := (if addr % 64 ≠ 0 || !populatedRange addr len then Upd.refuseImage index 3
      else .all [.touch addr len, .checkImage s.dev index addr len]).run (s.dev.withLoads (s.dev.sfu.loads.filter (·.1 ≠ index))) } := by
  refine (State.act_wf s _ _ (by simp [Instr.wf, hi])).trans ?_
  simp only [Upd.run_read, hfind, hup, hst, decide_true, Bool.and_self, Upd.when_true, Upd.run_pair]
  rfl

theorem exec_microprogLoaded_misplaced (h : addr % 64 ≠ 0 ∨ populatedRange addr len = false) : exec (.microprogLoaded index) s = .next { s with
    dev := ((s.dev.withLoads (s.dev.sfu.loads.filter (·.1 ≠ index))).withFn index {}).withUpStatus 3 3 } := by
  rw [exec_microprogLoaded_eq hi hup hfind hst, if_pos (by simpa using h), Upd.run_refuseImage]

theorem exec_microprogLoaded_read (ha : addr % 64 = 0) (hp : populatedRange addr len = true) : exec (.microprogLoaded index) s = .next { s with
    dev := (Upd.checkImage s.dev index addr len).run
      ((Upd.touch addr len).run (s.dev.withLoads (s.dev.sfu.loads.filter (·.1 ≠ index)))) } := by
  rw [exec_microprogLoaded_eq hi hup hfind hst, if_neg (by simp [ha, hp]), Upd.run_pair]

end

section
variable {d : Device} {index addr len : Nat}

theorem Upd.checkImage_unreadable (h : (d.ueIn addr len).isSome = true) : Upd.checkImage d index addr len = .refuseImage index 6 := if_pos h

theorem Upd.checkImage_malformed (hu : d.ueIn addr len = none) (h : readImage (d.bytesAt 0 addr len) = none) :
    Upd.checkImage d index addr len = .refuseImage index 3 := by
  simp [Upd.checkImage, hu, h]

theorem Upd.checkImage_formed {f : Fn} (hu : d.ueIn addr len = none) (h : readImage (d.bytesAt 0 addr len) = some f) :
    Upd.checkImage d index addr len = .checkFn d index (d.bytesAt 0 addr len) f := by
  simp [Upd.checkImage, hu, h]

end

section
variable {d : Device} {index : Nat} {b : List Byte} {f : Fn}

theorem Upd.checkFn_wrongDigest (h : imageDigest b f.steps.length ≠ f.digest) : Upd.checkFn d index b f = .refuseImage index 6 := if_pos h

theorem Upd.checkFn_unsigned (h : imageDigest b f.steps.length = f.digest) (hs : d.imageSigned b f.steps.length = false) :
    Upd.checkFn d index b f = .refuseImage index 4 := by
  simp [Upd.checkFn, h, hs]

theorem Upd.checkFn_full (h : imageDigest b f.steps.length = f.digest) (hs : d.imageSigned b f.steps.length = true)
    (hfull : 65536 < d.storeUsed + storeBytesOf f.steps.length) : Upd.checkFn d index b f = .refuseImage index 5 := by
  simp [Upd.checkFn, h, hs, hfull]

theorem Upd.checkFn_good (h : imageDigest b f.steps.length = f.digest) (hs : d.imageSigned b f.steps.length = true)
    (hfits : ¬ 65536 < d.storeUsed + storeBytesOf f.steps.length) : Upd.checkFn d index b f = .activate index f := by
  simp [Upd.checkFn, h, hs, hfits]

end

/-! ### A rewrite of the store -/

theorem exec_ustoreRewriteDone_eq {region index : Nat} {s : State} (hr : region < 4) (hi : index < 256) (hup : s.dev.up = true) :
    exec (.ustoreRewriteDone region index) s = .next { s with
      dev := { s.dev with sfu := { s.dev.sfu with rewrite := s.dev.sfu.rewrite.filter (· ≠ (region, index)) } } } := by
  refine (State.act_wf s _ _ (by simp [Instr.wf, hr, hi])).trans ?_
  simp only [Upd.run_read, hup, Upd.when_true, Upd.run_of]

/-- Settles O30: a command of UP_CMD ends by the state of the index that it names, and an image by the first check that it fails. -/
theorem microprogramStore : Obligations.MicroprogramStore := by
  intro index region s hlo hi hr hup
  refine ⟨fun h => ?notRegister, fun h => ?notUnregister, fun op named addr len later hc =>
    ⟨?builtinRegister, ?builtinUnregister, ?wrongRegister, ?wrongUnregister, ?register, ?retiring, ?free⟩,
    fun addr len hfind hst => ⟨exec_microprogLoaded_misplaced hi hup hfind hst, fun ha hp hu => ?unreadable, fun ha hp hu hb => ?malformed,
      fun f ha hp hu hb hdig => ?wrongDigest, fun f ha hp hu hb hdig => ?formed⟩, exec_ustoreRewriteDone_eq hr hi hup⟩
  case notRegister => rw [exec_microprogRegister_eq, Upd.run_upCommand_other h]
  case notUnregister => rw [exec_microprogUnregister_eq, Upd.run_upCommand_other h]
  case builtinRegister =>
    rintro rfl hn
    exact (exec_microprogRegister_eq s).trans (by rw [Upd.run_upCommand_builtin hup hc hn]; rfl)
  case builtinUnregister =>
    rintro rfl hn
    exact (exec_microprogUnregister_eq s).trans (by rw [Upd.run_upCommand_builtin hup hc hn]; rfl)
  case wrongRegister =>
    rintro rfl hn hst
    exact (exec_microprogRegister_eq s).trans (by rw [Upd.run_upCommand_wrongState hup hc hn (.inl ⟨rfl, hst⟩)]; rfl)
  case wrongUnregister =>
    rintro rfl hn hst
    exact (exec_microprogUnregister_eq s).trans (by rw [Upd.run_upCommand_wrongState hup hc hn (.inr ⟨rfl, hst⟩)]; rfl)
  case register =>
    rintro rfl hn hst
    exact (exec_microprogRegister_eq s).trans (by rw [Upd.run_upCommand_register hup hc hn rfl hst]; rfl)
  case retiring =>
    rintro rfl hn hst hrefs hm
    have hex := exec_microprogUnregister_eq s
    rw [Upd.run_upCommand_retire hup hc hn rfl hst hm, if_neg hrefs] at hex
    have hfn := (s.dev.withCommands later).fn_withFn (i := named) (f := (s.dev.fn named).retired) rfl
    exact ⟨_, hex, rfl, rfl, rfl, congrArg Fn.state hfn, (congrArg Fn.refs hfn).trans rfl, (congrArg Fn.steps hfn).trans rfl,
      fun i h => Device.fn_withFn_other _ _ h, rfl⟩
  case free =>
    rintro rfl hn hst hrefs hm
    have hex := exec_microprogUnregister_eq s
    rw [Upd.run_upCommand_retire hup hc hn rfl hst hm, if_pos hrefs] at hex
    exact ⟨_, hex, rfl, rfl, rfl, rfl, rfl, Device.withUpLog_upLog ..⟩
  case unreadable =>
    rw [exec_microprogLoaded_read hi hup hfind hst ha hp, Upd.checkImage_unreadable hu, Upd.run_refuseImage]
    rfl
  case malformed =>
    rw [exec_microprogLoaded_read hi hup hfind hst ha hp, Upd.checkImage_malformed hu hb, Upd.run_refuseImage]
    rfl
  case wrongDigest =>
    rw [exec_microprogLoaded_read hi hup hfind hst ha hp, Upd.checkImage_formed hu hb, Upd.checkFn_wrongDigest hdig, Upd.run_refuseImage]
    rfl
  case formed =>
    have hex := exec_microprogLoaded_read hi hup hfind hst ha hp
    rw [Upd.checkImage_formed hu hb] at hex
    split_ifs with hs hfull
    case pos => rw [hex, Upd.checkFn_unsigned hdig hs, Upd.run_refuseImage]; rfl
    case pos => rw [hex, Upd.checkFn_full hdig (by simpa using hs) hfull, Upd.run_refuseImage]; rfl
    case neg =>
      obtain ⟨hq, hsfu, hse⟩ := Upd.touch_units addr len (s.dev.withLoads (s.dev.sfu.loads.filter (·.1 ≠ index)))
      rw [Upd.checkFn_good hdig (by simpa using hs) hfull] at hex
      obtain ⟨hq', hsfu', hlog⟩ := Upd.activate_units index f
        ((Upd.touch addr len).run (s.dev.withLoads (s.dev.sfu.loads.filter (·.1 ≠ index))))
      rw [hsfu] at hsfu'
      rw [hse] at hlog
      exact ⟨_, hex, rfl, hq'.trans hq, hsfu', hlog⟩

end Sys2Proof.Machine
end

