-- ==== Sys2Proof/Proofs/RunningCommand.lean ====
section
/-! The last tile of a running command: what beginning and ending it leave, and how the command stands then (R231, R253, R255, R362). -/

namespace Sys2Proof.Machine

/-! ### What a command's own progress leaves -/

/-- The memory, the injections armed, the weights, the bells and the contexts. -/
def Device.tileView (d : Device) : Memory × Sparse Word × Weights × Bells × Sparse Ctx := (d.mm, d.rf.armed, d.wt, d.bl, d.q.ctxs)

theorem Device.of_tileView {d x : Device} (h : x.tileView = d.tileView) :
    x.mm = d.mm ∧ x.rf.armed = d.rf.armed ∧ x.wt = d.wt ∧ x.bl = d.bl ∧ x.q.ctxs = d.q.ctxs := by
  simpa only [Device.tileView, Prod.mk.injEq] using h

theorem fixesTile_cur (e k : Nat) (f : Cmd → Cmd) : (Upd.cur e k f).Fixes Device.tileView := ⟨fun _ => rfl⟩

theorem fixesTile_event (e ev n : Nat) : (Upd.event e ev n).Fixes Device.tileView := ⟨fun d => by
  obtain ⟨o, ho⟩ := Upd.run_event e ev n d
  rw [ho]
  rfl⟩

theorem fixesTile_issued (v : Env) : (Upd.issued v).Fixes Device.tileView :=
  fixes_cons (fixesTile_cur ..) (fixes_cons (fixes_when (fixesTile_event ..)) fixes_nil)

theorem fixesTile_retired (v : Env) : (Upd.retired v).Fixes Device.tileView :=
  fixes_cons (fixesTile_cur ..) (fixes_cons ⟨fun _ => rfl⟩ fixes_nil)

/-! ### The command in its slot -/

/-- The slot holds a command. -/
def Device.Busy (d : Device) (e k : Nat) : Prop := (d.slot e k).cur.isSome = true

/-- The slot's command is decided with the status. -/
def Device.Decided (d : Device) (e k : Nat) (st : Status) : Prop := ∃ c, (d.slot e k).cur = some c ∧ c.status = some st

section
variable {d : Device} {e k : Nat}

/-- The queues decide which slots hold a command. -/
theorem Device.Busy.of_q (h : d.Busy e k) {x : Device} (hq : x.q = d.q) : x.Busy e k := by
  unfold Device.Busy Device.slot at h ⊢
  rwa [hq]

/-- A command changed is the slot's command. -/
theorem Upd.run_cur_slot {c : Cmd} (h : (d.slot e k).cur = some c) (f : Cmd → Cmd) :
    (((Upd.cur e k f).run d).slot e k).cur = some (f c) := by
  rw [Upd.run_cur, h, Device.slot_withSlot]
  · rfl
  · intro heq
    have hnone : some (f c) = none := congrArg Slot.cur heq
    cases hnone

theorem Device.Busy.cur (h : d.Busy e k) (f : Cmd → Cmd) : ((Upd.cur e k f).run d).Busy e k := by
  obtain ⟨c, hc⟩ := Option.isSome_iff_exists.1 h
  exact Option.isSome_iff_exists.2 ⟨f c, Upd.run_cur_slot hc f⟩

theorem Device.Busy.decide (h : d.Busy e k) (st : Status) (r : Option FaultRec) : ((Upd.decide e k st r).run d).Decided e k st := by
  obtain ⟨c, hc⟩ := Option.isSome_iff_exists.1 h
  exact ⟨_, Upd.run_cur_slot hc _, rfl⟩

theorem Device.Busy.issued {v : Env} (h : d.Busy v.e v.s) : ((Upd.issued v).run d).Busy v.e v.s := by
  rw [Upd.issued, Upd.run_pair]
  exact (h.cur _).of_q ((quiet_when fun _ => quiet_event _ _ _).q _)

theorem Device.Busy.retired {v : Env} (h : d.Busy v.e v.s) : ((Upd.retired v).run d).Busy v.e v.s := by
  rw [Upd.retired, Upd.run_pair]
  exact h.cur _

/-- The command that runs on an engine is in its slot. -/
theorem Device.env_busy {v : Env} (h : d.env e = some v) : v.e = e ∧ d.Busy e v.s := by
  unfold Device.env Device.running at h
  split at h
  · cases h
  · rename_i s c hr
    cases h
    split at hr
    · cases hr
    · obtain ⟨c', hc', heq⟩ := Option.map_eq_some_iff.1 hr
      obtain ⟨rfl, rfl⟩ := Prod.mk.inj heq
      exact ⟨rfl, Option.isSome_iff_exists.2 ⟨_, hc'⟩⟩

end

/-- With nothing armed no word of a cell store is flipped (R361). -/
theorem Upd.run_storeCe {d : Device} (h : d.rf.armed = []) (v : Env) : (Upd.storeCe v).run d = d := by
  rw [Upd.storeCe, Upd.run_read]
  induction d.cellsOf v.e with
  | nil => rfl
  | cons c l ih => rw [Upd.run_each_cons, Upd.run_inject h]; exact ih

/-! ### One tile of a command that uses no unit an injection meets -/

section
variable {s : State} {e op : Nat} {v : Env} {i : Instr} {f : Device → Env → TileRes}
variable (hv : s.dev.env e = some v) (hs : v.cmd.status = none) (ha : s.dev.acts e v.s = true) (hn : s.dev.rf.armed = [])
variable (hi : exec i s = .next { s with dev := (Upd.oneTile e [op] f).run s.dev }) (ho : v.op = op)
include hv hs ha hn hi ho

/-- A tile that ends its command and changes nothing else. -/
theorem exec_tile_stop {st : Status} {r : Option FaultRec} (hf : f s.dev v = .stop st r .skip) :
    ∃ u, exec i s = .next u ∧ (u.pending = s.pending ∧ u.dev.Decided e v.s st) ∧ u.dev.tileView = s.dev.tileView := by
  refine ⟨_, hi, ⟨rfl, ?_⟩, ?_⟩ <;> dsimp only <;> rw [Upd.run_oneTile hv (by simp [ho]) hs ha hn rfl, hf]
  · exact (Device.env_busy hv).2.decide st r
  · rfl

/-- A last tile: the command is issued, the tile's update made, and the command ends well. -/
theorem exec_tile_last {w : Upd} (hf : f s.dev v = .last w)
    (hw : ∀ x : Device, x.tileView = s.dev.tileView → x.Busy e v.s → (w.run x).Busy e v.s) :
    ∃ x u, x.tileView = s.dev.tileView ∧ x.Busy e v.s ∧ exec i s = .next u ∧
      (u.pending = s.pending ∧ u.dev.Decided e v.s .ok) ∧ u.dev.tileView = (w.run x).tileView := by
  obtain ⟨rfl, hbusy⟩ := Device.env_busy hv
  have hview := (fixesTile_issued v).same s.dev
  have hstore : (Upd.storeCe v).run ((Upd.issued v).run s.dev) = (Upd.issued v).run s.dev :=
    Upd.run_storeCe ((Device.of_tileView hview).2.1.trans hn) v
  refine ⟨(Upd.issued v).run s.dev, _, hview, hbusy.issued, hi, ⟨rfl, ?_⟩, ?_⟩ <;> dsimp only <;>
    rw [Upd.run_oneTile hv (by simp [ho]) hs ha hn rfl, hf] <;>
    simp only [Upd.run_all_cons, Upd.run_all_nil, hstore]
  · exact (hw _ hview hbusy.issued).retired.decide .ok none
  · exact ((fixesTile_cur ..).same _).trans ((fixesTile_retired v).same _)

end

end Sys2Proof.Machine
end

