-- ==== Sys2Proof/Proofs/SoundMemory.lean ====
section
/-! Writes to device memory: they leave the queues, the weights and the bells, and where no line is damaged and nothing is armed the memory that
they give depends on the memory alone (R210, R211, R217, R361). -/

namespace Sys2Proof.Machine

/-! ### A write leaves the units -/

/-- The queues, the weights and the bells. -/
def Device.units (d : Device) : Queues × Weights × Bells := (d.q, d.wt, d.bl)

theorem Device.of_units {d x : Device} (h : x.units = d.units) : x.q = d.q ∧ x.wt = d.wt ∧ x.bl = d.bl := by
  simpa only [Device.units, Prod.mk.injEq] using h

theorem fixesUnits_quiet {u : Upd} (h : u.Quiet) : u.Fixes Device.units := ⟨fun d => by
  obtain ⟨-, -, -, hq, -, -, hwt, hbl, -, -⟩ := h.fields d
  simp only [Device.units, hq, hwt, hbl]⟩

theorem fixesUnits_core {u : Upd} (h : u.Fixes Device.core) : u.Fixes Device.units := ⟨fun d => by
  have hcore := h.same d
  simp only [Device.core, Prod.mk.injEq] at hcore
  simp only [Device.units, Prod.mk.injEq]
  tauto⟩

theorem fixesUnits_writeLine (slot pa : Nat) (bs : List Byte) : (Upd.writeLine slot pa bs).Fixes Device.units := by
  have armed (page bit : Nat) {k : Bool → Upd} (h : ∀ b, (k b).Fixes Device.units) : (Upd.inject page bit k).Fixes Device.units :=
    fixes_read fun d => by
      split
      · exact fixes_cons (fixesUnits_quiet (quiet_fire _ _)) (fixes_cons (h true) fixes_nil)
      · exact h false
  refine fixes_read fun d => ?_
  dsimp only
  split
  · exact fixesUnits_quiet (quiet_uncorrectable _ _)
  · exact fixes_cons (fixes_when (fixesUnits_core (fixesCore_corrected _))) <| fixes_cons (fixes_when ⟨fun _ => rfl⟩) <|
      fixes_cons ⟨fun _ => rfl⟩ <| fixes_cons ⟨fun _ => rfl⟩ <| fixes_cons ⟨fun _ => rfl⟩ <| fixes_cons ⟨fun _ => rfl⟩ <|
      fixes_cons (fixes_when ⟨fun _ => rfl⟩) <| fixes_cons (armed _ _ fun _ => fixes_when ⟨fun _ => rfl⟩) <|
      fixes_cons (armed _ _ fun _ => fixes_when ⟨fun _ => rfl⟩) <|
      fixes_cons (armed _ _ fun _ => fixes_when (fixesUnits_quiet (quiet_error _ _ _ _ _))) fixes_nil

theorem fixesUnits_write (slot pa : Nat) (bs : List Byte) : (Upd.write slot pa bs).Fixes Device.units :=
  fixes_each fun _ => fixes_when (fixesUnits_writeLine ..)

/-! ### Memory without damage -/

/-- No line is damaged and no injection armed. -/
def Device.Sound (d : Device) : Prop := d.mm.lineErr = [] ∧ d.rf.armed = []

theorem Device.Sound.lineErrAt {d : Device} (h : d.Sound) (line : Nat) : d.lineErrAt line = none := by
  simp [Device.lineErrAt, h.1]

theorem Device.Sound.ueIn {d : Device} (h : d.Sound) (pa len : Nat) : d.ueIn pa len = none := by
  simp [Device.ueIn, h.lineErrAt]

theorem Device.Sound.writeUe {d : Device} (h : d.Sound) (pa len : Nat) : d.writeUe pa len = none := by
  simp [Device.writeUe, h.lineErrAt]

/-- With nothing armed every packet crosses (R26). -/
theorem Device.Sound.run_cross {d : Device} (h : d.Sound) (src dst : Nat) (u : Upd) : (Upd.cross src dst u).run d = u.run d :=
  Upd.run_cross (by simp [Device.routesClear, Device.unarmed h.2]) src dst u

/-- The memory, the injections armed, and the units. -/
def Device.dataView (d : Device) : Memory × Sparse Word × Queues × Weights × Bells := (d.mm, d.rf.armed, d.q, d.wt, d.bl)

theorem Device.of_dataView {d x : Device} (h : x.dataView = d.dataView) :
    x.mm = d.mm ∧ x.rf.armed = d.rf.armed ∧ x.q = d.q ∧ x.wt = d.wt ∧ x.bl = d.bl := by
  simpa only [Device.dataView, Prod.mk.injEq] using h

theorem Device.tileView_of_dataView {d x : Device} (h : x.dataView = d.dataView) : x.tileView = d.tileView := by
  obtain ⟨hmm, harmed, hq, hwt, hbl⟩ := Device.of_dataView h
  simp only [Device.tileView, hmm, harmed, hq, hwt, hbl]

/-- In a sound device the update leaves the memory, the injections and the units. -/
structure Upd.Harmless (u : Upd) : Prop where
  same : ∀ d : Device, d.Sound → (u.run d).dataView = d.dataView

theorem Upd.Harmless.sound {u : Upd} (h : u.Harmless) {d : Device} (hd : d.Sound) : (u.run d).Sound := by
  obtain ⟨hmm, harmed, -⟩ := Device.of_dataView (h.same d hd)
  exact ⟨hmm ▸ hd.1, harmed.trans hd.2⟩

theorem harmless_of_fixes {u : Upd} (h : u.Fixes Device.dataView) : u.Harmless := ⟨fun d _ => h.same d⟩
theorem harmless_skip : Upd.skip.Harmless := harmless_of_fixes fixes_skip
theorem harmless_nil : (Upd.all []).Harmless := harmless_of_fixes fixes_nil
theorem harmless_cons {u : Upd} {l : List Upd} (h : u.Harmless) (k : (Upd.all l).Harmless) : (Upd.all (u :: l)).Harmless :=
  ⟨fun d hd => (k.same _ (h.sound hd)).trans (h.same d hd)⟩
theorem harmless_read {k : Device → Upd} (h : ∀ d : Device, d.Sound → (k d).Harmless) : (Upd.read k).Harmless := ⟨fun d hd => (h d hd).same d hd⟩
theorem harmless_when {c : Bool} {u : Upd} (h : u.Harmless) : (Upd.when c u).Harmless := by
  cases c
  · exact harmless_skip
  · exact h
theorem harmless_each {α : Type} {l : List α} {f : α → Upd} (h : ∀ a, (f a).Harmless) : (Upd.each l f).Harmless := by
  induction l with
  | nil => exact harmless_nil
  | cons a r ih => exact harmless_cons (h a) ih

theorem harmless_inject {page bit : Nat} {k : Bool → Upd} (h : (k false).Harmless) : (Upd.inject page bit k).Harmless :=
  ⟨fun d hd => by rw [Upd.run_inject hd.2]; exact h.same d hd⟩

theorem harmless_cross {src dst : Nat} {u : Upd} (h : u.Harmless) : (Upd.cross src dst u).Harmless :=
  ⟨fun d hd => by rw [hd.run_cross]; exact h.same d hd⟩

theorem harmless_count (a n : Nat) : (Upd.count a n).Harmless := ⟨fun _ _ => rfl⟩

theorem harmless_event (e ev n : Nat) : (Upd.event e ev n).Harmless := ⟨fun d _ => by
  obtain ⟨o, ho⟩ := Upd.run_event e ev n d
  rw [ho]
  rfl⟩

theorem harmless_error (page bit : Nat) (r : FaultRec) (count injected : Bool) : (Upd.error page bit r count injected).Harmless := by
  have armed {u : Upd} (h : u.Fixes Device.armedView) : u.Fixes fun d => d.rf.armed := ⟨fun d => congrArg Prod.snd (h.same d)⟩
  have hquiet : (Upd.error page bit r count injected).Quiet := quiet_error _ _ _ _ _
  have harmed : (Upd.error page bit r count injected).Fixes fun d => d.rf.armed := fixes_read fun d =>
    fixes_cons (fixes_cons ⟨fun _ => rfl⟩ (fixes_cons (armed (fixesArmed_pageVector ..)) fixes_nil))
      (fixes_cons (fixes_when (armed (fixesArmed_record _))) fixes_nil)
  exact ⟨fun d _ => by
    obtain ⟨-, hmm, -, hq, -, -, hwt, hbl, -, -⟩ := hquiet.fields d
    simp only [Device.dataView, hmm, harmed.same, hq, hwt, hbl]⟩

/-- Reading lines that are not damaged (R211). -/
theorem harmless_touch (pa len : Nat) : (Upd.touch pa len).Harmless :=
  harmless_each fun l => harmless_read fun d hd => by
    simp only [hd.lineErrAt]
    exact harmless_cons (harmless_count ..) (harmless_cons harmless_skip harmless_nil)

/-! ### Two devices with one memory -/

/-- Two sound devices hold the same memory. -/
structure Device.SameMemory (x d : Device) : Prop where
  mm : x.mm = d.mm
  left : x.Sound
  right : d.Sound

/-- The memory that the update gives depends, in sound devices, on the memory alone. -/
structure Upd.MemoryOnly (u : Upd) : Prop where
  same : ∀ x d : Device, x.SameMemory d → (u.run x).SameMemory (u.run d)

theorem memoryOnly_skip : Upd.skip.MemoryOnly := ⟨fun _ _ h => h⟩
theorem memoryOnly_nil : (Upd.all []).MemoryOnly := ⟨fun _ _ h => h⟩
theorem memoryOnly_cons {u : Upd} {l : List Upd} (h : u.MemoryOnly) (k : (Upd.all l).MemoryOnly) : (Upd.all (u :: l)).MemoryOnly :=
  ⟨fun x d hxd => k.same _ _ (h.same x d hxd)⟩
theorem memoryOnly_when {c : Bool} {u : Upd} (h : u.MemoryOnly) : (Upd.when c u).MemoryOnly := by
  cases c
  · exact memoryOnly_skip
  · exact h
theorem memoryOnly_each {α : Type} {l : List α} {f : α → Upd} (h : ∀ a, (f a).MemoryOnly) : (Upd.each l f).MemoryOnly := by
  induction l with
  | nil => exact memoryOnly_nil
  | cons a r ih => exact memoryOnly_cons (h a) ih

/-- An update that is chosen by looking at the memory. -/
theorem memoryOnly_read {k : Device → Upd} (hk : ∀ x d : Device, k x = k { d with mm := x.mm }) (h : ∀ d : Device, d.Sound → (k d).MemoryOnly) :
    (Upd.read k).MemoryOnly :=
  ⟨fun x d hxd => by
    have hsame : k x = k d := by rw [hk x d, hxd.mm]
    rw [Upd.run_read, Upd.run_read, hsame]
    exact (h d hxd.right).same x d hxd⟩

theorem memoryOnly_of_harmless {u : Upd} (h : u.Harmless) : u.MemoryOnly := ⟨fun x d hxd => by
  have hx := (Device.of_dataView (h.same x hxd.left)).1
  have hd := (Device.of_dataView (h.same d hxd.right)).1
  exact ⟨(hx.trans hxd.mm).trans hd.symm, h.sound hxd.left, h.sound hxd.right⟩⟩

/-- An update of the memory that damages no line. -/
theorem memoryOnly_update {u : Upd} (g : Memory → Memory) (hg : ∀ m : Memory, m.lineErr = [] → (g m).lineErr = [])
    (h : ∀ d, (u.run d).mm = g d.mm ∧ (u.run d).rf = d.rf) : u.MemoryOnly := ⟨fun x d hxd => by
  have sound {y : Device} (hy : y.Sound) : (u.run y).Sound := ⟨(h y).1 ▸ hg _ hy.1, (h y).2 ▸ hy.2⟩
  exact ⟨by rw [(h x).1, (h d).1, hxd.mm], sound hxd.left, sound hxd.right⟩⟩

theorem memoryOnly_store (pa : Nat) (bs : List Byte) : (Upd.store pa bs).MemoryOnly :=
  memoryOnly_update (fun m => { m with cells := storeBytes m.cells pa bs }) (fun _ h => h) fun _ => ⟨rfl, rfl⟩

theorem memoryOnly_tagLine (line slot : Nat) : (Upd.tagLine line slot).MemoryOnly :=
  memoryOnly_update (fun m => { m with lineKey := put m.lineKey line ⟨slot, look m.keys slot 0⟩ ⟨0, m.fillGen⟩ }) (fun _ h => h)
    fun _ => ⟨rfl, rfl⟩

theorem memoryOnly_lineErr (line : Nat) : (Upd.lineErr line none).MemoryOnly :=
  memoryOnly_update (fun m => { m with lineErr := m.lineErr.filter (·.1 ≠ line) }) (fun m h => by simp [h]) fun _ => ⟨rfl, rfl⟩

/-- A line that is not damaged is written (R210, R217). -/
theorem memoryOnly_writeLine (slot pa : Nat) (bs : List Byte) : (Upd.writeLine slot pa bs).MemoryOnly := by
  refine memoryOnly_read (fun _ _ => rfl) fun d hd => ?_
  simp only [hd.lineErrAt, reduceCtorEq, decide_false, Bool.and_false, Bool.false_eq_true, if_false]
  have noted {u : Upd} (h : u.Harmless) : u.MemoryOnly := memoryOnly_of_harmless h
  exact memoryOnly_cons memoryOnly_skip <| memoryOnly_cons (memoryOnly_when (memoryOnly_store ..)) <|
    memoryOnly_cons (memoryOnly_store ..) <| memoryOnly_cons (memoryOnly_tagLine ..) <| memoryOnly_cons (memoryOnly_lineErr _) <|
    memoryOnly_cons (noted (harmless_count ..)) <| memoryOnly_cons (memoryOnly_when (noted (harmless_count ..))) <|
    memoryOnly_cons (noted (harmless_inject harmless_skip)) <| memoryOnly_cons (noted (harmless_inject harmless_skip)) <|
    memoryOnly_cons (noted (harmless_inject harmless_skip)) memoryOnly_nil

theorem memoryOnly_write (slot pa : Nat) (bs : List Byte) : (Upd.write slot pa bs).MemoryOnly :=
  memoryOnly_each fun _ => memoryOnly_when (memoryOnly_writeLine ..)

end Sys2Proof.Machine
end

