-- ==== Sys2Proof/Proofs/MemoryTile.lean ====
section
/-! A tile that reads one range of device memory and writes another: when it is carried out, and what it does (R231, R232, R250). -/

namespace Sys2Proof.Machine

/-! ### What a tile notes of its accesses -/

theorem harmless_touchSegs (l : List Seg) : (Upd.touchSegs l).Harmless := harmless_each fun a => by
  split
  · exact harmless_touch ..
  · exact harmless_skip

theorem harmless_readEvents (e : Nat) (l : List Seg) : (Upd.readEvents e l).Harmless := harmless_each fun a => by
  split
  · exact harmless_cons (harmless_cross harmless_skip) (harmless_cons (harmless_event ..) harmless_nil)
  · exact harmless_event ..
  · exact harmless_event ..

theorem harmless_bulkEvents (e : Nat) (l : List (Rng × List Seg)) : (Upd.bulkEvents e l).Harmless :=
  harmless_cons (harmless_event ..) (harmless_cons (harmless_event ..) harmless_nil)

theorem harmless_dropBad (e ctx va : Nat) : (Upd.dropBad e ctx va).Harmless := harmless_read fun _ _ =>
  harmless_when (harmless_cons ⟨fun _ _ => rfl⟩ (harmless_cons (harmless_error ..) harmless_nil))

theorem harmless_lookups (e ctx : Nat) (l : List Seg) : (Upd.lookups e ctx l).Harmless := harmless_each fun a =>
  harmless_cons (harmless_dropBad ..) (harmless_cons (harmless_read fun d _ => by
    split
    · exact harmless_cons (harmless_count ..) (harmless_cons (harmless_event ..) harmless_nil)
    · refine harmless_cons (harmless_count ..) (harmless_cons (harmless_event ..) (harmless_cons ?_ harmless_nil))
      split
      · exact harmless_inject ⟨fun _ _ => rfl⟩
      · exact harmless_skip) harmless_nil)

theorem harmless_snare (e rd wr bytes : Nat) : (Upd.snare e rd wr bytes).Harmless :=
  harmless_cons (harmless_count ..) (harmless_cons (harmless_count ..) (harmless_cons (harmless_count ..) (harmless_cons (harmless_event ..) harmless_nil)))

theorem harmless_moved (e rd wr : Nat) : (Upd.moved e rd wr).Harmless :=
  harmless_cons (harmless_count ..) (harmless_cons (harmless_count ..) (harmless_cons (harmless_event ..) (harmless_cons (harmless_event ..) harmless_nil)))

/-! ### The tile -/

/-- What a tile does, in order, before it writes. -/
def Env.fetching (v : Env) (src : Rng) (a b : Seg) : List Upd := [
  .touchSegs [a], .readEvents v.e [a], .bulkEvents v.e [(src, [a])], .lookups v.e v.ctx [a, b], .consume v.key]

theorem harmless_fetching (v : Env) (src : Rng) (a b : Seg) : (Upd.all (v.fetching src a b)).Harmless :=
  harmless_cons (harmless_touchSegs _) <| harmless_cons (harmless_readEvents ..) <| harmless_cons (harmless_bulkEvents ..) <|
    harmless_cons (harmless_lookups ..) <| harmless_cons ⟨fun _ _ => rfl⟩ harmless_nil

/-- What a tile does that reads one range and writes another. -/
def Upd.move (v : Env) (fn : Nat) (src : Rng) (a b : Seg) (w : Work) : Upd :=
  .all (v.fetching src a b ++ [.writeRanges v.key fn [[b]] w.writes, w.extra])

theorem Upd.run_move (v : Env) (fn : Nat) (src : Rng) (a b : Seg) (w : Work) (d : Device) : (Upd.move v fn src a b w).run d =
    w.extra.run ((Upd.writeRanges v.key fn [[b]] w.writes).run ((Upd.all (v.fetching src a b)).run d)) := rfl

/-- A range of device memory is written as one segment. -/
theorem Device.Sound.run_writeRanges {d : Device} (hd : d.Sound) (key fn va pd kd m lb : Nat) {bs : List Byte} (hlen : bs.length ≤ m) :
    (Upd.writeRanges key fn [[⟨va, .mem pd kd, m, lb⟩]] [bs]).run d = (Upd.write kd pd bs).run d := by
  simp only [Upd.writeRanges, Upd.writeSegs, Upd.run_all_cons, Upd.run_all_nil, Upd.run_skip, hd.run_cross, List.take_of_length_le hlen]

section
variable {d : Device} (hd : d.Sound) (key fn : Nat) (src dst : Rng) (va vb ps ks pd kd n m la lb : Nat)

/-- Segments of device memory meet no window and no peer (R233, R309). -/
theorem Device.unblocked_mem : d.badWindow [(src, [⟨va, .mem ps ks, n, la⟩]), (dst, [⟨vb, .mem pd kd, m, lb⟩])] = none ∧
    d.lostPeer [⟨va, .mem ps ks, n, la⟩, ⟨vb, .mem pd kd, m, lb⟩] = none := by
  simp [Device.badWindow, Device.lostPeer]

/-- A write to device memory needs neither the host's translations nor the retry store (R228, R299, R300). -/
theorem Device.writable_mem : d.hostWrites key fn [⟨vb, .mem pd kd, m, lb⟩] = .bytes [] ∧ d.writesFit [⟨vb, .mem pd kd, m, lb⟩] = true ∧
    d.overlapsUnretired key [⟨vb, .mem pd kd, m, lb⟩] = false := by
  simp [Device.hostWrites, Got.concat, Device.writesFit, Device.requestsFit, Device.remoteNeeds, Device.overlapsUnretired]

include hd

/-- A range of undamaged device memory is there to be read (R215). -/
theorem Device.Sound.readRanges_mem : d.readRanges key fn [(src, [⟨va, .mem ps ks, n, la⟩])] = .inr ([], false, [d.bytesAt ks ps n]) := by
  simp [Device.readRanges, Device.readSegs, Device.readSeg, Got.concat, Got.append, hd.ueIn]

theorem Device.Sound.segsWriteUe_mem : d.segsWriteUe [⟨vb, .mem pd kd, m, lb⟩] = none := by
  simp [Device.segsWriteUe, hd.writeUe]

end

/-- A tile that finds its bytes and writes them (R231, R232). -/
theorem Device.tile_move {d : Device} (hd : d.Sound) {v : Env} {ranges : List Rng} {src dst : Rng} {va vb ps ks pd kd n m la lb : Nat}
    (hr : d.rangesOf v.ctx ranges = .inr [(src, [⟨va, .mem ps ks, n, la⟩]), (dst, [⟨vb, .mem pd kd, m, lb⟩])])
    (hs : src.write = false) (hw : dst.write = true) {k : List (List Byte) → Work}
    (hmore : (k [d.bytesAt ks ps n]).more = false) (hlast : (k [d.bytesAt ks ps n]).last = true) :
    d.tile v ranges k = .last (.move v (d.ownerOf v.ctx) src ⟨va, .mem ps ks, n, la⟩ ⟨vb, .mem pd kd, m, lb⟩ (k [d.bytesAt ks ps n])) := by
  obtain ⟨hwindow, hpeer⟩ := Device.unblocked_mem (d := d) src dst va vb ps ks pd kd n m la lb
  obtain ⟨hhost, hfit, hfree⟩ := Device.writable_mem (d := d) v.key (d.ownerOf v.ctx) vb pd kd m lb
  simp [Device.tile, hr, hs, hw, hwindow, hpeer, hd.readRanges_mem, hhost, hfit, hfree, hd.segsWriteUe_mem, hmore, hlast, Upd.move, Env.fetching]

/-- A tile whose ranges have translations is carried out by its part (R232, R261). -/
theorem Device.tilePart_of_ranges {d : Device} {v : Env} {whole : List Rng} {l : List (Rng × List Seg)} (h : d.rangesOf v.ctx whole = .inr l)
    (part : List Rng) (k : List (List Byte) → Work) : d.tilePart v whole part k = d.tile v part k := by
  simp only [Device.tilePart, h]
  split_ifs <;> rfl

end Sys2Proof.Machine
end

