-- ==== Sys2Proof/Proofs/EngineCommands.lean ====
section
/-! ADAPTER_BIND, FREE_EPOCH, FREE_SET, the other weight operations with the unit off, and a COPY of one tile (R174, R202, R231, R250, R253). -/

namespace Sys2Proof.Machine

/-! ### Slots that retire (R173, R174) -/

/-- The queues and the slots of the weight sets. -/
def Device.epochView (d : Device) : Queues × Sparse Loaded := (d.q, d.wt.epochs)

theorem Device.of_epochView {d x : Device} (h : x.epochView = d.epochView) : x.q = d.q ∧ ∀ t k, x.epoch t k = d.epoch t k := by
  obtain ⟨hq, hepochs⟩ := Prod.mk.inj h
  exact ⟨hq, fun t k => by simp only [Device.epoch, hepochs]⟩

/-- A set's entry of the set table lies in memory (R171). -/
theorem fixesEpoch_syncSet (t : Nat) : (Upd.syncSet t).Fixes Device.epochView := fixes_read fun d => ⟨fun x => by
  obtain ⟨hq, hwt, -⟩ := Device.of_units ((fixesUnits_write 0 (d.setAddr t) (d.setBytes t)).same x)
  rw [Device.epochView, hq, hwt]
  rfl⟩

/-- A set without a current slot keeps both its slots (R173 step 3). -/
theorem fixesEpoch_noCurrent (t : Nat) : (Upd.noCurrent t).Fixes Device.epochView :=
  fixes_cons ⟨fun _ => rfl⟩ (fixes_cons ⟨fun _ => rfl⟩ (fixes_cons (fixesEpoch_syncSet t) fixes_nil))

theorem Upd.run_epoch (t k : Nat) (f : Loaded → Loaded) {st : EpochState} (hst : st ≠ .free) (hf : ∀ x, (f x).state = st) (d : Device) :
    (((Upd.epoch t k f).run d).epoch t k).state = st := by
  have hne : f (d.epoch t k) ≠ {} := fun h => hst ((hf _).symm.trans (congrArg Loaded.state h))
  exact (congrArg Loaded.state (look_put_ne _ hne)).trans (hf _)

/-- A slot that starts to retire is RETIRING (R173). -/
theorem Upd.run_retire (t k : Nat) (d : Device) : ((Upd.retire t k).run d).q = d.q ∧ (((Upd.retire t k).run d).epoch t k).state = .retiring := by
  rw [Upd.retire, Upd.run_read, Upd.run_pair]
  obtain ⟨hq, hepoch⟩ := Device.of_epochView ((fixesEpoch_syncSet t).same
    ((Upd.epoch t k fun x => { x with state := .retiring, wait := d.boundaries }).run d))
  exact ⟨hq, by rw [hepoch]; exact Upd.run_epoch t k _ (st := .retiring) (by decide) (fun _ => rfl) d⟩

/-- A slot retires, and under the condition its set has no current slot from then on. -/
def Upd.retireFrom (t k : Nat) (c : Bool) : Upd := .all [.retire t k, .when c (.noCurrent t)]

theorem Upd.run_retireFrom (t k : Nat) (c : Bool) (d : Device) :
    ((Upd.retireFrom t k c).run d).q = d.q ∧ (((Upd.retireFrom t k c).run d).epoch t k).state = .retiring := by
  obtain ⟨hq, hepoch⟩ := Device.of_epochView ((fixes_when (c := c) (fixesEpoch_noCurrent t)).same ((Upd.retire t k).run d))
  obtain ⟨hq', hstate⟩ := Upd.run_retire t k d
  rw [Upd.retireFrom, Upd.run_pair]
  exact ⟨hq.trans hq', by rw [hepoch]; exact hstate⟩

/-! ### What the tile functions answer -/

section
variable {d : Device} {v : Env}

theorem tileAdapterBind_unbind (hd : d.setDenied v.ctx (v.fld 34 1) = false) (ha : v.fld 32 2 = 0xFFFF) :
    tileAdapterBind d v = .last (.ctx v.ctx fun c => { c with adapters := (d.ctx v.ctx).adapters.filter (·.1 ≠ v.fld 34 1) }) := by
  simp [tileAdapterBind, hd, ha]

theorem tileAdapterBind_add (hd : d.setDenied v.ctx (v.fld 34 1) = false) (ha : v.fld 32 2 ≠ 0xFFFF)
    (hs : (d.adapterSlot (v.fld 32 2)).state = .ready) (ho : (d.adapterSlot (v.fld 32 2)).owner = d.ownerOf v.ctx)
    (hb : (d.adapterSlot (v.fld 32 2)).base = v.fld 34 1) (hl : ((d.ctx v.ctx).adapters.filter (·.1 ≠ v.fld 34 1)).length < 16) :
    tileAdapterBind d v = .last (.ctx v.ctx fun c =>
      { c with adapters := (d.ctx v.ctx).adapters.filter (·.1 ≠ v.fld 34 1) ++ [(v.fld 34 1, v.fld 32 2)] }) := by
  have hall : ¬((d.adapterSlot (v.fld 32 2)).state ≠ .ready ∨ (d.adapterSlot (v.fld 32 2)).owner ≠ d.ownerOf v.ctx ∨
      (d.adapterSlot (v.fld 32 2)).base ≠ v.fld 34 1 ∨ ((d.ctx v.ctx).adapters.filter (·.1 ≠ v.fld 34 1)).length ≥ 16) := by
    rintro (h | h | h | h)
    · exact h hs
    · exact h ho
    · exact h hb
    · omega
  simp only [tileAdapterBind, hd, Bool.false_eq_true, if_false, if_neg ha, if_neg hall]

theorem tileAdapterBind_invalid (hd : d.setDenied v.ctx (v.fld 34 1) = false) (ha : v.fld 32 2 ≠ 0xFFFF)
    (h : (d.adapterSlot (v.fld 32 2)).state ≠ .ready ∨ (d.adapterSlot (v.fld 32 2)).owner ≠ d.ownerOf v.ctx ∨
      (d.adapterSlot (v.fld 32 2)).base ≠ v.fld 34 1 ∨ 16 ≤ ((d.ctx v.ctx).adapters.filter (·.1 ≠ v.fld 34 1)).length) :
    tileAdapterBind d v = .stop .adapterInvalid none .skip := by
  simp only [tileAdapterBind, hd, Bool.false_eq_true, if_false, if_neg ha]
  exact if_pos h

theorem tileFreeEpoch_ready (hon : d.wgtOn = true) (hd : d.setDenied v.ctx (v.fld 34 2) = false)
    (hst : (d.epoch (v.fld 34 2) (v.fld 38 1)).state = .ready) : tileFreeEpoch d v = .stop .weightBusy none .skip := by
  simp [tileFreeEpoch, hon, hd, hst, freeResult]

theorem tileFreeEpoch_held (hon : d.wgtOn = true) (hd : d.setDenied v.ctx (v.fld 34 2) = false)
    (hst : (d.epoch (v.fld 34 2) (v.fld 38 1)).state = .suspended) (hheld : d.epochHeld (v.fld 34 2) (v.fld 38 1) = true) :
    tileFreeEpoch d v = .last (.retireFrom (v.fld 34 2) (v.fld 38 1) ((d.wset (v.fld 34 2)).current = some (v.fld 38 1))) := by
  simp [tileFreeEpoch, hon, hd, hst, hheld, freeResult, Upd.retireFrom]

theorem tileFreeSet_none (hon : d.wgtOn = true) (hd : d.setDenied v.ctx (v.fld 34 2) = false) (hcur : (d.wset (v.fld 34 2)).current = none) :
    tileFreeSet d v = .last .skip := by
  simp [tileFreeSet, hon, hd, hcur]

theorem tileFreeSet_held (hon : d.wgtOn = true) (hd : d.setDenied v.ctx (v.fld 34 2) = false)
    (hcur : (d.wset (v.fld 34 2)).current = some (v.fld 38 1)) (hheld : d.epochHeld (v.fld 34 2) (v.fld 38 1) = true) :
    tileFreeSet d v = .last (.retireFrom (v.fld 34 2) (v.fld 38 1) true) := by
  simp [tileFreeSet, hon, hd, hcur, hheld, Upd.retireFrom]

/-- With the unit off a weight operation ends at once (log 153). -/
theorem tileWeight_off (hoff : d.wgtOn = false) {f : Device → Env → TileRes} (hf : f ∈ [tileFreeEpoch, tileFreeSet, tileAdopt, tileAdapterFree]) :
    f d v = .stop .weightNotReady none .skip := by
  simp only [List.mem_cons, List.not_mem_nil, or_false] at hf
  rcases hf with rfl | rfl | rfl | rfl
  · simp [tileFreeEpoch, hoff]
  · simp [tileFreeSet, hoff]
  · simp [tileAdopt, hoff]
  · simp [tileAdapterFree, hoff]

end

/-! ### The commands as one tile -/

section
variable {s : State} {e : Nat} (he : e < 32)
include he

/-- A command of one opcode asked for one tile. -/
theorem State.act_tiles_one {i : Instr} (hwf : i.wf = Decidable.decide (e < 32)) (op : Nat) (f : Device → Env → TileRes) :
    s.act i (.tiles e 1 [op] f) = .next { s with dev := (Upd.oneTile e [op] f).run s.dev } :=
  State.act_wf _ _ _ (by simp [hwf, he])

/-- A command of one op of WEIGHT_LOAD asked for one tile. -/
theorem State.act_weightOp_one {i : Instr} (hwf : i.wf = Decidable.decide (e < 32)) {v : Env} (hv : s.dev.env e = some v) {op : Nat}
    (hop : v.fld 32 1 = op) (f : Device → Env → TileRes) :
    s.act i (.weightOp e 1 op f) = .next { s with dev := (Upd.oneTile e [opWeight] f).run s.dev } := by
  rw [State.act_wf _ _ _ (by simp [hwf, he])]
  simp only [Upd.weightOp, Upd.run_times_succ, Upd.run_times_zero, Upd.run_read, hv, hop, decide_true, Upd.when_true]

end

/-! ### COPY (R231, R250) -/

/-- What a COPY of one unit does beside its write: its part of the stream, and what the snare path or the block DMA engine counts. -/
def Upd.copyNoted (v : Env) (bs : List Byte) : Upd := .all [.digest v 0 bs,
  if v.fld 48 8 ≤ 256 then .snare v.e (snarePieces (v.fld 32 8) (v.fld 48 8)) (snarePieces (v.fld 40 8) (v.fld 48 8)) (2 * v.fld 48 8)
  else .moved v.e (v.fld 48 8) (v.fld 48 8)]

/-- The ranges of a COPY of one unit. -/
def Env.copyRanges (v : Env) : List Rng := [⟨v.fld 32 8, v.fld 48 8, if v.fld 48 8 ≤ 256 then 6 else 4, false⟩,
  ⟨v.fld 40 8, v.fld 48 8, if v.fld 48 8 ≤ 256 then 6 else 5, true⟩]

theorem tileCopy_one {d : Device} (hd : d.Sound) {v : Env} (hdone : v.cmd.done = 0) (hpiece : v.cmd.piece = 0) (hlen : v.fld 48 8 ≤ 4096)
    {src dst : Rng} {va vb ps ks pd kd la lb : Nat}
    (hr : d.rangesOf v.ctx v.copyRanges = .inr [(src, [⟨va, .mem ps ks, v.fld 48 8, la⟩]), (dst, [⟨vb, .mem pd kd, v.fld 48 8, lb⟩])])
    (hs : src.write = false) (hw : dst.write = true) :
    ∃ w : Work, w.writes = [d.bytesAt ks ps (v.fld 48 8)] ∧ w.extra = .copyNoted v (d.bytesAt ks ps (v.fld 48 8)) ∧
      tileCopy d v = .last (.move v (d.ownerOf v.ctx) src ⟨va, .mem ps ks, v.fld 48 8, la⟩ ⟨vb, .mem pd kd, v.fld 48 8, lb⟩ w) := by
  have hm : min 4096 (v.fld 48 8) = v.fld 48 8 := by omega
  have hall : v.fld 48 8 ≤ 65536 := by omega
  have hcopy : tileCopy d v = d.tilePart v v.copyRanges v.copyRanges fun bs =>
      { writes := [bs.headD []], extra := .copyNoted v (bs.headD []), more := false } := by
    simp [tileCopy, hdone, hpiece, hm, hall, Env.copyRanges, Upd.copyNoted]
  rw [hcopy, Device.tilePart_of_ranges hr]
  exact ⟨_, rfl, rfl, Device.tile_move hd hr hs hw rfl rfl⟩

/-- The digest's stream and the counters are no part of what a copy moves. -/
theorem Upd.run_copyNoted (v : Env) (bs : List Byte) {d : Device} (hd : d.Sound) (hbusy : d.Busy v.e v.s) :
    ((Upd.copyNoted v bs).run d).Busy v.e v.s ∧ ((Upd.copyNoted v bs).run d).tileView = d.tileView := by
  have hview : ((Upd.digest v 0 bs).run d).tileView = d.tileView := (fixes_when (fixesTile_cur ..)).same d
  have hbusy' : ((Upd.digest v 0 bs).run d).Busy v.e v.s := by
    rw [Upd.digest, Upd.run_when]
    split
    · exact hbusy.cur _
    · exact hbusy
  obtain ⟨hmm, harmed, -⟩ := Device.of_tileView hview
  have hcounts (u : Upd) (hu : u.Harmless) : (u.run ((Upd.digest v 0 bs).run d)).Busy v.e v.s ∧
      (u.run ((Upd.digest v 0 bs).run d)).tileView = d.tileView := by
    have hdata := hu.same _ ⟨hmm ▸ hd.1, harmed.trans hd.2⟩
    exact ⟨hbusy'.of_q (Device.of_dataView hdata).2.2.1, (Device.tileView_of_dataView hdata).trans hview⟩
  rw [Upd.copyNoted, Upd.run_pair]
  split
  · exact hcounts _ (harmless_snare ..)
  · exact hcounts _ (harmless_moved ..)

/-- What a COPY of one unit leaves: its bytes are written, as in any device with the same memory (R217, R250). -/
theorem Upd.run_copyMove {x d : Device} (hx : x.SameMemory d) {v : Env} (hbusy : x.Busy v.e v.s) (fn : Nat) (src : Rng) (a : Seg) {va pd kd m lb : Nat}
    {bs : List Byte} (hlen : bs.length ≤ m) {w : Work} (hw : w.writes = [bs]) (he : w.extra = .copyNoted v bs) :
    ((Upd.move v fn src a ⟨va, .mem pd kd, m, lb⟩ w).run x).Busy v.e v.s ∧
      ((Upd.move v fn src a ⟨va, .mem pd kd, m, lb⟩ w).run x).tileView =
        (((Upd.write kd pd bs).run d).mm, x.rf.armed, x.wt, x.bl, x.q.ctxs) := by
  rw [Upd.run_move, hw, he]
  set y := (Upd.all (v.fetching src a ⟨va, .mem pd kd, m, lb⟩)).run x
  have hfetch : y.dataView = x.dataView := (harmless_fetching ..).same x hx.left
  obtain ⟨hmm, -, hyq, hywt, hybl⟩ := Device.of_dataView hfetch
  have hsound : y.Sound := (harmless_fetching ..).sound hx.left
  have hwrite : ((Upd.write kd pd bs).run y).SameMemory ((Upd.write kd pd bs).run d) :=
    (memoryOnly_write kd pd bs).same y d ⟨hmm.trans hx.mm, hsound, hx.right⟩
  obtain ⟨hq, hwt, hbl⟩ := Device.of_units ((fixesUnits_write kd pd bs).same y)
  rw [hsound.run_writeRanges _ _ _ _ _ _ _ hlen]
  obtain ⟨hb, hview⟩ := Upd.run_copyNoted v bs hwrite.left (hbusy.of_q (hq.trans hyq))
  exact ⟨hb, by rw [hview, Device.tileView, hwrite.mm, hwrite.left.2, hx.left.2, hwt, hbl, hq, hywt, hybl, hyq]⟩

/-! ### What the commands leave -/

section
variable {s : State} {e op : Nat} {v : Env} {i : Instr} {f : Device → Env → TileRes}
variable (hv : s.dev.env e = some v) (hs : v.cmd.status = none) (ha : s.dev.acts e v.s = true) (hn : s.dev.rf.armed = [])
variable (hi : exec i s = .next { s with dev := (Upd.oneTile e [op] f).run s.dev }) (ho : v.op = op)
include hv hs ha hn hi ho

/-- A last tile that gives the context other bindings (R202). -/
theorem exec_bind_last {l : List (Nat × Nat)} (hf : f s.dev v = .last (.ctx v.ctx fun c => { c with adapters := l }))
    (hne : { s.dev.ctx v.ctx with adapters := l } ≠ ({} : Ctx)) :
    ∃ u, exec i s = .next u ∧ (u.pending = s.pending ∧ u.dev.Decided e v.s .ok) ∧
      u.dev.ctx v.ctx = { s.dev.ctx v.ctx with adapters := l } ∧ u.dev.mm = s.dev.mm := by
  obtain ⟨x, u, hx, -, hu, hend, hview⟩ := exec_tile_last hv hs ha hn hi ho hf fun _ _ h => h
  obtain ⟨hmm, -, -, -, hctxs⟩ := Device.of_tileView hx
  obtain ⟨hmm', -, -, -, hctxs'⟩ := Device.of_tileView hview
  have hctx : x.ctx v.ctx = s.dev.ctx v.ctx := by simp only [Device.ctx, hctxs]
  refine ⟨u, hu, hend, ?_, hmm'.trans hmm⟩
  rw [Device.ctx, hctxs', Upd.run_ctx, hctx]
  exact look_put_ne _ hne

/-- A last tile that retires a slot (R173, R174). -/
theorem exec_retireFrom {t k : Nat} {c : Bool} (hf : f s.dev v = .last (.retireFrom t k c)) :
    ∃ u, exec i s = .next u ∧ (u.pending = s.pending ∧ u.dev.Decided e v.s .ok) ∧ (u.dev.epoch t k).state = .retiring := by
  obtain ⟨x, u, -, -, hu, hend, hview⟩ := exec_tile_last hv hs ha hn hi ho hf fun x _ h => h.of_q (Upd.run_retireFrom t k c x).1
  obtain ⟨-, -, hwt, -, -⟩ := Device.of_tileView hview
  refine ⟨u, hu, hend, ?_⟩
  rw [Device.epoch, hwt]
  exact (Upd.run_retireFrom t k c x).2

/-- A weight operation that finds the unit off leaves the weights (log 153). -/
theorem exec_weight_off (hf : f s.dev v = .stop .weightNotReady none .skip) :
    ∃ u, exec i s = .next u ∧ (u.pending = s.pending ∧ u.dev.Decided e v.s .weightNotReady) ∧ u.dev.wt = s.dev.wt := by
  obtain ⟨u, hu, hend, hview⟩ := exec_tile_stop hv hs ha hn hi ho hf
  exact ⟨u, hu, hend, (Device.of_tileView hview).2.2.1⟩

end

/-- A COPY of one unit writes its bytes and leaves the contexts, the weights and the bells (R231, R250). -/
theorem exec_copy_one {s : State} {e : Nat} {v : Env} (hv : s.dev.env e = some v) (hs : v.cmd.status = none) (ha : s.dev.acts e v.s = true)
    (hi : exec (.copy e 1) s = .next { s with dev := (Upd.oneTile e [opCopy] tileCopy).run s.dev }) (ho : v.op = opCopy) (hd : s.dev.Sound)
    (hdone : v.cmd.done = 0) (hpiece : v.cmd.piece = 0) (hlen : v.fld 48 8 ≤ 4096) {src dst : Rng} {va vb ps ks pd kd la lb : Nat}
    (hr : s.dev.rangesOf v.ctx v.copyRanges = .inr [(src, [⟨va, .mem ps ks, v.fld 48 8, la⟩]), (dst, [⟨vb, .mem pd kd, v.fld 48 8, lb⟩])])
    (hsrc : src.write = false) (hdst : dst.write = true) :
    ∃ u, exec (.copy e 1) s = .next u ∧ (u.pending = s.pending ∧ u.dev.Decided e v.s .ok) ∧
      u.dev.mm.cells = ((Upd.write kd pd (s.dev.bytesAt ks ps (v.fld 48 8))).run s.dev).mm.cells ∧
      u.dev.q.ctxs = s.dev.q.ctxs ∧ u.dev.wt = s.dev.wt ∧ u.dev.bl = s.dev.bl := by
  obtain ⟨w, hwrites, hextra, hf⟩ := tileCopy_one hd hdone hpiece hlen hr hsrc hdst
  have same {x : Device} (hx : x.tileView = s.dev.tileView) : x.SameMemory s.dev := by
    obtain ⟨hmm, harmed, -⟩ := Device.of_tileView hx
    exact ⟨hmm, ⟨hmm ▸ hd.1, harmed.trans hd.2⟩, hd⟩
  have hbytes : (s.dev.bytesAt ks ps (v.fld 48 8)).length ≤ v.fld 48 8 := by simp [Device.bytesAt, span]
  obtain ⟨rfl, -⟩ := Device.env_busy hv
  have moved {x : Device} (hx : x.tileView = s.dev.tileView) (hb : x.Busy v.e v.s) :=
    Upd.run_copyMove (same hx) hb (s.dev.ownerOf v.ctx) src ⟨va, .mem ps ks, v.fld 48 8, la⟩ (va := vb) (pd := pd) (kd := kd) (lb := lb)
      hbytes hwrites hextra
  obtain ⟨x, u, hx, hb, hu, hend, hview⟩ := exec_tile_last hv hs ha hd.2 hi ho hf fun x hx hb => (moved hx hb).1
  obtain ⟨-, -, hxwt, hxbl, hxctxs⟩ := Device.of_tileView hx
  have hleft := hview.trans (moved hx hb).2
  simp only [Device.tileView, Prod.mk.injEq] at hleft
  obtain ⟨hmm, -, hwt, hbl, hctxs⟩ := hleft
  exact ⟨u, hu, hend, congrArg Memory.cells hmm, hctxs.trans hxctxs, hwt.trans hxwt, hbl.trans hxbl⟩

/-! ### The statement -/

/-- Settles O16: each command is one tile, and what its tile function answers decides what the command leaves. -/
theorem engineCommands : Obligations.EngineCommands := by
  intro e s v he _ hv hs ha hn
  have hbind : exec (.adapterBind e 1) s = _ := State.act_tiles_one he rfl opBind tileAdapterBind
  have hcopy : exec (.copy e 1) s = _ := State.act_tiles_one he rfl opCopy tileCopy
  have hepoch (hop : v.fld 32 1 = 3) : exec (.freeEpoch e 1) s = _ := State.act_weightOp_one he rfl hv hop tileFreeEpoch
  have hset (hop : v.fld 32 1 = 4) : exec (.freeSet e 1) s = _ := State.act_weightOp_one he rfl hv hop tileFreeSet
  have hadopt (hop : v.fld 32 1 = 2) : exec (.adopt e 1) s = _ := State.act_weightOp_one he rfl hv hop tileAdopt
  have hadapter (hop : v.fld 32 1 = 6) : exec (.adapterFree e 1) s = _ := State.act_weightOp_one he rfl hv hop tileAdapterFree
  refine ⟨fun ho hd hall hst => ?unbind, fun ho hd hne hst hown hbase hlen => ?add, fun ho hd hne hbad => ?invalid,
    fun ho hon hd hop hst => ?ready, fun ho hon hd hop hst hheld => ?held, fun ho hon hd hop hcur => ?none, fun ho hon hd hop hcur hheld => ?set,
    fun ho hoff => ⟨fun hop => ?epochOff, fun hop => ?setOff, fun hop => ?adoptOff, fun hop => ?adapterOff⟩,
    fun src dst ps ks pd kd ls ld ho hdone hpiece _ hlen herr _ hr hsrc hdst => ?copy⟩
  case unbind => exact exec_bind_last hv hs ha hn hbind ho (tileAdapterBind_unbind hd hall) (by simp [hst])
  case add => exact exec_bind_last hv hs ha hn hbind ho (tileAdapterBind_add hd hne hst hown hbase hlen) (by simp)
  case invalid =>
    obtain ⟨u, hu, hend, hview⟩ := exec_tile_stop hv hs ha hn hbind ho (tileAdapterBind_invalid hd hne hbad)
    obtain ⟨hmm, -, -, -, hctxs⟩ := Device.of_tileView hview
    exact ⟨u, hu, hend, hctxs, hmm⟩
  case ready =>
    obtain ⟨u, hu, hend, hview⟩ := exec_tile_stop hv hs ha hn (hepoch hop) ho (tileFreeEpoch_ready hon hd hst)
    obtain ⟨hmm, -, hwt, -, -⟩ := Device.of_tileView hview
    exact ⟨u, hu, hend, hwt, hmm⟩
  case held => exact exec_retireFrom hv hs ha hn (hepoch hop) ho (tileFreeEpoch_held hon hd hst hheld)
  case set => exact exec_retireFrom hv hs ha hn (hset hop) ho (tileFreeSet_held hon hd hcur hheld)
  case none =>
    obtain ⟨x, u, hx, -, hu, hend, hview⟩ := exec_tile_last hv hs ha hn (hset hop) ho (tileFreeSet_none hon hd hcur) fun _ _ h => h
    obtain ⟨hmm, -, hwt, -, -⟩ := Device.of_tileView (hview.trans hx)
    exact ⟨u, hu, hend, hwt, hmm⟩
  case epochOff => exact exec_weight_off hv hs ha hn (hepoch hop) ho (tileWeight_off hoff (by simp))
  case setOff => exact exec_weight_off hv hs ha hn (hset hop) ho (tileWeight_off hoff (by simp))
  case adoptOff => exact exec_weight_off hv hs ha hn (hadopt hop) ho (tileWeight_off hoff (by simp))
  case adapterOff => exact exec_weight_off hv hs ha hn (hadapter hop) ho (tileWeight_off hoff (by simp))
  case copy => exact exec_copy_one hv hs ha hcopy ho ⟨herr, hn⟩ hdone hpiece hlen hr hsrc hdst

end Sys2Proof.Machine
end
